-- ==== Sys2Proof/Word.lean ====
section
/-! DEFINITION. The plain value types of the SL-12: bytes of frames, and the bounded numbers by which the manual
names holds, accounts, sensors and alarm sources. -/

namespace Sys2Proof

/-- A byte of a frame (R169). -/
abbrev Byte := BitVec 8

/-- Hold number less 1: holds 1 to 12 are `0` to `11` (R44, R65). -/
abbrev Hold := Fin 12

/-- The thirteen accounts of a ship (R160): `0` to `11` are holds 1 to 12, `12` is UNPLACED. The code of an account
on a line of a record is its value plus 1 (R186). -/
abbrev Account := Fin 13

/-- Dust sensor number less 1: sensors 1 to 8 are `0` to `7` (R109). -/
abbrev SensorNo := Fin 8

/-- Index of an alarm source in the source table (R126). -/
abbrev SourceNo := Fin 40

end Sys2Proof
end

