-- ==== Sys2Proof/Syntax.lean ====
section
/-! DEFINITION. The commands of the block: one constructor for each row of spec/opcode_table.json, in the table's
order. A frame-taking command's operands are the bytes of the frame that stands at the head of its port's receive
queue (R173, R189), so it carries at most the port; log entry 1. -/

namespace Sys2Proof

/-- The two line ports: U faces the terminal station, D the field devices. -/
inductive PortId
  | U | D
deriving DecidableEq, Repr

/-- The two axes that a sweep or a held move can name (R53, R56). -/
inductive DriveAxis
  | gantry | shuttle
deriving DecidableEq, Repr

/-- The stations the part injects orders to (R93). -/
inductive InjDest
  | feeder
  | drive (a : DriveAxis)
deriving DecidableEq, Repr

/-- The commands. -/
inductive Instr
  /-- RECEIVE_FRAME (R172): bytes arrive at a port's receiver, in this order. -/
  | receiveFrame (p : PortId) (bytes : List Byte)
  /-- TRANSMIT_END (R181): the sending of a frame on the port ends. -/
  | transmitEnd (p : PortId)
  | beltSample
  | positionSample
  | holdsenseSample
  | dustSample
  | feederSample
  | reply
  | run
  | rate
  | stop
  | move
  | halt
  /-- FORWARD_FRAME (R177): the port is the one the frame arrived on. -/
  | forwardFrame (p : PortId)
  /-- REQUEST_DROPPED (R174): the port is the one the frame arrived on. -/
  | requestDropped (p : PortId)
  | badRequest
  | load
  | read
  | status
  | setOptions
  | openShip
  | closeShip
  | startPlan
  | haltPlan
  | resumePlan
  | skipSlot
  | zeroBelt
  | zeroAbort
  | sweep
  | ackAlarm
  | doneAlarm
  | setAlarm
  | readRecords
  | takeRecords
  | restart
  | scaleSilenceExpiry
  | zeroTimeout
  /-- SENSOR_SILENCE_EXPIRY (R119) of one sensor. -/
  | sensorSilenceExpiry (i : SensorNo)
  /-- REPLY_WINDOW_EXPIRY (R94) of one destination's injected-order entry. -/
  | replyWindowExpiry (d : InjDest)
  | stepTimeout
  | stopInputAsserted
  | stopInputCleared
  | resetAsserted
  | resetReleased
  | powerOn
  | badDestination
  | badFrame
deriving DecidableEq, Repr

end Sys2Proof
end

