-- ==== Sys2Proof/Decode.lean ====
section
/-! DEFINITION. Words and commands. spec/opcode_table.json gives no row any bits, so no word spells a command. What a
FRAME's bytes mean is in Machine/Operands.lean (R169 to R172, R186) and Machine/Inspect.lean (R177 to R179). -/

namespace Sys2Proof

/-- The command that a word of `nbits` bits spells by the table's bits: none, since no row of the table has bits. -/
def decodeTableWord (_nbits _w : Nat) : Option Instr := none

end Sys2Proof
end

