-- ==== Sys2Proof/Config.lean ====
section
/-! DEFINITION. The values the manual leaves open: opaque constants with no body, so that a statement about one holds
whatever it is. -/

namespace Sys2Proof

/-- What a 64-bit milligram total holds after `m` mg are added to `a` mg and the sum passes 2^64 - 1. The manual
states the totals as unsigned 64-bit counts (R11, R160, R161) and no result there. DESIGN CHOICE, log entry 4. -/
opaque Config.massOverflow (a m : Nat) : BitVec 64

/-- What the 48-bit extended belt position holds after an advance of `t` mm from `e` mm passes 2^48 - 1 (R14 gives no
result). DESIGN CHOICE, log entry 5. -/
opaque Config.beltOverflow (e t : Nat) : BitVec 48

/-- The four bytes sent for a whole-kilogram value that does not fit the u32 field that R186 and R187 give it.
DESIGN CHOICE, log entry 6. -/
opaque Config.kgOverflow (kg : Nat) : BitVec 32

/-- The position a sweep step starts from when the axis's position is unknown (R57 names its last position; R42 can
make it unknown while the placement state is still PLACED). The argument is State's draw counter. DESIGN CHOICE, log
entry 7. -/
opaque Config.unknownPosition (draw : Nat) : BitVec 32

/-- The target of a sweep step when the sweep hold's inner interval and the axis's limits share no position, so that
the clip of R57 has no result. The argument is State's draw counter. DESIGN CHOICE, log entry 8. -/
opaque Config.emptyClip (draw : Nat) : BitVec 32

end Sys2Proof
end

