-- ==== Sys2Proof/Machine/State.lean ====
section
/-! DEFINITION. The state of the part, block by block, as plain data, and its value right after reset. -/

namespace Sys2Proof.Machine

/-! ## Names -/

/-- Part state (R188). -/
inductive PartState
  | unconfigured | ready
deriving DecidableEq, Repr

/-- Leave option (R47, R193). -/
inductive LeaveOption
  | early | late
deriving DecidableEq, Repr

/-- The field roles of the station table, in its order (R176). -/
inductive Role
  | scale | feeder | gantry | shuttle | chute | holdsense
  | dust (i : SensorNo)
deriving DecidableEq, Repr

/-- The three travel axes (R41). -/
inductive Axis
  | gantry | shuttle | chute
deriving DecidableEq, Repr

/-- Motion of an axis as its samples and replies report it (R42, R63). -/
inductive Motion
  | still | moving
deriving DecidableEq, Repr

/-- Result of the hold-sense head (R43). -/
inductive SenseResult
  | floor | none | fault
deriving DecidableEq, Repr

/-- Feeder state (R90). -/
inductive FeederState
  | stopped | running | fault | unknown
deriving DecidableEq, Repr

/-- Reason codes of refusals and refused answers (R186). -/
inductive Reason
  | notReady | noPlan | closing | notArmed | notPlaced | stopped | dustTrip | meterFault | lineFault | zeroing
  | billFull | notPouring | lineBusy | wrongAxis | outOfHold | held | superseded | cancelled | busy | badValue
  | badEnvelope | badThresholds | notLoaded | badPlan | notActive | notSuspended | notZeroing | notPresented | notTop
  | notHeld | badFrame | badRequest | badDestination | duplicateAddress | noShip
deriving DecidableEq, Repr

/-! ## The line (R169 to R185) -/

/-- A frame between its delimiters, unescaped. Its length byte is the payload's length and its check is computed
(R169, R171): a good frame carries exactly that check, and a rewritten one has it computed afresh (R184). -/
structure Frame where
  dst : Byte
  src : Byte
  kind : Byte
  seq : Byte
  payload : List Byte
deriving DecidableEq, Repr

/-- Receipt status of a frame in a receive queue (R173). -/
inductive Receipt
  | good | overrun
deriving DecidableEq, Repr

/-- An entry of a receive queue (R173). -/
structure RxEntry where
  frame : Frame
  receipt : Receipt
deriving DecidableEq, Repr

/-- A port's receiver (R172): in RECEIVING, the unescaped bytes gathered, and whether a 0xCA has just been seen. -/
inductive Receiver
  | hunt
  | receiving (gathered : List Byte) (escaped : Bool)
deriving DecidableEq, Repr

/-- One line port. -/
structure Port where
  /-- R172 -/
  rx : Receiver
  /-- R173, oldest first -/
  rxQueue : List RxEntry
  /-- R181, oldest first, without the frame being sent -/
  txQueue : List Frame
  /-- R181, the frame being sent -/
  sending : Option Frame
  /-- R174 -/
  tally : Nat
  /-- R175 -/
  lineFault : Bool
deriving DecidableEq, Repr

/-- A frame of the injection queue with the destination it belongs to (R182). -/
structure InjFrame where
  dest : InjDest
  frame : Frame
deriving DecidableEq, Repr

/-- Both ports, port D's injection queue and the injection sequence counter (R182, R183). -/
structure Line where
  u : Port
  d : Port
  injection : List InjFrame
  injSeq : BitVec 8
deriving DecidableEq, Repr

/-! ## Request Handler (R188, R193) and discrete inputs -/

structure Handler where
  part : PartState
  stationsMark : Bool
  scaleMark : Bool
  leave : LeaveOption
  holdMoves : Bool
  ownAddr : Byte
  threshold : Nat
deriving DecidableEq, Repr

/-- Levels of the two discrete inputs: asserted is true (R107, R195). -/
structure Pins where
  reset : Bool
  stop : Bool
deriving DecidableEq, Repr

/-! ## Belt Meter (R1 to R23) -/

/-- The scale table's entry, its fields in table order (R1, R186). -/
structure ScaleTable where
  span : Nat
  capacity : Nat
  deadBand : Nat
  gapLimit : Nat
  segmentLength : Nat
  transitBase : Nat
  chuteFactor : Nat
  beltLength : Nat
  zeroShiftLimit : Nat
  driftLimit : Nat
  scaleSilence : Nat
  zeroTimeout : Nat
deriving DecidableEq, Repr

/-- A ZERO operation in progress (R19, R20). -/
structure ZeroOp where
  oldOffset : Int
  travel : Nat
  loadTravel : Int
  /-- expiry moment of the zero timer -/
  expiry : Nat
deriving DecidableEq, Repr

/-- Outcomes of a ZERO operation (section 1.8). -/
inductive ZeroOutcome
  | zeroed | rejected | loaded | aborted | faulted | timeout
deriving DecidableEq, Repr

structure Meter where
  /-- R1 -/
  table : Option ScaleTable
  /-- Z (R2) -/
  offset : Int
  /-- Pprev and the previous BELT sequence number, held together or not at all (R4, R18) -/
  prev : Option (BitVec 16 × Byte)
  /-- E, mm (R14) -/
  belt : Nat
  /-- drift total, mg (R11) -/
  drift : Nat
  /-- METER FAULT (R15) -/
  fault : Bool
  /-- clearing run (R16) -/
  clearing : Nat
  /-- scale silence timer: its expiry moment while it runs (R17) -/
  silence : Option Nat
  /-- the ZERO operation, when ZEROING (R19) -/
  zero : Option ZeroOp
deriving DecidableEq, Repr

/-! ## Flight Queue (R24 to R40) -/

/-- A segment (R24). -/
structure Segment where
  number : BitVec 16
  shipTag : Nat
  opened : Nat
  transit : Nat
  arrival : Nat
  mass : Nat
  samples : Nat
  overload : Bool
  gapBridged : Bool
  coarse : Bool
deriving DecidableEq, Repr

structure Flight where
  /-- head first (R25) -/
  segments : List Segment
  /-- R26 -/
  nextNumber : BitVec 16
deriving DecidableEq, Repr

/-! ## Placement Unit (R41 to R64) -/

structure AxisLimits where
  low : Nat
  high : Nat
deriving DecidableEq, Repr

/-- The travel table (R41): three axis entries and the SPOUT entry. -/
structure TravelTable where
  gantry : AxisLimits
  shuttle : AxisLimits
  chute : AxisLimits
  settleCount : Nat
  leaveCount : Nat
  /-- seconds -/
  stepTimeout : Nat
deriving DecidableEq, Repr

/-- A loaded entry of the envelope table (R44). -/
structure Envelope where
  gantryMin : Nat
  gantryMax : Nat
  shuttleMin : Nat
  shuttleMax : Nat
  margin : Nat
  chuteMax : Option Nat
deriving DecidableEq, Repr

/-- Last position and motion of an axis, each known or unknown (R42, R63). -/
structure AxisState where
  pos : Option Nat
  motion : Option Motion
deriving DecidableEq, Repr

structure Axes where
  gantry : AxisState
  shuttle : AxisState
  chute : AxisState
deriving DecidableEq, Repr

/-- Placement state (R46). -/
inductive PlaceState
  | clear
  | settling (h : Hold) (n : Nat)
  | placed (h : Hold)
  | leaving (h : Hold) (n : Nat)
deriving DecidableEq, Repr

/-- The held move (R53): the frame keeps its sender and its sequence number. -/
structure HeldMove where
  axis : DriveAxis
  target : Nat
  frame : Frame
deriving DecidableEq, Repr

/-- Phase of a sweep's current step (section 3.6). -/
inductive SweepPhase
  | awaitingReply | awaitingPosition
deriving DecidableEq, Repr

/-- A running sweep (section 3.6). -/
structure Sweep where
  axis : DriveAxis
  /-- direction + -/
  plus : Bool
  step : Nat
  remaining : Nat
  done : Nat
  hold : Hold
  clipped : Bool
  target : Nat
  phase : SweepPhase
  /-- expiry moment of the step timer -/
  timer : Nat
deriving DecidableEq, Repr

/-- Outcomes of a sweep (R62). -/
inductive SweepOutcome
  | done | clipped | cancelled | moveFault
deriving DecidableEq, Repr

structure Placement where
  travel : TravelTable
  envelopes : Vector (Option Envelope) 12
  axes : Axes
  /-- R43; none is unknown -/
  sense : Option SenseResult
  /-- R46 -/
  state : PlaceState
  /-- R47 -/
  pourPoint : Account
  /-- R53 -/
  held : Option HeldMove
  /-- R56 to R62 -/
  sweep : Option Sweep
deriving DecidableEq, Repr

/-! ## Pour Sequencer (R65 to R89) -/

/-- A loaded entry of the hold table (R65). -/
structure HoldEntry where
  arm : Int
  target : Option Nat
deriving DecidableEq, Repr

/-- Hold state (R66). -/
inductive HoldState
  | idle | filling | full
deriving DecidableEq, Repr

/-- A loaded slot of the sequence table (R67). -/
structure Slot where
  hold : Hold
  quota : Nat
deriving DecidableEq, Repr

/-- Visiting order (R71). -/
inductive Order
  | rotate | paired
deriving DecidableEq, Repr

/-- The plan header (R68). -/
structure PlanHeader where
  slotCount : Nat
  order : Order
  startSlot : Nat
  roundLimit : Nat
  trimLimit : Nat
  shipTarget : Option Nat
  maxRate : Nat
deriving DecidableEq, Repr

/-- Plan state (section 4.4). -/
inductive PlanState
  | idle | active | suspended | finished
deriving DecidableEq, Repr

/-- Finish reason of a plan (R73). -/
inductive FinishReason
  | rounds | noneEligible | shipTarget
deriving DecidableEq, Repr

/-- Close-out triggers (R83, R84). -/
inductive EndReason
  | quota | holdTarget | trim | shipTarget | halted | stopInput | dustTrip | meterFault | lineFault | unplaced
deriving DecidableEq, Repr

/-- Pause reasons (R82). -/
inductive PauseReason
  | stopOrder | feederStopped | feederFault
deriving DecidableEq, Repr

/-- Visit state (section 4.5). -/
inductive VisitState
  | waiting | armed | pouring | paused | closing | draining
deriving DecidableEq, Repr

/-- The flags of a visit and of its record (R78, R145). -/
structure VisitFlags where
  clamped : Bool
  derated : Bool
  coarse : Bool
  gapBridged : Bool
  overload : Bool
  hardStopped : Bool
  pausesTruncated : Bool
deriving DecidableEq, Repr

/-- An entry of a pause list (R82). -/
structure Pause where
  reason : PauseReason
  belt : Nat
deriving DecidableEq, Repr

/-- A visit in progress (R78). -/
structure Visit where
  slot : Fin 16
  hold : Hold
  round : Nat
  quota : Nat
  state : VisitState
  poured : Nat
  /-- the set of changed accounts, one mark for each account -/
  changed : Vector Bool 13
  flags : VisitFlags
  start : Option Nat
  pauses : List Pause
  pauseCount : Nat
  endReason : Option EndReason
  reserved : Bool
deriving DecidableEq, Repr

structure Sequencer where
  holds : Vector (Option HoldEntry) 12
  holdStates : Vector HoldState 12
  slots : Vector (Option Slot) 16
  header : Option PlanHeader
  plan : PlanState
  /-- order in use (R70) -/
  order : Order
  /-- start slot in use (R70) -/
  start : Nat
  cursor : Nat
  round : Nat
  skips : Nat
  finish : Option FinishReason
  visit : Option Visit
deriving DecidableEq, Repr

/-! ## Feed Gate (R90 to R108) -/

/-- The orders the part injects (R93). -/
inductive InjOrder
  | stop | rate | move
deriving DecidableEq, Repr

/-- An entry of the injected-order table (R93). -/
structure InjEntry where
  order : InjOrder
  seq : BitVec 8
  deadline : Nat
deriving DecidableEq, Repr

structure Gate where
  feeder : FeederState
  lastRate : Option Nat
  rateLimit : Nat
  /-- the gate table's one field, ms (R92) -/
  replyWindow : Nat
  pendingDerate : Bool
  injFeeder : Option InjEntry
  injGantry : Option InjEntry
  injShuttle : Option InjEntry
  /-- level of FEED PERMIT (R106) -/
  permit : Bool
deriving DecidableEq, Repr

/-! ## Dust Monitor (R109 to R125) -/

/-- Location of a dust head (R109). -/
inductive Location
  | hatch | transfer | spout | deck
deriving DecidableEq, Repr

/-- A loaded sensor entry of the dust table (R109). -/
structure SensorEntry where
  location : Location
  elevated : Nat
  high : Nat
  trip : Nat
  hysteresis : Nat
  shift : Nat
  tripRun : Nat
  silenceTime : Nat
  enabled : Bool
deriving DecidableEq, Repr

/-- Average band of a sensor (R114). -/
inductive AvgBand
  | normal | elevated | high
deriving DecidableEq, Repr

/-- Effective and overall band (R120, R121). -/
inductive Band
  | normal | elevated | high | trip
deriving DecidableEq, Repr

/-- One dust sensor: its table entry and its state. -/
structure Sensor where
  entry : Option SensorEntry
  /-- R113, signed 32-bit -/
  a16 : Int
  avgBand : AvgBand
  /-- trip latch (R116) -/
  latch : Bool
  /-- trip run count (R116) -/
  run : Nat
  /-- silent flag (R119) -/
  silent : Bool
  /-- silence timer: its expiry moment while it runs (R119) -/
  timer : Option Nat
deriving DecidableEq, Repr

structure Dust where
  sensors : Vector Sensor 8
  elevDerate : Nat
  highDerate : Nat
  /-- R121 -/
  overall : Band
  /-- level of SPRAY (R123) -/
  spray : Bool
deriving DecidableEq, Repr

/-! ## Alarm Ladder (R126 to R139) -/

/-- State of an alarm source (R126). -/
inductive AlarmState
  | idle | pending | inService | standing
deriving DecidableEq, Repr

/-- An entry of the source table (R126). -/
structure Source where
  rank : Nat
  record : Bool
  present : Bool
  state : AlarmState
  repeats : Nat
  /-- condition flag (R127) -/
  cond : Bool
deriving DecidableEq, Repr

structure Ladder where
  sources : Vector Source 40
  /-- the service stack, TOP FIRST (R133) -/
  stack : List SourceNo
  /-- the presented source and the rank it is presented at (R129, R130) -/
  presented : Option (SourceNo × Nat)
  /-- level of HORN (R130) -/
  horn : Bool
deriving DecidableEq, Repr

/-! ## Bill Store (R140 to R158) -/

/-- A line of a record (R145). -/
structure BillLine where
  account : Account
  carried : Bool
  /-- whole kg -/
  mass : Nat
deriving DecidableEq, Repr

/-- What a record states beside its sequence number (R145 to R147). A completing visit always has a start and an end
reason (R145); they are carried as the visit holds them. -/
inductive RecordBody
  | visit (ship : Nat) (slot : Fin 16) (hold : Hold) (round quota : Nat) (lines : List BillLine) (overshoot : Nat)
      (endReason : Option EndReason) (flags : VisitFlags) (start : Option Nat) (endBelt : Nat) (trim : Int)
      (pauseCount : Nat) (pauses : List Pause)
  | zero (oldOffset newOffset : Int) (outcome : ZeroOutcome) (travel : Nat)
  | shipOpen (ship : Nat)
  | shipClose (ship : Nat) (lines : List BillLine) (weighedKg unassignedKg : Nat)
deriving DecidableEq, Repr

/-- A held record (R140, R141). -/
structure Record where
  seq : BitVec 32
  body : RecordBody
deriving DecidableEq, Repr

structure BillStore where
  /-- oldest first (R140) -/
  records : List Record
  nextSeq : BitVec 32
  /-- reservation count (R142) -/
  reserved : Nat
  /-- mark table (R151) -/
  marks : Vector Nat 4
  /-- last mark raised, 1 to 4 (R152) -/
  lastMark : Option Nat
  /-- R150 -/
  unbilled : Bool
deriving DecidableEq, Repr

/-! ## Ship Account (R159 to R168) -/

/-- Ship state (R159). -/
inductive ShipState
  | noShip | open
deriving DecidableEq, Repr

structure ShipAccount where
  state : ShipState
  number : Option Nat
  /-- mg -/
  accounts : Vector Nat 13
  /-- report bases, whole kg -/
  bases : Vector Nat 13
  /-- mg -/
  weighed : Nat
  /-- mg -/
  unassigned : Nat
deriving DecidableEq, Repr

/-! ## The machine -/

/-- No event of the SL-12 stops the part: what the manual calls faults are state and alarms. Raised by nothing. -/
inductive Fault
deriving DecidableEq, Repr

/-- Reasons a command has no meaning. -/
inductive Refusal
  /-- A command not modelled yet; raised by exec's refused arms only (there are none). Safe: the model stops. -/
  | notModelled (mnemonic : String)
deriving DecidableEq, Repr

/-- The whole part, with the queue of waiting commands. -/
structure State where
  handler : Handler
  /-- station table (R176), indexed by `Role.index` -/
  stations : Vector (Option Byte) 14
  pins : Pins
  /-- millisecond count (R196) -/
  now : Nat
  line : Line
  meter : Meter
  flight : Flight
  place : Placement
  seq : Sequencer
  gate : Gate
  dust : Dust
  ladder : Ladder
  bills : BillStore
  ship : ShipAccount
  /-- the MODEL's own: numbers the free values drawn (log entry 7) -/
  draws : Nat
  /-- the MODEL's own: commands waiting, first in first out -/
  pending : List Instr
deriving DecidableEq, Repr

/-! ## After reset (R195 and the tables it names) -/

/-- R185. -/
def Port.reset : Port :=
  { rx := .hunt, rxQueue := [], txQueue := [], sending := none, tally := 0, lineFault := false }

/-- R185. -/
def Line.reset : Line := { u := Port.reset, d := Port.reset, injection := [], injSeq := 0 }

/-- R188, R193. -/
def Handler.reset : Handler :=
  { part := .unconfigured, stationsMark := false, scaleMark := false, leave := .early, holdMoves := true,
    ownAddr := 62, threshold := 16 }

/-- Section 1.9. -/
def Meter.reset : Meter :=
  { table := none, offset := 0, prev := none, belt := 0, drift := 0, fault := false, clearing := 0, silence := none,
    zero := none }

/-- R40. -/
def Flight.reset : Flight := { segments := [], nextNumber := 0 }

/-- Cold-reset values of the travel table (R41). -/
def TravelTable.reset : TravelTable :=
  { gantry := ⟨0, 600000⟩, shuttle := ⟨0, 40000⟩, chute := ⟨0, 20000⟩, settleCount := 8, leaveCount := 4,
    stepTimeout := 30 }

def AxisState.reset : AxisState := { pos := none, motion := none }

/-- R64. -/
def Placement.reset : Placement :=
  { travel := TravelTable.reset, envelopes := Vector.replicate 12 none,
    axes := ⟨AxisState.reset, AxisState.reset, AxisState.reset⟩, sense := none, state := .clear, pourPoint := 12,
    held := none, sweep := none }

/-- R89. -/
def Sequencer.reset : Sequencer :=
  { holds := Vector.replicate 12 none, holdStates := Vector.replicate 12 .idle, slots := Vector.replicate 16 none,
    header := none, plan := .idle, order := .rotate, start := 0, cursor := 0, round := 0, skips := 0, finish := none,
    visit := none }

/-- R108. -/
def Gate.reset : Gate :=
  { feeder := .unknown, lastRate := none, rateLimit := 0, replyWindow := 200, pendingDerate := false,
    injFeeder := none, injGantry := none, injShuttle := none, permit := false }

/-- Fresh state of a sensor with a given entry (R111), its timer stopped. -/
def Sensor.fresh (e : Option SensorEntry) : Sensor :=
  { entry := e, a16 := 0, avgBand := .normal, latch := false, run := 0, silent := false, timer := none }

/-- R125. -/
def Dust.reset : Dust :=
  { sensors := Vector.replicate 8 (Sensor.fresh none), elevDerate := 60, highDerate := 25, overall := .normal,
    spray := false }

/-- Ranks after cold reset (R126). -/
def resetRank (i : Nat) : Nat :=
  if i ≤ 1 then 15 else if i ≤ 9 then 14 else if i = 10 then 13 else if i = 11 then 12 else if i ≤ 19 then 11
  else if i ≤ 27 then 10 else if i ≤ 29 then 9 else if i ≤ 31 then 8 else if i = 32 then 7 else if i ≤ 34 then 6
  else if i = 35 then 5 else if i = 36 then 4 else if i = 37 then 3 else if i = 38 then 2 else 1

def Source.reset (i : Nat) : Source :=
  { rank := resetRank i, record := true, present := true, state := .idle, repeats := 0, cond := false }

/-- R139. -/
def Ladder.reset : Ladder :=
  { sources := Vector.ofFn fun i : SourceNo => Source.reset i.val, stack := [], presented := none, horn := false }

/-- R158. -/
def BillStore.reset : BillStore :=
  { records := [], nextSeq := 1, reserved := 0, marks := #v[64, 128, 192, 240], lastMark := none, unbilled := false }

/-- R168. -/
def ShipAccount.reset : ShipAccount :=
  { state := .noShip, number := none, accounts := Vector.replicate 13 0, bases := Vector.replicate 13 0, weighed := 0,
    unassigned := 0 }

/-- The part right after reset (R195), with RESET released and STOP clear (log entry 23), at millisecond 0 (log
entry 2), the queue empty. -/
def State.reset : State :=
  { handler := Handler.reset, stations := Vector.replicate 14 none, pins := ⟨false, false⟩, now := 0,
    line := Line.reset, meter := Meter.reset, flight := Flight.reset, place := Placement.reset,
    seq := Sequencer.reset, gate := Gate.reset, dust := Dust.reset, ladder := Ladder.reset, bills := BillStore.reset,
    ship := ShipAccount.reset, draws := 0, pending := [] }

end Sys2Proof.Machine
end

