-- ==== Sys2Proof/Machine/Operands.lean ====
section
/-! DEFINITION. Operands of commands: byte order, the check and the escaping of frames (R169 to R171), the receiver's
treatment of each byte (R172), field codes (section 10.7), and the parse of sample, order and reply payloads. -/

namespace Sys2Proof.Machine

/-! ## Table entries -/

/-- Replace entry `i` of a table. -/
def upd {α : Type} {n : Nat} (v : Vector α n) (i : Fin n) (x : α) : Vector α n := v.set i.val x i.isLt

/-! ## Byte order (R186: high byte first) -/

/-- The number that bytes give, high byte first. -/
def beNat (bs : List Byte) : Nat := bs.foldl (fun acc b => acc * 256 + b.toNat) 0

/-- The low `k` bytes of `n`, high byte first. -/
def beBytes : Nat → Nat → List Byte
  | 0, _ => []
  | k + 1, n => BitVec.ofNat 8 (n / 256 ^ k) :: beBytes k n

/-- A signed number in `k` bytes, two's complement (R186). -/
def beInt (k : Nat) (x : Int) : List Byte := beBytes k (x % (256 : Int) ^ k).toNat

/-- The signed 16-bit number whose bits read as `n` (R186). -/
def signed16 (n : Nat) : Int := if n < 32768 then (n : Int) else (n : Int) - 65536

/-- The number in the `len` bytes of a payload from offset `off`. -/
def fieldAt (p : List Byte) (off len : Nat) : Nat := beNat ((p.drop off).take len)

/-- A flag as a byte. -/
def boolByte (b : Bool) : Byte := if b then 1 else 0

def byteOf (n : Nat) : Byte := BitVec.ofNat 8 n

/-- A field that may be absent: its presence byte, then its `k` bytes, zeros when absent (R186). -/
def optField (k : Nat) (x : Option Nat) : List Byte :=
  match x with
  | none => 0 :: List.replicate k 0
  | some n => 1 :: beBytes k n

/-- A group of fields of `k` bytes that may be absent, with its presence byte (R186). -/
def optGroup (k : Nat) (x : Option (List Byte)) : List Byte :=
  match x with
  | none => 0 :: List.replicate k 0
  | some bs => 1 :: bs

/-! ## The check (R171) -/

/-- One bit of the cyclic redundancy check with generator x^16 + x^12 + x^5 + 1. -/
def crcBit (r : BitVec 16) : BitVec 16 := if r.msb then (r <<< 1) ^^^ 0x1021#16 else r <<< 1

/-- One byte, most significant bit first. -/
def crcByte (r : BitVec 16) (b : Byte) : BitVec 16 :=
  let r := r ^^^ (b.setWidth 16 <<< 8)
  crcBit (crcBit (crcBit (crcBit (crcBit (crcBit (crcBit (crcBit r)))))))

/-- The check over bytes, register preset to 0xFFFF, not inverted. -/
def crc (bs : List Byte) : BitVec 16 := bs.foldl crcByte 0xFFFF#16

/-! ## Frames on the wire (R169, R170) -/

def delimiter : Byte := 0xC5
def escapeByte : Byte := 0xCA

/-- The bytes the check covers: destination to the last payload byte. -/
def Frame.body (f : Frame) : List Byte :=
  f.dst :: f.src :: f.kind :: f.seq :: byteOf f.payload.length :: f.payload

/-- The two check bytes, high byte first. -/
def Frame.checkBytes (f : Frame) : List Byte := beBytes 2 (crc f.body).toNat

/-- The unescaped content of a frame. -/
def Frame.content (f : Frame) : List Byte := f.body ++ f.checkBytes

/-- R170. -/
def escapeOne (b : Byte) : List Byte :=
  if b = delimiter ∨ b = escapeByte then [escapeByte, b ^^^ 0x40] else [b]

/-- A frame as its port sends it (R184): delimiters round the escaped content. -/
def Frame.wire (f : Frame) : List Byte := delimiter :: (f.content.flatMap escapeOne ++ [delimiter])

/-! ## The receiver (R172) -/

/-- What a byte brings about at a receiver. -/
inductive RxEvent
  | quiet | escapeError | lengthError | checkError
  | good (f : Frame)
deriving DecidableEq, Repr

/-- Judgement of gathered content at a closing delimiter: length, then check. -/
def judge (content : List Byte) : RxEvent :=
  match content with
  | d :: s :: k :: q :: l :: rest =>
    if content.length < 7 ∨ 200 < l.toNat ∨ content.length ≠ l.toNat + 7 then .lengthError
    else
      let f : Frame := { dst := d, src := s, kind := k, seq := q, payload := rest.take l.toNat }
      if rest.drop l.toNat = f.checkBytes then .good f else .checkError
  | _ => .lengthError

/-- An unescaped byte joins the gathered content; at 208 bytes the frame is dropped. -/
def gather (g : List Byte) (b : Byte) : Receiver × RxEvent :=
  let g := g ++ [b]
  if 208 ≤ g.length then (.hunt, .lengthError) else (.receiving g false, .quiet)

/-- The receiver's treatment of one byte (R172). -/
def rxByte (r : Receiver) (b : Byte) : Receiver × RxEvent :=
  match r with
  | .hunt => if b = delimiter then (.receiving [] false, .quiet) else (.hunt, .quiet)
  | .receiving g true =>
    if b ^^^ 0x40 = delimiter ∨ b ^^^ 0x40 = escapeByte then gather g (b ^^^ 0x40) else (.hunt, .escapeError)
  | .receiving g false =>
    if b = delimiter then
      if g = [] then (.receiving [] false, .quiet)
      else
        match judge g with
        | .lengthError => (.hunt, .lengthError)
        | e => (.receiving [] false, e)
    else if b = escapeByte then (.receiving g true, .quiet)
    else gather g b

/-! ## Codes (section 10.7) -/

def kindSample : Byte := 0x11
def kindOrder : Byte := 0x21
def kindReply : Byte := 0x22
def kindRefusal : Byte := 0x23
def kindRequest : Byte := 0x31
def kindAnswer : Byte := 0x32
def kindNotice : Byte := 0x41

/-- Station addresses 0, the terminal station, and 63, global (R176). -/
def addrTerminal : Byte := 0
def addrGlobal : Byte := 63

def Role.index : Role → Fin 14
  | .scale => 0
  | .feeder => 1
  | .gantry => 2
  | .shuttle => 3
  | .chute => 4
  | .holdsense => 5
  | .dust i => ⟨6 + i.val, by omega⟩

def Axis.role : Axis → Role
  | .gantry => .gantry
  | .shuttle => .shuttle
  | .chute => .chute

def axisOf : DriveAxis → Axis
  | .gantry => .gantry
  | .shuttle => .shuttle

/-- The role whose station an injected order goes to (R93). -/
def destRole : InjDest → Role
  | .feeder => .feeder
  | .drive .gantry => .gantry
  | .drive .shuttle => .shuttle

def Axis.code : Axis → Byte
  | .gantry => 0
  | .shuttle => 1
  | .chute => 2

def Axis.ofByte (b : Byte) : Option Axis :=
  if b = 0 then some .gantry else if b = 1 then some .shuttle else if b = 2 then some .chute else none

def Motion.code : Motion → Byte
  | .still => 0
  | .moving => 1

def Motion.ofByte (b : Byte) : Option Motion :=
  if b = 0 then some .still else if b = 1 then some .moving else none

def SenseResult.code : SenseResult → Byte
  | .floor => 0
  | .none => 1
  | .fault => 2

def SenseResult.ofByte (b : Byte) : Option SenseResult :=
  if b = 0 then some .floor else if b = 1 then some .none else if b = 2 then some .fault else none

def FeederState.code : FeederState → Byte
  | .stopped => 0
  | .running => 1
  | .fault => 2
  | .unknown => 3

/-- A feeder state as a sample or reply carries it: code 3 is for STATUS only. -/
def FeederState.ofByte (b : Byte) : Option FeederState :=
  if b = 0 then some .stopped else if b = 1 then some .running else if b = 2 then some .fault else none

/-- Head status: OK is true. -/
def headOfByte (b : Byte) : Option Bool :=
  if b = 0 then some true else if b = 1 then some false else none

def Reason.code : Reason → Byte
  | .notReady => 1
  | .noPlan => 2
  | .closing => 3
  | .notArmed => 4
  | .notPlaced => 5
  | .stopped => 6
  | .dustTrip => 7
  | .meterFault => 8
  | .lineFault => 9
  | .zeroing => 10
  | .billFull => 11
  | .notPouring => 12
  | .lineBusy => 13
  | .wrongAxis => 14
  | .outOfHold => 15
  | .held => 16
  | .superseded => 17
  | .cancelled => 18
  | .busy => 19
  | .badValue => 20
  | .badEnvelope => 21
  | .badThresholds => 22
  | .notLoaded => 23
  | .badPlan => 24
  | .notActive => 25
  | .notSuspended => 26
  | .notZeroing => 27
  | .notPresented => 28
  | .notTop => 29
  | .notHeld => 30
  | .badFrame => 31
  | .badRequest => 32
  | .badDestination => 33
  | .duplicateAddress => 34
  | .noShip => 35

def EndReason.code : EndReason → Byte
  | .quota => 1
  | .holdTarget => 2
  | .trim => 3
  | .shipTarget => 4
  | .halted => 5
  | .stopInput => 6
  | .dustTrip => 7
  | .meterFault => 8
  | .lineFault => 9
  | .unplaced => 10

def FinishReason.code : FinishReason → Byte
  | .rounds => 1
  | .noneEligible => 2
  | .shipTarget => 3

def PauseReason.code : PauseReason → Byte
  | .stopOrder => 1
  | .feederStopped => 2
  | .feederFault => 3

def ZeroOutcome.code : ZeroOutcome → Byte
  | .zeroed => 1
  | .rejected => 2
  | .loaded => 3
  | .aborted => 4
  | .faulted => 5
  | .timeout => 6

def SweepOutcome.code : SweepOutcome → Byte
  | .done => 1
  | .clipped => 2
  | .cancelled => 3
  | .moveFault => 4

def VisitState.code : VisitState → Byte
  | .waiting => 0
  | .armed => 1
  | .pouring => 2
  | .paused => 3
  | .closing => 4
  | .draining => 5

def PlanState.code : PlanState → Byte
  | .idle => 0
  | .active => 1
  | .suspended => 2
  | .finished => 3

def Order.code : Order → Byte
  | .rotate => 0
  | .paired => 1

def Order.fromCode (n : Nat) : Option Order :=
  if n = 0 then some .rotate else if n = 1 then some .paired else none

def HoldState.code : HoldState → Byte
  | .idle => 0
  | .filling => 1
  | .full => 2

def AvgBand.toBand : AvgBand → Band
  | .normal => .normal
  | .elevated => .elevated
  | .high => .high

def Band.code : Band → Byte
  | .normal => 0
  | .elevated => 1
  | .high => 2
  | .trip => 3

def Location.code : Location → Byte
  | .hatch => 0
  | .transfer => 1
  | .spout => 2
  | .deck => 3

def Location.fromCode (n : Nat) : Option Location :=
  if n = 0 then some .hatch else if n = 1 then some .transfer else if n = 2 then some .spout
  else if n = 3 then some .deck else none

def AlarmState.code : AlarmState → Byte
  | .idle => 0
  | .pending => 1
  | .inService => 2
  | .standing => 3

/-- Order codes of injected orders (section 10.7). -/
def InjOrder.code : InjOrder → Byte
  | .rate => 2
  | .stop => 3
  | .move => 4

/-- Code of hold `h`: its number, 1 to 12. -/
def holdCode (h : Hold) : Byte := byteOf (h.val + 1)

/-- Code of an account: hold 1 to 12, UNPLACED 13. -/
def accountCode (a : Account) : Byte := byteOf (a.val + 1)

/-- The account of hold `h` (R160). -/
def holdAccount (h : Hold) : Account := h.castSucc

/-- The unplaced account (R160). -/
def unplaced : Account := 12

/-- The flags byte of a VISIT record (section 10.7). -/
def VisitFlags.code (f : VisitFlags) : Byte :=
  byteOf ((if f.clamped then 1 else 0) + (if f.derated then 2 else 0) + (if f.coarse then 4 else 0)
    + (if f.gapBridged then 8 else 0) + (if f.overload then 16 else 0) + (if f.hardStopped then 32 else 0)
    + (if f.pausesTruncated then 64 else 0))

/-- A segment's flags in STATUS section 2 (section 10.7). -/
def Segment.flagsCode (g : Segment) : Byte :=
  byteOf ((if g.overload then 1 else 0) + (if g.gapBridged then 2 else 0) + (if g.coarse then 4 else 0))

/-! ## Samples (R179, R186) -/

/-- A well-formed sample of a known type. -/
inductive Sample
  | belt (load : Int) (pos : BitVec 16) (ok : Bool)
  | position (a : Axis) (pos : Nat) (m : Motion)
  | holdsense (r : SenseResult)
  | dust (x : Nat) (ok : Bool)
  | feeder (st : FeederState)
deriving DecidableEq, Repr

def parseBelt : List Byte → Option Sample
  | [a, b, c, d, h] =>
    (headOfByte h).map fun ok => .belt (signed16 (beNat [a, b])) (BitVec.ofNat 16 (beNat [c, d])) ok
  | _ => none

def parsePosition : List Byte → Option Sample
  | [x, a, b, c, d, m] =>
    match Axis.ofByte x, Motion.ofByte m with
    | some ax, some mo => some (.position ax (beNat [a, b, c, d]) mo)
    | _, _ => none
  | _ => none

def parseSense : List Byte → Option Sample
  | [r] => (SenseResult.ofByte r).map .holdsense
  | _ => none

def parseDust : List Byte → Option Sample
  | [a, b, h] => (headOfByte h).map fun ok => .dust (beNat [a, b]) ok
  | _ => none

def parseFeeder : List Byte → Option Sample
  | [x] => (FeederState.ofByte x).map .feeder
  | _ => none

/-- The sample a payload carries; none where its type is unknown or R179 finds it malformed. -/
def parseSample : List Byte → Option Sample
  | [] => none
  | t :: fs =>
    if t = 1 then parseBelt fs
    else if t = 2 then parsePosition fs
    else if t = 3 then parseSense fs
    else if t = 4 then parseDust fs
    else if t = 5 then parseFeeder fs
    else none

/-! ## Orders (R179, R186) -/

/-- What the payload of an ORDER holds. -/
inductive OrderForm
  /-- no payload, or a known code with another length than R186 gives it -/
  | malformed
  | unknownCode
  | run (rate : Nat)
  | rate (rate : Nat)
  | stop
  | move (axis : Byte) (target : Nat)
  | halt (axis : Byte)
deriving DecidableEq, Repr

def parseOrder (p : List Byte) : OrderForm :=
  match p with
  | [] => .malformed
  | c :: fs =>
    if c = 1 then (if fs.length = 2 then .run (beNat fs) else .malformed)
    else if c = 2 then (if fs.length = 2 then .rate (beNat fs) else .malformed)
    else if c = 3 then (if fs.length = 0 then .stop else .malformed)
    else if c = 4 then (if fs.length = 5 then .move (fs.headD 0) (beNat (fs.drop 1)) else .malformed)
    else if c = 5 then (if fs.length = 1 then .halt (fs.headD 0) else .malformed)
    else .unknownCode

/-- The order or request code a refusal gives: 0 when the payload held none (R180). -/
def payloadCode (f : Frame) : Byte := f.payload.headD 0

/-! ## Replies (R179, R186) -/

/-- A well-formed REPLY: the order's code, its result (DONE is true) and the device state byte. -/
structure ReplyForm where
  order : Byte
  done : Bool
  device : Byte
deriving DecidableEq, Repr

def parseReply : List Byte → Option ReplyForm
  | [o, r, d] => if r = 0 then some ⟨o, true, d⟩ else if r = 1 then some ⟨o, false, d⟩ else none
  | _ => none

/-- R91 asks whether a failed reply answers a RUN or a RATE. -/
def ReplyForm.failedRun (r : ReplyForm) : Bool := !r.done && (r.order == 1 || r.order == 2)

/-- A clamped RUN or RATE: its code with the new rate (R96). -/
def ratePayload (code : Byte) (rate : Nat) : List Byte := code :: beBytes 2 rate

/-- A MOVE with a target (R50, R57). -/
def movePayload (axis : Byte) (target : Nat) : List Byte := 4 :: axis :: beBytes 4 target

/-! ## Tables of LOAD and READ (section 10.7) -/

inductive TableId
  | stations | scale | travel | envelopes | holds | sequence | plan | gate | dust | alarm | bills | accounts
deriving DecidableEq, Repr

def TableId.fromCode (n : Nat) : Option TableId :=
  if n = 1 then some .stations else if n = 2 then some .scale else if n = 3 then some .travel
  else if n = 4 then some .envelopes else if n = 5 then some .holds else if n = 6 then some .sequence
  else if n = 7 then some .plan else if n = 8 then some .gate else if n = 9 then some .dust
  else if n = 10 then some .alarm else if n = 11 then some .bills else if n = 12 then some .accounts else none

/-- The table has this entry. -/
def TableId.hasEntry : TableId → Nat → Bool
  | .stations, e => e ≤ 13
  | .scale, e => e = 0
  | .travel, e => e ≤ 3
  | .envelopes, e => 1 ≤ e ∧ e ≤ 12
  | .holds, e => 1 ≤ e ∧ e ≤ 12
  | .sequence, e => e ≤ 15
  | .plan, e => e = 0
  | .gate, e => e = 0
  | .dust, e => e ≤ 8
  | .alarm, e => e ≤ 39
  | .bills, e => e = 0
  | .accounts, e => 1 ≤ e ∧ e ≤ 15

/-- The widths in bytes of an entry's fields, in table order. -/
def TableId.widths : TableId → Nat → List Nat
  | .stations, _ => [1]
  | .scale, _ => [2, 4, 2, 2, 2, 4, 2, 4, 2, 4, 2, 2]
  | .travel, e => if e = 3 then [1, 1, 1] else [4, 4]
  | .envelopes, _ => [4, 4, 2, 2, 2, 2]
  | .holds, _ => [2, 4]
  | .sequence, _ => [1, 4]
  | .plan, _ => [1, 1, 1, 1, 8, 4, 2]
  | .gate, _ => [2]
  | .dust, e => if e = 0 then [1, 1] else [1, 2, 2, 2, 2, 1, 1, 2, 1]
  | .alarm, _ => [1, 1, 1]
  | .bills, _ => [2, 2, 2, 2]
  | .accounts, _ => []

/-- The number of bytes of the fields a mask marks. -/
def markedBytes : List Nat → Nat → Nat
  | [], _ => 0
  | w :: ws, m => (if m % 2 = 1 then w else 0) + markedBytes ws (m / 2)

/-- The fields a mask marks, read in table order from the bytes after the mask. -/
def unpack : List Nat → Nat → List Byte → List (Option Nat)
  | [], _, _ => []
  | w :: ws, m, bs =>
    if m % 2 = 1 then some (beNat (bs.take w)) :: unpack ws (m / 2) (bs.drop w) else none :: unpack ws (m / 2) bs

/-- Step 1 of R191, on those header fields of a LOAD that its payload (after the request code) holds. -/
def loadHeaderFails (fs : List Byte) : Bool :=
  match fs with
  | [] => false
  | t :: rest =>
    match TableId.fromCode t.toNat with
    | none => true
    | some .accounts => true
    | some tab =>
      match rest with
      | [] => false
      | e :: rest =>
        !tab.hasEntry e.toNat ||
        match rest with
        | [] => false
        | m :: rest =>
          (m != 1 && m != 2) ||
          match rest with
          | a :: b :: _ => 2 ^ (tab.widths e.toNat).length ≤ beNat [a, b]
          | _ => false

/-- The length R179 requires of a LOAD whose header passes step 1 of R191, code not counted. -/
def loadLengthHolds (fs : List Byte) : Bool :=
  match fs with
  | t :: e :: _ :: a :: b :: vals =>
    match TableId.fromCode t.toNat with
    | some tab => vals.length = markedBytes (tab.widths e.toNat) (beNat [a, b])
    | none => false
  | _ => false

end Sys2Proof.Machine
end

