-- ==== Sys2Proof/Machine/Flags.lean ====
section
/-! DEFINITION. Conditions computed from the state: nothing here changes it. Pour phase, the trim moment, placement,
FEED PERMIT, the presented source, dust bands, the rate limit and the projections. -/

namespace Sys2Proof.Machine

/-! ## Accessors -/

/-- The station address of a role, if the role is present (R176). -/
def State.station (s : State) (r : Role) : Option Byte := s.stations[r.index]

/-- The frame's source is the address of the role. -/
def State.fromRole (s : State) (r : Role) (f : Frame) : Bool := s.station r == some f.src

def State.ready (s : State) : Bool := s.handler.part == .ready

def Line.port (l : Line) : PortId → Port
  | .U => l.u
  | .D => l.d

def Axes.get (a : Axes) : Axis → AxisState
  | .gantry => a.gantry
  | .shuttle => a.shuttle
  | .chute => a.chute

def TravelTable.limits (t : TravelTable) : Axis → AxisLimits
  | .gantry => t.gantry
  | .shuttle => t.shuttle
  | .chute => t.chute

/-- The injected-order entry of a destination (R93). -/
def Gate.entry (g : Gate) : InjDest → Option InjEntry
  | .feeder => g.injFeeder
  | .drive .gantry => g.injGantry
  | .drive .shuttle => g.injShuttle

def Ladder.state (l : Ladder) (i : SourceNo) : AlarmState := l.sources[i].state

/-- PENDING or IN_SERVICE: the states in which a source holds FEED PERMIT or a trip latch (R106, R117). -/
def AlarmState.holds : AlarmState → Bool
  | .pending => true
  | .inService => true
  | _ => false

/-! ## Masses -/

/-- Rounding to whole kilograms (00 "Quantities and units"). -/
def roundKg (mg : Nat) : Nat := (mg + 500000) / 1000000

/-- In-flight total (R35): the sum of the masses of the segments held. -/
def Flight.total (f : Flight) : Nat := (f.segments.map (·.mass)).sum

/-- A sum of two 64-bit milligram totals; free where it passes 2^64 - 1 (log entry 4). -/
def addMass (a m : Nat) : Nat := if a + m < 2 ^ 64 then a + m else (Config.massOverflow a m).toNat

/-- An advance of the extended belt position; free where it passes 2^48 - 1 (log entry 5). -/
def addBelt (e t : Nat) : Nat := if e + t < 2 ^ 48 then e + t else (Config.beltOverflow e t).toNat

/-- A whole-kilogram value in a u32 field; free where it does not fit (log entry 6). -/
def kgField (kg : Nat) : List Byte := beBytes 4 (if kg < 2 ^ 32 then kg else (Config.kgOverflow kg).toNat)

/-- The account of the open ship rounded to whole kilograms (R148). -/
def ShipAccount.rounded (a : ShipAccount) (i : Account) : Nat := roundKg a.accounts[i]

/-- The ship tag of an increment: the ship number when OPEN, else 0 (R13, R159). -/
def ShipAccount.tag (a : ShipAccount) : Nat :=
  match a.state with
  | .noShip => 0
  | .open => a.number.getD 0

/-! ## Visits, pour phase and trim -/

/-- The four states that make pour phase (R51). -/
def VisitState.pours : VisitState → Bool
  | .waiting => false
  | .armed => false
  | .pouring => true
  | .paused => true
  | .closing => true
  | .draining => true

/-- POURING or PAUSED: the states in which close-out triggers are taken (R83, R84). -/
def VisitState.triggers : VisitState → Bool
  | .pouring => true
  | .paused => true
  | _ => false

/-- The state of the open visit, if one is open. -/
def State.visitState (s : State) : Option VisitState := s.seq.visit.map (·.state)

/-- A visit in POURING, PAUSED, CLOSING or DRAINING. -/
def State.visitPours (s : State) : Bool :=
  match s.seq.visit with
  | some v => v.state.pours
  | none => false

/-- Pour phase (R51). -/
def pourPhase (s : State) : Bool := s.visitPours || decide (0 < s.flight.total)

/-- The guarded hold (R51): the visit hold while a visit is open. -/
def guardedHold (s : State) : Option Hold := s.seq.visit.map (·.hold)

/-- A hold's contribution to the trim moment: its account times its arm when its entry is loaded. -/
def holdMoment (s : State) (h : Hold) : Int :=
  match s.seq.holds[h] with
  | some e => (s.ship.accounts[holdAccount h] : Int) * e.arm
  | none => 0

/-- The trim moment M (R69). -/
def trimMoment (s : State) : Int := ((List.finRange 12).map (holdMoment s)).sum

/-- M in kg·dm, truncated toward zero (R87, section 4.8). -/
def trimKg (s : State) : Int := (trimMoment s).tdiv 1000000

/-- The ship's poured total: all thirteen accounts (R69). -/
def pouredTotal (s : State) : Nat := ((List.finRange 13).map fun a : Account => s.ship.accounts[a]).sum

/-- The arm of a hold; 0 where its entry is unloaded. -/
def armOf (s : State) (h : Hold) : Int :=
  match s.seq.holds[h] with
  | some e => e.arm
  | none => 0

/-- The target of a hold, if it has one. -/
def targetOf (s : State) (h : Hold) : Option Nat :=
  match s.seq.holds[h] with
  | some e => e.target
  | none => none

/-- The test for FULL of R66: a loaded target that the account has reached. -/
def reachesTarget (s : State) (h : Hold) : Bool :=
  match targetOf s h with
  | some t => decide (t * 1000000 ≤ s.ship.accounts[holdAccount h])
  | none => false

/-- TRIM in the direction of an arm (R72, R83). -/
def trimPast (m arm : Int) (limit : Nat) : Bool := decide (0 < m * arm) && decide (limit * 1000000 ≤ m.natAbs)

/-- The first projection trigger that is met (R83), for an open visit. -/
def projection (s : State) (v : Visit) : Option EndReason :=
  let f := s.flight.total
  let m := trimMoment s + (f : Int) * armOf s v.hold
  if v.quota * 1000000 ≤ v.poured + f then some .quota
  else if (match targetOf s v.hold with
      | some t => decide (t * 1000000 ≤ s.ship.accounts[holdAccount v.hold] + f)
      | none => false) then some .holdTarget
  else if (match s.seq.header with
      | some h => trimPast m (armOf s v.hold) h.trimLimit
      | none => false) then some .trim
  else if (match s.seq.header with
      | some h => (match h.shipTarget with
          | some t => decide (t * 1000000 ≤ pouredTotal s + f)
          | none => false)
      | none => false) then some .shipTarget
  else none

/-- The slot at a cursor position in the visiting order in use (R71). -/
def slotIndex (q : Sequencer) (n k : Nat) : Nat :=
  match q.order with
  | .rotate => (q.start + k) % n
  | .paired => q.start ^^^ k

/-! ## Placement (R44 to R47) -/

/-- Lower and upper end of the inner rectangle on each axis (R44). -/
def Envelope.innerLow (e : Envelope) : DriveAxis → Nat
  | .gantry => e.gantryMin + e.margin
  | .shuttle => e.shuttleMin + e.margin

def Envelope.innerHigh (e : Envelope) : DriveAxis → Nat
  | .gantry => e.gantryMax - e.margin
  | .shuttle => e.shuttleMax - e.margin

/-- A gantry and a shuttle position inside the inner rectangle, both ends included (R44). -/
def Envelope.inside (e : Envelope) (g sh : Nat) : Bool :=
  decide (e.innerLow .gantry ≤ g ∧ g ≤ e.innerHigh .gantry ∧ e.innerLow .shuttle ≤ sh ∧ sh ≤ e.innerHigh .shuttle)

/-- The chute condition of an entry (R45). -/
def Envelope.chuteOk (e : Envelope) (chute : Option Nat) : Bool :=
  match e.chuteMax with
  | none => true
  | some m =>
    match chute with
    | none => false
    | some c => decide (c ≤ m)

/-- The spout is inside hold `h` (R45). -/
def insideHold (p : Placement) (h : Hold) : Bool :=
  match p.envelopes[h], p.axes.gantry.pos, p.axes.shuttle.pos with
  | some e, some g, some sh => e.inside g sh && e.chuteOk p.axes.chute.pos
  | _, _, _ => false

/-- The sample's candidate (R45); an unknown or FAULT result counts as NONE (R43). -/
def candidate (p : Placement) : Option Hold :=
  if p.sense = some .floor then (List.finRange 12).find? (insideHold p) else none

/-- The placement state after a sample with a candidate (R46). -/
def nextPlace (t : TravelTable) (st : PlaceState) (c : Option Hold) : PlaceState :=
  let settle (h : Hold) (n : Nat) : PlaceState := if t.settleCount ≤ n then .placed h else .settling h n
  let leave (h : Hold) (n : Nat) : PlaceState := if t.leaveCount ≤ n then .clear else .leaving h n
  match st, c with
  | .clear, some h => settle h 1
  | .clear, none => .clear
  | .settling h n, some h' => if h' = h then settle h (n + 1) else settle h' 1
  | .settling _ _, none => .clear
  | .placed h, c => if c = some h then .placed h else leave h 1
  | .leaving h n, c => if c = some h then .placed h else leave h (n + 1)

/-- The pour point that a placement state gives (R47). -/
def pourPointOf (st : PlaceState) (o : LeaveOption) : Account :=
  match st, o with
  | .placed h, _ => holdAccount h
  | .leaving h _, .late => holdAccount h
  | _, _ => unplaced

/-- The hold the spout is PLACED at. -/
def PlaceState.placedAt : PlaceState → Option Hold
  | .placed h => some h
  | _ => none

/-! ## FEED PERMIT (R106) -/

/-- The visit condition of R106: ARMED, POURING or PAUSED with the pour point at the visit hold. -/
def visitPermits (s : State) : Bool :=
  match s.seq.visit with
  | some v => (v.state == .armed || v.state == .pouring || v.state == .paused)
      && s.place.pourPoint == holdAccount v.hold
  | none => false

/-- Index of STOP_FAULT and CLOSEOUT_NOT_ISSUED (R126). -/
def srcStopFault : SourceNo := 0
def srcCloseoutNotIssued : SourceNo := 1

/-- The conditions of FEED PERMIT (R106). -/
def permitOf (s : State) : Bool :=
  s.ready && s.seq.plan == .active && visitPermits s && !s.pins.stop && s.dust.overall != .trip && !s.meter.fault
    && !s.line.d.lineFault && !(s.ladder.state srcStopFault).holds && !(s.ladder.state srcCloseoutNotIssued).holds

/-! ## Presentation (R129) -/

/-- A PENDING, present-enabled source whose rank passes that of the top of the service stack. -/
def Ladder.qualifies (l : Ladder) (i : SourceNo) : Bool :=
  l.sources[i].state == .pending && l.sources[i].present &&
    match l.stack with
    | [] => true
    | t :: _ => decide (l.sources[t].rank < l.sources[i].rank)

/-- The better of the best so far and source `i`: the higher rank, at equal rank the lower index. -/
def Ladder.better (l : Ladder) (best : Option (SourceNo × Nat)) (i : SourceNo) : Option (SourceNo × Nat) :=
  if l.qualifies i then
    match best with
    | none => some (i, l.sources[i].rank)
    | some (_, r) => if r < l.sources[i].rank then some (i, l.sources[i].rank) else best
  else best

/-- The source to present and its rank (R129). -/
def Ladder.toPresent (l : Ladder) : Option (SourceNo × Nat) := (List.finRange 40).foldl l.better none

/-! ## Dust (R113 to R123) -/

/-- The average A, floor(A16 / 16) (R113). -/
def Sensor.average (x : Sensor) : Int := x.a16 / 16

/-- The average register after a reading (R113): the shift rounds toward minus infinity. -/
def nextA16 (a16 : Int) (x shift : Nat) : Int := a16 + (16 * (x : Int) - a16) / (2 ^ shift : Nat)

/-- The average band after an average (R114). -/
def nextAvgBand (e : SensorEntry) (before : AvgBand) (a : Int) : AvgBand :=
  let fallElevated : Int := (e.elevated : Int) - e.hysteresis
  let fallHigh : Int := (e.high : Int) - e.hysteresis
  match before with
  | .normal => if (e.high : Int) ≤ a then .high else if (e.elevated : Int) ≤ a then .elevated else .normal
  | .elevated => if (e.high : Int) ≤ a then .high else if a < fallElevated then .normal else .elevated
  | .high => if fallHigh ≤ a then .high else if a < fallElevated then .normal else .elevated

/-- Effective band of a sensor (R120). -/
def Sensor.effective (x : Sensor) : Band :=
  if x.latch then .trip else if x.silent then .high else x.avgBand.toBand

/-- The sensor's entry is loaded and enabled. -/
def Sensor.enabled (x : Sensor) : Bool :=
  match x.entry with
  | some e => e.enabled
  | none => false

/-- The worse of two bands (R120). -/
def Band.worse : Band → Band → Band
  | .trip, _ => .trip
  | _, .trip => .trip
  | .high, _ => .high
  | _, .high => .high
  | .elevated, _ => .elevated
  | _, .elevated => .elevated
  | .normal, .normal => .normal

/-- The overall band (R121). -/
def Dust.formOverall (d : Dust) : Band :=
  (List.finRange 8).foldl (fun b (i : SensorNo) => if d.sensors[i].enabled then b.worse d.sensors[i].effective else b)
    .normal

/-- A sensor that asserts SPRAY (R123). -/
def Sensor.sprays (x : Sensor) : Bool :=
  match x.entry with
  | some e => e.enabled && e.location != .deck && x.effective != .normal
  | none => false

/-- The level of SPRAY (R123). -/
def Dust.formSpray (d : Dust) : Bool := (List.finRange 8).any fun i : SensorNo => d.sensors[i].sprays

/-- The derate percentage of a band (R122). -/
def Dust.percent (d : Dust) : Band → Nat
  | .normal => 100
  | .elevated => d.elevDerate
  | .high => d.highDerate
  | .trip => 0

/-- The rate limit that the present band and header give (R95). -/
def rateLimitOf (s : State) : Nat :=
  match s.seq.header with
  | some h => h.maxRate * s.dust.percent s.dust.overall / 100
  | none => 0

/-- The rate limit stands below the max rate of the plan header (R99, R100). -/
def limitBelowMax (s : State) : Bool :=
  match s.seq.header with
  | some h => decide (s.gate.rateLimit < h.maxRate)
  | none => false

/-- A derate is due (R102). -/
def derateDue (s : State) : Bool :=
  s.gate.feeder == .running &&
    match s.gate.lastRate with
    | some r => decide (s.gate.rateLimit < r)
    | none => false

end Sys2Proof.Machine
end

