-- ==== Sys2Proof/Machine/Ops.lean ====
section
/-! DEFINITION. Shared operations on the line, the ladder, the bills and the injected orders, and the frame of every
event: what closes it (R106, R130) and what the inspector does when it takes a frame (R173 to R175). -/

namespace Sys2Proof.Machine

/-! ## Transmit and injection queues (R181, R182) -/

def Line.setPort (l : Line) : PortId → Port → Line
  | .U, p => { l with u := p }
  | .D, p => { l with d := p }

/-- A free transmitter begins the oldest frame: on port D the injection queue goes first (R181, R182). -/
def Line.begin (l : Line) : PortId → Line
  | .U =>
    match l.u.sending, l.u.txQueue with
    | none, f :: rest => { l with u := { l.u with sending := some f, txQueue := rest } }
    | _, _ => l
  | .D =>
    match l.d.sending, l.injection, l.d.txQueue with
    | none, x :: rest, _ => { l with injection := rest, d := { l.d with sending := some x.frame } }
    | none, [], f :: rest => { l with d := { l.d with sending := some f, txQueue := rest } }
    | _, _, _ => l

/-- The transmit queue has room for one more frame (R181). -/
def Port.room (p : Port) : Bool := decide (p.txQueue.length < 8)

/-- Offer a frame to a transmit queue: a full queue drops it (R181); a free transmitter begins at once. -/
def Line.offer (l : Line) (p : PortId) (f : Frame) : Line :=
  if (l.port p).room then
    (l.setPort p { l.port p with txQueue := (l.port p).txQueue ++ [f] }).begin p
  else l

/-- Offer a frame to a port's transmit queue. -/
def offer (p : PortId) (f : Frame) (s : State) : State := { s with line := s.line.offer p f }

/-- The other port. -/
def otherPort : PortId → PortId
  | .U => .D
  | .D => .U

/-! ## Frames of the part's own (R180, R183, R189) -/

/-- A refusal of frame `f` (R180). -/
def refusalFrame (s : State) (f : Frame) (r : Reason) : Frame :=
  { dst := f.src, src := s.handler.ownAddr, kind := kindRefusal, seq := f.seq,
    payload := [f.kind, payloadCode f, r.code] }

/-- Refuse a frame that arrived on port `p` (R180). -/
def refuse (p : PortId) (f : Frame) (r : Reason) (s : State) : State := offer p (refusalFrame s f r) s

/-- The ANSWER to a request (R183, R189). -/
def answerFrame (s : State) (f : Frame) (payload : List Byte) : Frame :=
  { dst := f.src, src := s.handler.ownAddr, kind := kindAnswer, seq := f.seq, payload := payload }

/-- Answer a request DONE with its data (R189). -/
def answerDone (f : Frame) (data : List Byte) (s : State) : State :=
  offer .U (answerFrame s f (payloadCode f :: 0 :: 0 :: data)) s

/-- Answer a request REFUSED with a reason (R189). -/
def answerRefused (f : Frame) (r : Reason) (s : State) : State :=
  offer .U (answerFrame s f [payloadCode f, 1, r.code]) s

/-- Place a notice in the port U transmit queue (R183); a full queue drops it. -/
def notice (payload : List Byte) (s : State) : State :=
  offer .U { dst := addrTerminal, src := s.handler.ownAddr, kind := kindNotice, seq := 0, payload := payload } s

/-- Forward a frame that arrived on port `p` to the other port (R177, R181): an ORDER that meets a full queue is
refused LINE_BUSY to its sender (R180), any other frame is dropped there. -/
def forward (p : PortId) (f : Frame) (s : State) : State :=
  if (s.line.port (otherPort p)).room then offer (otherPort p) f s
  else if f.kind = kindOrder then refuse p f .lineBusy s
  else s

/-! ## Alarm sources (R126 to R128) -/

def srcDustTrip (i : SensorNo) : SourceNo := ⟨2 + i.val, by omega⟩
def srcStopInput : SourceNo := 10
def srcMeterFault : SourceNo := 11
def srcSensorSilent (i : SensorNo) : SourceNo := ⟨12 + i.val, by omega⟩
def srcDustHigh (i : SensorNo) : SourceNo := ⟨20 + i.val, by omega⟩
def srcUnplacedPour : SourceNo := 28
def srcOffPlan : SourceNo := 29
def srcLineFault : PortId → SourceNo
  | .D => 30
  | .U => 31
def srcBeltReverse : SourceNo := 32
def srcBillFull : SourceNo := 33
def srcBillMark : SourceNo := 34
def srcTrimBound : SourceNo := 35
def srcZeroDrift : SourceNo := 36
def srcStrayMass : SourceNo := 37
def srcSegmentCoarse : SourceNo := 38
def srcSweepFault : SourceNo := 39

/-- Replace one entry of the source table. -/
def Ladder.put (l : Ladder) (i : SourceNo) (x : Source) : Ladder := { l with sources := upd l.sources i x }

/-- A raise, by record enable and state (R128). -/
def Source.raised (x : Source) : Source :=
  if x.record then
    match x.state with
    | .idle => { x with state := .pending, repeats := 0 }
    | .pending => x
    | .inService => { x with repeats := min (x.repeats + 1) 255 }
    | .standing => { x with repeats := min (x.repeats + 1) 255 }
  else x

/-- A condition flag set by its owning block (R127): a STANDING source whose flag becomes false goes to IDLE. -/
def Source.withCond (x : Source) (b : Bool) : Source :=
  if !b && x.state == .standing then { x with cond := b, state := .idle } else { x with cond := b }

/-- Raise a source (R128). -/
def raise (i : SourceNo) (s : State) : State :=
  { s with ladder := s.ladder.put i (s.ladder.sources[i]).raised }

/-- Set a source's condition flag (R127). -/
def setCond (i : SourceNo) (b : Bool) (s : State) : State :=
  { s with ladder := s.ladder.put i ((s.ladder.sources[i]).withCond b) }

/-! ## The end of an event (R106, R130) -/

/-- The ALARM notice's payload (R130, R186). -/
def alarmPayload (p : Option (SourceNo × Nat)) : List Byte :=
  match p with
  | none => [1, 0, 0, 0]
  | some (i, r) => [1, 1, byteOf i.val, byteOf r]

/-- What closes every event: FEED PERMIT is evaluated, the presented source is formed once, HORN is set, and an ALARM
notice is sent when the presented source or its rank has changed (R106, R129, R130; log entry 10). -/
def endEvent (s : State) : State :=
  let p := s.ladder.toPresent
  let s1 : State :=
    { s with ladder := { s.ladder with presented := p, horn := p.isSome }, gate := { s.gate with permit := permitOf s } }
  if p = s.ladder.presented then s1 else notice (alarmPayload p) s1

/-! ## Bill Store (R140 to R152) -/

/-- Free count (R140). -/
def BillStore.free (b : BillStore) : Nat := 256 - b.records.length - b.reserved

/-- Take one reservation; the caller has tested the free count (R142). -/
def reserve (s : State) : State := { s with bills := { s.bills with reserved := s.bills.reserved + 1 } }

/-- The number of the mark that a held count stands at, if any (R152). -/
def BillStore.markAt (b : BillStore) (held : Nat) : Option Nat :=
  ((List.finRange 4).find? fun i : Fin 4 => b.marks[i] == held).map (·.val + 1)

/-- The mark test of an issue (R152). -/
def markTest (s : State) : State :=
  match s.bills.markAt s.bills.records.length with
  | some k => raise srcBillMark { s with bills := { s.bills with lastMark := some k } }
  | none => s

/-- Issue a record (R144): it takes the next sequence number and the tail place, a reserved one giving up its
reservation, and the mark test follows. -/
def issue (reserved : Bool) (body : RecordBody) (s : State) : State :=
  markTest { s with bills :=
    { s.bills with
      records := s.bills.records ++ [{ seq := s.bills.nextSeq, body := body }]
      nextSeq := s.bills.nextSeq + 1
      reserved := if reserved then s.bills.reserved - 1 else s.bills.reserved } }

/-- The line of account `a` (R148), with its CARRIED marker. -/
def cutLine (s : State) (carries : Account → Bool) (a : Account) : BillLine :=
  let mass := s.ship.rounded a - s.ship.bases[a]
  { account := a, carried := carries a && decide (0 < mass), mass := mass }

/-- Set the report base of every account of a list to its rounded value (R148). -/
def setBases (as : List Account) (s : State) : State :=
  { s with ship := { s.ship with
      bases := Vector.ofFn (fun a : Account => if a ∈ as then s.ship.rounded a else s.ship.bases[a]) } }

/-- The accounts a VISIT record has lines for, in order (R149): the visit hold, the other holds in number order,
UNPLACED. -/
def visitLineAccounts (s : State) (v : Visit) : List Account :=
  holdAccount v.hold :: (List.finRange 13).filter fun a : Account =>
    a != holdAccount v.hold && (v.changed[a] || s.ship.rounded a != s.ship.bases[a])

/-- The hold of an account, none for UNPLACED. -/
def accountHold (a : Account) : Option Hold := if h : a.val < 12 then some ⟨a.val, h⟩ else none

/-- The hold entry of an account is loaded. -/
def accountLoaded (s : State) (a : Account) : Bool :=
  match accountHold a with
  | some h => s.seq.holds[h].isSome
  | none => false

/-- The accounts a SHIP_CLOSE record has lines for (R147). -/
def closeLineAccounts (s : State) : List Account :=
  (List.finRange 13).filter fun a : Account => a == unplaced || accountLoaded s a || s.ship.accounts[a] != 0

/-! ## Injected orders (R93, R94) -/

def Gate.setEntry (g : Gate) : InjDest → Option InjEntry → Gate
  | .feeder, e => { g with injFeeder := e }
  | .drive .gantry, e => { g with injGantry := e }
  | .drive .shuttle, e => { g with injShuttle := e }

/-- The injection queue with a destination's frame removed. -/
def Line.without (l : Line) (d : InjDest) : List InjFrame := l.injection.filter fun x => x.dest != d

/-- Inject an order (R93): none where the destination's entry is occupied, port D is in LINE FAULT, or the role has no
station. The queue holds at most one frame for a destination (R182; log entry 32). -/
def injectOrder (d : InjDest) (o : InjOrder) (payload : List Byte) (s : State) : Option State :=
  match s.gate.entry d, s.line.d.lineFault, s.station (destRole d) with
  | none, false, some addr =>
    let f : Frame :=
      { dst := addr, src := s.handler.ownAddr, kind := kindOrder, seq := s.line.injSeq, payload := payload }
    some { s with
      gate := s.gate.setEntry d (some { order := o, seq := s.line.injSeq, deadline := s.now + s.gate.replyWindow })
      line := Line.begin
        { s.line with injection := s.line.without d ++ [{ dest := d, frame := f }], injSeq := s.line.injSeq + 1 } .D }
  | _, _, _ => none

/-- Free an entry (R93, at a matching reply). -/
def releaseEntry (d : InjDest) (s : State) : State := { s with gate := s.gate.setEntry d none }

/-- Abandon an order, or let its entry expire: the entry is freed and an unsent frame is removed (R93, R94). -/
def abandonOrder (d : InjDest) (s : State) : State :=
  { s with
    gate := s.gate.setEntry d none
    line := { s.line with injection := s.line.without d } }

/-- The destination's frame has not yet been sent (R102, R182). -/
def Line.unsent (l : Line) (d : InjDest) : Bool := l.injection.any fun x => x.dest == d

/-- Rewrite the payload of a destination's unsent frame (R102, R182). -/
def Line.rewrite (l : Line) (d : InjDest) (payload : List Byte) : Line :=
  { l with injection := l.injection.map (fun x =>
      if x.dest == d then { x with frame := { x.frame with payload := payload } } else x) }

/-! ## The held move (R54, R55) -/

/-- Test the held move for release (R54): pour phase has ended and the feeder is not RUNNING. -/
def testHeldMove (s : State) : State :=
  match s.place.held with
  | none => s
  | some h =>
    if !pourPhase s && s.gate.feeder != .running then
      forward .U h.frame { s with place := { s.place with held := none } }
    else s

/-- Answer the held move with a reason and empty the slot (R53, R55). -/
def dismissHeldMove (r : Reason) (s : State) : State :=
  match s.place.held with
  | none => s
  | some h => refuse .U h.frame r { s with place := { s.place with held := none } }

/-! ## Setters that several blocks use -/

def setVisit (v : Option Visit) (s : State) : State := { s with seq := { s.seq with visit := v } }

/-- Change the open visit, if one is open. -/
def mapVisit (f : Visit → Visit) (s : State) : State := setVisit (s.seq.visit.map f) s

end Sys2Proof.Machine
end

