-- ==== Sys2Proof/Machine/Visits.lean ====
section
/-! DEFINITION. Operations on the plan and the open visit that several commands bring about: selection (R71 to R74),
completion (R87), the close-out the Feed Gate makes (R103 to R105), close-out triggers (R83 to R86), entering POURING
(R81), pausing (R82), and the placement reports (R79). -/

namespace Sys2Proof.Machine

/-! ## Selection (R71 to R74) -/

/-- Advance the cursor by one position (R71). -/
def advanceCursor (s : State) : State :=
  match s.seq.header with
  | none => s
  | some h =>
    if s.seq.cursor + 1 < h.slotCount then { s with seq := { s.seq with cursor := s.seq.cursor + 1 } }
    else { s with seq := { s.seq with cursor := 0, round := s.seq.round + 1 } }

/-- A selection finishes the plan (R74). -/
def finishPlan (r : FinishReason) (trimMark : Bool) (s : State) : State :=
  let s := { s with seq := { s.seq with plan := .finished, finish := some r } }
  let s := if r == .noneEligible && trimMark then raise srcTrimBound s else s
  notice (3 :: r.code :: (beBytes 2 s.seq.round ++ beBytes 2 s.seq.skips)) s

def VisitFlags.none : VisitFlags :=
  { clamped := false, derated := false, coarse := false, gapBridged := false, overload := false, hardStopped := false,
    pausesTruncated := false }

/-- The visit that opens at a slot (R78). -/
def newVisit (s : State) (i : Fin 16) (sl : Slot) : Visit :=
  { slot := i, hold := sl.hold, round := s.seq.round, quota := sl.quota,
    state := if s.place.state.placedAt = some sl.hold then .armed else .waiting,
    poured := 0, changed := Vector.replicate 13 false, flags := VisitFlags.none, start := none, pauses := [],
    pauseCount := 0, endReason := none, reserved := false }

/-- A selection opens a visit (R74, R78). -/
def openVisit (i : Fin 16) (sl : Slot) (s : State) : State :=
  let v := newVisit s i sl
  notice (2 :: byteOf i.val :: holdCode sl.hold :: byteOf v.round :: (beBytes 4 sl.quota ++ beBytes 2 s.seq.skips))
    (setVisit (some v) s)

/-- Why a slot of hold `h` is ineligible (R72): FULL is false, TRIM is true, none when eligible. -/
def ineligible (s : State) (p : PlanHeader) (h : Hold) : Option Bool :=
  if s.seq.holdStates[h] = .full then some false
  else if trimPast (trimMoment s) (armOf s h) p.trimLimit then some true
  else none

/-- The ship target is reached by the poured total (R73). -/
def shipTargetReached (s : State) (p : PlanHeader) : Bool :=
  match p.shipTarget with
  | some t => decide (t * 1000000 ≤ pouredTotal s)
  | none => false

/-- The slot at the cursor, with its index; none where it is unloaded or outside the table (no plan that START_PLAN
has accepted meets that, R70). -/
def slotAtCursor (s : State) (p : PlanHeader) : Option (Fin 16 × Slot) :=
  if h : slotIndex s.seq p.slotCount s.seq.cursor < 16 then
    (s.seq.slots[slotIndex s.seq p.slotCount s.seq.cursor]).map fun sl => (⟨_, h⟩, sl)
  else none

/-- The repeated steps of a selection (R73). `run` is the run count; it reaches the slot count before the fuel, which
is the slot count, gives out. -/
def selectLoop (p : PlanHeader) : Nat → Nat → Bool → State → State
  | 0, _, _, s => s
  | fuel + 1, run, mark, s =>
    if shipTargetReached s p then finishPlan .shipTarget mark s
    else if p.roundLimit < s.seq.round then finishPlan .rounds mark s
    else
      match slotAtCursor s p with
      | none => s
      | some (i, sl) =>
        match ineligible s p sl.hold with
        | none => openVisit i sl s
        | some trim =>
          let s := { s with seq := { s.seq with skips := min (s.seq.skips + 1) 65535 } }
          if p.slotCount ≤ run + 1 then finishPlan .noneEligible (mark || trim) s
          else selectLoop p fuel (run + 1) (mark || trim) (advanceCursor s)

/-- A selection (R73). -/
def selectVisit (s : State) : State :=
  match s.seq.header with
  | none => s
  | some p => selectLoop p p.slotCount 0 false s

/-- Drop a WAITING or ARMED visit (R75, R77): no record, and the unbilled mark when it had changed an account
(R150). -/
def dropVisit (s : State) : State :=
  match s.seq.visit with
  | none => s
  | some v =>
    let s := setVisit none s
    if v.changed.toList.any id then { s with bills := { s.bills with unbilled := true } } else s

/-! ## Completion (R87) -/

/-- Every hold whose target is reached becomes FULL (R66). -/
def evaluateFull (s : State) : State :=
  { s with seq := { s.seq with
      holdStates := Vector.ofFn (fun h : Hold => if reachesTarget s h then .full else s.seq.holdStates[h]) } }

/-- The overshoot of a visit in whole kilograms (R87). -/
def overshootKg (v : Visit) : Nat :=
  if v.quota * 1000000 < v.poured then roundKg (v.poured - v.quota * 1000000) else 0

/-- The VISIT record's contents (R87, R145, R149). -/
def visitRecord (s : State) (v : Visit) : RecordBody :=
  .visit (s.ship.number.getD 0) v.slot v.hold v.round v.quota
    ((visitLineAccounts s v).map (cutLine s fun a => !v.changed[a])) (overshootKg v) v.endReason v.flags v.start
    s.meter.belt (trimKg s) v.pauseCount v.pauses

/-- Step 7 of R87: the cursor advances, and an ACTIVE plan selects. -/
def afterVisit (s : State) : State :=
  match s.seq.plan with
  | .active => selectVisit (advanceCursor s)
  | .suspended => advanceCursor s
  | _ => s

/-- Complete the open visit (R87). -/
def completeVisit (s : State) : State :=
  match s.seq.visit with
  | none => s
  | some v =>
    let body := visitRecord s v
    let s := setBases (visitLineAccounts s v) s
    let s := issue v.reserved body s
    let s := { s with bills := { s.bills with unbilled := false } }
    let s := evaluateFull s
    let s := testHeldMove (setVisit none s)
    afterVisit s

/-- A visit that has entered DRAINING completes at once when nothing is in flight (R86). -/
def completeIfEmpty (s : State) : State := if s.flight.total = 0 then completeVisit s else s

/-- The open visit enters DRAINING (R86). -/
def enterDraining (hardStopped : Bool) (s : State) : State :=
  completeIfEmpty (mapVisit (fun v =>
    { v with state := .draining, flags := { v.flags with hardStopped := v.flags.hardStopped || hardStopped } }) s)

/-! ## Close-out (R103 to R105) -/

/-- Close-out not issued (R105). -/
def closeOutNotIssued (s : State) : State :=
  enterDraining true (raise srcCloseoutNotIssued (abandonOrder .feeder s))

/-- The Feed Gate's action when a visit enters CLOSING, by its FEEDER entry (R103). -/
def closeOut (s : State) : State :=
  match s.gate.injFeeder with
  | some e =>
    if e.order = .stop then { s with gate := { s.gate with pendingDerate := false } } else closeOutNotIssued s
  | none =>
    match injectOrder .feeder .stop [InjOrder.code .stop] s with
    | some s' => { s' with gate := { s'.gate with pendingDerate := false } }
    | none => closeOutNotIssued s

/-- The outcome of a close-out STOP reaches the visit (R86, R104): only a CLOSING visit waits for one. -/
def closeOutOutcome (failed : Bool) (s : State) : State :=
  match s.visitState with
  | some .closing => enterDraining failed s
  | _ => s

/-! ## Triggers (R83 to R85) -/

/-- Take a close-out trigger (R85): the first one taken in POURING or PAUSED names the end. -/
def takeTrigger (r : EndReason) (s : State) : State :=
  match s.visitState with
  | some .pouring => closeOut (mapVisit (fun v => { v with state := .closing, endReason := some r }) s)
  | some .paused =>
    completeIfEmpty (mapVisit (fun v => { v with state := .draining, endReason := some r }) s)
  | _ => s

/-- Check the projection triggers of a POURING or PAUSED visit (R83). -/
def checkProjections (s : State) : State :=
  match s.seq.visit with
  | none => s
  | some v =>
    if v.state.triggers then
      match projection s v with
      | some r => takeTrigger r s
      | none => s
    else s

/-! ## POURING and PAUSED (R81, R82) -/

/-- A visit hold in IDLE becomes FILLING (R66). -/
def fillHold (h : Hold) (s : State) : State :=
  if s.seq.holdStates[h] = .idle then { s with seq := { s.seq with holdStates := upd s.seq.holdStates h .filling } }
  else s

/-- The open visit enters POURING from ARMED or PAUSED (R81). -/
def enterPouring (s : State) : State :=
  match s.seq.visit with
  | none => s
  | some v =>
    let v := { v with state := .pouring, start := some (v.start.getD s.meter.belt) }
    checkProjections (fillHold v.hold (setVisit (some v) s))

/-- The Feed Gate has forwarded a RUN (R81): ARMED and PAUSED visits enter POURING. -/
def runForwarded (s : State) : State :=
  match s.visitState with
  | some .armed => enterPouring s
  | some .paused => enterPouring s
  | _ => s

/-- The feeder runs without a forwarded RUN (R82): a PAUSED visit returns to POURING. -/
def feederRunning (s : State) : State :=
  match s.visitState with
  | some .paused => enterPouring s
  | _ => s

/-- A visit with one more pause (R82). -/
def Visit.pausedFor (v : Visit) (r : PauseReason) (belt : Nat) : Visit :=
  let v := { v with state := .paused, pauseCount := min (v.pauseCount + 1) 255 }
  if v.pauses.length < 4 then { v with pauses := v.pauses ++ [{ reason := r, belt := belt }] }
  else { v with flags := { v.flags with pausesTruncated := true } }

/-- A stop report pauses a POURING visit (R82). -/
def pauseVisit (r : PauseReason) (s : State) : State :=
  match s.visitState with
  | some .pouring => mapVisit (fun v => v.pausedFor r s.meter.belt) s
  | _ => s

/-! ## Placement reports (R48, R79) -/

/-- The Placement Unit reports placed at `h` (R79). -/
def reportPlaced (h : Hold) (s : State) : State :=
  match s.seq.visit with
  | none => s
  | some v => if v.state = .waiting ∧ v.hold = h then setVisit (some { v with state := .armed }) s else s

/-- The Placement Unit reports placement lost at `h` (R79, R84). -/
def reportLost (h : Hold) (s : State) : State :=
  match s.seq.visit with
  | none => s
  | some v =>
    if v.hold = h then
      if v.state = .armed then setVisit (some { v with state := .waiting }) s else takeTrigger .unplaced s
    else s

end Sys2Proof.Machine
end

