-- ==== Sys2Proof/Machine/Gating.lean ====
section
/-! DEFINITION. Operations of the Feed Gate and the Dust Monitor that several commands bring about: the derate check
(R102), the rate limit (R95), the feeder state and its reports (R90, R91), the outcomes of injected orders to the
feeder (R91, R102, R104), the bands (R120 to R123) and the release of a trip (R117). -/

namespace Sys2Proof.Machine

/-! ## Rate limit and derate (R95, R102) -/

/-- A POURING or PAUSED visit gains DERATED (R102). -/
def markDerated (s : State) : State :=
  mapVisit (fun v => if v.state.triggers then { v with flags := { v.flags with derated := true } } else v) s

/-- The last commanded rate becomes the rate limit (R102). -/
def commandLimit (s : State) : State := { s with gate := { s.gate with lastRate := some s.gate.rateLimit } }

def setPendingDerate (b : Bool) (s : State) : State := { s with gate := { s.gate with pendingDerate := b } }

/-- The payload of a RATE at the rate limit. -/
def limitPayload (s : State) : List Byte := ratePayload (InjOrder.code .rate) s.gate.rateLimit

/-- The FEEDER entry holds a RATE whose frame is still in the injection queue (R102). -/
def rateUnsent (s : State) : Bool :=
  match s.gate.injFeeder with
  | some e => e.order == .rate && s.line.unsent .feeder
  | none => false

/-- The derate check (R102). -/
def derateCheck (s : State) : State :=
  if derateDue s then
    match injectOrder .feeder .rate (limitPayload s) s with
    | some s' => setPendingDerate false (markDerated (commandLimit s'))
    | none =>
      if rateUnsent s then commandLimit { s with line := s.line.rewrite .feeder (limitPayload s) }
      else setPendingDerate true s
  else setPendingDerate false s

/-- Recompute the rate limit; a lowered one makes the derate check (R95). -/
def recomputeLimit (s : State) : State :=
  let limit := rateLimitOf s
  let s' : State := { s with gate := { s.gate with rateLimit := limit } }
  if limit < s.gate.rateLimit then derateCheck s' else s'

/-! ## Bands (R120 to R123) -/

/-- Form the overall band and SPRAY again, and hand a change of the overall band to the Feed Gate and then, when it is
TRIP, to the Pour Sequencer (R121, R123). -/
def reformBands (s : State) : State :=
  let b := s.dust.formOverall
  let s' : State := { s with dust := { s.dust with overall := b, spray := s.dust.formSpray } }
  if b = s.dust.overall then s'
  else
    let s' := recomputeLimit s'
    if b = .trip then takeTrigger .dustTrip s' else s'

def setSensor (i : SensorNo) (x : Sensor) (s : State) : State :=
  { s with dust := { s.dust with sensors := upd s.dust.sensors i x } }

/-- The average is below the release level of the sensor's trip latch (R117). -/
def Sensor.belowRelease (x : Sensor) : Bool :=
  match x.entry with
  | some e => decide (x.average < (e.high : Int) - e.hysteresis)
  | none => false

/-- The release test of sensor `i` (R117); the bands are formed again by the caller. -/
def releaseTest (i : SensorNo) (s : State) : State :=
  let x := s.dust.sensors[i]
  if x.latch && !(s.ladder.state (srcDustTrip i)).holds && x.belowRelease then
    setCond (srcDustTrip i) false (setSensor i { x with latch := false } s)
  else s

/-- The release test by itself, at a load or a change of state of the source, then the bands again (R117, R121). -/
def retestLatch (i : SensorNo) (s : State) : State := reformBands (releaseTest i s)

/-! ## Feeder state (R90, R91) -/

/-- The feeder state takes a value; a change is reported to the Placement Unit (R51, R90). -/
def setFeeder (st : FeederState) (s : State) : State :=
  if st = s.gate.feeder then s else testHeldMove { s with gate := { s.gate with feeder := st } }

/-- A stray start: STOP is injected when the FEEDER entry is free and port D is not in LINE FAULT (R91). -/
def strayStop (s : State) : State :=
  match injectOrder .feeder .stop [InjOrder.code .stop] s with
  | some s' => s'
  | none => s

/-- The report FEEDER_RUNNING (R91): the Sequencer, a stray start's STOP, then the derate check. -/
def reportRunning (s : State) : State :=
  let stray := s.visitState = some .armed
  let s := feederRunning s
  let s := if stray then strayStop s else s
  derateCheck s

/-- The feeder reports a state in a sample or a reply (R90, R91); `failedRun` says that it comes with a failed RUN or
RATE, which is reported again in the same state. -/
def feederArrival (st : FeederState) (failedRun : Bool) (s : State) : State :=
  let changed := decide (st ≠ s.gate.feeder)
  let s := setFeeder st s
  match st with
  | .stopped => if changed || failedRun then pauseVisit .feederStopped s else s
  | .fault => if changed || failedRun then pauseVisit .feederFault s else s
  | .running => if changed then reportRunning s else s
  | .unknown => s

/-! ## Outcomes of injected orders to the feeder (R91, R102, R104) -/

/-- The outcome of the order that held the FEEDER entry, the entry being free again: a RATE's outcome is followed by
the derate check, a close-out STOP's is reported to the visit, and any failure raises STOP_FAULT. -/
def feederOutcome (o : InjOrder) (failed : Bool) (s : State) : State :=
  let s := if failed then raise srcStopFault s else s
  match o with
  | .rate => derateCheck s
  | .stop => closeOutOutcome failed s
  | .move => s

end Sys2Proof.Machine
end

