-- ==== Sys2Proof/Machine/Sweeps.lean ====
section
/-! DEFINITION. Operations of the Placement Unit: evaluation of placement with its reports (R45 to R48), the steps of a
sweep (R57, R58) and its endings (R60 to R62). -/

namespace Sys2Proof.Machine

def setSweep (w : Option Sweep) (s : State) : State := { s with place := { s.place with sweep := w } }

/-! ## Placement (R45 to R48) -/

/-- The reports that a change of placement state makes (R48). -/
def reportPlacement (before after : PlaceState) (s : State) : State :=
  if after.placedAt = before.placedAt then s
  else
    match before.placedAt, after.placedAt with
    | _, some h => reportPlaced h s
    | some h, none => reportLost h s
    | none, none => s

/-- Evaluate placement after a taken POSITION or HOLDSENSE sample has been recorded (R45 to R48). The report of a
changed pour point changes nothing but FEED PERMIT (R79, R106). -/
def evaluatePlacement (s : State) : State :=
  let before := s.place.state
  let after := nextPlace s.place.travel before (candidate s.place)
  reportPlacement before after
    { s with place := { s.place with state := after, pourPoint := pourPointOf after s.handler.leave } }

/-! ## Endings of a sweep (R60 to R62) -/

/-- SWEEP_DONE, and no sweep any more (R62). -/
def finishSweep (o : SweepOutcome) (w : Sweep) (s : State) : State :=
  notice [5, o.code, (axisOf w.axis).code, byteOf w.done] (setSweep none s)

/-- A running sweep ends CANCELLED (R60): its unsent MOVE is removed and its entry abandoned. -/
def cancelSweep (s : State) : State :=
  match s.place.sweep with
  | none => s
  | some w => finishSweep .cancelled w (abandonOrder (.drive w.axis) s)

/-- A running sweep ends MOVE_FAULT (R61). -/
def faultSweep (s : State) : State :=
  match s.place.sweep with
  | none => s
  | some w => finishSweep .moveFault w (raise srcSweepFault (abandonOrder (.drive w.axis) s))

/-! ## Steps of a sweep (R57, R58) -/

/-- The interval that a step's target is clipped to: the sweep hold's inner interval within the axis's limits (R57). The
envelope is the entry as it stands: the loaded rectangle counts before the next sample too (R44; log entry 41). -/
def clipBounds (s : State) (w : Sweep) : Option (Nat × Nat) :=
  match s.place.envelopes[w.hold] with
  | none => none
  | some e =>
    let lim := s.place.travel.limits (axisOf w.axis)
    let lo := max (e.innerLow w.axis) lim.low
    let hi := min (e.innerHigh w.axis) lim.high
    if lo ≤ hi then some (lo, hi) else none

/-- The axis's last position; free when it is unknown (log entry 7). -/
def sweepFrom (s : State) (w : Sweep) : Nat :=
  ((s.place.axes.get (axisOf w.axis)).pos).getD (Config.unknownPosition s.draws).toNat

/-- The step's value before the clip (R57). -/
def stepValue (s : State) (w : Sweep) : Int :=
  if w.plus then (sweepFrom s w : Int) + w.step else (sweepFrom s w : Int) - w.step

/-- The step's target (R57); free where the two intervals share no position (log entry 8). -/
def stepTarget (s : State) (w : Sweep) : Nat :=
  match clipBounds s w with
  | some (lo, hi) => (max (lo : Int) (min (hi : Int) (stepValue s w))).toNat
  | none => (Config.emptyClip s.draws).toNat

/-- The step is turned away: pour phase with another guarded hold than the sweep's (R57). -/
def sweepBarred (s : State) (w : Sweep) : Bool := pourPhase s && guardedHold s != some w.hold

/-- Begin the next step of a sweep (R57). -/
def beginStep (w : Sweep) (s : State) : State :=
  if sweepBarred s w then finishSweep .cancelled w s
  else
    let target := stepTarget s w
    let w := { w with clipped := decide ((target : Int) ≠ stepValue s w), target := target, phase := .awaitingReply,
                      timer := s.now + s.place.travel.stepTimeout * 1000 }
    let s := { s with draws := s.draws + 1 }
    match injectOrder (.drive w.axis) .move (movePayload (axisOf w.axis).code target) s with
    | some s' => setSweep (some w) s'
    | none => faultSweep (setSweep (some w) s)

/-- The step is complete (R58). -/
def completeStep (w : Sweep) (s : State) : State :=
  let w := { w with done := w.done + 1, remaining := w.remaining - 1 }
  if w.clipped then finishSweep .clipped w s
  else if w.remaining = 0 then finishSweep .done w s
  else beginStep w s

/-- A POSITION sample of the sweep axis completes the step (R58). -/
def stepCompletedBy (w : Sweep) (a : Axis) (pos : Nat) (m : Motion) : Bool :=
  w.phase == .awaitingPosition && a == axisOf w.axis && m == .still
    && decide (pos ≤ w.target + 50 ∧ w.target ≤ pos + 50)

/-- The sweep test of a taken sample, after placement was evaluated (R58, R60): a sample that takes the state out of
PLACED cancels the sweep. -/
def sweepTest (before : PlaceState) (sample : Option (Axis × Nat × Motion)) (s : State) : State :=
  match s.place.sweep with
  | none => s
  | some w =>
    if before.placedAt.isSome && s.place.state.placedAt.isNone then cancelSweep s
    else
      match sample with
      | some (a, pos, m) => if stepCompletedBy w a pos m then completeStep w s else s
      | none => s

end Sys2Proof.Machine
end

