-- ==== Sys2Proof/Machine/Metering.lean ====
section
/-! DEFINITION. Operations of the Belt Meter and the Flight Queue: the arithmetic of one sample (R4 to R13), METER
FAULT (R15, R16), the end of a ZERO operation (R20 to R23), the three paths of an increment (R27 to R30) and delivery
(R31 to R35). -/

namespace Sys2Proof.Machine

/-! ## Net load (R9 to R11) -/

/-- Net load in g/m: the net count scaled by the span, rounded half away from zero (R9). -/
def netLoad (d : Int) (span : Nat) : Int := d.sign * (((d.natAbs * span + 128) / 256 : Nat) : Int)

/-- The net load passes the capacity (R10). -/
def overloaded (n : Int) (capacity : Nat) : Bool := decide (capacity < n.natAbs)

/-- The net load after the capacity clamp (R10). -/
def clampLoad (n : Int) (capacity : Nat) : Int := if overloaded n capacity then n.sign * (capacity : Int) else n

/-- Accepted load (R11). -/
def acceptedLoad (n : Int) (deadBand : Nat) : Nat := if (deadBand : Int) ≤ n then n.toNat else 0

/-- What the sample adds to the drift total, mg (R11). -/
def driftMass (n : Int) (deadBand t : Nat) : Nat := if n ≤ -(deadBand : Int) then n.natAbs * t else 0

/-- Evaluate the ZERO_DRIFT condition (R12): a raise where it was false and has become true. -/
def evalDrift (s : State) : State :=
  match s.meter.table with
  | none => s
  | some sc =>
    let now := decide (sc.driftLimit * 1000000 < s.meter.drift)
    let s' := setCond srcZeroDrift now s
    if now && !(s.ladder.sources[srcZeroDrift]).cond then raise srcZeroDrift s' else s'

/-- Add to the drift total; the condition is evaluated when it increases (R11, R12). -/
def addDrift (m : Nat) (s : State) : State :=
  if 0 < m then evalDrift { s with meter := { s.meter with drift := addMass s.meter.drift m } } else s

/-! ## The end of a ZERO operation (R23) -/

/-- End the ZERO operation with an outcome and the new offset its record gives (R23). -/
def endZero (o : ZeroOutcome) (newOffset : Int) (s : State) : State :=
  match s.meter.zero with
  | none => s
  | some z =>
    let seq := s.bills.nextSeq
    let s := issue true (.zero z.oldOffset newOffset o z.travel) s
    notice (4 :: o.code :: beBytes 4 seq.toNat) { s with meter := { s.meter with zero := none } }

/-! ## METER FAULT (R15, R16) -/

/-- Set METER FAULT (R15): the alarm, a running ZERO operation ends FAULTED, and a passage from clear to set reaches
the Pour Sequencer. -/
def setMeterFault (s : State) : State :=
  let was := s.meter.fault
  let s := { s with meter := { s.meter with fault := true, clearing := 0 } }
  let s := raise srcMeterFault (setCond srcMeterFault true s)
  let s := endZero .faulted s.meter.offset s
  if was then s else takeTrigger .meterFault s

/-- A normal sample with head status OK adds 1 to the clearing run; the third clears METER FAULT (R16). -/
def countClearing (s : State) : State :=
  if s.meter.fault then
    if 3 ≤ s.meter.clearing + 1 then
      setCond srcMeterFault false { s with meter := { s.meter with fault := false, clearing := 0 } }
    else { s with meter := { s.meter with clearing := s.meter.clearing + 1 } }
  else s

/-- Restart the scale silence timer, which runs only while the part is READY (R3, R17). -/
def restartSilence (s : State) : State :=
  match s.meter.table with
  | none => s
  | some sc =>
    if s.ready then { s with meter := { s.meter with silence := some (s.now + sc.scaleSilence) } } else s

/-! ## Taking an increment (R26 to R30) -/

/-- The transit that a segment opening now gets (R27); an unknown chute position counts as 0. -/
def transitNow (s : State) (sc : ScaleTable) : Nat :=
  sc.transitBase + s.place.axes.chute.pos.getD 0 * sc.chuteFactor / 256

/-- An increment joins the tail (R28). -/
def joinsTail (s : State) (sc : ScaleTable) (t : Segment) (overload gapBridged : Bool) : Bool :=
  decide (s.meter.belt - t.opened < sc.segmentLength) && decide (s.meter.belt < t.arrival) && !t.coarse
    && t.overload == overload && t.gapBridged == gapBridged && decide (transitNow s sc = t.transit)
    && decide (t.shipTag = s.ship.tag)

/-- The arrival position of a segment that opens now (R27). -/
def arrivalNow (s : State) (sc : ScaleTable) : Nat :=
  match s.flight.segments.getLast? with
  | none => s.meter.belt + transitNow s sc
  | some t => max t.arrival (s.meter.belt + transitNow s sc)

/-- The tail with one more increment (R28). -/
def Segment.joined (t : Segment) (m : Nat) : Segment :=
  { t with mass := t.mass + m, samples := min (t.samples + 1) 65535 }

/-- The tail with an increment merged into it (R30). -/
def Segment.merged (t : Segment) (m : Nat) (overload gapBridged : Bool) : Segment :=
  { t.joined m with overload := t.overload || overload, gapBridged := t.gapBridged || gapBridged, coarse := true }

/-- Replace the tail. -/
def Flight.setTail (f : Flight) (t : Segment) : Flight := { f with segments := f.segments.dropLast ++ [t] }

/-- Open a segment at the tail (R26, R29). -/
def openSegment (sc : ScaleTable) (m : Nat) (overload gapBridged : Bool) (s : State) : State :=
  let g : Segment :=
    { number := s.flight.nextNumber, shipTag := s.ship.tag, opened := s.meter.belt, transit := transitNow s sc,
      arrival := arrivalNow s sc, mass := m, samples := 1, overload := overload, gapBridged := gapBridged,
      coarse := false }
  { s with flight := { segments := s.flight.segments ++ [g], nextNumber := s.flight.nextNumber + 1 } }

/-- Merge an increment into the tail of a full queue (R30). -/
def mergeTail (t : Segment) (m : Nat) (overload gapBridged : Bool) (s : State) : State :=
  raise srcSegmentCoarse (setCond srcSegmentCoarse true
    { s with flight := s.flight.setTail (t.merged m overload gapBridged) })

/-- The Flight Queue takes an increment whole by one of three paths (R28 to R30). -/
def takeIncrement (sc : ScaleTable) (m : Nat) (overload gapBridged : Bool) (s : State) : State :=
  match s.flight.segments.getLast? with
  | none => openSegment sc m overload gapBridged s
  | some t =>
    if joinsTail s sc t overload gapBridged then { s with flight := s.flight.setTail (t.joined m) }
    else if s.flight.segments.length < 64 then openSegment sc m overload gapBridged s
    else mergeTail t m overload gapBridged s

/-! ## Delivery (R31 to R35) -/

/-- A visit with a delivery added to it (R80). -/
def Visit.delivered (v : Visit) (g : Segment) (a : Account) : Visit :=
  { v with
    poured := v.poured + g.mass
    changed := upd v.changed a true
    flags := { v.flags with
      coarse := v.flags.coarse || g.coarse
      gapBridged := v.flags.gapBridged || g.gapBridged
      overload := v.flags.overload || g.overload } }

/-- The delivery of a ship's grain to account `a` reaches the visit (R80) or, with none open, the unbilled mark
(R150). -/
def reportDelivery (g : Segment) (a : Account) (s : State) : State :=
  match s.seq.visit with
  | some v => setVisit (some (v.delivered g a)) s
  | none => { s with bills := { s.bills with unbilled := true } }

/-- The alarm of a delivery to account `a` of the open ship (R33). -/
def deliveryAlarm (a : Account) (s : State) : State :=
  if a = unplaced then raise srcUnplacedPour s
  else
    match s.seq.visit with
    | some v => if holdAccount v.hold = a then s else raise srcOffPlan s
    | none => s

/-- Give a delivered segment's mass to its account, with its alarms and its report (R32 to R34). -/
def creditDelivery (g : Segment) (s : State) : State :=
  if g.shipTag = 0 then raise srcStrayMass s
  else
    let a := s.place.pourPoint
    let s := { s with ship := { s.ship with accounts := upd s.ship.accounts a (addMass s.ship.accounts[a] g.mass) } }
    reportDelivery g a (deliveryAlarm a s)

/-- The removal of a segment leaves no COARSE segment behind (R30). -/
def coarseLeft (g : Segment) (rest : List Segment) (s : State) : State :=
  if g.coarse && !(rest.any (·.coarse)) then setCond srcSegmentCoarse false s else s

/-- The delivery has emptied the queue (R35): a DRAINING visit completes (R86), and a held move is tested (R54). -/
def queueEmptied (s : State) : State :=
  testHeldMove (if s.visitState = some .draining then completeVisit s else s)

/-- Remove and deliver the head segment `g`, `rest` standing behind it (R31). -/
def deliver (g : Segment) (rest : List Segment) (s : State) : State :=
  let s := { s with flight := { s.flight with segments := rest } }
  let s := creditDelivery g (coarseLeft g rest s)
  if s.flight.total = 0 then queueEmptied s else s

/-- Deliver from the head until it is not due (R31). -/
def deliverDue : List Segment → State → State
  | [], s => s
  | g :: rest, s => if g.arrival ≤ s.meter.belt then deliverDue rest (deliver g rest s) else s

/-- The head segment is due. -/
def headDue (s : State) : Bool :=
  match s.flight.segments with
  | [] => false
  | g :: _ => decide (g.arrival ≤ s.meter.belt)

/-- Steps 4 and 5 of R13: deliveries, and the projections when an increment was handed over or a segment was due. -/
def deliverAndCheck (handed : Bool) (s : State) : State :=
  let s' := deliverDue s.flight.segments s
  if handed || headDue s then checkProjections s' else s'

/-! ## One taken BELT sample (R4 to R8, R13) -/

/-- Step 1 of R13: the increment enters the ship's weighed total, or the unassigned total. -/
def weigh (m : Nat) (s : State) : State :=
  match s.ship.state with
  | .open => { s with ship := { s.ship with weighed := addMass s.ship.weighed m } }
  | .noShip => { s with ship := { s.ship with unassigned := addMass s.ship.unassigned m } }

/-- Step 2 of R13 (R14). -/
def advanceBelt (t : Nat) (s : State) : State :=
  { s with meter := { s.meter with belt := addBelt s.meter.belt t } }

/-- Integrate a normal sample with head status OK (R9 to R13). -/
def integrate (sc : ScaleTable) (load : Int) (t : Nat) (gapBridged : Bool) (s : State) : State :=
  let n := netLoad (load - s.meter.offset) sc.span
  let n' := clampLoad n sc.capacity
  let m := acceptedLoad n' sc.deadBand * t
  let s := advanceBelt t (weigh m (addDrift (driftMass n' sc.deadBand t) s))
  let s := if 0 < m then takeIncrement sc m (overloaded n sc.capacity) gapBridged s else s
  deliverAndCheck (decide (0 < m)) s

/-- The offset that a complete collection gives (R21). -/
def collectedOffset (z : ZeroOp) : Int :=
  z.loadTravel.sign * (((2 * z.loadTravel.natAbs + z.travel) / (2 * z.travel) : Nat) : Int)

/-- Complete the collection (R21). -/
def completeZero (sc : ScaleTable) (z : ZeroOp) (s : State) : State :=
  let zNew := collectedOffset z
  let s := { s with meter := { s.meter with zero := some z } }
  if (zNew - s.meter.offset).natAbs ≤ sc.zeroShiftLimit then
    endZero .zeroed zNew (evalDrift { s with meter := { s.meter with offset := zNew, drift := 0 } })
  else endZero .rejected zNew s

/-- Offer a normal sample with head status OK to the collection (R20 to R22). -/
def collectZero (sc : ScaleTable) (load : Int) (t : Nat) (s : State) : State :=
  match s.meter.zero with
  | none => s
  | some z =>
    if 1024 * sc.deadBand ≤ (load - s.meter.offset).natAbs * sc.span then endZero .loaded s.meter.offset s
    else
      let z := { z with travel := z.travel + t, loadTravel := z.loadTravel + load * t }
      if sc.beltLength ≤ z.travel then completeZero sc z s else { s with meter := { s.meter with zero := some z } }

/-- A reverse sample (R5). -/
def reverseSample (s : State) : State :=
  raise srcBeltReverse (setCond srcBeltReverse true { s with meter := { s.meter with clearing := 0 } })

/-- The effects of a sample with travel `t` from the previous one (R4 to R8). A sample that is both position lost and
of head status FAULT sets METER FAULT, and raises it, once (log entry 39). -/
def beltTravel (sc : ScaleTable) (load : Int) (t : Nat) (gapBridged ok : Bool) (s : State) : State :=
  if 32768 ≤ t then
    let s := reverseSample s
    if ok then s else setMeterFault s
  else
    let s := setCond srcBeltReverse false s
    if t ≤ sc.gapLimit ∧ ok then collectZero sc load t (countClearing (integrate sc load t gapBridged s))
    else setMeterFault (deliverAndCheck false (advanceBelt t s))

/-- A first sample (R4, R8). -/
def firstSample (ok : Bool) (s : State) : State :=
  let s := setCond srcBeltReverse false s
  if ok then s else setMeterFault s

/-- The Belt Meter takes a BELT sample (R3 to R8, R17). -/
def takeBelt (seq : Byte) (load : Int) (pos : BitVec 16) (ok : Bool) (s : State) : State :=
  match s.meter.table with
  | none => s
  | some sc =>
    let s :=
      match s.meter.prev with
      | none => firstSample ok s
      | some (p, q) => beltTravel sc load (pos - p).toNat (seq != q + 1) ok s
    restartSilence { s with meter := { s.meter with prev := some (pos, seq) } }

end Sys2Proof.Machine
end

