-- ==== Sys2Proof/Machine/Inspect.lean ====
section
/-! DEFINITION. The Frame Inspector (R177 to R179): which row of the table of operations a frame belongs to; the error
tally and LINE FAULT (R174, R175); and the taking of one frame from a receive queue (R173). -/

namespace Sys2Proof.Machine

/-! ## Which command a frame is (R177 to R179) -/

/-- The axis whose role holds an address. -/
def State.axisAt (s : State) (addr : Byte) : Option Axis :=
  if s.station .gantry = some addr then some .gantry
  else if s.station .shuttle = some addr then some .shuttle
  else if s.station .chute = some addr then some .chute
  else none

/-- The injected-order destination whose role holds an address. -/
def State.destAt (s : State) (addr : Byte) : Option InjDest :=
  if s.station .feeder = some addr then some .feeder
  else if s.station .gantry = some addr then some (.drive .gantry)
  else if s.station .shuttle = some addr then some (.drive .shuttle)
  else none

/-- The length of a request's payload after its code, with its command, by code (R186); LOAD apart. -/
def requestForm (code : Nat) : Option (Nat × Instr) :=
  match code with
  | 2 => some (2, .read)
  | 3 => some (1, .status)
  | 4 => some (5, .setOptions)
  | 5 => some (2, .openShip)
  | 6 => some (0, .closeShip)
  | 7 => some (3, .startPlan)
  | 8 => some (0, .haltPlan)
  | 9 => some (0, .resumePlan)
  | 10 => some (0, .skipSlot)
  | 11 => some (0, .zeroBelt)
  | 12 => some (0, .zeroAbort)
  | 13 => some (5, .sweep)
  | 14 => some (1, .ackAlarm)
  | 15 => some (1, .doneAlarm)
  | 16 => some (5, .setAlarm)
  | 17 => some (5, .readRecords)
  | 18 => some (4, .takeRecords)
  | 19 => some (0, .restart)
  | _ => none

/-- A REQUEST from port U to the own address, by its payload (R179). -/
def requestRow (p : List Byte) : Instr :=
  match p with
  | [] => .badFrame
  | c :: fs =>
    if c = 1 then (if loadHeaderFails fs || loadLengthHolds fs then .load else .badFrame)
    else
      match requestForm c.toNat with
      | none => .badRequest
      | some (n, row) => if fs.length = n then row else .badFrame

/-- An ORDER from port U to the FEEDER role's address (R97, R179). -/
def feederOrderRow (p : List Byte) : Instr :=
  match parseOrder p with
  | .malformed => .badFrame
  | .run _ => .run
  | .rate _ => .rate
  | .stop => .stop
  | _ => .forwardFrame .U

/-- An ORDER from port U to an axis role's address (R49, R179). -/
def axisOrderRow (p : List Byte) : Instr :=
  match parseOrder p with
  | .malformed => .badFrame
  | .move _ _ => .move
  | .halt _ => .halt
  | _ => .forwardFrame .U

/-- An ORDER from port U to the global address (R177, R179). -/
def globalOrderRow (p : List Byte) : Instr :=
  match p with
  | c :: fs => if c = 3 then (if fs.length = 0 then .stop else .badFrame) else .badDestination
  | [] => .badDestination

/-- A SAMPLE from port D, by its type; a malformed or unknown one is forwarded (R177, R179). -/
def sampleRow (p : List Byte) : Instr :=
  match parseSample p with
  | some (.belt _ _ _) => .beltSample
  | some (.position _ _ _) => .positionSample
  | some (.holdsense _) => .holdsenseSample
  | some (.dust _ _) => .dustSample
  | some (.feeder _) => .feederSample
  | none => .forwardFrame .D

/-- A frame taken from port U while the part is READY (R177). -/
def readyRowU (s : State) (f : Frame) : Instr :=
  if f.kind = kindRequest then
    if f.dst = addrGlobal then .requestDropped .U
    else if f.dst = s.handler.ownAddr then requestRow f.payload
    else .forwardFrame .U
  else if f.kind = kindOrder then
    if f.dst = addrGlobal then globalOrderRow f.payload
    else if s.station .feeder = some f.dst then feederOrderRow f.payload
    else if (s.axisAt f.dst).isSome then axisOrderRow f.payload
    else .forwardFrame .U
  else .forwardFrame .U

/-- A frame taken from port D while the part is READY (R177). -/
def readyRowD (f : Frame) : Instr :=
  if f.kind = kindRequest then .requestDropped .D
  else if f.kind = kindSample then sampleRow f.payload
  else if f.kind = kindReply then .reply
  else .forwardFrame .D

/-- An ORDER taken from port U while the part is UNCONFIGURED: a RUN by its code alone, whatever its length (R178; log
entry 13); a global STOP of a wrong length is malformed in either part state (R179). -/
def unconfiguredOrderRow (f : Frame) : Instr :=
  match f.payload with
  | c :: fs =>
    if c = 1 then .run
    else if c = 3 ∧ f.dst = addrGlobal ∧ fs.length ≠ 0 then .badFrame
    else .forwardFrame .U
  | [] => .forwardFrame .U

/-- A frame taken while the part is UNCONFIGURED (R178, R179). -/
def unconfiguredRow (s : State) (p : PortId) (f : Frame) : Instr :=
  if f.kind = kindRequest then
    if p = .D ∨ f.dst = addrGlobal then .requestDropped p
    else if f.dst = s.handler.ownAddr then requestRow f.payload
    else .forwardFrame p
  else if p = .D ∧ f.kind = kindReply ∧ f.dst = s.handler.ownAddr then .reply
  else if p = .U ∧ f.kind = kindOrder then unconfiguredOrderRow f
  else .forwardFrame p

/-- Both address bytes are station addresses, their upper two bits zero (R169). -/
def Frame.addressed (f : Frame) : Bool := decide (f.dst.toNat < 64 ∧ f.src.toNat < 64)

/-- The command that a frame taken from a port is (R177 to R179). An address byte with an upper bit set matches no
station, and such a frame is forwarded as "anything else" in either part state (R169; log entry 38). -/
def inspect (s : State) (p : PortId) (f : Frame) : Instr :=
  if !f.addressed then .forwardFrame p
  else if s.ready then
    match p with
    | .U => readyRowU s f
    | .D => readyRowD f
  else unconfiguredRow s p f

/-! ## Error tally and LINE FAULT (R174, R175) -/

def setLinePort (p : PortId) (x : Port) (s : State) : State := { s with line := s.line.setPort p x }

/-- A port enters LINE FAULT (R175). -/
def enterLineFault (p : PortId) (s : State) : State :=
  let s := setLinePort p { s.line.port p with lineFault := true } s
  let s := raise (srcLineFault p) (setCond (srcLineFault p) true s)
  match p with
  | .U => s
  | .D => takeTrigger .lineFault s

/-- A port leaves LINE FAULT (R175). -/
def leaveLineFault (p : PortId) (s : State) : State :=
  let s := setLinePort p { s.line.port p with lineFault := false } s
  let s := setCond (srcLineFault p) false s
  match p with
  | .U => s
  | .D => derateCheck s

/-- Entry to LINE FAULT where the tally stands at or above the threshold (R175). -/
def lineFaultTest (p : PortId) (s : State) : State :=
  if !(s.line.port p).lineFault && decide (s.handler.threshold ≤ (s.line.port p).tally) then enterLineFault p s else s

/-- A step of +1 (R174). -/
def tallyUp (p : PortId) (s : State) : State :=
  lineFaultTest p (setLinePort p { s.line.port p with tally := min ((s.line.port p).tally + 1) 255 } s)

/-- A step of -1 (R174). -/
def tallyDown (p : PortId) (s : State) : State :=
  let s := setLinePort p { s.line.port p with tally := (s.line.port p).tally - 1 } s
  if (s.line.port p).lineFault && (s.line.port p).tally == 0 then leaveLineFault p s else s

/-- The step at the taking of a frame (R174). -/
def takingStep (p : PortId) (r : Receipt) (row : Instr) (s : State) : State :=
  match r, row with
  | .overrun, _ => tallyUp p s
  | .good, .requestDropped _ => tallyUp p s
  | .good, _ => tallyDown p s

/-! ## Taking a frame (R173) -/

/-- The frame at the head of port `p`'s receive queue leaves it, and the tally steps (R173, R174). -/
def takeHead (p : PortId) (e : RxEntry) (rest : List RxEntry) (row : Instr) (s : State) : State :=
  takingStep p e.receipt row (setLinePort p { s.line.port p with rxQueue := rest } s)

/-- The inspector takes the oldest frame of port `p` when that frame is the command `row`: the tally steps, the owner
treats the frame, and the event closes. Where no such frame stands there, nothing happens (log entry 1). -/
def takeFrame (p : PortId) (row : Instr) (treat : Frame → State → State) (s : State) : State :=
  match (s.line.port p).rxQueue with
  | [] => s
  | e :: rest =>
    if inspect s p e.frame = row then endEvent (treat e.frame (takeHead p e rest row s)) else s

end Sys2Proof.Machine
end

