-- ==== Sys2Proof/Machine/Samples.lean ====
section
/-! DEFINITION. Line commands (RECEIVE_FRAME, TRANSMIT_END) and the commands of port D: samples (R3, R42, R43, R90,
R112) and REPLY (R63, R90, R91, R94). -/

namespace Sys2Proof.Machine

/-! ## RECEIVE_FRAME, TRANSMIT_END -/

/-- A good frame enters the receive queue; at a full queue it replaces the newest entry (R173). -/
def Port.enqueue (x : Port) (f : Frame) : Port :=
  if x.rxQueue.length < 8 then { x with rxQueue := x.rxQueue ++ [{ frame := f, receipt := .good }] }
  else { x with rxQueue := x.rxQueue.dropLast ++ [{ frame := f, receipt := .overrun }] }

/-- One byte at a port's receiver (R172 to R175). While RESET is asserted the byte is discarded (R195). -/
def receiveByte (p : PortId) (s : State) (b : Byte) : State :=
  if s.pins.reset then s
  else
    let x := s.line.port p
    match rxByte x.rx b with
    | (rx, .quiet) => setLinePort p { x with rx := rx } s
    | (rx, .good f) => setLinePort p (Port.enqueue { x with rx := rx } f) s
    | (rx, _) => endEvent (tallyUp p (setLinePort p { x with rx := rx } s))

/-- RECEIVE_FRAME: the bytes arrive one after another, each an event of its own (log entry 24). -/
def execReceiveFrame (p : PortId) (bytes : List Byte) (s : State) : Host.Outcome State Fault Refusal :=
  .next (bytes.foldl (receiveByte p) s)

/-- The sending on a port ends, and the transmitter begins its next frame (R181, R182). -/
def endSending (p : PortId) (s : State) : State :=
  if (s.line.port p).sending.isSome then
    { s with line := (s.line.setPort p { s.line.port p with sending := none }).begin p }
  else s

/-- TRANSMIT_END. -/
def execTransmitEnd (p : PortId) (s : State) : Host.Outcome State Fault Refusal := .next (endSending p s)

/-! ## BELT_SAMPLE -/

/-- A BELT sample: metered when it comes from the SCALE role's address, then forwarded (R3). -/
def treatBelt (f : Frame) (s : State) : State :=
  match parseSample f.payload with
  | some (.belt load pos ok) => forward .D f (if s.fromRole .scale f then takeBelt f.seq load pos ok s else s)
  | _ => s

def execBeltSample (s : State) : Host.Outcome State Fault Refusal := .next (takeFrame .D .beltSample treatBelt s)

/-! ## POSITION_SAMPLE, HOLDSENSE_SAMPLE -/

def Axes.put (a : Axes) : Axis → AxisState → Axes
  | .gantry, x => { a with gantry := x }
  | .shuttle, x => { a with shuttle := x }
  | .chute, x => { a with chute := x }

def putAxis (a : Axis) (x : AxisState) (s : State) : State :=
  { s with place := { s.place with axes := s.place.axes.put a x } }

/-- The Placement Unit takes a POSITION sample (R42, R45 to R48, R58, R60). -/
def takePosition (a : Axis) (pos : Nat) (m : Motion) (s : State) : State :=
  let before := s.place.state
  sweepTest before (some (a, pos, m)) (evaluatePlacement (putAxis a { pos := some pos, motion := some m } s))

/-- A POSITION sample: taken when it comes from the address of the axis it names, then forwarded (R42). -/
def treatPosition (f : Frame) (s : State) : State :=
  match parseSample f.payload with
  | some (.position a pos m) => forward .D f (if s.fromRole a.role f then takePosition a pos m s else s)
  | _ => s

def execPositionSample (s : State) : Host.Outcome State Fault Refusal :=
  .next (takeFrame .D .positionSample treatPosition s)

/-- The Placement Unit takes a HOLDSENSE sample (R43, R45 to R48, R60). -/
def takeSense (r : SenseResult) (s : State) : State :=
  let before := s.place.state
  sweepTest before none (evaluatePlacement { s with place := { s.place with sense := some r } })

/-- A HOLDSENSE sample (R43). -/
def treatSense (f : Frame) (s : State) : State :=
  match parseSample f.payload with
  | some (.holdsense r) => forward .D f (if s.fromRole .holdsense f then takeSense r s else s)
  | _ => s

def execHoldsenseSample (s : State) : Host.Outcome State Fault Refusal :=
  .next (takeFrame .D .holdsenseSample treatSense s)

/-! ## DUST_SAMPLE (R112 to R121) -/

/-- The sensor whose role holds an address. -/
def State.sensorAt (s : State) (addr : Byte) : Option SensorNo :=
  (List.finRange 8).find? fun i : SensorNo => s.station (.dust i) = some addr

/-- Restart a sensor's silence timer (R119); timers run only while the part is READY. -/
def restartSensor (i : SensorNo) (s : State) : State :=
  let x := s.dust.sensors[i]
  match x.entry with
  | some e =>
    if s.ready && e.enabled then setSensor i { x with timer := some (s.now + e.silenceTime) } s else s
  | none => s

/-- The silent flag becomes set (R118, R119): a raise where it was clear. -/
def silenceSensor (i : SensorNo) (s : State) : State :=
  let x := s.dust.sensors[i]
  let s' := setCond (srcSensorSilent i) true (setSensor i { x with silent := true } s)
  if x.silent then s' else raise (srcSensorSilent i) s'

/-- The average and the average band (R113, R114), with DUST_HIGH's condition. -/
def averageSensor (i : SensorNo) (e : SensorEntry) (c : Nat) (s : State) : State :=
  let x := s.dust.sensors[i]
  let x := { x with a16 := nextA16 x.a16 c e.shift }
  let band := nextAvgBand e x.avgBand x.average
  setCond (srcDustHigh i) (band == .high) (setSensor i { x with avgBand := band } s)

/-- The trip run count after a reading (R116). -/
def nextRun (e : SensorEntry) (run c : Nat) : Nat := if e.trip ≤ c then min (run + 1) e.tripRun else 0

/-- The updated count sets the latch (R116). -/
def trips (e : SensorEntry) (run c : Nat) : Bool := nextRun e run c == e.tripRun

/-- The trip run count, then the latch or the release test (R116, R117). -/
def tripSensor (i : SensorNo) (e : SensorEntry) (c : Nat) (s : State) : State :=
  let x := s.dust.sensors[i]
  let set := trips e x.run c
  let s := setSensor i { x with run := nextRun e x.run c, latch := x.latch || set } s
  if set then setCond (srcDustTrip i) true s else releaseTest i s

/-- The silent flag is cleared (R119). -/
def hearSensor (i : SensorNo) (s : State) : State :=
  setCond (srcSensorSilent i) false (setSensor i { s.dust.sensors[i] with silent := false } s)

/-- The alarms of a sample with head status OK (R115, R116), given the sensor as it was before the sample. -/
def dustAlarms (i : SensorNo) (e : SensorEntry) (before : Sensor) (c : Nat) (s : State) : State :=
  let s :=
    if before.avgBand != .high && (s.dust.sensors[i]).avgBand == .high then raise (srcDustHigh i) s else s
  if trips e before.run c then raise (srcDustTrip i) s else s

/-- The Dust Monitor takes a sample of sensor `i` (R112). -/
def takeDust (i : SensorNo) (e : SensorEntry) (c : Nat) (ok : Bool) (s : State) : State :=
  let before := s.dust.sensors[i]
  let s := restartSensor i s
  let s :=
    if ok then dustAlarms i e before c (hearSensor i (tripSensor i e c (averageSensor i e c s))) else silenceSensor i s
  reformBands s

/-- A DUST sample: taken when its source is a DUST role whose entry is loaded and enabled, then forwarded (R112). -/
def treatDust (f : Frame) (s : State) : State :=
  match parseSample f.payload with
  | some (.dust c ok) =>
    forward .D f
      (match s.sensorAt f.src with
      | none => s
      | some i =>
        match (s.dust.sensors[i]).entry with
        | some e => if e.enabled then takeDust i e c ok s else s
        | none => s)
  | _ => s

def execDustSample (s : State) : Host.Outcome State Fault Refusal := .next (takeFrame .D .dustSample treatDust s)

/-! ## FEEDER_SAMPLE -/

/-- A FEEDER sample (R90). -/
def treatFeeder (f : Frame) (s : State) : State :=
  match parseSample f.payload with
  | some (.feeder st) => forward .D f (if s.fromRole .feeder f then feederArrival st false s else s)
  | _ => s

def execFeederSample (s : State) : Host.Outcome State Fault Refusal :=
  .next (takeFrame .D .feederSample treatFeeder s)

/-! ## REPLY (R63, R90, R91, R94) -/

/-- A reply from an axis sets its motion when its device state is a motion code (R63, R179). -/
def observeAxis (a : Axis) (r : ReplyForm) (s : State) : State :=
  match Motion.ofByte r.device with
  | some m => putAxis a { s.place.axes.get a with motion := some m } s
  | none => s

/-- A reply from the feeder sets its state when its device state is a feeder code (R90, R91, R179). -/
def observeFeeder (r : ReplyForm) (s : State) : State :=
  match FeederState.ofByte r.device with
  | some st => feederArrival st r.failedRun s
  | none => s

/-- The entry that a reply from a destination matches (R94). -/
def Gate.matched (g : Gate) (d : InjDest) (seq : Byte) : Option InjEntry :=
  match g.entry d with
  | some e => if e.seq = seq then some e else none
  | none => none

/-- A reply from the feeder to the part: its device state first, then its match, made against the entry that stood at
its arrival (R90, R91, R94; log entry 30). -/
def replyFeeder (r : ReplyForm) (seq : Byte) (s : State) : State :=
  let m := s.gate.matched .feeder seq
  let s := observeFeeder r s
  match m with
  | some e => if s.gate.injFeeder = some e then feederOutcome e.order (!r.done) (releaseEntry .feeder s) else s
  | none => s

/-- A matching reply from a drive (R58, R61). -/
def driveOutcome (a : DriveAxis) (done : Bool) (s : State) : State :=
  match s.place.sweep with
  | some w =>
    if w.axis = a ∧ w.phase = .awaitingReply then
      if done then setSweep (some { w with phase := .awaitingPosition }) (releaseEntry (.drive a) s) else faultSweep s
    else releaseEntry (.drive a) s
  | none => releaseEntry (.drive a) s

/-- A reply from a drive to the part (R58, R63): one that matches no entry is ignored. -/
def replyDrive (a : DriveAxis) (r : ReplyForm) (seq : Byte) (s : State) : State :=
  match s.gate.matched (.drive a) seq with
  | some _ => driveOutcome a r.done (observeAxis (axisOf a) r s)
  | none => s

/-- A reply addressed to the part (R94, R177). -/
def consumeReply (f : Frame) (r : ReplyForm) (s : State) : State :=
  match s.destAt f.src with
  | some .feeder => replyFeeder r f.seq s
  | some (.drive a) => replyDrive a r f.seq s
  | none => s

/-- A reply addressed elsewhere, observed by its block (R63, R90). -/
def observeReply (f : Frame) (r : ReplyForm) (s : State) : State :=
  if s.station .feeder = some f.src then observeFeeder r s
  else
    match s.axisAt f.src with
    | some a => observeAxis a r s
    | none => s

/-- A REPLY from port D (R177 to R179). -/
def treatReply (f : Frame) (s : State) : State :=
  if !s.ready then s
  else
    match parseReply f.payload, f.dst == s.handler.ownAddr with
    | some r, true => consumeReply f r s
    | none, true => s
    | some r, false => forward .D f (observeReply f r s)
    | none, false => forward .D f s

def execReply (s : State) : Host.Outcome State Fault Refusal := .next (takeFrame .D .reply treatReply s)

end Sys2Proof.Machine
end

