-- ==== Sys2Proof/Machine/Orders.lean ====
section
/-! DEFINITION. The orders of the terminal station (R49 to R55, R96 to R101), frames forwarded, dropped or refused by
the inspector (R177 to R179). -/

namespace Sys2Proof.Machine

/-! ## RUN (R98, R99) -/

/-- The open visit holds a reservation. -/
def visitReserved (s : State) : Bool :=
  match s.seq.visit with
  | some v => v.reserved
  | none => false

/-- The first reason of R98 from STOPPED on. -/
def runBarred (s : State) : Option Reason :=
  if s.pins.stop then some .stopped
  else if s.dust.overall = .trip then some .dustTrip
  else if s.meter.fault then some .meterFault
  else if s.line.d.lineFault then some .lineFault
  else if s.meter.zero.isSome then some .zeroing
  else if !visitReserved s && s.bills.free == 0 then some .billFull
  else none

/-- The first reason of R98 that holds. -/
def runRefusal (s : State) : Option Reason :=
  if !s.ready then some .notReady
  else if s.seq.plan ≠ .active then some .noPlan
  else
    match s.visitState with
    | some .closing => some .closing
    | some .draining => some .closing
    | some .waiting => some .notArmed
    | none => some .notArmed
    | _ => runBarred s

/-- A frame whose rate is clamped to the rate limit (R96). -/
def clampFrame (s : State) (f : Frame) (rate : Nat) : Frame :=
  if s.gate.rateLimit < rate then { f with payload := ratePayload (payloadCode f) s.gate.rateLimit } else f

/-- The open visit's flags and the last commanded rate after a forwarded RUN or RATE (R96, R99, R100). -/
def recordRate (rate : Nat) (s : State) : State :=
  let clamped := decide (s.gate.rateLimit < rate)
  let derated := limitBelowMax s
  mapVisit (fun v => { v with flags := { v.flags with
      clamped := v.flags.clamped || clamped, derated := v.flags.derated || derated } })
    { s with gate := { s.gate with lastRate := some (min rate s.gate.rateLimit) } }

/-- The reservation of step 1 of R99. -/
def reserveForVisit (s : State) : State :=
  if visitReserved s then s else mapVisit (fun v => { v with reserved := true }) (reserve s)

/-- A RUN that passes R98 (R99). -/
def runTaken (f : Frame) (rate : Nat) (s : State) : State :=
  if s.line.d.room then
    runForwarded (recordRate rate (offer .D (clampFrame s f rate) (reserveForVisit s)))
  else refuse .U f .lineBusy s

/-- A RUN (R98, R99). -/
def treatRun (f : Frame) (s : State) : State :=
  match runRefusal s with
  | some .billFull => refuse .U f .billFull (raise srcBillFull s)
  | some r => refuse .U f r s
  | none =>
    match parseOrder f.payload with
    | .run rate => runTaken f rate s
    | _ => s

def execRun (s : State) : Host.Outcome State Fault Refusal := .next (takeFrame .U .run treatRun s)

/-! ## RATE (R100) -/

/-- The first reason of R100 that holds. -/
def rateRefusal (s : State) : Option Reason :=
  if !s.ready then some .notReady
  else
    match s.visitState with
    | some .closing => some .closing
    | some .draining => some .closing
    | some .pouring => none
    | _ => some .notPouring

/-- A RATE (R100). -/
def treatRate (f : Frame) (s : State) : State :=
  match rateRefusal s with
  | some r => refuse .U f r s
  | none =>
    match parseOrder f.payload with
    | .rate rate =>
      if s.line.d.room then recordRate rate (offer .D (clampFrame s f rate) s) else refuse .U f .lineBusy s
    | _ => s

def execRate (s : State) : Host.Outcome State Fault Refusal := .next (takeFrame .U .rate treatRate s)

/-! ## STOP (R101) -/

/-- A STOP to the feeder or to the global address (R101, R177). -/
def treatStop (f : Frame) (s : State) : State :=
  if s.line.d.room then pauseVisit .stopOrder (offer .D f s) else refuse .U f .lineBusy s

def execStop (s : State) : Host.Outcome State Fault Refusal := .next (takeFrame .U .stop treatStop s)

/-! ## MOVE (R49 to R53) -/

/-- A target within an axis's limits (R50). -/
def AxisLimits.clamp (l : AxisLimits) (t : Nat) : Nat := if t < l.low then l.low else if l.high < t then l.high else t

/-- A MOVE with its clamped target (R50). -/
def clampMove (a : Axis) (f : Frame) (target clamped : Nat) : Frame :=
  if clamped = target then f else { f with payload := movePayload a.code clamped }

/-- The move is a trimming move (R52), by the envelope entry as it stands (log entry 41). -/
def trimming (s : State) (a : DriveAxis) (target : Nat) : Bool :=
  match guardedHold s with
  | none => false
  | some h =>
    match s.place.envelopes[h] with
    | none => false
    | some e =>
      match a with
      | .gantry => (match s.place.axes.shuttle.pos with
          | some sh => e.inside target sh
          | none => false)
      | .shuttle => (match s.place.axes.gantry.pos with
          | some g => e.inside g target
          | none => false)

/-- End a sweep on an axis (R49, R60). -/
def cancelSweepOn (a : DriveAxis) (s : State) : State :=
  match s.place.sweep with
  | some w => if w.axis = a then cancelSweep s else s
  | none => s

/-- Dismiss a move held for an axis (R52, R55). -/
def dismissHeldOn (a : DriveAxis) (r : Reason) (s : State) : State :=
  match s.place.held with
  | some h => if h.axis = a then dismissHeldMove r s else s
  | none => s

/-- Put a leaving move in the slot (R53): a move already there is answered SUPERSEDED, the new one HELD. -/
def holdMove (h : HeldMove) (s : State) : State :=
  let s := dismissHeldMove .superseded s
  refuse .U h.frame .held { s with place := { s.place with held := some h } }

/-- Forward a terminal order to an axis, or refuse it LINE_BUSY with nothing changed (R49). -/
def forwardOrder (f : Frame) (k : State → State) (sent : Frame) (s : State) : State :=
  if s.line.d.room then k (offer .D sent s) else refuse .U f .lineBusy s

/-- A clamped GANTRY or SHUTTLE MOVE (R49, R52, R53). -/
def moveDrive (a : DriveAxis) (f sent : Frame) (target : Nat) (s : State) : State :=
  if !pourPhase s then forwardOrder f (cancelSweepOn a) sent s
  else if trimming s a target then forwardOrder f (fun s => dismissHeldOn a .superseded (cancelSweepOn a s)) sent s
  else if s.handler.holdMoves then holdMove { axis := a, target := target, frame := sent } (cancelSweepOn a s)
  else refuse .U f .outOfHold (cancelSweepOn a s)

/-- A MOVE to an axis role (R49, R50). -/
def moveAxis (a : Axis) (f : Frame) (target : Nat) (s : State) : State :=
  let t := (s.place.travel.limits a).clamp target
  let sent := clampMove a f target t
  match a with
  | .chute => forwardOrder f id sent s
  | .gantry => moveDrive .gantry f sent t s
  | .shuttle => moveDrive .shuttle f sent t s

/-- A MOVE (R49). An axis byte that is no axis code names an axis that is not the destination's: WRONG_AXIS (log
entry 40). -/
def treatMove (f : Frame) (s : State) : State :=
  match s.axisAt f.dst, parseOrder f.payload with
  | some a, .move b target => if Axis.ofByte b = some a then moveAxis a f target s else refuse .U f .wrongAxis s
  | _, _ => s

def execMove (s : State) : Host.Outcome State Fault Refusal := .next (takeFrame .U .move treatMove s)

/-! ## HALT (R49, R55, R60) -/

/-- What a forwarded HALT to an axis ends: a sweep and a held move of that axis. -/
def haltAxis (a : Axis) (s : State) : State :=
  match a with
  | .gantry => dismissHeldOn .gantry .cancelled (cancelSweepOn .gantry s)
  | .shuttle => dismissHeldOn .shuttle .cancelled (cancelSweepOn .shuttle s)
  | .chute => s

/-- A HALT (R49), its axis byte read as a MOVE's (log entry 40). -/
def treatHalt (f : Frame) (s : State) : State :=
  match s.axisAt f.dst, parseOrder f.payload with
  | some a, .halt b => if Axis.ofByte b = some a then forwardOrder f (haltAxis a) f s else refuse .U f .wrongAxis s
  | _, _ => s

def execHalt (s : State) : Host.Outcome State Fault Refusal := .next (takeFrame .U .halt treatHalt s)

/-! ## Frames no block owns (R174, R177 to R179) -/

def execForwardFrame (p : PortId) (s : State) : Host.Outcome State Fault Refusal :=
  .next (takeFrame p (.forwardFrame p) (forward p) s)

/-- A dropped REQUEST: the tally's step is all it brings about (R174, R177). -/
def execRequestDropped (p : PortId) (s : State) : Host.Outcome State Fault Refusal :=
  .next (takeFrame p (.requestDropped p) (fun _ s => s) s)

def execBadRequest (s : State) : Host.Outcome State Fault Refusal :=
  .next (takeFrame .U .badRequest (fun f => refuse .U f .badRequest) s)

def execBadDestination (s : State) : Host.Outcome State Fault Refusal :=
  .next (takeFrame .U .badDestination (fun f => refuse .U f .badDestination) s)

def execBadFrame (s : State) : Host.Outcome State Fault Refusal :=
  .next (takeFrame .U .badFrame (fun f => refuse .U f .badFrame) s)

end Sys2Proof.Machine
end

