-- ==== Sys2Proof/Machine/Tables.lean ====
section
/-! DEFINITION. LOAD and READ (R191, R192): every table's fields as they stand, their ranges and defaults, the judging of
a load in R191's order, and what an accepted load brings about in the block that owns the table. -/

namespace Sys2Proof.Machine

/-! ## The fields of an entry, in table order; none is an absent field -/

/-- Entry `i` of a table, if the table has one. -/
def entryAt {α : Type} {n : Nat} (v : Vector α n) (i : Nat) : Option α := if h : i < n then some v[i] else none

/-- The index of hold number `n`. -/
def holdOf (n : Nat) : Option Hold := if h : 1 ≤ n ∧ n ≤ 12 then some ⟨n - 1, by omega⟩ else none

/-- Signed 16-bit field as the number it is carried as. -/
def carried16 (x : Int) : Nat := (x % 65536).toNat

def boolField (b : Bool) : Option Nat := some (if b then 1 else 0)

def ScaleTable.fields (t : ScaleTable) : List (Option Nat) :=
  [some t.span, some t.capacity, some t.deadBand, some t.gapLimit, some t.segmentLength, some t.transitBase,
   some t.chuteFactor, some t.beltLength, some t.zeroShiftLimit, some t.driftLimit, some t.scaleSilence,
   some t.zeroTimeout]

def TravelTable.fields (t : TravelTable) : Nat → List (Option Nat)
  | 0 => [some t.gantry.low, some t.gantry.high]
  | 1 => [some t.shuttle.low, some t.shuttle.high]
  | 2 => [some t.chute.low, some t.chute.high]
  | _ => [some t.settleCount, some t.leaveCount, some t.stepTimeout]

def Envelope.fields (e : Envelope) : List (Option Nat) :=
  [some e.gantryMin, some e.gantryMax, some e.shuttleMin, some e.shuttleMax, some e.margin, e.chuteMax]

def HoldEntry.fields (e : HoldEntry) : List (Option Nat) := [some (carried16 e.arm), e.target]

def Slot.fields (e : Slot) : List (Option Nat) := [some (e.hold.val + 1), some e.quota]

def PlanHeader.fields (p : PlanHeader) : List (Option Nat) :=
  [some p.slotCount, some p.order.code.toNat, some p.startSlot, some p.roundLimit, some p.trimLimit, p.shipTarget,
   some p.maxRate]

def SensorEntry.fields (e : SensorEntry) : List (Option Nat) :=
  [some e.location.code.toNat, some e.elevated, some e.high, some e.trip, some e.hysteresis, some e.shift,
   some e.tripRun, some e.silenceTime, boolField e.enabled]

def Source.fields (x : Source) : List (Option Nat) := [some x.rank, boolField x.record, boolField x.present]

/-- The fields of a loaded entry; none where it is unloaded (for STATIONS, where the role is absent, log entry 18). -/
def entryFields (s : State) (t : TableId) (e : Nat) : Option (List (Option Nat)) :=
  match t with
  | .stations => (entryAt s.stations e).join.map fun a => [some a.toNat]
  | .scale => s.meter.table.map ScaleTable.fields
  | .travel => some (s.place.travel.fields e)
  | .envelopes => (entryAt s.place.envelopes (e - 1)).join.map Envelope.fields
  | .holds => (entryAt s.seq.holds (e - 1)).join.map HoldEntry.fields
  | .sequence => (entryAt s.seq.slots e).join.map Slot.fields
  | .plan => s.seq.header.map PlanHeader.fields
  | .gate => some [some s.gate.replyWindow]
  | .dust =>
    if e = 0 then some [some s.dust.elevDerate, some s.dust.highDerate]
    else ((entryAt s.dust.sensors (e - 1)).map (·.entry)).join.map SensorEntry.fields
  | .alarm => (entryAt s.ladder.sources e).map Source.fields
  | .bills => some (s.bills.marks.toList.map some)
  | .accounts => some []

/-- What a SET load gives the fields it leaves absent (R1, R41, R92, R109, R110, R135, R151). -/
def defaultFields (t : TableId) (e : Nat) : List (Option Nat) :=
  match t with
  | .stations => [none]
  | .scale =>
    [some 256, some 400000, some 500, some 8000, some 1000, some 40000, some 0, some 100000, some 2000, some 500,
     some 500, some 300]
  | .travel => TravelTable.reset.fields e
  | .envelopes => [none, none, none, none, none, none]
  | .holds => [none, none]
  | .sequence => [none, none]
  | .plan => [none, none, none, none, none, none, none]
  | .gate => [some 200]
  | .dust =>
    if e = 0 then [some 60, some 25]
    else [none, none, none, none, some 50, some 3, some 2, some 2000, some 1]
  | .alarm => [some (resetRank e), some 1, some 1]
  | .bills => [some 64, some 128, some 192, some 240]
  | .accounts => []

def between (lo hi n : Nat) : Bool := decide (lo ≤ n ∧ n ≤ hi)

/-- An arm within -2,000 to 2,000 dm (R65). -/
def armInRange (n : Nat) : Bool := decide (-2000 ≤ signed16 n ∧ signed16 n ≤ 2000)

/-- The ranges of the fields (R1, R41, R44, R65, R67, R68, R92, R109, R110, R126, R151, R176). -/
def fieldRanges (t : TableId) (e : Nat) : List (Nat → Bool) :=
  match t with
  | .stations => [between 1 62]
  | .scale =>
    [between 1 65535, between 1000 2000000, between 0 65535, between 1 32767, between 250 8000, between 1 400000,
     between 0 4096, between 1000 2000000, between 0 32767, between 1 1000000, between 100 5000, between 10 600]
  | .travel =>
    if e = 0 then [between 0 600000, between 0 600000]
    else if e = 1 then [between 0 40000, between 0 40000]
    else if e = 2 then [between 0 20000, between 0 20000]
    else [between 1 64, between 1 64, between 1 120]
  | .envelopes =>
    [between 0 600000, between 0 600000, between 0 40000, between 0 40000, between 0 5000, between 0 20000]
  | .holds => [armInRange, between 1 99999999]
  | .sequence => [between 1 12, between 1 99999999]
  | .plan =>
    [between 1 16, between 0 1, between 0 15, between 1 255, between 1 1000000000000, between 1 99999999,
     between 1 65535]
  | .gate => [between 10 2000]
  | .dust =>
    if e = 0 then [between 0 100, between 0 100]
    else [between 0 3, between 0 65535, between 0 65535, between 0 65535, between 0 5000, between 0 6, between 1 8,
      between 200 20000, between 0 1]
  | .alarm => [between 0 15, between 0 1, between 0 1]
  | .bills => [between 1 256, between 1 256, between 1 256, between 1 256]
  | .accounts => []

/-! ## Judging a load (R191) -/

/-- A LOAD whose header passes step 1 of R191. -/
structure Load where
  table : TableId
  entry : Nat
  /-- SET is true, AMEND is false -/
  set : Bool
  /-- the marked fields' values -/
  fields : List (Option Nat)
deriving DecidableEq, Repr

/-- The load a payload carries. -/
def parseLoad (p : List Byte) : Option Load :=
  match p with
  | _ :: t :: e :: m :: a :: b :: vals =>
    match TableId.fromCode t.toNat with
    | some tab =>
      some { table := tab, entry := e.toNat, set := m == 1,
             fields := unpack (tab.widths e.toNat) (beNat [a, b]) vals }
    | none => none
  | _ => none

/-- Every present field lies in its range. -/
def inRanges (rs : List (Nat → Bool)) (fs : List (Option Nat)) : Bool :=
  (List.zipWith (fun (r : Nat → Bool) (f : Option Nat) => f.all r) rs fs).all id

/-- The entry as it would stand after the load: the marked fields over the entry's own (AMEND of a loaded entry) or
over the defaults. -/
def Load.merged (s : State) (l : Load) : List (Option Nat) :=
  let base := if l.set then defaultFields l.table l.entry
    else (entryFields s l.table l.entry).getD (defaultFields l.table l.entry)
  List.zipWith (fun (new old : Option Nat) => new <|> old) l.fields base

/-- Steps 2 to 4 of R191: `build` is the merged entry (none where a required field is absent), `relation` and `busy`
say which test fails. -/
def judgeLoad {α : Type} (s : State) (l : Load) (build : List (Option Nat) → Option α)
    (relation : α → Option Reason) (busy : α → Bool) : Except Reason α :=
  if inRanges (fieldRanges l.table l.entry) l.fields then
    match build (l.merged s) with
    | none => .error .badValue
    | some x =>
      match relation x with
      | some r => .error r
      | none => if busy x then .error .busy else .ok x
  else .error .badValue

/-- An AMEND with an empty mask on a loaded entry (R191). -/
def Load.amendsNothing (s : State) (l : Load) : Bool :=
  !l.set && l.fields.all (·.isNone) && (entryFields s l.table l.entry).isSome

/-- Answer a judged request, then bring about its effects (R189). -/
def answerJudged {α : Type} (f : Frame) (j : Except Reason α) (effect : α → State → State) (s : State) : State :=
  match j with
  | .error r => answerRefused f r s
  | .ok x => effect x (answerDone f [] s)

/-! ## The part state (R188) -/

/-- At the change to READY the silence timers start (R188). -/
def startTimers (s : State) : State :=
  (List.finRange 8).foldl (fun s (i : SensorNo) => restartSensor i s) (restartSilence s)

/-- Both marks set make an UNCONFIGURED part READY (R188). -/
def becomeReady (s : State) : State :=
  if s.handler.part = .unconfigured ∧ s.handler.stationsMark ∧ s.handler.scaleMark then
    startTimers { s with handler := { s.handler with part := .ready } }
  else s

/-! ## STATIONS (R176) -/

def buildStation (m : List (Option Nat)) : Option (Option Byte) :=
  match m with
  | [a] => some (a.map byteOf)
  | _ => none

/-- The address is the own address or another present role's (R176). -/
def duplicateAddress (s : State) (e : Nat) (a : Byte) : Bool :=
  a == s.handler.ownAddr || (List.finRange 14).any fun i => i.val != e && s.stations[i] == some a

def stationRelation (s : State) (e : Nat) (a : Option Byte) : Option Reason :=
  match a with
  | some b => if duplicateAddress s e b then some .duplicateAddress else none
  | none => none

/-- An injected-order entry is held (R93). -/
def Gate.anyEntry (g : Gate) : Bool := g.injFeeder.isSome || g.injGantry.isSome || g.injShuttle.isSome

def stationBusy (s : State) : Bool :=
  pourPhase s || s.meter.zero.isSome || s.place.sweep.isSome || s.gate.anyEntry

/-- What a changed or removed address does to the block of its role (R18, R42, R43, R90, R119). -/
def roleChanged (e : Nat) (s : State) : State :=
  match e with
  | 0 => { s with meter := { s.meter with prev := none } }
  | 1 => setFeeder .unknown s
  | 2 => putAxis .gantry AxisState.reset s
  | 3 => putAxis .shuttle AxisState.reset s
  | 4 => putAxis .chute AxisState.reset s
  | 5 => { s with place := { s.place with sense := none } }
  | n + 6 => if h : n < 8 then restartSensor ⟨n, h⟩ s else s

/-- An accepted STATIONS load (R17, R176, R188). -/
def applyStation (e : Nat) (a : Option Byte) (s : State) : State :=
  if h : e < 14 then
    let changed := s.stations[e] != a
    let s := restartSilence { s with stations := upd s.stations ⟨e, h⟩ a }
    let s := if changed then roleChanged e s else s
    becomeReady { s with handler := { s.handler with stationsMark := true } }
  else s

/-! ## SCALE (R1, R18) -/

def buildScale (m : List (Option Nat)) : Option ScaleTable :=
  match m with
  | [some a, some b, some c, some d, some e, some f, some g, some h, some i, some j, some k, some l] =>
    some { span := a, capacity := b, deadBand := c, gapLimit := d, segmentLength := e, transitBase := f,
           chuteFactor := g, beltLength := h, zeroShiftLimit := i, driftLimit := j, scaleSilence := k,
           zeroTimeout := l }
  | _ => none

/-- An accepted SCALE load (R12, R18, R188). -/
def applyScale (t : ScaleTable) (s : State) : State :=
  let s := evalDrift (restartSilence { s with meter := { s.meter with table := some t, prev := none } })
  becomeReady { s with handler := { s.handler with scaleMark := true } }

/-! ## TRAVEL (R41) -/

/-- The travel table after a load of one entry. -/
def buildTravel (t : TravelTable) (e : Nat) (m : List (Option Nat)) : Option TravelTable :=
  match e, m with
  | 0, [some lo, some hi] => some { t with gantry := ⟨lo, hi⟩ }
  | 1, [some lo, some hi] => some { t with shuttle := ⟨lo, hi⟩ }
  | 2, [some lo, some hi] => some { t with chute := ⟨lo, hi⟩ }
  | 3, [some a, some b, some c] => some { t with settleCount := a, leaveCount := b, stepTimeout := c }
  | _, _ => none

def travelRelation (t : TravelTable) : Option Reason :=
  if t.gantry.low ≤ t.gantry.high ∧ t.shuttle.low ≤ t.shuttle.high ∧ t.chute.low ≤ t.chute.high then none
  else some .badValue

def applyTravel (t : TravelTable) (s : State) : State := { s with place := { s.place with travel := t } }

/-! ## ENVELOPES (R44) -/

def buildEnvelope (m : List (Option Nat)) : Option Envelope :=
  match m with
  | [some a, some b, some c, some d, some g, x] =>
    some { gantryMin := a, gantryMax := b, shuttleMin := c, shuttleMax := d, margin := g, chuteMax := x }
  | _ => none

/-- The inner rectangle has at least one position on each axis (R44). -/
def Envelope.nonempty (e : Envelope) : Bool :=
  decide (e.gantryMin + 2 * e.margin ≤ e.gantryMax ∧ e.shuttleMin + 2 * e.margin ≤ e.shuttleMax)

/-- Two inner rectangles share a position (R44). -/
def Envelope.overlaps (a b : Envelope) : Bool :=
  decide (max (a.innerLow .gantry) (b.innerLow .gantry) ≤ min (a.innerHigh .gantry) (b.innerHigh .gantry)
    ∧ max (a.innerLow .shuttle) (b.innerLow .shuttle) ≤ min (a.innerHigh .shuttle) (b.innerHigh .shuttle))

def envelopeRelation (s : State) (e : Nat) (x : Envelope) : Option Reason :=
  if x.nonempty && !((List.finRange 12).any fun h : Hold => h.val + 1 != e &&
      match s.place.envelopes[h] with
      | some y => x.overlaps y
      | none => false) then none
  else some .badEnvelope

/-- Hold number `e` is the visit hold of an open visit. -/
def isVisitHold (s : State) (e : Nat) : Bool :=
  match s.seq.visit with
  | some v => v.hold.val + 1 == e
  | none => false

def applyEnvelope (e : Nat) (x : Envelope) (s : State) : State :=
  match holdOf e with
  | some h => { s with place := { s.place with envelopes := upd s.place.envelopes h (some x) } }
  | none => s

/-! ## HOLDS (R65, R66) -/

def buildHold (m : List (Option Nat)) : Option HoldEntry :=
  match m with
  | [some a, t] => some { arm := signed16 a, target := t }
  | _ => none

/-- The hold's state after its entry is loaded (R66). -/
def holdAfterLoad (s : State) (h : Hold) : HoldState :=
  if reachesTarget s h then .full else if s.seq.holdStates[h] = .full then .filling else s.seq.holdStates[h]

/-- An accepted HOLDS load (R65, R66). -/
def applyHold (e : Nat) (x : HoldEntry) (s : State) : State :=
  match holdOf e with
  | some h =>
    let s := { s with seq := { s.seq with holds := upd s.seq.holds h (some x) } }
    { s with seq := { s.seq with holdStates := upd s.seq.holdStates h (holdAfterLoad s h) } }
  | none => s

/-! ## SEQUENCE (R67) -/

def buildSlot (m : List (Option Nat)) : Option Slot :=
  match m with
  | [some n, some q] => (holdOf n).map fun h => { hold := h, quota := q }
  | _ => none

/-- The plan is ACTIVE or SUSPENDED. -/
def planRuns (s : State) : Bool := s.seq.plan == .active || s.seq.plan == .suspended

/-- Slot `e` is the slot of the open visit. -/
def isVisitSlot (s : State) (e : Nat) : Bool :=
  match s.seq.visit with
  | some v => v.slot.val == e
  | none => false

/-- R67 while the plan is ACTIVE or SUSPENDED. -/
def slotBusy (s : State) (l : Load) (x : Slot) : Bool :=
  planRuns s && (l.set ||
    match (entryAt s.seq.slots l.entry).join with
    | some o => o.hold != x.hold || (isVisitSlot s l.entry && o.quota != x.quota)
    | none => true)

def applySlot (e : Nat) (x : Slot) (s : State) : State :=
  if h : e < 16 then { s with seq := { s.seq with slots := upd s.seq.slots ⟨e, h⟩ (some x) } } else s

/-! ## PLAN (R68, R95) -/

def buildPlan (m : List (Option Nat)) : Option PlanHeader :=
  match m with
  | [some n, some o, some st, some r, some tl, sh, some mx] =>
    (Order.fromCode o).map fun o =>
      { slotCount := n, order := o, startSlot := st, roundLimit := r, trimLimit := tl, shipTarget := sh,
        maxRate := mx }
  | _ => none

/-- R68 while the plan is ACTIVE or SUSPENDED. -/
def planBusy (s : State) (l : Load) (x : PlanHeader) : Bool :=
  planRuns s && (l.set ||
    match s.seq.header with
    | some o =>
      o.slotCount != x.slotCount || o.order != x.order || o.startSlot != x.startSlot || o.roundLimit != x.roundLimit
    | none => true)

/-- An accepted PLAN load; one that loads the header or changes the max rate recomputes the rate limit (R95). -/
def applyPlan (x : PlanHeader) (s : State) : State :=
  let same := match s.seq.header with
    | some o => o.maxRate == x.maxRate
    | none => false
  let s := { s with seq := { s.seq with header := some x } }
  if same then s else recomputeLimit s

/-! ## GATE (R92) -/

def buildGate (m : List (Option Nat)) : Option Nat :=
  match m with
  | [some w] => some w
  | _ => none

def applyGate (w : Nat) (s : State) : State := { s with gate := { s.gate with replyWindow := w } }

/-! ## DUST (R109 to R111) -/

def buildDerate (m : List (Option Nat)) : Option (Nat × Nat) :=
  match m with
  | [some a, some b] => some (a, b)
  | _ => none

def derateRelation (x : Nat × Nat) : Option Reason := if x.2 ≤ x.1 then none else some .badValue

/-- An accepted load of the derate entry (R110). -/
def applyDerate (x : Nat × Nat) (s : State) : State :=
  let before := s.dust.percent s.dust.overall
  let s := { s with dust := { s.dust with elevDerate := x.1, highDerate := x.2 } }
  if s.dust.percent s.dust.overall = before then s else recomputeLimit s

def buildSensor (m : List (Option Nat)) : Option SensorEntry :=
  match m with
  | [some lo, some a, some b, some c, some hy, some k, some r, some t, some en] =>
    (Location.fromCode lo).map fun loc =>
      { location := loc, elevated := a, high := b, trip := c, hysteresis := hy, shift := k, tripRun := r,
        silenceTime := t, enabled := en == 1 }
  | _ => none

def sensorRelation (x : SensorEntry) : Option Reason :=
  if x.elevated < x.high ∧ x.high < x.trip then none else some .badThresholds

/-- R109: a sensor in TRIP refuses a SET, and an AMEND that disables it. -/
def sensorBusy (s : State) (l : Load) (x : SensorEntry) : Bool :=
  match entryAt s.dust.sensors (l.entry - 1) with
  | some y => y.latch && (l.set || !x.enabled)
  | none => false

/-- Fresh state with the conditions it makes false (R111, R115). -/
def freshSensor (i : SensorNo) (x : SensorEntry) (s : State) : State :=
  let s := setSensor i (Sensor.fresh (some x)) s
  let s := setCond (srcDustHigh i) false s
  let s := setCond (srcDustTrip i) false s
  restartSensor i (setCond (srcSensorSilent i) false s)

/-- A sensor disabled by an AMEND (R111). -/
def disableSensor (i : SensorNo) (x : SensorEntry) (s : State) : State :=
  let s := setSensor i { s.dust.sensors[i] with entry := some x, timer := none, silent := false } s
  setCond (srcSensorSilent i) false (setCond (srcDustHigh i) false s)

/-- Any other amendment (R111). -/
def amendSensor (i : SensorNo) (old x : SensorEntry) (s : State) : State :=
  let s := setSensor i { s.dust.sensors[i] with entry := some x } s
  if x.enabled && x.silenceTime != old.silenceTime then restartSensor i s else s

/-- What an accepted load does to the sensor (R111). -/
def loadSensor (i : SensorNo) (set : Bool) (x : SensorEntry) (s : State) : State :=
  match (s.dust.sensors[i]).entry with
  | none => freshSensor i x s
  | some old =>
    if set || (!old.enabled && x.enabled) then freshSensor i x s
    else if old.enabled && !x.enabled then disableSensor i x s
    else amendSensor i old x s

/-- An accepted load of a sensor entry (R111, R117, R121, R123). -/
def applySensor (l : Load) (x : SensorEntry) (s : State) : State :=
  if h : l.entry - 1 < 8 then retestLatch ⟨l.entry - 1, h⟩ (loadSensor ⟨l.entry - 1, h⟩ l.set x s) else s

/-! ## ALARM (R135, R136) -/

/-- The fields of a source table entry: rank, record enable, present enable. -/
structure AlarmFields where
  rank : Nat
  record : Bool
  present : Bool
deriving DecidableEq, Repr

def buildAlarm (m : List (Option Nat)) : Option AlarmFields :=
  match m with
  | [some r, some a, some b] => some { rank := r, record := a == 1, present := b == 1 }
  | _ => none

/-- The source is IN_SERVICE and a field would change (R135). -/
def alarmBusy (s : State) (e : Nat) (x : AlarmFields) : Bool :=
  match entryAt s.ladder.sources e with
  | some y => y.state == .inService && (y.rank != x.rank || y.record != x.record || y.present != x.present)
  | none => false

/-- A source with changed fields; record enable off takes PENDING and STANDING to IDLE (R136). -/
def Source.amended (y : Source) (x : AlarmFields) : Source :=
  { y with rank := x.rank, record := x.record, present := x.present,
           state := if !x.record && (y.state == .pending || y.state == .standing) then .idle else y.state }

/-- The sensor whose DUST_TRIP a source is. -/
def dustTripSensor (i : SourceNo) : Option SensorNo :=
  if h : 2 ≤ i.val ∧ i.val ≤ 9 then some ⟨i.val - 2, by omega⟩ else none

/-- A change of state of a source is reported (R134): for DUST_TRIP_i the Monitor makes its release test. FEED PERMIT
is evaluated at the end of the event. -/
def reportSource (i : SourceNo) (s : State) : State :=
  match dustTripSensor i with
  | some n => retestLatch n s
  | none => s

/-- An accepted change of a source table entry (R136). -/
def applyAlarm (e : Nat) (x : AlarmFields) (s : State) : State :=
  if h : e < 40 then
    let y := s.ladder.sources[e]
    let s' := { s with ladder := s.ladder.put ⟨e, h⟩ (y.amended x) }
    if (y.amended x).state = y.state then s' else reportSource ⟨e, h⟩ s'
  else s

/-! ## BILLS (R151) -/

def buildMarks (m : List (Option Nat)) : Option (Vector Nat 4) :=
  match m with
  | [some a, some b, some c, some d] => some #v[a, b, c, d]
  | _ => none

def marksRelation (v : Vector Nat 4) : Option Reason :=
  if v[0] < v[1] ∧ v[1] < v[2] ∧ v[2] < v[3] then none else some .badValue

def applyMarks (v : Vector Nat 4) (s : State) : State := { s with bills := { s.bills with marks := v } }

/-! ## LOAD -/

def noRelation {α : Type} (_ : α) : Option Reason := none
def neverBusy {α : Type} (_ : α) : Bool := false

/-- Judge, answer and bring about a load that can change its entry (R191). -/
def loadTable (f : Frame) (l : Load) (s : State) : State :=
  match l.table with
  | .stations =>
    answerJudged f (judgeLoad s l buildStation (stationRelation s l.entry) fun _ => stationBusy s)
      (applyStation l.entry) s
  | .scale =>
    answerJudged f (judgeLoad s l buildScale noRelation fun _ => pourPhase s || s.meter.zero.isSome) applyScale s
  | .travel => answerJudged f (judgeLoad s l (buildTravel s.place.travel l.entry) travelRelation neverBusy) applyTravel s
  | .envelopes =>
    answerJudged f (judgeLoad s l buildEnvelope (envelopeRelation s l.entry) fun _ => isVisitHold s l.entry)
      (applyEnvelope l.entry) s
  | .holds =>
    answerJudged f (judgeLoad s l buildHold noRelation fun _ => isVisitHold s l.entry) (applyHold l.entry) s
  | .sequence => answerJudged f (judgeLoad s l buildSlot noRelation (slotBusy s l)) (applySlot l.entry) s
  | .plan => answerJudged f (judgeLoad s l buildPlan noRelation (planBusy s l)) applyPlan s
  | .gate => answerJudged f (judgeLoad s l buildGate noRelation neverBusy) applyGate s
  | .dust =>
    if l.entry = 0 then answerJudged f (judgeLoad s l buildDerate derateRelation neverBusy) applyDerate s
    else answerJudged f (judgeLoad s l buildSensor sensorRelation (sensorBusy s l)) (applySensor l) s
  | .alarm => answerJudged f (judgeLoad s l buildAlarm noRelation (alarmBusy s l.entry)) (applyAlarm l.entry) s
  | .bills => answerJudged f (judgeLoad s l buildMarks marksRelation neverBusy) applyMarks s
  | .accounts => answerRefused f .badValue s

/-- What an accepted AMEND with an empty mask brings about: for a sensor's entry the release test that R117 makes at each
accepted load (log entry 42), and for any other nothing (R191; log entries 43 and 44). -/
def applyNothing (l : Load) (s : State) : State :=
  if h : l.table = .dust ∧ l.entry ≠ 0 ∧ l.entry - 1 < 8 then retestLatch ⟨l.entry - 1, h.2.2⟩ s else s

/-- A load whose header holds: an AMEND with an empty mask on a loaded entry is accepted and changes nothing; any other
is judged (R191). The rules that speak of every load of a table leave four points open here, and each is the model's
choice: the release test of a sensor's entry is made (R117; log entry 42), the effects of SCALE and STATIONS loads are not
(R17, R18, R176; log entry 43), nor the FULL test of HOLDS (R66; log entry 44), and no table's BUSY test is met (R18, R44,
R65, R176; log entry 45). -/
def runLoad (f : Frame) (l : Load) (s : State) : State :=
  if l.amendsNothing s then applyNothing l (answerDone f [] s) else loadTable f l s

/-- A LOAD (R191): step 1 first. -/
def treatLoad (f : Frame) (s : State) : State :=
  if loadHeaderFails (f.payload.drop 1) then answerRefused f .badValue s
  else
    match parseLoad f.payload with
    | some l => runLoad f l s
    | none => answerRefused f .badValue s

def execLoad (s : State) : Host.Outcome State Fault Refusal := .next (takeFrame .U .load treatLoad s)

/-! ## READ (R192) -/

/-- The seven bytes of a sensor (section 10.7, STATUS section 6). -/
def sensorBytes (x : Sensor) : List Byte :=
  boolByte x.entry.isSome :: boolByte x.enabled :: beBytes 2 x.average.toNat ++
    [x.avgBand.toBand.code, x.effective.code, byteOf (x.run + if x.silent then 128 else 0)]

/-- Field `k` of entry `e` is optional (R44, R65, R68, R109, R176; log entry 18). -/
def optionalField (t : TableId) (e k : Nat) : Bool :=
  match t with
  | .stations => k == 0
  | .envelopes => k == 5
  | .holds => k == 1
  | .plan => k == 5
  | .dust => e != 0 && decide (4 ≤ k ∧ k ≤ 8)
  | _ => false

/-- The mask of the optional fields that are present (R192). -/
def readMask (t : TableId) (e : Nat) (fs : List (Option Nat)) : Nat :=
  ((fs.zipIdx.filter fun (f, k) => f.isSome && optionalField t e k).map fun (_, k) => 2 ^ k).sum

/-- Fields as READ sends them, absent ones as zeros (R186). -/
def readFields (ws : List Nat) (fs : List (Option Nat)) : List Byte :=
  (List.zipWith (fun (w : Nat) (f : Option Nat) => beBytes w (f.getD 0)) ws fs).flatten

/-- The value of an ACCOUNTS entry, with its report base for entries 1 to 13 (R167, R192). -/
def accountBytes (s : State) (e : Nat) : List Byte :=
  if e = 14 then beBytes 8 s.ship.weighed
  else if e = 15 then beBytes 8 s.ship.unassigned
  else if h : e - 1 < 13 then beBytes 8 s.ship.accounts[e - 1] ++ kgField s.ship.bases[e - 1] else []

/-- An entry's state, where its table has one (R186, R192). -/
def readState (s : State) (t : TableId) (e : Nat) : List Byte :=
  match t with
  | .holds => ((entryAt s.seq.holdStates (e - 1)).map fun x => [x.code]).getD []
  | .dust => if e = 0 then [] else ((entryAt s.dust.sensors (e - 1)).map sensorBytes).getD []
  | .alarm =>
    ((entryAt s.ladder.sources e).map fun x => [x.state.code, byteOf x.repeats, boolByte x.cond]).getD []
  | .accounts => accountBytes s e
  | _ => []

/-- The data of a READ answer (R186, R192). -/
def readData (s : State) (t : TableId) (tb eb : Byte) : List Byte :=
  let e := eb.toNat
  let ws := t.widths e
  match entryFields s t e with
  | some fs => tb :: eb :: 1 :: beBytes 2 (readMask t e fs) ++ readFields ws fs ++ readState s t e
  | none => tb :: eb :: 0 :: beBytes 2 0 ++ List.replicate ws.sum 0 ++ readState s t e

/-- A READ (R192). -/
def treatRead (f : Frame) (s : State) : State :=
  match f.payload with
  | [_, tb, eb] =>
    match TableId.fromCode tb.toNat with
    | some t =>
      if t.hasEntry eb.toNat then answerDone f (readData s t tb eb) s else answerRefused f .badValue s
    | none => answerRefused f .badValue s
  | _ => s

def execRead (s : State) : Host.Outcome State Fault Refusal := .next (takeFrame .U .read treatRead s)

end Sys2Proof.Machine
end

