-- ==== Sys2Proof/Machine/Status.lean ====
section
/-! DEFINITION. STATUS (R187): the nine sections, laid out as section 10.7 gives them. -/

namespace Sys2Proof.Machine

def PartState.code : PartState → Byte
  | .unconfigured => 0
  | .ready => 1

def LeaveOption.code : LeaveOption → Byte
  | .early => 0
  | .late => 1

def ShipState.code : ShipState → Byte
  | .noShip => 0
  | .open => 1

/-- Section 0, part and line. -/
def statusPart (s : State) : List Byte :=
  [s.handler.part.code, s.handler.ownAddr, s.handler.leave.code, boolByte s.handler.holdMoves,
   byteOf s.handler.threshold, byteOf s.line.u.tally, boolByte s.line.u.lineFault, byteOf s.line.d.tally,
   boolByte s.line.d.lineFault, boolByte s.pins.stop, boolByte s.gate.permit, boolByte s.ladder.horn,
   boolByte s.dust.spray]

/-- The travel collected by a running ZERO operation; 0 when idle (log entry 19). -/
def collectedTravel (s : State) : Nat :=
  match s.meter.zero with
  | some z => z.travel
  | none => 0

/-- Section 1, meter. -/
def statusMeter (s : State) : List Byte :=
  [boolByte s.meter.fault, byteOf s.meter.clearing, boolByte s.meter.zero.isSome] ++ beBytes 4 (collectedTravel s)
    ++ beInt 2 s.meter.offset ++ kgField (roundKg s.meter.drift) ++ beBytes 6 s.meter.belt
    ++ optField 2 (s.meter.prev.map fun x => x.1.toNat)

/-- The head segment as section 2 gives it (R39). -/
def headBytes (s : State) (g : Segment) : List Byte :=
  beBytes 2 g.number.toNat ++ beBytes 4 (min (g.arrival - s.meter.belt) 4294967295) ++ kgField (roundKg g.mass)
    ++ beBytes 2 g.samples ++ [g.flagsCode]

/-- Section 2, flight. -/
def statusFlight (s : State) : List Byte :=
  byteOf s.flight.segments.length :: kgField (roundKg s.flight.total) ++ beBytes 2 s.flight.nextNumber.toNat
    ++ optGroup 13 (s.flight.segments.head?.map (headBytes s))
    ++ optField 2 (s.flight.segments.getLast?.map fun g => g.number.toNat)

def axisBytes (a : AxisState) : List Byte :=
  optField 4 a.pos ++ optField 1 (a.motion.map fun m => m.code.toNat)

/-- Placement state, hold and count; 0 where one does not apply (log entry 19). -/
def placeBytes (p : PlaceState) : List Byte :=
  match p with
  | .clear => [0, 0, 0]
  | .settling h n => [1, holdCode h, byteOf n]
  | .placed h => [2, holdCode h, 0]
  | .leaving h n => [3, holdCode h, byteOf n]

def heldBytes (h : HeldMove) : List Byte := (axisOf h.axis).code :: beBytes 4 h.target ++ [h.frame.seq]

def sweepBytes (w : Sweep) : List Byte :=
  [(axisOf w.axis).code, boolByte (!w.plus), byteOf w.remaining, byteOf w.done]

/-- Section 3, placement. -/
def statusPlacement (s : State) : List Byte :=
  axisBytes s.place.axes.gantry ++ axisBytes s.place.axes.shuttle ++ axisBytes s.place.axes.chute
    ++ optField 1 (s.place.sense.map fun r => r.code.toNat) ++ placeBytes s.place.state
    ++ [accountCode s.place.pourPoint, boolByte (pourPhase s)] ++ optGroup 6 (s.place.held.map heldBytes)
    ++ optGroup 4 (s.place.sweep.map sweepBytes)

def visitBytes (v : Visit) : List Byte :=
  [byteOf v.slot.val, holdCode v.hold, byteOf v.round] ++ beBytes 4 v.quota ++ [v.state.code]
    ++ kgField (roundKg v.poured) ++ optField 1 (v.endReason.map fun r => r.code.toNat) ++ [byteOf v.pauseCount]

/-- Section 4, plan. -/
def statusPlan (s : State) : List Byte :=
  [s.seq.plan.code, s.seq.order.code, byteOf s.seq.start, byteOf s.seq.cursor] ++ beBytes 2 s.seq.round
    ++ beBytes 2 s.seq.skips ++ optField 1 (s.seq.finish.map fun r => r.code.toNat)
    ++ optGroup 15 (s.seq.visit.map visitBytes) ++ beInt 8 (trimKg s)

def entryBytes (e : Option InjEntry) : List Byte := optGroup 2 (e.map fun x => [x.order.code, x.seq])

/-- Section 5, feed. -/
def statusFeed (s : State) : List Byte :=
  s.gate.feeder.code :: beBytes 2 s.gate.rateLimit ++ optField 2 s.gate.lastRate ++ [boolByte s.gate.pendingDerate]
    ++ entryBytes s.gate.injFeeder ++ entryBytes s.gate.injGantry ++ entryBytes s.gate.injShuttle
    ++ [s.dust.overall.code, byteOf (s.dust.percent s.dust.overall)]

/-- Section 6, dust. -/
def statusDust (s : State) : List Byte :=
  s.dust.sensors.toList.flatMap sensorBytes
    ++ [s.dust.overall.code, byteOf (s.dust.percent s.dust.overall), boolByte s.dust.spray]

/-- The PENDING sources as a map, bit `i` for source `i` (R138). -/
def pendingMap (s : State) : Nat :=
  ((List.finRange 40).map fun i : SourceNo => if s.ladder.state i = .pending then 2 ^ i.val else 0).sum

/-- The service stack from bottom to top in 16 places, unused ones 0 (R133). -/
def stackBytes (s : State) : List Byte :=
  let st := s.ladder.stack.reverse.map fun i => byteOf i.val
  st ++ List.replicate (16 - st.length) 0

/-- Section 7, alarms. -/
def statusAlarms (s : State) : List Byte :=
  optGroup 2 (s.ladder.presented.map fun x => [byteOf x.1.val, byteOf x.2])
    ++ [boolByte s.ladder.horn, byteOf s.ladder.stack.length] ++ stackBytes s ++ beBytes 5 (pendingMap s)

/-- Section 8, bills and ship. -/
def statusBills (s : State) : List Byte :=
  beBytes 2 s.bills.records.length ++ beBytes 2 s.bills.reserved ++ beBytes 2 s.bills.free
    ++ optField 4 (s.bills.records.head?.map fun r => r.seq.toNat)
    ++ optField 4 (s.bills.records.getLast?.map fun r => r.seq.toNat) ++ beBytes 4 s.bills.nextSeq.toNat
    ++ optField 1 s.bills.lastMark ++ [boolByte s.bills.unbilled, s.ship.state.code] ++ optField 2 s.ship.number
    ++ kgField (roundKg s.ship.weighed) ++ kgField (roundKg s.ship.unassigned)

/-- The fields of a section; none where there is no such section (R187). -/
def statusSection (s : State) (k : Nat) : Option (List Byte) :=
  match k with
  | 0 => some (statusPart s)
  | 1 => some (statusMeter s)
  | 2 => some (statusFlight s)
  | 3 => some (statusPlacement s)
  | 4 => some (statusPlan s)
  | 5 => some (statusFeed s)
  | 6 => some (statusDust s)
  | 7 => some (statusAlarms s)
  | 8 => some (statusBills s)
  | _ => none

/-- A STATUS request (R187). -/
def treatStatus (f : Frame) (s : State) : State :=
  match f.payload with
  | [_, k] =>
    match statusSection s k.toNat with
    | some bs => answerDone f (k :: bs) s
    | none => answerRefused f .badValue s
  | _ => s

def execStatus (s : State) : Host.Outcome State Fault Refusal := .next (takeFrame .U .status treatStatus s)

end Sys2Proof.Machine
end

