-- ==== Sys2Proof/Machine/Cycle.lean ====
section
/-! DEFINITION. SET_OPTIONS (R193), the ship (R162 to R165) and the plan requests (R70, R75 to R77). -/

namespace Sys2Proof.Machine

/-! ## SET_OPTIONS (R193) -/

/-- Bit `k` of a mask. -/
def marked (mask : Byte) (k : Nat) : Bool := mask.toNat / 2 ^ k % 2 == 1

/-- The marked options lie in their ranges (R193). -/
def optionsInRange (mask leave hold own thr : Byte) : Bool :=
  mask.toNat < 16 && (!marked mask 0 || leave.toNat ≤ 1) && (!marked mask 1 || hold.toNat ≤ 1)
    && (!marked mask 2 || between 1 62 own.toNat) && (!marked mask 3 || 1 ≤ thr.toNat)

/-- The new own address is a present role's (R176, R193). -/
def ownAddrTaken (s : State) (own : Byte) : Bool := s.stations.toList.any fun a => a == some own

/-- Every marked option takes its new value (R193). -/
def setOptions (mask leave hold own thr : Byte) (s : State) : State :=
  let h := s.handler
  let h := if marked mask 0 then { h with leave := if leave = 0 then .early else .late } else h
  let h := if marked mask 1 then { h with holdMoves := hold == 1 } else h
  let h := if marked mask 2 then { h with ownAddr := own } else h
  let h := if marked mask 3 then { h with threshold := thr.toNat } else h
  lineFaultTest .D (lineFaultTest .U { s with handler := h })

/-- A SET_OPTIONS request (R193). -/
def treatSetOptions (f : Frame) (s : State) : State :=
  match f.payload with
  | [_, mask, leave, hold, own, thr] =>
    if !optionsInRange mask leave hold own thr then answerRefused f .badValue s
    else if marked mask 2 && ownAddrTaken s own then answerRefused f .duplicateAddress s
    else setOptions mask leave hold own thr (answerDone f [] s)
  | _ => s

def execSetOptions (s : State) : Host.Outcome State Fault Refusal :=
  .next (takeFrame .U .setOptions treatSetOptions s)

/-! ## Requests that need a place (R142, R143) -/

/-- Answer a refusal; BILL_FULL is raised where it is the reason (R142, R143). -/
def refuseRequest (f : Frame) (r : Reason) (s : State) : State :=
  let s := answerRefused f r s
  if r = .billFull then raise srcBillFull s else s

/-- Answer a request by the reason that refuses it, or DONE with its effects. -/
def answerRequest (f : Frame) (reason : Option Reason) (effect : State → State) (s : State) : State :=
  match reason with
  | some r => refuseRequest f r s
  | none => effect (answerDone f [] s)

/-! ## OPEN_SHIP (R162, R163) -/

/-- The first reason of R162 that holds. -/
def openRefusal (s : State) (number : Nat) : Option Reason :=
  if !between 1 65535 number then some .badValue
  else if !s.ready then some .notReady
  else if s.ship.state = .open then some .busy
  else if 0 < s.flight.total then some .busy
  else if s.gate.feeder = .running then some .busy
  else if s.bills.free = 0 then some .billFull
  else none

/-- An accepted OPEN_SHIP (R163). -/
def openShip (number : Nat) (s : State) : State :=
  let s : State :=
    { s with
      ship := { s.ship with number := some number, weighed := 0, accounts := Vector.replicate 13 0,
                            bases := Vector.replicate 13 0, state := .open }
      seq := { s.seq with holdStates := Vector.replicate 12 .idle }
      bills := { s.bills with unbilled := false } }
  issue false (.shipOpen number) s

def treatOpenShip (f : Frame) (s : State) : State :=
  let n := fieldAt f.payload 1 2
  answerRequest f (openRefusal s n) (openShip n) s

def execOpenShip (s : State) : Host.Outcome State Fault Refusal := .next (takeFrame .U .openShip treatOpenShip s)

/-! ## CLOSE_SHIP (R164, R165) -/

/-- The first reason of R164 that holds. -/
def closeRefusal (s : State) : Option Reason :=
  if !s.ready then some .notReady
  else if s.ship.state = .noShip then some .noShip
  else if s.seq.plan = .active then some .busy
  else if s.seq.visit.isSome then some .busy
  else if 0 < s.flight.total then some .busy
  else if s.gate.feeder = .running then some .busy
  else if s.bills.free = 0 then some .billFull
  else none

/-- The SHIP_CLOSE record's contents (R147, R148). -/
def closeRecord (s : State) : RecordBody :=
  .shipClose (s.ship.number.getD 0) ((closeLineAccounts s).map (cutLine s fun _ => false)) (roundKg s.ship.weighed)
    (roundKg s.ship.unassigned)

/-- The plan at CLOSE_SHIP (R88, R165). -/
def clearPlan (s : State) : State :=
  { s with seq := { s.seq with plan := .idle, cursor := 0, round := 0, skips := 0, finish := none, order := .rotate,
                               start := 0 } }

/-- An accepted CLOSE_SHIP (R165). -/
def closeShip (s : State) : State :=
  let body := closeRecord s
  let s := issue false body (setBases (closeLineAccounts s) s)
  clearPlan { s with bills := { s.bills with unbilled := false },
                     ship := { s.ship with unassigned := 0, state := .noShip } }

def treatCloseShip (f : Frame) (s : State) : State := answerRequest f (closeRefusal s) closeShip s

def execCloseShip (s : State) : Host.Outcome State Fault Refusal := .next (takeFrame .U .closeShip treatCloseShip s)

/-! ## START_PLAN (R70) -/

/-- Every slot of the plan, its hold's entry and its hold's envelope are loaded (R70). -/
def planLoaded (s : State) (p : PlanHeader) : Bool :=
  (List.range p.slotCount).all fun i =>
    match (entryAt s.seq.slots i).join with
    | some sl => (s.seq.holds[sl.hold]).isSome && (s.place.envelopes[sl.hold]).isSome
    | none => false

/-- The order suits the slot count, and the start slot lies below it (R70). -/
def planSuits (p : PlanHeader) (start : Nat) (o : Order) : Bool :=
  decide (start < p.slotCount) && (o == .rotate || p.slotCount ∈ [2, 4, 8, 16])

/-- START_PLAN is judged (R70): the start slot and the order in use, or the first reason that fails. -/
def judgeStart (s : State) (mask slot order : Byte) : Except Reason (Nat × Order) :=
  if !s.ready then .error .notReady
  else if 4 ≤ mask.toNat ∨ (marked mask 1 ∧ 2 ≤ order.toNat) then .error .badValue
  else if s.ship.state = .noShip then .error .noShip
  else if planRuns s then .error .busy
  else
    match s.seq.header with
    | none => .error .notLoaded
    | some p =>
      if !planLoaded s p then .error .notLoaded
      else
        let st := if marked mask 0 then slot.toNat else p.startSlot
        let o := if marked mask 1 then (if order = 0 then Order.rotate else Order.paired) else p.order
        if planSuits p st o then .ok (st, o) else .error .badPlan

/-- An accepted START_PLAN (R70). -/
def startPlan (x : Nat × Order) (s : State) : State :=
  selectVisit { s with seq := { s.seq with start := x.1, order := x.2, round := 1, cursor := 0, skips := 0,
                                           finish := none, plan := .active } }

def treatStartPlan (f : Frame) (s : State) : State :=
  match f.payload with
  | [_, mask, slot, order] => answerJudged f (judgeStart s mask slot order) startPlan s
  | _ => s

def execStartPlan (s : State) : Host.Outcome State Fault Refusal := .next (takeFrame .U .startPlan treatStartPlan s)

/-! ## HALT_PLAN, RESUME_PLAN, SKIP_SLOT (R75 to R77) -/

def setPlan (p : PlanState) (s : State) : State := { s with seq := { s.seq with plan := p } }

def haltRefusal (s : State) : Option Reason :=
  if !s.ready then some .notReady else if s.seq.plan ≠ .active then some .notActive else none

/-- What HALT_PLAN does to the open visit (R75). -/
def haltVisit (s : State) : State :=
  match s.visitState with
  | some .waiting => dropVisit s
  | some .armed => dropVisit s
  | _ => takeTrigger .halted s

/-- An accepted HALT_PLAN (R75). -/
def haltPlan (s : State) : State := haltVisit (dismissHeldMove .cancelled (setPlan .suspended s))

def treatHaltPlan (f : Frame) (s : State) : State := answerRequest f (haltRefusal s) haltPlan s

def execHaltPlan (s : State) : Host.Outcome State Fault Refusal := .next (takeFrame .U .haltPlan treatHaltPlan s)

def resumeRefusal (s : State) : Option Reason :=
  if !s.ready then some .notReady
  else if s.seq.plan ≠ .suspended then some .notSuspended
  else if s.seq.visit.isSome then some .busy
  else none

/-- An accepted RESUME_PLAN (R76). -/
def resumePlan (s : State) : State := selectVisit (setPlan .active s)

def treatResumePlan (f : Frame) (s : State) : State := answerRequest f (resumeRefusal s) resumePlan s

def execResumePlan (s : State) : Host.Outcome State Fault Refusal :=
  .next (takeFrame .U .resumePlan treatResumePlan s)

def skipRefusal (s : State) : Option Reason :=
  if !s.ready then some .notReady
  else if s.seq.plan ≠ .active then some .notActive
  else if s.visitPours then some .busy
  else none

/-- An accepted SKIP_SLOT (R77). -/
def skipSlot (s : State) : State := selectVisit (advanceCursor (dropVisit s))

def treatSkipSlot (f : Frame) (s : State) : State := answerRequest f (skipRefusal s) skipSlot s

def execSkipSlot (s : State) : Host.Outcome State Fault Refusal := .next (takeFrame .U .skipSlot treatSkipSlot s)

end Sys2Proof.Machine
end

