-- ==== Sys2Proof/Machine/Service.lean ====
section
/-! DEFINITION. ZERO_BELT and ZERO_ABORT (R19, R22), SWEEP (R56), the alarm requests (R131, R132, R135) and the record
requests (R153, R154). -/

namespace Sys2Proof.Machine

/-! ## ZERO_BELT, ZERO_ABORT -/

/-- Why ZERO_BELT is refused (R19). -/
def zeroRefusal (s : State) : Option Reason :=
  if !s.ready then some .notReady
  else if s.meter.zero.isSome || s.gate.feeder != .stopped || !s.flight.segments.isEmpty || s.visitPours || s.meter.fault
  then some .busy
  else if s.bills.free = 0 then some .billFull
  else none

/-- The zero timer's duration, ms (R19, R196). -/
def zeroDuration (s : State) : Nat :=
  match s.meter.table with
  | some sc => sc.zeroTimeout * 1000
  | none => 0

/-- An accepted ZERO_BELT (R19). -/
def beginZero (s : State) : State :=
  reserve { s with meter := { s.meter with
    zero := some { oldOffset := s.meter.offset, travel := 0, loadTravel := 0, expiry := s.now + zeroDuration s } } }

def treatZeroBelt (f : Frame) (s : State) : State := answerRequest f (zeroRefusal s) beginZero s

def execZeroBelt (s : State) : Host.Outcome State Fault Refusal := .next (takeFrame .U .zeroBelt treatZeroBelt s)

def abortRefusal (s : State) : Option Reason := if s.meter.zero.isSome then none else some .notZeroing

/-- An accepted ZERO_ABORT (R22). -/
def abortZero (s : State) : State := endZero .aborted s.meter.offset s

def treatZeroAbort (f : Frame) (s : State) : State := answerRequest f (abortRefusal s) abortZero s

def execZeroAbort (s : State) : Host.Outcome State Fault Refusal := .next (takeFrame .U .zeroAbort treatZeroAbort s)

/-! ## SWEEP (R56) -/

/-- A SWEEP is judged (R56): the hold it is placed at, or the first reason that fails. -/
def judgeSweep (s : State) : Except Reason Hold :=
  if !s.ready then .error .notReady
  else if s.place.sweep.isSome || s.place.held.isSome then .error .busy
  else
    match s.place.state.placedAt with
    | none => .error .notPlaced
    | some h => if pourPhase s && guardedHold s != some h then .error .busy else .ok h

/-- The fields of a SWEEP lie in their ranges (R56). -/
def sweepInRange (axis dir : Byte) (step : Nat) (count : Byte) : Bool :=
  axis.toNat ≤ 1 && dir.toNat ≤ 1 && between 10 5000 step && 1 ≤ count.toNat

/-- A sweep before its first step (R56). -/
def newSweep (axis dir : Byte) (step : Nat) (count : Byte) (h : Hold) : Sweep :=
  { axis := if axis = 0 then .gantry else .shuttle, plus := dir == 0, step := step, remaining := count.toNat, done := 0,
    hold := h, clipped := false, target := 0, phase := .awaitingReply, timer := 0 }

def treatSweep (f : Frame) (s : State) : State :=
  match f.payload with
  | [_, axis, dir, a, b, count] =>
    if sweepInRange axis dir (beNat [a, b]) count then
      answerJudged f (judgeSweep s) (fun h => beginStep (newSweep axis dir (beNat [a, b]) count h)) s
    else answerRefused f .badValue s
  | _ => s

def execSweep (s : State) : Host.Outcome State Fault Refusal := .next (takeFrame .U .sweep treatSweep s)

/-! ## ACK_ALARM, DONE_ALARM, SET_ALARM -/

/-- The source of index `n`. -/
def sourceOf (n : Nat) : Option SourceNo := if h : n < 40 then some ⟨n, h⟩ else none

/-- ACK_ALARM is judged (R131). -/
def judgeAck (s : State) (n : Nat) : Except Reason SourceNo :=
  match sourceOf n with
  | none => .error .badValue
  | some i => if s.ladder.presented.map (·.1) = some i then .ok i else .error .notPresented

/-- An accepted ACK_ALARM (R131). -/
def ackAlarm (i : SourceNo) (s : State) : State :=
  let l := s.ladder.put i { s.ladder.sources[i] with state := .inService }
  reportSource i { s with ladder := { l with stack := i :: l.stack } }

def treatAckAlarm (f : Frame) (s : State) : State :=
  match f.payload with
  | [_, n] => answerJudged f (judgeAck s n.toNat) ackAlarm s
  | _ => s

def execAckAlarm (s : State) : Host.Outcome State Fault Refusal := .next (takeFrame .U .ackAlarm treatAckAlarm s)

/-- DONE_ALARM is judged (R132). -/
def judgeDone (s : State) (n : Nat) : Except Reason SourceNo :=
  match sourceOf n with
  | none => .error .badValue
  | some i => if s.ladder.stack.head? = some i then .ok i else .error .notTop

/-- A source that leaves service (R132). -/
def Source.completed (x : Source) : Source := { x with state := if x.cond then .standing else .idle }

/-- An accepted DONE_ALARM (R132). -/
def doneAlarm (i : SourceNo) (s : State) : State :=
  let l := s.ladder.put i (s.ladder.sources[i]).completed
  reportSource i { s with ladder := { l with stack := l.stack.tail } }

def treatDoneAlarm (f : Frame) (s : State) : State :=
  match f.payload with
  | [_, n] => answerJudged f (judgeDone s n.toNat) doneAlarm s
  | _ => s

def execDoneAlarm (s : State) : Host.Outcome State Fault Refusal := .next (takeFrame .U .doneAlarm treatDoneAlarm s)

/-- The AMEND load that a SET_ALARM stands for (R135). -/
def setAlarmLoad (n mask rank rec pres : Byte) : Load :=
  { table := .alarm, entry := n.toNat, set := false, fields := unpack [1, 1, 1] mask.toNat
      ((if marked mask 0 then [rank] else []) ++ (if marked mask 1 then [rec] else [])
        ++ (if marked mask 2 then [pres] else [])) }

def treatSetAlarm (f : Frame) (s : State) : State :=
  match f.payload with
  | [_, n, mask, rank, rec, pres] =>
    if n.toNat < 40 ∧ mask.toNat < 8 then runLoad f (setAlarmLoad n mask rank rec pres) s
    else answerRefused f .badValue s
  | _ => s

def execSetAlarm (s : State) : Host.Outcome State Fault Refusal := .next (takeFrame .U .setAlarm treatSetAlarm s)

/-! ## READ_RECORDS, TAKE_RECORDS -/

def lineBytes (l : BillLine) : List Byte := accountCode l.account :: boolByte l.carried :: kgField l.mass

def linesBytes (ls : List BillLine) : List Byte := byteOf ls.length :: ls.flatMap lineBytes

def pauseBytes (p : Pause) : List Byte := p.reason.code :: beBytes 6 p.belt

/-- A record as READ_RECORDS carries it (section 10.7). A VISIT record always has an end reason and a start position
(R145); 0 stands for one that is missing (log entry 28). -/
def recordBytes (r : Record) : List Byte :=
  let seq := beBytes 4 r.seq.toNat
  match r.body with
  | .visit ship slot hold round quota lines overshoot endReason flags start endBelt trim pauseCount pauses =>
    1 :: seq ++ beBytes 2 ship ++ [byteOf slot.val, holdCode hold, byteOf round] ++ beBytes 4 quota ++ linesBytes lines
      ++ kgField overshoot ++ [(endReason.map EndReason.code).getD 0, flags.code] ++ beBytes 6 (start.getD 0)
      ++ beBytes 6 endBelt ++ beInt 8 trim ++ [byteOf pauseCount, byteOf pauses.length] ++ pauses.flatMap pauseBytes
  | .zero oldOffset newOffset outcome travel =>
    2 :: seq ++ beInt 2 oldOffset ++ beInt 2 newOffset ++ [outcome.code] ++ beBytes 4 travel
  | .shipOpen ship => 3 :: seq ++ beBytes 2 ship
  | .shipClose ship lines weighedKg unassignedKg =>
    4 :: seq ++ beBytes 2 ship ++ linesBytes lines ++ kgField weighedKg ++ kgField unassignedKg

/-- The place of a sequence number among the held records. -/
def BillStore.find (b : BillStore) (q : Nat) : Option Nat := b.records.findIdx? fun r => r.seq.toNat == q

/-- Records carried whole while they fit (R153). -/
def fitting : Nat → List (List Byte) → List (List Byte)
  | _, [] => []
  | room, r :: rs => if r.length ≤ room then r :: fitting (room - r.length) rs else []

/-- The records a READ_RECORDS answer carries from place `i` on (R153): up to the count, and up to 196 bytes beside
the answer's four. -/
def carriedRecords (s : State) (i count : Nat) : List (List Byte) :=
  fitting 196 (((s.bills.records.drop i).take count).map recordBytes)

def treatReadRecords (f : Frame) (s : State) : State :=
  let count := fieldAt f.payload 5 1
  if !between 1 4 count then answerRefused f .badValue s
  else
    match s.bills.find (fieldAt f.payload 1 4) with
    | none => answerRefused f .notHeld s
    | some i =>
      let rs := carriedRecords s i count
      answerDone f (byteOf rs.length :: rs.flatten) s

def execReadRecords (s : State) : Host.Outcome State Fault Refusal :=
  .next (takeFrame .U .readRecords treatReadRecords s)

/-- Release the `n` oldest records (R154). -/
def releaseRecords (n : Nat) (s : State) : State :=
  { s with bills := { s.bills with records := s.bills.records.drop n } }

def treatTakeRecords (f : Frame) (s : State) : State :=
  match s.bills.find (fieldAt f.payload 1 4) with
  | none => answerRefused f .notHeld s
  | some i =>
    let oldest := (s.bills.records.drop (i + 1)).head?.map fun r => r.seq.toNat
    releaseRecords (i + 1) (answerDone f (beBytes 2 (i + 1) ++ optField 4 oldest) s)

def execTakeRecords (s : State) : Host.Outcome State Fault Refusal :=
  .next (takeFrame .U .takeRecords treatTakeRecords s)

end Sys2Proof.Machine
end

