-- ==== Sys2Proof/Machine/Events.lean ====
section
/-! DEFINITION. Cold reset and RESTART (R194, R195), the two discrete inputs (R107, R195) and the expiries of the five
kinds of timer (R17, R22, R61, R94, R119, R196). -/

namespace Sys2Proof.Machine

/-! ## Cold reset (R195) -/

/-- Every block at its values after cold reset; the inputs' levels, the millisecond count and the model's own fields
stay (log entry 23). -/
def coldReset (s : State) : State :=
  { State.reset with pins := s.pins, now := s.now, draws := s.draws, pending := s.pending }

/-- The end of a reset: the Feed Gate's test of the STOP input (R107, R195). -/
def endReset (s : State) : State :=
  if s.pins.stop then raise srcStopInput (setCond srcStopInput true s) else s

/-! ## RESTART (R194) -/

def restartRefused (s : State) : Bool := pourPhase s || s.gate.feeder == .running

/-- A RESTART: refused BUSY, or taken without an answer (R194). -/
def treatRestart (f : Frame) (s : State) : State :=
  if restartRefused s then answerRefused f .busy s else endReset (coldReset s)

def execRestart (s : State) : Host.Outcome State Fault Refusal := .next (takeFrame .U .restart treatRestart s)

/-! ## RESET line, power-on (R195) -/

def setResetPin (b : Bool) (s : State) : State := { s with pins := { s.pins with reset := b } }

/-- RESET_ASSERTED: the part is held in reset, its outputs deasserted. -/
def execResetAsserted (s : State) : Host.Outcome State Fault Refusal :=
  .next (if s.pins.reset then s else setResetPin true (coldReset s))

/-- RESET_RELEASED: the cold reset ends. -/
def execResetReleased (s : State) : Host.Outcome State Fault Refusal :=
  .next (if s.pins.reset then endEvent (endReset (setResetPin false (coldReset s))) else s)

/-- POWER_ON: power-on completes; the reset ends unless RESET is asserted. -/
def execPowerOn (s : State) : Host.Outcome State Fault Refusal :=
  .next (if s.pins.reset then coldReset s else endEvent (endReset (coldReset s)))

/-! ## The STOP input (R107) -/

def setStopPin (b : Bool) (s : State) : State := { s with pins := { s.pins with stop := b } }

/-- The STOP input passes from clear to asserted (R107). -/
def stopAsserted (s : State) : State :=
  let s := takeTrigger .stopInput (cancelSweep (dismissHeldMove .cancelled (setStopPin true s)))
  raise srcStopInput (setCond srcStopInput true s)

/-- STOP_INPUT_ASSERTED; while RESET is held the input is not read (R195, log entry 25). -/
def execStopInputAsserted (s : State) : Host.Outcome State Fault Refusal :=
  .next (if s.pins.stop then s else if s.pins.reset then setStopPin true s else endEvent (stopAsserted s))

/-- STOP_INPUT_CLEARED. -/
def execStopInputCleared (s : State) : Host.Outcome State Fault Refusal :=
  .next (if !s.pins.stop then s
    else if s.pins.reset then setStopPin false s
    else endEvent (setCond srcStopInput false (setStopPin false s)))

/-! ## Expiries (R196): an expiry happens only while its timer runs and once the count stands at its moment or past it;
otherwise the command changes nothing (log entries 2 and 35). An event that restarts or stops the timer and is taken
first keeps the expiry from happening. -/

/-- SCALE_SILENCE_EXPIRY (R17). -/
def execScaleSilenceExpiry (s : State) : Host.Outcome State Fault Refusal :=
  .next (match s.meter.silence with
    | some t => if t ≤ s.now then endEvent (setMeterFault { s with meter := { s.meter with silence := none } }) else s
    | none => s)

/-- ZERO_TIMEOUT (R22). -/
def execZeroTimeout (s : State) : Host.Outcome State Fault Refusal :=
  .next (match s.meter.zero with
    | some z => if z.expiry ≤ s.now then endEvent (endZero .timeout s.meter.offset s) else s
    | none => s)

/-- A sensor's silence timer stops (R119). -/
def stopSensorTimer (i : SensorNo) (s : State) : State := setSensor i { s.dust.sensors[i] with timer := none } s

/-- SENSOR_SILENCE_EXPIRY (R119). -/
def execSensorSilenceExpiry (i : SensorNo) (s : State) : Host.Outcome State Fault Refusal :=
  .next (match (s.dust.sensors[i]).timer with
    | some t => if t ≤ s.now then endEvent (reformBands (silenceSensor i (stopSensorTimer i s))) else s
    | none => s)

/-- The outcome of an expired order (R61, R94). -/
def expiredOrder (d : InjDest) (o : InjOrder) (s : State) : State :=
  match d with
  | .feeder => feederOutcome o true s
  | .drive a =>
    match s.place.sweep with
    | some w => if w.axis = a then faultSweep s else s
    | none => s

/-- REPLY_WINDOW_EXPIRY (R94). -/
def execReplyWindowExpiry (d : InjDest) (s : State) : Host.Outcome State Fault Refusal :=
  .next (match s.gate.entry d with
    | some e => if e.deadline ≤ s.now then endEvent (expiredOrder d e.order (abandonOrder d s)) else s
    | none => s)

/-- STEP_TIMEOUT (R61). -/
def execStepTimeout (s : State) : Host.Outcome State Fault Refusal :=
  .next (match s.place.sweep with
    | some w => if w.timer ≤ s.now then endEvent (faultSweep s) else s
    | none => s)

end Sys2Proof.Machine
end

