-- ==== Sys2Proof/Machine/Dispatch.lean ====
section
/-! DEFINITION. One arm for each command. -/

namespace Sys2Proof.Machine

/-- A command's effect on everything but the queue of waiting commands. -/
def exec (i : Instr) (s : State) : Host.Outcome State Fault Refusal :=
  match i with
  | .receiveFrame p bytes => Sys2Proof.Machine.execReceiveFrame p bytes s
  | .transmitEnd p => Sys2Proof.Machine.execTransmitEnd p s
  | .beltSample => Sys2Proof.Machine.execBeltSample s
  | .positionSample => Sys2Proof.Machine.execPositionSample s
  | .holdsenseSample => Sys2Proof.Machine.execHoldsenseSample s
  | .dustSample => Sys2Proof.Machine.execDustSample s
  | .feederSample => Sys2Proof.Machine.execFeederSample s
  | .reply => Sys2Proof.Machine.execReply s
  | .run => Sys2Proof.Machine.execRun s
  | .rate => Sys2Proof.Machine.execRate s
  | .stop => Sys2Proof.Machine.execStop s
  | .move => Sys2Proof.Machine.execMove s
  | .halt => Sys2Proof.Machine.execHalt s
  | .forwardFrame p => Sys2Proof.Machine.execForwardFrame p s
  | .requestDropped p => Sys2Proof.Machine.execRequestDropped p s
  | .badRequest => Sys2Proof.Machine.execBadRequest s
  | .load => Sys2Proof.Machine.execLoad s
  | .read => Sys2Proof.Machine.execRead s
  | .status => Sys2Proof.Machine.execStatus s
  | .setOptions => Sys2Proof.Machine.execSetOptions s
  | .openShip => Sys2Proof.Machine.execOpenShip s
  | .closeShip => Sys2Proof.Machine.execCloseShip s
  | .startPlan => Sys2Proof.Machine.execStartPlan s
  | .haltPlan => Sys2Proof.Machine.execHaltPlan s
  | .resumePlan => Sys2Proof.Machine.execResumePlan s
  | .skipSlot => Sys2Proof.Machine.execSkipSlot s
  | .zeroBelt => Sys2Proof.Machine.execZeroBelt s
  | .zeroAbort => Sys2Proof.Machine.execZeroAbort s
  | .sweep => Sys2Proof.Machine.execSweep s
  | .ackAlarm => Sys2Proof.Machine.execAckAlarm s
  | .doneAlarm => Sys2Proof.Machine.execDoneAlarm s
  | .setAlarm => Sys2Proof.Machine.execSetAlarm s
  | .readRecords => Sys2Proof.Machine.execReadRecords s
  | .takeRecords => Sys2Proof.Machine.execTakeRecords s
  | .restart => Sys2Proof.Machine.execRestart s
  | .scaleSilenceExpiry => Sys2Proof.Machine.execScaleSilenceExpiry s
  | .zeroTimeout => Sys2Proof.Machine.execZeroTimeout s
  | .sensorSilenceExpiry sensor => Sys2Proof.Machine.execSensorSilenceExpiry sensor s
  | .replyWindowExpiry d => Sys2Proof.Machine.execReplyWindowExpiry d s
  | .stepTimeout => Sys2Proof.Machine.execStepTimeout s
  | .stopInputAsserted => Sys2Proof.Machine.execStopInputAsserted s
  | .stopInputCleared => Sys2Proof.Machine.execStopInputCleared s
  | .resetAsserted => Sys2Proof.Machine.execResetAsserted s
  | .resetReleased => Sys2Proof.Machine.execResetReleased s
  | .powerOn => Sys2Proof.Machine.execPowerOn s
  | .badDestination => Sys2Proof.Machine.execBadDestination s
  | .badFrame => Sys2Proof.Machine.execBadFrame s

end Sys2Proof.Machine
end

