-- ==== Sys2Proof/Machine/Step.lean ====
section
/-! DEFINITION. One step: the command at the front of the queue, or, on an empty queue, one tick of the millisecond
count (R196; log entry 2). -/

namespace Sys2Proof.Machine

/-- A timer's expiry command when its moment has come. -/
def dueCommand (now : Nat) (expiry : Option Nat) (c : Instr) : List Instr :=
  match expiry with
  | some t => if t ≤ now then [c] else []
  | none => []

/-- The expiries that are due, in the model's order (log entry 3). -/
def dueCommands (s : State) : List Instr :=
  dueCommand s.now s.meter.silence .scaleSilenceExpiry
    ++ dueCommand s.now (s.meter.zero.map (·.expiry)) .zeroTimeout
    ++ (List.finRange 8).flatMap (fun i : SensorNo =>
        dueCommand s.now (s.dust.sensors[i]).timer (.sensorSilenceExpiry i))
    ++ dueCommand s.now (s.gate.injFeeder.map (·.deadline)) (.replyWindowExpiry .feeder)
    ++ dueCommand s.now (s.gate.injGantry.map (·.deadline)) (.replyWindowExpiry (.drive .gantry))
    ++ dueCommand s.now (s.gate.injShuttle.map (·.deadline)) (.replyWindowExpiry (.drive .shuttle))
    ++ dueCommand s.now (s.place.sweep.map (·.timer)) .stepTimeout

/-- One millisecond passes: the count rises, and the expiries now due join the queue. -/
def tick (s : State) : State :=
  let s : State := { s with now := s.now + 1 }
  { s with pending := s.pending ++ dueCommands s }

/-- One step. -/
def step (s : State) : Host.Outcome State Fault Refusal :=
  match s.pending with
  | c :: rest => exec c { s with pending := rest }
  | [] => .next (tick s)

/-- `s` with the command that a word spells at the front of its queue. -/
def State.withFetchWord (s : State) (nbits w : Nat) : State :=
  match Sys2Proof.decodeTableWord nbits w with
  | some c => { s with pending := c :: s.pending }
  | none => s

end Sys2Proof.Machine
end

