-- ==== Sys2Proof/Safety.lean ====
section
/-! DEFINITION. What the statements about the part are written with: the blocks of the state and their frame, frames
that stand at the head of a receive queue, frames queued for sending, and the invariants. -/

namespace Sys2Proof.Machine

/-! ## Frames of a change -/

/-- The parts of the state, finely enough to say what an event leaves unchanged. -/
inductive Block
  /-- part state and loaded marks -/
  | part
  | options | stations | pins | clock | draws | queue
  /-- a port's receiver, receive queue, tally and LINE FAULT -/
  | recv (p : PortId)
  /-- a port's transmit queue and the frame being sent -/
  | send (p : PortId)
  /-- the injection queue and the sequence counter -/
  | injection
  | scale | offset
  /-- previous position and sequence number -/
  | prev
  /-- the extended belt position -/
  | belt
  | drift
  /-- METER FAULT and its clearing run -/
  | fault
  | silence | zero | flight | travel | envelopes | axes | sense
  /-- placement state and pour point -/
  | placement
  | held | sweep
  /-- hold table, sequence table and plan header -/
  | planTables
  | holdStates
  /-- plan state, order, start slot, cursor, round, skip count, finish reason -/
  | plan
  | visit | feeder | limit | window
  /-- the injected-order table -/
  | entries
  /-- last commanded rate and pending-derate mark -/
  | rate
  | permit | sensors | derates
  /-- overall band and SPRAY -/
  | band
  /-- the source table's settable fields: ranks, record and present enables -/
  | alarmTable
  /-- the sources' states and repeat counts -/
  | sources
  /-- the sources' condition flags -/
  | conds
  /-- the service stack -/
  | stack
  /-- the presented source and HORN -/
  | present
  /-- held records and next sequence number -/
  | records
  | reserved | marks | lastMark | unbilled
  /-- ship state and number -/
  | ship
  | accounts | bases | weighed | unassigned
deriving DecidableEq, Repr

/-- A block is the same in two states. -/
def Same (b : Block) (s t : State) : Prop :=
  match b with
  | .part => t.handler.part = s.handler.part ∧ t.handler.stationsMark = s.handler.stationsMark
      ∧ t.handler.scaleMark = s.handler.scaleMark
  | .options => t.handler.leave = s.handler.leave ∧ t.handler.holdMoves = s.handler.holdMoves
      ∧ t.handler.ownAddr = s.handler.ownAddr ∧ t.handler.threshold = s.handler.threshold
  | .stations => t.stations = s.stations
  | .pins => t.pins = s.pins
  | .clock => t.now = s.now
  | .draws => t.draws = s.draws
  | .queue => t.pending = s.pending
  | .recv p => (t.line.port p).rx = (s.line.port p).rx ∧ (t.line.port p).rxQueue = (s.line.port p).rxQueue
      ∧ (t.line.port p).tally = (s.line.port p).tally ∧ (t.line.port p).lineFault = (s.line.port p).lineFault
  | .send p => (t.line.port p).txQueue = (s.line.port p).txQueue ∧ (t.line.port p).sending = (s.line.port p).sending
  | .injection => t.line.injection = s.line.injection ∧ t.line.injSeq = s.line.injSeq
  | .scale => t.meter.table = s.meter.table
  | .offset => t.meter.offset = s.meter.offset
  | .prev => t.meter.prev = s.meter.prev
  | .belt => t.meter.belt = s.meter.belt
  | .drift => t.meter.drift = s.meter.drift
  | .fault => t.meter.fault = s.meter.fault ∧ t.meter.clearing = s.meter.clearing
  | .silence => t.meter.silence = s.meter.silence
  | .zero => t.meter.zero = s.meter.zero
  | .flight => t.flight = s.flight
  | .travel => t.place.travel = s.place.travel
  | .envelopes => t.place.envelopes = s.place.envelopes
  | .axes => t.place.axes = s.place.axes
  | .sense => t.place.sense = s.place.sense
  | .placement => t.place.state = s.place.state ∧ t.place.pourPoint = s.place.pourPoint
  | .held => t.place.held = s.place.held
  | .sweep => t.place.sweep = s.place.sweep
  | .planTables => t.seq.holds = s.seq.holds ∧ t.seq.slots = s.seq.slots ∧ t.seq.header = s.seq.header
  | .holdStates => t.seq.holdStates = s.seq.holdStates
  | .plan => t.seq.plan = s.seq.plan ∧ t.seq.order = s.seq.order ∧ t.seq.start = s.seq.start
      ∧ t.seq.cursor = s.seq.cursor ∧ t.seq.round = s.seq.round ∧ t.seq.skips = s.seq.skips
      ∧ t.seq.finish = s.seq.finish
  | .visit => t.seq.visit = s.seq.visit
  | .feeder => t.gate.feeder = s.gate.feeder
  | .limit => t.gate.rateLimit = s.gate.rateLimit
  | .window => t.gate.replyWindow = s.gate.replyWindow
  | .entries => t.gate.injFeeder = s.gate.injFeeder ∧ t.gate.injGantry = s.gate.injGantry
      ∧ t.gate.injShuttle = s.gate.injShuttle
  | .rate => t.gate.lastRate = s.gate.lastRate ∧ t.gate.pendingDerate = s.gate.pendingDerate
  | .permit => t.gate.permit = s.gate.permit
  | .sensors => t.dust.sensors = s.dust.sensors
  | .derates => t.dust.elevDerate = s.dust.elevDerate ∧ t.dust.highDerate = s.dust.highDerate
  | .band => t.dust.overall = s.dust.overall ∧ t.dust.spray = s.dust.spray
  | .alarmTable => ∀ i : SourceNo, (t.ladder.sources[i]).rank = (s.ladder.sources[i]).rank
      ∧ (t.ladder.sources[i]).record = (s.ladder.sources[i]).record
      ∧ (t.ladder.sources[i]).present = (s.ladder.sources[i]).present
  | .sources => ∀ i : SourceNo, (t.ladder.sources[i]).state = (s.ladder.sources[i]).state
      ∧ (t.ladder.sources[i]).repeats = (s.ladder.sources[i]).repeats
  | .conds => ∀ i : SourceNo, (t.ladder.sources[i]).cond = (s.ladder.sources[i]).cond
  | .stack => t.ladder.stack = s.ladder.stack
  | .present => t.ladder.presented = s.ladder.presented ∧ t.ladder.horn = s.ladder.horn
  | .records => t.bills.records = s.bills.records ∧ t.bills.nextSeq = s.bills.nextSeq
  | .reserved => t.bills.reserved = s.bills.reserved
  | .marks => t.bills.marks = s.bills.marks
  | .lastMark => t.bills.lastMark = s.bills.lastMark
  | .unbilled => t.bills.unbilled = s.bills.unbilled
  | .ship => t.ship.state = s.ship.state ∧ t.ship.number = s.ship.number
  | .accounts => t.ship.accounts = s.ship.accounts
  | .bases => t.ship.bases = s.ship.bases
  | .weighed => t.ship.weighed = s.ship.weighed
  | .unassigned => t.ship.unassigned = s.ship.unassigned

/-- Every block outside a list is unchanged. -/
def OnlyChanges (changed : List Block) (s t : State) : Prop := ∀ b : Block, b ∉ changed → Same b s t

/-- What the end of every event may change (R106, R130): the permit, the presentation and its ALARM notice. -/
def closing : List Block := [.permit, .present, .send .U]

/-! ## Lists of blocks -/

/-- What the completion of a visit may change (R87). -/
def completionBlocks : List Block :=
  [.visit, .plan, .holdStates, .records, .reserved, .lastMark, .unbilled, .sources, .bases, .held, .injection,
   .send .U, .send .D]

/-- What a pour's events may reach through the Sequencer and the Gate (R81 to R87, R103 to R105). -/
def pourBlocks : List Block := .entries :: .rate :: completionBlocks

/-- What a selection may change (R73, R74). -/
def selectionBlocks : List Block := [.visit, .plan, .sources, .send .U]

/-- What a derate check may change (R102). -/
def derateBlocks : List Block := [.visit, .entries, .rate, .injection, .send .D]

/-- What forming the bands again may change (R121). -/
def bandBlocks : List Block := .band :: .limit :: pourBlocks

/-- What a reported feeder state may change (R90, R91). -/
def feederBlocks : List Block := .feeder :: pourBlocks

/-- What a sweep's steps and endings may change (R57 to R62). -/
def sweepBlocks : List Block := [.sweep, .entries, .injection, .sources, .draws, .send .U, .send .D]

/-- What the end of a ZERO operation may change (R23). -/
def zeroEndBlocks : List Block := [.zero, .records, .reserved, .lastMark, .sources, .send .U]

/-- What METER FAULT may change (R15). -/
def faultBlocks : List Block := .fault :: .zero :: .conds :: pourBlocks

/-- What deliveries and the checks after them may change (R31 to R35, R83). -/
def arrivalBlocks : List Block := .flight :: .accounts :: .conds :: pourBlocks

/-- What an integrated sample may change (R9 to R13). -/
def integrationBlocks : List Block := .belt :: .drift :: .weighed :: .unassigned :: arrivalBlocks

/-- What a taken BELT sample may change before it becomes the previous one (R3 to R23). -/
def beltBlocks : List Block := .offset :: .fault :: .zero :: integrationBlocks

/-- What a taken POSITION or HOLDSENSE sample may change (R42 to R48, R58, R60). -/
def placementBlocks : List Block := .axes :: .sense :: .placement :: .sweep :: .draws :: pourBlocks

/-- What a taken DUST sample may change (R112). -/
def dustBlocks : List Block := .sensors :: .conds :: bandBlocks

/-- What a REPLY may change (R63, R90, R91, R94). -/
def replyBlocks : List Block := .axes :: .sweep :: .feeder :: pourBlocks

/-- What a MOVE or HALT may change (R49 to R55, R60). -/
def moveBlocks : List Block := [.held, .sweep, .entries, .injection, .send .U, .send .D]

/-- What OPEN_SHIP may change (R163). -/
def openBlocks : List Block :=
  [.ship, .accounts, .bases, .weighed, .holdStates, .unbilled, .records, .reserved, .lastMark, .sources, .send .U]

/-- What CLOSE_SHIP may change (R165). -/
def closeBlocks : List Block :=
  [.ship, .bases, .unassigned, .plan, .unbilled, .records, .reserved, .lastMark, .sources, .send .U]

/-- What the alarm requests may change (R131, R132, R134). -/
def alarmBlocks : List Block := .stack :: dustBlocks

/-- What SET_OPTIONS may change (R175, R193). -/
def optionBlocks : List Block := .options :: .recv .U :: .recv .D :: .conds :: pourBlocks

/-- What a LOAD may change (R191). -/
def loadBlocks : List Block :=
  [.stations, .part, .silence, .sensors, .prev, .axes, .sense, .scale, .travel, .envelopes, .planTables, .window,
   .derates, .marks, .limit, .band, .feeder, .entries, .rate, .alarmTable, .conds] ++ completionBlocks

/-! ## Frames of the line -/

/-- Frame `e` stands at the head of port `p`'s receive queue, `rest` behind it, and is the command `row`. -/
def Heads (s : State) (p : PortId) (row : Instr) (e : RxEntry) (rest : List RxEntry) : Prop :=
  (s.line.port p).rxQueue = e :: rest ∧ inspect s p e.frame = row

/-- A frame is being sent on port `p` or waits in its transmit queue. -/
def OnWire (p : PortId) (f : Frame) (s : State) : Prop :=
  (s.line.port p).sending = some f ∨ f ∈ (s.line.port p).txQueue

/-- Frame `f`, offered to port `p`'s transmit queue in state `s`, is sent or waits there in state `t`, unless the queue
was full (R181). -/
def Offered (p : PortId) (f : Frame) (s t : State) : Prop := (s.line.port p).room = true → OnWire p f t

/-- What a port is sending stays there, and the frames that wait in its transmit queue stay in their order, new ones
joining the tail (R181). -/
def SendsInOrder (s t : State) : Prop :=
  ∀ (p : PortId) (f : Frame), (s.line.port p).sending = some f →
    (t.line.port p).sending = some f ∧ (s.line.port p).txQueue <+: (t.line.port p).txQueue

/-- The command `row` of the frame `e` at the head of port `p`'s receive queue completes: it answers a next state that
differs from the one the taking of the frame leaves (R173, R174) in the listed blocks alone, beside what closes every
event, and of which `post` holds. -/
def Takes (s : State) (p : PortId) (row : Instr) (e : RxEntry) (rest : List RxEntry) (changed : List Block)
    (post : State → Prop) : Prop :=
  ∃ t, exec row s = .next t ∧ OnlyChanges (closing ++ changed) (takeHead p e rest row s) t ∧ post t

/-- Command `c`, which takes no frame, completes: it answers a next state that differs from `s` in the listed blocks
alone, beside what closes every event, and of which `post` holds. -/
def Runs (s : State) (c : Instr) (changed : List Block) (post : State → Prop) : Prop :=
  ∃ t, exec c s = .next t ∧ OnlyChanges (closing ++ changed) s t ∧ post t

/-! ## Injected orders and visits -/

/-- An order to a destination has been injected (R93): it holds the destination's entry under the sequence number that
stood next, and its frame is being sent on port D or waits in the injection queue. -/
def Injects (d : InjDest) (o : InjOrder) (addr : Byte) (payload : List Byte) (s t : State) : Prop :=
  let f : Frame :=
    { dst := addr, src := s.handler.ownAddr, kind := 0x21, seq := s.line.injSeq, payload := payload }
  t.gate.entry d = some { order := o, seq := s.line.injSeq, deadline := s.now + s.gate.replyWindow }
    ∧ t.line.injSeq = s.line.injSeq + 1 ∧ (t.line.d.sending = some f ∨ { dest := d, frame := f } ∈ t.line.injection)

/-- A hold's account has reached its target (R66). -/
def Reached (s : State) (h : Hold) : Prop :=
  ∃ en g, s.seq.holds[h] = some en ∧ en.target = some g ∧ g * 1000000 ≤ s.ship.accounts[holdAccount h]

/-- The mark test of the one issue that takes state `s` to `t` (R152): a held count that reaches a mark raises BILL_MARK
and records the mark's number, and any other leaves both. -/
def MarkTested (s t : State) : Prop :=
  let held := s.bills.records.length + 1
  let x := s.ladder.sources[srcBillMark]
  (∀ k : Fin 4, s.bills.marks[k] = held → (∀ j < k, s.bills.marks[j] ≠ held) →
      t.bills.lastMark = some (k.val + 1) ∧ t.ladder.sources[srcBillMark] = x.raised)
    ∧ ((∀ k : Fin 4, s.bills.marks[k] ≠ held) →
      t.bills.lastMark = s.bills.lastMark ∧ t.ladder.sources[srcBillMark] = x)

/-- The visit `v`, DRAINING with nothing in flight in `s`, has completed in `t` (R66, R87, R145, R148, R149, R152): its VISIT
record with a line for its hold and one for every other account that changed or whose rounded value differs from its
base, those bases brought up, its reservation given back, and every hold at its target FULL. -/
def Completes (v : Visit) (s t : State) : Prop :=
  let kg (x : Nat) : Nat := (x + 500000) / 1000000
  let due (a : Account) : Nat := kg s.ship.accounts[a] - s.ship.bases[a]
  ∃ as : List Account, as.Pairwise (· < ·)
    ∧ (∀ a, a ∈ as ↔ a ≠ holdAccount v.hold ∧ (v.changed[a] = true ∨ kg s.ship.accounts[a] ≠ s.ship.bases[a]))
    ∧ t.bills.records = s.bills.records ++ [⟨s.bills.nextSeq, .visit (s.ship.number.getD 0) v.slot v.hold v.round v.quota
        ((holdAccount v.hold :: as).map fun a => ⟨a, !v.changed[a] && decide (0 < due a), due a⟩)
        (if v.quota * 1000000 < v.poured then kg (v.poured - v.quota * 1000000) else 0) v.endReason v.flags v.start
        s.meter.belt (trimKg s) v.pauseCount v.pauses⟩]
    ∧ t.bills.nextSeq = s.bills.nextSeq + 1 ∧ t.bills.unbilled = false ∧ MarkTested s t
    ∧ t.bills.reserved = (if v.reserved then s.bills.reserved - 1 else s.bills.reserved)
    ∧ (∀ a : Account, t.ship.bases[a]
        = if a = holdAccount v.hold ∨ a ∈ as then kg s.ship.accounts[a] else s.ship.bases[a])
    ∧ ∀ h : Hold, (Reached s h → t.seq.holdStates[h] = .full)
        ∧ (¬ Reached s h → t.seq.holdStates[h] = s.seq.holdStates[h])

/-- The visit `v`, POURING or PAUSED in `s`, has taken trigger `r` in `t` (R85, R86). From POURING the Gate acts by its
FEEDER entry (R103): free, and port D not in LINE FAULT, the visit is CLOSING with the close-out STOP injected; holding a
stray start's STOP, CLOSING with that STOP adopted; holding a RATE, or free in LINE FAULT, the close-out is not issued
(R105): DRAINING, HARD_STOPPED, the RATE abandoned and CLOSEOUT_NOT_ISSUED raised. From PAUSED it is DRAINING. A visit that
is DRAINING with nothing in flight is complete. -/
def Triggered (v : Visit) (r : EndReason) (s t : State) : Prop :=
  let closing : Visit := { v with state := .closing, endReason := some r }
  let drained : Visit := { v with state := .draining, endReason := some r }
  let stopped : Visit := { drained with flags := { v.flags with hardStopped := true } }
  let notIssued : Prop := (∃ x, s.gate.injFeeder = some x ∧ x.order = .rate)
    ∨ (s.gate.injFeeder = none ∧ s.line.d.lineFault = true)
  (∀ addr, v.state = .pouring → s.gate.injFeeder = none → s.line.d.lineFault = false → s.station .feeder = some addr →
      t.seq.visit = some closing ∧ t.gate.pendingDerate = false ∧ Injects .feeder .stop addr [3] s t)
    ∧ (∀ x, v.state = .pouring → s.gate.injFeeder = some x → x.order = .stop →
      t.seq.visit = some closing ∧ t.gate.pendingDerate = false ∧ t.gate.injFeeder = some x)
    ∧ (v.state = .pouring → notIssued → t.gate.injFeeder = none ∧ (∀ y ∈ t.line.injection, y.dest ≠ .feeder)
        ∧ t.ladder.sources[srcCloseoutNotIssued] = (s.ladder.sources[srcCloseoutNotIssued]).raised
        ∧ (0 < s.flight.total → t.seq.visit = some stopped)
        ∧ (s.flight.total = 0 → s.meter.zero = none → Completes stopped s t))
    ∧ (v.state = .paused → 0 < s.flight.total → t.seq.visit = some drained)
    ∧ (v.state = .paused → s.flight.total = 0 → s.meter.zero = none → Completes drained s t)

/-- Trigger `r`, reported in `s`, has reached the open visit in `t`: one that is POURING or PAUSED takes it, any other
stays as it is (R84, R85). -/
def TriggerReaches (r : EndReason) (s t : State) : Prop :=
  (s.seq.visit = none → t.seq.visit = none)
    ∧ ∀ v, s.seq.visit = some v →
      Triggered v r s t ∧ (v.state ≠ .pouring → v.state ≠ .paused → t.seq.visit = some v)

/-! ## The end of a ZERO operation, METER FAULT -/

/-- The notice ZERO_DONE with an outcome and its record's sequence number (R23, R186). -/
def zeroDone (s : State) (o : ZeroOutcome) (seq : BitVec 32) : Frame :=
  { dst := 0, src := s.handler.ownAddr, kind := 0x41, seq := 0, payload := [4, o.code] ++ beBytes 4 seq.toNat }

/-- The ZERO operation `z` of `s` has ended in `t` with the offset as it stood (R22, R23): its record has entered its
reservation with the next number and its mark test made, and ZERO_DONE is queued. A visit in pour phase, beside which no
ZERO runs (R19, R98), could complete after the record. -/
def ZeroEnds (z : ZeroOp) (o : ZeroOutcome) (s t : State) : Prop :=
  let held := s.bills.records ++ [⟨s.bills.nextSeq, .zero z.oldOffset s.meter.offset o z.travel⟩]
  t.meter.zero = none ∧ t.meter.offset = s.meter.offset ∧ t.meter.drift = s.meter.drift ∧ held <+: t.bills.records
    ∧ (s.visitPours = false → t.bills.records = held ∧ t.bills.nextSeq = s.bills.nextSeq + 1
        ∧ t.bills.reserved = s.bills.reserved - 1 ∧ MarkTested s t)
    ∧ Offered .U (zeroDone s o s.bills.nextSeq) s t

/-- METER FAULT, set in `s` by an event of R15, has taken it to `t`: the fault stands, the clearing run is 0, METER_FAULT
is raised with its condition true, and a running ZERO has ended FAULTED (R22). A fault that was clear reaches the visit
as a trigger; one that was set does not (R15, R84). -/
def FaultSet (s t : State) : Prop :=
  t.meter.fault = true ∧ t.meter.clearing = 0 ∧ t.meter.zero = none
    ∧ t.ladder.sources[srcMeterFault] = ((s.ladder.sources[srcMeterFault]).withCond true).raised
    ∧ (∀ z, s.meter.zero = some z → ZeroEnds z .faulted s t)
    ∧ (s.meter.fault = false → TriggerReaches .meterFault s t)
    ∧ (s.meter.fault = true → t.seq.visit = s.seq.visit)

/-! ## The derate check and the bands -/

/-- The derate check, made in `s`, has left `t` (R102): none due clears the pending mark alone; a due one injects RATE at
the limit, rewrites a RATE that is not yet sent, or is left pending. -/
def DerateChecked (s t : State) : Prop :=
  let limit := s.gate.rateLimit
  let due : Prop := s.gate.feeder = .running ∧ ∃ q, s.gate.lastRate = some q ∧ limit < q
  let derated (v : Visit) : Visit :=
    if v.state = .pouring ∨ v.state = .paused then { v with flags := { v.flags with derated := true } } else v
  let unsent : Prop := (∃ x, s.gate.injFeeder = some x ∧ x.order = .rate) ∧ ∃ y ∈ s.line.injection, y.dest = .feeder
  (¬ due → t.gate.pendingDerate = false ∧ t.gate.lastRate = s.gate.lastRate ∧ t.seq.visit = s.seq.visit
      ∧ Same .entries s t ∧ Same .injection s t)
    ∧ (∀ addr, due → s.gate.injFeeder = none → s.line.d.lineFault = false → s.station .feeder = some addr →
      Injects .feeder .rate addr (2 :: beBytes 2 limit) s t ∧ t.gate.lastRate = some limit
        ∧ t.gate.pendingDerate = false ∧ t.seq.visit = s.seq.visit.map derated)
    ∧ (due → unsent → t.gate.lastRate = some limit ∧ t.gate.pendingDerate = s.gate.pendingDerate
        ∧ t.seq.visit = s.seq.visit ∧ Same .entries s t
        ∧ t.line.injection = s.line.injection.map fun y =>
            if y.dest = .feeder then { y with frame := { y.frame with payload := 2 :: beBytes 2 limit } } else y)
    ∧ (due → ¬ unsent → s.gate.injFeeder ≠ none ∨ s.line.d.lineFault = true →
      t.gate.pendingDerate = true ∧ t.gate.lastRate = s.gate.lastRate ∧ t.seq.visit = s.seq.visit
        ∧ Same .entries s t ∧ Same .injection s t)

/-- The rate limit, recomputed in `s`, has left `t` (R95): floor(max rate × percentage / 100), 0 without a header, and a
lowered one makes the derate check. -/
def LimitRecomputed (s t : State) : Prop :=
  let limit := s.seq.header.elim 0 fun p => p.maxRate * s.dust.percent s.dust.overall / 100
  OnlyChanges (.limit :: derateBlocks) s t ∧ t.gate.rateLimit = limit
    ∧ (limit < s.gate.rateLimit → DerateChecked { s with gate := { s.gate with rateLimit := limit } } t)
    ∧ (s.gate.rateLimit ≤ limit → OnlyChanges [.limit] s t)

/-- The bands, formed again after `s`, have left `t` (R121, R123): an overall band that has changed recomputes the rate
limit (`m` is the state then), and TRIP goes on to the visit as a trigger, which meets the derate's RATE where there is
one; one that has not changed touches nothing of the Gate and the visit. -/
def BandsFormed (s t : State) : Prop :=
  t.dust.overall = t.dust.formOverall ∧ t.dust.spray = t.dust.formSpray
    ∧ (t.dust.overall = s.dust.overall → ∀ b ∈ .limit :: derateBlocks, Same b s t)
    ∧ (t.dust.overall ≠ s.dust.overall → ∃ m, LimitRecomputed { s with dust := t.dust } m
        ∧ t.gate.rateLimit = m.gate.rateLimit
        ∧ (t.dust.overall = .trip → t.gate.lastRate = m.gate.lastRate ∧ TriggerReaches .dustTrip m t)
        ∧ (t.dust.overall ≠ .trip → ∀ b ∈ derateBlocks, Same b m t))

/-- The release test of sensor `k`, made while its source is neither PENDING nor IN_SERVICE, has left `t`, with the bands
formed again (R117). -/
def ReleaseTested (k : SensorNo) (s t : State) : Prop :=
  let x := s.dust.sensors[k]
  let falls : Prop := x.latch = true ∧ x.belowRelease = true
  BandsFormed s t
    ∧ (falls → (t.dust.sensors[k]).latch = false ∧ (t.ladder.sources[srcDustTrip k]).cond = false)
    ∧ (¬ falls → t.dust.sensors[k] = x
        ∧ (t.ladder.sources[srcDustTrip k]).cond = (s.ladder.sources[srcDustTrip k]).cond)

/-! ## LINE FAULT -/

/-- What a step of a port's tally may change: port D hands its LINE FAULT on (R175). -/
def lineFaultBlocks : PortId → List Block
  | .U => [.recv .U, .sources, .conds]
  | .D => .recv .D :: .conds :: pourBlocks

/-- Port `p`, not in LINE FAULT in `s`, has entered it in `t` (R175): its source is raised with its condition true, and
port D's entry reaches the visit as a trigger. -/
def EntersLineFault (p : PortId) (s t : State) : Prop :=
  (t.line.port p).lineFault = true
    ∧ t.ladder.sources[srcLineFault p] = ((s.ladder.sources[srcLineFault p]).withCond true).raised
    ∧ (p = .D → TriggerReaches .lineFault (setLinePort .D { s.line.d with lineFault := true } s) t)

/-- Port `p`, in LINE FAULT in `s`, has left it in `t` (R175): its source's condition is false, and port D's exit makes
the derate check (R102). -/
def LeavesLineFault (p : PortId) (s t : State) : Prop :=
  (t.line.port p).lineFault = false
    ∧ t.ladder.sources[srcLineFault p] = (s.ladder.sources[srcLineFault p]).withCond false
    ∧ (p = .D → DerateChecked (setLinePort .D { s.line.d with lineFault := false } s) t)

/-! ## Invariants -/

/-- FEED PERMIT stands exactly while its conditions hold (R106). -/
def PermitTrue (s : State) : Prop := s.gate.permit = permitOf s

/-- While RESET is held the part is UNCONFIGURED and holds no received frame (R195). -/
def HeldInReset (s : State) : Prop :=
  s.pins.reset = true → s.handler.part = .unconfigured ∧ s.line.u.rxQueue = [] ∧ s.line.d.rxQueue = []

/-- LINE FAULT of one port (R174, R175). -/
def PortFaultTrue (threshold : Nat) (p : Port) : Prop :=
  p.tally ≤ 255 ∧ (p.lineFault = false → p.tally < threshold) ∧ (p.lineFault = true → 0 < p.tally)

/-- Both ports' tallies and LINE FAULT agree with the threshold, an option from 1 to 255 (R174, R175). -/
def LineFaultTrue (s : State) : Prop :=
  1 ≤ s.handler.threshold ∧ s.handler.threshold ≤ 255 ∧ PortFaultTrue s.handler.threshold s.line.u
    ∧ PortFaultTrue s.handler.threshold s.line.d

/-- The queues of both ports hold at most 8 frames (R173, R181). -/
def QueuesBounded (s : State) : Prop :=
  s.line.u.rxQueue.length ≤ 8 ∧ s.line.u.txQueue.length ≤ 8 ∧ s.line.d.rxQueue.length ≤ 8
    ∧ s.line.d.txQueue.length ≤ 8

/-- The Flight Queue (R25, R26): at most 64 segments, each of positive mass, arrival positions non-decreasing from
head to tail, numbers consecutive up to the next segment number. -/
def FlightOrdered (f : Flight) : Prop :=
  f.segments.length ≤ 64 ∧ (∀ g ∈ f.segments, 0 < g.mass)
    ∧ (f.segments.map (·.arrival)).Pairwise (· ≤ ·)
    ∧ ∀ i, (h : i < f.segments.length) →
        (f.segments[i]).number + BitVec.ofNat 16 (f.segments.length - i) = f.nextNumber

/-- The reservations held: one for a visit that has one, one for a running ZERO operation (R142). -/
def reservationsHeld (s : State) : Nat :=
  (if visitReserved s then 1 else 0) + (if s.meter.zero.isSome then 1 else 0)

/-- The Bill Store (R140 to R142): held records and reservations never pass 256, every reservation has its holder, a
visit holds one exactly in the four pour states (R81, R99), a visit is open only while the plan is ACTIVE or SUSPENDED
(R74 to R76), and the held records carry consecutive numbers up to the next sequence number. -/
def BillsSound (s : State) : Prop :=
  s.bills.records.length + s.bills.reserved ≤ 256 ∧ s.bills.reserved = reservationsHeld s
    ∧ visitReserved s = s.visitPours
    ∧ (s.seq.visit ≠ none → s.seq.plan = .active ∨ s.seq.plan = .suspended)
    ∧ ∀ i, (h : i < s.bills.records.length) →
        (s.bills.records[i]).seq + BitVec.ofNat 32 (s.bills.records.length - i) = s.bills.nextSeq

/-- The Alarm Ladder (R126, R129, R133, R136): ranks at most 15 and strictly rising up the stack, a source on the stack
exactly when it is IN_SERVICE, a source with record enable off IDLE, a presented source PENDING, present-enabled, at its
own rank and above the top; and the source that R129 names is presented, HORN standing exactly while one is (R130). -/
def LadderSound (l : Ladder) : Prop :=
  (∀ i : SourceNo, (l.sources[i]).rank ≤ 15)
    ∧ (l.stack.map fun i => (l.sources[i]).rank).Pairwise (· > ·)
    ∧ (∀ i : SourceNo, i ∈ l.stack ↔ (l.sources[i]).state = .inService)
    ∧ (∀ i : SourceNo, (l.sources[i]).record = false → (l.sources[i]).state = .idle)
    ∧ (∀ i r, l.presented = some (i, r) → l.qualifies i = true ∧ (l.sources[i]).rank = r)
    ∧ l.presented = l.toPresent ∧ l.horn = l.presented.isSome

/-- The injection queue (R182): at most 4 frames and at most one for each destination. -/
def InjectionSound (s : State) : Prop :=
  s.line.injection.length ≤ 4 ∧ (s.line.injection.map (·.dest)).Nodup

/-- The sum of the thirteen accounts and the grain in flight (R36). -/
def accountedFor (s : State) : Nat := pouredTotal s + s.flight.total

/-- Conservation (R36), with what it rests on: every segment in flight carries the tag of the ship as it stands, and an
open ship has a number. -/
def Conserved (s : State) : Prop :=
  (s.ship.state = .open → s.ship.weighed = accountedFor s ∧ s.ship.tag ≠ 0)
    ∧ (∀ g ∈ s.flight.segments, g.shipTag = s.ship.tag ∧ 0 < g.mass)

/-- The scale table's capacity and gap limit lie in their ranges (R1). -/
def ScaleInRange (s : State) : Prop :=
  ∀ sc, s.meter.table = some sc → sc.capacity ≤ 2000000 ∧ sc.gapLimit ≤ 32767

/-- The rate limit is the one that the plan header and the overall band give (R95). -/
def LimitTrue (s : State) : Prop := s.gate.rateLimit = rateLimitOf s

end Sys2Proof.Machine
end

