-- ==== Sys2Proof/Certificates/Slice0/Obligations.lean ====
section
/-! DEFINITION. Statements about the SL-12, from the numbered rules of its manual. -/

open Sys2Proof Sys2Proof.Machine

/-! ## The queue, reset and the commands as a whole -/

/-- A step with a command at the front of the queue is that command on the queue's rest. -/
def Obligations.StepRunsFrontCommand : Prop :=
  ∀ (c : Instr) (s : State), step { s with pending := c :: s.pending } = exec c s

/-- On an empty queue the millisecond count rises by one, and exactly the expiries whose moment has come join the
queue (R196; that a tick is what an idle step does is log entry 2). -/
def Obligations.StepTicksOnEmptyQueue : Prop :=
  ∀ s : State, s.pending = [] →
    ∃ t, step s = .next t ∧ t.now = s.now + 1 ∧ OnlyChanges [.clock, .queue] s t
      ∧ (.scaleSilenceExpiry ∈ t.pending ↔ ∃ x, s.meter.silence = some x ∧ x ≤ s.now + 1)
      ∧ (.zeroTimeout ∈ t.pending ↔ ∃ z, s.meter.zero = some z ∧ z.expiry ≤ s.now + 1)
      ∧ (∀ i : SensorNo, .sensorSilenceExpiry i ∈ t.pending ↔ ∃ x, (s.dust.sensors[i]).timer = some x ∧ x ≤ s.now + 1)
      ∧ (∀ d : InjDest, .replyWindowExpiry d ∈ t.pending ↔ ∃ x, s.gate.entry d = some x ∧ x.deadline ≤ s.now + 1)
      ∧ (.stepTimeout ∈ t.pending ↔ ∃ w, s.place.sweep = some w ∧ w.timer ≤ s.now + 1)
      ∧ ∀ c ∈ t.pending, c = .scaleSilenceExpiry ∨ c = .zeroTimeout ∨ (∃ i, c = .sensorSilenceExpiry i)
          ∨ (∃ d, c = .replyWindowExpiry d) ∨ c = .stepTimeout

/-- Every command, in every state, answers a next state and leaves the waiting commands as they are. -/
def Obligations.EveryCommandAnswers : Prop :=
  ∀ (c : Instr) (s : State), ∃ t, exec c s = .next t ∧ t.pending = s.pending

/-- The values after cold reset (R2, R11, R14 to R18, R40, R64, R89, R92, R108, R110, R125, R126, R139, R151, R158, R168,
R176, R185, R188, R193), with the ranks of the 40 sources (R126) and the order and start slot in use (R89). -/
def Obligations.ResetValues : Prop :=
  let s := State.reset
  s.handler = { part := .unconfigured, stationsMark := false, scaleMark := false, leave := .early, holdMoves := true,
                ownAddr := 62, threshold := 16 }
    ∧ (∀ r : Role, s.station r = none)
    ∧ (∀ p, (s.line.port p).rx = .hunt ∧ (s.line.port p).rxQueue = [] ∧ (s.line.port p).txQueue = []
        ∧ (s.line.port p).sending = none ∧ (s.line.port p).tally = 0 ∧ (s.line.port p).lineFault = false)
    ∧ s.line.injection = [] ∧ s.line.injSeq = 0
    ∧ s.meter = { table := none, offset := 0, prev := none, belt := 0, drift := 0, fault := false, clearing := 0,
                  silence := none, zero := none }
    ∧ s.flight.segments = [] ∧ s.flight.nextNumber = 0
    ∧ s.place.travel = { gantry := ⟨0, 600000⟩, shuttle := ⟨0, 40000⟩, chute := ⟨0, 20000⟩, settleCount := 8,
                         leaveCount := 4, stepTimeout := 30 }
    ∧ (∀ h : Hold, s.place.envelopes[h] = none) ∧ (∀ a, s.place.axes.get a = { pos := none, motion := none })
    ∧ s.place.sense = none ∧ s.place.state = .clear ∧ s.place.pourPoint = unplaced ∧ s.place.held = none
    ∧ s.place.sweep = none
    ∧ (∀ h : Hold, s.seq.holds[h] = none ∧ s.seq.holdStates[h] = .idle) ∧ (∀ i : Fin 16, s.seq.slots[i] = none)
    ∧ s.seq.header = none ∧ s.seq.plan = .idle ∧ s.seq.order = .rotate ∧ s.seq.start = 0 ∧ s.seq.cursor = 0
    ∧ s.seq.round = 0 ∧ s.seq.skips = 0 ∧ s.seq.finish = none ∧ s.seq.visit = none
    ∧ s.gate.feeder = .unknown ∧ s.gate.replyWindow = 200 ∧ (∀ d, s.gate.entry d = none) ∧ s.gate.rateLimit = 0
    ∧ s.gate.lastRate = none ∧ s.gate.pendingDerate = false ∧ s.gate.permit = false
    ∧ (∀ i : SensorNo, s.dust.sensors[i] = { entry := none, a16 := 0, avgBand := .normal, latch := false, run := 0,
                                             silent := false, timer := none })
    ∧ s.dust.elevDerate = 60 ∧ s.dust.highDerate = 25 ∧ s.dust.overall = .normal ∧ s.dust.spray = false
    ∧ (∀ i : SourceNo, (s.ladder.sources[i]).record = true ∧ (s.ladder.sources[i]).present = true
        ∧ (s.ladder.sources[i]).state = .idle ∧ (s.ladder.sources[i]).repeats = 0
        ∧ (s.ladder.sources[i]).cond = false)
    ∧ s.ladder.sources.toList.map (·.rank)
        = [15, 15] ++ List.replicate 8 14 ++ [13, 12] ++ List.replicate 8 11 ++ List.replicate 8 10
            ++ [9, 9, 8, 8, 7, 6, 6, 5, 4, 3, 2, 1]
    ∧ s.ladder.stack = [] ∧ s.ladder.presented = none ∧ s.ladder.horn = false
    ∧ s.bills.records = [] ∧ s.bills.nextSeq = 1 ∧ s.bills.reserved = 0
    ∧ s.bills.marks = #v[64, 128, 192, 240] ∧ s.bills.lastMark = none ∧ s.bills.unbilled = false
    ∧ s.ship.state = .noShip ∧ s.ship.number = none ∧ s.ship.weighed = 0 ∧ s.ship.unassigned = 0
    ∧ (∀ a : Account, s.ship.accounts[a] = 0 ∧ s.ship.bases[a] = 0)

/-- The state after reset meets every invariant stated below. -/
def Obligations.ResetMeetsInvariants : Prop :=
  PermitTrue State.reset ∧ HeldInReset State.reset ∧ LineFaultTrue State.reset ∧ QueuesBounded State.reset
    ∧ FlightOrdered State.reset.flight ∧ BillsSound State.reset ∧ LadderSound State.reset.ladder
    ∧ InjectionSound State.reset ∧ Conserved State.reset ∧ ScaleInRange State.reset ∧ LimitTrue State.reset

/-- RESET and power-on put every block at its reset values, whatever the state, leaving the inputs' levels, the
millisecond count and the model's own fields (R195; log entry 23); with STOP asserted, the end of the reset raises and
presents STOP_INPUT (R107, R195). -/
def Obligations.ResetLinesColdReset : Prop :=
  ∀ s : State,
    (s.pins.reset = false →
      exec .resetAsserted s
        = .next { State.reset with pins := ⟨true, s.pins.stop⟩, now := s.now, draws := s.draws, pending := s.pending })
    ∧ (s.pins.reset = true → s.pins.stop = false →
      exec .resetReleased s
        = .next { State.reset with pins := ⟨false, false⟩, now := s.now, draws := s.draws, pending := s.pending })
    ∧ (s.pins.reset = false → s.pins.stop = false →
      exec .powerOn s
        = .next { State.reset with pins := ⟨false, false⟩, now := s.now, draws := s.draws, pending := s.pending })
    ∧ (s.pins.reset = true → exec .resetAsserted s = .next s
        ∧ exec .powerOn s = .next { State.reset with pins := s.pins, now := s.now, draws := s.draws,
                                                     pending := s.pending })
    ∧ (s.pins.reset = false → exec .resetReleased s = .next s)
    ∧ (s.pins.stop = true → ∀ c : Instr, (c = .resetReleased ∧ s.pins.reset = true) ∨ (c = .powerOn ∧ s.pins.reset = false) →
      ∃ t, exec c s = .next t ∧ t.pins = ⟨false, true⟩ ∧ t.ladder.presented = some (srcStopInput, 13)
        ∧ t.ladder.horn = true ∧ (t.ladder.sources[srcStopInput]).state = .pending
        ∧ (t.ladder.sources[srcStopInput]).cond = true
        ∧ t.line.u.sending = some { dst := 0, src := 62, kind := 0x41, seq := 0, payload := [1, 1, 10, 13] }
        ∧ OnlyChanges [.pins, .clock, .draws, .queue, .present, .sources, .conds, .send .U] State.reset t)

/-- RESTART: refused BUSY in pour phase or with the feeder RUNNING, else the cold reset that power-on makes, without an
answer (R194); that it leaves the inputs' levels, the millisecond count, the draws and the queue is log entry 23. -/
def Obligations.RestartResetsOrRefuses : Prop :=
  ∀ (s : State) (e : RxEntry) (rest : List RxEntry), Heads s .U .restart e rest →
    ((pourPhase s = true ∨ s.gate.feeder = .running) →
      Takes s .U .restart e rest [] fun t =>
        Offered .U (answerFrame s e.frame [payloadCode e.frame, 1, Reason.busy.code]) s t)
    ∧ (pourPhase s = false → s.gate.feeder ≠ .running →
      (s.pins.reset = false → exec .restart s = exec .powerOn s)
        ∧ (s.pins.stop = false → exec .restart s
            = .next { State.reset with pins := s.pins, now := s.now, draws := s.draws, pending := s.pending }))

/-! ## Invariants -/

/-- FEED PERMIT stands exactly while its conditions hold (R106), and a held reset keeps the part UNCONFIGURED with its
receive queues empty (R195). -/
def Obligations.PermitStaysTrue : Prop :=
  ∀ s t : State, PermitTrue s → HeldInReset s → step s = .next t → PermitTrue t ∧ HeldInReset t

/-- LINE FAULT stands by the tally and the threshold (R174, R175). -/
def Obligations.LineFaultStaysTrue : Prop :=
  ∀ s t : State, LineFaultTrue s → step s = .next t → LineFaultTrue t

/-- The receive and transmit queues stay at most 8 frames long (R173, R181), and what a port is sending or holds queued
stays in its order, new frames joining the tail, but at the end of a sending and at a cold reset (R181, R195). -/
def Obligations.QueuesStayBounded : Prop :=
  ∀ s t : State, QueuesBounded s → step s = .next t → QueuesBounded t
    ∧ ((∀ c ∈ s.pending.head?, (∀ p, c ≠ .transmitEnd p) ∧ c ≠ .restart ∧ c ≠ .resetAsserted ∧ c ≠ .resetReleased
        ∧ c ≠ .powerOn) → SendsInOrder s t)

/-- The Flight Queue stays ordered, bounded and numbered (R25, R26). -/
def Obligations.FlightStaysOrdered : Prop :=
  ∀ s t : State, FlightOrdered s.flight → step s = .next t → FlightOrdered t.flight

/-- Held records and reservations never pass 256, every reservation has its holder, and the held records run in
unbroken sequence (R140 to R142). -/
def Obligations.BillsStaySound : Prop :=
  ∀ s t : State, BillsSound s → step s = .next t → BillsSound t

/-- The service stack's ranks rise, a source is on it exactly when IN_SERVICE, a source with record enable off is IDLE,
what is presented is the source that R129 names and qualifies, and HORN stands exactly while one is presented (R129,
R130, R133, R136). -/
def Obligations.LadderStaysSound : Prop :=
  ∀ s t : State, LadderSound s.ladder → step s = .next t → LadderSound t.ladder

/-- The injection queue stays within 4 frames and one for each destination (R182). -/
def Obligations.InjectionStaysSound : Prop :=
  ∀ s t : State, InjectionSound s → step s = .next t → InjectionSound t

/-- While a ship is OPEN the weighed total stays the sum of the accounts and the grain in flight (R36), short of the
end of the 64-bit range. -/
def Obligations.GrainIsConserved : Prop :=
  ∀ s t : State, Conserved s → ScaleInRange s → s.ship.weighed + 65534000000 < 2 ^ 64 → step s = .next t →
    Conserved t ∧ ScaleInRange t

/-- The rate limit stays floor(max rate × percentage / 100), 0 with no plan header (R95). -/
def Obligations.LimitStaysTrue : Prop :=
  ∀ s t : State, LimitTrue s → step s = .next t → LimitTrue t

/-! ## The line -/

/-- A frame's wire bytes, received from HUNT or with nothing gathered, enter the receive queue as that frame: at the
newest end, or in place of the newest entry, with status OVERRUN, when 8 are held (R169 to R173, R184). -/
def Obligations.ReceiveGoodFrame : Prop :=
  ∀ (p : PortId) (f : Frame) (s : State), f.payload.length ≤ 200 → s.pins.reset = false →
    ((s.line.port p).rx = .hunt ∨ (s.line.port p).rx = .receiving [] false) →
    ∃ t, exec (.receiveFrame p f.wire) s = .next t ∧ OnlyChanges [.recv p] s t
      ∧ (t.line.port p).rx = .receiving [] false
      ∧ (t.line.port p).rxQueue
          = (if (s.line.port p).rxQueue.length < 8 then (s.line.port p).rxQueue ++ [⟨f, .good⟩]
             else (s.line.port p).rxQueue.dropLast ++ [⟨f, .overrun⟩])
      ∧ (t.line.port p).tally = (s.line.port p).tally ∧ (t.line.port p).lineFault = (s.line.port p).lineFault

/-- The three errors of R172, each with its state after and its step of the tally (R174, R175). A step to the threshold
takes the port into LINE FAULT, with its alarm, and from port D with the trigger LINE_FAULT of a POURING or PAUSED visit
(R84, R175); any other touches the receiver and the tally alone. -/
def Obligations.ReceiveErrors : Prop :=
  ∀ (p : PortId) (s : State) (b : Byte), s.pins.reset = false →
    let x := s.line.port p
    let enters : Prop := x.lineFault = false ∧ s.handler.threshold ≤ min (x.tally + 1) 255
    let Dropped (rx : Receiver) : Prop :=
      ∃ t, exec (.receiveFrame p [b]) s = .next t ∧ OnlyChanges (closing ++ lineFaultBlocks p) s t
        ∧ (t.line.port p).rx = rx ∧ (t.line.port p).rxQueue = x.rxQueue
        ∧ (t.line.port p).tally = min (x.tally + 1) 255
        ∧ (t.line.port p).lineFault = (x.lineFault || decide (s.handler.threshold ≤ min (x.tally + 1) 255))
        ∧ Same (.recv (otherPort p)) s t
        ∧ (enters → EntersLineFault p s t) ∧ (¬ enters → OnlyChanges (closing ++ [.recv p]) s t)
    let len (g : List Byte) : Nat := (g.getD 4 0).toNat
    (∀ g, x.rx = .receiving g true → b ≠ 0x85 → b ≠ 0x8A → Dropped .hunt)
    ∧ (∀ g, x.rx = .receiving g false → g.length = 207 → b ≠ 0xC5 → b ≠ 0xCA → Dropped .hunt)
    ∧ (∀ g, x.rx = .receiving g true → g.length = 207 → (b = 0x85 ∨ b = 0x8A) → Dropped .hunt)
    ∧ (∀ g, x.rx = .receiving g false → g ≠ [] → b = 0xC5 →
        (g.length < 7 ∨ 200 < len g ∨ g.length ≠ len g + 7) → Dropped .hunt)
    ∧ (∀ g, x.rx = .receiving g false → b = 0xC5 → 7 ≤ g.length → len g ≤ 200 → g.length = len g + 7 →
        g.drop (g.length - 2) ≠ beBytes 2 (crc (g.take (g.length - 2))).toNat → Dropped (.receiving [] false))

/-- When a sending ends, the transmitter begins its next frame: port D's injection queue first (R181, R182). -/
def Obligations.TransmitEndBeginsNext : Prop :=
  ∀ (s : State) (f : Frame),
    (s.line.u.sending = some f →
      ∃ t, exec (.transmitEnd .U) s = .next t ∧ OnlyChanges [.send .U] s t
        ∧ t.line.u.sending = s.line.u.txQueue.head? ∧ t.line.u.txQueue = s.line.u.txQueue.tail)
    ∧ (s.line.d.sending = some f →
      ∃ t, exec (.transmitEnd .D) s = .next t ∧ OnlyChanges [.send .D, .injection] s t ∧ t.line.injSeq = s.line.injSeq
        ∧ (∀ x xs, s.line.injection = x :: xs →
            t.line.d.sending = some x.frame ∧ t.line.injection = xs ∧ t.line.d.txQueue = s.line.d.txQueue)
        ∧ (s.line.injection = [] →
            t.line.d.sending = s.line.d.txQueue.head? ∧ t.line.d.txQueue = s.line.d.txQueue.tail
              ∧ t.line.injection = []))

/-- The error tally starts at 0 and steps +1, to 255 at most, at an error and at the taking of a frame of status OVERRUN
or of a dropped REQUEST, and -1, to 0 at least, at the taking of any other (R174). The taking removes the frame from its
queue, and LINE FAULT follows the tally (R173, R175): the step to the threshold enters it, with its alarm and port D's
trigger (R84), and the step to 0 leaves it, its condition false, with port D's derate check (R102). These stand before
the command treats its frame, in the state that every command's own statement starts from (`takeHead`), and after it
where the command is a dropped REQUEST or a forwarded frame that is no ORDER. (An accepted RESTART resets the queue and
the tally with everything else, and a SET_OPTIONS may lower the threshold; those have their own statements.) -/
def Obligations.TakingStepsTheTally : Prop :=
  (∀ p, (State.reset.line.port p).tally = 0)
  ∧ (∀ (s : State) (p : PortId) (b : Byte), s.pins.reset = false →
      ((rxByte (s.line.port p).rx b).2 = .escapeError ∨ (rxByte (s.line.port p).rx b).2 = .lengthError
        ∨ (rxByte (s.line.port p).rx b).2 = .checkError) →
      ∃ t, exec (.receiveFrame p [b]) s = .next t
        ∧ (t.line.port p).tally = min ((s.line.port p).tally + 1) 255)
  ∧ ∀ (s : State) (p : PortId) (row : Instr) (e : RxEntry) (rest : List RxEntry), Heads s p row e rest →
    (row = .restart → pourPhase s = true ∨ s.gate.feeder = .running) →
    let x := s.line.port p
    let up : Prop := e.receipt = .overrun ∨ row = .requestDropped p
    let enters : Prop := up ∧ x.lineFault = false ∧ s.handler.threshold ≤ min (x.tally + 1) 255
    let leaves : Prop := ¬ up ∧ x.lineFault = true ∧ x.tally ≤ 1
    let moved (t : State) : Prop := (enters → EntersLineFault p s t) ∧ (leaves → LeavesLineFault p s t)
    let taken := takeHead p e rest row s
    OnlyChanges (lineFaultBlocks p) s taken ∧ (¬ enters → ¬ leaves → OnlyChanges [.recv p] s taken) ∧ moved taken
    ∧ ∃ t, exec row s = .next t ∧ (t.line.port p).rx = x.rx ∧ (t.line.port p).rxQueue = rest
      ∧ (row = .requestDropped p ∨ (row = .forwardFrame p ∧ e.frame.kind ≠ 0x21) → moved t)
      ∧ (up → (t.line.port p).tally = min (x.tally + 1) 255)
      ∧ (¬ up → (t.line.port p).tally = x.tally - 1)
      ∧ (row ≠ .setOptions → Same (.recv (otherPort p)) s t
        ∧ (x.lineFault = true → (t.line.port p).lineFault = decide ((t.line.port p).tally ≠ 0))
        ∧ (x.lineFault = false → up →
            (t.line.port p).lineFault = decide (s.handler.threshold ≤ (t.line.port p).tally))
        ∧ (x.lineFault = false → ¬ up → (t.line.port p).lineFault = false))

/-- FORWARD_FRAME puts the frame unchanged at the tail of the other port's transmit queue, or begins it at once on a free
port; at a full queue an ORDER is refused LINE_BUSY to its sender and any other frame is dropped, both sending sides
staying as they were but for the event's ALARM notice (R130, R177, R180, R181). -/
def Obligations.FrameForwarded : Prop :=
  ∀ (s : State) (p : PortId) (e : RxEntry) (rest : List RxEntry), Heads s p (.forwardFrame p) e rest →
    let s1 := takeHead p e rest (.forwardFrame p) s
    let q := otherPort p
    let x := s1.line.port q
    Takes s p (.forwardFrame p) e rest [.send .U, .send .D, .injection] fun t =>
      let y := t.line.port q
      Offered q e.frame s1 t ∧ t.line.injSeq = s1.line.injSeq
        ∧ (∀ g, x.room = true → x.sending = some g →
            y.sending = some g ∧ x.txQueue ++ [e.frame] <+: y.txQueue ∧ (q = .D → y.txQueue = x.txQueue ++ [e.frame]))
        ∧ (x.sending = none → x.txQueue = [] → (q = .D → s1.line.injection = []) → y.sending = some e.frame)
        ∧ (x.room = false → Same (.send q) s1 t)
        ∧ (x.room = false → e.frame.kind = 0x21 → Offered p (refusalFrame s e.frame .lineBusy) s1 t)
        ∧ (x.room = false → e.frame.kind ≠ 0x21 →
            Same .injection s1 t ∧ (p = .D ∨ t.ladder.presented = s1.ladder.presented → Same (.send p) s1 t))

/-- A dropped REQUEST brings about its tally's step and nothing else (R174, R177). Which frames are dropped, and the other
rows by which a frame of port D, or any frame while the part is UNCONFIGURED, becomes a command (R169, R177 to R179; a
frame with an upper address bit set while UNCONFIGURED is log entry 38, a RUN of a wrong length then log entry 13). -/
def Obligations.RequestDropped : Prop :=
  (∀ (s : State) (p : PortId) (e : RxEntry) (rest : List RxEntry), Heads s p (.requestDropped p) e rest →
    Takes s p (.requestDropped p) e rest [] fun t => (t.line.port p).rxQueue = rest)
  ∧ ∀ (s : State) (p : PortId) (f : Frame),
    let known : Prop := f.dst.toNat < 64 ∧ f.src.toNat < 64
    let own := s.handler.ownAddr
    (¬ known → inspect s p f = .forwardFrame p)
    ∧ (inspect s p f = .requestDropped p ↔ known ∧ f.kind = 0x31 ∧ (p = .D ∨ f.dst = 63))
    ∧ (known → s.ready = true →
        (f.kind = 0x22 → inspect s .D f = .reply)
        ∧ (f.kind = 0x11 →
            (∀ a b c d h, f.payload = [1, a, b, c, d, h] → h.toNat ≤ 1 → inspect s .D f = .beltSample)
            ∧ (∀ x a b c d m, f.payload = [2, x, a, b, c, d, m] → x.toNat ≤ 2 → m.toNat ≤ 1 →
                inspect s .D f = .positionSample)
            ∧ (∀ r, f.payload = [3, r] → r.toNat ≤ 2 → inspect s .D f = .holdsenseSample)
            ∧ (∀ a b h, f.payload = [4, a, b, h] → h.toNat ≤ 1 → inspect s .D f = .dustSample)
            ∧ (∀ x, f.payload = [5, x] → x.toNat ≤ 2 → inspect s .D f = .feederSample)
            ∧ (parseSample f.payload = none → inspect s .D f = .forwardFrame .D))
        ∧ (f.kind ≠ 0x31 → f.kind ≠ 0x22 → f.kind ≠ 0x11 → inspect s .D f = .forwardFrame .D))
    ∧ (known → s.ready = false →
        (f.kind = 0x22 → f.dst = own → inspect s .D f = .reply)
        ∧ (f.kind = 0x21 → f.payload.head? = some 1 → inspect s .U f = .run)
        ∧ (f.kind = 0x31 → f.dst ≠ 63 → f.dst ≠ own → inspect s .U f = .forwardFrame .U)
        ∧ (f.kind ≠ 0x31 → ¬ (p = .D ∧ f.kind = 0x22 ∧ f.dst = own) →
            ¬ (p = .U ∧ f.kind = 0x21 ∧ f.payload.head? = some 1) →
            ¬ (p = .U ∧ f.kind = 0x21 ∧ f.dst = 63 ∧ ∃ b fs, f.payload = 3 :: b :: fs) → inspect s p f = .forwardFrame p)
        ∧ (∀ b fs, f.kind = 0x21 → f.dst = 63 → f.payload = 3 :: b :: fs → inspect s .U f = .badFrame))

/-- A REQUEST of unknown code, a malformed frame and an ORDER to the global address that is no STOP are refused to their
sender with R180's frame and change nothing else (R177, R179, R180). Which frames of port U these are, and which are a
request or an order of a block, by destination, code and length (R177 to R179, R186). -/
def Obligations.BadFramesRefused : Prop :=
  (∀ (s : State) (row : Instr) (r : Reason) (e : RxEntry) (rest : List RxEntry),
    (row = .badRequest ∧ r = .badRequest) ∨ (row = .badFrame ∧ r = .badFrame)
      ∨ (row = .badDestination ∧ r = .badDestination) →
    Heads s .U row e rest →
    Takes s .U row e rest [] fun t =>
      Offered .U { dst := e.frame.src, src := s.handler.ownAddr, kind := 0x23, seq := e.frame.seq,
                   payload := [e.frame.kind, payloadCode e.frame, r.code] } s t)
  ∧ ∀ (s : State) (f : Frame), f.dst.toNat < 64 → f.src.toNat < 64 →
    let own := s.handler.ownAddr
    let row := inspect s .U f
    let requests : List (Byte × Nat × Instr) :=
      [(2, 2, .read), (3, 1, .status), (4, 5, .setOptions), (5, 2, .openShip), (6, 0, .closeShip), (7, 3, .startPlan),
       (8, 0, .haltPlan), (9, 0, .resumePlan), (10, 0, .skipSlot), (11, 0, .zeroBelt), (12, 0, .zeroAbort),
       (13, 5, .sweep), (14, 1, .ackAlarm), (15, 1, .doneAlarm), (16, 5, .setAlarm), (17, 5, .readRecords),
       (18, 4, .takeRecords), (19, 0, .restart)]
    let orders : List (Byte × Nat) := [(1, 2), (2, 2), (3, 0), (4, 5), (5, 1)]
    (f.kind = 0x31 → f.dst ≠ 63 → f.dst = own →
      (f.payload = [] → row = .badFrame)
      ∧ ∀ c fs, f.payload = c :: fs →
        (c = 0 ∨ 19 < c.toNat → row = .badRequest)
        ∧ (c = 1 → row = if loadHeaderFails fs || loadLengthHolds fs then .load else .badFrame)
        ∧ ∀ x ∈ requests, c = x.1 → row = if fs.length = x.2.1 then x.2.2 else .badFrame)
    ∧ (s.ready = true → f.kind = 0x31 → f.dst ≠ 63 → f.dst ≠ own → row = .forwardFrame .U)
    ∧ (s.ready = true → f.kind = 0x21 → f.dst = 63 →
      (f.payload = [3] → row = .stop) ∧ (∀ b fs, f.payload = 3 :: b :: fs → row = .badFrame)
        ∧ (f.payload.head? ≠ some 3 → row = .badDestination))
    ∧ (∀ c fs n, s.ready = true → f.kind = 0x21 → f.dst ≠ 63 → f.payload = c :: fs → (c, n) ∈ orders →
      (s.station .feeder = some f.dst →
        row = if fs.length ≠ n then .badFrame
          else if c = 1 then .run else if c = 2 then .rate else if c = 3 then .stop else .forwardFrame .U)
      ∧ (s.station .feeder ≠ some f.dst → (∃ a : Axis, s.station a.role = some f.dst) →
        row = if fs.length ≠ n then .badFrame
          else if c = 4 then .move else if c = 5 then .halt else .forwardFrame .U))
    ∧ (s.ready = true → f.kind = 0x21 → f.dst ≠ 63 →
        (s.station .feeder = some f.dst ∨ ∃ a : Axis, s.station a.role = some f.dst) →
      (f.payload = [] → row = .badFrame)
        ∧ ∀ c fs, f.payload = c :: fs → c = 0 ∨ 5 < c.toNat → row = .forwardFrame .U)
    ∧ (s.ready = true → f.kind = 0x21 → f.dst ≠ 63 → s.station .feeder ≠ some f.dst →
        (∀ a : Axis, s.station a.role ≠ some f.dst) → row = .forwardFrame .U)
    ∧ (s.ready = true → f.kind ≠ 0x31 → f.kind ≠ 0x21 → row = .forwardFrame .U)

/-! ## Belt Meter and Flight Queue -/

/-- The arithmetic of one sample: the net load is d × S / 256 rounded half away from zero (R9), clamped to the capacity
with its sign (R10), and accepted from the dead band up, its negative excess going to the drift total (R11). -/
def Obligations.NetLoadArithmetic : Prop :=
  ∀ (d : Int) (span capacity deadBand t : Nat),
    (netLoad d span).natAbs = (d.natAbs * span + 128) / 256
      ∧ (0 ≤ d → 0 ≤ netLoad d span) ∧ (d ≤ 0 → netLoad d span ≤ 0)
      ∧ ∀ n : Int,
        (n.natAbs ≤ capacity → clampLoad n capacity = n)
          ∧ ((capacity : Int) < n → clampLoad n capacity = capacity)
          ∧ (n < -(capacity : Int) → clampLoad n capacity = -(capacity : Int))
          ∧ (0 ≤ n → (deadBand : Int) ≤ n → (acceptedLoad n deadBand : Int) = n)
          ∧ (n < deadBand → acceptedLoad n deadBand = 0)
          ∧ (n ≤ -(deadBand : Int) → driftMass n deadBand t = n.natAbs * t)
          ∧ (-(deadBand : Int) < n → driftMass n deadBand t = 0)

/-- A normal sample with head status OK (R4, R7, R9 to R14, R16, R17, R20 to R23): the increment enters the weighed or the
unassigned total, the extended position advances by the travel (past the end of a 64-bit or 48-bit range the value is
free: log entries 4 and 5), the drift total and ZERO_DRIFT follow the negative excess, the clearing run counts, a running
ZERO operation collects the sample or ends LOADED, ZEROED or REJECTED with its record and its ZERO_DONE notice, the sample
becomes the previous one, and it is forwarded. The third sample of the clearing run makes METER_FAULT's condition false. -/
def Obligations.BeltNormalSample : Prop :=
  ∀ (s : State) (e : RxEntry) (rest : List RxEntry) (load : Int) (pos p : BitVec 16) (q : Byte) (sc : ScaleTable),
    Heads s .D .beltSample e rest → parseSample e.frame.payload = some (.belt load pos true) →
    s.station .scale = some e.frame.src → s.meter.table = some sc → s.meter.prev = some (p, q) →
    (pos - p).toNat ≤ sc.gapLimit → (pos - p).toNat < 32768 →
    let travel := (pos - p).toNat
    let n := clampLoad (netLoad (load - s.meter.offset) sc.span) sc.capacity
    let m := acceptedLoad n sc.deadBand * travel
    let d := if n ≤ -(sc.deadBand : Int) then n.natAbs * travel else 0
    let drift := if 0 < d then addMass s.meter.drift d else s.meter.drift
    let x := s.ladder.sources[srcZeroDrift]
    Takes s .D .beltSample e rest (.prev :: .silence :: beltBlocks) fun t =>
      t.ship.weighed = (if s.ship.state = .open then addMass s.ship.weighed m else s.ship.weighed)
        ∧ t.ship.unassigned = (if s.ship.state = .open then s.ship.unassigned else addMass s.ship.unassigned m)
        ∧ t.meter.belt = addBelt s.meter.belt travel
        ∧ t.meter.prev = some (pos, e.frame.seq) ∧ t.meter.silence = some (s.now + sc.scaleSilence)
        ∧ t.meter.fault = (s.meter.fault && decide (s.meter.clearing + 1 < 3))
        ∧ t.meter.clearing = (if s.meter.fault then (if s.meter.clearing + 1 < 3 then s.meter.clearing + 1 else 0)
            else s.meter.clearing)
        ∧ t.ladder.sources[srcMeterFault] = (let x := s.ladder.sources[srcMeterFault]
            if s.meter.fault = true ∧ 2 ≤ s.meter.clearing then x.withCond false else x)
        ∧ Offered .U e.frame (takeBelt e.frame.seq load pos true (takeHead .D e rest .beltSample s)) t
        ∧ (s.meter.zero = none → t.meter.zero = none ∧ t.meter.offset = s.meter.offset ∧ t.meter.drift = drift
          ∧ (d = 0 → t.ladder.sources[srcZeroDrift] = x)
          ∧ (0 < d → drift ≤ sc.driftLimit * 1000000 → t.ladder.sources[srcZeroDrift] = x.withCond false)
          ∧ (0 < d → sc.driftLimit * 1000000 < drift → t.ladder.sources[srcZeroDrift]
              = if x.cond then x.withCond true else (x.withCond true).raised))
        ∧ ∀ z, s.meter.zero = some z →
          let w := z.travel + travel
          let l := z.loadTravel + load * travel
          let new : Int := l.sign * (((2 * l.natAbs + w) / (2 * w) : Nat) : Int)
          let bare : Prop := (load - s.meter.offset).natAbs * sc.span < 1024 * sc.deadBand
          let ended (o : ZeroOutcome) (recorded : Int) (collected : Nat) : Prop := t.meter.zero = none
            ∧ t.bills.records.getLast? = some ⟨t.bills.nextSeq - 1, .zero z.oldOffset recorded o collected⟩
            ∧ ((takeHead .D e rest .beltSample s).line.u.txQueue.length < 6 →
                OnWire .U (zeroDone s o (t.bills.nextSeq - 1)) t)
          let kept : Prop := t.meter.offset = s.meter.offset ∧ t.meter.drift = drift
          (¬ bare → ended .loaded s.meter.offset z.travel ∧ kept)
          ∧ (bare → w < sc.beltLength → t.meter.zero = some { z with travel := w, loadTravel := l } ∧ kept)
          ∧ (bare → sc.beltLength ≤ w → (new - s.meter.offset).natAbs ≤ sc.zeroShiftLimit →
              ended .zeroed new w ∧ t.meter.offset = new ∧ t.meter.drift = 0
                ∧ (t.ladder.sources[srcZeroDrift]).cond = false)
          ∧ (bare → sc.beltLength ≤ w → sc.zeroShiftLimit < (new - s.meter.offset).natAbs →
              ended .rejected new w ∧ kept)

/-- A first sample and a reverse sample integrate nothing and do not move the belt (the blocks they may change name no
total, no position and no segment); head status FAULT sets METER FAULT with all that this brings (R4, R5, R8, R15, R16,
R22, R84). A reverse sample raises BELT_REVERSE, its condition true, and a first one makes it false (R4, R5). The sample is
forwarded (R3). -/
def Obligations.BeltFirstAndReverseSamples : Prop :=
  ∀ (s : State) (e : RxEntry) (rest : List RxEntry) (load : Int) (pos : BitVec 16) (ok : Bool) (sc : ScaleTable),
    Heads s .D .beltSample e rest → parseSample e.frame.payload = some (.belt load pos ok) →
    s.station .scale = some e.frame.src → s.meter.table = some sc →
    (s.meter.prev = none ∨ ∃ p q, s.meter.prev = some (p, q) ∧ 32768 ≤ (pos - p).toNat) →
    Takes s .D .beltSample e rest (.prev :: .silence :: faultBlocks) fun t =>
      t.meter.prev = some (pos, e.frame.seq) ∧ t.meter.silence = some (s.now + sc.scaleSilence)
        ∧ t.meter.fault = (s.meter.fault || !ok)
        ∧ t.meter.clearing = (if ok ∧ s.meter.prev = none then s.meter.clearing else 0)
        ∧ (let x := s.ladder.sources[srcBeltReverse]
          t.ladder.sources[srcBeltReverse]
            = if s.meter.prev.isSome then (x.withCond true).raised else x.withCond false)
        ∧ (ok = false → FaultSet (takeHead .D e rest .beltSample s) t)
        ∧ (ok = true → t.meter.zero = s.meter.zero
            ∧ t.seq.visit = (takeHead .D e rest .beltSample s).seq.visit
            ∧ t.ladder.sources[srcMeterFault] = s.ladder.sources[srcMeterFault])
        ∧ Offered .U e.frame (takeBelt e.frame.seq load pos ok (takeHead .D e rest .beltSample s)) t

/-- A position-lost sample, and one with head status FAULT that is not first or reverse, advance the belt (past 48 bits
the value is free: log entry 5), integrate nothing, set METER FAULT, raise METER_FAULT with its condition true, and end a
running zero FAULTED with its record and notice (R6, R8, R13, R15, R22, R23; one raise where both hold is log entry 39).
Where no segment is due, the fault that was clear goes on to a POURING or PAUSED visit as its trigger (R84, R85); the
trigger after deliveries is stated with them. The sample is forwarded (R3). -/
def Obligations.BeltLostOrFaultSample : Prop :=
  ∀ (s : State) (e : RxEntry) (rest : List RxEntry) (load : Int) (pos p : BitVec 16) (q : Byte) (ok : Bool)
    (sc : ScaleTable),
    Heads s .D .beltSample e rest → parseSample e.frame.payload = some (.belt load pos ok) →
    s.station .scale = some e.frame.src → s.meter.table = some sc → s.meter.prev = some (p, q) →
    (pos - p).toNat < 32768 → (sc.gapLimit < (pos - p).toNat ∨ ok = false) →
    Takes s .D .beltSample e rest (.prev :: .silence :: .belt :: .fault :: .zero :: arrivalBlocks) fun t =>
      t.meter.belt = addBelt s.meter.belt (pos - p).toNat ∧ t.meter.fault = true ∧ t.meter.clearing = 0
        ∧ t.meter.zero = none ∧ t.meter.prev = some (pos, e.frame.seq)
        ∧ t.meter.silence = some (s.now + sc.scaleSilence)
        ∧ t.ladder.sources[srcMeterFault] = ((s.ladder.sources[srcMeterFault]).withCond true).raised
        ∧ (let s1 := takeHead .D e rest .beltSample s
          let E := addBelt s.meter.belt (pos - p).toNat
          ((∀ g ∈ s.flight.segments, E < g.arrival) → FaultSet { s1 with meter := { s1.meter with belt := E } } t)
          ∧ ∀ z, s.meter.zero = some z → t.meter.offset = s.meter.offset ∧ t.meter.drift = s.meter.drift
            ∧ ∃ q, ⟨q, .zero z.oldOffset s.meter.offset .faulted z.travel⟩ ∈ t.bills.records
              ∧ (s1.line.u.txQueue.length < 6 → OnWire .U (zeroDone s .faulted q) t))
        ∧ Offered .U e.frame (takeBelt e.frame.seq load pos ok (takeHead .D e rest .beltSample s)) t

/-- An increment m greater than 0 that meets no due segment is taken whole by one of three paths (R27 to R30): it joins
the tail, opens a segment, or is merged into the tail of a queue of 64. The projections of a POURING or PAUSED visit are
then checked, and the first that is met is taken (R83, R85). An increment of a sample that also delivers is stated with
the deliveries. -/
def Obligations.IncrementTakesOnePath : Prop :=
  ∀ (s : State) (e : RxEntry) (rest : List RxEntry) (load : Int) (pos p : BitVec 16) (q : Byte) (sc : ScaleTable),
    Heads s .D .beltSample e rest → parseSample e.frame.payload = some (.belt load pos true) →
    s.station .scale = some e.frame.src → s.meter.table = some sc → s.meter.prev = some (p, q) →
    (pos - p).toNat ≤ sc.gapLimit → (pos - p).toNat < 32768 →
    let n := netLoad (load - s.meter.offset) sc.span
    let m := acceptedLoad (clampLoad n sc.capacity) sc.deadBand * (pos - p).toNat
    let E := s.meter.belt + (pos - p).toNat
    let transit := sc.transitBase + s.place.axes.chute.pos.getD 0 * sc.chuteFactor / 256
    let overNow := decide (sc.capacity < n.natAbs)
    let gapNow := e.frame.seq != q + 1
    0 < m → E < 2 ^ 48 → 1 ≤ sc.transitBase → (∀ g ∈ s.flight.segments, E < g.arrival) →
    let joins (g : Segment) : Prop :=
      E - g.opened < sc.segmentLength ∧ g.coarse = false ∧ g.overload = overNow ∧ g.gapBridged = gapNow
        ∧ transit = g.transit ∧ g.shipTag = s.ship.tag
    let opened (arrival : Nat) : Segment :=
      { number := s.flight.nextNumber, shipTag := s.ship.tag, opened := E, transit := transit, arrival := arrival,
        mass := m, samples := 1, overload := overNow, gapBridged := gapNow, coarse := false }
    let s1 := takeHead .D e rest .beltSample s
    Takes s .D .beltSample e rest (.prev :: .silence :: beltBlocks) fun t =>
      (∀ v, s1.seq.visit = some v →
        let u : State := { s1 with flight := t.flight }
        let checked : Prop := v.state = .pouring ∨ v.state = .paused
        (¬ checked ∨ projection u v = none → t.seq.visit = some v)
          ∧ ∀ r, checked → projection u v = some r → Triggered v r u t)
      ∧ (s.flight.segments = [] →
        t.flight = { segments := [opened (E + transit)], nextNumber := s.flight.nextNumber + 1 })
      ∧ ∀ gs g, s.flight.segments = gs ++ [g] →
        (joins g → t.flight = { s.flight with
          segments := gs ++ [{ g with mass := g.mass + m, samples := min (g.samples + 1) 65535 }] })
        ∧ (¬ joins g → gs.length + 1 < 64 → t.flight =
            { segments := gs ++ [g, opened (max g.arrival (E + transit))], nextNumber := s.flight.nextNumber + 1 })
        ∧ (¬ joins g → 64 ≤ gs.length + 1 → t.flight = { s.flight with
            segments := gs ++ [{ g with mass := g.mass + m, samples := min (g.samples + 1) 65535,
                                        overload := g.overload || overNow, gapBridged := g.gapBridged || gapNow,
                                        coarse := true }] }
          ∧ (t.ladder.sources[srcSegmentCoarse]).cond = true)

/-- A sample that moves the belt, its increment m taken first (R13, R27 to R30; m is 0 in a position-lost or faulted
sample and in the dead band): every segment whose arrival position the belt has passed leaves the queue as it then
stands, head first, and its mass goes to the account of the pour point, or to no account when its tag is 0 (R31, R32,
R35). Past the end of an account's 64-bit or the belt position's 48-bit range the value is free (log entries 4 and 5).
Each delivery raises its alarm (R33) and ends SEGMENT_COARSE's condition with the last COARSE segment (R30); it is added
to the open visit (R34, R80) or sets the unbilled mark (R150). The projections are then checked (R83, R85), and where
none is met a METER FAULT that the sample sets is the trigger (R15, R84); the delivery that empties the queue completes
a DRAINING visit (R35, R86, R87) and releases a held move (R54). -/
def Obligations.DeliveryFromTheHead : Prop :=
  ∀ (s : State) (e : RxEntry) (rest : List RxEntry) (load : Int) (pos p : BitVec 16) (q : Byte) (ok : Bool)
    (sc : ScaleTable),
    Heads s .D .beltSample e rest → parseSample e.frame.payload = some (.belt load pos ok) →
    s.station .scale = some e.frame.src → s.meter.table = some sc → s.meter.prev = some (p, q) →
    (pos - p).toNat < 32768 →
    let travel := (pos - p).toNat
    let n := netLoad (load - s.meter.offset) sc.span
    let m := if travel ≤ sc.gapLimit ∧ ok = true then acceptedLoad (clampLoad n sc.capacity) sc.deadBand * travel else 0
    let E := addBelt s.meter.belt travel
    let transit := sc.transitBase + s.place.axes.chute.pos.getD 0 * sc.chuteFactor / 256
    let overNow := decide (sc.capacity < n.natAbs)
    let gapNow := e.frame.seq != q + 1
    -- the queue with the increment, by R28, R29 or R30
    let segs := s.flight.segments
    let tail := segs.getLast?
    let joins : Bool := tail.any fun g =>
      decide (E - g.opened < sc.segmentLength ∧ E < g.arrival ∧ g.coarse = false ∧ g.overload = overNow
        ∧ g.gapBridged = gapNow ∧ transit = g.transit ∧ g.shipTag = s.ship.tag)
    let opens : Bool := !joins && decide (segs.length < 64)
    let merges : Bool := !joins && !opens
    let opened : Segment :=
      { number := s.flight.nextNumber, shipTag := s.ship.tag, opened := E, transit := transit,
        arrival := max (tail.elim 0 (·.arrival)) (E + transit), mass := m, samples := 1, overload := overNow,
        gapBridged := gapNow, coarse := false }
    let grown (g : Segment) : Segment :=
      { g with mass := g.mass + m, samples := min (g.samples + 1) 65535, overload := g.overload || merges && overNow
               gapBridged := g.gapBridged || merges && gapNow, coarse := g.coarse || merges }
    let fed := if m = 0 then segs else if opens then segs ++ [opened] else segs.dropLast ++ (tail.map grown).toList
    let due (g : Segment) : Bool := decide (g.arrival ≤ E)
    let credit (v : Vector Nat 13) (g : Segment) : Vector Nat 13 :=
      if g.shipTag = 0 then v else v.set s.place.pourPoint.val (addMass v[s.place.pourPoint] g.mass)
    let s1 := takeHead .D e rest .beltSample s
    let gone := fed.takeWhile due
    let left := fed.dropWhile due
    let pour := s.place.pourPoint
    let added (v : Visit) (g : Segment) : Visit :=
      if g.shipTag = 0 then v
      else { v with poured := v.poured + g.mass, changed := v.changed.set pour.val true,
                    flags := { v.flags with coarse := v.flags.coarse || g.coarse
                                            gapBridged := v.flags.gapBridged || g.gapBridged
                                            overload := v.flags.overload || g.overload } }
    let astray : Bool := s1.seq.visit.any fun v => holdAccount v.hold != pour
    let raises (b : Segment → Bool) (x : Source) : Source := gone.foldl (fun x g => if b g then x.raised else x) x
    let coarse := s1.ladder.sources[srcSegmentCoarse]
    let coarse' := if 0 < m ∧ merges = true then (coarse.withCond true).raised else coarse
    let u : State :=
      { s1 with flight := { s1.flight with segments := left }, meter := { s1.meter with belt := E }
                ship := { s1.ship with accounts := gone.foldl credit s1.ship.accounts } }
    Takes s .D .beltSample e rest (.prev :: .silence :: beltBlocks) fun t =>
      t.flight.segments = left
        ∧ t.flight.nextNumber = s.flight.nextNumber + (if 0 < m ∧ opens = true then 1 else 0)
        ∧ t.ship.accounts = gone.foldl credit s.ship.accounts
        ∧ t.ladder.sources[srcStrayMass] = raises (fun g => g.shipTag == 0) s1.ladder.sources[srcStrayMass]
        ∧ t.ladder.sources[srcUnplacedPour]
            = raises (fun g => g.shipTag != 0 && pour == unplaced) s1.ladder.sources[srcUnplacedPour]
        ∧ t.ladder.sources[srcSegmentCoarse]
            = (if gone.any (·.coarse) && !left.any (·.coarse) then coarse'.withCond false else coarse')
        ∧ (s1.seq.visit = none → t.seq.visit = none
            ∧ t.bills.unbilled = (s1.bills.unbilled || gone.any fun g => g.shipTag != 0))
        ∧ ((∀ g ∈ s.flight.segments, 0 < g.mass) →
          t.ladder.sources[srcOffPlan]
              = raises (fun g => g.shipTag != 0 && pour != unplaced && astray) s1.ladder.sources[srcOffPlan]
          ∧ (∀ v, s1.seq.visit = some v →
            let w := gone.foldl added v
            let checked : Prop := v.state = .pouring ∨ v.state = .paused
            (¬ checked → v.state ≠ .draining ∨ left ≠ [] ∨ gone = [] → t.seq.visit = some w)
            ∧ (checked → (gone = [] ∧ m = 0) ∨ projection u w = none →
                (sc.gapLimit < travel ∨ ok = false → s1.meter.fault = true) → t.seq.visit = some w)
            ∧ (∀ r, checked → gone ≠ [] ∨ 0 < m → projection u w = some r → Triggered w r u t)
            ∧ (checked → (gone = [] ∧ m = 0) ∨ projection u w = none → sc.gapLimit < travel ∨ ok = false →
                s1.meter.fault = false → Triggered w .meterFault u t)
            ∧ (v.state = .draining → left = [] → gone ≠ [] → s.meter.zero = none → Completes w u t))
          ∧ ∀ h, s1.place.held = some h → gone ≠ [] → left = [] → s1.gate.feeder ≠ .running →
              (∀ v, s1.seq.visit = some v → v.state = .waiting ∨ v.state = .armed ∨ v.state = .draining) →
              t.place.held = none ∧ ((s1.line.port .D).room = true → OnWire .D h.frame t))

/-- A sample from another address than the one of its role is forwarded and taken by no one: BELT (R3), POSITION of an
axis (R42), HOLDSENSE (R43), DUST of no sensor that is loaded and enabled (R112), FEEDER (R90). -/
def Obligations.StrayBeltSampleForwarded : Prop :=
  ∀ (s : State) (e : RxEntry) (rest : List RxEntry),
    let passed (row : Instr) : Prop :=
      Takes s .D row e rest [.send .U] fun t => Offered .U e.frame (takeHead .D e rest row s) t
    (Heads s .D .beltSample e rest → s.station .scale ≠ some e.frame.src → passed .beltSample)
    ∧ (∀ (a : Axis) (pos : Nat) (m : Motion), Heads s .D .positionSample e rest →
        parseSample e.frame.payload = some (.position a pos m) → s.station a.role ≠ some e.frame.src →
        passed .positionSample)
    ∧ (Heads s .D .holdsenseSample e rest → s.station .holdsense ≠ some e.frame.src → passed .holdsenseSample)
    ∧ (Heads s .D .dustSample e rest →
        (∀ (i : SensorNo) (en : SensorEntry), s.station (.dust i) = some e.frame.src →
          (s.dust.sensors[i]).entry = some en → en.enabled = false) → passed .dustSample)
    ∧ (Heads s .D .feederSample e rest → s.station .feeder ≠ some e.frame.src → passed .feederSample)

/-! ## Placement Unit -/

/-- A taken POSITION sample records the axis, and a taken HOLDSENSE sample the result; both leave the placement state
and the pour point that R45 to R47 give, touch no table of the unit, and are forwarded (R42, R43). The visit passes
between WAITING and ARMED, or takes the UNPLACED trigger, as the spout comes to its hold or leaves it (R79, R84); a
running sweep is cancelled when the spout leaves PLACED, and a POSITION sample that shows its step's target reached
ends it or begins its next step (R57, R58, R60, R62). -/
def Obligations.PlacementSamplesTaken : Prop :=
  ∀ (s : State) (e : RxEntry) (rest : List RxEntry),
    let before := s.place.state
    let passage (s1 t : State) : Prop := ∀ v, s1.seq.visit = some v →
      let after := t.place.state
      (after = .placed v.hold → t.seq.visit = some
          (if before ≠ .placed v.hold ∧ v.state = .waiting then { v with state := .armed } else v))
      ∧ (before ≠ .placed v.hold → after ≠ .placed v.hold → t.seq.visit = some v)
      ∧ (before = .placed v.hold → after ≠ .placed v.hold →
          (v.state = .armed → t.seq.visit = some { v with state := .waiting })
          ∧ (v.state = .paused → 0 < s.flight.total →
              t.seq.visit = some { v with state := .draining, endReason := some .unplaced })
          ∧ (v.state = .pouring → s1.gate.injFeeder = none → s1.line.d.lineFault = false → s.station .feeder ≠ none →
              t.seq.visit = some { v with state := .closing, endReason := some .unplaced })
          ∧ (v.state = .waiting ∨ v.state = .closing ∨ v.state = .draining → t.seq.visit = some v))
    let leaves (t : State) : Prop := (∃ h, before = .placed h) ∧ ∀ h, t.place.state ≠ .placed h
    let cancelled (t : State) : Prop := ∀ w, s.place.sweep = some w → leaves t →
      t.place.sweep = none ∧ t.gate.entry (.drive w.axis) = none
    (∀ (a : Axis) (pos : Nat) (m : Motion), Heads s .D .positionSample e rest →
      parseSample e.frame.payload = some (.position a pos m) → s.station a.role = some e.frame.src →
      let s1 := takeHead .D e rest .positionSample s
      let after : Placement := { s.place with axes := s.place.axes.put a { pos := some pos, motion := some m } }
      Takes s .D .positionSample e rest placementBlocks fun t =>
        t.place.axes = after.axes ∧ t.place.sense = s.place.sense
          ∧ t.place.state = nextPlace s.place.travel s.place.state (candidate after)
          ∧ t.place.pourPoint = pourPointOf t.place.state s.handler.leave
          ∧ Offered .U e.frame (takePosition a pos m s1) t ∧ passage s1 t ∧ cancelled t
          ∧ ∀ w, s.place.sweep = some w → ¬ leaves t →
            let arrived : Prop := w.phase = .awaitingPosition ∧ a = axisOf w.axis ∧ m = .still ∧ pos ≤ w.target + 50
              ∧ w.target ≤ pos + 50
            (¬ arrived → t.place.sweep = some w)
            ∧ (arrived → w.clipped = true ∨ w.remaining ≤ 1 → t.place.sweep = none
              ∧ Offered .U { dst := 0, src := s.handler.ownAddr, kind := 0x41, seq := 0,
                             payload := [5, if w.clipped then 2 else 1, a.code, byteOf (w.done + 1)] } s1 t)
            ∧ ∀ en addr, arrived → w.clipped = false → 1 < w.remaining → pourPhase s1 = false →
              s.place.envelopes[w.hold] = some en → s1.gate.entry (.drive w.axis) = none → s1.line.d.lineFault = false →
              s.station a.role = some addr →
              let low := max (en.innerLow w.axis) (s.place.travel.limits a).low
              let high := min (en.innerHigh w.axis) (s.place.travel.limits a).high
              let x : Int := if w.plus then (pos : Int) + w.step else (pos : Int) - w.step
              let target : Nat := (max (low : Int) (min (high : Int) x)).toNat
              low ≤ high →
              t.place.sweep = some { w with done := w.done + 1, remaining := w.remaining - 1,
                                            clipped := decide ((target : Int) ≠ x), target := target,
                                            phase := .awaitingReply,
                                            timer := s.now + s.place.travel.stepTimeout * 1000 }
                ∧ Injects (.drive w.axis) .move addr (4 :: a.code :: beBytes 4 target) s1 t)
    ∧ (∀ r : SenseResult, Heads s .D .holdsenseSample e rest →
      parseSample e.frame.payload = some (.holdsense r) → s.station .holdsense = some e.frame.src →
      let s1 := takeHead .D e rest .holdsenseSample s
      Takes s .D .holdsenseSample e rest placementBlocks fun t =>
        t.place.sense = some r ∧ t.place.axes = s.place.axes
          ∧ t.place.state
              = nextPlace s.place.travel s.place.state (candidate { s.place with sense := some r })
          ∧ t.place.pourPoint = pourPointOf t.place.state s.handler.leave
          ∧ Offered .U e.frame (takeSense r s1) t ∧ passage s1 t ∧ cancelled t
          ∧ ∀ w, s.place.sweep = some w → ¬ leaves t → t.place.sweep = some w)

/-- The moves of the placement state (R46) and the pour points (R47), with settle count and leave count as the table
gives them. -/
def Obligations.PlacementStates : Prop :=
  ∀ (t : TravelTable) (h h' : Hold) (n : Nat), h' ≠ h →
    (1 < t.settleCount → nextPlace t .clear (some h) = .settling h 1)
    ∧ (t.settleCount = 1 → nextPlace t .clear (some h) = .placed h)
    ∧ nextPlace t .clear none = .clear
    ∧ (n + 1 < t.settleCount → nextPlace t (.settling h n) (some h) = .settling h (n + 1))
    ∧ (t.settleCount ≤ n + 1 → nextPlace t (.settling h n) (some h) = .placed h)
    ∧ (1 < t.settleCount → nextPlace t (.settling h n) (some h') = .settling h' 1)
    ∧ (t.settleCount = 1 → nextPlace t (.settling h n) (some h') = .placed h')
    ∧ nextPlace t (.settling h n) none = .clear
    ∧ nextPlace t (.placed h) (some h) = .placed h
    ∧ (1 < t.leaveCount → nextPlace t (.placed h) (some h') = .leaving h 1 ∧ nextPlace t (.placed h) none = .leaving h 1)
    ∧ (t.leaveCount = 1 → nextPlace t (.placed h) (some h') = .clear ∧ nextPlace t (.placed h) none = .clear)
    ∧ nextPlace t (.leaving h n) (some h) = .placed h
    ∧ (n + 1 < t.leaveCount → nextPlace t (.leaving h n) (some h') = .leaving h (n + 1)
        ∧ nextPlace t (.leaving h n) none = .leaving h (n + 1))
    ∧ (t.leaveCount ≤ n + 1 → nextPlace t (.leaving h n) (some h') = .clear ∧ nextPlace t (.leaving h n) none = .clear)
    ∧ pourPointOf .clear .early = unplaced ∧ pourPointOf (.settling h n) .early = unplaced
    ∧ pourPointOf .clear .late = unplaced ∧ pourPointOf (.settling h n) .late = unplaced
    ∧ pourPointOf (.placed h) .early = holdAccount h ∧ pourPointOf (.placed h) .late = holdAccount h
    ∧ pourPointOf (.leaving h n) .early = unplaced ∧ pourPointOf (.leaving h n) .late = holdAccount h

/-! ## Dust Monitor -/

/-- A taken DUST sample (R112 to R119): with head status OK the average, its band, the trip run count and the latch move
and the sensor is heard; a latch that the sample does not set is released when its source is neither PENDING nor
IN_SERVICE and the average is low enough (R117). With FAULT only the silent flag is set. DUST_HIGH_i, DUST_TRIP_i and
SENSOR_SILENT_i are raised with their condition flags (R115, R116, R118, R119). The silence timer restarts, the other
sensors stay, and the sample is forwarded. The bands are formed again: an overall band that changes recomputes the rate
limit with its derate check (R95, R102, R121), and one that becomes TRIP triggers the visit (R84, R121). The average
band's rows (R114), a sensor's effective band (R120), the overall band (R121) and SPRAY (R123). -/
def Obligations.DustSampleTaken : Prop :=
  (∀ (s : State) (e : RxEntry) (rest : List RxEntry) (i : SensorNo) (c : Nat) (ok : Bool) (en : SensorEntry),
    Heads s .D .dustSample e rest → parseSample e.frame.payload = some (.dust c ok) →
    s.sensorAt e.frame.src = some i → (s.dust.sensors[i]).entry = some en → en.enabled = true →
    let x := s.dust.sensors[i]
    let a16 := x.a16 + (16 * (c : Int) - x.a16) / (2 ^ en.shift : Nat)
    let run := if en.trip ≤ c then min (x.run + 1) en.tripRun else 0
    let band := nextAvgBand en x.avgBand (a16 / 16)
    let s1 := takeHead .D e rest .dustSample s
    let high := (s1.ladder.sources[srcDustHigh i]).withCond (band == .high)
    let trip := s1.ladder.sources[srcDustTrip i]
    let silent := s1.ladder.sources[srcSensorSilent i]
    let released : Prop := trip.state ≠ .pending ∧ trip.state ≠ .inService ∧ a16 / 16 < (en.high : Int) - en.hysteresis
    Takes s .D .dustSample e rest dustBlocks fun t =>
      let y := t.dust.sensors[i]
      (∀ j : SensorNo, j ≠ i → t.dust.sensors[j] = s.dust.sensors[j]) ∧ y.entry = some en
        ∧ y.timer = some (s.now + en.silenceTime)
        ∧ (ok = true → y.a16 = a16 ∧ y.avgBand = band ∧ y.run = run ∧ y.silent = false
            ∧ t.ladder.sources[srcDustHigh i] = (if x.avgBand ≠ .high ∧ band = .high then high.raised else high)
            ∧ t.ladder.sources[srcSensorSilent i] = silent.withCond false
            ∧ (run = en.tripRun → y.latch = true ∧ t.ladder.sources[srcDustTrip i] = (trip.withCond true).raised)
            ∧ (run ≠ en.tripRun → x.latch = false → y.latch = false ∧ t.ladder.sources[srcDustTrip i] = trip)
            ∧ (run ≠ en.tripRun → x.latch = true →
              (released → y.latch = false ∧ t.ladder.sources[srcDustTrip i] = trip.withCond false)
              ∧ (¬ released → y.latch = true ∧ t.ladder.sources[srcDustTrip i] = trip)))
        ∧ (ok = false → y.a16 = x.a16 ∧ y.avgBand = x.avgBand ∧ y.run = x.run ∧ y.latch = x.latch ∧ y.silent = true
            ∧ t.ladder.sources[srcDustHigh i] = s1.ladder.sources[srcDustHigh i]
            ∧ t.ladder.sources[srcDustTrip i] = trip
            ∧ t.ladder.sources[srcSensorSilent i]
                = if x.silent then silent.withCond true else (silent.withCond true).raised)
        ∧ BandsFormed s1 t ∧ Offered .U e.frame (takeDust i en c ok s1) t)
  ∧ (∀ (en : SensorEntry) (a : Int),
    nextAvgBand en .normal a
        = (if (en.high : Int) ≤ a then .high else if (en.elevated : Int) ≤ a then .elevated else .normal)
      ∧ nextAvgBand en .elevated a
        = (if (en.high : Int) ≤ a then .high
            else if a < (en.elevated : Int) - en.hysteresis then .normal else .elevated)
      ∧ nextAvgBand en .high a
        = (if (en.high : Int) - en.hysteresis ≤ a then .high
            else if a < (en.elevated : Int) - en.hysteresis then .normal else .elevated))
  ∧ (∀ x : Sensor, (x.latch = true → x.effective = .trip) ∧ (x.latch = false → x.silent = true → x.effective = .high)
      ∧ (x.latch = false → x.silent = false → x.avgBand = .normal → x.effective = .normal)
      ∧ (x.latch = false → x.silent = false → x.avgBand = .elevated → x.effective = .elevated)
      ∧ (x.latch = false → x.silent = false → x.avgBand = .high → x.effective = .high))
  ∧ ∀ d : Dust,
    let counts (i : SensorNo) : Prop := ∃ en, (d.sensors[i]).entry = some en ∧ en.enabled = true
    (∀ i, counts i → (d.sensors[i]).effective.code.toNat ≤ d.formOverall.code.toNat)
      ∧ (d.formOverall = .normal ∨ ∃ i, counts i ∧ (d.sensors[i]).effective = d.formOverall)
      ∧ (d.formSpray = true ↔ ∃ (i : SensorNo) (en : SensorEntry), (d.sensors[i]).entry = some en ∧ en.enabled = true
          ∧ en.location ≠ .deck ∧ (d.sensors[i]).effective ≠ .normal)

/-! ## Feeder and replies -/

/-- A FEEDER sample of the FEEDER role sets the feeder state and is forwarded (R90); a change to STOPPED or FAULT pauses a
POURING visit (R82, R91) and one that ends pour phase releases the held move (R54); a change to RUNNING returns a PAUSED
visit to POURING, is answered with a STOP where the visit stands ARMED (R91), and makes the derate check (R102). -/
def Obligations.FeederSampleTaken : Prop :=
  (∀ (s : State) (e : RxEntry) (rest : List RxEntry) (st : FeederState),
    Heads s .D .feederSample e rest → parseSample e.frame.payload = some (.feeder st) →
    s.station .feeder = some e.frame.src →
    let s1 := takeHead .D e rest .feederSample s
    let changed : Prop := st ≠ s.gate.feeder
    let limit := s.gate.rateLimit
    let due : Prop := ∃ r, s1.gate.lastRate = some r ∧ limit < r
    let free : Prop := s1.gate.injFeeder = none ∧ s1.line.d.lineFault = false
    Takes s .D .feederSample e rest feederBlocks fun t =>
      t.gate.feeder = st ∧ Offered .U e.frame (feederArrival st false s1) t
        ∧ (∀ v, s1.seq.visit = some v → v.state = .pouring → changed →
          (st = .stopped → t.seq.visit = some (v.pausedFor .feederStopped s.meter.belt))
          ∧ (st = .fault → t.seq.visit = some (v.pausedFor .feederFault s.meter.belt)))
        ∧ (¬ changed → t.seq.visit = s1.seq.visit)
        ∧ (changed → st = .running →
          (∀ v, s1.seq.visit = some v → v.state = .paused → projection s1 v = none → ¬ due →
            t.seq.visit = some { v with state := .pouring, start := some (v.start.getD s.meter.belt) })
          ∧ (∀ v addr, s1.seq.visit = some v → v.state = .armed → free → s.station .feeder = some addr →
            t.seq.visit = some v ∧ Injects .feeder .stop addr [3] s1 t)
          ∧ (s1.visitState ≠ some .armed → s1.visitState ≠ some .paused →
            (¬ due → t.gate.pendingDerate = false ∧ t.gate.lastRate = s1.gate.lastRate)
            ∧ (∀ addr, due → free → s.station .feeder = some addr →
                Injects .feeder .rate addr (2 :: beBytes 2 limit) s1 t ∧ t.gate.lastRate = some limit
                  ∧ t.gate.pendingDerate = false ∧ t.seq.visit = s1.seq.visit.map fun v =>
                      if v.state = .pouring then { v with flags := { v.flags with derated := true } } else v)
            ∧ (∀ x, due → s1.gate.injFeeder = some x →
                (x.order = .rate → (∃ y ∈ s1.line.injection, y.dest = .feeder) →
                  t.gate.injFeeder = some x ∧ t.gate.lastRate = some limit
                    ∧ ∀ y ∈ t.line.injection, y.dest = .feeder → y.frame.payload = 2 :: beBytes 2 limit)
                ∧ (x.order ≠ .rate ∨ (∀ y ∈ s1.line.injection, y.dest ≠ .feeder) →
                  t.gate.injFeeder = some x ∧ t.gate.lastRate = s1.gate.lastRate ∧ t.gate.pendingDerate = true
                    ∧ t.line.injection = s1.line.injection))
            ∧ (due → s1.gate.injFeeder = none → s1.line.d.lineFault = true → t.gate.injFeeder = none
                ∧ t.gate.lastRate = s1.gate.lastRate ∧ t.gate.pendingDerate = true)))
        ∧ (∀ h, changed → st ≠ .running → pourPhase s1 = false → s1.place.held = some h → t.place.held = none
            ∧ ((s1.line.port .D).room = true → OnWire .D h.frame t))
        ∧ (st ≠ .running → pourPhase s1 = true → t.place.held = s1.place.held))
  ∧ ∀ (v : Visit) (r : PauseReason) (belt : Nat), v.pausedFor r belt
      = { v with state := .paused, pauseCount := min (v.pauseCount + 1) 255,
                 pauses := if v.pauses.length < 4 then v.pauses ++ [⟨r, belt⟩] else v.pauses,
                 flags := { v.flags with
                   pausesTruncated := v.flags.pausesTruncated || decide (4 ≤ v.pauses.length) } }

/-- The REPLY to the close-out STOP frees its entry and takes a CLOSING visit to DRAINING: HARD_STOPPED and STOP_FAULT
only when the reply says FAILED (R94, R104). With nothing in flight the visit completes in the same event (R86, R87): a
SUSPENDED plan advances its cursor, an ACTIVE one selects its next visit, and a held move is released unless the feeder
is RUNNING (R54, R88). The REPLY's device state sets the feeder state, and one that is no feeder state leaves it (R90,
R179). -/
def Obligations.CloseOutReplied : Prop :=
  ∀ (s : State) (e : RxEntry) (rest : List RxEntry) (r : ReplyForm) (x : InjEntry) (v : Visit),
    Heads s .D .reply e rest → s.ready = true → e.frame.dst = s.handler.ownAddr →
    parseReply e.frame.payload = some r → s.station .feeder = some e.frame.src →
    let s1 := takeHead .D e rest .reply s
    s1.gate.injFeeder = some x → x.seq = e.frame.seq → x.order = .stop →
    s1.seq.visit = some v → v.state = .closing →
    let drained : Visit :=
      { v with state := .draining, flags := { v.flags with hardStopped := v.flags.hardStopped || !r.done } }
    let after : FeederState := if r.device = 0 then .stopped else if r.device = 1 then .running
      else if r.device = 2 then .fault else s1.gate.feeder
    let replied (t : State) : Prop := t.gate.injFeeder = none ∧ t.gate.feeder = after
      ∧ (r.done = false → t.ladder.sources[srcStopFault] = (s1.ladder.sources[srcStopFault]).raised)
    (0 < s.flight.total → Takes s .D .reply e rest replyBlocks fun t => replied t ∧ t.seq.visit = some drained)
    ∧ (s.flight.total = 0 →
      Takes s .D .reply e rest replyBlocks fun t => replied t ∧ Completes drained s1 t
        ∧ (∀ h, s1.place.held = some h → after ≠ .running →
            t.place.held = none ∧ ((s1.line.port .D).room = true → OnWire .D h.frame t))
        ∧ (after = .running → t.place.held = s1.place.held)
        ∧ ∀ p, s1.seq.header = some p →
          let k := if s1.seq.cursor + 1 < p.slotCount then s1.seq.cursor + 1 else 0
          let round := if s1.seq.cursor + 1 < p.slotCount then s1.seq.round else s1.seq.round + 1
          (s1.seq.plan = .suspended →
            t.seq.visit = none ∧ t.seq.plan = .suspended ∧ t.seq.cursor = k ∧ t.seq.round = round)
          ∧ ∀ (i : Fin 16) (sl : Slot), s1.seq.plan = .active → 1 ≤ p.slotCount → round ≤ p.roundLimit →
            (∀ g, p.shipTarget = some g → pouredTotal s < g * 1000000) → slotIndex s1.seq p.slotCount k = i.val →
            s1.seq.slots[i] = some sl → ¬ Reached s sl.hold → s1.seq.holdStates[sl.hold] ≠ .full →
            ¬ (0 < trimMoment s * armOf s sl.hold ∧ p.trimLimit * 1000000 ≤ (trimMoment s).natAbs) →
            t.seq.plan = .active ∧ t.seq.cursor = k ∧ t.seq.round = round ∧ t.seq.skips = s1.seq.skips
              ∧ t.seq.visit = some { newVisit s i sl with round := round })

/-- A REPLY to the part that matches no entry and reports no other feeder state is consumed without a trace, and one
while UNCONFIGURED is ignored; a REPLY addressed elsewhere is forwarded, a drive's setting its axis's motion (R63, R94,
R177, R178). The REPLY that matches a sweep's MOVE frees its entry and goes on to the position, or ends the sweep
MOVE_FAULT (R58, R61, R62). A REPLY of the feeder, matching or not, sets the feeder state with the reports of R91 (R90); one
that matches an injected RATE or a stray-start STOP frees its entry, raises STOP_FAULT when it says FAILED, and for a RATE
makes the derate check again (R91, R94, R102; after FAILED too: log entry 20). -/
def Obligations.OtherReplies : Prop :=
  ∀ (s : State) (e : RxEntry) (rest : List RxEntry), Heads s .D .reply e rest →
    let s1 := takeHead .D e rest .reply s
    (s.ready = false → Takes s .D .reply e rest [] fun _ => True)
    ∧ (e.frame.dst = s.handler.ownAddr → (∀ d, s.destAt e.frame.src = some d → d ≠ .feeder ∧
        ∀ x, s1.gate.entry d = some x → x.seq ≠ e.frame.seq) → Takes s .D .reply e rest [] fun _ => True)
    ∧ (s.ready = true → e.frame.dst ≠ s.handler.ownAddr → s.station .feeder ≠ some e.frame.src →
        Takes s .D .reply e rest [.axes, .send .U] fun t => Offered .U e.frame s1 t
          ∧ ∀ (a : Axis) (r : ReplyForm) (m : Motion), s.axisAt e.frame.src = some a →
              parseReply e.frame.payload = some r → r.device = m.code →
              t.place.axes = s.place.axes.put a { s.place.axes.get a with motion := some m })
    ∧ (∀ (r : ReplyForm) (a : DriveAxis) (x : InjEntry) (w : Sweep), s.ready = true → e.frame.dst = s.handler.ownAddr →
        parseReply e.frame.payload = some r → s.destAt e.frame.src = some (.drive a) →
        s1.gate.entry (.drive a) = some x → x.seq = e.frame.seq → s.place.sweep = some w → w.axis = a →
        w.phase = .awaitingReply →
        let moved (t : State) : Prop := t.gate.entry (.drive a) = none ∧ ∀ m : Motion, r.device = m.code →
          t.place.axes = s.place.axes.put (axisOf a) { s.place.axes.get (axisOf a) with motion := some m }
        (r.done = true → Takes s .D .reply e rest [.axes, .sweep, .entries] fun t =>
          moved t ∧ t.place.sweep = some { w with phase := .awaitingPosition })
        ∧ (r.done = false → Takes s .D .reply e rest [.axes, .sweep, .entries, .injection, .sources, .send .U] fun t =>
          moved t ∧ t.place.sweep = none ∧ (∀ y ∈ t.line.injection, y.dest ≠ .drive a)
            ∧ t.ladder.sources[srcSweepFault] = (s1.ladder.sources[srcSweepFault]).raised
            ∧ Offered .U { dst := 0, src := s.handler.ownAddr, kind := 0x41, seq := 0,
                           payload := [5, 4, (axisOf a).code, byteOf w.done] } s1 t))
    ∧ ∀ (r : ReplyForm) (st : FeederState), s.ready = true → parseReply e.frame.payload = some r →
      s.station .feeder = some e.frame.src → st ≠ .unknown → r.device = st.code →
      let mine : Prop := e.frame.dst = s.handler.ownAddr
      let answers (x : InjEntry) : Prop := s1.gate.injFeeder = some x ∧ x.seq = e.frame.seq
      let changed : Prop := st ≠ s1.gate.feeder
      let failedRun : Prop := r.done = false ∧ (r.order = 1 ∨ r.order = 2)
      let limit := s1.gate.rateLimit
      let due : Prop := st = .running ∧ ∃ q, s1.gate.lastRate = some q ∧ limit < q
      let paused (t : State) : Prop := ∀ v, s1.seq.visit = some v → v.state = .pouring → changed ∨ failedRun →
        (st = .stopped → t.seq.visit = some (v.pausedFor .feederStopped s.meter.belt))
        ∧ (st = .fault → t.seq.visit = some (v.pausedFor .feederFault s.meter.belt))
      let faulted (t : State) : Prop := t.ladder.sources[srcStopFault]
        = if r.done then s1.ladder.sources[srcStopFault] else (s1.ladder.sources[srcStopFault]).raised
      (¬ mine ∨ (∀ x, ¬ answers x) → Takes s .D .reply e rest feederBlocks fun t =>
        t.gate.feeder = st ∧ paused t ∧ (¬ mine → Offered .U e.frame (feederArrival st r.failedRun s1) t)
          ∧ (¬ changed → ¬ failedRun → t.seq.visit = s1.seq.visit)
          ∧ ∀ v, changed → st = .running → s1.seq.visit = some v → v.state = .paused → projection s1 v = none → ¬ due →
              t.seq.visit = some { v with state := .pouring, start := some (v.start.getD s.meter.belt) })
      ∧ (∀ x, mine → answers x → x.order = .rate → ¬ changed → Takes s .D .reply e rest replyBlocks fun t =>
        t.gate.feeder = st ∧ paused t ∧ faulted t
          ∧ (¬ due → t.gate.injFeeder = none ∧ t.gate.lastRate = s1.gate.lastRate ∧ t.gate.pendingDerate = false)
          ∧ (due → s1.line.d.lineFault = false →
              Injects .feeder .rate e.frame.src (2 :: beBytes 2 limit) s1 t ∧ t.gate.lastRate = some limit
                ∧ t.gate.pendingDerate = false)
          ∧ (due → s1.line.d.lineFault = true →
              t.gate.injFeeder = none ∧ t.gate.lastRate = s1.gate.lastRate ∧ t.gate.pendingDerate = true)
          ∧ (¬ due → ¬ failedRun → t.seq.visit = s1.seq.visit))
      ∧ ∀ x, mine → answers x → x.order = .stop → s1.visitState ≠ some .closing → (changed → st ≠ .running) →
        Takes s .D .reply e rest replyBlocks fun t =>
          t.gate.feeder = st ∧ t.gate.injFeeder = none ∧ paused t ∧ faulted t

/-! ## Orders -/

/-- A RUN that meets no reason of R98 to an ARMED, PAUSED or POURING visit, with room in port D's queue: one reservation
at most, the clamped frame forwarded, the rate recorded, and the visit POURING (R66, R81, R96, R99); an ARMED or PAUSED one
that meets a projection is closed out in the same event (R83, R85). At a full queue the RUN is refused LINE_BUSY, no
reservation is held and CLAMPED stays (R99). The four projections, in their order (R83), with what they are computed from
(R69). -/
def Obligations.RunForwarded : Prop :=
  (∀ (s : State) (e : RxEntry) (rest : List RxEntry) (rate : Nat) (v : Visit) (p : PlanHeader),
    Heads s .U .run e rest → s.ready = true → parseOrder e.frame.payload = .run rate → s.seq.plan = .active →
    s.seq.visit = some v → (v.state = .armed ∨ v.state = .paused ∨ v.state = .pouring) → s.pins.stop = false →
    s.dust.overall ≠ .trip → s.meter.fault = false → s.line.d.lineFault = false → s.meter.zero = none →
    (v.reserved = true ∨ s.bills.records.length + s.bills.reserved < 256) → s.seq.header = some p →
    let forwarded := min rate s.gate.rateLimit
    let run : Visit := { v with
      state := .pouring, reserved := true
      flags := { v.flags with clamped := v.flags.clamped || decide (s.gate.rateLimit < rate)
                              derated := v.flags.derated || decide (s.gate.rateLimit < p.maxRate) } }
    let entered : Visit := { run with start := some (v.start.getD s.meter.belt) }
    let sent (t : State) : Prop :=
      t.bills.reserved = (if v.reserved then s.bills.reserved else s.bills.reserved + 1)
        ∧ t.gate.lastRate = some forwarded
        ∧ OnWire .D (if s.gate.rateLimit < rate
            then { e.frame with payload := 1 :: beBytes 2 s.gate.rateLimit } else e.frame) t
    let filled (t : State) : Prop := t.seq.holdStates
      = if s.seq.holdStates[v.hold] = .idle then s.seq.holdStates.set v.hold.val .filling else s.seq.holdStates
    (s.line.d.txQueue.length < 8 → v.state ≠ .pouring → projection s v = none →
      Takes s .U .run e rest [.visit, .reserved, .rate, .holdStates, .send .D, .injection] fun t =>
        t.seq.visit = some entered ∧ sent t ∧ filled t)
    ∧ (∀ (r : EndReason) (addr : Byte), s.line.d.txQueue.length < 8 → v.state ≠ .pouring → projection s v = some r →
        s.gate.injFeeder = none → s.station .feeder = some addr →
      Takes s .U .run e rest [.visit, .reserved, .rate, .holdStates, .entries, .send .D, .injection] fun t =>
        t.seq.visit = some { entered with state := .closing, endReason := some r } ∧ sent t ∧ filled t
          ∧ Injects .feeder .stop addr [3] s t)
    ∧ (s.line.d.txQueue.length < 8 → v.state = .pouring →
      Takes s .U .run e rest [.visit, .reserved, .rate, .send .D, .injection] fun t =>
        t.seq.visit = some run ∧ sent t)
    ∧ (8 ≤ s.line.d.txQueue.length →
      Takes s .U .run e rest [.send .U] fun t => Offered .U (refusalFrame s e.frame .lineBusy) s t))
  ∧ (∀ s : State,
    trimMoment s = ((List.finRange 12).map fun h : Hold => (s.ship.accounts[holdAccount h] : Int) * armOf s h).sum
      ∧ pouredTotal s = ((List.finRange 13).map fun a : Account => s.ship.accounts[a]).sum
      ∧ ∀ h : Hold, (∀ en, s.seq.holds[h] = some en → armOf s h = en.arm)
          ∧ (s.seq.holds[h] = none → armOf s h = 0))
  ∧ ∀ (s : State) (v : Visit),
    let total := s.flight.total
    let moment : Int := trimMoment s + (total : Int) * armOf s v.hold
    let quota : Prop := v.quota * 1000000 ≤ v.poured + total
    let target : Prop := ∃ en g, s.seq.holds[v.hold] = some en ∧ en.target = some g
      ∧ g * 1000000 ≤ s.ship.accounts[holdAccount v.hold] + total
    let trim : Prop := ∃ p, s.seq.header = some p ∧ 0 < moment * armOf s v.hold ∧ p.trimLimit * 1000000 ≤ moment.natAbs
    let ship : Prop := ∃ p g, s.seq.header = some p ∧ p.shipTarget = some g ∧ g * 1000000 ≤ pouredTotal s + total
    (quota → projection s v = some .quota) ∧ (¬ quota → target → projection s v = some .holdTarget)
      ∧ (¬ quota → ¬ target → trim → projection s v = some .trim)
      ∧ (¬ quota → ¬ target → ¬ trim → ship → projection s v = some .shipTarget)
      ∧ (¬ quota → ¬ target → ¬ trim → ¬ ship → projection s v = none)

/-- A RUN is refused with the first reason of R98's table that holds, which takes nothing from any block; BILL_FULL
raises its alarm (R98, R142, R180). -/
def Obligations.RunRefused : Prop :=
  ∀ (s : State) (e : RxEntry) (rest : List RxEntry) (r : Reason), Heads s .U .run e rest →
    let vs := s.visitState
    let closing := vs = some .closing ∨ vs = some .draining
    let pours := vs = some .armed ∨ vs = some .pouring ∨ vs = some .paused
    let stop := s.pins.stop
    let trip := s.dust.overall = .trip
    let fault := s.meter.fault
    let lineFault := s.line.d.lineFault
    let active := s.ready = true ∧ s.seq.plan = .active
    ((r = .notReady ∧ s.ready = false) ∨ (r = .noPlan ∧ s.ready = true ∧ s.seq.plan ≠ .active)
      ∨ (r = .closing ∧ active ∧ closing) ∨ (r = .notArmed ∧ active ∧ (vs = some .waiting ∨ vs = none))
      ∨ (active ∧ pours ∧
          ((r = .stopped ∧ stop = true) ∨ (stop = false ∧ r = .dustTrip ∧ trip)
            ∨ (stop = false ∧ ¬ trip ∧ r = .meterFault ∧ fault = true)
            ∨ (stop = false ∧ ¬ trip ∧ fault = false ∧ r = .lineFault ∧ lineFault = true)
            ∨ (stop = false ∧ ¬ trip ∧ fault = false ∧ lineFault = false ∧ r = .zeroing ∧ s.meter.zero ≠ none)
            ∨ (stop = false ∧ ¬ trip ∧ fault = false ∧ lineFault = false ∧ s.meter.zero = none ∧ r = .billFull
                ∧ (∀ v, s.seq.visit = some v → v.reserved = false)
                ∧ 256 ≤ s.bills.records.length + s.bills.reserved)))) →
    Takes s .U .run e rest (if r = .billFull then [.sources, .send .U] else [.send .U]) fun t =>
      Offered .U (refusalFrame s e.frame r) s t
        ∧ (r = .billFull → t.ladder.sources[srcBillFull] = (s.ladder.sources[srcBillFull]).raised)

/-- A RATE to a POURING visit is clamped, forwarded and recorded, or at a full queue refused LINE_BUSY (R97); to a CLOSING
or DRAINING visit it is refused CLOSING, with no visit POURING NOT_POURING (R96, R100). -/
def Obligations.RateGated : Prop :=
  ∀ (s : State) (e : RxEntry) (rest : List RxEntry) (rate : Nat), Heads s .U .rate e rest →
    parseOrder e.frame.payload = .rate rate →
    (∀ (v : Visit) (p : PlanHeader), s.seq.visit = some v → v.state = .pouring → s.line.d.txQueue.length < 8 →
      s.seq.header = some p →
      Takes s .U .rate e rest [.visit, .rate, .send .D, .injection] fun t =>
        t.gate.lastRate = some (min rate s.gate.rateLimit)
          ∧ t.seq.visit = some { v with
              flags := { v.flags with clamped := v.flags.clamped || decide (s.gate.rateLimit < rate)
                                      derated := v.flags.derated || decide (s.gate.rateLimit < p.maxRate) } }
          ∧ OnWire .D (if s.gate.rateLimit < rate
              then { e.frame with payload := 2 :: beBytes 2 s.gate.rateLimit } else e.frame) t)
    ∧ (s.visitState = some .pouring → 8 ≤ s.line.d.txQueue.length →
      Takes s .U .rate e rest [.send .U] fun t => Offered .U (refusalFrame s e.frame .lineBusy) s t)
    ∧ ((s.visitState = some .closing ∨ s.visitState = some .draining) →
      Takes s .U .rate e rest [.send .U] fun t => Offered .U (refusalFrame s e.frame .closing) s t)
    ∧ ((s.visitState = none ∨ s.visitState = some .waiting ∨ s.visitState = some .armed
        ∨ s.visitState = some .paused) →
      Takes s .U .rate e rest [.send .U] fun t => Offered .U (refusalFrame s e.frame .notPouring) s t)

/-- A STOP is forwarded unchanged in every visit state and pauses a POURING visit; at a full queue it is refused
LINE_BUSY and pauses nothing (R82, R97, R101). -/
def Obligations.StopForwarded : Prop :=
  ∀ (s : State) (e : RxEntry) (rest : List RxEntry), Heads s .U .stop e rest →
    (s.line.d.txQueue.length < 8 →
      Takes s .U .stop e rest [.visit, .send .D, .injection] fun t =>
        OnWire .D e.frame t
          ∧ t.seq.visit = s.seq.visit.map fun v =>
              if v.state = .pouring then v.pausedFor .stopOrder s.meter.belt else v)
    ∧ (8 ≤ s.line.d.txQueue.length →
      Takes s .U .stop e rest [.send .U] fun t => Offered .U (refusalFrame s e.frame .lineBusy) s t)

/-- A MOVE whose axis suits its destination, with room in port D's queue: to the CHUTE at any time, and to the GANTRY or
SHUTTLE outside pour phase, it is clamped to the axis's limits and forwarded, and ends a sweep of its axis; at a full
queue it is refused LINE_BUSY and ends nothing; another axis is refused WRONG_AXIS, which ends no sweep (log entry 16; an
axis byte that is no axis code: log entry 40) (R49, R50, R52). -/
def Obligations.MoveForwarded : Prop :=
  ∀ (s : State) (e : RxEntry) (rest : List RxEntry) (a : Axis) (b : Byte) (target : Nat), Heads s .U .move e rest →
    s.axisAt e.frame.dst = some a → parseOrder e.frame.payload = .move b target →
    let lim := s.place.travel.limits a
    let clamped := if target < lim.low then lim.low else if lim.high < target then lim.high else target
    (b = a.code → (a = .chute ∨ pourPhase s = false) → s.line.d.txQueue.length < 8 →
      Takes s .U .move e rest [.sweep, .entries, .injection, .send .U, .send .D] fun t =>
        OnWire .D (if clamped = target then e.frame
          else { e.frame with payload := 4 :: a.code :: beBytes 4 clamped }) t
        ∧ (∀ w, s.place.sweep = some w → axisOf w.axis = a → t.place.sweep = none)
        ∧ (∀ w, s.place.sweep = some w → axisOf w.axis ≠ a → t.place.sweep = some w))
    ∧ (b = a.code → (a = .chute ∨ pourPhase s = false) → 8 ≤ s.line.d.txQueue.length →
      Takes s .U .move e rest [] fun t => Offered .U (refusalFrame s e.frame .lineBusy) s t)
    ∧ (b ≠ a.code → Takes s .U .move e rest [.send .U] fun t =>
        Offered .U (refusalFrame s e.frame .wrongAxis) s t)

/-- In pour phase a GANTRY or SHUTTLE MOVE that is no trimming move is held, or refused OUT_OF_HOLD with the hold-moves
option off; one that is a trimming move is forwarded, and the move held for its axis is answered SUPERSEDED (R52, R53).
A sweep that runs on the axis ends (R49, R60). When a held move is replaced, SUPERSEDED is offered before HELD (log
entry 17). Which moves are trimming moves is read from the envelope entry as it stands; that a load counts here before
the next POSITION or HOLDSENSE sample (R44) is the model's choice (log entry 41). -/
def Obligations.LeavingMoveHeldOrRefused : Prop :=
  ∀ (s : State) (e : RxEntry) (rest : List RxEntry) (a : DriveAxis) (target : Nat), Heads s .U .move e rest →
    s.axisAt e.frame.dst = some (axisOf a) → parseOrder e.frame.payload = .move (axisOf a).code target →
    let lim := s.place.travel.limits (axisOf a)
    let clamped := if target < lim.low then lim.low else if lim.high < target then lim.high else target
    let sent := if clamped = target then e.frame
      else { e.frame with payload := 4 :: (axisOf a).code :: beBytes 4 clamped }
    pourPhase s = true →
    (trimming s a clamped = false → s.place.sweep = none →
      (s.handler.holdMoves = true →
        Takes s .U .move e rest [.held, .send .U] fun t =>
          t.place.held = some { axis := a, target := clamped, frame := sent }
            ∧ (s.place.held = none → Offered .U (refusalFrame s sent .held) s t)
            ∧ (∀ h, s.place.held = some h → Offered .U (refusalFrame s h.frame .superseded) s t
                ∧ (s.line.u.txQueue.length < 7 → OnWire .U (refusalFrame s sent .held) t)))
      ∧ (s.handler.holdMoves = false →
        Takes s .U .move e rest [.send .U] fun t => Offered .U (refusalFrame s e.frame .outOfHold) s t))
    ∧ (∀ w, trimming s a clamped = false → s.place.sweep = some w →
      Takes s .U .move e rest [.held, .sweep, .entries, .injection, .send .U] fun t =>
        t.place.sweep = (if w.axis = a then none else some w)
          ∧ (w.axis = a → t.gate.entry (.drive a) = none)
          ∧ t.place.held = (if s.handler.holdMoves then some { axis := a, target := clamped, frame := sent }
              else s.place.held))
    ∧ (trimming s a clamped = true → s.line.d.txQueue.length < 8 →
      Takes s .U .move e rest [.held, .sweep, .entries, .injection, .send .U, .send .D] fun t =>
        OnWire .D sent t
          ∧ (∀ w, s.place.sweep = some w → t.place.sweep = if w.axis = a then none else some w)
          ∧ (∀ h, s.place.held = some h → t.place.held = (if h.axis = a then none else some h)
              ∧ (h.axis = a → s.place.sweep = none → Offered .U (refusalFrame s h.frame .superseded) s t)))
    ∧ (trimming s a clamped = true → 8 ≤ s.line.d.txQueue.length →
      Takes s .U .move e rest [] fun t => Offered .U (refusalFrame s e.frame .lineBusy) s t)
    ∧ (trimming s a clamped = true ↔ ∃ v en o, s.seq.visit = some v ∧ s.place.envelopes[v.hold] = some en
        ∧ ((a = .gantry ∧ s.place.axes.shuttle.pos = some o ∧ en.inside clamped o = true)
          ∨ (a = .shuttle ∧ s.place.axes.gantry.pos = some o ∧ en.inside o clamped = true)))
    ∧ ∀ (en : Envelope) (g sh : Nat), en.inside g sh = true ↔
        en.gantryMin + en.margin ≤ g ∧ g ≤ en.gantryMax - en.margin
          ∧ en.shuttleMin + en.margin ≤ sh ∧ sh ≤ en.shuttleMax - en.margin

/-- A HALT is forwarded unchanged; it ends a sweep of its axis and cancels a move held for it (R49, R55, R60). At a full
queue it is refused LINE_BUSY, and with another axis WRONG_AXIS; neither ends or cancels anything (R49; log entry 16; an
axis byte that is no axis code: log entry 40). -/
def Obligations.HaltForwarded : Prop :=
  ∀ (s : State) (e : RxEntry) (rest : List RxEntry) (a : Axis) (b : Byte), Heads s .U .halt e rest →
    s.axisAt e.frame.dst = some a → parseOrder e.frame.payload = .halt b →
    (b = a.code → s.line.d.txQueue.length < 8 →
      Takes s .U .halt e rest moveBlocks fun t =>
        OnWire .D e.frame t
          ∧ (∀ w, s.place.sweep = some w → t.place.sweep = if axisOf w.axis = a then none else some w)
          ∧ (∀ h, s.place.held = some h → t.place.held = if axisOf h.axis = a then none else some h))
    ∧ (b = a.code → 8 ≤ s.line.d.txQueue.length →
      Takes s .U .halt e rest [] fun t => Offered .U (refusalFrame s e.frame .lineBusy) s t)
    ∧ (b ≠ a.code → Takes s .U .halt e rest [] fun t => Offered .U (refusalFrame s e.frame .wrongAxis) s t)

/-! ## Tables and options -/

/-- A GATE load sets the reply window when it lies in 10 to 2,000 ms and is refused BAD_VALUE, changing nothing, when it
does not; a SET without the field gives 200 ms (R92, R189, R191). The loads of TRAVEL (R41), ENVELOPES (R44), HOLDS
(R65, R66), SEQUENCE (R67), PLAN (R68, R95), DUST (R109 to R111) and BILLS (R151): judged as the entry would stand after
the load, refused with the first reason of R191, or taken with their effects (R191), and so is the load of ALARM (R135,
R136). An AMEND with an empty mask on a loaded entry of any table is accepted and changes nothing (R191). That the
release test of a sensor's entry is made at it (R117) and the bands formed again (R111, R121), that the FULL test of
HOLDS (R66) and the effects of SCALE and STATIONS (R17, R18, R176) do not follow, and that no BUSY test is met are the
model's choices (log entries 42 to 45). A changed percentage or max rate recomputes the rate limit, with the derate
check when it falls (R95, R102). What counts as a change of SEQUENCE, PLAN or ALARM is log entry 37, and a code outside
a field's list log entry 36. -/
def Obligations.GateLoaded : Prop :=
  (∀ (s : State) (e : RxEntry) (rest : List RxEntry) (m a b : Byte), Heads s .U .load e rest → (m = 1 ∨ m = 2) →
    let w := a.toNat * 256 + b.toNat
    (e.frame.payload = [1, 8, 0, m, 0, 1, a, b] → 10 ≤ w → w ≤ 2000 →
      Takes s .U .load e rest [.window] fun t => t.gate.replyWindow = w
        ∧ Offered .U (answerFrame s e.frame [1, 0, 0]) s t)
    ∧ (e.frame.payload = [1, 8, 0, m, 0, 1, a, b] → (w < 10 ∨ 2000 < w) →
      Takes s .U .load e rest [] fun t => Offered .U (answerFrame s e.frame [1, 1, 20]) s t)
    ∧ (e.frame.payload = [1, 8, 0, 1, 0, 0] →
      Takes s .U .load e rest [.window] fun t => t.gate.replyWindow = 200))
  ∧ (∀ (s : State) (e : RxEntry) (rest : List RxEntry), Heads s .U .load e rest →
    loadHeaderFails (e.frame.payload.drop 1) = true →
    Takes s .U .load e rest [] fun t => Offered .U (answerFrame s e.frame [1, 1, 20]) s t)
  ∧ (∀ (c en md a b : Byte) (vals : List Byte), loadHeaderFails (c :: en :: md :: a :: b :: vals) = false ↔
    ∃ tab, TableId.fromCode c.toNat = some tab ∧ tab ≠ .accounts ∧ tab.hasEntry en.toNat = true ∧ (md = 1 ∨ md = 2)
      ∧ a.toNat * 256 + b.toNat < 2 ^ (tab.widths en.toNat).length)
  ∧ ∀ (s : State) (e : RxEntry) (rest : List RxEntry) (l : Load), Heads s .U .load e rest →
    loadHeaderFails (e.frame.payload.drop 1) = false → parseLoad e.frame.payload = some l →
    let m := l.merged s
    let s1 := takeHead .U e rest .load s
    let amendsNothing : Prop := l.set = false ∧ (∀ x ∈ l.fields, x = none) ∧ entryFields s l.table l.entry ≠ none
    let onto (old : List (Option Nat)) : List (Option Nat) := List.zipWith (fun new x => new <|> x) l.fields old
    let accepted (changed : List Block) (post : State → Prop) : Prop := Takes s .U .load e rest changed fun t =>
      post t ∧ Offered .U (answerFrame s e.frame [1, 0, 0]) s t
    -- what answers a load that can change its entry
    let refused (r : Reason) : Prop := ¬ amendsNothing → Takes s .U .load e rest [] fun t =>
      Offered .U (answerFrame s e.frame [1, 1, r.code]) s t
    let done (changed : List Block) (post : State → Prop) : Prop := ¬ amendsNothing → accepted changed post
    let inRange : Prop := inRanges (fieldRanges l.table l.entry) l.fields = true
    let kg (x : Option Nat) : Prop := ∀ g, x = some g → 1 ≤ g ∧ g ≤ 99999999
    let runs : Prop := s.seq.plan = .active ∨ s.seq.plan = .suspended
    (l.set = true → m = onto (defaultFields l.table l.entry))
    ∧ (∀ old, l.set = false → entryFields s l.table l.entry = some old → m = onto old)
    ∧ (l.set = false → entryFields s l.table l.entry = none → m = onto (defaultFields l.table l.entry))
    -- an AMEND with an empty mask on a loaded entry
    ∧ (amendsNothing → l.table ≠ .dust ∨ l.entry = 0 → accepted [] fun _ => True)
    ∧ (∀ i : SensorNo, amendsNothing → l.table = .dust → l.entry = i.val + 1 →
      let x := s.dust.sensors[i]
      let released : Prop := (s.ladder.sources[srcDustTrip i]).state ≠ .pending
        ∧ (s.ladder.sources[srcDustTrip i]).state ≠ .inService ∧ x.latch = true ∧ x.belowRelease = true
      accepted dustBlocks fun t =>
        (∀ j : SensorNo, j ≠ i → t.dust.sensors[j] = s.dust.sensors[j]) ∧ BandsFormed s1 t
          ∧ (released → t.dust.sensors[i] = { x with latch := false }
              ∧ (t.ladder.sources[srcDustTrip i]).cond = false)
          ∧ (¬ released → t.dust.sensors[i] = x ∧ ∀ b ∈ [Block.sensors, .conds], Same b s1 t))
    ∧ (¬ inRange → refused .badValue)
    -- TRAVEL
    ∧ (∀ lo hi, l.table = .travel → l.entry < 3 → m = [some lo, some hi] →
      let old := s.place.travel
      let new : TravelTable := if l.entry = 0 then { old with gantry := ⟨lo, hi⟩ }
        else if l.entry = 1 then { old with shuttle := ⟨lo, hi⟩ } else { old with chute := ⟨lo, hi⟩ }
      (lo ≤ hi → hi ≤ (if l.entry = 0 then 600000 else if l.entry = 1 then 40000 else 20000) →
        old.gantry.low ≤ old.gantry.high → old.shuttle.low ≤ old.shuttle.high → old.chute.low ≤ old.chute.high →
        done [.travel] fun t => t.place.travel = new)
      ∧ (hi < lo → refused .badValue))
    ∧ (∀ a b c, l.table = .travel → l.entry = 3 → m = [some a, some b, some c] →
      let old := s.place.travel
      1 ≤ a → a ≤ 64 → 1 ≤ b → b ≤ 64 → 1 ≤ c → c ≤ 120 →
      old.gantry.low ≤ old.gantry.high → old.shuttle.low ≤ old.shuttle.high → old.chute.low ≤ old.chute.high →
      done [.travel] fun t => t.place.travel = { old with settleCount := a, leaveCount := b, stepTimeout := c })
    -- ENVELOPES
    ∧ (l.table = .envelopes → none ∈ m.take 5 → refused .badValue)
    ∧ (∀ (h : Hold) (g0 g1 s0 s1 k : Nat) (x : Option Nat), l.table = .envelopes → l.entry = h.val + 1 →
      m = [some g0, some g1, some s0, some s1, some k, x] →
      let new : Envelope :=
        { gantryMin := g0, gantryMax := g1, shuttleMin := s0, shuttleMax := s1, margin := k, chuteMax := x }
      let sound : Prop := g0 + 2 * k ≤ g1 ∧ s0 + 2 * k ≤ s1 ∧ ∀ (h' : Hold) (y : Envelope), h' ≠ h →
        s.place.envelopes[h'] = some y → ∀ g sh, ¬ (new.inside g sh = true ∧ y.inside g sh = true)
      let visited : Prop := ∃ v, s.seq.visit = some v ∧ v.hold = h
      (inRange → ¬ sound → refused .badEnvelope)
      ∧ (inRange → sound → visited → refused .busy)
      ∧ (g1 ≤ 600000 → s1 ≤ 40000 → k ≤ 5000 → (∀ c, x = some c → c ≤ 20000) → sound → ¬ visited →
        done [.envelopes] fun t => t.place.envelopes[h] = some new
          ∧ ∀ h' : Hold, h' ≠ h → t.place.envelopes[h'] = s.place.envelopes[h']))
    -- HOLDS
    ∧ (l.table = .holds → none ∈ m.take 1 → refused .badValue)
    ∧ (∀ (h : Hold) (n : Nat) (g : Option Nat), l.table = .holds → l.entry = h.val + 1 → m = [some n, g] →
      let arm : Int := if n < 32768 then (n : Int) else (n : Int) - 65536
      let visited : Prop := ∃ v, s.seq.visit = some v ∧ v.hold = h
      let reached : Prop := ∃ x, g = some x ∧ x * 1000000 ≤ s.ship.accounts[holdAccount h]
      (inRange → visited → refused .busy)
      ∧ (-2000 ≤ arm → arm ≤ 2000 → kg g → ¬ visited →
        done [.planTables, .holdStates] fun t => t.seq.holds[h] = some ⟨arm, g⟩
          ∧ t.seq.slots = s.seq.slots ∧ t.seq.header = s.seq.header
          ∧ (∀ h' : Hold, h' ≠ h → t.seq.holds[h'] = s.seq.holds[h'] ∧ t.seq.holdStates[h'] = s.seq.holdStates[h'])
          ∧ (reached → t.seq.holdStates[h] = .full)
          ∧ (¬ reached → t.seq.holdStates[h]
              = if s.seq.holdStates[h] = .full then .filling else s.seq.holdStates[h])))
    -- SEQUENCE
    ∧ (l.table = .sequence → none ∈ m → refused .badValue)
    ∧ (∀ (i : Fin 16) (h : Hold) (q : Nat), l.table = .sequence → l.entry = i.val →
      m = [some (h.val + 1), some q] →
      let busy : Prop := runs ∧ (l.set = true ∨ ∀ o, s.seq.slots[i] = some o →
        o.hold ≠ h ∨ (o.quota ≠ q ∧ ∃ v, s.seq.visit = some v ∧ v.slot = i))
      (inRange → busy → refused .busy)
      ∧ (1 ≤ q → q ≤ 99999999 → ¬ busy → done [.planTables] fun t => t.seq.slots[i] = some ⟨h, q⟩
          ∧ t.seq.holds = s.seq.holds ∧ t.seq.header = s.seq.header
          ∧ ∀ j : Fin 16, j ≠ i → t.seq.slots[j] = s.seq.slots[j]))
    -- PLAN
    ∧ (l.table = .plan → none ∈ m.take 5 ∨ none ∈ m.drop 6 → refused .badValue)
    ∧ (∀ (n st r tl mx : Nat) (o : Order) (sh : Option Nat), l.table = .plan →
      m = [some n, some o.code.toNat, some st, some r, some tl, sh, some mx] →
      let new : PlanHeader :=
        { slotCount := n, order := o, startSlot := st, roundLimit := r, trimLimit := tl, shipTarget := sh, maxRate := mx }
      let busy : Prop := runs ∧ (l.set = true ∨ ∀ x, s.seq.header = some x →
        x.slotCount ≠ n ∨ x.order ≠ o ∨ x.startSlot ≠ st ∨ x.roundLimit ≠ r)
      (inRange → busy → refused .busy)
      ∧ (1 ≤ n → n ≤ 16 → st ≤ 15 → 1 ≤ r → r ≤ 255 → 1 ≤ tl → tl ≤ 1000000000000 → kg sh → 1 ≤ mx → mx ≤ 65535 →
        ¬ busy → done (.planTables :: .limit :: derateBlocks) fun t => t.seq.header = some new
          ∧ t.seq.holds = s.seq.holds ∧ t.seq.slots = s.seq.slots
          ∧ ((∃ x, s.seq.header = some x ∧ x.maxRate = mx) → t.gate.rateLimit = s.gate.rateLimit)
          ∧ ((∀ x, s.seq.header = some x → x.maxRate ≠ mx) →
              t.gate.rateLimit = mx * s.dust.percent s.dust.overall / 100
                ∧ ∃ m, LimitRecomputed { s1 with seq := { s1.seq with header := some new } } m
                  ∧ ∀ b ∈ .limit :: derateBlocks, Same b m t)))
    -- DUST
    ∧ (∀ a b, l.table = .dust → l.entry = 0 → m = [some a, some b] →
      (a < b → refused .badValue)
      ∧ (b ≤ a → a ≤ 100 → done (.derates :: .limit :: derateBlocks) fun t =>
          t.dust.elevDerate = a ∧ t.dust.highDerate = b
            ∧ (t.dust.percent s.dust.overall = s.dust.percent s.dust.overall → t.gate.rateLimit = s.gate.rateLimit)
            ∧ ∀ p, t.dust.percent s.dust.overall ≠ s.dust.percent s.dust.overall → s.seq.header = some p →
                t.gate.rateLimit = p.maxRate * t.dust.percent s.dust.overall / 100
                  ∧ ∃ m, LimitRecomputed { s1 with dust := t.dust } m ∧ ∀ b ∈ .limit :: derateBlocks, Same b m t))
    ∧ (l.table = .dust → none ∈ m → refused .badValue)
    ∧ (∀ (i : SensorNo) (lo : Location) (el hg tr hy sf rn si on : Nat), l.table = .dust → l.entry = i.val + 1 →
      m = [some lo.code.toNat, some el, some hg, some tr, some hy, some sf, some rn, some si, some on] →
      let new : SensorEntry :=
        { location := lo, elevated := el, high := hg, trip := tr, hysteresis := hy, shift := sf, tripRun := rn,
          silenceTime := si, enabled := on == 1 }
      let x := s.dust.sensors[i]
      let timer : Option Nat := if s.ready ∧ on = 1 then some (s.now + si) else none
      let wasOn : Prop := ∃ old, x.entry = some old ∧ old.enabled = true
      let rising : Prop := el < hg ∧ hg < tr
      (inRange → ¬ rising → refused .badThresholds)
      ∧ (inRange → rising → x.latch = true → l.set = true ∨ on ≠ 1 → refused .busy)
      ∧ (∀ old, inRange → rising → x.latch = true → l.set = false → on = 1 → x.entry = some old → old.enabled = true →
          let amended : Sensor := { x with entry := some new, timer :=
            if s.ready ∧ si ≠ old.silenceTime then some (s.now + si) else x.timer }
          let released : Prop := (s.ladder.sources[srcDustTrip i]).state ≠ .pending
            ∧ (s.ladder.sources[srcDustTrip i]).state ≠ .inService ∧ x.a16 / 16 < (hg : Int) - hy
          done dustBlocks fun t =>
            (∀ j : SensorNo, j ≠ i → t.dust.sensors[j] = s.dust.sensors[j])
              ∧ BandsFormed s1 t
              ∧ (released → t.dust.sensors[i] = { amended with latch := false }
                  ∧ (t.ladder.sources[srcDustTrip i]).cond = false)
              ∧ (¬ released → t.dust.sensors[i] = amended))
      ∧ (inRange → rising → x.latch = false → done dustBlocks fun t =>
          let y := t.dust.sensors[i]
          y.entry = some new ∧ (∀ j : SensorNo, j ≠ i → t.dust.sensors[j] = s.dust.sensors[j])
            ∧ BandsFormed s1 t
            ∧ (x.entry = none ∨ l.set = true ∨ (¬ wasOn ∧ on = 1) →
                y = { entry := some new, a16 := 0, avgBand := .normal, latch := false, run := 0, silent := false,
                      timer := timer } ∧ (t.ladder.sources[srcDustHigh i]).cond = false
                  ∧ (t.ladder.sources[srcDustTrip i]).cond = false
                  ∧ (t.ladder.sources[srcSensorSilent i]).cond = false)
            ∧ (l.set = false → wasOn → on ≠ 1 → y = { x with entry := some new, timer := none, silent := false }
                ∧ (t.ladder.sources[srcDustHigh i]).cond = false
                ∧ (t.ladder.sources[srcSensorSilent i]).cond = false)
            ∧ (∀ old, l.set = false → x.entry = some old → (old.enabled = true ↔ on = 1) →
                y = { x with entry := some new,
                             timer := if s.ready ∧ on = 1 ∧ si ≠ old.silenceTime then some (s.now + si) else x.timer })))
    -- ALARM
    ∧ (∀ (i : SourceNo) (rank rec pres : Nat), l.table = .alarm → l.entry = i.val →
      m = [some rank, some rec, some pres] →
      let x := (takeHead .U e rest .load s).ladder.sources[i]
      let changes : Prop := rank ≠ x.rank ∨ (rec == 1) ≠ x.record ∨ (pres == 1) ≠ x.present
      (inRange → x.state = .inService → changes → refused .busy)
      ∧ (rank ≤ 15 → rec ≤ 1 → pres ≤ 1 → (x.state = .inService → ¬ changes) →
          done (.alarmTable :: dustBlocks) fun t =>
            let y := t.ladder.sources[i]
            y.rank = rank ∧ y.record = (rec == 1) ∧ y.present = (pres == 1)
              ∧ (rec = 0 → x.state ≠ .inService → y.state = .idle) ∧ (rec = 1 → y.state = x.state)
              ∧ (∀ k : SensorNo, i = srcDustTrip k → rec = 0 → x.state = .pending ∨ x.state = .standing →
                  ReleaseTested k s1 t)
              ∧ ∀ j : SourceNo, j ≠ i → (t.ladder.sources[j]).rank = (s.ladder.sources[j]).rank
                  ∧ (t.ladder.sources[j]).record = (s.ladder.sources[j]).record
                  ∧ (t.ladder.sources[j]).present = (s.ladder.sources[j]).present))
    -- BILLS
    ∧ (∀ a b c d, l.table = .bills → m = [some a, some b, some c, some d] →
      (inRange → ¬ (a < b ∧ b < c ∧ c < d) → refused .badValue)
      ∧ (1 ≤ a → a < b → b < c → c < d → d ≤ 256 → done [.marks] fun t => t.bills.marks = #v[a, b, c, d]))

/-- Accepted SCALE and STATIONS loads take effect, restart the scale's silence timer (R17), and the part becomes READY
when both marks stand, the silence timers of the scale and of every enabled sensor starting then (R18, R119, R176, R188).
An AMEND of SCALE with an empty mask on the loaded table is accepted and changes nothing (R191): that R18's effects and its
BUSY test are left out then is the model's choice (log entries 43 and 45). A SET of STATIONS without
the address removes the role; an AMEND without it leaves an absent role absent (log entry 21). An address that the part or
another present role has is refused DUPLICATE_ADDRESS, and either load BUSY in pour phase or while ZEROING, a STATIONS load
also while a sweep runs or an injected-order entry is held (R18, R176). -/
def Obligations.TablesLoadedMakeReady : Prop :=
  ∀ (s : State) (e : RxEntry) (rest : List RxEntry) (l : Load), Heads s .U .load e rest →
    loadHeaderFails (e.frame.payload.drop 1) = false → parseLoad e.frame.payload = some l →
    let calm : Prop := pourPhase s = false ∧ s.meter.zero = none
    let refused (r : Reason) : Prop := Takes s .U .load e rest [] fun t =>
      Offered .U (answerFrame s e.frame [1, 1, r.code]) s t
    let sensorsStart (t : State) : Prop := ∀ (i : SensorNo) (en : SensorEntry), s.ready = false → t.ready = true →
      (s.dust.sensors[i]).entry = some en →
      t.dust.sensors[i] = { s.dust.sensors[i] with
        timer := if en.enabled then some (s.now + en.silenceTime) else (s.dust.sensors[i]).timer }
    (l.table = .scale → l.set = false → (∀ x ∈ l.fields, x = none) → s.meter.table ≠ none →
      Takes s .U .load e rest [] fun t => Offered .U (answerFrame s e.frame [1, 0, 0]) s t)
    ∧ (∀ x : ScaleTable, l.table = .scale → inRanges (fieldRanges .scale l.entry) l.fields = true →
      buildScale (l.merged s) = some x → (l.set = true ∨ (∃ v ∈ l.fields, v ≠ none) ∨ s.meter.table = none) →
      let ready : Bool := s.ready || s.handler.stationsMark
      (calm → Takes s .U .load e rest [.scale, .prev, .silence, .sources, .conds, .part, .sensors] fun t =>
        t.meter.table = some x ∧ t.meter.prev = none ∧ t.handler.scaleMark = true ∧ t.ready = ready
          ∧ t.meter.silence = (if ready then some (s.now + x.scaleSilence) else s.meter.silence) ∧ sensorsStart t
          ∧ (t.ladder.sources[srcZeroDrift]).cond = decide (x.driftLimit * 1000000 < s.meter.drift)
          ∧ Offered .U (answerFrame s e.frame [1, 0, 0]) s t)
      ∧ (¬ calm → refused .busy))
    ∧ (∀ (r : Role) (addr : Option Byte), l.table = .stations → l.entry = r.index.val →
      (∀ a, addr = some a → l.fields = [some a.toNat] ∧ 1 ≤ a.toNat ∧ a.toNat ≤ 62) →
      (addr = none → l.fields = [none] ∧ (l.set = true ∨ s.station r = none)) →
      let free : Prop := calm ∧ s.place.sweep = none ∧ ∀ d, s.gate.entry d = none
      let single : Prop := ∀ a, addr = some a → a ≠ s.handler.ownAddr ∧ ∀ r' : Role, r' ≠ r → s.station r' ≠ some a
      (single → free →
        Takes s .U .load e rest [.stations, .part, .silence, .sensors, .prev, .axes, .sense, .feeder, .held, .send .D,
            .injection] fun t =>
          t.station r = addr ∧ (∀ r' : Role, r' ≠ r → t.station r' = s.station r') ∧ t.handler.stationsMark = true
            ∧ t.ready = (s.ready || s.handler.scaleMark)
            ∧ (∀ sc, s.meter.table = some sc →
                t.meter.silence = if t.ready then some (s.now + sc.scaleSilence) else s.meter.silence)
            ∧ sensorsStart t
            ∧ (s.station r ≠ addr →
              (r = .scale → t.meter.prev = none) ∧ (r = .feeder → t.gate.feeder = .unknown)
                ∧ (∀ a : Axis, r = a.role → t.place.axes.get a = { pos := none, motion := none })
                ∧ (r = .holdsense → t.place.sense = none)
                ∧ (∀ (i : SensorNo) (en : SensorEntry), r = .dust i → s.ready = true →
                    (s.dust.sensors[i]).entry = some en → en.enabled = true →
                    (t.dust.sensors[i]).timer = some (s.now + en.silenceTime)))
            ∧ Offered .U (answerFrame s e.frame [1, 0, 0]) s t)
      ∧ (single → ¬ free → refused .busy)
      ∧ (∀ a, addr = some a → (a = s.handler.ownAddr ∨ ∃ r' : Role, r' ≠ r ∧ s.station r' = some a) →
        refused .duplicateAddress))

/-- READ, STATUS and READ_RECORDS answer and change nothing (R153, R187, R192): a STATUS section; an entry of any table
with its fields and its state, zeros where it is unloaded (section 10.7); and whole records in order from the one named,
as many as are asked for, held and fit. A section, an entry or a sequence number that does not exist is refused. The
mask marks the optional fields that are present (R186): a role's address, an envelope's chute maximum, a hold's target,
the header's ship target and a sensor's hysteresis, shift, trip run, silence time and enabled (R44, R65, R68, R109, R176;
that no other table has an optional field is log entry 18). The layouts of section 10.7: a field that may be absent, the
codes, the nine sections and the four kinds of record (R186, R187). The values of fields that do not apply and a kilogram
value past its field are log entries 6 and 19. -/
def Obligations.ReadsChangeNothing : Prop :=
  (∀ (s : State) (e : RxEntry) (rest : List RxEntry),
    (∀ k : Byte, Heads s .U .status e rest → e.frame.payload = [3, k] →
      Takes s .U .status e rest [] fun t =>
        (∀ bs, statusSection (takeHead .U e rest .status s) k.toNat = some bs →
          Offered .U (answerFrame s e.frame (3 :: 0 :: 0 :: k :: bs)) s t)
        ∧ (8 < k.toNat → Offered .U (answerFrame s e.frame [3, 1, 20]) s t))
    ∧ (∀ (tb eb : Byte), Heads s .U .read e rest → e.frame.payload = [2, tb, eb] →
      let s1 := takeHead .U e rest .read s
      Takes s .U .read e rest [] fun t =>
        (∀ a : Account, tb = 12 → eb.toNat = a.val + 1 →
          Offered .U (answerFrame s e.frame
            ([2, 0, 0, 12, eb, 1, 0, 0] ++ beBytes 8 s.ship.accounts[a] ++ kgField s.ship.bases[a])) s t)
        ∧ (∀ (tab : TableId) (fs : List (Option Nat)), TableId.fromCode tb.toNat = some tab →
            tab.hasEntry eb.toNat = true → entryFields s1 tab eb.toNat = some fs →
            Offered .U (answerFrame s e.frame ([2, 0, 0, tb, eb, 1] ++ beBytes 2 (readMask tab eb.toNat fs)
              ++ (List.zipWith (fun w f => beBytes w (f.getD 0)) (tab.widths eb.toNat) fs).flatten
              ++ readState s1 tab eb.toNat)) s t)
        ∧ (∀ tab : TableId, TableId.fromCode tb.toNat = some tab → tab.hasEntry eb.toNat = true →
            entryFields s1 tab eb.toNat = none →
            Offered .U (answerFrame s e.frame ([2, 0, 0, tb, eb, 0, 0, 0]
              ++ List.replicate (tab.widths eb.toNat).sum 0 ++ readState s1 tab eb.toNat)) s t)
        ∧ ((∀ tab, TableId.fromCode tb.toNat = some tab → tab.hasEntry eb.toNat = false) →
          Offered .U (answerFrame s e.frame [2, 1, 20]) s t))
    ∧ (∀ (q0 q1 q2 q3 n : Byte), Heads s .U .readRecords e rest → e.frame.payload = [17, q0, q1, q2, q3, n] →
      let q := beNat [q0, q1, q2, q3]
      Takes s .U .readRecords e rest [] fun t =>
        ((n = 0 ∨ 4 < n.toNat) → Offered .U (answerFrame s e.frame [17, 1, 20]) s t)
        ∧ (n ≠ 0 → n.toNat ≤ 4 → (∀ r ∈ s.bills.records, r.seq.toNat ≠ q) →
          Offered .U (answerFrame s e.frame [17, 1, 30]) s t)
        ∧ (∀ old rs more : List Record, n ≠ 0 → n.toNat ≤ 4 → s.bills.records = old ++ rs ++ more →
          (∀ r ∈ old, r.seq.toNat ≠ q) → (∀ r ∈ (rs ++ more).head?, r.seq.toNat = q) → rs ++ more ≠ [] →
          rs.length ≤ n.toNat → ((rs.map recordBytes).flatten).length ≤ 196 →
          (rs.length < n.toNat → ∀ r ∈ more.head?, 196 < ((rs.map recordBytes).flatten).length + (recordBytes r).length) →
          Offered .U (answerFrame s e.frame ([17, 0, 0, byteOf rs.length] ++ (rs.map recordBytes).flatten)) s t)))
  ∧ (∀ (r : Record), (∀ ship slot hold round quota lines excess why flags start belt trim count pauses,
        r.body = .visit ship slot hold round quota lines excess why flags start belt trim count pauses →
        lines.length ≤ 13 ∧ pauses.length ≤ 4) →
      (∀ ship lines w u, r.body = .shipClose ship lines w u → lines.length ≤ 13) → (recordBytes r).length ≤ 196)
  ∧ ∀ s : State,
    -- the mask's bits
    (∀ (tab : TableId) (k : Nat) (fs : List (Option Nat)),
      let optional : List Nat := match tab with
        | .stations => [0]
        | .envelopes => [5]
        | .holds => [1]
        | .plan => [5]
        | .dust => if k = 0 then [] else [4, 5, 6, 7, 8]
        | _ => []
      readMask tab k fs = ((List.range fs.length).map fun j =>
        if j ∈ optional ∧ fs[j]?.join ≠ none then 2 ^ j else 0).sum)
    ∧ (∀ r : Role, entryFields s .stations r.index.val = (s.station r).map fun a => [some a.toNat])
    ∧ entryFields s .scale 0 = s.meter.table.map (fun c =>
        [some c.span, some c.capacity, some c.deadBand, some c.gapLimit, some c.segmentLength, some c.transitBase,
         some c.chuteFactor, some c.beltLength, some c.zeroShiftLimit, some c.driftLimit, some c.scaleSilence,
         some c.zeroTimeout])
    ∧ entryFields s .travel 0 = some [some s.place.travel.gantry.low, some s.place.travel.gantry.high]
    ∧ entryFields s .travel 1 = some [some s.place.travel.shuttle.low, some s.place.travel.shuttle.high]
    ∧ entryFields s .travel 2 = some [some s.place.travel.chute.low, some s.place.travel.chute.high]
    ∧ entryFields s .travel 3
        = some [some s.place.travel.settleCount, some s.place.travel.leaveCount, some s.place.travel.stepTimeout]
    ∧ (∀ h : Hold, entryFields s .envelopes (h.val + 1) = s.place.envelopes[h].map (fun x =>
          [some x.gantryMin, some x.gantryMax, some x.shuttleMin, some x.shuttleMax, some x.margin, x.chuteMax])
        ∧ entryFields s .holds (h.val + 1) = s.seq.holds[h].map (fun x => [some (x.arm % 65536).toNat, x.target])
        ∧ readState s .holds (h.val + 1) = [(s.seq.holdStates[h]).code])
    ∧ (∀ i : Fin 16, entryFields s .sequence i.val
        = s.seq.slots[i].map fun x => [some (x.hold.val + 1), some x.quota])
    ∧ entryFields s .plan 0 = s.seq.header.map (fun p =>
        [some p.slotCount, some p.order.code.toNat, some p.startSlot, some p.roundLimit, some p.trimLimit, p.shipTarget,
         some p.maxRate])
    ∧ entryFields s .gate 0 = some [some s.gate.replyWindow]
    ∧ entryFields s .dust 0 = some [some s.dust.elevDerate, some s.dust.highDerate]
    ∧ (∀ i : SensorNo, entryFields s .dust (i.val + 1) = (s.dust.sensors[i]).entry.map (fun x =>
          [some x.location.code.toNat, some x.elevated, some x.high, some x.trip, some x.hysteresis, some x.shift,
           some x.tripRun, some x.silenceTime, some (if x.enabled then 1 else 0)])
        ∧ readState s .dust (i.val + 1) = sensorBytes s.dust.sensors[i])
    ∧ (∀ i : SourceNo, let x := s.ladder.sources[i]
        entryFields s .alarm i.val
          = some [some x.rank, some (if x.record then 1 else 0), some (if x.present then 1 else 0)]
        ∧ readState s .alarm i.val = [x.state.code, byteOf x.repeats, if x.cond then 1 else 0])
    ∧ entryFields s .bills 0
        = some [some s.bills.marks[0], some s.bills.marks[1], some s.bills.marks[2], some s.bills.marks[3]]
    ∧ (∀ a : Account, readState s .accounts (a.val + 1) = beBytes 8 s.ship.accounts[a] ++ kgField s.ship.bases[a])
    ∧ readState s .accounts 14 = beBytes 8 s.ship.weighed ∧ readState s .accounts 15 = beBytes 8 s.ship.unassigned
    -- how the fields are laid out
    ∧ (∀ (k n : Nat) (x : Int) (bs : List Byte),
      beBytes 0 n = [] ∧ beBytes (k + 1) n = BitVec.ofNat 8 (n / 256 ^ k) :: beBytes k n
        ∧ beInt k x = beBytes k (x % (256 : Int) ^ k).toNat
        ∧ optField k none = 0 :: List.replicate k 0 ∧ optField k (some n) = 1 :: beBytes k n
        ∧ optGroup k none = 0 :: List.replicate k 0 ∧ optGroup k (some bs) = 1 :: bs
        ∧ byteOf n = BitVec.ofNat 8 n ∧ (n < 2 ^ 32 → kgField n = beBytes 4 n) ∧ roundKg n = (n + 500000) / 1000000)
    -- the codes
    ∧ [PartState.unconfigured, .ready].map PartState.code = [0, 1] ∧ [ShipState.noShip, .open].map ShipState.code = [0, 1]
    ∧ [LeaveOption.early, .late].map LeaveOption.code = [0, 1] ∧ [Motion.still, .moving].map Motion.code = [0, 1]
    ∧ [Axis.gantry, .shuttle, .chute].map Axis.code = [0, 1, 2] ∧ [Order.rotate, .paired].map Order.code = [0, 1]
    ∧ [SenseResult.floor, .none, .fault].map SenseResult.code = [0, 1, 2]
    ∧ [FeederState.stopped, .running, .fault, .unknown].map FeederState.code = [0, 1, 2, 3]
    ∧ [PlanState.idle, .active, .suspended, .finished].map PlanState.code = [0, 1, 2, 3]
    ∧ [VisitState.waiting, .armed, .pouring, .paused, .closing, .draining].map VisitState.code = [0, 1, 2, 3, 4, 5]
    ∧ [HoldState.idle, .filling, .full].map HoldState.code = [0, 1, 2]
    ∧ [Band.normal, .elevated, .high, .trip].map Band.code = [0, 1, 2, 3]
    ∧ [AvgBand.normal, .elevated, .high].map (fun b => b.toBand.code) = [0, 1, 2]
    ∧ [Location.hatch, .transfer, .spout, .deck].map Location.code = [0, 1, 2, 3]
    ∧ [AlarmState.idle, .pending, .inService, .standing].map AlarmState.code = [0, 1, 2, 3]
    ∧ [EndReason.quota, .holdTarget, .trim, .shipTarget, .halted, .stopInput, .dustTrip, .meterFault, .lineFault,
        .unplaced].map EndReason.code = [1, 2, 3, 4, 5, 6, 7, 8, 9, 10]
    ∧ [FinishReason.rounds, .noneEligible, .shipTarget].map FinishReason.code = [1, 2, 3]
    ∧ [PauseReason.stopOrder, .feederStopped, .feederFault].map PauseReason.code = [1, 2, 3]
    ∧ [ZeroOutcome.zeroed, .rejected, .loaded, .aborted, .faulted, .timeout].map ZeroOutcome.code = [1, 2, 3, 4, 5, 6]
    ∧ [InjOrder.rate, .stop, .move].map InjOrder.code = [2, 3, 4]
    ∧ (∀ (h : Hold) (a : Account), holdCode h = byteOf (h.val + 1) ∧ accountCode a = byteOf (a.val + 1))
    -- the sections of STATUS
    ∧ (let flag (b : Bool) : Byte := if b then 1 else 0
      let kg (mg : Nat) : List Byte := kgField (roundKg mg)
      let bits (bs : List Bool) : Byte := byteOf ((bs.zipIdx.map fun x => if x.1 then 2 ^ x.2 else 0).sum)
      let axis (a : AxisState) : List Byte := optField 4 a.pos ++ optField 1 (a.motion.map (·.code.toNat))
      let entry (d : InjDest) : List Byte := optGroup 2 ((s.gate.entry d).map fun x => [x.order.code, x.seq])
      let derate : List Byte := [s.dust.overall.code, byteOf (s.dust.percent s.dust.overall)]
      let stack := s.ladder.stack.reverse.map fun i => byteOf i.val
      let line (x : BillLine) : List Byte := accountCode x.account :: flag x.carried :: kgField x.mass
      let lines (xs : List BillLine) : List Byte := byteOf xs.length :: (xs.map line).flatten
      statusSection s 0 = some [s.handler.part.code, s.handler.ownAddr, s.handler.leave.code, flag s.handler.holdMoves,
        byteOf s.handler.threshold, byteOf s.line.u.tally, flag s.line.u.lineFault, byteOf s.line.d.tally,
        flag s.line.d.lineFault, flag s.pins.stop, flag s.gate.permit, flag s.ladder.horn, flag s.dust.spray]
      ∧ statusSection s 1 = some ([flag s.meter.fault, byteOf s.meter.clearing, flag s.meter.zero.isSome]
        ++ beBytes 4 (s.meter.zero.elim 0 (·.travel)) ++ beInt 2 s.meter.offset ++ kg s.meter.drift
        ++ beBytes 6 s.meter.belt ++ optField 2 (s.meter.prev.map fun x => x.1.toNat))
      ∧ statusSection s 2 = some ([byteOf s.flight.segments.length] ++ kg s.flight.total
        ++ beBytes 2 s.flight.nextNumber.toNat
        ++ optGroup 13 (s.flight.segments.head?.map fun g => beBytes 2 g.number.toNat
            ++ beBytes 4 (min (g.arrival - s.meter.belt) 4294967295) ++ kg g.mass ++ beBytes 2 g.samples
            ++ [bits [g.overload, g.gapBridged, g.coarse]])
        ++ optField 2 (s.flight.segments.getLast?.map fun g => g.number.toNat))
      ∧ statusSection s 3 = some (axis s.place.axes.gantry ++ axis s.place.axes.shuttle ++ axis s.place.axes.chute
        ++ optField 1 (s.place.sense.map (·.code.toNat))
        ++ (match s.place.state with
          | .clear => [0, 0, 0]
          | .settling h n => [1, holdCode h, byteOf n]
          | .placed h => [2, holdCode h, 0]
          | .leaving h n => [3, holdCode h, byteOf n])
        ++ [accountCode s.place.pourPoint, flag (pourPhase s)]
        ++ optGroup 6 (s.place.held.map fun h => [(axisOf h.axis).code] ++ beBytes 4 h.target ++ [h.frame.seq])
        ++ optGroup 4 (s.place.sweep.map fun w =>
            [(axisOf w.axis).code, if w.plus then 0 else 1, byteOf w.remaining, byteOf w.done]))
      ∧ statusSection s 4 = some ([s.seq.plan.code, s.seq.order.code, byteOf s.seq.start, byteOf s.seq.cursor]
        ++ beBytes 2 s.seq.round ++ beBytes 2 s.seq.skips ++ optField 1 (s.seq.finish.map (·.code.toNat))
        ++ optGroup 15 (s.seq.visit.map fun v => [byteOf v.slot.val, holdCode v.hold, byteOf v.round]
            ++ beBytes 4 v.quota ++ [v.state.code] ++ kg v.poured ++ optField 1 (v.endReason.map (·.code.toNat))
            ++ [byteOf v.pauseCount])
        ++ beInt 8 ((trimMoment s).tdiv 1000000))
      ∧ statusSection s 5 = some ([s.gate.feeder.code] ++ beBytes 2 s.gate.rateLimit ++ optField 2 s.gate.lastRate
        ++ [flag s.gate.pendingDerate] ++ entry .feeder ++ entry (.drive .gantry) ++ entry (.drive .shuttle) ++ derate)
      ∧ statusSection s 6 = some ((s.dust.sensors.toList.map sensorBytes).flatten ++ derate ++ [flag s.dust.spray])
      ∧ (∀ x : Sensor, sensorBytes x = [flag x.entry.isSome, flag x.enabled] ++ beBytes 2 (x.a16 / 16).toNat
        ++ [x.avgBand.toBand.code, x.effective.code, byteOf (x.run + if x.silent then 128 else 0)])
      ∧ statusSection s 7 = some (optGroup 2 (s.ladder.presented.map fun x => [byteOf x.1.val, byteOf x.2])
        ++ [flag s.ladder.horn, byteOf s.ladder.stack.length] ++ stack ++ List.replicate (16 - stack.length) 0
        ++ beBytes 5 ((List.finRange 40).map fun i : SourceNo =>
            if (s.ladder.sources[i]).state = .pending then 2 ^ i.val else 0).sum)
      ∧ statusSection s 8 = some (beBytes 2 s.bills.records.length ++ beBytes 2 s.bills.reserved
        ++ beBytes 2 (256 - s.bills.records.length - s.bills.reserved)
        ++ optField 4 (s.bills.records.head?.map fun r => r.seq.toNat)
        ++ optField 4 (s.bills.records.getLast?.map fun r => r.seq.toNat) ++ beBytes 4 s.bills.nextSeq.toNat
        ++ optField 1 s.bills.lastMark ++ [flag s.bills.unbilled, s.ship.state.code] ++ optField 2 s.ship.number
        ++ kg s.ship.weighed ++ kg s.ship.unassigned)
      -- the records
      ∧ ∀ q : BitVec 32,
        (∀ ship slot hold round quota xs excess why fl start belt trim count pauses,
          recordBytes ⟨q, .visit ship slot hold round quota xs excess (some why) fl (some start) belt trim count pauses⟩
            = [1] ++ beBytes 4 q.toNat ++ beBytes 2 ship ++ [byteOf slot.val, holdCode hold, byteOf round]
              ++ beBytes 4 quota ++ lines xs ++ kgField excess
              ++ [why.code, bits [fl.clamped, fl.derated, fl.coarse, fl.gapBridged, fl.overload, fl.hardStopped,
                  fl.pausesTruncated]]
              ++ beBytes 6 start ++ beBytes 6 belt ++ beInt 8 trim ++ [byteOf count, byteOf pauses.length]
              ++ (pauses.map fun p => p.reason.code :: beBytes 6 p.belt).flatten)
        ∧ (∀ old new why travel, recordBytes ⟨q, .zero old new why travel⟩
            = [2] ++ beBytes 4 q.toNat ++ beInt 2 old ++ beInt 2 new ++ [why.code] ++ beBytes 4 travel)
        ∧ (∀ ship, recordBytes ⟨q, .shipOpen ship⟩ = [3] ++ beBytes 4 q.toNat ++ beBytes 2 ship)
        ∧ ∀ ship xs weighed unassigned, recordBytes ⟨q, .shipClose ship xs weighed unassigned⟩
            = [4] ++ beBytes 4 q.toNat ++ beBytes 2 ship ++ lines xs ++ kgField weighed ++ kgField unassigned)

/-- SET_OPTIONS gives every marked option its value, puts ports at or above a new threshold into LINE FAULT, with their
alarms and port D's trigger (R84, R175), and is answered from the old own address (R193); out of range it is refused
BAD_VALUE, with a present role's address DUPLICATE_ADDRESS. -/
def Obligations.OptionsSet : Prop :=
  ∀ (s : State) (e : RxEntry) (rest : List RxEntry) (mask leave hold own thr : Byte), Heads s .U .setOptions e rest →
    e.frame.payload = [4, mask, leave, hold, own, thr] →
    let s1 := takeHead .U e rest .setOptions s
    let inRange : Prop := mask.toNat < 16 ∧ (mask.getLsbD 0 = true → leave.toNat ≤ 1)
      ∧ (mask.getLsbD 1 = true → hold.toNat ≤ 1) ∧ (mask.getLsbD 2 = true → 1 ≤ own.toNat ∧ own.toNat ≤ 62)
      ∧ (mask.getLsbD 3 = true → 1 ≤ thr.toNat)
    let taken : Prop := mask.getLsbD 2 = true ∧ ∃ r : Role, s.station r = some own
    (inRange → ¬ taken →
      Takes s .U .setOptions e rest optionBlocks fun t =>
        t.handler.leave = (if mask.getLsbD 0 then (if leave = 0 then .early else .late) else s.handler.leave)
          ∧ t.handler.holdMoves = (if mask.getLsbD 1 then hold == 1 else s.handler.holdMoves)
          ∧ t.handler.ownAddr = (if mask.getLsbD 2 then own else s.handler.ownAddr)
          ∧ t.handler.threshold = (if mask.getLsbD 3 then thr.toNat else s.handler.threshold)
          ∧ (∀ p, (t.line.port p).lineFault
              = ((s1.line.port p).lineFault || decide (t.handler.threshold ≤ (s1.line.port p).tally)))
          ∧ (∀ p,
            let enters : Prop := (s1.line.port p).lineFault = false ∧ t.handler.threshold ≤ (s1.line.port p).tally
            (enters → EntersLineFault p s1 t)
            ∧ (¬ enters → t.ladder.sources[srcLineFault p] = s1.ladder.sources[srcLineFault p]
                ∧ (p = .D → ∀ b ∈ pourBlocks, b = .sources ∨ b = .send .U ∨ Same b s1 t)))
          ∧ Offered .U (answerFrame s e.frame [4, 0, 0]) s t)
    ∧ (¬ inRange → Takes s .U .setOptions e rest [] fun t => Offered .U (answerFrame s e.frame [4, 1, 20]) s t)
    ∧ (inRange → taken → Takes s .U .setOptions e rest [] fun t =>
        Offered .U (answerFrame s e.frame [4, 1, 34]) s t)

/-! ## The ship and the plan -/

/-- OPEN_SHIP, accepted under R162's conditions, opens the ship at zero and issues SHIP_OPEN with its mark test (R141,
R146, R152, R163); else it is refused with the first reason of R162's table. -/
def Obligations.ShipOpened : Prop :=
  ∀ (s : State) (e : RxEntry) (rest : List RxEntry) (a b : Byte), Heads s .U .openShip e rest →
    e.frame.payload = [5, a, b] →
    let n := a.toNat * 256 + b.toNat
    let idle : Prop := s.ship.state = .noShip ∧ s.flight.total = 0 ∧ s.gate.feeder ≠ .running
    let full : Prop := 256 ≤ s.bills.records.length + s.bills.reserved
    (n ≠ 0 → s.ready = true → idle → ¬ full →
      Takes s .U .openShip e rest openBlocks fun t =>
        t.ship.state = .open ∧ t.ship.number = some n ∧ t.ship.weighed = 0
          ∧ (∀ x : Account, t.ship.accounts[x] = 0 ∧ t.ship.bases[x] = 0) ∧ (∀ h : Hold, t.seq.holdStates[h] = .idle)
          ∧ t.bills.records = s.bills.records ++ [⟨s.bills.nextSeq, .shipOpen n⟩]
          ∧ t.bills.nextSeq = s.bills.nextSeq + 1 ∧ t.bills.reserved = s.bills.reserved ∧ t.bills.unbilled = false
          ∧ MarkTested s t ∧ Offered .U (answerFrame s e.frame [5, 0, 0]) s t)
    ∧ ∀ r : Reason, ((r = .badValue ∧ n = 0) ∨ (r = .notReady ∧ n ≠ 0 ∧ s.ready = false)
        ∨ (r = .busy ∧ n ≠ 0 ∧ s.ready = true ∧ ¬ idle) ∨ (r = .billFull ∧ n ≠ 0 ∧ s.ready = true ∧ idle ∧ full)) →
      Takes s .U .openShip e rest (if r = .billFull then [.sources] else []) fun t =>
        Offered .U (answerFrame s e.frame [5, 1, r.code]) s t
          ∧ (r = .billFull → t.ladder.sources[srcBillFull] = (s.ladder.sources[srcBillFull]).raised)

/-- CLOSE_SHIP, accepted under R164's conditions, cuts the last lines, issues SHIP_CLOSE, clears the unassigned total
and the plan, and leaves the accounts (R147, R148, R152, R165); else it is refused with the first reason of R164's table. -/
def Obligations.ShipClosed : Prop :=
  ∀ (s : State) (e : RxEntry) (rest : List RxEntry), Heads s .U .closeShip e rest →
    let idle : Prop := s.seq.plan ≠ .active ∧ s.seq.visit = none ∧ s.flight.total = 0 ∧ s.gate.feeder ≠ .running
    let full : Prop := 256 ≤ s.bills.records.length + s.bills.reserved
    let kg (x : Nat) : Nat := (x + 500000) / 1000000
    let stated (a : Account) : Prop :=
      a = unplaced ∨ s.ship.accounts[a] ≠ 0 ∨ ∃ h : Hold, holdAccount h = a ∧ s.seq.holds[h] ≠ none
    (∀ n, s.ready = true → s.ship.state = .open → s.ship.number = some n → idle → ¬ full →
      Takes s .U .closeShip e rest closeBlocks fun t =>
        t.ship.state = .noShip ∧ t.ship.number = some n ∧ t.ship.unassigned = 0 ∧ t.seq.plan = .idle
          ∧ t.seq.cursor = 0 ∧ t.seq.round = 0 ∧ t.seq.skips = 0 ∧ t.seq.finish = none ∧ t.seq.order = .rotate
          ∧ t.seq.start = 0 ∧ t.bills.unbilled = false
          ∧ (∀ a : Account, stated a → t.ship.bases[a] = kg s.ship.accounts[a])
          ∧ (∃ as : List Account, (∀ a, a ∈ as ↔ stated a) ∧ as.Pairwise (· < ·)
              ∧ t.bills.records = s.bills.records ++ [⟨s.bills.nextSeq, .shipClose n
                  (as.map fun a => ⟨a, false, kg s.ship.accounts[a] - s.ship.bases[a]⟩) (kg s.ship.weighed)
                  (kg s.ship.unassigned)⟩])
          ∧ t.bills.nextSeq = s.bills.nextSeq + 1 ∧ MarkTested s t
          ∧ Offered .U (answerFrame s e.frame [6, 0, 0]) s t)
    ∧ ∀ r : Reason, ((r = .notReady ∧ s.ready = false) ∨ (r = .noShip ∧ s.ready = true ∧ s.ship.state = .noShip)
        ∨ (r = .busy ∧ s.ready = true ∧ s.ship.state = .open ∧ ¬ idle)
        ∨ (r = .billFull ∧ s.ready = true ∧ s.ship.state = .open ∧ idle ∧ full)) →
      Takes s .U .closeShip e rest (if r = .billFull then [.sources] else []) fun t =>
        Offered .U (answerFrame s e.frame [6, 1, r.code]) s t
          ∧ (r = .billFull → t.ladder.sources[srcBillFull] = (s.ladder.sources[srcBillFull]).raised)

/-- START_PLAN with every table it needs starts the plan at round 1 and cursor 0 and selects (R70, R73, R74, R78): the
first slot of the visiting order that is eligible opens its visit, with its NEXT_SLOT notice, each slot passed over
counted; ARMED when the spout is PLACED at its hold. The plan finishes at once when the ship target is reached, or when
no slot is eligible (with TRIM_BOUND when one was past the trim limit). Else it is refused with the first reason of R70's
table; an order code or a mask outside its values is refused BAD_VALUE after NOT_READY (log entry 15). -/
def Obligations.PlanStarted : Prop :=
  (∀ (s : State) (e : RxEntry) (rest : List RxEntry) (mask slot order : Byte) (p : PlanHeader) (i : Fin 16) (sl : Slot),
    Heads s .U .startPlan e rest → e.frame.payload = [7, mask, slot, order] → s.ready = true → mask.toNat < 4 →
    (mask.getLsbD 1 = true → order.toNat < 2) → s.ship.state = .open → s.seq.plan ≠ .active →
    s.seq.plan ≠ .suspended → s.seq.header = some p → planLoaded s p = true →
    let o : Order := if mask.getLsbD 1 then (if order = 0 then .rotate else .paired) else p.order
    i.val = (if mask.getLsbD 0 then slot.toNat else p.startSlot) → i.val < p.slotCount →
    (o = .rotate ∨ p.slotCount = 2 ∨ p.slotCount = 4 ∨ p.slotCount = 8 ∨ p.slotCount = 16) →
    s.seq.slots[i] = some sl → 1 ≤ p.roundLimit → (∀ g, p.shipTarget = some g → pouredTotal s < g * 1000000) →
    s.seq.holdStates[sl.hold] ≠ .full →
    ¬ (0 < trimMoment s * armOf s sl.hold ∧ p.trimLimit * 1000000 ≤ (trimMoment s).natAbs) →
    Takes s .U .startPlan e rest selectionBlocks fun t =>
      t.seq.plan = .active ∧ t.seq.round = 1 ∧ t.seq.cursor = 0 ∧ t.seq.skips = 0 ∧ t.seq.finish = none
        ∧ t.seq.start = i.val ∧ t.seq.order = o
        ∧ t.seq.visit = some
            { slot := i, hold := sl.hold, round := 1, quota := sl.quota,
              state := if s.place.state = .placed sl.hold then .armed else .waiting, poured := 0,
              changed := Vector.replicate 13 false, flags := VisitFlags.none, start := none, pauses := [],
              pauseCount := 0, endReason := none, reserved := false }
        ∧ Offered .U (answerFrame s e.frame [7, 0, 0]) s t
        ∧ (s.line.u.txQueue.length < 7 →
            OnWire .U { dst := 0, src := s.handler.ownAddr, kind := 0x41, seq := 0,
                        payload := [2, byteOf i.val, holdCode sl.hold, 1] ++ beBytes 4 sl.quota ++ [0, 0] } t))
  ∧ (∀ (s : State) (e : RxEntry) (rest : List RxEntry) (mask slot order : Byte), Heads s .U .startPlan e rest →
    e.frame.payload = [7, mask, slot, order] →
    let badMask : Prop := 4 ≤ mask.toNat ∨ (mask.getLsbD 1 = true ∧ 2 ≤ order.toNat)
    let runs : Prop := s.seq.plan = .active ∨ s.seq.plan = .suspended
    let start (p : PlanHeader) : Nat := if mask.getLsbD 0 then slot.toNat else p.startSlot
    let chosen (p : PlanHeader) : Order :=
      if mask.getLsbD 1 then (if order = 0 then .rotate else .paired) else p.order
    let suits (p : PlanHeader) : Prop := start p < p.slotCount
      ∧ (chosen p = .rotate ∨ p.slotCount = 2 ∨ p.slotCount = 4 ∨ p.slotCount = 8 ∨ p.slotCount = 16)
    (∀ r : Reason, ((r = .notReady ∧ s.ready = false) ∨ (s.ready = true ∧
        ((r = .badValue ∧ badMask) ∨ (¬ badMask ∧
          ((r = .noShip ∧ s.ship.state = .noShip) ∨ (s.ship.state = .open ∧
            ((r = .busy ∧ runs) ∨ (¬ runs ∧
              ((r = .notLoaded ∧ ∀ p, s.seq.header = some p → planLoaded s p = false)
                ∨ (r = .badPlan ∧ ∃ p, s.seq.header = some p ∧ planLoaded s p = true ∧ ¬ suits p)))))))))) →
      Takes s .U .startPlan e rest [] fun t => Offered .U (answerFrame s e.frame [7, 1, r.code]) s t)
    ∧ ∀ p, s.ready = true → ¬ badMask → s.ship.state = .open → ¬ runs → s.seq.header = some p →
      planLoaded s p = true → suits p →
      let index (k : Nat) : Nat :=
        match chosen p with
        | .rotate => (start p + k) % p.slotCount
        | .paired => start p ^^^ k
      let passed (k : Nat) (trim : Bool) : Prop :=
        ∃ (i : Fin 16) (sl : Slot), index k = i.val ∧ s.seq.slots[i] = some sl ∧ ineligible s p sl.hold = some trim
      let short : Prop := ∀ g, p.shipTarget = some g → pouredTotal s < g * 1000000
      let begun (t : State) : Prop := t.seq.round = 1 ∧ t.seq.start = start p ∧ t.seq.order = chosen p
        ∧ Offered .U (answerFrame s e.frame [7, 0, 0]) s t
      let finished (r : FinishReason) (skips : Nat) (t : State) : Prop := begun t ∧ t.seq.plan = .finished
        ∧ t.seq.finish = some r ∧ t.seq.skips = skips ∧ t.seq.visit = s.seq.visit
        ∧ (s.line.u.txQueue.length < 7 →
            OnWire .U { dst := 0, src := s.handler.ownAddr, kind := 0x41, seq := 0,
                        payload := [3, r.code] ++ beBytes 2 1 ++ beBytes 2 skips } t)
      (∀ (k : Nat) (i : Fin 16) (sl : Slot), k < p.slotCount → (∀ k' < k, ∃ trim, passed k' trim) →
        index k = i.val → s.seq.slots[i] = some sl → ineligible s p sl.hold = none → 1 ≤ p.roundLimit → short →
        Takes s .U .startPlan e rest selectionBlocks fun t =>
          begun t ∧ t.seq.plan = .active ∧ t.seq.cursor = k ∧ t.seq.skips = k ∧ t.seq.finish = none
            ∧ t.seq.visit = some { newVisit s i sl with round := 1 }
            ∧ (s.line.u.txQueue.length < 7 →
                OnWire .U { dst := 0, src := s.handler.ownAddr, kind := 0x41, seq := 0,
                            payload := [2, byteOf i.val, holdCode sl.hold, 1] ++ beBytes 4 sl.quota ++ beBytes 2 k } t))
      ∧ (¬ short → Takes s .U .startPlan e rest selectionBlocks fun t =>
          finished .shipTarget 0 t ∧ t.seq.cursor = 0 ∧ t.ladder.sources[srcTrimBound] = s.ladder.sources[srcTrimBound])
      ∧ ((∀ k < p.slotCount, ∃ trim, passed k trim) → 1 ≤ p.roundLimit → short →
        Takes s .U .startPlan e rest selectionBlocks fun t =>
          finished .noneEligible p.slotCount t ∧ t.seq.cursor = p.slotCount - 1
            ∧ ((∃ k < p.slotCount, passed k true) →
                t.ladder.sources[srcTrimBound] = (s.ladder.sources[srcTrimBound]).raised)
            ∧ ((∀ k < p.slotCount, passed k false) →
                t.ladder.sources[srcTrimBound] = s.ladder.sources[srcTrimBound])))
  ∧ (∀ (s : State) (p : PlanHeader), planLoaded s p = true ↔ ∀ k < p.slotCount, ∃ (i : Fin 16) (sl : Slot),
      i.val = k ∧ s.seq.slots[i] = some sl ∧ s.seq.holds[sl.hold] ≠ none ∧ s.place.envelopes[sl.hold] ≠ none)
  ∧ ∀ (s : State) (p : PlanHeader) (h : Hold),
    let past : Prop := 0 < trimMoment s * armOf s h ∧ p.trimLimit * 1000000 ≤ (trimMoment s).natAbs
    (s.seq.holdStates[h] = .full → ineligible s p h = some false)
      ∧ (s.seq.holdStates[h] ≠ .full → past → ineligible s p h = some true)
      ∧ (s.seq.holdStates[h] ≠ .full → ¬ past → ineligible s p h = none)

/-- HALT_PLAN (R75): refused NOT_READY or NOT_ACTIVE, else DONE. It suspends the plan and cancels a held move (R55); a
WAITING or ARMED visit is dropped without a record, a POURING one enters CLOSING with the close-out STOP injected, or
adopted from a stray start (R93, R103), or, where it cannot be issued, DRAINING with HARD_STOPPED and CLOSEOUT_NOT_ISSUED
(R105), a PAUSED one with grain in flight enters DRAINING, and a CLOSING or DRAINING one stays. -/
def Obligations.PlanHalted : Prop :=
  ∀ (s : State) (e : RxEntry) (rest : List RxEntry), Heads s .U .haltPlan e rest →
    (s.ready = false → Takes s .U .haltPlan e rest [] fun t => Offered .U (answerFrame s e.frame [8, 1, 1]) s t)
    ∧ (s.ready = true → s.seq.plan ≠ .active →
      Takes s .U .haltPlan e rest [] fun t => Offered .U (answerFrame s e.frame [8, 1, 25]) s t)
    ∧ ∀ v : Visit, s.ready = true → s.seq.plan = .active → s.seq.visit = some v →
      let halted (t : State) : Prop := t.seq.plan = .suspended ∧ t.place.held = none ∧ t.seq.cursor = s.seq.cursor
        ∧ Offered .U (answerFrame s e.frame [8, 0, 0]) s t
        ∧ ∀ h, s.place.held = some h → s.line.u.txQueue.length < 7 → OnWire .U (refusalFrame s h.frame .cancelled) t
      ((v.state = .waiting ∨ v.state = .armed) →
        Takes s .U .haltPlan e rest [.plan, .visit, .held, .unbilled] fun t =>
          halted t ∧ t.seq.visit = none ∧ t.bills.unbilled = (s.bills.unbilled || v.changed.toList.any id))
      ∧ (∀ addr, v.state = .pouring → s.gate.injFeeder = none → s.line.d.lineFault = false →
          s.station .feeder = some addr →
        Takes s .U .haltPlan e rest [.plan, .visit, .held, .entries, .rate, .injection, .send .D] fun t =>
          let f : Frame := { dst := addr, src := s.handler.ownAddr, kind := 0x21, seq := s.line.injSeq, payload := [3] }
          halted t ∧ t.seq.visit = some { v with state := .closing, endReason := some .halted }
            ∧ t.gate.pendingDerate = false ∧ t.gate.lastRate = s.gate.lastRate
            ∧ t.gate.injFeeder
                = some { order := .stop, seq := s.line.injSeq, deadline := s.now + s.gate.replyWindow }
            ∧ t.line.injSeq = s.line.injSeq + 1
            ∧ (t.line.d.sending = some f ∨ { dest := .feeder, frame := f } ∈ t.line.injection))
      ∧ (∀ x, v.state = .pouring → s.gate.injFeeder = some x → x.order = .stop →
        Takes s .U .haltPlan e rest [.plan, .visit, .held, .rate] fun t =>
          halted t ∧ t.seq.visit = some { v with state := .closing, endReason := some .halted }
            ∧ t.gate.pendingDerate = false ∧ t.gate.lastRate = s.gate.lastRate)
      ∧ (v.state = .pouring → 0 < s.flight.total →
          ((∃ x, s.gate.injFeeder = some x ∧ x.order = .rate)
            ∨ (s.gate.injFeeder = none ∧ s.line.d.lineFault = true)) →
        Takes s .U .haltPlan e rest [.plan, .visit, .held, .entries, .injection, .sources] fun t =>
          halted t
            ∧ t.seq.visit = some { v with state := .draining, endReason := some .halted,
                                          flags := { v.flags with hardStopped := true } }
            ∧ t.gate.injFeeder = none ∧ (∀ y ∈ t.line.injection, y.dest ≠ .feeder) ∧ t.line.injSeq = s.line.injSeq
            ∧ t.ladder.sources[srcCloseoutNotIssued] = (s.ladder.sources[srcCloseoutNotIssued]).raised)
      ∧ (v.state = .paused → 0 < s.flight.total →
        Takes s .U .haltPlan e rest [.plan, .visit, .held] fun t =>
          halted t ∧ t.seq.visit = some { v with state := .draining, endReason := some .halted })
      ∧ ((v.state = .closing ∨ v.state = .draining) →
        Takes s .U .haltPlan e rest [.plan, .held] fun t => halted t ∧ t.seq.visit = some v)

/-- RESUME_PLAN and SKIP_SLOT select again (R71, R73, R76, R77): the first from the cursor as it stands, the second with
the waiting visit dropped and the cursor one further; the skip count stays when the slot met is eligible, and the plan
finishes with ROUNDS when the round is past the limit. RESUME_PLAN is refused NOT_READY, NOT_SUSPENDED or, with a visit
open, BUSY; SKIP_SLOT NOT_READY, NOT_ACTIVE or, with a visit that pours, BUSY. -/
def Obligations.PlanResumedOrSkipped : Prop :=
  (∀ (s : State) (e : RxEntry) (rest : List RxEntry) (p : PlanHeader) (i : Fin 16) (sl : Slot), s.ready = true →
    s.seq.header = some p → s.seq.slots[i] = some sl → s.seq.round ≤ p.roundLimit → 1 ≤ p.slotCount →
    (∀ g, p.shipTarget = some g → pouredTotal s < g * 1000000) → ineligible s p sl.hold = none →
    (Heads s .U .resumePlan e rest → s.seq.plan = .suspended → s.seq.visit = none →
      slotIndex s.seq p.slotCount s.seq.cursor = i.val →
      Takes s .U .resumePlan e rest selectionBlocks fun t =>
        t.seq.plan = .active ∧ t.seq.cursor = s.seq.cursor ∧ t.seq.round = s.seq.round ∧ t.seq.skips = s.seq.skips
          ∧ t.seq.visit = some (newVisit s i sl))
    ∧ (∀ v, Heads s .U .skipSlot e rest → s.seq.plan = .active → s.seq.visit = some v →
      (v.state = .waiting ∨ v.state = .armed) → s.seq.cursor + 1 < p.slotCount →
      slotIndex s.seq p.slotCount (s.seq.cursor + 1) = i.val →
      Takes s .U .skipSlot e rest (.unbilled :: selectionBlocks) fun t =>
        t.seq.plan = .active ∧ t.seq.cursor = s.seq.cursor + 1 ∧ t.seq.round = s.seq.round
          ∧ t.seq.skips = s.seq.skips ∧ t.seq.visit = some (newVisit s i sl)))
  ∧ ∀ (s : State) (e : RxEntry) (rest : List RxEntry),
    (∀ r : Reason, Heads s .U .resumePlan e rest →
      ((r = .notReady ∧ s.ready = false) ∨ (r = .notSuspended ∧ s.ready = true ∧ s.seq.plan ≠ .suspended)
        ∨ (r = .busy ∧ s.ready = true ∧ s.seq.plan = .suspended ∧ s.seq.visit ≠ none)) →
      Takes s .U .resumePlan e rest [] fun t => Offered .U (answerFrame s e.frame [9, 1, r.code]) s t)
    ∧ (∀ r : Reason, Heads s .U .skipSlot e rest →
      ((r = .notReady ∧ s.ready = false) ∨ (r = .notActive ∧ s.ready = true ∧ s.seq.plan ≠ .active)
        ∨ (r = .busy ∧ s.ready = true ∧ s.seq.plan = .active ∧ s.visitPours = true)) →
      Takes s .U .skipSlot e rest [] fun t => Offered .U (answerFrame s e.frame [10, 1, r.code]) s t)
    ∧ ∀ p : PlanHeader, s.ready = true → s.seq.header = some p → 1 ≤ p.slotCount →
      (∀ g, p.shipTarget = some g → pouredTotal s < g * 1000000) →
      (Heads s .U .resumePlan e rest → s.seq.plan = .suspended → s.seq.visit = none → p.roundLimit < s.seq.round →
        Takes s .U .resumePlan e rest selectionBlocks fun t =>
          t.seq.plan = .finished ∧ t.seq.finish = some .rounds ∧ t.seq.visit = none)
      ∧ (∀ v, Heads s .U .skipSlot e rest → s.seq.plan = .active → s.seq.visit = some v →
        (v.state = .waiting ∨ v.state = .armed) → p.slotCount ≤ s.seq.cursor + 1 → p.roundLimit < s.seq.round + 1 →
        Takes s .U .skipSlot e rest (.unbilled :: selectionBlocks) fun t =>
          t.seq.plan = .finished ∧ t.seq.finish = some .rounds ∧ t.seq.visit = none ∧ t.seq.cursor = 0
            ∧ t.seq.round = s.seq.round + 1)

/-! ## ZERO, SWEEP and records -/

/-- ZERO_BELT, accepted under R19's conditions, takes a reservation and begins the operation with its timer; else it is
refused NOT_READY, BUSY or, a place alone lacking, BILL_FULL with its alarm. -/
def Obligations.ZeroBegun : Prop :=
  ∀ (s : State) (e : RxEntry) (rest : List RxEntry), Heads s .U .zeroBelt e rest →
    let free : Prop := s.bills.records.length + s.bills.reserved < 256
    let idle : Prop := s.meter.zero = none ∧ s.gate.feeder = .stopped ∧ s.flight.segments = [] ∧ s.visitPours = false
      ∧ s.meter.fault = false
    (∀ sc, s.meter.table = some sc → s.ready = true → idle → free →
      Takes s .U .zeroBelt e rest [.zero, .reserved] fun t =>
        t.meter.zero = some { oldOffset := s.meter.offset, travel := 0, loadTravel := 0,
                              expiry := s.now + sc.zeroTimeout * 1000 }
          ∧ t.bills.reserved = s.bills.reserved + 1 ∧ Offered .U (answerFrame s e.frame [11, 0, 0]) s t)
    ∧ ∀ r : Reason, ((r = .notReady ∧ s.ready = false) ∨ (r = .busy ∧ s.ready = true ∧ ¬ idle)
        ∨ (r = .billFull ∧ s.ready = true ∧ idle ∧ ¬ free)) →
      Takes s .U .zeroBelt e rest (if r = .billFull then [.sources] else []) fun t =>
        Offered .U (answerFrame s e.frame [11, 1, r.code]) s t
          ∧ (r = .billFull → t.ladder.sources[srcBillFull] = (s.ladder.sources[srcBillFull]).raised)

/-- ZERO_ABORT and the zero timer, once its moment has come, end a running operation with its ZERO record in its
reservation, its mark tested and its ZERO_DONE notice, offset and drift unchanged (R22, R23, R152); an idle meter
refuses ZERO_ABORT NOT_ZEROING. (An expiry command before its moment: log entry 2, stated with the other timers.) -/
def Obligations.ZeroEnded : Prop :=
  ∀ s : State,
    (∀ e rest z, Heads s .U .zeroAbort e rest → s.meter.zero = some z →
      Takes s .U .zeroAbort e rest zeroEndBlocks fun t =>
        t.meter.zero = none ∧ t.bills.reserved = s.bills.reserved - 1
          ∧ t.bills.records
              = s.bills.records ++ [⟨s.bills.nextSeq, .zero z.oldOffset s.meter.offset .aborted z.travel⟩]
          ∧ t.bills.nextSeq = s.bills.nextSeq + 1 ∧ MarkTested s t
          ∧ Offered .U (answerFrame s e.frame [12, 0, 0]) s t
          ∧ (s.line.u.txQueue.length < 7 → OnWire .U (zeroDone s .aborted s.bills.nextSeq) t))
    ∧ (∀ e rest, Heads s .U .zeroAbort e rest → s.meter.zero = none →
      Takes s .U .zeroAbort e rest [] fun t => Offered .U (answerFrame s e.frame [12, 1, 27]) s t)
    ∧ (∀ z, s.meter.zero = some z → z.expiry ≤ s.now →
      Runs s .zeroTimeout zeroEndBlocks fun t =>
        t.meter.zero = none ∧ t.bills.reserved = s.bills.reserved - 1
          ∧ t.bills.records
              = s.bills.records ++ [⟨s.bills.nextSeq, .zero z.oldOffset s.meter.offset .timeout z.travel⟩]
          ∧ t.bills.nextSeq = s.bills.nextSeq + 1 ∧ MarkTested s t
          ∧ Offered .U (zeroDone s .timeout s.bills.nextSeq) s t)

/-- A SWEEP at the placed hold, outside pour phase or with that hold the guarded one, is answered DONE and starts its
first step: the target is the axis's position moved by the step and clipped to the hold's inner interval within the
axis's limits, and its MOVE is injected (R56, R57). The clip reads the envelope entry as it stands; that a load counts
here before the next POSITION or HOLDSENSE sample (R44) is the model's choice (log entry 41). With port D in LINE FAULT,
or the axis role absent (log entry 9), the sweep ends at once MOVE_FAULT (R57, R61, R62). It is refused BAD_VALUE,
NOT_READY, BUSY, NOT_PLACED or, in pour phase at another hold, BUSY, in that order (R56). -/
def Obligations.SweepBegun : Prop :=
  ∀ (s : State) (e : RxEntry) (rest : List RxEntry) (x dir hi lo count : Byte),
    Heads s .U .sweep e rest → e.frame.payload = [13, x, dir, hi, lo, count] →
    let step := hi.toNat * 256 + lo.toNat
    let inRange : Prop := x.toNat ≤ 1 ∧ dir.toNat ≤ 1 ∧ 10 ≤ step ∧ step ≤ 5000 ∧ 1 ≤ count.toNat
    (∀ (a : DriveAxis) (addr : Byte) (h : Hold) (en : Envelope) (pos : Nat), x = (axisOf a).code → inRange →
      s.ready = true → s.place.sweep = none → s.place.held = none → s.place.state = .placed h →
      (pourPhase s = true → ∃ v, s.seq.visit = some v ∧ v.hold = h) → s.place.envelopes[h] = some en →
      (s.place.axes.get (axisOf a)).pos = some pos → s.gate.entry (.drive a) = none → s.line.d.lineFault = false →
      s.station (axisOf a).role = some addr →
      let low := max (en.innerLow a) (s.place.travel.limits (axisOf a)).low
      let high := min (en.innerHigh a) (s.place.travel.limits (axisOf a)).high
      low ≤ high →
      let v : Int := if dir = 0 then (pos : Int) + step else (pos : Int) - step
      let target : Nat := (max (low : Int) (min (high : Int) v)).toNat
      Takes s .U .sweep e rest [.sweep, .entries, .injection, .draws, .send .D] fun t =>
        t.place.sweep = some { axis := a, plus := dir == 0, step := step, remaining := count.toNat, done := 0, hold := h,
                               clipped := decide ((target : Int) ≠ v), target := target, phase := .awaitingReply,
                               timer := s.now + s.place.travel.stepTimeout * 1000 }
          ∧ Injects (.drive a) .move addr (4 :: (axisOf a).code :: beBytes 4 target) s t
          ∧ Offered .U (answerFrame s e.frame [13, 0, 0]) s t)
    ∧ (∀ (a : DriveAxis) (h : Hold), x = (axisOf a).code → inRange → s.ready = true → s.place.sweep = none →
      s.place.held = none → s.place.state = .placed h →
      (pourPhase s = true → ∃ v, s.seq.visit = some v ∧ v.hold = h) →
      s.line.d.lineFault = true ∨ s.station (axisOf a).role = none →
      Takes s .U .sweep e rest [.sweep, .entries, .injection, .sources, .draws] fun t =>
        t.place.sweep = none ∧ t.gate.entry (.drive a) = none ∧ (∀ y ∈ t.line.injection, y.dest ≠ .drive a)
          ∧ t.ladder.sources[srcSweepFault] = (s.ladder.sources[srcSweepFault]).raised
          ∧ Offered .U (answerFrame s e.frame [13, 0, 0]) s t
          ∧ (s.line.u.txQueue.length < 7 →
              OnWire .U { dst := 0, src := s.handler.ownAddr, kind := 0x41, seq := 0,
                          payload := [5, 4, (axisOf a).code, 0] } t))
    ∧ ∀ r : Reason,
      let standing : Prop := s.place.sweep = none ∧ s.place.held = none
      ((r = .badValue ∧ ¬ inRange) ∨ (inRange ∧ ((r = .notReady ∧ s.ready = false)
        ∨ (r = .busy ∧ s.ready = true ∧ ¬ standing)
        ∨ (r = .notPlaced ∧ s.ready = true ∧ standing ∧ ∀ h, s.place.state ≠ .placed h)
        ∨ (r = .busy ∧ s.ready = true ∧ standing ∧ ∃ h, s.place.state = .placed h ∧ pourPhase s = true
            ∧ ∀ v, s.seq.visit = some v → v.hold ≠ h)))) →
      Takes s .U .sweep e rest [] fun t => Offered .U (answerFrame s e.frame [13, 1, r.code]) s t

/-- TAKE_RECORDS releases the records up to the one named and says how many, with the oldest still held; a number that
is not held is refused NOT_HELD (R154). -/
def Obligations.RecordsTaken : Prop :=
  ∀ (s : State) (e : RxEntry) (rest : List RxEntry) (q0 q1 q2 q3 : Byte), Heads s .U .takeRecords e rest →
    e.frame.payload = [18, q0, q1, q2, q3] →
    (∀ (old new : List Record) (r : Record), s.bills.records = old ++ r :: new → r.seq.toNat = beNat [q0, q1, q2, q3] →
      (∀ x ∈ old, x.seq ≠ r.seq) →
      Takes s .U .takeRecords e rest [.records] fun t =>
        t.bills.records = new ∧ t.bills.nextSeq = s.bills.nextSeq
          ∧ Offered .U (answerFrame s e.frame ([18, 0, 0] ++ beBytes 2 (old.length + 1)
              ++ optField 4 (new.head?.map fun x => x.seq.toNat))) s t)
    ∧ ((∀ r ∈ s.bills.records, r.seq.toNat ≠ beNat [q0, q1, q2, q3]) →
      Takes s .U .takeRecords e rest [] fun t => Offered .U (answerFrame s e.frame [18, 1, 30]) s t)

/-! ## The ladder -/

/-- ACK_ALARM takes the presented source into service at the top of the stack, and DONE_ALARM completes the top, to
STANDING while its condition holds and to IDLE otherwise (R131 to R133); any other source is refused, and an index above
39 BAD_VALUE. For a DUST_TRIP source that DONE_ALARM leaves, the trip latch is released when the average is low enough,
and else stays, and the bands are formed again with all that a changed one brings (R117, R121, R134). -/
def Obligations.AlarmsServed : Prop :=
  (∀ (s : State) (e : RxEntry) (rest : List RxEntry) (n : Byte), 39 < n.toNat →
    (Heads s .U .ackAlarm e rest → e.frame.payload = [14, n] →
      Takes s .U .ackAlarm e rest [] fun t => Offered .U (answerFrame s e.frame [14, 1, 20]) s t)
    ∧ (Heads s .U .doneAlarm e rest → e.frame.payload = [15, n] →
      Takes s .U .doneAlarm e rest [] fun t => Offered .U (answerFrame s e.frame [15, 1, 20]) s t))
  ∧ ∀ (s : State) (e : RxEntry) (rest : List RxEntry) (n : Byte) (i : SourceNo), n.toNat = i.val →
    let s1 (c : Instr) := takeHead .U e rest c s
    (Heads s .U .ackAlarm e rest → e.frame.payload = [14, n] →
      (∀ r, s.ladder.presented = some (i, r) →
        Takes s .U .ackAlarm e rest alarmBlocks fun t =>
          t.ladder.stack = i :: s.ladder.stack ∧ (t.ladder.sources[i]).state = .inService
            ∧ Offered .U (answerFrame s e.frame [14, 0, 0]) s t)
      ∧ ((∀ r, s.ladder.presented ≠ some (i, r)) →
        Takes s .U .ackAlarm e rest [] fun t => Offered .U (answerFrame s e.frame [14, 1, 28]) s t))
    ∧ (Heads s .U .doneAlarm e rest → e.frame.payload = [15, n] →
      (∀ is, s.ladder.stack = i :: is →
        Takes s .U .doneAlarm e rest alarmBlocks fun t =>
          t.ladder.stack = is
            ∧ ((i.val < 2 ∨ 9 < i.val) → (t.ladder.sources[i]).state
                = if ((s1 .doneAlarm).ladder.sources[i]).cond then .standing else .idle)
            ∧ (∀ k : SensorNo, i = srcDustTrip k → ReleaseTested k (s1 .doneAlarm) t)
            ∧ (∀ k : SensorNo, i = srcDustTrip k → (s.dust.sensors[k]).latch = true →
                (s.dust.sensors[k]).belowRelease = true →
                (t.dust.sensors[k]).latch = false ∧ (t.ladder.sources[i]).state = .idle
                  ∧ (t.ladder.sources[i]).cond = false)
            ∧ (∀ k : SensorNo, i = srcDustTrip k →
                ¬ ((s.dust.sensors[k]).latch = true ∧ (s.dust.sensors[k]).belowRelease = true) →
                (t.dust.sensors[k]).latch = (s.dust.sensors[k]).latch
                  ∧ (t.ladder.sources[i]).cond = ((s1 .doneAlarm).ladder.sources[i]).cond
                  ∧ (t.ladder.sources[i]).state
                      = if ((s1 .doneAlarm).ladder.sources[i]).cond then .standing else .idle)
            ∧ Offered .U (answerFrame s e.frame [15, 0, 0]) s t)
      ∧ (s.ladder.stack.head? ≠ some i →
        Takes s .U .doneAlarm e rest [] fun t => Offered .U (answerFrame s e.frame [15, 1, 29]) s t))

/-- SET_ALARM gives the marked fields of a source their values, and a source whose record enable goes off leaves PENDING
and STANDING for IDLE; a change to a source IN_SERVICE is refused BUSY, an index past 39, a mask past its three bits or a
rank out of range BAD_VALUE (R135, R136), and so is an enable byte above 1 (log entry 36). A DUST_TRIP source that goes to
IDLE so has its trip latch tested for release (R117). A request that marks no field
changes nothing (R191); the ladder's invariant says that record enable off means IDLE outside service then. What a raise
does to a source (R128), and what a change of its condition flag does (R127). -/
def Obligations.AlarmTableSet : Prop :=
  (∀ (s : State) (e : RxEntry) (rest : List RxEntry) (n mask rank rec pres : Byte) (i : SourceNo), n.toNat = i.val →
    Heads s .U .setAlarm e rest → e.frame.payload = [16, n, mask, rank, rec, pres] → mask.toNat < 8 →
    let x := (takeHead .U e rest .setAlarm s).ladder.sources[i]
    let rank' := if mask.getLsbD 0 then rank.toNat else x.rank
    let rec' := if mask.getLsbD 1 then rec == 1 else x.record
    let pres' := if mask.getLsbD 2 then pres == 1 else x.present
    let inRange : Prop := (mask.getLsbD 0 = true → rank.toNat ≤ 15) ∧ (mask.getLsbD 1 = true → rec.toNat ≤ 1)
      ∧ (mask.getLsbD 2 = true → pres.toNat ≤ 1)
    let changes : Prop := rank' ≠ x.rank ∨ rec' ≠ x.record ∨ pres' ≠ x.present
    (inRange → (x.state = .inService → ¬ changes) →
      Takes s .U .setAlarm e rest (.alarmTable :: dustBlocks) fun t =>
        (t.ladder.sources[i]).rank = rank' ∧ (t.ladder.sources[i]).record = rec'
          ∧ (t.ladder.sources[i]).present = pres'
          ∧ (rec' = false → x.state ≠ .inService → mask ≠ 0 ∨ LadderSound s.ladder →
              (t.ladder.sources[i]).state = .idle)
          ∧ (mask = 0 → t.ladder.sources[i] = x)
          ∧ (∀ k : SensorNo, i = srcDustTrip k → rec' = false → x.state = .pending ∨ x.state = .standing → mask ≠ 0 →
              ReleaseTested k (takeHead .U e rest .setAlarm s) t)
          ∧ (∀ j : SourceNo, j ≠ i → (t.ladder.sources[j]).rank = (s.ladder.sources[j]).rank
              ∧ (t.ladder.sources[j]).record = (s.ladder.sources[j]).record
              ∧ (t.ladder.sources[j]).present = (s.ladder.sources[j]).present)
          ∧ Offered .U (answerFrame s e.frame [16, 0, 0]) s t)
    ∧ (¬ inRange → Takes s .U .setAlarm e rest [] fun t => Offered .U (answerFrame s e.frame [16, 1, 20]) s t)
    ∧ (inRange → x.state = .inService → changes →
        Takes s .U .setAlarm e rest [] fun t => Offered .U (answerFrame s e.frame [16, 1, 19]) s t))
  ∧ (∀ (s : State) (e : RxEntry) (rest : List RxEntry) (n mask rank rec pres : Byte),
    Heads s .U .setAlarm e rest → e.frame.payload = [16, n, mask, rank, rec, pres] →
    39 < n.toNat ∨ 7 < mask.toNat →
    Takes s .U .setAlarm e rest [] fun t => Offered .U (answerFrame s e.frame [16, 1, 20]) s t)
  ∧ ∀ x : Source,
    (x.record = false → x.raised = x)
    ∧ (x.record = true → x.state = .idle → x.raised = { x with state := .pending, repeats := 0 })
    ∧ (x.record = true → x.state = .pending → x.raised = x)
    ∧ (x.record = true → x.state = .inService ∨ x.state = .standing →
        x.raised = { x with repeats := min (x.repeats + 1) 255 })
    ∧ x.withCond true = { x with cond := true }
    ∧ (x.state = .standing → x.withCond false = { x with cond := false, state := .idle })
    ∧ (x.state ≠ .standing → x.withCond false = { x with cond := false })

/-! ## Expiries and the STOP input -/

/-- The four expiries beside the zero timer's, each once its moment has come: scale silence sets METER FAULT, with the
alarm, the end of a running ZERO and the trigger of the visit (R15, R17, R22, R84), a sensor falls silent, and a changed
overall band goes on to the rate limit and the visit (R119, R121), an injected order's window closes with the outcome of
a failed reply and STOP_FAULT: a close-out STOP's ends the visit HARD_STOPPED, complete with nothing in flight (R86,
R87, R94, R104), a RATE's makes the derate check again (R94, R102), a stray start's STOP leaves the visit (R91, R94);
and a sweep's step ends it MOVE_FAULT (R61). A timer that does not run, or whose moment has not come, does not expire
(R119, R196; log entries 2 and 35). -/
def Obligations.TimersExpire : Prop :=
  ∀ s : State,
    (∀ x, s.meter.silence = some x → x ≤ s.now →
      Runs s .scaleSilenceExpiry (.silence :: faultBlocks) fun t => t.meter.silence = none ∧ FaultSet s t)
    ∧ (∀ (i : SensorNo) (x : Nat), (s.dust.sensors[i]).timer = some x → x ≤ s.now →
      Runs s (.sensorSilenceExpiry i) dustBlocks fun t =>
        t.dust.sensors[i] = { s.dust.sensors[i] with silent := true, timer := none }
          ∧ (∀ j : SensorNo, j ≠ i → t.dust.sensors[j] = s.dust.sensors[j])
          ∧ BandsFormed s t
          ∧ t.ladder.sources[srcSensorSilent i] = (let y := (s.ladder.sources[srcSensorSilent i]).withCond true
            if (s.dust.sensors[i]).silent then y else y.raised))
    ∧ (∀ (x : InjEntry) (v : Visit), s.gate.injFeeder = some x → x.deadline ≤ s.now → x.order = .stop →
      s.seq.visit = some v → v.state = .closing → 0 < s.flight.total →
      Runs s (.replyWindowExpiry .feeder) [.entries, .injection, .sources, .visit] fun t =>
        t.gate.injFeeder = none ∧ (∀ y ∈ t.line.injection, y.dest ≠ .feeder)
          ∧ t.ladder.sources[srcStopFault] = (s.ladder.sources[srcStopFault]).raised
          ∧ t.seq.visit = some { v with state := .draining, flags := { v.flags with hardStopped := true } })
    ∧ (∀ (x : InjEntry) (v : Visit), s.gate.injFeeder = some x → x.deadline ≤ s.now → x.order = .stop →
      s.seq.visit = some v → v.state = .closing → s.flight.total = 0 →
      Runs s (.replyWindowExpiry .feeder) pourBlocks fun t =>
        t.gate.injFeeder = none ∧ t.ladder.sources[srcStopFault] = (s.ladder.sources[srcStopFault]).raised
          ∧ Completes { v with state := .draining, flags := { v.flags with hardStopped := true } } s t)
    ∧ (∀ x : InjEntry, s.gate.injFeeder = some x → x.deadline ≤ s.now → x.order = .rate →
      let limit := s.gate.rateLimit
      let due : Prop := s.gate.feeder = .running ∧ ∃ q, s.gate.lastRate = some q ∧ limit < q
      Runs s (.replyWindowExpiry .feeder) (.sources :: derateBlocks) fun t =>
        t.ladder.sources[srcStopFault] = (s.ladder.sources[srcStopFault]).raised
          ∧ (¬ due → t.gate.injFeeder = none ∧ (∀ y ∈ t.line.injection, y.dest ≠ .feeder)
              ∧ t.gate.lastRate = s.gate.lastRate ∧ t.gate.pendingDerate = false ∧ t.seq.visit = s.seq.visit)
          ∧ (∀ addr, due → s.line.d.lineFault = false → s.station .feeder = some addr →
              Injects .feeder .rate addr (2 :: beBytes 2 limit) s t ∧ t.gate.lastRate = some limit
                ∧ t.gate.pendingDerate = false)
          ∧ (due → s.line.d.lineFault = true → t.gate.injFeeder = none ∧ (∀ y ∈ t.line.injection, y.dest ≠ .feeder)
              ∧ t.gate.lastRate = s.gate.lastRate ∧ t.gate.pendingDerate = true ∧ t.seq.visit = s.seq.visit))
    ∧ (∀ x : InjEntry, s.gate.injFeeder = some x → x.deadline ≤ s.now → x.order = .stop →
      s.visitState ≠ some .closing →
      Runs s (.replyWindowExpiry .feeder) [.entries, .injection, .sources] fun t =>
        t.gate.injFeeder = none ∧ (∀ y ∈ t.line.injection, y.dest ≠ .feeder)
          ∧ t.ladder.sources[srcStopFault] = (s.ladder.sources[srcStopFault]).raised)
    ∧ (∀ (a : DriveAxis) (x : InjEntry) (w : Sweep), s.gate.entry (.drive a) = some x → x.deadline ≤ s.now →
      s.place.sweep = some w → w.axis = a →
      Runs s (.replyWindowExpiry (.drive a)) [.sweep, .entries, .injection, .sources, .send .U] fun t =>
        t.place.sweep = none ∧ t.gate.entry (.drive a) = none)
    ∧ (∀ w, s.place.sweep = some w → w.timer ≤ s.now →
      Runs s .stepTimeout [.sweep, .entries, .injection, .sources, .send .U] fun t =>
        t.place.sweep = none ∧ t.gate.entry (.drive w.axis) = none
          ∧ (∀ y ∈ t.line.injection, y.dest ≠ .drive w.axis)
          ∧ t.ladder.sources[srcSweepFault] = (s.ladder.sources[srcSweepFault]).raised)
    ∧ ((∀ x, s.meter.silence = some x → s.now < x) → exec .scaleSilenceExpiry s = .next s)
    ∧ ((∀ z, s.meter.zero = some z → s.now < z.expiry) → exec .zeroTimeout s = .next s)
    ∧ (∀ i : SensorNo, (∀ x, (s.dust.sensors[i]).timer = some x → s.now < x) →
        exec (.sensorSilenceExpiry i) s = .next s)
    ∧ (∀ d, (∀ x, s.gate.entry d = some x → s.now < x.deadline) → exec (.replyWindowExpiry d) s = .next s)
    ∧ ((∀ w, s.place.sweep = some w → s.now < w.timer) → exec .stepTimeout s = .next s)

/-- The STOP input (R107): its assertion drops FEED PERMIT, cancels a held move and a sweep, closes out a POURING or
PAUSED visit (R84, R85, R103) and raises STOP_INPUT, its condition true; its clearing makes the condition false. A level
that is there already changes nothing, and while RESET is held the level alone changes (R195; log entry 25). -/
def Obligations.StopInputActs : Prop :=
  ∀ s : State,
    (s.pins.stop = false → s.pins.reset = false →
      Runs s .stopInputAsserted (.pins :: .sweep :: .conds :: pourBlocks) fun t =>
        t.pins = ⟨false, true⟩ ∧ t.gate.permit = false ∧ t.place.held = none ∧ t.place.sweep = none
          ∧ t.ladder.sources[srcStopInput] = ({ s.ladder.sources[srcStopInput] with cond := true } : Source).raised
          ∧ (∀ v, s.seq.visit = some v → Triggered v .stopInput s t
              ∧ (v.state ≠ .pouring → v.state ≠ .paused → t.seq.visit = some v)))
    ∧ (s.pins.stop = true → s.pins.reset = false →
      Runs s .stopInputCleared [.pins, .sources, .conds] fun t =>
        t.pins = ⟨false, false⟩ ∧ (t.ladder.sources[srcStopInput]).cond = false)
    ∧ (s.pins.stop = true → exec .stopInputAsserted s = .next s)
    ∧ (s.pins.stop = false → exec .stopInputCleared s = .next s)
    ∧ (s.pins.reset = true → s.pins.stop = false →
        exec .stopInputAsserted s = .next { s with pins := ⟨true, true⟩ })
    ∧ (s.pins.reset = true → s.pins.stop = true →
        exec .stopInputCleared s = .next { s with pins := ⟨true, false⟩ })
end

