-- ==== Sys2Proof/Laws/State.lean ====
section
/-! SUPPORT. Record updates: each named update's fields, true by rfl. -/

namespace Sys2Proof.Machine

@[simp] theorem setVisit_fields (v : Option Visit) (s : State) :
    (setVisit v s).handler = s.handler ∧ (setVisit v s).stations = s.stations ∧ (setVisit v s).pins = s.pins ∧
    (setVisit v s).now = s.now ∧ (setVisit v s).line = s.line ∧ (setVisit v s).meter = s.meter ∧
    (setVisit v s).flight = s.flight ∧ (setVisit v s).place = s.place ∧ (setVisit v s).seq = { s.seq with visit := v } ∧
    (setVisit v s).gate = s.gate ∧ (setVisit v s).dust = s.dust ∧ (setVisit v s).ladder = s.ladder ∧
    (setVisit v s).bills = s.bills ∧ (setVisit v s).ship = s.ship ∧ (setVisit v s).draws = s.draws ∧
    (setVisit v s).pending = s.pending :=
  ⟨rfl, rfl, rfl, rfl, rfl, rfl, rfl, rfl, rfl, rfl, rfl, rfl, rfl, rfl, rfl, rfl⟩

@[simp] theorem setSweep_fields (w : Option Sweep) (s : State) :
    (setSweep w s).handler = s.handler ∧ (setSweep w s).stations = s.stations ∧ (setSweep w s).pins = s.pins ∧
    (setSweep w s).now = s.now ∧ (setSweep w s).line = s.line ∧ (setSweep w s).meter = s.meter ∧
    (setSweep w s).flight = s.flight ∧ (setSweep w s).place = { s.place with sweep := w } ∧
    (setSweep w s).seq = s.seq ∧ (setSweep w s).gate = s.gate ∧ (setSweep w s).dust = s.dust ∧
    (setSweep w s).ladder = s.ladder ∧ (setSweep w s).bills = s.bills ∧ (setSweep w s).ship = s.ship ∧
    (setSweep w s).draws = s.draws ∧ (setSweep w s).pending = s.pending :=
  ⟨rfl, rfl, rfl, rfl, rfl, rfl, rfl, rfl, rfl, rfl, rfl, rfl, rfl, rfl, rfl, rfl⟩

@[simp] theorem setSensor_fields (i : SensorNo) (x : Sensor) (s : State) :
    (setSensor i x s).handler = s.handler ∧ (setSensor i x s).stations = s.stations ∧
    (setSensor i x s).pins = s.pins ∧ (setSensor i x s).now = s.now ∧ (setSensor i x s).line = s.line ∧
    (setSensor i x s).meter = s.meter ∧ (setSensor i x s).flight = s.flight ∧ (setSensor i x s).place = s.place ∧
    (setSensor i x s).seq = s.seq ∧ (setSensor i x s).gate = s.gate ∧
    (setSensor i x s).dust = { s.dust with sensors := upd s.dust.sensors i x } ∧
    (setSensor i x s).ladder = s.ladder ∧ (setSensor i x s).bills = s.bills ∧ (setSensor i x s).ship = s.ship ∧
    (setSensor i x s).draws = s.draws ∧ (setSensor i x s).pending = s.pending :=
  ⟨rfl, rfl, rfl, rfl, rfl, rfl, rfl, rfl, rfl, rfl, rfl, rfl, rfl, rfl, rfl, rfl⟩

@[simp] theorem setLinePort_fields (p : PortId) (x : Port) (s : State) :
    (setLinePort p x s).handler = s.handler ∧ (setLinePort p x s).stations = s.stations ∧
    (setLinePort p x s).pins = s.pins ∧ (setLinePort p x s).now = s.now ∧
    (setLinePort p x s).line = s.line.setPort p x ∧ (setLinePort p x s).meter = s.meter ∧
    (setLinePort p x s).flight = s.flight ∧ (setLinePort p x s).place = s.place ∧ (setLinePort p x s).seq = s.seq ∧
    (setLinePort p x s).gate = s.gate ∧ (setLinePort p x s).dust = s.dust ∧ (setLinePort p x s).ladder = s.ladder ∧
    (setLinePort p x s).bills = s.bills ∧ (setLinePort p x s).ship = s.ship ∧ (setLinePort p x s).draws = s.draws ∧
    (setLinePort p x s).pending = s.pending :=
  ⟨rfl, rfl, rfl, rfl, rfl, rfl, rfl, rfl, rfl, rfl, rfl, rfl, rfl, rfl, rfl, rfl⟩

@[simp] theorem putAxis_fields (a : Axis) (x : AxisState) (s : State) :
    (putAxis a x s).handler = s.handler ∧ (putAxis a x s).stations = s.stations ∧ (putAxis a x s).pins = s.pins ∧
    (putAxis a x s).now = s.now ∧ (putAxis a x s).line = s.line ∧ (putAxis a x s).meter = s.meter ∧
    (putAxis a x s).flight = s.flight ∧ (putAxis a x s).place = { s.place with axes := s.place.axes.put a x } ∧
    (putAxis a x s).seq = s.seq ∧ (putAxis a x s).gate = s.gate ∧ (putAxis a x s).dust = s.dust ∧
    (putAxis a x s).ladder = s.ladder ∧ (putAxis a x s).bills = s.bills ∧ (putAxis a x s).ship = s.ship ∧
    (putAxis a x s).draws = s.draws ∧ (putAxis a x s).pending = s.pending :=
  ⟨rfl, rfl, rfl, rfl, rfl, rfl, rfl, rfl, rfl, rfl, rfl, rfl, rfl, rfl, rfl, rfl⟩

@[simp] theorem raise_fields (i : SourceNo) (s : State) :
    (raise i s).handler = s.handler ∧ (raise i s).stations = s.stations ∧ (raise i s).pins = s.pins ∧
    (raise i s).now = s.now ∧ (raise i s).line = s.line ∧ (raise i s).meter = s.meter ∧
    (raise i s).flight = s.flight ∧ (raise i s).place = s.place ∧ (raise i s).seq = s.seq ∧
    (raise i s).gate = s.gate ∧ (raise i s).dust = s.dust ∧
    (raise i s).ladder = s.ladder.put i (s.ladder.sources[i]).raised ∧ (raise i s).bills = s.bills ∧
    (raise i s).ship = s.ship ∧ (raise i s).draws = s.draws ∧ (raise i s).pending = s.pending :=
  ⟨rfl, rfl, rfl, rfl, rfl, rfl, rfl, rfl, rfl, rfl, rfl, rfl, rfl, rfl, rfl, rfl⟩

@[simp] theorem setCond_fields (i : SourceNo) (b : Bool) (s : State) :
    (setCond i b s).handler = s.handler ∧ (setCond i b s).stations = s.stations ∧ (setCond i b s).pins = s.pins ∧
    (setCond i b s).now = s.now ∧ (setCond i b s).line = s.line ∧ (setCond i b s).meter = s.meter ∧
    (setCond i b s).flight = s.flight ∧ (setCond i b s).place = s.place ∧ (setCond i b s).seq = s.seq ∧
    (setCond i b s).gate = s.gate ∧ (setCond i b s).dust = s.dust ∧
    (setCond i b s).ladder = s.ladder.put i ((s.ladder.sources[i]).withCond b) ∧ (setCond i b s).bills = s.bills ∧
    (setCond i b s).ship = s.ship ∧ (setCond i b s).draws = s.draws ∧ (setCond i b s).pending = s.pending :=
  ⟨rfl, rfl, rfl, rfl, rfl, rfl, rfl, rfl, rfl, rfl, rfl, rfl, rfl, rfl, rfl, rfl⟩

@[simp] theorem coldReset_kept (s : State) :
    (coldReset s).pins = s.pins ∧ (coldReset s).now = s.now ∧ (coldReset s).draws = s.draws ∧
    (coldReset s).pending = s.pending ∧ (coldReset s).handler = Handler.reset ∧ (coldReset s).line = Line.reset ∧
    (coldReset s).meter = Meter.reset ∧ (coldReset s).flight = Flight.reset ∧
    (coldReset s).place = Placement.reset ∧ (coldReset s).seq = Sequencer.reset ∧ (coldReset s).gate = Gate.reset ∧
    (coldReset s).dust = Dust.reset ∧ (coldReset s).ladder = Ladder.reset ∧ (coldReset s).bills = BillStore.reset ∧
    (coldReset s).ship = ShipAccount.reset ∧ (coldReset s).stations = Vector.replicate 14 none :=
  ⟨rfl, rfl, rfl, rfl, rfl, rfl, rfl, rfl, rfl, rfl, rfl, rfl, rfl, rfl, rfl, rfl⟩

/-! ## Table entries -/

@[simp] theorem upd_getElem {α : Type} {n : Nat} (v : Vector α n) (i : Fin n) (x : α) (k : Nat) (h : k < n) :
    (upd v i x)[k] = if i.val = k then x else v[k] := by
  simp [upd, Vector.getElem_set]

@[simp] theorem upd_get {α : Type} {n : Nat} (v : Vector α n) (i : Fin n) (x : α) : (upd v i x)[i] = x := by simp

theorem upd_get_ne {α : Type} {n : Nat} (v : Vector α n) (i j : Fin n) (x : α) (h : i ≠ j) :
    (upd v i x)[j] = v[j] := by
  have : i.val ≠ j.val := fun e => h (Fin.ext e)
  simp [this]

theorem upd_get_ite {α : Type} {n : Nat} (v : Vector α n) (i j : Fin n) (x : α) :
    (upd v i x)[j] = if i = j then x else v[j] := by
  simp [Fin.ext_iff]

/-! ## Ports -/

@[simp] theorem port_U (l : Line) : l.port .U = l.u := rfl
@[simp] theorem port_D (l : Line) : l.port .D = l.d := rfl
@[simp] theorem setPort_U (l : Line) (x : Port) : l.setPort .U x = { l with u := x } := rfl
@[simp] theorem setPort_D (l : Line) (x : Port) : l.setPort .D x = { l with d := x } := rfl

@[simp] theorem setPort_port (l : Line) (p : PortId) (x : Port) : (l.setPort p x).port p = x := by cases p <;> rfl

theorem setPort_port_ne (l : Line) (p q : PortId) (x : Port) (h : p ≠ q) : (l.setPort p x).port q = l.port q := by
  cases p <;> cases q <;> simp_all

@[simp] theorem setPort_injection (l : Line) (p : PortId) (x : Port) :
    (l.setPort p x).injection = l.injection ∧ (l.setPort p x).injSeq = l.injSeq := by cases p <;> exact ⟨rfl, rfl⟩

end Sys2Proof.Machine
end

