-- ==== Sys2Proof/Laws/Frames.lean ====
section
/-! SUPPORT. What each shared operation can change: one frame lemma for each, to be cited instead of unfolding it. -/

set_option Elab.async false

namespace Sys2Proof.Machine

/-! ## Composing frames -/

theorem Same.refl (b : Block) (s : State) : Same b s s := by cases b <;> simp [Same]

theorem Same.trans {b : Block} {s t u : State} (h : Same b s t) (k : Same b t u) : Same b s u := by
  cases b <;> simp_all [Same]

theorem OnlyChanges.refl (xs : List Block) (s : State) : OnlyChanges xs s s := fun b _ => Same.refl b s

theorem OnlyChanges.trans {xs : List Block} {s t u : State} (h : OnlyChanges xs s t) (k : OnlyChanges xs t u) :
    OnlyChanges xs s u := fun b hb => (h b hb).trans (k b hb)

theorem OnlyChanges.mono {xs ys : List Block} {s t : State} (h : OnlyChanges xs s t)
    (hs : ∀ b ∈ xs, b ∈ ys := by decide) : OnlyChanges ys s t := fun b hb => h b fun hx => hb (hs b hx)

/-- Chain a change with a change of fewer blocks. -/
theorem OnlyChanges.then {xs ys : List Block} {s t u : State} (h : OnlyChanges xs s t) (k : OnlyChanges ys t u)
    (hs : ∀ b ∈ ys, b ∈ xs := by decide) : OnlyChanges xs s u := h.trans (k.mono hs)

/-- A block outside the list is the same. -/
theorem OnlyChanges.same {xs : List Block} {s t : State} (h : OnlyChanges xs s t) (b : Block)
    (hb : b ∉ xs := by decide) : Same b s t := h b hb

/-! ## The line -/

theorem begin_port (l : Line) (p q : PortId) :
    ((l.begin p).port q).rx = (l.port q).rx ∧ ((l.begin p).port q).rxQueue = (l.port q).rxQueue
      ∧ ((l.begin p).port q).tally = (l.port q).tally ∧ ((l.begin p).port q).lineFault = (l.port q).lineFault := by
  cases p <;> cases q <;> simp only [Line.begin, port_U, port_D] <;> split <;> simp

theorem begin_other (l : Line) (p : PortId) : (l.begin p).port (otherPort p) = l.port (otherPort p) := by
  cases p <;> simp only [Line.begin, otherPort, port_U, port_D] <;> split <;> simp

theorem begin_U_injection (l : Line) : (l.begin .U).injection = l.injection ∧ (l.begin .U).injSeq = l.injSeq := by
  simp only [Line.begin]; split <;> simp

theorem begin_injSeq (l : Line) (p : PortId) : (l.begin p).injSeq = l.injSeq := by
  cases p <;> simp only [Line.begin] <;> split <;> simp

theorem lineOffer_recv (l : Line) (p : PortId) (f : Frame) (q : PortId) :
    ((l.offer p f).port q).rx = (l.port q).rx ∧ ((l.offer p f).port q).rxQueue = (l.port q).rxQueue
      ∧ ((l.offer p f).port q).tally = (l.port q).tally ∧ ((l.offer p f).port q).lineFault = (l.port q).lineFault := by
  unfold Line.offer
  split
  · have h := begin_port (l.setPort p { l.port p with txQueue := (l.port p).txQueue ++ [f] }) p q
    cases p <;> cases q <;> simpa using h
  · simp

theorem lineOffer_other (l : Line) (p : PortId) (f : Frame) :
    (l.offer p f).port (otherPort p) = l.port (otherPort p) := by
  unfold Line.offer
  split
  · rw [begin_other]; cases p <;> rfl
  · rfl

theorem lineOffer_injSeq (l : Line) (p : PortId) (f : Frame) : (l.offer p f).injSeq = l.injSeq := by
  unfold Line.offer
  split
  · rw [begin_injSeq]; exact (setPort_injection l p _).2
  · rfl

theorem lineOffer_U_injection (l : Line) (f : Frame) : (l.offer .U f).injection = l.injection := by
  unfold Line.offer
  split
  · rw [(begin_U_injection _).1]; rfl
  · rfl

theorem offer_U (f : Frame) (s : State) : OnlyChanges [.send .U] s (offer .U f s) := by
  intro b hb
  cases b with
  | recv q => exact lineOffer_recv s.line .U f q
  | send q =>
    cases q
    · simp at hb
    · have h := lineOffer_other s.line .U f
      simp only [otherPort] at h
      exact ⟨by simp [offer, h], by simp [offer, h]⟩
  | injection => exact ⟨lineOffer_U_injection s.line f, lineOffer_injSeq s.line .U f⟩
  | _ => simp [Same, offer]

theorem offer_D (f : Frame) (s : State) : OnlyChanges [.send .D, .injection] s (offer .D f s) := by
  intro b hb
  cases b with
  | recv q => exact lineOffer_recv s.line .D f q
  | send q =>
    cases q
    · have h := lineOffer_other s.line .D f
      simp only [otherPort] at h
      exact ⟨by simp [offer, h], by simp [offer, h]⟩
    · simp at hb
  | injection => simp at hb
  | _ => simp [Same, offer]

theorem offer_changes (p : PortId) (f : Frame) (s : State) :
    OnlyChanges [.send .U, .send .D, .injection] s (offer p f s) := by
  cases p
  · exact (offer_U f s).mono
  · exact (offer_D f s).mono

theorem refuse_U (f : Frame) (r : Reason) (s : State) : OnlyChanges [.send .U] s (refuse .U f r s) := offer_U _ s

theorem refuse_changes (p : PortId) (f : Frame) (r : Reason) (s : State) :
    OnlyChanges [.send .U, .send .D, .injection] s (refuse p f r s) := offer_changes p _ s

theorem answerDone_changes (f : Frame) (d : List Byte) (s : State) : OnlyChanges [.send .U] s (answerDone f d s) :=
  offer_U _ s

theorem answerRefused_changes (f : Frame) (r : Reason) (s : State) :
    OnlyChanges [.send .U] s (answerRefused f r s) := offer_U _ s

theorem notice_changes (bs : List Byte) (s : State) : OnlyChanges [.send .U] s (notice bs s) := offer_U _ s

theorem forward_changes (p : PortId) (f : Frame) (s : State) :
    OnlyChanges [.send .U, .send .D, .injection] s (forward p f s) := by
  unfold forward
  split
  · exact offer_changes _ f s
  · split
    · exact refuse_changes p f _ s
    · exact OnlyChanges.refl _ s

/-- A frame from port D that is no ORDER touches port U's transmitter only. -/
theorem forward_D_changes (f : Frame) (s : State) (h : f.kind ≠ kindOrder) :
    OnlyChanges [.send .U] s (forward .D f s) := by
  unfold forward
  split
  · exact offer_U f s
  · exact OnlyChanges.refl _ s

theorem setLinePort_recv (p : PortId) (x : Port) (s : State) (h : x.txQueue = (s.line.port p).txQueue)
    (k : x.sending = (s.line.port p).sending) : OnlyChanges [.recv p] s (setLinePort p x s) := by
  intro b hb
  cases b with
  | recv q =>
    have hq : p ≠ q := fun e => hb (by simp [e])
    simp [Same, setPort_port_ne _ _ _ _ hq]
  | send q =>
    by_cases hq : p = q
    · subst hq; simp [Same, h, k]
    · simp [Same, setPort_port_ne _ _ _ _ hq]
  | _ => simp [Same]

/-! ## The ladder -/

/-- A raise keeps what the terminal station sets and the condition flag (R128). -/
theorem raised_kept (x : Source) : x.raised.rank = x.rank ∧ x.raised.record = x.record ∧ x.raised.present = x.present
    ∧ x.raised.cond = x.cond := by
  unfold Source.raised
  split
  · split <;> exact ⟨rfl, rfl, rfl, rfl⟩
  · exact ⟨rfl, rfl, rfl, rfl⟩

theorem withCond_kept (x : Source) (b : Bool) : (x.withCond b).rank = x.rank ∧ (x.withCond b).record = x.record
    ∧ (x.withCond b).present = x.present ∧ (x.withCond b).cond = b := by
  unfold Source.withCond; split <;> exact ⟨rfl, rfl, rfl, rfl⟩

/-- Replacing a source's entry changes the parts of it that differ. -/
theorem putSource_changes (i : SourceNo) (x : Source) (s : State) :
    OnlyChanges [.alarmTable, .sources, .conds] s { s with ladder := s.ladder.put i x } := by
  intro b hb; cases b <;> simp_all [Same, Ladder.put]

theorem putSource_alarmTable (i : SourceNo) (x : Source) (s : State) (h : x.rank = (s.ladder.sources[i]).rank
    ∧ x.record = (s.ladder.sources[i]).record ∧ x.present = (s.ladder.sources[i]).present) :
    Same .alarmTable s { s with ladder := s.ladder.put i x } := by
  intro j
  by_cases hj : i = j
  · subst hj; simpa [Ladder.put] using h
  · simp [Ladder.put, upd_get_ne _ _ _ _ hj]

theorem putSource_conds (i : SourceNo) (x : Source) (s : State) (h : x.cond = (s.ladder.sources[i]).cond) :
    Same .conds s { s with ladder := s.ladder.put i x } := by
  intro j
  by_cases hj : i = j
  · subst hj; simpa [Ladder.put] using h
  · simp [Ladder.put, upd_get_ne _ _ _ _ hj]

theorem raise_changes (i : SourceNo) (s : State) : OnlyChanges [.sources] s (raise i s) := by
  have k := raised_kept (s.ladder.sources[i])
  intro b hb
  cases b with
  | alarmTable => exact putSource_alarmTable i _ s ⟨k.1, k.2.1, k.2.2.1⟩
  | conds => exact putSource_conds i _ s k.2.2.2
  | sources => simp at hb
  | _ => exact putSource_changes i _ s _ (by simp)

theorem setCond_changes (i : SourceNo) (b : Bool) (s : State) :
    OnlyChanges [.sources, .conds] s (setCond i b s) := by
  have k := withCond_kept (s.ladder.sources[i]) b
  intro c hc
  cases c with
  | alarmTable => exact putSource_alarmTable i _ s ⟨k.1, k.2.1, k.2.2.1⟩
  | conds => simp at hc
  | sources => simp at hc
  | _ => exact putSource_changes i _ s _ (by simp)

theorem endEvent_changes (s : State) : OnlyChanges closing s (endEvent s) := by
  unfold endEvent
  simp only
  have h : OnlyChanges closing s
      { s with ladder := { s.ladder with presented := s.ladder.toPresent, horn := s.ladder.toPresent.isSome }
               gate := { s.gate with permit := permitOf s } } := by
    intro b hb; cases b <;> simp_all [Same, closing]
  split
  · exact h
  · exact h.then (notice_changes _ _)

/-! ## Bills and ship -/

theorem reserve_changes (s : State) : OnlyChanges [.reserved] s (reserve s) := by
  intro b hb; cases b <;> simp_all [Same, reserve]

theorem setLastMark_changes (k : Option Nat) (s : State) :
    OnlyChanges [.lastMark] s { s with bills := { s.bills with lastMark := k } } := by
  intro b hb; cases b <;> simp_all [Same]

theorem markTest_changes (s : State) : OnlyChanges [.lastMark, .sources] s (markTest s) := by
  unfold markTest
  split
  · exact (setLastMark_changes _ s).mono.then (raise_changes _ _)
  · exact OnlyChanges.refl _ s

theorem issue_changes (r : Bool) (x : RecordBody) (s : State) :
    OnlyChanges [.records, .reserved, .lastMark, .sources] s (issue r x s) := by
  unfold issue
  refine OnlyChanges.then ?_ (markTest_changes _)
  intro b hb; cases b <;> simp_all [Same]

theorem setBases_changes (as : List Account) (s : State) : OnlyChanges [.bases] s (setBases as s) := by
  intro b hb; cases b <;> simp_all [Same, setBases]

/-! ## Injected orders -/

theorem setEntry_kept (g : Gate) (d : InjDest) (e : Option InjEntry) :
    (g.setEntry d e).permit = g.permit ∧ (g.setEntry d e).feeder = g.feeder ∧ (g.setEntry d e).lastRate = g.lastRate
      ∧ (g.setEntry d e).rateLimit = g.rateLimit ∧ (g.setEntry d e).replyWindow = g.replyWindow
      ∧ (g.setEntry d e).pendingDerate = g.pendingDerate := by
  cases d with
  | feeder => simp [Gate.setEntry]
  | drive a => cases a <;> simp [Gate.setEntry]

theorem injectOrder_changes (d : InjDest) (o : InjOrder) (p : List Byte) (s s' : State)
    (h : injectOrder d o p s = some s') : OnlyChanges [.entries, .injection, .send .D] s s' := by
  unfold injectOrder at h
  split at h
  · injection h with h
    subst h
    intro b hb
    cases b with
    | recv q => exact begin_port { s.line with injection := _, injSeq := _ } .D q
    | send q =>
      cases q
      · exact ⟨congrArg Port.txQueue (begin_other { s.line with injection := _, injSeq := s.line.injSeq + 1 } .D),
          congrArg Port.sending (begin_other { s.line with injection := _, injSeq := s.line.injSeq + 1 } .D)⟩
      · simp at hb
    | entries => simp at hb
    | injection => simp at hb
    | _ => simp [Same, setEntry_kept]
  · simp at h

theorem releaseEntry_changes (d : InjDest) (s : State) : OnlyChanges [.entries] s (releaseEntry d s) := by
  intro b hb
  cases b with
  | entries => simp at hb
  | _ => simp [Same, releaseEntry, setEntry_kept]

theorem abandonOrder_changes (d : InjDest) (s : State) :
    OnlyChanges [.entries, .injection] s (abandonOrder d s) := by
  intro b hb
  cases b with
  | entries => simp at hb
  | injection => simp at hb
  | recv q => cases q <;> simp [Same, abandonOrder]
  | send q => cases q <;> simp [Same, abandonOrder]
  | _ => simp [Same, abandonOrder, setEntry_kept]

/-! ## The held move -/

theorem setHeld_changes (x : Option HeldMove) (s : State) :
    OnlyChanges [.held] s { s with place := { s.place with held := x } } := by
  intro b hb; cases b <;> simp_all [Same]

theorem testHeldMove_changes (s : State) :
    OnlyChanges [.held, .send .U, .send .D, .injection] s (testHeldMove s) := by
  unfold testHeldMove
  split
  · exact OnlyChanges.refl _ s
  · split
    · exact (OnlyChanges.then (setHeld_changes _ s).mono (forward_changes _ _ _))
    · exact OnlyChanges.refl _ s

theorem dismissHeldMove_changes (r : Reason) (s : State) :
    OnlyChanges [.held, .send .U] s (dismissHeldMove r s) := by
  unfold dismissHeldMove
  split
  · exact OnlyChanges.refl _ s
  · exact (OnlyChanges.then (setHeld_changes _ s).mono (refuse_U _ _ _))

/-! ## Plan and visit -/

theorem setVisit_changes (v : Option Visit) (s : State) : OnlyChanges [.visit] s (setVisit v s) := by
  intro b hb; cases b <;> simp_all [Same]

theorem mapVisit_changes (f : Visit → Visit) (s : State) : OnlyChanges [.visit] s (mapVisit f s) :=
  setVisit_changes _ s

theorem advanceCursor_changes (s : State) : OnlyChanges [.plan] s (advanceCursor s) := by
  unfold advanceCursor
  split
  · exact OnlyChanges.refl _ s
  · split <;> (intro b hb; cases b <;> simp_all [Same])

theorem finishPlan_changes (r : FinishReason) (m : Bool) (s : State) :
    OnlyChanges [.plan, .sources, .send .U] s (finishPlan r m s) := by
  unfold finishPlan
  refine OnlyChanges.then ?_ (notice_changes _ _)
  have h : OnlyChanges [.plan, .sources, .send .U] s
      { s with seq := { s.seq with plan := .finished, finish := some r } } := by
    intro b hb; cases b <;> simp_all [Same]
  split
  · exact h.then (raise_changes _ _)
  · exact h

theorem openVisit_changes (i : Fin 16) (sl : Slot) (s : State) :
    OnlyChanges [.visit, .send .U] s (openVisit i sl s) :=
  (setVisit_changes _ s).mono.then (notice_changes _ _)

theorem selectLoop_changes (p : PlanHeader) (fuel run : Nat) (m : Bool) (s : State) :
    OnlyChanges selectionBlocks s (selectLoop p fuel run m s) := by
  induction fuel generalizing run m s with
  | zero => exact OnlyChanges.refl _ s
  | succ n ih =>
    unfold selectLoop
    split
    · exact (finishPlan_changes _ _ s).mono
    · split
      · exact (finishPlan_changes _ _ s).mono
      · split
        · exact OnlyChanges.refl _ s
        · split
          · exact (openVisit_changes _ _ s).mono
          · simp only
            have h : OnlyChanges selectionBlocks s
                { s with seq := { s.seq with skips := min (s.seq.skips + 1) 65535 } } := by
              intro b hb; cases b <;> simp_all [Same, selectionBlocks]
            split
            · exact h.then (finishPlan_changes _ _ _)
            · exact (h.then (advanceCursor_changes _)).trans (ih _ _ _)

theorem selectVisit_changes (s : State) : OnlyChanges selectionBlocks s (selectVisit s) := by
  unfold selectVisit
  split
  · exact OnlyChanges.refl _ s
  · exact selectLoop_changes _ _ _ _ s

theorem setUnbilled_changes (x : Bool) (s : State) :
    OnlyChanges [.unbilled] s { s with bills := { s.bills with unbilled := x } } := by
  intro b hb; cases b <;> simp_all [Same]

theorem dropVisit_changes (s : State) : OnlyChanges [.visit, .unbilled] s (dropVisit s) := by
  unfold dropVisit
  split
  · exact OnlyChanges.refl _ s
  · simp only
    split
    · exact (setVisit_changes _ s).mono.then (setUnbilled_changes _ _)
    · exact (setVisit_changes _ s).mono

theorem afterVisit_changes (s : State) : OnlyChanges selectionBlocks s (afterVisit s) := by
  unfold afterVisit
  split
  · exact (advanceCursor_changes s).mono.then (selectVisit_changes _)
  · exact (advanceCursor_changes s).mono
  · exact OnlyChanges.refl _ s

theorem evaluateFull_changes (s : State) : OnlyChanges [.holdStates] s (evaluateFull s) := by
  intro b hb; cases b <;> simp_all [Same, evaluateFull]

theorem completeVisit_changes (s : State) : OnlyChanges completionBlocks s (completeVisit s) := by
  unfold completeVisit
  split
  · exact OnlyChanges.refl _ s
  · refine OnlyChanges.then ?_ (afterVisit_changes _)
    refine OnlyChanges.then ?_ (testHeldMove_changes _)
    refine OnlyChanges.then ?_ (setVisit_changes _ _)
    refine OnlyChanges.then ?_ (evaluateFull_changes _)
    refine OnlyChanges.then ?_ (setUnbilled_changes _ _)
    refine OnlyChanges.then ?_ (issue_changes _ _ _)
    exact (setBases_changes _ s).mono

theorem completeIfEmpty_changes (s : State) : OnlyChanges completionBlocks s (completeIfEmpty s) := by
  unfold completeIfEmpty
  split
  · exact completeVisit_changes s
  · exact OnlyChanges.refl _ s

theorem enterDraining_changes (b : Bool) (s : State) : OnlyChanges completionBlocks s (enterDraining b s) :=
  (mapVisit_changes _ s).mono.trans (completeIfEmpty_changes _)

theorem closeOutNotIssued_changes (s : State) : OnlyChanges pourBlocks s (closeOutNotIssued s) := by
  unfold closeOutNotIssued
  refine OnlyChanges.then ?_ (enterDraining_changes _ _)
  exact (abandonOrder_changes _ s).mono.then (raise_changes _ _)

theorem setPendingDerate_changes (b : Bool) (s : State) : OnlyChanges [.rate] s (setPendingDerate b s) := by
  intro c hc; cases c <;> simp_all [Same, setPendingDerate]

theorem closeOut_changes (s : State) : OnlyChanges pourBlocks s (closeOut s) := by
  unfold closeOut
  split
  · split
    · exact (setPendingDerate_changes false s).mono
    · exact closeOutNotIssued_changes s
  · split
    · rename_i s' h
      exact (injectOrder_changes _ _ _ _ _ h).mono.then (setPendingDerate_changes false s')
    · exact closeOutNotIssued_changes s

theorem closeOutOutcome_changes (b : Bool) (s : State) : OnlyChanges completionBlocks s (closeOutOutcome b s) := by
  unfold closeOutOutcome
  split
  · exact enterDraining_changes _ s
  · exact OnlyChanges.refl _ s

theorem takeTrigger_changes (r : EndReason) (s : State) : OnlyChanges pourBlocks s (takeTrigger r s) := by
  unfold takeTrigger
  split
  · exact (mapVisit_changes _ s).mono.trans (closeOut_changes _)
  · exact (mapVisit_changes _ s).mono.then (completeIfEmpty_changes _)
  · exact OnlyChanges.refl _ s

theorem checkProjections_changes (s : State) : OnlyChanges pourBlocks s (checkProjections s) := by
  unfold checkProjections
  split
  · exact OnlyChanges.refl _ s
  · split
    · split
      · exact takeTrigger_changes _ s
      · exact OnlyChanges.refl _ s
    · exact OnlyChanges.refl _ s

theorem fillHold_changes (h : Hold) (s : State) : OnlyChanges [.holdStates] s (fillHold h s) := by
  unfold fillHold
  split
  · intro b hb; cases b <;> simp_all [Same]
  · exact OnlyChanges.refl _ s

theorem enterPouring_changes (s : State) : OnlyChanges pourBlocks s (enterPouring s) := by
  unfold enterPouring
  split
  · exact OnlyChanges.refl _ s
  · exact ((setVisit_changes _ s).mono.then (fillHold_changes _ _)).trans (checkProjections_changes _)

theorem runForwarded_changes (s : State) : OnlyChanges pourBlocks s (runForwarded s) := by
  unfold runForwarded
  split
  · exact enterPouring_changes s
  · exact enterPouring_changes s
  · exact OnlyChanges.refl _ s

theorem feederRunning_changes (s : State) : OnlyChanges pourBlocks s (feederRunning s) := by
  unfold feederRunning
  split
  · exact enterPouring_changes s
  · exact OnlyChanges.refl _ s

theorem pauseVisit_changes (r : PauseReason) (s : State) : OnlyChanges [.visit] s (pauseVisit r s) := by
  unfold pauseVisit
  split
  · exact mapVisit_changes _ s
  · exact OnlyChanges.refl _ s

theorem reportPlaced_changes (h : Hold) (s : State) : OnlyChanges [.visit] s (reportPlaced h s) := by
  unfold reportPlaced
  split
  · exact OnlyChanges.refl _ s
  · split
    · exact setVisit_changes _ s
    · exact OnlyChanges.refl _ s

theorem reportLost_changes (h : Hold) (s : State) : OnlyChanges pourBlocks s (reportLost h s) := by
  unfold reportLost
  split
  · exact OnlyChanges.refl _ s
  · split
    · split
      · exact (setVisit_changes _ s).mono
      · exact takeTrigger_changes _ s
    · exact OnlyChanges.refl _ s

/-! ## Feed Gate and Dust Monitor -/

theorem commandLimit_changes (s : State) : OnlyChanges [.rate] s (commandLimit s) := by
  intro b hb; cases b <;> simp_all [Same, commandLimit]

theorem setLine_rewrite_changes (d : InjDest) (p : List Byte) (s : State) :
    OnlyChanges [.injection] s { s with line := s.line.rewrite d p } := by
  intro b hb
  cases b <;> simp_all [Same, Line.rewrite]
  case recv q => cases q <;> simp
  case send q => cases q <;> simp

theorem derateCheck_changes (s : State) : OnlyChanges derateBlocks s (derateCheck s) := by
  unfold derateCheck
  split
  · split
    · rename_i s' h
      exact (((injectOrder_changes _ _ _ _ _ h).mono.then (commandLimit_changes s')).then (mapVisit_changes _ _)).then
        (setPendingDerate_changes _ _)
    · split
      · exact (setLine_rewrite_changes _ _ s).mono.then (commandLimit_changes _)
      · exact (setPendingDerate_changes _ s).mono
  · exact (setPendingDerate_changes _ s).mono

theorem recomputeLimit_changes (s : State) : OnlyChanges (.limit :: derateBlocks) s (recomputeLimit s) := by
  unfold recomputeLimit
  simp only
  have h : OnlyChanges (.limit :: derateBlocks) s { s with gate := { s.gate with rateLimit := rateLimitOf s } } := by
    intro b hb; cases b <;> simp_all [Same, derateBlocks]
  split
  · exact h.then (derateCheck_changes _)
  · exact h

theorem reformBands_changes (s : State) : OnlyChanges bandBlocks s (reformBands s) := by
  unfold reformBands
  simp only
  have h : OnlyChanges bandBlocks s
      { s with dust := { s.dust with overall := s.dust.formOverall, spray := s.dust.formSpray } } := by
    intro b hb; cases b <;> simp_all [Same, bandBlocks]
  split
  · exact h
  · split
    · exact (h.then (recomputeLimit_changes _)).then (takeTrigger_changes _ _)
    · exact h.then (recomputeLimit_changes _)

theorem setSensor_changes (i : SensorNo) (x : Sensor) (s : State) : OnlyChanges [.sensors] s (setSensor i x s) := by
  intro b hb; cases b <;> simp_all [Same]

theorem releaseTest_changes (i : SensorNo) (s : State) : OnlyChanges [.sensors, .sources, .conds] s (releaseTest i s) := by
  unfold releaseTest
  simp only
  split
  · exact (setSensor_changes _ _ s).mono.then (setCond_changes _ _ _)
  · exact OnlyChanges.refl _ s

theorem setFeeder_changes (st : FeederState) (s : State) :
    OnlyChanges [.feeder, .held, .send .U, .send .D, .injection] s (setFeeder st s) := by
  unfold setFeeder
  split
  · exact OnlyChanges.refl _ s
  · refine OnlyChanges.then ?_ (testHeldMove_changes _)
    intro b hb; cases b <;> simp_all [Same]

theorem strayStop_changes (s : State) : OnlyChanges [.entries, .injection, .send .D] s (strayStop s) := by
  unfold strayStop
  split
  · rename_i s' h
    exact injectOrder_changes _ _ _ _ _ h
  · exact OnlyChanges.refl _ s

theorem reportRunning_changes (s : State) : OnlyChanges pourBlocks s (reportRunning s) := by
  unfold reportRunning
  refine OnlyChanges.then ?_ (derateCheck_changes _)
  split
  · exact (feederRunning_changes s).then (strayStop_changes _)
  · exact feederRunning_changes s

theorem feederArrival_changes (st : FeederState) (b : Bool) (s : State) :
    OnlyChanges feederBlocks s (feederArrival st b s) := by
  unfold feederArrival
  simp only
  have h : OnlyChanges feederBlocks s (setFeeder st s) := (setFeeder_changes st s).mono
  cases st <;> simp only
  · split
    · exact h.then (pauseVisit_changes _ _)
    · exact h
  · split
    · exact h.then (reportRunning_changes _)
    · exact h
  · split
    · exact h.then (pauseVisit_changes _ _)
    · exact h
  · exact h

theorem feederOutcome_changes (o : InjOrder) (b : Bool) (s : State) :
    OnlyChanges pourBlocks s (feederOutcome o b s) := by
  unfold feederOutcome
  simp only
  have h : OnlyChanges pourBlocks s (if b then raise srcStopFault s else s) := by
    split
    · exact (raise_changes _ s).mono
    · exact OnlyChanges.refl _ s
  cases o <;> simp only
  · exact h.then (closeOutOutcome_changes _ _)
  · exact h.then (derateCheck_changes _)
  · exact h

/-! ## Sweeps and placement -/

theorem setSweep_changes (w : Option Sweep) (s : State) : OnlyChanges [.sweep] s (setSweep w s) := by
  intro b hb; cases b <;> simp_all [Same]

theorem finishSweep_changes (o : SweepOutcome) (w : Sweep) (s : State) :
    OnlyChanges [.sweep, .send .U] s (finishSweep o w s) :=
  (setSweep_changes _ s).mono.then (notice_changes _ _)

theorem cancelSweep_changes (s : State) :
    OnlyChanges [.sweep, .send .U, .entries, .injection] s (cancelSweep s) := by
  unfold cancelSweep
  split
  · exact OnlyChanges.refl _ s
  · exact (abandonOrder_changes _ s).mono.then (finishSweep_changes _ _ _)

theorem faultSweep_changes (s : State) :
    OnlyChanges [.sweep, .send .U, .entries, .injection, .sources] s (faultSweep s) := by
  unfold faultSweep
  split
  · exact OnlyChanges.refl _ s
  · exact ((abandonOrder_changes _ s).mono.then (raise_changes _ _)).then (finishSweep_changes _ _ _)

theorem setDraws_changes (n : Nat) (s : State) : OnlyChanges [.draws] s { s with draws := n } := by
  intro b hb; cases b <;> simp_all [Same]

theorem beginStep_changes (w : Sweep) (s : State) : OnlyChanges sweepBlocks s (beginStep w s) := by
  unfold beginStep
  split
  · exact (finishSweep_changes _ _ s).mono
  · simp only
    split
    · rename_i s' h
      exact ((setDraws_changes _ s).mono.then (injectOrder_changes _ _ _ _ _ h)).then (setSweep_changes _ _)
    · exact ((setDraws_changes _ s).mono.then (setSweep_changes _ _)).then (faultSweep_changes _)

theorem completeStep_changes (w : Sweep) (s : State) : OnlyChanges sweepBlocks s (completeStep w s) := by
  unfold completeStep
  simp only
  split
  · exact (finishSweep_changes _ _ s).mono
  · split
    · exact (finishSweep_changes _ _ s).mono
    · exact beginStep_changes _ s

theorem sweepTest_changes (b : PlaceState) (x : Option (Axis × Nat × Motion)) (s : State) :
    OnlyChanges sweepBlocks s (sweepTest b x s) := by
  unfold sweepTest
  split
  · exact OnlyChanges.refl _ s
  · split
    · exact (cancelSweep_changes s).mono
    · split
      · split
        · exact completeStep_changes _ s
        · exact OnlyChanges.refl _ s
      · exact OnlyChanges.refl _ s

theorem reportPlacement_changes (a b : PlaceState) (s : State) :
    OnlyChanges pourBlocks s (reportPlacement a b s) := by
  unfold reportPlacement
  split
  · exact OnlyChanges.refl _ s
  · split
    · exact (reportPlaced_changes _ s).mono
    · exact reportLost_changes _ s
    · exact OnlyChanges.refl _ s

theorem evaluatePlacement_changes (s : State) :
    OnlyChanges (.placement :: pourBlocks) s (evaluatePlacement s) := by
  unfold evaluatePlacement
  simp only
  refine OnlyChanges.then ?_ (reportPlacement_changes _ _ _)
  intro b hb; cases b <;> simp_all [Same, pourBlocks]

theorem putAxis_changes (a : Axis) (x : AxisState) (s : State) : OnlyChanges [.axes] s (putAxis a x s) := by
  intro b hb; cases b <;> simp_all [Same]

/-! ## Belt Meter and Flight Queue -/

theorem setFlight_changes (f : Flight) (s : State) : OnlyChanges [.flight] s { s with flight := f } := by
  intro b hb; cases b <;> simp_all [Same]

theorem setZero_changes (z : Option ZeroOp) (s : State) :
    OnlyChanges [.zero] s { s with meter := { s.meter with zero := z } } := by
  intro b hb; cases b <;> simp_all [Same]

theorem evalDrift_changes (s : State) : OnlyChanges [.sources, .conds] s (evalDrift s) := by
  unfold evalDrift
  split
  · exact OnlyChanges.refl _ s
  · simp only
    split
    · exact (setCond_changes _ _ s).then (raise_changes _ _)
    · exact setCond_changes _ _ s

theorem addDrift_changes (m : Nat) (s : State) : OnlyChanges [.drift, .sources, .conds] s (addDrift m s) := by
  unfold addDrift
  split
  · refine OnlyChanges.then ?_ (evalDrift_changes _)
    intro b hb; cases b <;> simp_all [Same]
  · exact OnlyChanges.refl _ s

theorem endZero_changes (o : ZeroOutcome) (n : Int) (s : State) : OnlyChanges zeroEndBlocks s (endZero o n s) := by
  unfold endZero
  split
  · exact OnlyChanges.refl _ s
  · exact ((issue_changes _ _ s).mono.then (setZero_changes _ _)).then (notice_changes _ _)

theorem setMeterFault_changes (s : State) : OnlyChanges faultBlocks s (setMeterFault s) := by
  unfold setMeterFault
  simp only
  have h0 : OnlyChanges faultBlocks s { s with meter := { s.meter with fault := true, clearing := 0 } } := by
    intro b hb; cases b <;> simp_all [Same, faultBlocks]
  have h := ((h0.then (setCond_changes srcMeterFault true _)).then (raise_changes srcMeterFault _)).then
    (endZero_changes .faulted (raise srcMeterFault (setCond srcMeterFault true
        { s with meter := { s.meter with fault := true, clearing := 0 } })).meter.offset _)
  split
  · exact h
  · exact h.then (takeTrigger_changes _ _)

theorem countClearing_changes (s : State) : OnlyChanges [.fault, .sources, .conds] s (countClearing s) := by
  unfold countClearing
  split
  · split
    · refine OnlyChanges.then ?_ (setCond_changes _ _ _)
      intro b hb; cases b <;> simp_all [Same]
    · intro b hb; cases b <;> simp_all [Same]
  · exact OnlyChanges.refl _ s

theorem restartSilence_changes (s : State) : OnlyChanges [.silence] s (restartSilence s) := by
  unfold restartSilence
  split
  · exact OnlyChanges.refl _ s
  · split
    · intro b hb; cases b <;> simp_all [Same]
    · exact OnlyChanges.refl _ s

theorem takeIncrement_changes (sc : ScaleTable) (m : Nat) (o g : Bool) (s : State) :
    OnlyChanges [.flight, .sources, .conds] s (takeIncrement sc m o g s) := by
  unfold takeIncrement
  split
  · exact (setFlight_changes _ s).mono
  · split
    · exact (setFlight_changes _ s).mono
    · split
      · exact (setFlight_changes _ s).mono
      · exact ((setFlight_changes _ s).mono.then (setCond_changes _ _ _)).then (raise_changes _ _)

theorem deliveryAlarm_changes (a : Account) (s : State) : OnlyChanges [.sources] s (deliveryAlarm a s) := by
  unfold deliveryAlarm
  split
  · exact raise_changes _ s
  · split
    · split
      · exact OnlyChanges.refl _ _
      · exact raise_changes _ s
    · exact OnlyChanges.refl _ _

theorem reportDelivery_changes (g : Segment) (a : Account) (s : State) :
    OnlyChanges [.visit, .unbilled] s (reportDelivery g a s) := by
  unfold reportDelivery
  split
  · exact (setVisit_changes _ _).mono
  · exact (setUnbilled_changes _ _).mono

theorem creditDelivery_changes (g : Segment) (s : State) :
    OnlyChanges [.accounts, .sources, .visit, .unbilled] s (creditDelivery g s) := by
  unfold creditDelivery
  split
  · exact (raise_changes _ s).mono
  · refine OnlyChanges.then (OnlyChanges.then ?_ (deliveryAlarm_changes _ _)) (reportDelivery_changes _ _ _)
    intro b hb; cases b <;> simp_all [Same]

theorem coarseLeft_changes (g : Segment) (rest : List Segment) (s : State) :
    OnlyChanges [.sources, .conds] s (coarseLeft g rest s) := by
  unfold coarseLeft
  split
  · exact setCond_changes _ _ s
  · exact OnlyChanges.refl _ s

theorem queueEmptied_changes (s : State) : OnlyChanges completionBlocks s (queueEmptied s) := by
  unfold queueEmptied
  refine OnlyChanges.then ?_ (testHeldMove_changes _)
  split
  · exact completeVisit_changes s
  · exact OnlyChanges.refl _ s

/-- The blocks that deliveries may change. -/
def deliveryBlocks : List Block := .flight :: .accounts :: .conds :: completionBlocks

theorem deliver_changes (g : Segment) (rest : List Segment) (s : State) :
    OnlyChanges deliveryBlocks s (deliver g rest s) := by
  unfold deliver
  simp only
  have h : OnlyChanges deliveryBlocks s (creditDelivery g (coarseLeft g rest
      { s with flight := { s.flight with segments := rest } })) :=
    ((setFlight_changes _ s).mono.then (coarseLeft_changes _ _ _)).then (creditDelivery_changes _ _)
  split
  · exact h.then (queueEmptied_changes _)
  · exact h

theorem deliverDue_changes (gs : List Segment) (s : State) : OnlyChanges deliveryBlocks s (deliverDue gs s) := by
  induction gs generalizing s with
  | nil => exact OnlyChanges.refl _ s
  | cons g rest ih =>
    unfold deliverDue
    split
    · exact (deliver_changes g rest s).trans (ih _)
    · exact OnlyChanges.refl _ s

theorem deliverAndCheck_changes (b : Bool) (s : State) : OnlyChanges arrivalBlocks s (deliverAndCheck b s) := by
  unfold deliverAndCheck
  simp only
  have h : OnlyChanges arrivalBlocks s (deliverDue s.flight.segments s) := (deliverDue_changes _ s).mono
  split
  · exact h.then (checkProjections_changes _)
  · exact h

theorem weigh_changes (m : Nat) (s : State) : OnlyChanges [.weighed, .unassigned] s (weigh m s) := by
  unfold weigh
  split <;> (intro b hb; cases b <;> simp_all [Same])

theorem advanceBelt_changes (t : Nat) (s : State) : OnlyChanges [.belt] s (advanceBelt t s) := by
  intro b hb; cases b <;> simp_all [Same, advanceBelt]

theorem integrate_changes (sc : ScaleTable) (l : Int) (t : Nat) (g : Bool) (s : State) :
    OnlyChanges integrationBlocks s (integrate sc l t g s) := by
  unfold integrate
  simp only
  refine OnlyChanges.then ?_ (deliverAndCheck_changes _ _)
  have h : ∀ m n, OnlyChanges integrationBlocks s (advanceBelt t (weigh m (addDrift n s))) := fun m n =>
    ((addDrift_changes _ s).mono.then (weigh_changes _ _)).then (advanceBelt_changes _ _)
  split
  · exact (h _ _).then (takeIncrement_changes _ _ _ _ _)
  · exact h _ _

/-- The blocks that a collected sample may change. -/
def collectionBlocks : List Block := .offset :: .drift :: .conds :: zeroEndBlocks

theorem completeZero_changes (sc : ScaleTable) (z : ZeroOp) (s : State) :
    OnlyChanges collectionBlocks s (completeZero sc z s) := by
  unfold completeZero
  simp only
  split
  · refine OnlyChanges.then (OnlyChanges.then ?_ (evalDrift_changes _)) (endZero_changes _ _ _)
    intro b hb; cases b <;> simp_all [Same, collectionBlocks, zeroEndBlocks]
  · exact (setZero_changes _ s).mono.then (endZero_changes _ _ _)

theorem collectZero_changes (sc : ScaleTable) (l : Int) (t : Nat) (s : State) :
    OnlyChanges collectionBlocks s (collectZero sc l t s) := by
  unfold collectZero
  split
  · exact OnlyChanges.refl _ s
  · split
    · exact (endZero_changes _ _ s).mono
    · simp only
      split
      · exact completeZero_changes _ _ s
      · exact (setZero_changes _ s).mono

theorem reverseSample_changes (s : State) : OnlyChanges [.fault, .sources, .conds] s (reverseSample s) := by
  unfold reverseSample
  refine OnlyChanges.then (OnlyChanges.then ?_ (setCond_changes _ _ _)) (raise_changes _ _)
  intro b hb; cases b <;> simp_all [Same]

theorem beltTravel_changes (sc : ScaleTable) (l : Int) (t : Nat) (g ok : Bool) (s : State) :
    OnlyChanges beltBlocks s (beltTravel sc l t g ok s) := by
  unfold beltTravel
  split
  · simp only
    split
    · exact (reverseSample_changes s).mono
    · exact (reverseSample_changes s).mono.then (setMeterFault_changes _)
  · simp only
    split
    · exact (((setCond_changes _ _ s).mono.then (integrate_changes _ _ _ _ _)).then (countClearing_changes _)).then
        (collectZero_changes _ _ _ _)
    · exact (((setCond_changes _ _ s).mono.then (advanceBelt_changes _ _)).then (deliverAndCheck_changes _ _)).then
        (setMeterFault_changes _)

theorem firstSample_changes (ok : Bool) (s : State) : OnlyChanges (.sources :: faultBlocks) s (firstSample ok s) := by
  unfold firstSample
  simp only
  split
  · exact (setCond_changes _ _ s).mono
  · exact (setCond_changes _ _ s).mono.then (setMeterFault_changes _)

theorem takeBelt_changes (q : Byte) (l : Int) (p : BitVec 16) (ok : Bool) (s : State) :
    OnlyChanges (.prev :: .silence :: beltBlocks) s (takeBelt q l p ok s) := by
  unfold takeBelt
  split
  · exact OnlyChanges.refl _ s
  · simp only
    refine OnlyChanges.then ?_ (restartSilence_changes _)
    have h : ∀ u, OnlyChanges (.prev :: .silence :: beltBlocks) s u →
        OnlyChanges (.prev :: .silence :: beltBlocks) s { u with meter := { u.meter with prev := some (p, q) } } := by
      intro u hu
      refine hu.trans ?_
      intro b hb; cases b <;> simp_all [Same]
    apply h
    split
    · exact (firstSample_changes _ s).mono
    · exact (beltTravel_changes _ _ _ _ _ s).mono

/-! ## Taking a frame -/

/-- The blocks that the taking of a frame of port `p` may change before its owner treats it: its queue and tally, and
what LINE FAULT hands on. -/
def takingBlocks (p : PortId) : List Block := .recv p :: .conds :: pourBlocks

theorem enterLineFault_changes (p : PortId) (s : State) : OnlyChanges (takingBlocks p) s (enterLineFault p s) := by
  unfold enterLineFault
  simp only
  have h := setLinePort_recv p { s.line.port p with lineFault := true } s rfl rfl
  cases p
  · exact (h.mono.then (setCond_changes _ _ _)).then (raise_changes _ _)
  · exact ((h.mono.then (setCond_changes _ _ _)).then (raise_changes _ _)).then (takeTrigger_changes _ _)

theorem leaveLineFault_changes (p : PortId) (s : State) : OnlyChanges (takingBlocks p) s (leaveLineFault p s) := by
  unfold leaveLineFault
  simp only
  have h := setLinePort_recv p { s.line.port p with lineFault := false } s rfl rfl
  cases p
  · exact h.mono.then (setCond_changes _ _ _)
  · exact (h.mono.then (setCond_changes _ _ _)).then (derateCheck_changes _)

theorem lineFaultTest_changes (p : PortId) (s : State) : OnlyChanges (takingBlocks p) s (lineFaultTest p s) := by
  unfold lineFaultTest
  split
  · exact enterLineFault_changes p s
  · exact OnlyChanges.refl _ s

theorem setRecv_changes (p : PortId) (x : Port) (s : State) (h : x.txQueue = (s.line.port p).txQueue)
    (k : x.sending = (s.line.port p).sending) : OnlyChanges (takingBlocks p) s (setLinePort p x s) :=
  (setLinePort_recv p x s h k).mono (by simp [takingBlocks])

theorem tallyUp_changes (p : PortId) (s : State) : OnlyChanges (takingBlocks p) s (tallyUp p s) :=
  (setRecv_changes p { s.line.port p with tally := min ((s.line.port p).tally + 1) 255 } s rfl rfl).trans
    (lineFaultTest_changes p _)

theorem tallyDown_changes (p : PortId) (s : State) : OnlyChanges (takingBlocks p) s (tallyDown p s) := by
  unfold tallyDown
  simp only
  split
  · exact (setRecv_changes p { s.line.port p with tally := (s.line.port p).tally - 1 } s rfl rfl).trans
      (leaveLineFault_changes p _)
  · exact setRecv_changes p { s.line.port p with tally := (s.line.port p).tally - 1 } s rfl rfl

theorem takingStep_changes (p : PortId) (r : Receipt) (row : Instr) (s : State) :
    OnlyChanges (takingBlocks p) s (takingStep p r row s) := by
  unfold takingStep
  split
  · exact tallyUp_changes p s
  · exact tallyUp_changes p s
  · exact tallyDown_changes p s

theorem takeHead_changes (p : PortId) (e : RxEntry) (rest : List RxEntry) (row : Instr) (s : State) :
    OnlyChanges (takingBlocks p) s (takeHead p e rest row s) :=
  (setRecv_changes p { s.line.port p with rxQueue := rest } s rfl rfl).trans (takingStep_changes p _ _ _)

end Sys2Proof.Machine
end

