-- ==== Sys2Proof/Laws/Taking.lean ====
section
/-! SUPPORT. Taking a frame: what a frame-taking command answers, what the taking alone changes (R173 to R175), and
frames that stay on a wire once they are offered (R181). -/

set_option Elab.async false

namespace Sys2Proof.Machine

/-! ## What a frame-taking command answers -/

/-- The command of a frame at the head takes it, treats it and closes the event. -/
theorem takeFrame_of_heads {s : State} {p : PortId} {row : Instr} {e : RxEntry} {rest : List RxEntry}
    (treat : Frame → State → State) (h : Heads s p row e rest) :
    takeFrame p row treat s = endEvent (treat e.frame (takeHead p e rest row s)) := by
  simp [takeFrame, h.1, h.2]

/-! ## The taking alone -/

theorem enterLineFault_U (s : State) : OnlyChanges [.recv .U, .sources, .conds] s (enterLineFault .U s) := by
  unfold enterLineFault
  refine OnlyChanges.then ?_ (raise_changes _ _)
  refine OnlyChanges.then ?_ (setCond_changes _ _ _)
  exact (setLinePort_recv .U { s.line.port .U with lineFault := true } s rfl rfl).mono

theorem lineFaultTest_U (s : State) : OnlyChanges [.recv .U, .sources, .conds] s (lineFaultTest .U s) := by
  unfold lineFaultTest
  split
  · exact enterLineFault_U s
  · exact OnlyChanges.refl _ s

theorem leaveLineFault_U (s : State) : OnlyChanges [.recv .U, .sources, .conds] s (leaveLineFault .U s) := by
  unfold leaveLineFault
  refine OnlyChanges.then ?_ (setCond_changes _ _ _)
  exact (setLinePort_recv .U { s.line.port .U with lineFault := false } s rfl rfl).mono

theorem tallyUp_U (s : State) : OnlyChanges [.recv .U, .sources, .conds] s (tallyUp .U s) :=
  (setLinePort_recv .U { s.line.port .U with tally := min ((s.line.port .U).tally + 1) 255 } s rfl rfl).mono.trans
    (lineFaultTest_U _)

theorem tallyDown_U (s : State) : OnlyChanges [.recv .U, .sources, .conds] s (tallyDown .U s) := by
  unfold tallyDown
  have h := (setLinePort_recv .U { s.line.port .U with tally := (s.line.port .U).tally - 1 } s rfl rfl).mono
    (ys := [.recv .U, .sources, .conds])
  simp only
  split
  · exact h.trans (leaveLineFault_U _)
  · exact h

/-- Taking a frame of port U changes that port's receiving side and the source LINE_FAULT_U alone. -/
theorem takeHead_U (e : RxEntry) (rest : List RxEntry) (row : Instr) (s : State) :
    OnlyChanges [.recv .U, .sources, .conds] s (takeHead .U e rest row s) := by
  unfold takeHead takingStep
  have h := (setLinePort_recv .U { s.line.port .U with rxQueue := rest } s rfl rfl).mono (ys := [.recv .U, .sources, .conds])
  split
  · exact h.trans (tallyUp_U _)
  · exact h.trans (tallyUp_U _)
  · exact h.trans (tallyDown_U _)

/-- Taking a good frame of port D changes nothing else while the port is not in LINE FAULT. -/
theorem takeHead_D (e : RxEntry) (rest : List RxEntry) (row : Instr) (s : State) (hr : e.receipt = .good)
    (hrow : ∀ p, row ≠ .requestDropped p) (hl : s.line.d.lineFault = false) :
    takeHead .D e rest row s
      = setLinePort .D { s.line.d with rxQueue := rest, tally := s.line.d.tally - 1 } s := by
  unfold takeHead takingStep
  rw [hr]
  split
  · simp at *
  · exact absurd rfl (hrow _)
  · simp [tallyDown, hl, setLinePort]

theorem takeHead_D_changes (e : RxEntry) (rest : List RxEntry) (row : Instr) (s : State) (hr : e.receipt = .good)
    (hrow : ∀ p, row ≠ .requestDropped p) (hl : s.line.d.lineFault = false) :
    OnlyChanges [.recv .D] s (takeHead .D e rest row s) := by
  rw [takeHead_D e rest row s hr hrow hl]
  exact setLinePort_recv .D _ s rfl rfl

/-! ## Frames on a wire -/

theorem offer_onWire (p : PortId) (f : Frame) (s : State) (h : (s.line.port p).room = true) :
    OnWire p f (offer p f s) := by
  unfold OnWire offer Line.offer
  cases p
  · cases hq : s.line.u.txQueue <;> cases hs : s.line.u.sending <;> simp_all [Line.begin]
  · cases hq : s.line.d.txQueue <;> cases hs : s.line.d.sending <;> cases hi : s.line.injection <;>
      simp_all [Line.begin]

theorem OnWire.begin {p q : PortId} {f : Frame} {l : Line}
    (h : (l.port p).sending = some f ∨ f ∈ (l.port p).txQueue) :
    ((l.begin q).port p).sending = some f ∨ f ∈ ((l.begin q).port p).txQueue := by
  cases p <;> cases q <;> simp only [Line.begin, port_U, port_D] at * <;> split <;> simp_all [eq_comm]

theorem OnWire.offer {p q : PortId} {f g : Frame} {s : State} (h : OnWire p f s) : OnWire p f (offer q g s) := by
  unfold OnWire at *
  simp only [Machine.offer, Line.offer]
  split
  · apply OnWire.begin
    cases p <;> cases q <;> simp_all
    rcases h with h | h <;> simp [h]
    rcases h with h | h <;> simp [h]
  · exact h

/-- A frame stays on a wire whose transmitting side is the same. -/
theorem OnWire.same {p : PortId} {f : Frame} {s t : State} (h : OnWire p f s) (k : Same (.send p) s t) :
    OnWire p f t := by
  simp only [OnWire, Same] at *; rw [k.1, k.2]; exact h

theorem OnWire.notice {p : PortId} {f : Frame} {s : State} (bs : List Byte) (h : OnWire p f s) :
    OnWire p f (notice bs s) := OnWire.offer h

theorem OnWire.endEvent {p : PortId} {f : Frame} {s : State} (h : OnWire p f s) : OnWire p f (endEvent s) := by
  unfold Machine.endEvent
  simp only
  split
  · exact h
  · exact OnWire.notice _ h

end Sys2Proof.Machine
end

