-- ==== Sys2Proof/Laws/Commands.lean ====
section
/-! SUPPORT. What each command's treatment of its frame can change: one frame lemma for each. -/

set_option Elab.async false

namespace Sys2Proof.Machine

/-! ## Port D -/

theorem treatBelt_changes (f : Frame) (s : State) :
    OnlyChanges (.prev :: .silence :: beltBlocks) s (treatBelt f s) := by
  unfold treatBelt
  split
  · refine OnlyChanges.then ?_ (forward_changes _ _ _)
    split
    · exact takeBelt_changes _ _ _ _ s
    · exact OnlyChanges.refl _ s
  · exact OnlyChanges.refl _ s

theorem takePosition_changes (a : Axis) (n : Nat) (m : Motion) (s : State) :
    OnlyChanges placementBlocks s (takePosition a n m s) := by
  unfold takePosition
  exact ((putAxis_changes _ _ s).mono.then (evaluatePlacement_changes _)).then (sweepTest_changes _ _ _)

theorem treatPosition_changes (f : Frame) (s : State) : OnlyChanges placementBlocks s (treatPosition f s) := by
  unfold treatPosition
  split
  · refine OnlyChanges.then ?_ (forward_changes _ _ _)
    split
    · exact takePosition_changes _ _ _ s
    · exact OnlyChanges.refl _ s
  · exact OnlyChanges.refl _ s

theorem setSense_changes (r : Option SenseResult) (s : State) :
    OnlyChanges [.sense] s { s with place := { s.place with sense := r } } := by
  intro b hb; cases b <;> simp_all [Same]

theorem takeSense_changes (r : SenseResult) (s : State) : OnlyChanges placementBlocks s (takeSense r s) := by
  unfold takeSense
  exact ((setSense_changes _ s).mono.then (evaluatePlacement_changes _)).then (sweepTest_changes _ _ _)

theorem treatSense_changes (f : Frame) (s : State) : OnlyChanges placementBlocks s (treatSense f s) := by
  unfold treatSense
  split
  · refine OnlyChanges.then ?_ (forward_changes _ _ _)
    split
    · exact takeSense_changes _ s
    · exact OnlyChanges.refl _ s
  · exact OnlyChanges.refl _ s

theorem restartSensor_changes (i : SensorNo) (s : State) : OnlyChanges [.sensors] s (restartSensor i s) := by
  unfold restartSensor
  simp only
  split
  · split
    · exact setSensor_changes _ _ s
    · exact OnlyChanges.refl _ s
  · exact OnlyChanges.refl _ s

theorem silenceSensor_changes (i : SensorNo) (s : State) :
    OnlyChanges [.sensors, .sources, .conds] s (silenceSensor i s) := by
  unfold silenceSensor
  simp only
  have h : OnlyChanges [.sensors, .sources, .conds] s
      (setCond (srcSensorSilent i) true (setSensor i { s.dust.sensors[i] with silent := true } s)) :=
    (setSensor_changes _ _ s).mono.then (setCond_changes _ _ _)
  split
  · exact h
  · exact h.then (raise_changes _ _)

theorem averageSensor_changes (i : SensorNo) (e : SensorEntry) (c : Nat) (s : State) :
    OnlyChanges [.sensors, .sources, .conds] s (averageSensor i e c s) :=
  (setSensor_changes _ _ s).mono.then (setCond_changes _ _ _)

theorem tripSensor_changes (i : SensorNo) (e : SensorEntry) (c : Nat) (s : State) :
    OnlyChanges [.sensors, .sources, .conds] s (tripSensor i e c s) := by
  unfold tripSensor
  simp only
  split
  · exact (setSensor_changes _ _ s).mono.then (setCond_changes _ _ _)
  · exact (setSensor_changes _ _ s).mono.then (releaseTest_changes _ _)

theorem hearSensor_changes (i : SensorNo) (s : State) : OnlyChanges [.sensors, .sources, .conds] s (hearSensor i s) :=
  (setSensor_changes _ _ s).mono.then (setCond_changes _ _ _)

theorem dustAlarms_changes (i : SensorNo) (e : SensorEntry) (x : Sensor) (c : Nat) (s : State) :
    OnlyChanges [.sources] s (dustAlarms i e x c s) := by
  unfold dustAlarms
  simp only
  have h : OnlyChanges [.sources] s
      (if x.avgBand != .high && (s.dust.sensors[i]).avgBand == .high then raise (srcDustHigh i) s else s) := by
    split
    · exact raise_changes _ s
    · exact OnlyChanges.refl _ s
  split
  · exact h.then (raise_changes _ _)
  · exact h

theorem takeDust_changes (i : SensorNo) (e : SensorEntry) (c : Nat) (ok : Bool) (s : State) :
    OnlyChanges dustBlocks s (takeDust i e c ok s) := by
  unfold takeDust
  simp only
  refine OnlyChanges.then ?_ (reformBands_changes _)
  split
  · exact (((((restartSensor_changes _ s).mono.then (averageSensor_changes _ _ _ _)).then
      (tripSensor_changes _ _ _ _)).then (hearSensor_changes _ _)).then (dustAlarms_changes _ _ _ _ _))
  · exact (restartSensor_changes _ s).mono.then (silenceSensor_changes _ _)

theorem treatDust_changes (f : Frame) (s : State) : OnlyChanges dustBlocks s (treatDust f s) := by
  unfold treatDust
  split
  · refine OnlyChanges.then ?_ (forward_changes _ _ _)
    split
    · exact OnlyChanges.refl _ s
    · split
      · split
        · exact takeDust_changes _ _ _ _ s
        · exact OnlyChanges.refl _ s
      · exact OnlyChanges.refl _ s
  · exact OnlyChanges.refl _ s

theorem treatFeeder_changes (f : Frame) (s : State) : OnlyChanges feederBlocks s (treatFeeder f s) := by
  unfold treatFeeder
  split
  · refine OnlyChanges.then ?_ (forward_changes _ _ _)
    split
    · exact feederArrival_changes _ _ s
    · exact OnlyChanges.refl _ s
  · exact OnlyChanges.refl _ s

theorem observeAxis_changes (a : Axis) (r : ReplyForm) (s : State) : OnlyChanges [.axes] s (observeAxis a r s) := by
  unfold observeAxis
  split
  · exact putAxis_changes _ _ s
  · exact OnlyChanges.refl _ s

theorem observeFeeder_changes (r : ReplyForm) (s : State) : OnlyChanges feederBlocks s (observeFeeder r s) := by
  unfold observeFeeder
  split
  · exact feederArrival_changes _ _ s
  · exact OnlyChanges.refl _ s

theorem replyFeeder_changes (r : ReplyForm) (q : Byte) (s : State) :
    OnlyChanges feederBlocks s (replyFeeder r q s) := by
  unfold replyFeeder
  simp only
  split
  · split
    · exact ((observeFeeder_changes _ s).then (releaseEntry_changes _ _)).then (feederOutcome_changes _ _ _)
    · exact observeFeeder_changes _ s
  · exact observeFeeder_changes _ s

theorem driveOutcome_changes (a : DriveAxis) (b : Bool) (s : State) :
    OnlyChanges [.sweep, .send .U, .entries, .injection, .sources] s (driveOutcome a b s) := by
  unfold driveOutcome
  split
  · split
    · split
      · exact (releaseEntry_changes _ s).mono.then (setSweep_changes _ _)
      · exact faultSweep_changes s
    · exact (releaseEntry_changes _ s).mono
  · exact (releaseEntry_changes _ s).mono

theorem replyDrive_changes (a : DriveAxis) (r : ReplyForm) (q : Byte) (s : State) :
    OnlyChanges replyBlocks s (replyDrive a r q s) := by
  unfold replyDrive
  split
  · exact (observeAxis_changes _ _ s).mono.then (driveOutcome_changes _ _ _)
  · exact OnlyChanges.refl _ s

theorem treatReply_changes (f : Frame) (s : State) : OnlyChanges replyBlocks s (treatReply f s) := by
  unfold treatReply
  split
  · exact OnlyChanges.refl _ s
  · split
    · unfold consumeReply
      split
      · exact (replyFeeder_changes _ _ s).mono
      · exact replyDrive_changes _ _ _ s
      · exact OnlyChanges.refl _ s
    · exact OnlyChanges.refl _ s
    · refine OnlyChanges.then ?_ (forward_changes _ _ _)
      unfold observeReply
      split
      · exact (observeFeeder_changes _ s).mono
      · split
        · exact (observeAxis_changes _ _ s).mono
        · exact OnlyChanges.refl _ s
    · exact (forward_changes _ _ s).mono

/-! ## Orders of port U -/

theorem recordRate_changes (n : Nat) (s : State) : OnlyChanges [.visit, .rate] s (recordRate n s) := by
  unfold recordRate
  simp only
  refine OnlyChanges.then ?_ (mapVisit_changes _ _)
  intro b hb; cases b <;> simp_all [Same]

theorem reserveForVisit_changes (s : State) : OnlyChanges [.visit, .reserved] s (reserveForVisit s) := by
  unfold reserveForVisit
  split
  · exact OnlyChanges.refl _ s
  · exact (reserve_changes s).mono.then (mapVisit_changes _ _)

theorem runTaken_changes (f : Frame) (n : Nat) (s : State) : OnlyChanges pourBlocks s (runTaken f n s) := by
  unfold runTaken
  split
  · exact ((((reserveForVisit_changes s).mono.then (offer_changes _ _ _))).then (recordRate_changes _ _)).then
      (runForwarded_changes _)
  · exact (refuse_changes _ _ _ s).mono

theorem treatRun_changes (f : Frame) (s : State) : OnlyChanges pourBlocks s (treatRun f s) := by
  unfold treatRun
  split
  · exact (raise_changes _ s).mono.then (refuse_changes _ _ _ _)
  · exact (refuse_changes _ _ _ s).mono
  · split
    · exact runTaken_changes _ _ s
    · exact OnlyChanges.refl _ s

theorem treatRate_changes (f : Frame) (s : State) :
    OnlyChanges [.visit, .rate, .send .U, .send .D, .injection] s (treatRate f s) := by
  unfold treatRate
  split
  · exact (refuse_changes _ _ _ s).mono
  · split
    · split
      · exact (offer_changes _ _ s).mono.then (recordRate_changes _ _)
      · exact (refuse_changes _ _ _ s).mono
    · exact OnlyChanges.refl _ s

theorem treatStop_changes (f : Frame) (s : State) :
    OnlyChanges [.visit, .send .U, .send .D, .injection] s (treatStop f s) := by
  unfold treatStop
  split
  · exact (offer_changes _ _ s).mono.then (pauseVisit_changes _ _)
  · exact (refuse_changes _ _ _ s).mono

theorem cancelSweepOn_changes (a : DriveAxis) (s : State) :
    OnlyChanges [.sweep, .send .U, .entries, .injection] s (cancelSweepOn a s) := by
  unfold cancelSweepOn
  split
  · split
    · exact cancelSweep_changes s
    · exact OnlyChanges.refl _ s
  · exact OnlyChanges.refl _ s

theorem dismissHeldOn_changes (a : DriveAxis) (r : Reason) (s : State) :
    OnlyChanges [.held, .send .U] s (dismissHeldOn a r s) := by
  unfold dismissHeldOn
  split
  · split
    · exact dismissHeldMove_changes _ s
    · exact OnlyChanges.refl _ s
  · exact OnlyChanges.refl _ s

theorem holdMove_changes (h : HeldMove) (s : State) : OnlyChanges [.held, .send .U] s (holdMove h s) := by
  unfold holdMove
  simp only
  exact ((dismissHeldMove_changes _ s).then (setHeld_changes _ _)).then (refuse_U _ _ _)

theorem forwardOrder_changes (f g : Frame) (k : State → State) (s : State)
    (hk : ∀ u, OnlyChanges moveBlocks u (k u)) : OnlyChanges moveBlocks s (forwardOrder f k g s) := by
  unfold forwardOrder
  split
  · exact (offer_changes _ _ s).mono.trans (hk _)
  · exact (refuse_changes _ _ _ s).mono

theorem moveDrive_changes (a : DriveAxis) (f g : Frame) (n : Nat) (s : State) :
    OnlyChanges moveBlocks s (moveDrive a f g n s) := by
  unfold moveDrive
  split
  · exact forwardOrder_changes _ _ _ s fun u => (cancelSweepOn_changes _ u).mono
  · split
    · exact forwardOrder_changes _ _ _ s fun u =>
        (cancelSweepOn_changes _ u).mono.then (dismissHeldOn_changes _ _ _)
    · split
      · exact (cancelSweepOn_changes _ s).mono.then (holdMove_changes _ _)
      · exact (cancelSweepOn_changes _ s).mono.then (refuse_changes _ _ _ _)

theorem treatMove_changes (f : Frame) (s : State) : OnlyChanges moveBlocks s (treatMove f s) := by
  unfold treatMove
  split
  · split
    · unfold moveAxis
      simp only
      split
      · exact forwardOrder_changes _ _ _ s fun u => OnlyChanges.refl _ u
      · exact moveDrive_changes _ _ _ _ s
      · exact moveDrive_changes _ _ _ _ s
    · exact (refuse_changes _ _ _ s).mono
  · exact OnlyChanges.refl _ s

theorem haltAxis_changes (a : Axis) (s : State) : OnlyChanges moveBlocks s (haltAxis a s) := by
  unfold haltAxis
  split
  · exact (cancelSweepOn_changes _ s).mono.then (dismissHeldOn_changes _ _ _)
  · exact (cancelSweepOn_changes _ s).mono.then (dismissHeldOn_changes _ _ _)
  · exact OnlyChanges.refl _ s

theorem treatHalt_changes (f : Frame) (s : State) : OnlyChanges moveBlocks s (treatHalt f s) := by
  unfold treatHalt
  split
  · split
    · exact forwardOrder_changes _ _ _ s fun u => haltAxis_changes _ u
    · exact (refuse_changes _ _ _ s).mono
  · exact OnlyChanges.refl _ s

/-! ## Requests -/

theorem answerJudged_changes {α : Type} {xs : List Block} (f : Frame) (j : Except Reason α) (k : α → State → State)
    (s : State) (hx : Block.send .U ∈ xs) (hk : ∀ x u, OnlyChanges xs u (k x u)) :
    OnlyChanges xs s (answerJudged f j k s) := by
  have hs : ∀ b ∈ [Block.send .U], b ∈ xs := by simpa using hx
  unfold answerJudged
  split
  · exact (answerRefused_changes _ _ s).mono hs
  · exact ((answerDone_changes _ _ s).mono hs).trans (hk _ _)

theorem answerRequest_changes {xs : List Block} (f : Frame) (r : Option Reason) (k : State → State) (s : State)
    (hx : Block.send .U ∈ xs) (hy : Block.sources ∈ xs) (hk : ∀ u, OnlyChanges xs u (k u)) :
    OnlyChanges xs s (answerRequest f r k s) := by
  have hs : ∀ b ∈ [Block.send .U], b ∈ xs := by simpa using hx
  have hr : ∀ b ∈ [Block.sources], b ∈ xs := by simpa using hy
  unfold answerRequest
  split
  · unfold refuseRequest
    simp only
    split
    · exact ((answerRefused_changes _ _ s).mono hs).then (raise_changes _ _) hr
    · exact (answerRefused_changes _ _ s).mono hs
  · exact ((answerDone_changes _ _ s).mono hs).trans (hk _)

theorem startTimers_changes (s : State) : OnlyChanges [.silence, .sensors] s (startTimers s) := by
  unfold startTimers
  have h : ∀ (xs : List SensorNo) (u : State), OnlyChanges [.silence, .sensors] u
      (xs.foldl (fun s (i : SensorNo) => restartSensor i s) u) := by
    intro xs
    induction xs with
    | nil => intro u; exact OnlyChanges.refl _ u
    | cons a as ih => intro u; exact (restartSensor_changes a u).mono.trans (ih _)
  exact (restartSilence_changes s).mono.trans (h _ _)

theorem becomeReady_changes (s : State) : OnlyChanges [.part, .silence, .sensors] s (becomeReady s) := by
  unfold becomeReady
  split
  · refine OnlyChanges.then ?_ (startTimers_changes _)
    intro b hb; cases b <;> simp_all [Same]
  · exact OnlyChanges.refl _ s

/-- The blocks that an accepted LOAD of STATIONS may change. -/
def stationBlocks : List Block :=
  [.stations, .part, .silence, .sensors, .prev, .axes, .sense, .feeder, .held, .send .U, .send .D, .injection]

theorem roleChanged_changes (e : Nat) (s : State) : OnlyChanges stationBlocks s (roleChanged e s) := by
  unfold roleChanged
  split
  · intro b hb; cases b <;> simp_all [Same, stationBlocks]
  · exact (setFeeder_changes _ s).mono
  · exact (putAxis_changes _ _ s).mono
  · exact (putAxis_changes _ _ s).mono
  · exact (putAxis_changes _ _ s).mono
  · exact (setSense_changes _ s).mono
  · split
    · exact (restartSensor_changes _ s).mono
    · exact OnlyChanges.refl _ s

theorem applyStation_changes (e : Nat) (a : Option Byte) (s : State) :
    OnlyChanges stationBlocks s (applyStation e a s) := by
  unfold applyStation
  split
  · rename_i h
    simp only
    refine OnlyChanges.then ?_ (becomeReady_changes _)
    have h1 : OnlyChanges stationBlocks s (restartSilence { s with stations := upd s.stations ⟨e, h⟩ a }) := by
      refine OnlyChanges.then ?_ (restartSilence_changes _)
      intro b hb; cases b <;> simp_all [Same, stationBlocks]
    have h2 : ∀ u, OnlyChanges stationBlocks s u →
        OnlyChanges stationBlocks s { u with handler := { u.handler with stationsMark := true } } := by
      intro u hu
      refine hu.trans ?_
      intro b hb; cases b <;> simp_all [Same, stationBlocks]
    apply h2
    split
    · exact h1.trans (roleChanged_changes _ _)
    · exact h1
  · exact OnlyChanges.refl _ s

theorem applyScale_changes (t : ScaleTable) (s : State) :
    OnlyChanges [.scale, .prev, .silence, .sources, .conds, .part, .sensors] s (applyScale t s) := by
  unfold applyScale
  simp only
  refine OnlyChanges.then ?_ (becomeReady_changes _)
  have h1 : OnlyChanges [.scale, .prev, .silence, .sources, .conds, .part, .sensors] s
      { s with meter := { s.meter with table := some t, prev := none } } := by
    intro b hb; cases b <;> simp_all [Same]
  have h2 : ∀ u, OnlyChanges [.scale, .prev, .silence, .sources, .conds, .part, .sensors] s u →
      OnlyChanges [.scale, .prev, .silence, .sources, .conds, .part, .sensors] s
        { u with handler := { u.handler with scaleMark := true } } := by
    intro u hu
    refine hu.trans ?_
    intro b hb; cases b <;> simp_all [Same]
  exact h2 _ ((h1.then (restartSilence_changes _)).then (evalDrift_changes _))

theorem applyTravel_changes (t : TravelTable) (s : State) : OnlyChanges [.travel] s (applyTravel t s) := by
  intro b hb; cases b <;> simp_all [Same, applyTravel]

theorem applyEnvelope_changes (e : Nat) (x : Envelope) (s : State) :
    OnlyChanges [.envelopes] s (applyEnvelope e x s) := by
  unfold applyEnvelope
  split
  · intro b hb; cases b <;> simp_all [Same]
  · exact OnlyChanges.refl _ s

theorem applyHold_changes (e : Nat) (x : HoldEntry) (s : State) :
    OnlyChanges [.planTables, .holdStates] s (applyHold e x s) := by
  unfold applyHold
  split
  · intro b hb; cases b <;> simp_all [Same]
  · exact OnlyChanges.refl _ s

theorem applySlot_changes (e : Nat) (x : Slot) (s : State) : OnlyChanges [.planTables] s (applySlot e x s) := by
  unfold applySlot
  split
  · intro b hb; cases b <;> simp_all [Same]
  · exact OnlyChanges.refl _ s

theorem applyPlan_changes (x : PlanHeader) (s : State) :
    OnlyChanges (.planTables :: .limit :: derateBlocks) s (applyPlan x s) := by
  unfold applyPlan
  simp only
  have h : OnlyChanges (.planTables :: .limit :: derateBlocks) s { s with seq := { s.seq with header := some x } } := by
    intro b hb; cases b <;> simp_all [Same, derateBlocks]
  split
  · split
    · exact h
    · exact h.then (recomputeLimit_changes _)
  · exact h.then (recomputeLimit_changes _)

theorem applyGate_changes (w : Nat) (s : State) : OnlyChanges [.window] s (applyGate w s) := by
  intro b hb; cases b <;> simp_all [Same, applyGate]

theorem applyDerate_changes (x : Nat × Nat) (s : State) :
    OnlyChanges (.derates :: .limit :: derateBlocks) s (applyDerate x s) := by
  unfold applyDerate
  simp only
  have h : OnlyChanges (.derates :: .limit :: derateBlocks) s
      { s with dust := { s.dust with elevDerate := x.1, highDerate := x.2 } } := by
    intro b hb; cases b <;> simp_all [Same, derateBlocks]
  split
  · exact h
  · exact h.then (recomputeLimit_changes _)

theorem freshSensor_changes (i : SensorNo) (x : SensorEntry) (s : State) :
    OnlyChanges [.sensors, .sources, .conds] s (freshSensor i x s) :=
  ((((setSensor_changes _ _ s).mono.then (setCond_changes _ _ _)).then (setCond_changes _ _ _)).then
    (setCond_changes _ _ _)).then (restartSensor_changes _ _)

theorem loadSensor_changes (i : SensorNo) (b : Bool) (x : SensorEntry) (s : State) :
    OnlyChanges [.sensors, .sources, .conds] s (loadSensor i b x s) := by
  unfold loadSensor
  split
  · exact freshSensor_changes i x s
  · split
    · exact freshSensor_changes i x s
    · split
      · exact ((setSensor_changes _ _ s).mono.then (setCond_changes _ _ _)).then (setCond_changes _ _ _)
      · unfold amendSensor
        simp only
        split
        · exact (setSensor_changes _ _ s).mono.then (restartSensor_changes _ _)
        · exact (setSensor_changes _ _ s).mono

theorem retestLatch_changes (i : SensorNo) (s : State) : OnlyChanges dustBlocks s (retestLatch i s) :=
  (releaseTest_changes i s).mono.then (reformBands_changes _)

theorem applySensor_changes (l : Load) (x : SensorEntry) (s : State) :
    OnlyChanges dustBlocks s (applySensor l x s) := by
  unfold applySensor
  split
  · exact (loadSensor_changes _ _ _ s).mono.then (retestLatch_changes _ _)
  · exact OnlyChanges.refl _ s

theorem reportSource_changes (i : SourceNo) (s : State) : OnlyChanges dustBlocks s (reportSource i s) := by
  unfold reportSource
  split
  · exact retestLatch_changes _ s
  · exact OnlyChanges.refl _ s

theorem applyAlarm_changes (e : Nat) (x : AlarmFields) (s : State) :
    OnlyChanges (.alarmTable :: dustBlocks) s (applyAlarm e x s) := by
  unfold applyAlarm
  split
  · rename_i h
    simp only
    have h1 := (putSource_changes ⟨e, h⟩ ((s.ladder.sources[e]).amended x) s).mono (ys := .alarmTable :: dustBlocks)
    split
    · exact h1
    · exact h1.then (reportSource_changes _ _)
  · exact OnlyChanges.refl _ s

theorem applyMarks_changes (v : Vector Nat 4) (s : State) : OnlyChanges [.marks] s (applyMarks v s) := by
  intro b hb; cases b <;> simp_all [Same, applyMarks]

theorem loadTable_changes (f : Frame) (l : Load) (s : State) : OnlyChanges loadBlocks s (loadTable f l s) := by
  have hU : Block.send .U ∈ loadBlocks := by decide
  unfold loadTable
  split
  · exact answerJudged_changes _ _ _ s hU fun x u => (applyStation_changes _ x u).mono
  · exact answerJudged_changes _ _ _ s hU fun x u => (applyScale_changes x u).mono
  · exact answerJudged_changes _ _ _ s hU fun x u => (applyTravel_changes x u).mono
  · exact answerJudged_changes _ _ _ s hU fun x u => (applyEnvelope_changes _ x u).mono
  · exact answerJudged_changes _ _ _ s hU fun x u => (applyHold_changes _ x u).mono
  · exact answerJudged_changes _ _ _ s hU fun x u => (applySlot_changes _ x u).mono
  · exact answerJudged_changes _ _ _ s hU fun x u => (applyPlan_changes x u).mono
  · exact answerJudged_changes _ _ _ s hU fun x u => (applyGate_changes x u).mono
  · split
    · exact answerJudged_changes _ _ _ s hU fun x u => (applyDerate_changes x u).mono
    · exact answerJudged_changes _ _ _ s hU fun x u => (applySensor_changes _ x u).mono
  · exact answerJudged_changes _ _ _ s hU fun x u => (applyAlarm_changes _ x u).mono
  · exact answerJudged_changes _ _ _ s hU fun x u => (applyMarks_changes x u).mono
  · exact (answerRefused_changes _ _ s).mono

/-- An AMEND with an empty mask changes what a release test may change. -/
theorem applyNothing_changes (l : Load) (s : State) : OnlyChanges dustBlocks s (applyNothing l s) := by
  unfold applyNothing
  split
  · exact retestLatch_changes _ s
  · exact OnlyChanges.refl _ s

/-- For any entry but a sensor's it changes nothing. -/
theorem applyNothing_other (l : Load) (s : State) (h : l.table ≠ .dust ∨ l.entry = 0) : applyNothing l s = s := by
  unfold applyNothing
  rw [dif_neg]
  rintro ⟨a, b, -⟩
  rcases h with h | h
  · exact h a
  · exact b h

theorem runLoad_changes (f : Frame) (l : Load) (s : State) : OnlyChanges loadBlocks s (runLoad f l s) := by
  unfold runLoad
  split
  · exact (answerDone_changes _ _ s).mono.then ((applyNothing_changes l _).mono (ys := loadBlocks))
  · exact loadTable_changes f l s

theorem treatLoad_changes (f : Frame) (s : State) : OnlyChanges loadBlocks s (treatLoad f s) := by
  unfold treatLoad
  split
  · exact (answerRefused_changes _ _ s).mono
  · split
    · exact runLoad_changes _ _ s
    · exact (answerRefused_changes _ _ s).mono

theorem treatRead_changes (f : Frame) (s : State) : OnlyChanges [.send .U] s (treatRead f s) := by
  unfold treatRead
  split
  · split
    · split
      · exact answerDone_changes _ _ s
      · exact answerRefused_changes _ _ s
    · exact answerRefused_changes _ _ s
  · exact OnlyChanges.refl _ s

theorem treatStatus_changes (f : Frame) (s : State) : OnlyChanges [.send .U] s (treatStatus f s) := by
  unfold treatStatus
  split
  · split
    · exact answerDone_changes _ _ s
    · exact answerRefused_changes _ _ s
  · exact OnlyChanges.refl _ s

theorem setOptions_changes (m a b c d : Byte) (s : State) :
    OnlyChanges optionBlocks s (setOptions m a b c d s) := by
  unfold setOptions
  simp only
  refine OnlyChanges.then (OnlyChanges.then ?_ (lineFaultTest_changes _ _)) (lineFaultTest_changes _ _)
  have h : ∀ g : Handler, g.part = s.handler.part → g.stationsMark = s.handler.stationsMark →
      g.scaleMark = s.handler.scaleMark →
      OnlyChanges optionBlocks s { s with handler := g } := by
    intro g h1 h2 h3 x hx
    cases x <;> simp_all [Same, optionBlocks, pourBlocks, completionBlocks]
  apply h <;> (split <;> split <;> split <;> split <;> rfl)

theorem treatSetOptions_changes (f : Frame) (s : State) :
    OnlyChanges optionBlocks s (treatSetOptions f s) := by
  unfold treatSetOptions
  split
  · split
    · exact (answerRefused_changes _ _ s).mono
    · split
      · exact (answerRefused_changes _ _ s).mono
      · exact (answerDone_changes _ _ s).mono.trans (setOptions_changes _ _ _ _ _ _)
  · exact OnlyChanges.refl _ s

theorem treatOpenShip_changes (f : Frame) (s : State) : OnlyChanges openBlocks s (treatOpenShip f s) := by
  refine answerRequest_changes _ _ _ s (by decide) (by decide) fun u => ?_
  unfold openShip
  simp only
  refine OnlyChanges.then ?_ (issue_changes _ _ _)
  intro b hb; cases b <;> simp_all [Same, openBlocks]

theorem treatCloseShip_changes (f : Frame) (s : State) : OnlyChanges closeBlocks s (treatCloseShip f s) := by
  refine answerRequest_changes _ _ _ s (by decide) (by decide) fun u => ?_
  unfold closeShip clearPlan
  simp only
  have h := (setBases_changes (closeLineAccounts u) u).mono (ys := closeBlocks) |>.then
    (issue_changes false (closeRecord u) _)
  refine h.trans ?_
  intro b hb; cases b <;> simp_all [Same, closeBlocks]

theorem treatStartPlan_changes (f : Frame) (s : State) : OnlyChanges selectionBlocks s (treatStartPlan f s) := by
  unfold treatStartPlan
  split
  · refine answerJudged_changes _ _ _ s (by decide) fun x u => ?_
    unfold startPlan
    refine OnlyChanges.then ?_ (selectVisit_changes _)
    intro b hb; cases b <;> simp_all [Same, selectionBlocks]
  · exact OnlyChanges.refl _ s

theorem setPlan_changes (p : PlanState) (s : State) : OnlyChanges [.plan] s (setPlan p s) := by
  intro b hb; cases b <;> simp_all [Same, setPlan]

theorem haltVisit_changes (s : State) : OnlyChanges pourBlocks s (haltVisit s) := by
  unfold haltVisit
  split
  · exact (dropVisit_changes s).mono
  · exact (dropVisit_changes s).mono
  · exact takeTrigger_changes _ s

theorem treatHaltPlan_changes (f : Frame) (s : State) : OnlyChanges pourBlocks s (treatHaltPlan f s) := by
  refine answerRequest_changes _ _ _ s (by decide) (by decide) fun u => ?_
  exact ((setPlan_changes _ u).mono.then (dismissHeldMove_changes _ _)).trans (haltVisit_changes _)

theorem treatResumePlan_changes (f : Frame) (s : State) : OnlyChanges selectionBlocks s (treatResumePlan f s) := by
  refine answerRequest_changes _ _ _ s (by decide) (by decide) fun u => ?_
  exact (setPlan_changes _ u).mono.trans (selectVisit_changes _)

theorem treatSkipSlot_changes (f : Frame) (s : State) :
    OnlyChanges (.unbilled :: selectionBlocks) s (treatSkipSlot f s) := by
  refine answerRequest_changes _ _ _ s (by decide) (by decide) fun u => ?_
  exact ((dropVisit_changes u).mono.then (advanceCursor_changes _)).then (selectVisit_changes _)

theorem treatZeroBelt_changes (f : Frame) (s : State) :
    OnlyChanges [.zero, .reserved, .sources, .send .U] s (treatZeroBelt f s) := by
  refine answerRequest_changes _ _ _ s (by decide) (by decide) fun u => ?_
  exact (setZero_changes _ u).mono.then (reserve_changes _)

theorem treatZeroAbort_changes (f : Frame) (s : State) : OnlyChanges zeroEndBlocks s (treatZeroAbort f s) :=
  answerRequest_changes _ _ _ s (by decide) (by decide) fun u => endZero_changes _ _ u

theorem treatSweep_changes (f : Frame) (s : State) : OnlyChanges sweepBlocks s (treatSweep f s) := by
  unfold treatSweep
  split
  · split
    · exact answerJudged_changes _ _ _ s (by decide) fun x u => beginStep_changes _ u
    · exact (answerRefused_changes _ _ s).mono
  · exact OnlyChanges.refl _ s

theorem setStack_changes (i : SourceNo) (x : Source) (st : List SourceNo) (s : State)
    (h : x.rank = (s.ladder.sources[i]).rank ∧ x.record = (s.ladder.sources[i]).record
      ∧ x.present = (s.ladder.sources[i]).present) (hc : x.cond = (s.ladder.sources[i]).cond) :
    OnlyChanges [.sources, .stack] s { s with ladder := { s.ladder.put i x with stack := st } } := by
  intro b hb
  cases b with
  | alarmTable => exact putSource_alarmTable i x s h
  | conds => exact putSource_conds i x s hc
  | sources => simp at hb
  | stack => simp at hb
  | _ => simp_all [Same, Ladder.put]

theorem treatAckAlarm_changes (f : Frame) (s : State) : OnlyChanges alarmBlocks s (treatAckAlarm f s) := by
  unfold treatAckAlarm
  split
  · refine answerJudged_changes _ _ _ s (by decide) fun x u => ?_
    exact (setStack_changes x { u.ladder.sources[x] with state := .inService } (x :: u.ladder.stack) u ⟨rfl, rfl, rfl⟩
      rfl).mono.then
      (reportSource_changes _ _)
  · exact OnlyChanges.refl _ s

theorem treatDoneAlarm_changes (f : Frame) (s : State) : OnlyChanges alarmBlocks s (treatDoneAlarm f s) := by
  unfold treatDoneAlarm
  split
  · refine answerJudged_changes _ _ _ s (by decide) fun x u => ?_
    exact (setStack_changes x (u.ladder.sources[x]).completed u.ladder.stack.tail u ⟨rfl, rfl, rfl⟩ rfl).mono.then
      (reportSource_changes _ _)
  · exact OnlyChanges.refl _ s

theorem treatSetAlarm_changes (f : Frame) (s : State) : OnlyChanges loadBlocks s (treatSetAlarm f s) := by
  unfold treatSetAlarm
  split
  · split
    · exact runLoad_changes _ _ s
    · exact (answerRefused_changes _ _ s).mono
  · exact OnlyChanges.refl _ s

theorem treatReadRecords_changes (f : Frame) (s : State) : OnlyChanges [.send .U] s (treatReadRecords f s) := by
  unfold treatReadRecords
  simp only
  split
  · exact answerRefused_changes _ _ s
  · split
    · exact answerRefused_changes _ _ s
    · exact answerDone_changes _ _ s

theorem releaseRecords_changes (n : Nat) (s : State) : OnlyChanges [.records] s (releaseRecords n s) := by
  intro b hb; cases b <;> simp_all [Same, releaseRecords]

theorem treatTakeRecords_changes (f : Frame) (s : State) :
    OnlyChanges [.send .U, .records] s (treatTakeRecords f s) := by
  unfold treatTakeRecords
  split
  · exact (answerRefused_changes _ _ s).mono
  · exact (answerDone_changes _ _ s).mono.then (releaseRecords_changes _ _)

end Sys2Proof.Machine
end

