-- ==== Sys2Proof/Laws/Answering.lean ====
section
/-! SUPPORT. How a command's answer is read: the fields that an offer, the taking of a port U frame and the end of an
event leave as they are, and the form in which a command that takes a frame, or none, completes. -/

set_option Elab.async false

namespace Sys2Proof.Machine

/-! ## Fields -/

@[simp] theorem offer_fields (p : PortId) (f : Frame) (s : State) :
    (offer p f s).handler = s.handler ∧ (offer p f s).stations = s.stations ∧ (offer p f s).pins = s.pins ∧
    (offer p f s).now = s.now ∧ (offer p f s).meter = s.meter ∧ (offer p f s).flight = s.flight ∧
    (offer p f s).place = s.place ∧ (offer p f s).seq = s.seq ∧ (offer p f s).gate = s.gate ∧
    (offer p f s).dust = s.dust ∧ (offer p f s).ladder = s.ladder ∧ (offer p f s).bills = s.bills ∧
    (offer p f s).ship = s.ship ∧ (offer p f s).draws = s.draws ∧ (offer p f s).pending = s.pending :=
  ⟨rfl, rfl, rfl, rfl, rfl, rfl, rfl, rfl, rfl, rfl, rfl, rfl, rfl, rfl, rfl⟩

@[simp] theorem offer_U_lineD (f : Frame) (s : State) :
    (offer .U f s).line.d = s.line.d ∧ (offer .U f s).line.injection = s.line.injection
      ∧ (offer .U f s).line.injSeq = s.line.injSeq := by
  simp only [offer]
  exact ⟨by have := lineOffer_other s.line .U f; exact this, by simpa using lineOffer_U_injection s.line f,
    lineOffer_injSeq s.line .U f⟩

@[simp] theorem notice_fields (bs : List Byte) (s : State) :
    (notice bs s).handler = s.handler ∧ (notice bs s).stations = s.stations ∧ (notice bs s).pins = s.pins ∧
    (notice bs s).now = s.now ∧ (notice bs s).meter = s.meter ∧ (notice bs s).flight = s.flight ∧
    (notice bs s).place = s.place ∧ (notice bs s).seq = s.seq ∧ (notice bs s).gate = s.gate ∧
    (notice bs s).dust = s.dust ∧ (notice bs s).ladder = s.ladder ∧ (notice bs s).bills = s.bills ∧
    (notice bs s).ship = s.ship ∧ (notice bs s).draws = s.draws ∧ (notice bs s).pending = s.pending ∧
    (notice bs s).line.d = s.line.d ∧ (notice bs s).line.injection = s.line.injection ∧
    (notice bs s).line.injSeq = s.line.injSeq := by simp [notice]

@[simp] theorem refuse_U_fields (f : Frame) (r : Reason) (s : State) :
    (refuse .U f r s).handler = s.handler ∧ (refuse .U f r s).stations = s.stations ∧
    (refuse .U f r s).pins = s.pins ∧ (refuse .U f r s).now = s.now ∧ (refuse .U f r s).meter = s.meter ∧
    (refuse .U f r s).flight = s.flight ∧ (refuse .U f r s).place = s.place ∧ (refuse .U f r s).seq = s.seq ∧
    (refuse .U f r s).gate = s.gate ∧ (refuse .U f r s).dust = s.dust ∧ (refuse .U f r s).ladder = s.ladder ∧
    (refuse .U f r s).bills = s.bills ∧ (refuse .U f r s).ship = s.ship ∧ (refuse .U f r s).draws = s.draws ∧
    (refuse .U f r s).pending = s.pending ∧ (refuse .U f r s).line.d = s.line.d ∧
    (refuse .U f r s).line.injection = s.line.injection ∧ (refuse .U f r s).line.injSeq = s.line.injSeq := by
  simp [refuse]

@[simp] theorem answerDone_fields (f : Frame) (bs : List Byte) (s : State) :
    (answerDone f bs s).handler = s.handler ∧ (answerDone f bs s).stations = s.stations ∧
    (answerDone f bs s).pins = s.pins ∧ (answerDone f bs s).now = s.now ∧ (answerDone f bs s).meter = s.meter ∧
    (answerDone f bs s).flight = s.flight ∧ (answerDone f bs s).place = s.place ∧
    (answerDone f bs s).seq = s.seq ∧ (answerDone f bs s).gate = s.gate ∧ (answerDone f bs s).dust = s.dust ∧
    (answerDone f bs s).ladder = s.ladder ∧ (answerDone f bs s).bills = s.bills ∧
    (answerDone f bs s).ship = s.ship ∧ (answerDone f bs s).draws = s.draws ∧
    (answerDone f bs s).pending = s.pending ∧ (answerDone f bs s).line.d = s.line.d ∧
    (answerDone f bs s).line.injection = s.line.injection ∧ (answerDone f bs s).line.injSeq = s.line.injSeq := by
  simp [answerDone]

/-- The end of an event changes FEED PERMIT, what is presented and port U's sending side alone. -/
@[simp] theorem endEvent_fields (s : State) :
    (endEvent s).handler = s.handler ∧ (endEvent s).stations = s.stations ∧ (endEvent s).pins = s.pins ∧
    (endEvent s).now = s.now ∧ (endEvent s).meter = s.meter ∧ (endEvent s).flight = s.flight ∧
    (endEvent s).place = s.place ∧ (endEvent s).seq = s.seq ∧
    (endEvent s).gate = { s.gate with permit := permitOf s } ∧ (endEvent s).dust = s.dust ∧
    (endEvent s).ladder
      = { s.ladder with presented := s.ladder.toPresent, horn := s.ladder.toPresent.isSome } ∧
    (endEvent s).bills = s.bills ∧ (endEvent s).ship = s.ship ∧ (endEvent s).draws = s.draws ∧
    (endEvent s).pending = s.pending ∧ (endEvent s).line.d = s.line.d ∧
    (endEvent s).line.injection = s.line.injection ∧ (endEvent s).line.injSeq = s.line.injSeq := by
  unfold endEvent
  simp only
  split <;> simp

/-- The receiving side of port U at the end of an event. -/
@[simp] theorem endEvent_recvU (s : State) :
    (endEvent s).line.u.rx = s.line.u.rx ∧ (endEvent s).line.u.rxQueue = s.line.u.rxQueue ∧
    (endEvent s).line.u.tally = s.line.u.tally ∧ (endEvent s).line.u.lineFault = s.line.u.lineFault := by
  have := (endEvent_changes s).same (.recv .U) (by simp [closing])
  simpa [Same] using this

/-- Taking a frame of port U leaves everything but that port's receiving side and the source table. -/
@[simp] theorem takeHead_U_fields (e : RxEntry) (rest : List RxEntry) (row : Instr) (s : State) :
    (takeHead .U e rest row s).handler = s.handler ∧ (takeHead .U e rest row s).stations = s.stations ∧
    (takeHead .U e rest row s).pins = s.pins ∧ (takeHead .U e rest row s).now = s.now ∧
    (takeHead .U e rest row s).meter = s.meter ∧ (takeHead .U e rest row s).flight = s.flight ∧
    (takeHead .U e rest row s).place = s.place ∧ (takeHead .U e rest row s).seq = s.seq ∧
    (takeHead .U e rest row s).gate = s.gate ∧ (takeHead .U e rest row s).dust = s.dust ∧
    (takeHead .U e rest row s).bills = s.bills ∧ (takeHead .U e rest row s).ship = s.ship ∧
    (takeHead .U e rest row s).draws = s.draws ∧ (takeHead .U e rest row s).pending = s.pending ∧
    (takeHead .U e rest row s).line.d = s.line.d ∧ (takeHead .U e rest row s).line.injection = s.line.injection ∧
    (takeHead .U e rest row s).line.injSeq = s.line.injSeq ∧
    (takeHead .U e rest row s).line.u.txQueue = s.line.u.txQueue ∧
    (takeHead .U e rest row s).line.u.sending = s.line.u.sending ∧
    (takeHead .U e rest row s).ladder.stack = s.ladder.stack ∧
    (takeHead .U e rest row s).ladder.presented = s.ladder.presented := by
  unfold takeHead takingStep
  split <;> simp only [tallyUp, tallyDown, lineFaultTest, enterLineFault, leaveLineFault] <;> split <;>
    simp [Ladder.put]

/-- Taking a frame of port U keeps the settable fields of every source. -/
theorem takeHead_U_alarmTable (e : RxEntry) (rest : List RxEntry) (row : Instr) (s : State) (i : SourceNo) :
    ((takeHead .U e rest row s).ladder.sources[i]).rank = (s.ladder.sources[i]).rank ∧
    ((takeHead .U e rest row s).ladder.sources[i]).record = (s.ladder.sources[i]).record ∧
    ((takeHead .U e rest row s).ladder.sources[i]).present = (s.ladder.sources[i]).present :=
  (takeHead_U e rest row s).same .alarmTable (by simp) i

/-- Room for one more frame stays as it is when a frame of port U is taken. -/
theorem takeHead_U_room (e : RxEntry) (rest : List RxEntry) (row : Instr) (s : State) (p : PortId) :
    ((takeHead .U e rest row s).line.port p).room = (s.line.port p).room := by
  cases p <;> simp only [port_U, port_D, Port.room] <;> simp <;> rfl

/-! ## Completions -/

/-- A command that takes a frame completes when its treatment keeps to the listed blocks and brings about `post`. -/
theorem takes_of {s : State} {p : PortId} {row : Instr} {e : RxEntry} {rest : List RxEntry} {changed xs : List Block}
    {post : State → Prop} (treat : Frame → State → State) (h : Heads s p row e rest)
    (hx : exec row s = .next (takeFrame p row treat s))
    (hc : OnlyChanges xs (takeHead p e rest row s) (treat e.frame (takeHead p e rest row s)))
    (hs : ∀ b, b ∈ xs → b ∈ closing ++ changed := by decide)
    (hp : post (endEvent (treat e.frame (takeHead p e rest row s)))) :
    Takes s p row e rest changed post := by
  refine ⟨_, by rw [hx, takeFrame_of_heads treat h], ?_, hp⟩
  refine OnlyChanges.trans (OnlyChanges.mono hc hs) ?_
  exact OnlyChanges.mono (endEvent_changes _) (by intro b hb; exact List.mem_append_left _ hb)

/-- The same for a command that takes no frame. -/
theorem runs_of {s : State} {c : Instr} {changed xs : List Block} {post : State → Prop} (t : State)
    (hx : exec c s = .next (endEvent t)) (hc : OnlyChanges xs s t)
    (hs : ∀ b, b ∈ xs → b ∈ closing ++ changed := by decide) (hp : post (endEvent t)) : Runs s c changed post := by
  refine ⟨_, hx, ?_, hp⟩
  refine OnlyChanges.trans (OnlyChanges.mono hc hs) ?_
  exact OnlyChanges.mono (endEvent_changes _) (by intro b hb; exact List.mem_append_left _ hb)

/-! ## Answers on the wire -/

/-- A frame offered to port U after a frame was taken there is queued, if it finds room. -/
theorem offer_taken (e : RxEntry) (rest : List RxEntry) (row : Instr) (f : Frame) (s : State)
    (h : (s.line.port .U).room = true) : OnWire .U f (offer .U f (takeHead .U e rest row s)) :=
  offer_onWire .U f _ (by rw [takeHead_U_room]; exact h)

/-- An answer that refuses a request is queued, if it finds room. -/
theorem offered_answerRefused (e : RxEntry) (rest : List RxEntry) (row : Instr) (r : Reason) (s : State) :
    Offered .U (answerFrame s e.frame [payloadCode e.frame, 1, r.code]) s
      (endEvent (answerRefused e.frame r (takeHead .U e rest row s))) := by
  intro h
  have := offer_taken e rest row (answerFrame s e.frame [payloadCode e.frame, 1, r.code]) s h
  simpa [answerRefused, answerFrame] using this.endEvent

/-- An answer DONE is queued, if it finds room, and stays whatever the request then brings about. -/
theorem offered_answerDone (e : RxEntry) (rest : List RxEntry) (row : Instr) (bs : List Byte) (s t : State)
    (k : ∀ f, OnWire .U f (answerDone e.frame bs (takeHead .U e rest row s)) → OnWire .U f t) :
    Offered .U (answerFrame s e.frame (payloadCode e.frame :: 0 :: 0 :: bs)) s (endEvent t) := by
  intro h
  refine (k _ ?_).endEvent
  have := offer_taken e rest row (answerFrame s e.frame (payloadCode e.frame :: 0 :: 0 :: bs)) s h
  simpa [answerDone, answerFrame] using this

/-- A refusal of a port U frame is queued, if it finds room. -/
theorem offered_refuse (e : RxEntry) (rest : List RxEntry) (row : Instr) (r : Reason) (s : State) :
    Offered .U (refusalFrame s e.frame r) s (endEvent (refuse .U e.frame r (takeHead .U e rest row s))) := by
  intro h
  have := offer_taken e rest row (refusalFrame s e.frame r) s h
  simpa [refuse, refusalFrame] using this.endEvent

end Sys2Proof.Machine
end

