-- ==== Sys2Proof/Laws/Stepping.lean ====
section
/-! SUPPORT. What a step can do, said once: a property that each command's treatment, the taking of a frame and the end
of an event keep is kept by every command and every step. -/

set_option Elab.async false

namespace Sys2Proof.Machine

/-- The treatments that a frame-taking command can give its frame. -/
inductive Treatment : PortId → Instr → (Frame → State → State) → Prop
  | belt : Treatment .D .beltSample treatBelt
  | position : Treatment .D .positionSample treatPosition
  | sense : Treatment .D .holdsenseSample treatSense
  | dust : Treatment .D .dustSample treatDust
  | feeder : Treatment .D .feederSample treatFeeder
  | reply : Treatment .D .reply treatReply
  | run : Treatment .U .run treatRun
  | rate : Treatment .U .rate treatRate
  | stop : Treatment .U .stop treatStop
  | move : Treatment .U .move treatMove
  | halt : Treatment .U .halt treatHalt
  | forwarded (p : PortId) : Treatment p (.forwardFrame p) (forward p)
  | dropped (p : PortId) : Treatment p (.requestDropped p) (fun _ s => s)
  | badRequest : Treatment .U .badRequest (fun f => refuse .U f .badRequest)
  | load : Treatment .U .load treatLoad
  | read : Treatment .U .read treatRead
  | status : Treatment .U .status treatStatus
  | setOptions : Treatment .U .setOptions treatSetOptions
  | openShip : Treatment .U .openShip treatOpenShip
  | closeShip : Treatment .U .closeShip treatCloseShip
  | startPlan : Treatment .U .startPlan treatStartPlan
  | haltPlan : Treatment .U .haltPlan treatHaltPlan
  | resumePlan : Treatment .U .resumePlan treatResumePlan
  | skipSlot : Treatment .U .skipSlot treatSkipSlot
  | zeroBelt : Treatment .U .zeroBelt treatZeroBelt
  | zeroAbort : Treatment .U .zeroAbort treatZeroAbort
  | sweep : Treatment .U .sweep treatSweep
  | ackAlarm : Treatment .U .ackAlarm treatAckAlarm
  | doneAlarm : Treatment .U .doneAlarm treatDoneAlarm
  | setAlarm : Treatment .U .setAlarm treatSetAlarm
  | readRecords : Treatment .U .readRecords treatReadRecords
  | takeRecords : Treatment .U .takeRecords treatTakeRecords
  | restart : Treatment .U .restart treatRestart
  | badDestination : Treatment .U .badDestination (fun f => refuse .U f .badDestination)
  | badFrame : Treatment .U .badFrame (fun f => refuse .U f .badFrame)

/-- The events of the commands that take no frame, but for the line's, the two inputs' and the expiries' guards: from
the state in which the event happens to the one its end closes. -/
inductive Event : State → State → Prop
  | receiveError (p : PortId) (x : Port) (s : State) (hr : s.pins.reset = false)
      (h : x = { s.line.port p with rx := x.rx }) : Event s (tallyUp p (setLinePort p x s))
  | silence (t : Nat) (s : State) (h : s.meter.silence = some t) (hd : t ≤ s.now) :
      Event s (setMeterFault { s with meter := { s.meter with silence := none } })
  | zeroTimeout (z : ZeroOp) (s : State) (h : s.meter.zero = some z) (hd : z.expiry ≤ s.now) :
      Event s (endZero .timeout s.meter.offset s)
  | sensorSilence (i : SensorNo) (t : Nat) (s : State) (h : (s.dust.sensors[i]).timer = some t) (hd : t ≤ s.now) :
      Event s (reformBands (silenceSensor i (stopSensorTimer i s)))
  | replyWindow (d : InjDest) (e : InjEntry) (s : State) (h : s.gate.entry d = some e) (hd : e.deadline ≤ s.now) :
      Event s (expiredOrder d e.order (abandonOrder d s))
  | stepTimeout (w : Sweep) (s : State) (h : s.place.sweep = some w) (hd : w.timer ≤ s.now) : Event s (faultSweep s)
  | stopAsserted (s : State) (h : s.pins.stop = false) (hr : s.pins.reset = false) : Event s (stopAsserted s)
  | stopCleared (s : State) (h : s.pins.stop = true) (hr : s.pins.reset = false) :
      Event s (setCond srcStopInput false (setStopPin false s))
  | released (s : State) (h : s.pins.reset = true) : Event s (endReset (setResetPin false (coldReset s)))
  | poweredOn (s : State) (h : s.pins.reset = false) : Event s (endReset (coldReset s))

/-- The changes that close no event: the line's quiet ones, the ticks, the levels taken while RESET is asserted. -/
inductive Quiet : State → State → Prop
  | receiver (p : PortId) (rx : Receiver) (s : State) : Quiet s (setLinePort p { s.line.port p with rx := rx } s)
  | received (p : PortId) (rx : Receiver) (f : Frame) (s : State) (hr : s.pins.reset = false) :
      Quiet s (setLinePort p (Port.enqueue { s.line.port p with rx := rx } f) s)
  | sent (p : PortId) (s : State) : Quiet s (endSending p s)
  | tick (s : State) : Quiet s (tick s)
  | taken (cs : List Instr) (s : State) : Quiet s { s with pending := cs }
  | heldReset (s : State) (h : s.pins.reset = false) : Quiet s (setResetPin true (coldReset s))
  | heldPower (s : State) (h : s.pins.reset = true) : Quiet s (coldReset s)
  | heldStop (b : Bool) (s : State) (h : s.pins.reset = true) : Quiet s (setStopPin b s)

theorem receiveByte_keeps {P : State → Prop} (hq : ∀ s t, Quiet s t → P s → P t)
    (he : ∀ s t, Event s t → P s → P (endEvent t)) (p : PortId) (s : State) (b : Byte) (h : P s) :
    P (receiveByte p s b) := by
  unfold receiveByte
  split
  · exact h
  · rename_i hr
    simp only
    split
    · exact hq _ _ (.receiver p _ s) h
    · exact hq _ _ (.received p _ _ s (by simpa using hr)) h
    · exact he _ _ (.receiveError p _ s (by simpa using hr) rfl) h

/-- A property kept by each treatment after its frame was taken, by each event and by the quiet changes is kept by
every command. -/
theorem exec_keeps {P : State → Prop}
    (ht : ∀ p row treat, Treatment p row treat → ∀ s e rest, Heads s p row e rest → P s →
      P (endEvent (treat e.frame (takeHead p e rest row s))))
    (he : ∀ s t, Event s t → P s → P (endEvent t)) (hq : ∀ s t, Quiet s t → P s → P t)
    (c : Instr) (s t : State) (hx : exec c s = .next t) (h : P s) : P t := by
  have take : ∀ p row treat, Treatment p row treat → P (takeFrame p row treat s) := by
    intro p row treat k
    unfold takeFrame
    split
    · exact h
    · split
      · exact ht p row treat k s _ _ ⟨‹_›, ‹_›⟩ h
      · exact h
  cases c <;> simp only [exec] at hx
  case receiveFrame p bytes =>
    simp only [execReceiveFrame, Host.Outcome.next.injEq] at hx
    subst hx
    induction bytes generalizing s with
    | nil => exact h
    | cons b bs ih =>
      rw [List.foldl_cons]
      exact ih _ (receiveByte_keeps hq he p s b h) fun q row treat k => by
        unfold takeFrame
        split
        · exact receiveByte_keeps hq he p s b h
        · split
          · exact ht q row treat k _ _ _ ⟨‹_›, ‹_›⟩ (receiveByte_keeps hq he p s b h)
          · exact receiveByte_keeps hq he p s b h
  case transmitEnd p => cases hx; exact hq _ _ (.sent p s) h
  case beltSample => cases hx; exact take _ _ _ .belt
  case positionSample => cases hx; exact take _ _ _ .position
  case holdsenseSample => cases hx; exact take _ _ _ .sense
  case dustSample => cases hx; exact take _ _ _ .dust
  case feederSample => cases hx; exact take _ _ _ .feeder
  case reply => cases hx; exact take _ _ _ .reply
  case run => cases hx; exact take _ _ _ .run
  case rate => cases hx; exact take _ _ _ .rate
  case stop => cases hx; exact take _ _ _ .stop
  case move => cases hx; exact take _ _ _ .move
  case halt => cases hx; exact take _ _ _ .halt
  case forwardFrame p => cases hx; exact take _ _ _ (.forwarded p)
  case requestDropped p => cases hx; exact take _ _ _ (.dropped p)
  case badRequest => cases hx; exact take _ _ _ .badRequest
  case load => cases hx; exact take _ _ _ .load
  case read => cases hx; exact take _ _ _ .read
  case status => cases hx; exact take _ _ _ .status
  case setOptions => cases hx; exact take _ _ _ .setOptions
  case openShip => cases hx; exact take _ _ _ .openShip
  case closeShip => cases hx; exact take _ _ _ .closeShip
  case startPlan => cases hx; exact take _ _ _ .startPlan
  case haltPlan => cases hx; exact take _ _ _ .haltPlan
  case resumePlan => cases hx; exact take _ _ _ .resumePlan
  case skipSlot => cases hx; exact take _ _ _ .skipSlot
  case zeroBelt => cases hx; exact take _ _ _ .zeroBelt
  case zeroAbort => cases hx; exact take _ _ _ .zeroAbort
  case sweep => cases hx; exact take _ _ _ .sweep
  case ackAlarm => cases hx; exact take _ _ _ .ackAlarm
  case doneAlarm => cases hx; exact take _ _ _ .doneAlarm
  case setAlarm => cases hx; exact take _ _ _ .setAlarm
  case readRecords => cases hx; exact take _ _ _ .readRecords
  case takeRecords => cases hx; exact take _ _ _ .takeRecords
  case restart => cases hx; exact take _ _ _ .restart
  case badDestination => cases hx; exact take _ _ _ .badDestination
  case badFrame => cases hx; exact take _ _ _ .badFrame
  case scaleSilenceExpiry =>
    simp only [execScaleSilenceExpiry, Host.Outcome.next.injEq] at hx
    subst hx
    split
    · split
      · exact he _ _ (.silence _ s ‹_› ‹_›) h
      · exact h
    · exact h
  case zeroTimeout =>
    simp only [execZeroTimeout, Host.Outcome.next.injEq] at hx
    subst hx
    split
    · split
      · exact he _ _ (.zeroTimeout _ s ‹_› ‹_›) h
      · exact h
    · exact h
  case sensorSilenceExpiry i =>
    simp only [execSensorSilenceExpiry, Host.Outcome.next.injEq] at hx
    subst hx
    split
    · split
      · exact he _ _ (.sensorSilence i _ s ‹_› ‹_›) h
      · exact h
    · exact h
  case replyWindowExpiry d =>
    simp only [execReplyWindowExpiry, Host.Outcome.next.injEq] at hx
    subst hx
    split
    · split
      · exact he _ _ (.replyWindow d _ s ‹_› ‹_›) h
      · exact h
    · exact h
  case stepTimeout =>
    simp only [execStepTimeout, Host.Outcome.next.injEq] at hx
    subst hx
    split
    · split
      · exact he _ _ (.stepTimeout _ s ‹_› ‹_›) h
      · exact h
    · exact h
  case stopInputAsserted =>
    simp only [execStopInputAsserted, Host.Outcome.next.injEq] at hx
    subst hx
    split
    · exact h
    · split
      · exact hq _ _ (.heldStop true s ‹_›) h
      · exact he _ _ (.stopAsserted s (by simpa using ‹¬ s.pins.stop = true›) (by simpa using ‹¬ s.pins.reset = true›)) h
  case stopInputCleared =>
    simp only [execStopInputCleared, Host.Outcome.next.injEq] at hx
    subst hx
    split
    · exact h
    · split
      · exact hq _ _ (.heldStop false s ‹_›) h
      · exact he _ _ (.stopCleared s (by simpa using ‹¬ (!s.pins.stop) = true›) (by simpa using ‹¬ s.pins.reset = true›)) h
  case resetAsserted =>
    simp only [execResetAsserted, Host.Outcome.next.injEq] at hx
    subst hx
    split
    · exact h
    · exact hq _ _ (.heldReset s (by simpa using ‹¬ s.pins.reset = true›)) h
  case resetReleased =>
    simp only [execResetReleased, Host.Outcome.next.injEq] at hx
    subst hx
    split
    · exact he _ _ (.released s ‹_›) h
    · exact h
  case powerOn =>
    simp only [execPowerOn, Host.Outcome.next.injEq] at hx
    subst hx
    split
    · exact hq _ _ (.heldPower s ‹_›) h
    · exact he _ _ (.poweredOn s (by simpa using ‹¬ s.pins.reset = true›)) h

/-- The same for a step. -/
theorem step_keeps {P : State → Prop}
    (ht : ∀ p row treat, Treatment p row treat → ∀ s e rest, Heads s p row e rest → P s →
      P (endEvent (treat e.frame (takeHead p e rest row s))))
    (he : ∀ s t, Event s t → P s → P (endEvent t)) (hq : ∀ s t, Quiet s t → P s → P t)
    (s t : State) (hx : step s = .next t) (h : P s) : P t := by
  unfold step at hx
  split at hx
  · exact exec_keeps ht he hq _ _ t hx (hq _ _ (.taken _ s) h)
  · cases hx; exact hq _ _ (.tick s) h

/-- A property that rests on some blocks alone is kept by what changes none of them. -/
theorem keeps_of_blocks {P : State → Prop} (on : List Block) (hp : ∀ s t, (∀ b ∈ on, Same b s t) → P s → P t)
    {xs : List Block} {s t : State} (h : OnlyChanges xs s t) (hd : ∀ b ∈ on, b ∉ xs) : P s → P t :=
  hp s t fun b hb => h b (hd b hb)

end Sys2Proof.Machine
end

