-- ==== Sys2Proof/Laws/Wires.lean ====
section
/-! SUPPORT. A frame on a wire stays there, in its place, through every operation that a command brings about: only the
end of a sending and a cold reset take one off (R181, R195). -/

set_option Elab.async false

namespace Sys2Proof.Machine

/-- Whatever is on a wire stays on it, and what is being sent and queued stays in order. -/
def Keeps (s t : State) : Prop := SendsInOrder s t ∧ ∀ (p : PortId) (f : Frame), OnWire p f s → OnWire p f t

theorem SendsInOrder.refl (s : State) : SendsInOrder s s := fun _ _ h => ⟨h, List.prefix_refl _⟩

theorem SendsInOrder.trans {s t u : State} (h : SendsInOrder s t) (k : SendsInOrder t u) : SendsInOrder s u :=
  fun p f x => ⟨(k p f (h p f x).1).1, (h p f x).2.trans (k p f (h p f x).1).2⟩

/-- Sending sides that are the same. -/
theorem SendsInOrder.same {s t : State} (h : ∀ p, Same (.send p) s t) : SendsInOrder s t := by
  intro p f k
  have := h p
  simp only [Same] at this
  exact ⟨by rw [this.2]; exact k, by rw [this.1]⟩

/-- A transmitter that sends goes on sending, and begins nothing else. -/
theorem begin_sending {p q : PortId} {l : Line} {f : Frame} (h : (l.port p).sending = some f) :
    ((l.begin q).port p).sending = some f ∧ (l.port p).txQueue <+: ((l.begin q).port p).txQueue := by
  cases p <;> cases q <;> simp only [Line.begin, port_U, port_D] at * <;> split <;> simp_all

/-- A frame offered to a port joins the tail of what it sends. -/
theorem offer_sendsInOrder (p : PortId) (f : Frame) (s : State) : SendsInOrder s (offer p f s) := by
  intro q g k
  simp only [offer, Line.offer]
  split
  · have := begin_sending (q := p) (p := q) (f := g)
      (l := s.line.setPort p { s.line.port p with txQueue := (s.line.port p).txQueue ++ [f] })
    cases p <;> cases q <;> simp_all
    all_goals exact (List.prefix_append _ _).trans this.2
  · exact ⟨k, List.prefix_refl _⟩

theorem Keeps.refl (s : State) : Keeps s s := ⟨.refl s, fun _ _ h => h⟩

theorem Keeps.trans {s t u : State} (h : Keeps s t) (k : Keeps t u) : Keeps s u :=
  ⟨h.1.trans k.1, fun p f x => k.2 p f (h.2 p f x)⟩

/-- Sending sides that are the same keep everything. -/
theorem Keeps.same {s t : State} (h : ∀ p, Same (.send p) s t) : Keeps s t :=
  ⟨.same h, fun p _ k => OnWire.same k (h p)⟩

/-- An operation that leaves both sending sides alone. -/
theorem Keeps.frame {xs : List Block} {s t : State} (h : OnlyChanges xs s t)
    (hu : Block.send .U ∉ xs := by decide) (hd : Block.send .D ∉ xs := by decide) : Keeps s t :=
  .same fun p => by
    cases p
    · exact h.same _ hu
    · exact h.same _ hd

/-- An operation that leaves the line alone. -/
theorem Keeps.line {s t : State} (h : t.line = s.line := by rfl) : Keeps s t :=
  .same fun p => by simp [Same, h]

theorem offer_keeps (p : PortId) (f : Frame) (s : State) : Keeps s (offer p f s) :=
  ⟨offer_sendsInOrder p f s, fun _ _ h => h.offer⟩
theorem notice_keeps (bs : List Byte) (s : State) : Keeps s (notice bs s) := offer_keeps _ _ s
theorem refuse_keeps (p : PortId) (f : Frame) (r : Reason) (s : State) : Keeps s (refuse p f r s) := offer_keeps _ _ s
theorem endEvent_keeps (s : State) : Keeps s (endEvent s) := by
  unfold endEvent
  simp only
  split
  · exact .line
  · exact Keeps.trans .line (notice_keeps _ _)

theorem forward_keeps (p : PortId) (f : Frame) (s : State) : Keeps s (forward p f s) := by
  unfold forward
  split
  · exact offer_keeps _ _ s
  · split
    · exact refuse_keeps _ _ _ s
    · exact Keeps.refl s

theorem injectOrder_keeps (d : InjDest) (o : InjOrder) (p : List Byte) (s s' : State)
    (h : injectOrder d o p s = some s') : Keeps s s' := by
  unfold injectOrder at h
  split at h
  · simp only [Option.some.injEq] at h
    subst h
    refine ⟨fun q f k => ?_, fun q f k => OnWire.begin ?_⟩
    · have := fun l : Line => begin_sending (p := q) (q := .D) (l := l) (f := f)
      cases q <;> exact this _ k
    · cases q <;> exact k
  · exact absurd h (by simp)

theorem abandonOrder_keeps (d : InjDest) (s : State) : Keeps s (abandonOrder d s) :=
  .same fun p => by cases p <;> exact ⟨rfl, rfl⟩

theorem testHeldMove_keeps (s : State) : Keeps s (testHeldMove s) := by
  unfold testHeldMove
  split
  · exact Keeps.refl s
  · split
    · exact Keeps.trans Keeps.line (forward_keeps _ _ _)
    · exact Keeps.refl s

theorem dismissHeldMove_keeps (r : Reason) (s : State) : Keeps s (dismissHeldMove r s) := by
  unfold dismissHeldMove
  split
  · exact Keeps.refl s
  · exact Keeps.trans Keeps.line (refuse_keeps _ _ _ _)

theorem advanceCursor_keeps (s : State) : Keeps s (advanceCursor s) := .frame (advanceCursor_changes s)

theorem finishPlan_keeps (r : FinishReason) (m : Bool) (s : State) : Keeps s (finishPlan r m s) := by
  unfold finishPlan
  simp only
  refine Keeps.trans ?_ (notice_keeps _ _)
  split <;> exact Keeps.line

theorem openVisit_keeps (i : Fin 16) (sl : Slot) (s : State) : Keeps s (openVisit i sl s) :=
  Keeps.trans (t := setVisit _ s) Keeps.line (notice_keeps _ _)

theorem selectLoop_keeps (p : PlanHeader) (fuel run : Nat) (m : Bool) (s : State) :
    Keeps s (selectLoop p fuel run m s) := by
  induction fuel generalizing run m s with
  | zero => exact Keeps.refl s
  | succ n ih =>
    unfold selectLoop
    split
    · exact finishPlan_keeps _ _ s
    · split
      · exact finishPlan_keeps _ _ s
      · split
        · exact Keeps.refl s
        · split
          · exact openVisit_keeps _ _ s
          · simp only
            split
            · exact Keeps.trans Keeps.line (finishPlan_keeps _ _ _)
            · exact Keeps.trans Keeps.line (Keeps.trans (advanceCursor_keeps _) (ih _ _ _))

theorem selectVisit_keeps (s : State) : Keeps s (selectVisit s) := by
  unfold selectVisit
  split
  · exact Keeps.refl s
  · exact selectLoop_keeps _ _ _ _ s

theorem dropVisit_keeps (s : State) : Keeps s (dropVisit s) := .frame (dropVisit_changes s)

theorem afterVisit_keeps (s : State) : Keeps s (afterVisit s) := by
  unfold afterVisit
  split
  · exact (advanceCursor_keeps s).trans (selectVisit_keeps _)
  · exact advanceCursor_keeps s
  · exact Keeps.refl s

theorem issue_keeps (r : Bool) (x : RecordBody) (s : State) : Keeps s (issue r x s) := .frame (issue_changes r x s)

theorem completeVisit_keeps (s : State) : Keeps s (completeVisit s) := by
  unfold completeVisit
  split
  · exact Keeps.refl s
  · refine Keeps.trans ?_ (afterVisit_keeps _)
    refine Keeps.trans ?_ (testHeldMove_keeps _)
    rename_i v _
    refine Keeps.trans (t := setBases (visitLineAccounts s v) s) Keeps.line ?_
    exact Keeps.trans (issue_keeps _ _ _) Keeps.line

theorem completeIfEmpty_keeps (s : State) : Keeps s (completeIfEmpty s) := by
  unfold completeIfEmpty
  split
  · exact completeVisit_keeps s
  · exact Keeps.refl s

theorem enterDraining_keeps (b : Bool) (s : State) : Keeps s (enterDraining b s) :=
  Keeps.trans (t := mapVisit _ s) Keeps.line (completeIfEmpty_keeps _)

theorem closeOutNotIssued_keeps (s : State) : Keeps s (closeOutNotIssued s) :=
  Keeps.trans (abandonOrder_keeps .feeder s) (Keeps.trans Keeps.line (enterDraining_keeps _ _))

theorem closeOut_keeps (s : State) : Keeps s (closeOut s) := by
  unfold closeOut
  split
  · split
    · exact Keeps.line
    · exact closeOutNotIssued_keeps s
  · split
    · rename_i s' h
      exact (injectOrder_keeps _ _ _ _ _ h).trans Keeps.line
    · exact closeOutNotIssued_keeps s

theorem closeOutOutcome_keeps (b : Bool) (s : State) : Keeps s (closeOutOutcome b s) := by
  unfold closeOutOutcome
  split
  · exact enterDraining_keeps b s
  · exact Keeps.refl s

theorem takeTrigger_keeps (r : EndReason) (s : State) : Keeps s (takeTrigger r s) := by
  unfold takeTrigger
  split
  · exact Keeps.trans (t := mapVisit _ s) Keeps.line (closeOut_keeps _)
  · exact Keeps.trans (t := mapVisit _ s) Keeps.line (completeIfEmpty_keeps _)
  · exact Keeps.refl s

theorem checkProjections_keeps (s : State) : Keeps s (checkProjections s) := by
  unfold checkProjections
  split
  · exact Keeps.refl s
  · split
    · split
      · exact takeTrigger_keeps _ s
      · exact Keeps.refl s
    · exact Keeps.refl s

theorem enterPouring_keeps (s : State) : Keeps s (enterPouring s) := by
  unfold enterPouring
  split
  · exact Keeps.refl s
  · refine Keeps.trans ?_ (checkProjections_keeps _)
    unfold fillHold
    split <;> exact Keeps.line

theorem runForwarded_keeps (s : State) : Keeps s (runForwarded s) := by
  unfold runForwarded
  split
  · exact enterPouring_keeps s
  · exact enterPouring_keeps s
  · exact Keeps.refl s

theorem pauseVisit_keeps (r : PauseReason) (s : State) : Keeps s (pauseVisit r s) := .frame (pauseVisit_changes r s)

theorem recordRate_keeps (n : Nat) (s : State) : Keeps s (recordRate n s) := .frame (recordRate_changes n s)

theorem derateCheck_keeps (s : State) : Keeps s (derateCheck s) := by
  unfold derateCheck
  split
  · split
    · rename_i s' h
      exact (injectOrder_keeps _ _ _ _ _ h).trans Keeps.line
    · split
      · exact .same fun p => by cases p <;> exact ⟨rfl, rfl⟩
      · exact Keeps.line
  · exact Keeps.line

theorem recomputeLimit_keeps (s : State) : Keeps s (recomputeLimit s) := by
  unfold recomputeLimit
  simp only
  split
  · exact Keeps.trans Keeps.line (derateCheck_keeps _)
  · exact Keeps.line

theorem reformBands_keeps (s : State) : Keeps s (reformBands s) := by
  unfold reformBands
  simp only
  split
  · exact Keeps.line
  · have h := Keeps.trans (s := s)
      (t := { s with dust := { s.dust with overall := s.dust.formOverall, spray := s.dust.formSpray } }) Keeps.line
      (recomputeLimit_keeps _)
    split
    · exact h.trans (takeTrigger_keeps _ _)
    · exact h

theorem releaseTest_keeps (i : SensorNo) (s : State) : Keeps s (releaseTest i s) := .frame (releaseTest_changes i s)

theorem retestLatch_keeps (i : SensorNo) (s : State) : Keeps s (retestLatch i s) :=
  (releaseTest_keeps i s).trans (reformBands_keeps _)

theorem reportSource_keeps (i : SourceNo) (s : State) : Keeps s (reportSource i s) := by
  unfold reportSource
  split
  · exact retestLatch_keeps _ s
  · exact Keeps.refl s

theorem setFeeder_keeps (st : FeederState) (s : State) : Keeps s (setFeeder st s) := by
  unfold setFeeder
  split
  · exact Keeps.refl s
  · exact Keeps.trans Keeps.line (testHeldMove_keeps _)

theorem finishSweep_keeps (o : SweepOutcome) (w : Sweep) (s : State) : Keeps s (finishSweep o w s) :=
  Keeps.trans (t := setSweep none s) Keeps.line (notice_keeps _ _)

theorem cancelSweep_keeps (s : State) : Keeps s (cancelSweep s) := by
  unfold cancelSweep
  split
  · exact Keeps.refl s
  · exact (abandonOrder_keeps _ s).trans (finishSweep_keeps _ _ _)

theorem faultSweep_keeps (s : State) : Keeps s (faultSweep s) := by
  unfold faultSweep
  split
  · exact Keeps.refl s
  · exact (abandonOrder_keeps _ s).trans (Keeps.trans Keeps.line (finishSweep_keeps _ _ _))

theorem beginStep_keeps (w : Sweep) (s : State) : Keeps s (beginStep w s) := by
  unfold beginStep
  split
  · exact finishSweep_keeps _ _ s
  · simp only
    split
    · rename_i s' h
      exact Keeps.trans (t := { s with draws := s.draws + 1 }) Keeps.line
        ((injectOrder_keeps _ _ _ _ _ h).trans Keeps.line)
    · refine Keeps.trans (t := setSweep _ { s with draws := s.draws + 1 }) Keeps.line (faultSweep_keeps _)

theorem cancelSweepOn_keeps (a : DriveAxis) (s : State) : Keeps s (cancelSweepOn a s) := by
  unfold cancelSweepOn
  split
  · split
    · exact cancelSweep_keeps s
    · exact Keeps.refl s
  · exact Keeps.refl s

theorem dismissHeldOn_keeps (a : DriveAxis) (r : Reason) (s : State) : Keeps s (dismissHeldOn a r s) := by
  unfold dismissHeldOn
  split
  · split
    · exact dismissHeldMove_keeps r s
    · exact Keeps.refl s
  · exact Keeps.refl s

theorem endZero_keeps (o : ZeroOutcome) (n : Int) (s : State) : Keeps s (endZero o n s) := by
  unfold endZero
  split
  · exact Keeps.refl s
  · exact (issue_keeps _ _ s).trans (Keeps.trans Keeps.line (notice_keeps _ _))

theorem becomeReady_keeps (s : State) : Keeps s (becomeReady s) := .frame (becomeReady_changes s)

theorem enterLineFault_keeps (p : PortId) (s : State) : Keeps s (enterLineFault p s) := by
  have h : Keeps s (raise (srcLineFault p) (setCond (srcLineFault p) true
      (setLinePort p { s.line.port p with lineFault := true } s))) := by
    exact .same fun q => by cases p <;> cases q <;> exact ⟨rfl, rfl⟩
  unfold enterLineFault
  cases p
  · exact h
  · exact h.trans (takeTrigger_keeps _ _)

theorem lineFaultTest_keeps (p : PortId) (s : State) : Keeps s (lineFaultTest p s) := by
  unfold lineFaultTest
  split
  · exact enterLineFault_keeps p s
  · exact Keeps.refl s

theorem setOptions_keeps (m a b c d : Byte) (s : State) : Keeps s (setOptions m a b c d s) := by
  unfold setOptions
  simp only
  exact Keeps.trans Keeps.line ((lineFaultTest_keeps .U _).trans (lineFaultTest_keeps .D _))

/-! ## The feeder, placement and the meter -/

theorem feederRunning_keeps (s : State) : Keeps s (feederRunning s) := by
  unfold feederRunning
  split
  · exact enterPouring_keeps s
  · exact Keeps.refl s

theorem strayStop_keeps (s : State) : Keeps s (strayStop s) := by
  unfold strayStop
  split
  · rename_i s' h
    exact injectOrder_keeps _ _ _ _ _ h
  · exact Keeps.refl s

theorem reportRunning_keeps (s : State) : Keeps s (reportRunning s) := by
  unfold reportRunning
  refine Keeps.trans ?_ (derateCheck_keeps _)
  split
  · exact (feederRunning_keeps s).trans (strayStop_keeps _)
  · exact feederRunning_keeps s

theorem feederArrival_keeps (st : FeederState) (b : Bool) (s : State) : Keeps s (feederArrival st b s) := by
  unfold feederArrival
  have h := setFeeder_keeps st s
  cases st <;> simp only
  · split
    · exact h.trans (pauseVisit_keeps _ _)
    · exact h
  · split
    · exact h.trans (reportRunning_keeps _)
    · exact h
  · split
    · exact h.trans (pauseVisit_keeps _ _)
    · exact h
  · exact h

theorem raise_keeps (i : SourceNo) (s : State) : Keeps s (raise i s) := .line
theorem setCond_keeps (i : SourceNo) (b : Bool) (s : State) : Keeps s (setCond i b s) := .line

theorem feederOutcome_keeps (o : InjOrder) (b : Bool) (s : State) : Keeps s (feederOutcome o b s) := by
  unfold feederOutcome
  have h : Keeps s (if b then raise srcStopFault s else s) := by
    split
    · exact raise_keeps _ s
    · exact Keeps.refl s
  cases o <;> simp only
  · exact h.trans (closeOutOutcome_keeps _ _)
  · exact h.trans (derateCheck_keeps _)
  · exact h

theorem completeStep_keeps (w : Sweep) (s : State) : Keeps s (completeStep w s) := by
  unfold completeStep
  simp only
  split
  · exact finishSweep_keeps _ _ s
  · split
    · exact finishSweep_keeps _ _ s
    · exact beginStep_keeps _ s

theorem sweepTest_keeps (b : PlaceState) (x : Option (Axis × Nat × Motion)) (s : State) :
    Keeps s (sweepTest b x s) := by
  unfold sweepTest
  split
  · exact Keeps.refl s
  · split
    · exact cancelSweep_keeps s
    · split
      · split
        · exact completeStep_keeps _ s
        · exact Keeps.refl s
      · exact Keeps.refl s

theorem reportLost_keeps (h : Hold) (s : State) : Keeps s (reportLost h s) := by
  unfold reportLost
  split
  · exact Keeps.refl s
  · split
    · split
      · exact .line
      · exact takeTrigger_keeps _ s
    · exact Keeps.refl s

theorem evaluatePlacement_keeps (s : State) : Keeps s (evaluatePlacement s) := by
  unfold evaluatePlacement reportPlacement
  simp only
  split
  · exact .line
  · split
    · exact Keeps.trans (t := { s with place := _ }) .line (.frame (reportPlaced_changes _ _))
    · exact Keeps.trans (t := { s with place := _ }) .line (reportLost_keeps _ _)
    · exact .line

theorem setMeterFault_keeps (s : State) : Keeps s (setMeterFault s) := by
  unfold setMeterFault
  simp only
  have h := fun n => Keeps.trans (s := s)
    (t := raise srcMeterFault (setCond srcMeterFault true { s with meter := { s.meter with fault := true, clearing := 0 } }))
    .line (endZero_keeps .faulted n _)
  split
  · exact h _
  · exact (h _).trans (takeTrigger_keeps _ _)

theorem queueEmptied_keeps (s : State) : Keeps s (queueEmptied s) := by
  unfold queueEmptied
  refine Keeps.trans ?_ (testHeldMove_keeps _)
  split
  · exact completeVisit_keeps s
  · exact Keeps.refl s

theorem deliver_keeps (g : Segment) (rest : List Segment) (s : State) : Keeps s (deliver g rest s) := by
  unfold deliver
  simp only
  have h : Keeps s (creditDelivery g (coarseLeft g rest { s with flight := { s.flight with segments := rest } })) :=
    (Keeps.frame ((setFlight_changes { s.flight with segments := rest } s).mono.then (coarseLeft_changes g rest _)
      (by decide) : OnlyChanges [.flight, .sources, .conds] s _)).trans (.frame (creditDelivery_changes _ _))
  split
  · exact h.trans (queueEmptied_keeps _)
  · exact h

theorem deliverDue_keeps (gs : List Segment) (s : State) : Keeps s (deliverDue gs s) := by
  induction gs generalizing s with
  | nil => exact Keeps.refl s
  | cons g rest ih =>
    unfold deliverDue
    split
    · exact (deliver_keeps g rest s).trans (ih _)
    · exact Keeps.refl s

theorem deliverAndCheck_keeps (b : Bool) (s : State) : Keeps s (deliverAndCheck b s) := by
  unfold deliverAndCheck
  simp only
  split
  · exact (deliverDue_keeps _ s).trans (checkProjections_keeps _)
  · exact deliverDue_keeps _ s

theorem integrate_keeps (sc : ScaleTable) (l : Int) (t : Nat) (g : Bool) (s : State) :
    Keeps s (integrate sc l t g s) := by
  unfold integrate
  simp only
  refine Keeps.trans ?_ (deliverAndCheck_keeps _ _)
  have h : ∀ m n, Keeps s (advanceBelt t (weigh m (addDrift n s))) := fun m n =>
    ((Keeps.frame (addDrift_changes n s)).trans (.frame (weigh_changes m _))).trans (.frame (advanceBelt_changes t _))
  split
  · exact (h _ _).trans (.frame (takeIncrement_changes _ _ _ _ _))
  · exact h _ _

theorem collectZero_keeps (sc : ScaleTable) (l : Int) (t : Nat) (s : State) : Keeps s (collectZero sc l t s) := by
  unfold collectZero
  split
  · exact Keeps.refl s
  · split
    · exact endZero_keeps _ _ s
    · simp only
      split
      · unfold completeZero
        simp only
        split
        · exact Keeps.trans (t := { s with meter := _ }) .line
            ((Keeps.frame (evalDrift_changes _)).trans (endZero_keeps _ _ _))
        · exact Keeps.trans (t := { s with meter := _ }) .line (endZero_keeps _ _ _)
      · exact .line

theorem beltTravel_keeps (sc : ScaleTable) (l : Int) (t : Nat) (g ok : Bool) (s : State) :
    Keeps s (beltTravel sc l t g ok s) := by
  unfold beltTravel
  split
  · simp only
    split
    · exact .frame (reverseSample_changes s)
    · exact (Keeps.frame (reverseSample_changes s)).trans (setMeterFault_keeps _)
  · simp only
    split
    · exact (((setCond_keeps srcBeltReverse false s).trans (integrate_keeps _ _ _ _ _)).trans
        (.frame (countClearing_changes _))).trans (collectZero_keeps _ _ _ _)
    · exact (((setCond_keeps srcBeltReverse false s).trans (.frame (advanceBelt_changes _ _))).trans
        (deliverAndCheck_keeps _ _)).trans (setMeterFault_keeps _)

theorem takeBelt_keeps (q : Byte) (l : Int) (p : BitVec 16) (ok : Bool) (s : State) :
    Keeps s (takeBelt q l p ok s) := by
  unfold takeBelt
  split
  · exact Keeps.refl s
  · simp only
    refine Keeps.trans ?_ (.frame (restartSilence_changes _))
    have h : ∀ u, Keeps s u → Keeps s { u with meter := { u.meter with prev := some (p, q) } } := fun u hu => hu.trans .line
    apply h
    split
    · unfold firstSample
      simp only
      split
      · exact setCond_keeps _ _ s
      · exact (setCond_keeps _ _ s).trans (setMeterFault_keeps _)
    · exact beltTravel_keeps _ _ _ _ _ s

theorem takePosition_keeps (a : Axis) (n : Nat) (m : Motion) (s : State) : Keeps s (takePosition a n m s) :=
  ((Keeps.frame (putAxis_changes a { pos := some n, motion := some m } s)).trans (evaluatePlacement_keeps _)).trans
    (sweepTest_keeps _ _ _)

theorem takeSense_keeps (r : SenseResult) (s : State) : Keeps s (takeSense r s) :=
  ((Keeps.frame (setSense_changes (some r) s)).trans (evaluatePlacement_keeps _)).trans (sweepTest_keeps _ _ _)

theorem takeDust_keeps (i : SensorNo) (e : SensorEntry) (c : Nat) (ok : Bool) (s : State) :
    Keeps s (takeDust i e c ok s) := by
  unfold takeDust
  simp only
  refine Keeps.trans ?_ (reformBands_keeps _)
  refine .frame (xs := [.sensors, .sources, .conds]) ?_
  split
  · exact ((((restartSensor_changes _ s).mono.then (averageSensor_changes _ _ _ _)).then
      (tripSensor_changes _ _ _ _)).then (hearSensor_changes _ _)).then (dustAlarms_changes _ _ _ _ _)
  · exact (restartSensor_changes _ s).mono.then (silenceSensor_changes _ _)

/-! ## Every command's treatment of its frame -/

theorem observeFeeder_keeps (r : ReplyForm) (s : State) : Keeps s (observeFeeder r s) := by
  unfold observeFeeder
  split
  · exact feederArrival_keeps _ _ s
  · exact Keeps.refl s

theorem driveOutcome_keeps (a : DriveAxis) (b : Bool) (s : State) : Keeps s (driveOutcome a b s) := by
  have h : Keeps s (releaseEntry (.drive a) s) := .line
  unfold driveOutcome
  split
  · split
    · split
      · exact h.trans .line
      · exact faultSweep_keeps s
    · exact h
  · exact h

theorem treatReply_keeps (f : Frame) (s : State) : Keeps s (treatReply f s) := by
  unfold treatReply
  split
  · exact Keeps.refl s
  · split
    · unfold consumeReply
      split
      · unfold replyFeeder
        simp only
        split
        · split
          · exact ((observeFeeder_keeps _ s).trans (t := observeFeeder _ s) .line).trans (feederOutcome_keeps _ _ _)
          · exact observeFeeder_keeps _ s
        · exact observeFeeder_keeps _ s
      · unfold replyDrive
        split
        · exact (Keeps.frame (observeAxis_changes _ _ s)).trans (driveOutcome_keeps _ _ _)
        · exact Keeps.refl s
      · exact Keeps.refl s
    · exact Keeps.refl s
    · refine Keeps.trans ?_ (forward_keeps _ _ _)
      unfold observeReply
      split
      · exact observeFeeder_keeps _ s
      · split
        · exact .frame (observeAxis_changes _ _ s)
        · exact Keeps.refl s
    · exact forward_keeps _ _ s

theorem treatRun_keeps (f : Frame) (s : State) : Keeps s (treatRun f s) := by
  unfold treatRun
  split
  · exact (raise_keeps _ s).trans (refuse_keeps _ _ _ _)
  · exact refuse_keeps _ _ _ s
  · split
    · unfold runTaken
      split
      · exact (((Keeps.frame (reserveForVisit_changes s)).trans (offer_keeps _ _ _)).trans
          (recordRate_keeps _ _)).trans (runForwarded_keeps _)
      · exact refuse_keeps _ _ _ s
    · exact Keeps.refl s

theorem treatRate_keeps (f : Frame) (s : State) : Keeps s (treatRate f s) := by
  unfold treatRate
  split
  · exact refuse_keeps _ _ _ s
  · split
    · split
      · exact (offer_keeps _ _ s).trans (recordRate_keeps _ _)
      · exact refuse_keeps _ _ _ s
    · exact Keeps.refl s

theorem treatStop_keeps (f : Frame) (s : State) : Keeps s (treatStop f s) := by
  unfold treatStop
  split
  · exact (offer_keeps _ _ s).trans (pauseVisit_keeps _ _)
  · exact refuse_keeps _ _ _ s

theorem forwardOrder_keeps (f g : Frame) (k : State → State) (s : State) (hk : ∀ u, Keeps u (k u)) :
    Keeps s (forwardOrder f k g s) := by
  unfold forwardOrder
  split
  · exact (offer_keeps _ _ s).trans (hk _)
  · exact refuse_keeps _ _ _ s

theorem holdMove_keeps (h : HeldMove) (s : State) : Keeps s (holdMove h s) := by
  unfold holdMove
  simp only
  exact (dismissHeldMove_keeps _ s).trans
    (Keeps.trans (t := { dismissHeldMove .superseded s with place := _ }) .line (refuse_keeps _ _ _ _))

theorem moveDrive_keeps (a : DriveAxis) (f g : Frame) (n : Nat) (s : State) : Keeps s (moveDrive a f g n s) := by
  unfold moveDrive
  split
  · exact forwardOrder_keeps _ _ _ s fun u => cancelSweepOn_keeps _ u
  · split
    · exact forwardOrder_keeps _ _ _ s fun u => (cancelSweepOn_keeps _ u).trans (dismissHeldOn_keeps _ _ _)
    · split
      · exact (cancelSweepOn_keeps _ s).trans (holdMove_keeps _ _)
      · exact (cancelSweepOn_keeps _ s).trans (refuse_keeps _ _ _ _)

theorem treatMove_keeps (f : Frame) (s : State) : Keeps s (treatMove f s) := by
  unfold treatMove
  split
  · split
    · unfold moveAxis
      simp only
      split
      · exact forwardOrder_keeps _ _ _ s fun u => Keeps.refl u
      · exact moveDrive_keeps _ _ _ _ s
      · exact moveDrive_keeps _ _ _ _ s
    · exact refuse_keeps _ _ _ s
  · exact Keeps.refl s

theorem treatHalt_keeps (f : Frame) (s : State) : Keeps s (treatHalt f s) := by
  unfold treatHalt
  split
  · split
    · refine forwardOrder_keeps _ _ _ s fun u => ?_
      unfold haltAxis
      split
      · exact (cancelSweepOn_keeps _ u).trans (dismissHeldOn_keeps _ _ _)
      · exact (cancelSweepOn_keeps _ u).trans (dismissHeldOn_keeps _ _ _)
      · exact Keeps.refl u
    · exact refuse_keeps _ _ _ s
  · exact Keeps.refl s

theorem answerDone_keeps (f : Frame) (bs : List Byte) (s : State) : Keeps s (answerDone f bs s) := offer_keeps _ _ s
theorem answerRefused_keeps (f : Frame) (r : Reason) (s : State) : Keeps s (answerRefused f r s) := offer_keeps _ _ s

theorem answerJudged_keeps {α : Type} (f : Frame) (j : Except Reason α) (k : α → State → State) (s : State)
    (hk : ∀ x u, Keeps u (k x u)) : Keeps s (answerJudged f j k s) := by
  unfold answerJudged
  split
  · exact answerRefused_keeps _ _ s
  · exact (answerDone_keeps _ _ s).trans (hk _ _)

theorem answerRequest_keeps (f : Frame) (r : Option Reason) (k : State → State) (s : State)
    (hk : ∀ u, Keeps u (k u)) : Keeps s (answerRequest f r k s) := by
  unfold answerRequest
  split
  · unfold refuseRequest
    simp only
    split
    · exact (answerRefused_keeps _ _ s).trans .line
    · exact answerRefused_keeps _ _ s
  · exact (answerDone_keeps _ _ s).trans (hk _)

theorem applyStation_keeps (e : Nat) (a : Option Byte) (s : State) : Keeps s (applyStation e a s) := by
  unfold applyStation
  split
  · rename_i h
    simp only
    refine Keeps.trans ?_ (becomeReady_keeps _)
    have h1 : Keeps s (restartSilence { s with stations := upd s.stations ⟨e, h⟩ a }) :=
      Keeps.trans (t := { s with stations := _ }) .line (.frame (restartSilence_changes _))
    have h2 : ∀ u, Keeps s u → Keeps s { u with handler := { u.handler with stationsMark := true } } :=
      fun u hu => hu.trans .line
    apply h2
    split
    · refine h1.trans ?_
      unfold roleChanged
      split
      · exact .line
      · exact setFeeder_keeps _ _
      · exact .line
      · exact .line
      · exact .line
      · exact .line
      · split
        · exact .frame (restartSensor_changes _ _)
        · exact Keeps.refl _
    · exact h1
  · exact Keeps.refl s

theorem loadTable_keeps (f : Frame) (l : Load) (s : State) : Keeps s (loadTable f l s) := by
  unfold loadTable
  split
  · exact answerJudged_keeps _ _ _ s fun x u => applyStation_keeps _ x u
  · exact answerJudged_keeps _ _ _ s fun x u => .frame (applyScale_changes x u)
  · exact answerJudged_keeps _ _ _ s fun x u => .frame (applyTravel_changes x u)
  · exact answerJudged_keeps _ _ _ s fun x u => .frame (applyEnvelope_changes _ x u)
  · exact answerJudged_keeps _ _ _ s fun x u => .frame (applyHold_changes _ x u)
  · exact answerJudged_keeps _ _ _ s fun x u => .frame (applySlot_changes _ x u)
  · refine answerJudged_keeps _ _ _ s fun x u => ?_
    unfold applyPlan
    simp only
    have h : Keeps u { u with seq := { u.seq with header := some x } } := .line
    split
    · split
      · exact h
      · exact h.trans (recomputeLimit_keeps _)
    · exact h.trans (recomputeLimit_keeps _)
  · exact answerJudged_keeps _ _ _ s fun x u => .frame (applyGate_changes x u)
  · split
    · refine answerJudged_keeps _ _ _ s fun x u => ?_
      unfold applyDerate
      simp only
      split
      · exact .line
      · exact Keeps.trans (t := { u with dust := _ }) .line (recomputeLimit_keeps _)
    · refine answerJudged_keeps _ _ _ s fun x u => ?_
      unfold applySensor
      split
      · exact (Keeps.frame (loadSensor_changes _ _ _ u)).trans (retestLatch_keeps _ _)
      · exact Keeps.refl u
  · refine answerJudged_keeps _ _ _ s fun x u => ?_
    unfold applyAlarm
    split
    · simp only
      split
      · exact .line
      · exact Keeps.trans (t := { u with ladder := _ }) .line (reportSource_keeps _ _)
    · exact Keeps.refl u
  · exact answerJudged_keeps _ _ _ s fun x u => .frame (applyMarks_changes x u)
  · exact answerRefused_keeps _ _ s

theorem applyNothing_keeps (l : Load) (s : State) : Keeps s (applyNothing l s) := by
  unfold applyNothing
  split
  · exact retestLatch_keeps _ s
  · exact Keeps.refl s

theorem runLoad_keeps (f : Frame) (l : Load) (s : State) : Keeps s (runLoad f l s) := by
  unfold runLoad
  split
  · exact (answerDone_keeps _ _ s).trans (applyNothing_keeps l _)
  · exact loadTable_keeps f l s

theorem treatLoad_keeps (f : Frame) (s : State) : Keeps s (treatLoad f s) := by
  unfold treatLoad
  split
  · exact answerRefused_keeps _ _ s
  · split
    · exact runLoad_keeps _ _ s
    · exact answerRefused_keeps _ _ s

theorem treatHaltPlan_keeps (f : Frame) (s : State) : Keeps s (treatHaltPlan f s) := by
  refine answerRequest_keeps _ _ _ s fun u => ?_
  unfold haltPlan haltVisit
  have h : Keeps u (dismissHeldMove .cancelled (setPlan .suspended u)) :=
    Keeps.trans (t := setPlan .suspended u) .line (dismissHeldMove_keeps _ _)
  split
  · exact h.trans (dropVisit_keeps _)
  · exact h.trans (dropVisit_keeps _)
  · exact h.trans (takeTrigger_keeps _ _)

/-- A command's treatment of its frame keeps what is being sent and queued, but for a RESTART's. -/
theorem Treatment.keeps {p : PortId} {row : Instr} {treat : Frame → State → State} (h : Treatment p row treat)
    (hr : row ≠ .restart) (f : Frame) (s : State) : Keeps s (treat f s) := by
  cases h with
  | belt =>
    unfold treatBelt
    split
    · refine Keeps.trans ?_ (forward_keeps _ _ _)
      split
      · exact takeBelt_keeps _ _ _ _ s
      · exact Keeps.refl s
    · exact Keeps.refl s
  | position =>
    unfold treatPosition
    split
    · refine Keeps.trans ?_ (forward_keeps _ _ _)
      split
      · exact takePosition_keeps _ _ _ s
      · exact Keeps.refl s
    · exact Keeps.refl s
  | sense =>
    unfold treatSense
    split
    · refine Keeps.trans ?_ (forward_keeps _ _ _)
      split
      · exact takeSense_keeps _ s
      · exact Keeps.refl s
    · exact Keeps.refl s
  | dust =>
    unfold treatDust
    split
    · refine Keeps.trans ?_ (forward_keeps _ _ _)
      split
      · exact Keeps.refl s
      · split
        · split
          · exact takeDust_keeps _ _ _ _ s
          · exact Keeps.refl s
        · exact Keeps.refl s
    · exact Keeps.refl s
  | feeder =>
    unfold treatFeeder
    split
    · refine Keeps.trans ?_ (forward_keeps _ _ _)
      split
      · exact feederArrival_keeps _ _ s
      · exact Keeps.refl s
    · exact Keeps.refl s
  | reply => exact treatReply_keeps f s
  | run => exact treatRun_keeps f s
  | rate => exact treatRate_keeps f s
  | stop => exact treatStop_keeps f s
  | move => exact treatMove_keeps f s
  | halt => exact treatHalt_keeps f s
  | forwarded => exact forward_keeps _ f s
  | dropped => exact Keeps.refl s
  | badRequest => exact refuse_keeps _ _ _ s
  | load => exact treatLoad_keeps f s
  | read =>
    unfold treatRead
    split
    · split
      · split
        · exact answerDone_keeps _ _ s
        · exact answerRefused_keeps _ _ s
      · exact answerRefused_keeps _ _ s
    · exact Keeps.refl s
  | status =>
    unfold treatStatus
    split
    · split
      · exact answerDone_keeps _ _ s
      · exact answerRefused_keeps _ _ s
    · exact Keeps.refl s
  | setOptions =>
    unfold treatSetOptions
    split
    · split
      · exact answerRefused_keeps _ _ s
      · split
        · exact answerRefused_keeps _ _ s
        · exact (answerDone_keeps _ _ s).trans (setOptions_keeps _ _ _ _ _ _)
    · exact Keeps.refl s
  | openShip =>
    refine answerRequest_keeps _ _ _ s fun u => ?_
    unfold Machine.openShip
    exact Keeps.trans (t := { u with ship := _, seq := _, bills := _ }) .line (issue_keeps _ _ _)
  | closeShip =>
    refine answerRequest_keeps _ _ _ s fun u => ?_
    unfold Machine.closeShip clearPlan
    exact ((Keeps.frame (setBases_changes (closeLineAccounts u) u)).trans
      (issue_keeps false (closeRecord u) _)).trans .line
  | startPlan =>
    unfold treatStartPlan
    split
    · refine answerJudged_keeps _ _ _ s fun x u => ?_
      exact Keeps.trans (t := { u with seq := _ }) .line (selectVisit_keeps _)
    · exact Keeps.refl s
  | haltPlan => exact treatHaltPlan_keeps f s
  | resumePlan =>
    refine answerRequest_keeps _ _ _ s fun u => ?_
    exact Keeps.trans (t := setPlan .active u) .line (selectVisit_keeps _)
  | skipSlot =>
    refine answerRequest_keeps _ _ _ s fun u => ?_
    exact ((dropVisit_keeps u).trans (advanceCursor_keeps _)).trans (selectVisit_keeps _)
  | zeroBelt => exact answerRequest_keeps _ _ _ s fun u => .line
  | zeroAbort => exact answerRequest_keeps _ _ _ s fun u => endZero_keeps _ _ u
  | sweep =>
    unfold treatSweep
    split
    · split
      · exact answerJudged_keeps _ _ _ s fun x u => beginStep_keeps _ u
      · exact answerRefused_keeps _ _ s
    · exact Keeps.refl s
  | ackAlarm =>
    unfold treatAckAlarm
    split
    · refine answerJudged_keeps _ _ _ s fun x u => ?_
      exact Keeps.trans (t := { u with ladder := _ }) .line (reportSource_keeps _ _)
    · exact Keeps.refl s
  | doneAlarm =>
    unfold treatDoneAlarm
    split
    · refine answerJudged_keeps _ _ _ s fun x u => ?_
      exact Keeps.trans (t := { u with ladder := _ }) .line (reportSource_keeps _ _)
    · exact Keeps.refl s
  | setAlarm =>
    unfold treatSetAlarm
    split
    · split
      · exact runLoad_keeps _ _ s
      · exact answerRefused_keeps _ _ s
    · exact Keeps.refl s
  | readRecords =>
    unfold treatReadRecords
    simp only
    split
    · exact answerRefused_keeps _ _ s
    · split
      · exact answerRefused_keeps _ _ s
      · exact answerDone_keeps _ _ s
  | takeRecords =>
    unfold treatTakeRecords
    split
    · exact answerRefused_keeps _ _ s
    · exact (answerDone_keeps _ _ s).trans .line
  | restart => exact absurd rfl hr
  | badDestination => exact refuse_keeps _ _ _ s
  | badFrame => exact refuse_keeps _ _ _ s

/-! ## Taking a frame -/

theorem setRecv_keeps (p : PortId) (x : Port) (s : State) (h : x.txQueue = (s.line.port p).txQueue)
    (k : x.sending = (s.line.port p).sending) : Keeps s (setLinePort p x s) := by
  cases p
  · exact .frame (setLinePort_recv _ x s h k)
  · exact .frame (setLinePort_recv _ x s h k)

theorem leaveLineFault_keeps (p : PortId) (s : State) : Keeps s (leaveLineFault p s) := by
  have h : Keeps s (setCond (srcLineFault p) false (setLinePort p { s.line.port p with lineFault := false } s)) :=
    (setRecv_keeps p { s.line.port p with lineFault := false } s rfl rfl).trans (setCond_keeps _ _ _)
  unfold leaveLineFault
  cases p
  · exact h
  · exact h.trans (derateCheck_keeps _)

theorem tallyUp_keeps (p : PortId) (s : State) : Keeps s (tallyUp p s) :=
  (setRecv_keeps p { s.line.port p with tally := min ((s.line.port p).tally + 1) 255 } s rfl rfl).trans
    (lineFaultTest_keeps _ _)

theorem tallyDown_keeps (p : PortId) (s : State) : Keeps s (tallyDown p s) := by
  unfold tallyDown
  have h := setRecv_keeps p { s.line.port p with tally := (s.line.port p).tally - 1 } s rfl rfl
  simp only
  split
  · exact h.trans (leaveLineFault_keeps _ _)
  · exact h

/-- The taking of a frame keeps what is being sent and queued. -/
theorem takeHead_keeps (p : PortId) (e : RxEntry) (rest : List RxEntry) (row : Instr) (s : State) :
    Keeps s (takeHead p e rest row s) := by
  unfold takeHead takingStep
  have h := setRecv_keeps p { s.line.port p with rxQueue := rest } s rfl rfl
  split
  · exact h.trans (tallyUp_keeps _ _)
  · exact h.trans (tallyUp_keeps _ _)
  · exact h.trans (tallyDown_keeps _ _)

end Sys2Proof.Machine
end

