-- ==== Sys2Proof/Laws/Loads.lean ====
section
/-! SUPPORT. LOAD (R191): what its row says of the payload, how a judged load is answered, and the small lemmas of the
judging and of the rate limit. -/

set_option Elab.async false

namespace Sys2Proof.Machine

/-! ## Answers, with the frames that a request goes on to offer -/

/-- An answer DONE is queued, if it finds room, and stays whatever keeps the wires. -/
theorem offered_done {e : RxEntry} {rest : List RxEntry} {row : Instr} {bs xs : List Byte} {s t : State}
    (h : xs = payloadCode e.frame :: 0 :: 0 :: bs) (k : Keeps (answerDone e.frame bs (takeHead .U e rest row s)) t) :
    Offered .U (answerFrame s e.frame xs) s (endEvent t) := by
  subst h
  exact offered_answerDone e rest row bs s _ fun f h => k.2 _ _ h

/-- A refused answer is queued, if it finds room. -/
theorem offered_refused {e : RxEntry} {rest : List RxEntry} {row : Instr} {r : Reason} {xs : List Byte} {s : State}
    (h : xs = [payloadCode e.frame, 1, r.code]) :
    Offered .U (answerFrame s e.frame xs) s (endEvent (answerRefused e.frame r (takeHead .U e rest row s))) := by
  subst h
  exact offered_answerRefused e rest row r s

/-! ## The row of a LOAD (R177 to R179) -/

theorem requestForm_ne_load (n : Nat) (k : Nat × Instr) (h : requestForm n = some k) : k.2 ≠ .load := by
  unfold requestForm at h
  split at h <;> first | (cases h; simp) | simp at h

theorem requestRow_load (p : List Byte) (h : requestRow p = .load) :
    ∃ fs, p = 1 :: fs ∧ (loadHeaderFails fs = false → loadLengthHolds fs = true) := by
  unfold requestRow at h
  split at h
  · simp at h
  · rename_i c fs
    split at h
    · subst_vars
      refine ⟨fs, rfl, ?_⟩
      intro hf; rw [hf] at h; simp at h; exact h
    · split at h
      · simp at h
      · rename_i n row hr
        have := requestForm_ne_load _ _ hr
        split at h
        · exact absurd h this
        · simp at h

/-- The payload of a LOAD: its code, then a header that fails step 1 of R191 or fields of the length R179 requires. -/
theorem load_payload (s : State) (f : Frame) (h : inspect s .U f = .load) :
    ∃ fs, f.payload = 1 :: fs ∧ (loadHeaderFails fs = false → loadLengthHolds fs = true) := by
  unfold inspect at h
  split at h
  · simp at h
  · split at h
    · simp only [readyRowU] at h
      split at h
      · split at h
        · simp at h
        · split at h
          · exact requestRow_load _ h
          · simp at h
      · split at h
        · exfalso
          split at h
          · unfold globalOrderRow at h; split at h
            · split at h
              · split at h <;> simp at h
              · simp at h
            · simp at h
          · split at h
            · unfold feederOrderRow at h; split at h <;> simp at h
            · split at h
              · unfold axisOrderRow at h; split at h <;> simp at h
              · simp at h
        · simp at h
    · simp only [unconfiguredRow] at h
      split at h
      · split at h
        · simp at h
        · split at h
          · exact requestRow_load _ h
          · simp at h
      · split at h
        · simp at h
        · split at h
          · unfold unconfiguredOrderRow at h; split at h
            · split at h
              · simp at h
              · split at h <;> simp at h
            · simp at h
          · simp at h

theorem load_code {s : State} {e : RxEntry} {rest : List RxEntry} (h : Heads s .U .load e rest) :
    payloadCode e.frame = 1 := by
  obtain ⟨fs, h, _⟩ := load_payload s _ h.2
  simp [payloadCode, h]

/-! ## How a load is answered -/

theorem treatLoad_run (f : Frame) (s : State) (l : Load) (h : loadHeaderFails (f.payload.drop 1) = false)
    (hl : parseLoad f.payload = some l) : treatLoad f s = runLoad f l s := by
  unfold treatLoad
  rw [h]
  simp [hl]

/-- A refused load changes nothing and is answered with its reason. -/
theorem takes_loadRefused {s : State} {e : RxEntry} {rest : List RxEntry} {l : Load} (r : Reason)
    (h : Heads s .U .load e rest) (hf : loadHeaderFails (e.frame.payload.drop 1) = false)
    (hl : parseLoad e.frame.payload = some l)
    (hr : runLoad e.frame l (takeHead .U e rest .load s) = answerRefused e.frame r (takeHead .U e rest .load s)) :
    Takes s .U .load e rest [] fun t => Offered .U (answerFrame s e.frame [1, 1, r.code]) s t := by
  refine takes_of (xs := [.send .U]) treatLoad h rfl ?_ (by decide) ?_
  · rw [treatLoad_run _ _ l hf hl, hr]; exact answerRefused_changes _ _ _
  · rw [treatLoad_run _ _ l hf hl, hr]; exact offered_refused (by rw [load_code h])

/-- An accepted load is answered DONE and brings about its effect. -/
theorem takes_loadDone {s : State} {e : RxEntry} {rest : List RxEntry} {l : Load} {α : Type}
    (effect : α → State → State) (x : α) {xs changed : List Block} {post : State → Prop} (h : Heads s .U .load e rest)
    (hf : loadHeaderFails (e.frame.payload.drop 1) = false) (hl : parseLoad e.frame.payload = some l)
    (hr : runLoad e.frame l (takeHead .U e rest .load s)
      = effect x (answerDone e.frame [] (takeHead .U e rest .load s)))
    (hc : ∀ u, OnlyChanges xs u (effect x u)) (hk : ∀ u, Keeps u (effect x u))
    (hp : post (endEvent (effect x (answerDone e.frame [] (takeHead .U e rest .load s)))))
    (hx : ∀ b ∈ xs, b ∈ closing ++ changed := by decide) :
    Takes s .U .load e rest changed fun t => post t ∧ Offered .U (answerFrame s e.frame [1, 0, 0]) s t := by
  refine takes_of (xs := .send .U :: xs) treatLoad h rfl ?_ ?_ ⟨?_, ?_⟩
  · rw [treatLoad_run _ _ l hf hl, hr]
    exact ((answerDone_changes _ _ _).mono (by simp)).trans ((hc _).mono fun b hb => List.mem_cons_of_mem _ hb)
  · intro b hb
    simp at hb
    rcases hb with rfl | hb
    · simp [closing]
    · exact hx b hb
  · rw [treatLoad_run _ _ l hf hl, hr]; exact hp
  · rw [treatLoad_run _ _ l hf hl, hr]; exact offered_done (bs := []) (by rw [load_code h]) (hk _)

/-! ## Judging (R191) -/

theorem judgeLoad_out {α : Type} (s : State) (l : Load) (b : List (Option Nat) → Option α) (r : α → Option Reason)
    (y : α → Bool) (h : ¬ inRanges (fieldRanges l.table l.entry) l.fields = true) :
    judgeLoad s l b r y = .error .badValue := by
  simp [judgeLoad, h]

theorem judgeLoad_in {α : Type} (s : State) (l : Load) (b : List (Option Nat) → Option α) (r : α → Option Reason)
    (y : α → Bool) (x : α) (h : inRanges (fieldRanges l.table l.entry) l.fields = true) (hb : b (l.merged s) = some x) :
    judgeLoad s l b r y = (match r x with
      | some q => .error q
      | none => if y x then .error .busy else .ok x) := by
  unfold judgeLoad
  rw [if_pos h, hb] <;> rfl

theorem judgeLoad_unbuilt {α : Type} (s : State) (l : Load) (b : List (Option Nat) → Option α) (r : α → Option Reason)
    (y : α → Bool) (hb : b (l.merged s) = none) : judgeLoad s l b r y = .error .badValue := by
  unfold judgeLoad
  rw [hb]
  split <;> rfl

/-- Fields that stand in range once they are merged lie in range. -/
theorem inRanges_of_merged (rs : List (Nat → Bool)) (fs base : List (Option Nat))
    (h : inRanges rs (List.zipWith (fun (new old : Option Nat) => new <|> old) fs base) = true)
    (hl : rs.length ≤ (List.zipWith (fun (new old : Option Nat) => new <|> old) fs base).length) :
    inRanges rs fs = true := by
  induction rs generalizing fs base with
  | nil => rfl
  | cons r rs ih =>
    cases fs with
    | nil => rfl
    | cons f fs =>
      cases base with
      | nil => simp at hl
      | cons b base =>
        simp [inRanges] at h hl ⊢
        refine ⟨?_, ?_⟩
        · cases f with
          | none => rfl
          | some x => simpa using h.1
        · have := ih fs base (by simpa [inRanges] using h.2) (by simpa using hl)
          simpa [inRanges] using this

theorem inRanges_of_entry (s : State) (l : Load) (m : List (Option Nat)) (hm : l.merged s = m)
    (h : inRanges (fieldRanges l.table l.entry) m = true) (hl : (fieldRanges l.table l.entry).length ≤ m.length) :
    inRanges (fieldRanges l.table l.entry) l.fields = true := by
  subst hm
  exact inRanges_of_merged _ _ _ h hl

/-- Taking the frame leaves the entry that a load is merged into. -/
theorem merged_taken (s : State) (e : RxEntry) (rest : List RxEntry) (row : Instr) (l : Load) (ht : l.table ≠ .alarm) :
    l.merged (takeHead .U e rest row s) = l.merged s := by
  unfold Load.merged
  have : entryFields (takeHead .U e rest row s) l.table l.entry = entryFields s l.table l.entry := by
    unfold entryFields
    cases hh : l.table <;> simp_all
  rw [this]

/-! ## Effects -/

/-- The rate limit recomputed, and what the derate check after it leaves (R95, R102). -/
theorem recomputeLimit_fields (u : State) : (recomputeLimit u).gate.rateLimit = rateLimitOf u
    ∧ (recomputeLimit u).seq.header = u.seq.header ∧ (recomputeLimit u).seq.holds = u.seq.holds
    ∧ (recomputeLimit u).seq.slots = u.seq.slots ∧ (recomputeLimit u).dust = u.dust := by
  unfold recomputeLimit
  simp only
  split
  · have h := derateCheck_changes { u with gate := { u.gate with rateLimit := rateLimitOf u } }
    have a := h.same .planTables
    have b := h.same .sensors
    have c := h.same .band
    have d := h.same .derates
    have e := h.same .limit
    simp only [Same] at a b c d e
    refine ⟨e, a.2.2, a.1, a.2.1, ?_⟩
    cases hh : (derateCheck { u with gate := { u.gate with rateLimit := rateLimitOf u } }).dust
    simp_all
  · simp

theorem setSensor_get (i j : SensorNo) (x : Sensor) (u : State) :
    (setSensor i x u).dust.sensors[j] = if i = j then x else u.dust.sensors[j] := by
  simp [setSensor, Fin.ext_iff]

end Sys2Proof.Machine
end

