-- ==== Sys2Proof/Laws/Handing.lean ====
section
/-! SUPPORT. What one block hands to another within an event, each shared operation said once: the completion of a visit
(R87), a trigger (R84, R85), the end of a ZERO and METER FAULT (R15, R23), the derate check (R102), the rate limit (R95),
the bands (R121), LINE FAULT (R175) and the release test (R117). -/

set_option Elab.async false

namespace Sys2Proof.Machine

/-! ## Sources that an operation leaves -/

@[simp] theorem put_entry (l : Ladder) (i : SourceNo) (k : Nat) (h : k < 40) (x : Source) :
    (l.put i x).sources[k] = if i.val = k then x else l.sources[k] := by
  simp [Ladder.put]

theorem put_source (l : Ladder) (i j : SourceNo) (x : Source) :
    (l.put i x).sources[j] = if i = j then x else l.sources[j] := by
  simp [Ladder.put, Fin.ext_iff]

/-- A change that names no block of the source table leaves every source. -/
theorem OnlyChanges.sources {xs : List Block} {s t : State} (h : OnlyChanges xs s t) (i : SourceNo)
    (h1 : Block.alarmTable ∉ xs := by decide) (h2 : Block.sources ∉ xs := by decide)
    (h3 : Block.conds ∉ xs := by decide) : t.ladder.sources[i] = s.ladder.sources[i] := by
  have a := h.same .alarmTable h1 i
  have b := h.same .sources h2 i
  have c := h.same .conds h3 i
  cases hs : s.ladder.sources[i]
  cases ht : t.ladder.sources[i]
  simp_all

/-- Every source outside a list is the same. -/
def LeavesSources (xs : List SourceNo) (s t : State) : Prop := ∀ i, i ∉ xs → t.ladder.sources[i] = s.ladder.sources[i]

theorem LeavesSources.refl (xs : List SourceNo) (s : State) : LeavesSources xs s s := fun _ _ => rfl

theorem LeavesSources.trans {xs : List SourceNo} {s t u : State} (h : LeavesSources xs s t) (k : LeavesSources xs t u) :
    LeavesSources xs s u := fun i hi => (k i hi).trans (h i hi)

theorem LeavesSources.mono {xs ys : List SourceNo} {s t : State} (h : LeavesSources xs s t)
    (hs : ∀ i ∈ xs, i ∈ ys := by decide) : LeavesSources ys s t := fun i hi => h i fun hx => hi (hs i hx)

theorem LeavesSources.ladder {xs : List SourceNo} {s t : State} (h : t.ladder = s.ladder := by rfl) :
    LeavesSources xs s t := fun _ _ => by rw [h]

theorem LeavesSources.frame {xs : List SourceNo} {bs : List Block} {s t : State} (h : OnlyChanges bs s t)
    (h1 : Block.alarmTable ∉ bs := by decide) (h2 : Block.sources ∉ bs := by decide)
    (h3 : Block.conds ∉ bs := by decide) : LeavesSources xs s t := fun i _ => h.sources i h1 h2 h3

theorem raise_source (i : SourceNo) (s : State) : LeavesSources [i] s (raise i s) := by
  intro j hj
  simp only [raise_fields, put_source, if_neg (fun h : i = j => hj (by simp [h]))]

theorem setCond_source (i : SourceNo) (b : Bool) (s : State) : LeavesSources [i] s (setCond i b s) := by
  intro j hj
  simp only [setCond_fields, put_source, if_neg (fun h : i = j => hj (by simp [h]))]

theorem notice_source (bs : List Byte) (s : State) : LeavesSources [] s (notice bs s) := .ladder (by simp)

theorem finishPlan_source (r : FinishReason) (m : Bool) (s : State) :
    LeavesSources [srcTrimBound] s (finishPlan r m s) := by
  unfold finishPlan
  simp only
  refine LeavesSources.trans ?_ (notice_source _ _).mono
  split
  · exact .trans .ladder (raise_source _ _)
  · exact .ladder

theorem advanceCursor_source (s : State) : LeavesSources [srcTrimBound] s (advanceCursor s) := by
  unfold advanceCursor
  split
  · exact .refl _ s
  · split <;> exact .ladder

theorem selectLoop_source (p : PlanHeader) (fuel run : Nat) (m : Bool) (s : State) :
    LeavesSources [srcTrimBound] s (selectLoop p fuel run m s) := by
  induction fuel generalizing run m s with
  | zero => exact .refl _ s
  | succ n ih =>
    unfold selectLoop
    split
    · exact finishPlan_source _ _ s
    · split
      · exact finishPlan_source _ _ s
      · split
        · exact .refl _ s
        · split
          · exact .trans .ladder (notice_source _ _).mono
          · simp only
            split
            · exact .trans .ladder (finishPlan_source _ _ _)
            · exact .trans .ladder (.trans (advanceCursor_source _) (ih _ _ _))

theorem afterVisit_source (s : State) : LeavesSources [srcTrimBound] s (afterVisit s) := by
  unfold afterVisit
  split
  · refine .trans (advanceCursor_source s) ?_
    unfold selectVisit
    split
    · exact .refl _ _
    · exact selectLoop_source _ _ _ _ _
  · exact advanceCursor_source s
  · exact .refl _ s

theorem issue_source (r : Bool) (x : RecordBody) (s : State) : LeavesSources [srcBillMark] s (issue r x s) := by
  unfold issue markTest
  simp only
  split
  · exact .trans .ladder (raise_source _ _)
  · exact .ladder

/-- A completion raises BILL_MARK and TRIM_BOUND at most. -/
theorem completeVisit_source (s : State) : LeavesSources [srcTrimBound, srcBillMark] s (completeVisit s) := by
  unfold completeVisit
  split
  · exact .refl _ s
  · rename_i v _
    refine .trans ?_ (afterVisit_source _).mono
    refine .trans ?_ (.frame (testHeldMove_changes _))
    refine .trans (t := issue v.reserved (visitRecord s v) (setBases (visitLineAccounts s v) s)) ?_ .ladder
    exact .trans .ladder (issue_source _ _ _).mono

/-! ## An issue -/

/-- The first mark that stands at a count. -/
theorem markAt_first (b : BillStore) (n : Nat) (k : Fin 4) (h : b.marks[k] = n) (hl : ∀ j < k, b.marks[j] ≠ n) :
    b.markAt n = some (k.val + 1) := by
  unfold BillStore.markAt
  have e : List.finRange 4 = [0, 1, 2, 3] := by decide
  rw [e]
  have h0 := hl 0
  have h1 := hl 1
  have h2 := hl 2
  fin_cases k <;> simp_all

/-- The mark test (R152). -/
theorem markTest_spec (s : State) :
    (∀ k : Fin 4, s.bills.marks[k] = s.bills.records.length → (∀ j < k, s.bills.marks[j] ≠ s.bills.records.length) →
        (markTest s).bills.lastMark = some (k.val + 1)
          ∧ (markTest s).ladder.sources[srcBillMark] = (s.ladder.sources[srcBillMark]).raised)
      ∧ ((∀ k : Fin 4, s.bills.marks[k] ≠ s.bills.records.length) → markTest s = s) := by
  refine ⟨fun k h hl => ?_, fun h => ?_⟩
  · simp [markTest, markAt_first _ _ k h hl]
  · have : s.bills.markAt s.bills.records.length = none := by simpa [BillStore.markAt] using h
    simp [markTest, this]

/-- What an issue does (R144, R152). -/
theorem issue_spec (r : Bool) (x : RecordBody) (s : State) :
    (issue r x s).bills.records = s.bills.records ++ [⟨s.bills.nextSeq, x⟩]
      ∧ (issue r x s).bills.nextSeq = s.bills.nextSeq + 1
      ∧ (issue r x s).bills.reserved = (if r then s.bills.reserved - 1 else s.bills.reserved)
      ∧ MarkTested s (issue r x s) := by
  have hm : ∀ u : State, (markTest u).bills.records = u.bills.records ∧ (markTest u).bills.nextSeq = u.bills.nextSeq
      ∧ (markTest u).bills.reserved = u.bills.reserved := by
    intro u; unfold markTest; split <;> simp
  refine ⟨(hm _).1, (hm _).2.1, (hm _).2.2, fun k h hl => ?_, fun h => ?_⟩
  · refine (markTest_spec _).1 k ?_ ?_
    · simpa using h
    · simpa using hl
  · unfold issue
    rw [(markTest_spec _).2 (by simpa using h)]
    exact ⟨rfl, rfl⟩

/-! ## Completion (R87) -/

/-- The completion of a visit up to the test of the held move and the next selection. -/
def completed (v : Visit) (s : State) : State :=
  let u := issue v.reserved (visitRecord s v) (setBases (visitLineAccounts s v) s)
  setVisit none (evaluateFull { u with bills := { u.bills with unbilled := false } })

theorem completeVisit_eq (v : Visit) (s : State) (h : s.seq.visit = some v) :
    completeVisit s = afterVisit (testHeldMove (completed v s)) := by
  unfold completeVisit
  simp only [h]
  rfl

/-- An issue changes the Bill Store and the source table alone. -/
theorem issue_kept (r : Bool) (x : RecordBody) (s : State) :
    (issue r x s).seq = s.seq ∧ (issue r x s).ship = s.ship ∧ (issue r x s).gate = s.gate
      ∧ (issue r x s).now = s.now ∧ (issue r x s).handler = s.handler ∧ (issue r x s).stations = s.stations
      ∧ (issue r x s).flight = s.flight ∧ (issue r x s).meter = s.meter ∧ (issue r x s).line = s.line := by
  unfold issue markTest
  split <;> simp

theorem reachesTarget_iff (s : State) (h : Hold) : reachesTarget s h = true ↔ Reached s h := by
  unfold reachesTarget targetOf Reached
  cases hh : s.seq.holds[h] with
  | none => simp
  | some en => cases ht : en.target <;> simp [ht]

theorem evaluateFull_get (s : State) (h : Hold) : (evaluateFull s).seq.holdStates[h]
    = if reachesTarget s h then .full else s.seq.holdStates[h] := by
  simp [evaluateFull]

theorem completed_holdStates (v : Visit) (s : State) (h : Hold) :
    (completed v s).seq.holdStates[h] = if reachesTarget s h then .full else s.seq.holdStates[h] := by
  obtain ⟨k1, k2, -⟩ := issue_kept v.reserved (visitRecord s v) (setBases (visitLineAccounts s v) s)
  unfold completed
  generalize issue v.reserved (visitRecord s v) (setBases (visitLineAccounts s v) s) = u at k1 k2
  have e : reachesTarget { u with bills := { u.bills with unbilled := false } } h = reachesTarget s h := by
    simp only [reachesTarget, targetOf, k1, k2]
    rfl
  refine Eq.trans (evaluateFull_get { u with bills := { u.bills with unbilled := false } } h) ?_
  rw [e]
  simp only [k1]
  rfl

/-- What the completion of the open visit does (R87). -/
theorem completeVisit_completes (v : Visit) (s : State) (h : s.seq.visit = some v) :
    Completes v s (completeVisit s) := by
  rw [completeVisit_eq v s h]
  have hc : OnlyChanges (.held :: .injection :: .send .D :: selectionBlocks) (completed v s)
      (afterVisit (testHeldMove (completed v s))) :=
    (testHeldMove_changes _).mono.then (afterVisit_changes _)
  have hs : (afterVisit (testHeldMove (completed v s))).ladder.sources[srcBillMark]
      = (completed v s).ladder.sources[srcBillMark] := by
    exact ((LeavesSources.frame (testHeldMove_changes _)).trans (afterVisit_source _)) srcBillMark (by decide)
  obtain ⟨h1, h2, h3, h4⟩ := issue_spec v.reserved (visitRecord s v) (setBases (visitLineAccounts s v) s)
  obtain ⟨k1, k2, -⟩ := issue_kept v.reserved (visitRecord s v) (setBases (visitLineAccounts s v) s)
  have r1 := hc.same .records
  have r2 := hc.same .reserved
  have r3 := hc.same .unbilled
  have r4 := hc.same .lastMark
  have r5 := hc.same .bases
  have r6 := hc.same .holdStates
  simp only [Same] at r1 r2 r3 r4 r5 r6
  refine ⟨(List.finRange 13).filter fun a : Account =>
    a != holdAccount v.hold && (v.changed[a] || s.ship.rounded a != s.ship.bases[a]), ?_, ?_, ?_, ?_, ?_, ?_, ?_, ?_, ?_⟩
  · exact List.Pairwise.filter _ (List.pairwise_lt_finRange 13)
  · intro a
    simp [ShipAccount.rounded, roundKg]
  · rw [r1.1]
    exact h1
  · rw [r1.2]
    exact h2
  · rw [r3]
    rfl
  · refine ⟨fun k hk hl => ?_, fun hk => ?_⟩
    · rw [r4, hs]
      exact h4.1 k hk hl
    · rw [r4, hs]
      exact h4.2 hk
  · rw [r2]
    exact h3
  · intro a
    rw [r5]
    simp only [completed, setVisit_fields, evaluateFull, k2]
    simp [setBases, visitLineAccounts, ShipAccount.rounded, roundKg]
  · intro hd
    rw [r6]
    rw [show (completed v s).seq.holdStates[hd] = if reachesTarget s hd then .full else s.seq.holdStates[hd] from
      completed_holdStates v s hd]
    rw [← reachesTarget_iff]
    exact ⟨fun x => by simp [x], fun x => by simp [x]⟩

theorem completeIfEmpty_completes (v : Visit) (s : State) (h : s.seq.visit = some v) (hz : s.flight.total = 0) :
    Completes v s (completeIfEmpty s) := by
  unfold completeIfEmpty
  rw [if_pos hz]
  exact completeVisit_completes v s h

/-! ## The injection queue -/

/-- Nothing joins the injection queue. -/
def InjectsNothing (s t : State) : Prop := t.line.injection ⊆ s.line.injection

theorem InjectsNothing.trans {s t u : State} (h : InjectsNothing s t) (k : InjectsNothing t u) : InjectsNothing s u :=
  fun _ hx => h (k hx)

theorem InjectsNothing.frame {xs : List Block} {s t : State} (h : OnlyChanges xs s t)
    (hx : Block.injection ∉ xs := by decide) : InjectsNothing s t := by
  have := h.same .injection hx
  simp only [Same] at this
  intro y hy
  rwa [this.1] at hy

theorem offer_injection (p : PortId) (f : Frame) (s : State) : InjectsNothing s (offer p f s) := by
  cases p
  · exact .frame (offer_U f s)
  · intro y hy
    simp only [offer, Line.offer] at hy
    split at hy
    · simp only [Line.begin, setPort_D] at hy
      split at hy <;> simp_all
    · exact hy

theorem forward_injection (p : PortId) (f : Frame) (s : State) : InjectsNothing s (forward p f s) := by
  unfold forward
  split
  · exact offer_injection _ _ s
  · split
    · exact offer_injection _ _ s
    · exact fun _ h => h

theorem testHeldMove_injection (s : State) : InjectsNothing s (testHeldMove s) := by
  unfold testHeldMove
  split
  · exact fun _ h => h
  · split
    · exact .trans (t := { s with place := { s.place with held := none } }) (fun _ h => h) (forward_injection _ _ _)
    · exact fun _ h => h

theorem completeVisit_injection (s : State) : InjectsNothing s (completeVisit s) := by
  cases h : s.seq.visit with
  | none => simp only [completeVisit, h]; exact fun _ h => h
  | some v =>
    rw [completeVisit_eq v s h]
    refine .trans ?_ (.frame (afterVisit_changes _))
    refine .trans ?_ (testHeldMove_injection _)
    have e := (issue_changes v.reserved (visitRecord s v) (setBases (visitLineAccounts s v) s)).same .injection
    simp only [Same] at e
    intro y hy
    have : (completed v s).line.injection = s.line.injection := e.1
    rwa [this] at hy

theorem completeIfEmpty_injection (s : State) : InjectsNothing s (completeIfEmpty s) := by
  unfold completeIfEmpty
  split
  · exact completeVisit_injection s
  · exact fun _ h => h

/-! ## Triggers (R84, R85) -/

/-- `Completes` reads the state before it through a few fields alone. -/
theorem Completes.congr {v : Visit} {s s' t : State} (h : Completes v s' t) (hm : s'.meter.belt = s.meter.belt)
    (hs : s'.ship = s.ship) (hb : s'.bills = s.bills) (hh : s'.seq.holds = s.seq.holds)
    (hf : s'.seq.holdStates = s.seq.holdStates)
    (hl : s'.ladder.sources[srcBillMark] = s.ladder.sources[srcBillMark]) : Completes v s t := by
  have ha : ∀ h, armOf s' h = armOf s h := by intro h; simp [armOf, hh]
  have ht : trimKg s' = trimKg s := by
    have : holdMoment s' = holdMoment s := by funext h; simp [holdMoment, hh, hs]
    simp [trimKg, trimMoment, this]
  have hr : ∀ h, Reached s' h ↔ Reached s h := by intro h; simp [Reached, hh, hs]
  unfold Completes MarkTested at *
  simp only [hm, hs, hb, hf, hl, ht, hr] at h
  exact h

/-- An order injected (R93). -/
theorem injectOrder_injects (d : InjDest) (o : InjOrder) (bs : List Byte) (s : State) (addr : Byte)
    (he : s.gate.entry d = none) (hl : s.line.d.lineFault = false) (ha : s.station (destRole d) = some addr) :
    ∃ s', injectOrder d o bs s = some s' ∧ Injects d o addr bs s s' := by
  unfold injectOrder
  simp only [he, hl, ha]
  refine ⟨_, rfl, ?_, ?_, ?_⟩
  · cases d with
    | feeder => simp [Gate.setEntry, Gate.entry]
    | drive a => cases a <;> simp [Gate.setEntry, Gate.entry]
  · simp [begin_injSeq]
  · simp only [Line.begin]
    cases hs : s.line.d.sending <;> cases hw : s.line.without d <;> simp [kindOrder]

theorem closeOutNotIssued_spec (v : Visit) (s : State) (h : s.seq.visit = some v) :
    let t := closeOutNotIssued s
    let stopped : Visit := { v with state := .draining, flags := { v.flags with hardStopped := true } }
    t.gate.injFeeder = none ∧ (∀ y ∈ t.line.injection, y.dest ≠ .feeder)
      ∧ t.ladder.sources[srcCloseoutNotIssued] = (s.ladder.sources[srcCloseoutNotIssued]).raised
      ∧ (0 < s.flight.total → t.seq.visit = some stopped) ∧ (s.flight.total = 0 → Completes stopped s t) := by
  intro t stopped
  let x : State := setVisit (some stopped) (raise srcCloseoutNotIssued (abandonOrder .feeder s))
  have hx : t = completeIfEmpty x := by
    simp [t, x, stopped, closeOutNotIssued, enterDraining, mapVisit, abandonOrder, h]
  have hc := completeIfEmpty_changes x
  have he := hc.same .entries
  simp only [Same] at he
  have hs : LeavesSources [srcTrimBound, srcBillMark] x t := by
    rw [hx]
    unfold completeIfEmpty
    split
    · exact completeVisit_source x
    · exact .refl _ x
  refine ⟨?_, ?_, ?_, fun hz => ?_, fun hz => ?_⟩
  · rw [hx, he.1]
    rfl
  · intro y hy
    rw [hx] at hy
    have := completeIfEmpty_injection x hy
    simp [x, abandonOrder, Line.without] at this
    exact this.2
  · rw [hs srcCloseoutNotIssued (by decide)]
    simp [x, abandonOrder]
  · rw [hx, completeIfEmpty, if_neg (by simp [x, abandonOrder]; omega)]
    rfl
  · rw [hx]
    refine (completeIfEmpty_completes stopped x rfl (by simpa [x, abandonOrder] using hz)).congr rfl rfl rfl rfl rfl ?_
    exact (raise_source _ _) srcBillMark (by decide)

/-- A trigger (R84, R85, R103, R105). -/
theorem takeTrigger_reaches (r : EndReason) (s : State) : TriggerReaches r s (takeTrigger r s) := by
  refine ⟨fun h => by simp [takeTrigger, State.visitState, h], fun v h => ?_⟩
  refine ⟨⟨fun addr hp he hl ha => ?_, fun x hp he ho => ?_, fun hp hn => ?_, fun hp hz => ?_, fun hp hz _ => ?_⟩,
    fun h1 h2 => ?_⟩
  · have ht : takeTrigger r s = closeOut (setVisit (some { v with state := .closing, endReason := some r }) s) := by
      simp [takeTrigger, State.visitState, h, hp, mapVisit]
    obtain ⟨s', k1, k2⟩ := injectOrder_injects .feeder .stop [InjOrder.code .stop]
      (setVisit (some { v with state := .closing, endReason := some r }) s) addr he hl ha
    have hv := (injectOrder_changes _ _ _ _ _ k1).same .visit
    simp only [Same] at hv
    rw [ht, closeOut]
    simp only [setVisit_fields, he, k1]
    exact ⟨hv, trivial, k2⟩
  · have ht : takeTrigger r s = closeOut (setVisit (some { v with state := .closing, endReason := some r }) s) := by
      simp [takeTrigger, State.visitState, h, hp, mapVisit]
    rw [ht, closeOut]
    simp only [setVisit_fields, he, ho, if_true]
    exact ⟨trivial, trivial, trivial⟩
  · let u := setVisit (some { v with state := .closing, endReason := some r }) s
    have ht : takeTrigger r s = closeOutNotIssued u := by
      have ht : takeTrigger r s = closeOut u := by simp [takeTrigger, State.visitState, h, hp, mapVisit, u]
      rw [ht, closeOut]
      rcases hn with ⟨x, he, ho⟩ | ⟨he, hl⟩
      · simp [u, he, ho]
      · simp [u, he, injectOrder, hl, Gate.entry]
    obtain ⟨k1, k2, k3, k4, k5⟩ := closeOutNotIssued_spec _ u rfl
    rw [ht]
    exact ⟨k1, k2, k3, k4, fun hz _ => (k5 hz).congr rfl rfl rfl rfl rfl rfl⟩
  · simp only [takeTrigger, State.visitState, h, hp, Option.map_some, mapVisit, completeIfEmpty]
    rw [if_neg (by simp; omega)]
    rfl
  · have ht : takeTrigger r s = completeIfEmpty (setVisit (some { v with state := .draining, endReason := some r }) s) := by
      simp [takeTrigger, State.visitState, h, hp, mapVisit]
    rw [ht]
    exact (completeIfEmpty_completes _ (setVisit _ s) rfl hz).congr rfl rfl rfl rfl rfl rfl
  · simp only [takeTrigger, State.visitState, h, Option.map_some]
    cases hs : v.state <;> simp_all

/-- A trigger raises CLOSEOUT_NOT_ISSUED, TRIM_BOUND and BILL_MARK at most. -/
theorem takeTrigger_source (r : EndReason) (s : State) :
    LeavesSources [srcCloseoutNotIssued, srcTrimBound, srcBillMark] s (takeTrigger r s) := by
  have hc : ∀ u : State, LeavesSources [srcCloseoutNotIssued, srcTrimBound, srcBillMark] u (completeIfEmpty u) := by
    intro u
    unfold completeIfEmpty
    split
    · exact (completeVisit_source u).mono
    · exact .refl _ u
  have hn : ∀ u : State, LeavesSources [srcCloseoutNotIssued, srcTrimBound, srcBillMark] u (closeOutNotIssued u) :=
    fun u => .trans (t := abandonOrder .feeder u) .ladder
      (.trans (raise_source srcCloseoutNotIssued _).mono (.trans (t := mapVisit _ _) .ladder (hc _)))
  unfold takeTrigger
  split
  · refine .trans (t := mapVisit (fun v => { v with state := .closing, endReason := some r }) s) .ladder ?_
    unfold closeOut
    split
    · split
      · exact .ladder
      · exact hn _
    · split
      · rename_i s' h
        exact .trans (t := s') (.frame (injectOrder_changes _ _ _ _ _ h)) .ladder
      · exact hn _
  · exact .trans (t := mapVisit _ s) .ladder (hc _)
  · exact .refl _ s

theorem takeTrigger_dust (r : EndReason) (s : State) : (takeTrigger r s).dust = s.dust := by
  have h := takeTrigger_changes r s
  have h1 := h.same .sensors
  have h2 := h.same .derates
  have h3 := h.same .band
  simp only [Same] at h1 h2 h3
  cases hd : (takeTrigger r s).dust
  cases hs : s.dust
  simp_all

/-- A trigger leaves the last commanded rate. -/
theorem takeTrigger_lastRate (r : EndReason) (s : State) : (takeTrigger r s).gate.lastRate = s.gate.lastRate := by
  have hn : ∀ u : State, (closeOutNotIssued u).gate.lastRate = u.gate.lastRate := by
    intro u
    have := (OnlyChanges.then (xs := .entries :: completionBlocks)
      ((abandonOrder_changes .feeder u).mono.then (raise_changes srcCloseoutNotIssued _))
      (enterDraining_changes true _)).same .rate
    exact this.1
  unfold takeTrigger
  split
  · unfold closeOut
    split
    · split
      · rfl
      · rw [hn]; rfl
    · split
      · rename_i s' h
        exact ((injectOrder_changes _ _ _ _ _ h).same .rate).1
      · rw [hn]; rfl
  · exact ((completeIfEmpty_changes _).same .rate).1
  · rfl

/-- A trigger takes no record away. -/
theorem takeTrigger_records (r : EndReason) (s : State) : s.bills.records <+: (takeTrigger r s).bills.records := by
  have hc : ∀ u : State, u.bills.records <+: (completeIfEmpty u).bills.records := by
    intro u
    unfold completeIfEmpty
    split
    · cases h : u.seq.visit with
      | none => simp [completeVisit, h]
      | some v =>
        obtain ⟨as, _, _, h1, _⟩ := completeVisit_completes v u h
        rw [h1]
        exact List.prefix_append _ _
    · exact List.prefix_refl _
  have hn : ∀ u : State, u.bills.records <+: (closeOutNotIssued u).bills.records := by
    intro u
    have h : OnlyChanges [.entries, .injection, .sources] u (raise srcCloseoutNotIssued (abandonOrder .feeder u)) :=
      (abandonOrder_changes .feeder u).mono.then (raise_changes srcCloseoutNotIssued _)
    have := (h.same .records).1
    rw [← this]
    exact hc (mapVisit _ (raise srcCloseoutNotIssued (abandonOrder .feeder u)))
  unfold takeTrigger
  split
  · unfold closeOut
    split
    · split
      · exact List.prefix_refl _
      · exact hn (mapVisit _ s)
    · split
      · rename_i s' h
        have := ((injectOrder_changes _ _ _ _ _ h).same .records).1
        show s.bills.records <+: s'.bills.records
        rw [this]
        exact List.prefix_refl _
      · exact hn (mapVisit _ s)
  · exact hc (mapVisit _ s)
  · exact List.prefix_refl _

/-- A visit that does not pour takes no trigger. -/
theorem takeTrigger_idle (r : EndReason) (s : State) (h : s.visitPours = false) : takeTrigger r s = s := by
  unfold takeTrigger State.visitState
  unfold State.visitPours at h
  cases hv : s.seq.visit with
  | none => simp
  | some v => cases hs : v.state <;> simp_all [VisitState.pours]

/-! ## The derate check and the bands (R95, R102, R121) -/

theorem derateDue_iff (s : State) : derateDue s = true
    ↔ s.gate.feeder = .running ∧ ∃ q, s.gate.lastRate = some q ∧ s.gate.rateLimit < q := by
  unfold derateDue
  cases s.gate.lastRate <;> simp

theorem derateCheck_checked (s : State) : DerateChecked s (derateCheck s) := by
  refine ⟨fun h => ?_, fun addr h he hl ha => ?_, fun h hu => ?_, fun h hu hn => ?_⟩
  · have e : derateCheck s = setPendingDerate false s := by
      rw [derateCheck, if_neg (fun x => h ((derateDue_iff s).1 x))]
    have hc := setPendingDerate_changes false s
    rw [e]
    exact ⟨rfl, rfl, rfl, hc.same .entries, hc.same .injection⟩
  · obtain ⟨s', k1, k2⟩ := injectOrder_injects .feeder .rate (limitPayload s) s addr he hl ha
    have e : derateCheck s = setPendingDerate false (markDerated (commandLimit s')) := by
      simp only [derateCheck, (derateDue_iff s).2 h, if_true, k1]
    have hc := injectOrder_changes _ _ _ _ _ k1
    have hv := hc.same .visit
    have hr := hc.same .limit
    simp only [Same] at hv hr
    rw [e]
    refine ⟨k2, ?_, rfl, ?_⟩
    · simp only [setPendingDerate, markDerated, mapVisit, commandLimit, setVisit, hr]
    · simp only [setPendingDerate, markDerated, mapVisit, commandLimit, setVisit, hv]
      congr 1
      funext v
      cases hs : v.state <;> simp [VisitState.triggers]
  · obtain ⟨⟨x, he, ho⟩, y, hy, hd⟩ := hu
    have e : derateCheck s = commandLimit { s with line := s.line.rewrite .feeder (limitPayload s) } := by
      have : injectOrder .feeder .rate (limitPayload s) s = none := by simp [injectOrder, Gate.entry, he]
      have hr : rateUnsent s = true := by
        simp only [rateUnsent, he, ho, Line.unsent]
        simpa using ⟨y, hy, hd⟩
      simp only [derateCheck, (derateDue_iff s).2 h, if_true, this, hr]
    rw [e]
    refine ⟨rfl, rfl, rfl, ⟨rfl, rfl, rfl⟩, ?_⟩
    simp only [commandLimit, Line.rewrite, beq_iff_eq]
    rfl
  · have e : derateCheck s = setPendingDerate true s := by
      have : injectOrder .feeder .rate (limitPayload s) s = none := by
        unfold injectOrder
        split
        · rename_i h1 h2 _
          rcases hn with hn | hn
          · exact absurd h1 hn
          · simp [hn] at h2
        · rfl
      have hr : rateUnsent s = false := by
        rw [Bool.eq_false_iff]
        intro hr
        apply hu
        unfold rateUnsent at hr
        split at hr
        · rename_i x hx
          simp [Line.unsent] at hr
          exact ⟨⟨x, hx, hr.1⟩, hr.2⟩
        · exact absurd hr (by simp)
      simp [derateCheck, (derateDue_iff s).2 h, this, hr]
    have hc := setPendingDerate_changes true s
    rw [e]
    exact ⟨rfl, rfl, rfl, hc.same .entries, hc.same .injection⟩

theorem rateLimitOf_eq (s : State) :
    rateLimitOf s = s.seq.header.elim 0 fun p => p.maxRate * s.dust.percent s.dust.overall / 100 := by
  unfold rateLimitOf
  cases s.seq.header <;> rfl

theorem recomputeLimit_recomputed (s : State) : LimitRecomputed s (recomputeLimit s) := by
  unfold LimitRecomputed
  rw [← rateLimitOf_eq s]
  refine ⟨recomputeLimit_changes s, ?_, fun h => ?_, fun h => ?_⟩
  · unfold recomputeLimit
    simp only
    split
    · exact (derateCheck_changes _).same .limit
    · rfl
  · unfold recomputeLimit
    simp only
    rw [if_pos h]
    exact derateCheck_checked _
  · unfold recomputeLimit
    simp only
    rw [if_neg (by omega)]
    intro b hb; cases b <;> simp_all [Same]

theorem formOverall_overall (d : Dust) (b : Band) (x : Bool) :
    ({ d with overall := b, spray := x } : Dust).formOverall = d.formOverall
      ∧ ({ d with overall := b, spray := x } : Dust).formSpray = d.formSpray := ⟨rfl, rfl⟩

/-- The bands formed again (R121, R123). -/
theorem reformBands_formed (s : State) : BandsFormed s (reformBands s) := by
  have hd : (reformBands s).dust = { s.dust with overall := s.dust.formOverall, spray := s.dust.formSpray } := by
    unfold reformBands
    simp only
    split
    · rfl
    · have hr := (recomputeLimit_fields { s with dust := { s.dust with overall := s.dust.formOverall,
                                                                       spray := s.dust.formSpray } }).2.2.2.2
      split
      · rw [takeTrigger_dust, hr]
      · exact hr
  refine ⟨?_, ?_, fun h => ?_, fun h => ?_⟩
  · rw [hd]; exact ((formOverall_overall _ _ _).1).symm
  · rw [hd]; exact ((formOverall_overall _ _ _).2).symm
  · rw [hd] at h
    unfold reformBands
    simp only
    rw [if_pos h]
    intro b hb
    simp [derateBlocks] at hb
    rcases hb with rfl | rfl | rfl | rfl | rfl | rfl <;> simp [Same]
  · rw [hd] at h ⊢
    let m := recomputeLimit { s with dust := { s.dust with overall := s.dust.formOverall, spray := s.dust.formSpray } }
    have e : reformBands s = if s.dust.formOverall = .trip then takeTrigger .dustTrip m else m := by
      unfold reformBands
      simp only
      rw [if_neg h]
    refine ⟨_, recomputeLimit_recomputed _, ?_, fun ht => ?_, fun ht => ?_⟩
    · rw [e]
      simp only
      split
      · exact (takeTrigger_changes _ _).same .limit
      · rfl
    · rw [e]
      simp only
      rw [if_pos ht]
      exact ⟨takeTrigger_lastRate _ _, takeTrigger_reaches _ _⟩
    · rw [e]
      simp only
      rw [if_neg ht]
      exact fun b _ => Same.refl b _

/-! ## The end of a ZERO operation, METER FAULT (R15, R23) -/

/-- The end of a running ZERO with the offset as it stands (R23). -/
theorem endZero_ends (z : ZeroOp) (o : ZeroOutcome) (s : State) (h : s.meter.zero = some z) :
    let t := endZero o s.meter.offset s
    t.meter = { s.meter with zero := none }
      ∧ t.bills.records = s.bills.records ++ [⟨s.bills.nextSeq, .zero z.oldOffset s.meter.offset o z.travel⟩]
      ∧ t.bills.nextSeq = s.bills.nextSeq + 1 ∧ t.bills.reserved = s.bills.reserved - 1 ∧ MarkTested s t
      ∧ Offered .U (zeroDone s o s.bills.nextSeq) s t := by
  intro t
  obtain ⟨h1, h2, h3, h4⟩ := issue_spec true (.zero z.oldOffset s.meter.offset o z.travel) s
  have hc := issue_changes true (.zero z.oldOffset s.meter.offset o z.travel) s
  obtain ⟨-, -, -, -, hh, -, -, hm, -⟩ := issue_kept true (.zero z.oldOffset s.meter.offset o z.travel) s
  have hw := congrArg Handler.ownAddr hh
  have hs := hc.same (.send .U)
  have ht : t = notice (4 :: o.code :: beBytes 4 s.bills.nextSeq.toNat)
      (let u := issue true (.zero z.oldOffset s.meter.offset o z.travel) s
       { u with meter := { u.meter with zero := none } }) := by
    simp [t, endZero, h]
  rw [ht]
  simp only [notice_fields]
  refine ⟨by rw [hm], h1, h2, h3, h4, fun hr => ?_⟩
  have k := offer_onWire .U (zeroDone s o s.bills.nextSeq)
    (let u := issue true (.zero z.oldOffset s.meter.offset o z.travel) s
     { u with meter := { u.meter with zero := none } })
    (by
      simp only [Same, port_U] at hs
      have e : (issue true (.zero z.oldOffset s.meter.offset o z.travel) s).line.u.room = s.line.u.room := by
        simp only [Port.room, hs.1]
      exact e.trans hr)
  simpa [notice, zeroDone, hw, addrTerminal, kindNotice] using k

/-- The end of a ZERO leaves what a trigger reads beside the Bill Store. -/
theorem endZero_kept (o : ZeroOutcome) (n : Int) (s : State) :
    let t := endZero o n s
    t.seq = s.seq ∧ t.ship = s.ship ∧ t.gate = s.gate ∧ t.now = s.now ∧ t.handler = s.handler
      ∧ t.stations = s.stations ∧ t.flight = s.flight ∧ t.meter.belt = s.meter.belt ∧ t.line.d = s.line.d
      ∧ t.line.injSeq = s.line.injSeq := by
  intro t
  cases hz : s.meter.zero with
  | none =>
    have : t = s := by simp [t, endZero, hz]
    simp [this]
  | some z =>
    obtain ⟨h1, h2, h3, h4, h5, h6, h7, h8, h9⟩ := issue_kept true (.zero z.oldOffset n o z.travel) s
    have ht : t = notice (4 :: o.code :: beBytes 4 s.bills.nextSeq.toNat)
        { issue true (.zero z.oldOffset n o z.travel) s with
          meter := { (issue true (.zero z.oldOffset n o z.travel) s).meter with zero := none } } := by
      simp [t, endZero, hz]
    rw [ht]
    simp only [notice_fields, h1, h2, h3, h4, h5, h6, h7, h8, h9, and_self]

/-- `TriggerReaches` reads the state before it through a few fields alone. -/
theorem TriggerReaches.congr {r : EndReason} {s s' t : State} (h : TriggerReaches r s' t) (hq : s'.seq = s.seq)
    (hg : s'.gate = s.gate) (hd : s'.line.d.lineFault = s.line.d.lineFault) (hi : s'.line.injSeq = s.line.injSeq)
    (hn : s'.now = s.now) (ho : s'.handler.ownAddr = s.handler.ownAddr) (hst : s'.stations = s.stations)
    (hf : s'.flight = s.flight) (hs : s'.ship = s.ship) (hb : s'.meter.belt = s.meter.belt)
    (hc : s'.ladder.sources[srcCloseoutNotIssued] = s.ladder.sources[srcCloseoutNotIssued])
    (hz : s.meter.zero = none → s'.meter.zero = none ∧ s'.bills = s.bills
      ∧ s'.ladder.sources[srcBillMark] = s.ladder.sources[srcBillMark]) : TriggerReaches r s t := by
  have hk : ∀ v, s.meter.zero = none → Completes v s' t → Completes v s t := fun v z c =>
    c.congr hb hs (hz z).2.1 (by rw [hq]) (by rw [hq]) (hz z).2.2
  have hst' : ∀ a, s'.station a = s.station a := fun a => by simp [State.station, hst]
  have hj : ∀ d o addr bs, Injects d o addr bs s' t → Injects d o addr bs s t := fun d o addr bs => by
    simp only [Injects, ho, hi, hn, hg]; exact id
  refine ⟨by rw [← hq]; exact h.1, fun v hv => ?_⟩
  obtain ⟨⟨a, b, c, d, e⟩, f⟩ := h.2 v (by rw [hq]; exact hv)
  rw [hg] at a b c
  rw [hd] at a c
  rw [hf] at c d e
  rw [hc] at c
  refine ⟨⟨fun addr x y z w => ?_, b, fun x y => ?_, d, fun x y z => hk _ z (e x y (hz z).1)⟩, f⟩
  · obtain ⟨k1, k2, k3⟩ := a addr x y z (by rw [hst']; exact w)
    exact ⟨k1, k2, hj _ _ _ _ k3⟩
  · obtain ⟨k1, k2, k3, k4, k5⟩ := c x y
    exact ⟨k1, k2, k3, k4, fun y z => hk _ z (k5 y (hz z).1)⟩

/-- METER FAULT set (R15). -/
theorem setMeterFault_set (s : State) : FaultSet s (setMeterFault s) := by
  -- the fault and its alarm, then the end of a running ZERO, then the trigger
  let s2 : State := raise srcMeterFault (setCond srcMeterFault true
    { s with meter := { s.meter with fault := true, clearing := 0 } })
  let s3 : State := endZero .faulted s2.meter.offset s2
  have ht : setMeterFault s = if s.meter.fault then s3 else takeTrigger .meterFault s3 := rfl
  have h2 : s2.ladder.sources[srcMeterFault] = ((s.ladder.sources[srcMeterFault]).withCond true).raised := by
    simp [s2]
  have hs2 : LeavesSources [srcMeterFault] s s2 :=
    .trans .ladder ((setCond_source srcMeterFault true _).trans (raise_source srcMeterFault _))
  have hz3 : s.meter.zero = none → s3 = s2 := fun h => by simp [s3, s2, endZero, h]
  have hm3 : s3.meter = { s2.meter with zero := none } := by
    cases hz : s2.meter.zero with
    | none =>
      rw [hz3 hz]
      cases hh : s2.meter
      simp_all
    | some z => exact (endZero_ends z .faulted s2 hz).1
  have hc3 := endZero_changes .faulted s2.meter.offset s2
  have hs3 : LeavesSources [srcBillMark] s2 s3 := by
    show LeavesSources [srcBillMark] s2 (endZero .faulted s2.meter.offset s2)
    unfold endZero
    split
    · exact .refl _ s2
    · rename_i z _
      exact .trans (.trans (issue_source true (.zero z.oldOffset s2.meter.offset .faulted z.travel) s2) .ladder)
        (notice_source _ _).mono
  have hT : OnlyChanges pourBlocks s3 (setMeterFault s) := by
    rw [ht]
    split
    · exact OnlyChanges.refl _ s3
    · exact takeTrigger_changes _ s3
  have hsT : (setMeterFault s).ladder.sources[srcMeterFault] = s3.ladder.sources[srcMeterFault] := by
    rw [ht]
    split
    · rfl
    · exact takeTrigger_source _ s3 srcMeterFault (by decide)
  have f1 := hT.same .fault
  have f2 := hT.same .zero
  have f3 := hT.same .offset
  have f4 := hT.same .drift
  simp only [Same, hm3] at f1 f2 f3 f4
  refine ⟨f1.1, f1.2, f2, ?_, fun z hz => ?_, fun hf => ?_, fun hf => ?_⟩
  · rw [hsT, hs3 srcMeterFault (by decide), h2]
  · obtain ⟨_, e2, e3, e4, e5, e6⟩ := endZero_ends z .faulted s2 hz
    refine ⟨f2, f3, f4, ?_, fun hp => ?_, ?_⟩
    · rw [ht]
      have e2' : s3.bills.records
          = s.bills.records ++ [⟨s.bills.nextSeq, .zero z.oldOffset s.meter.offset .faulted z.travel⟩] := e2
      rw [← e2']
      split
      · exact List.prefix_refl _
      · exact takeTrigger_records _ s3
    · have hp3 : s3.visitPours = false := by
        have := hc3.same .visit
        simp only [Same] at this
        unfold State.visitPours at *
        rw [this]
        exact hp
      have hi : setMeterFault s = s3 := by
        rw [ht, takeTrigger_idle _ _ hp3]
        split <;> rfl
      rw [hi]
      refine ⟨e2, e3, e4, ?_⟩
      have hb : s2.ladder.sources[srcBillMark] = s.ladder.sources[srcBillMark] := hs2 _ (by decide)
      unfold MarkTested at e5 ⊢
      rw [← hb]
      exact e5
    · intro hr
      have := e6 hr
      rw [ht]
      split
      · exact this
      · exact (takeTrigger_keeps _ s3).2 _ _ this
  · rw [ht, hf]
    obtain ⟨h1, h2, h3, h4, h5, h6, h7, h8, h9, h10⟩ := endZero_kept .faulted s2.meter.offset s2
    refine (takeTrigger_reaches .meterFault s3).congr h1 h3 (congrArg Port.lineFault h9) h10 h4
      (congrArg Handler.ownAddr h5) h6 h7 h2 h8 ?_ fun hz => ?_
    · rw [hs3 _ (by decide), hs2 _ (by decide)]
    · have e : s3 = s2 := hz3 hz
      rw [e]
      exact ⟨hz, rfl, hs2 _ (by decide)⟩
  · have := hc3.same .visit
    rw [ht, hf]
    exact this

/-! ## LINE FAULT (R175) -/

theorem enterLineFault_enters (p : PortId) (s : State) : EntersLineFault p s (enterLineFault p s) := by
  let u : State := setLinePort p { s.line.port p with lineFault := true } s
  let w : State := raise (srcLineFault p) (setCond (srcLineFault p) true u)
  have hw : w.ladder.sources[srcLineFault p] = ((s.ladder.sources[srcLineFault p]).withCond true).raised := by
    simp [w, u]
  have hl : LeavesSources [srcLineFault p] u w :=
    (setCond_source (srcLineFault p) true _).trans (raise_source (srcLineFault p) _)
  cases p with
  | U => exact ⟨rfl, hw, fun h => absurd h (by decide)⟩
  | D =>
    have ht : enterLineFault .D s = takeTrigger .lineFault w := rfl
    rw [ht]
    refine ⟨?_, ?_, fun _ => ?_⟩
    · have := (takeTrigger_changes .lineFault w).same (.recv .D)
      exact this.2.2.2
    · rw [takeTrigger_source _ w _ (by decide), hw]
    · refine (takeTrigger_reaches .lineFault w).congr rfl rfl rfl rfl rfl rfl rfl rfl rfl rfl ?_ fun hz => ⟨hz, rfl, ?_⟩
      · exact hl _ (by decide)
      · exact hl _ (by decide)

theorem leaveLineFault_leaves (p : PortId) (s : State) : LeavesLineFault p s (leaveLineFault p s) := by
  let u : State := setLinePort p { s.line.port p with lineFault := false } s
  let w : State := setCond (srcLineFault p) false u
  have hw : w.ladder.sources[srcLineFault p] = (s.ladder.sources[srcLineFault p]).withCond false := by
    simp [w, u]
  cases p with
  | U => exact ⟨rfl, hw, fun h => absurd h (by decide)⟩
  | D =>
    have ht : leaveLineFault .D s = derateCheck w := rfl
    rw [ht]
    refine ⟨?_, ?_, fun _ => derateCheck_checked w⟩
    · exact ((derateCheck_changes w).same (.recv .D)).2.2.2
    · rw [(derateCheck_changes w).sources, hw]

/-- The taking of a frame (R174, R175): the step that enters LINE FAULT and the one that leaves it. -/
theorem takeHead_moves (s : State) (p : PortId) (e : RxEntry) (rest : List RxEntry) (row : Instr)
    (hd : ∀ q, row = .requestDropped q → q = p) :
    let x := s.line.port p
    let up : Prop := e.receipt = .overrun ∨ row = .requestDropped p
    let enters : Prop := up ∧ x.lineFault = false ∧ s.handler.threshold ≤ min (x.tally + 1) 255
    let leaves : Prop := ¬ up ∧ x.lineFault = true ∧ x.tally ≤ 1
    let moved (t : State) : Prop := (enters → EntersLineFault p s t) ∧ (leaves → LeavesLineFault p s t)
    moved (takeHead p e rest row s) := by
  intro x up enters leaves moved
  let w := setLinePort p { s.line.port p with rxQueue := rest } s
  have hup : up → takeHead p e rest row s = tallyUp p w := by
    intro h
    unfold takeHead takingStep
    rcases h with h | h
    · simp [h, w]
    · subst h
      cases e.receipt <;> simp [w]
  have hdn : ¬ up → takeHead p e rest row s = tallyDown p w := by
    intro h
    simp only [up, not_or] at h
    unfold takeHead takingStep
    split
    · exact absurd (by assumption) h.1
    · exact absurd (by rw [hd _ rfl]) h.2
    · rfl
  refine ⟨fun ⟨h, h1, h2⟩ => ?_, fun ⟨h, h1, h2⟩ => ?_⟩
  · rw [hup h]
    have : tallyUp p w = enterLineFault p
        (setLinePort p { w.line.port p with tally := min ((w.line.port p).tally + 1) 255 } w) := by
      unfold tallyUp lineFaultTest
      rw [if_pos]
      simp [w, x] at *
      simp [h1, h2]
    rw [this]
    have k := enterLineFault_enters p
      (setLinePort p { w.line.port p with tally := min ((w.line.port p).tally + 1) 255 } w)
    obtain ⟨k1, k2, k3⟩ := k
    refine ⟨k1, k2, fun hp => ?_⟩
    subst hp
    exact (k3 rfl).congr rfl rfl rfl rfl rfl rfl rfl rfl rfl rfl rfl fun z => ⟨z, rfl, rfl⟩
  · rw [hdn h]
    have : tallyDown p w = leaveLineFault p
        (setLinePort p { w.line.port p with tally := (w.line.port p).tally - 1 } w) := by
      unfold tallyDown
      simp only
      rw [if_pos]
      simp [w, x] at *
      simp [h1]; omega
    rw [this]
    obtain ⟨k1, k2, k3⟩ := leaveLineFault_leaves p
      (setLinePort p { w.line.port p with tally := (w.line.port p).tally - 1 } w)
    refine ⟨k1, k2, fun hp => ?_⟩
    subst hp
    exact k3 rfl

/-! ## What follows within the event -/

/-- What the rest of an event leaves of a state: all that the statements above read of the state they end in. -/
def Closes (t t' : State) : Prop :=
  t'.seq = t.seq ∧ t'.bills = t.bills ∧ t'.ship = t.ship ∧ t'.meter = t.meter ∧ t'.dust = t.dust
    ∧ t'.gate = { t.gate with permit := t'.gate.permit } ∧ t'.line.d = t.line.d ∧ t'.line.injection = t.line.injection
    ∧ t'.line.injSeq = t.line.injSeq ∧ t'.ladder.sources = t.ladder.sources ∧ Keeps t t'

theorem Closes.trans {s t u : State} (h : Closes s t) (k : Closes t u) : Closes s u := by
  obtain ⟨a1, a2, a3, a4, a5, a6, a7, a8, a9, a10, a11⟩ := h
  obtain ⟨b1, b2, b3, b4, b5, b6, b7, b8, b9, b10, b11⟩ := k
  refine ⟨b1.trans a1, b2.trans a2, b3.trans a3, b4.trans a4, b5.trans a5, ?_, b7.trans a7, b8.trans a8, b9.trans a9,
    b10.trans a10, a11.trans b11⟩
  rw [b6, a6]

theorem endEvent_closes (s : State) : Closes s (endEvent s) :=
  ⟨by simp, by simp, by simp, by simp, by simp, by simp, by simp, by simp, by simp, by simp, endEvent_keeps s⟩

theorem offer_U_closes (f : Frame) (s : State) : Closes s (offer .U f s) :=
  ⟨rfl, rfl, rfl, rfl, rfl, rfl, by simp, by simp, by simp, rfl, offer_keeps .U f s⟩

/-- A sample forwarded to port U. -/
theorem forward_D_closes (f : Frame) (s : State) (h : f.kind ≠ kindOrder) : Closes s (forward .D f s) := by
  unfold forward
  split
  · exact offer_U_closes f s
  · exact ⟨rfl, rfl, rfl, rfl, rfl, rfl, rfl, rfl, rfl, rfl, Keeps.refl s⟩

theorem Closes.entry {t t' : State} (h : Closes t t') (d : InjDest) : t'.gate.entry d = t.gate.entry d := by
  rw [h.2.2.2.2.2.1]
  cases d with
  | feeder => rfl
  | drive a => cases a <;> rfl

theorem Closes.gate {t t' : State} (h : Closes t t') : t'.gate.injFeeder = t.gate.injFeeder
    ∧ t'.gate.injGantry = t.gate.injGantry ∧ t'.gate.injShuttle = t.gate.injShuttle
    ∧ t'.gate.lastRate = t.gate.lastRate ∧ t'.gate.pendingDerate = t.gate.pendingDerate
    ∧ t'.gate.rateLimit = t.gate.rateLimit ∧ t'.gate.feeder = t.gate.feeder := by
  rw [h.2.2.2.2.2.1]; simp

theorem TriggerReaches.closes {r : EndReason} {s t t' : State} (h : TriggerReaches r s t) (c : Closes t t') :
    TriggerReaches r s t' := by
  have hg := c.gate
  have he := c.entry
  obtain ⟨a1, a2, a3, a4, a5, a6, a7, a8, a9, a10, a11⟩ := c
  simp only [TriggerReaches, Triggered, Completes, MarkTested, Injects, a1, a2, a3, a7, a8, a9, a10, hg, he] at h ⊢
  exact h

theorem DerateChecked.closes {s t t' : State} (h : DerateChecked s t) (c : Closes t t') : DerateChecked s t' := by
  have hg := c.gate
  have he := c.entry
  obtain ⟨a1, a2, a3, a4, a5, a6, a7, a8, a9, a10, a11⟩ := c
  simp only [DerateChecked, Injects, Same, a1, a7, a8, a9, hg, he] at h ⊢
  exact h

theorem BandsFormed.closes {s t t' : State} (h : BandsFormed s t) (c : Closes t t') : BandsFormed s t' := by
  obtain ⟨h1, h2, h3, h4⟩ := h
  have hr := fun m => TriggerReaches.closes (r := .dustTrip) (s := m) (c := c)
  have hg := c.gate
  obtain ⟨a1, a2, a3, a4, a5, a6, a7, a8, a9, a10, a11⟩ := c
  have hb : ∀ u, ∀ b ∈ .limit :: derateBlocks, Same b u t → Same b u t' := by
    intro u b hb
    simp only [derateBlocks, List.mem_cons, List.not_mem_nil, or_false] at hb
    rcases hb with rfl | rfl | rfl | rfl | rfl | rfl <;> simp only [Same, a1, a7, a8, a9, hg, port_D] <;> exact id
  refine ⟨by rw [a5]; exact h1, by rw [a5]; exact h2, fun k b hx => ?_, fun k => ?_⟩
  · rw [a5] at k
    exact hb s b hx (h3 k b hx)
  · rw [a5] at k ⊢
    obtain ⟨m, k1, k2, k3, k4⟩ := h4 k
    refine ⟨m, k1, by rw [hg.2.2.2.2.2.1]; exact k2, fun x => ⟨?_, hr m (k3 x).2⟩,
      fun x b hx => hb m b (List.mem_cons_of_mem _ hx) (k4 x b hx)⟩
    rw [hg.2.2.2.1]
    exact (k3 x).1

theorem FaultSet.closes {s t t' : State} (h : FaultSet s t) (c : Closes t t') : FaultSet s t' := by
  have hr := TriggerReaches.closes (r := .meterFault) (s := s) (c := c)
  obtain ⟨a1, a2, a3, a4, a5, a6, a7, a8, a9, a10, a11⟩ := c
  obtain ⟨h1, h2, h3, h4, h5, h6, h7⟩ := h
  refine ⟨by rw [a4]; exact h1, by rw [a4]; exact h2, by rw [a4]; exact h3, by rw [a10]; exact h4, fun z hz => ?_,
    fun k => hr (h6 k), fun k => by rw [a1]; exact h7 k⟩
  obtain ⟨k1, k2, k3, k4, k5, k6⟩ := h5 z hz
  simp only [ZeroEnds, MarkTested, a2, a4, a10] at k5 ⊢
  exact ⟨k1, k2, k3, k4, k5, fun x => a11.2 _ _ (k6 x)⟩

theorem EntersLineFault.closes {p : PortId} {s t t' : State} (h : EntersLineFault p s t) (c : Closes t t')
    (hl : (t'.line.port p).lineFault = (t.line.port p).lineFault) : EntersLineFault p s t' :=
  ⟨hl.trans h.1, by rw [c.2.2.2.2.2.2.2.2.2.1]; exact h.2.1, fun hp => (h.2.2 hp).closes c⟩

theorem LeavesLineFault.closes {p : PortId} {s t t' : State} (h : LeavesLineFault p s t) (c : Closes t t')
    (hl : (t'.line.port p).lineFault = (t.line.port p).lineFault) : LeavesLineFault p s t' :=
  ⟨hl.trans h.1, by rw [c.2.2.2.2.2.2.2.2.2.1]; exact h.2.1, fun hp => (h.2.2 hp).closes c⟩

/-! ## What came before within the event -/

/-- A state with another port U and another ladder. -/
def State.aside (s : State) (u : Port) (l : Ladder) : State := { s with line := { s.line with u := u }, ladder := l }

theorem LimitRecomputed.aside {s m : State} {u : Port} {l : Ladder} (h : LimitRecomputed (s.aside u l) m) :
    LimitRecomputed s (m.aside s.line.u s.ladder) := by
  obtain ⟨h1, h2, h3, h4⟩ := h
  have hb : ∀ xs, OnlyChanges xs (s.aside u l) m → OnlyChanges xs s (m.aside s.line.u s.ladder) := by
    intro xs h b hx
    have k := h b hx
    cases b with
    | recv p => cases p <;> simp_all [State.aside, Same]
    | send p => cases p <;> simp_all [State.aside, Same]
    | _ => simp_all [State.aside, Same]
  exact ⟨hb _ h1, h2, h3, fun k => hb _ (h4 k)⟩

/-- The bands formed after a change of the sensors, of port U and of the ladder. -/
theorem BandsFormed.aside {s t : State} {u : Port} {l : Ladder} (x : Vector Sensor 8)
    (h : BandsFormed (({ s with dust := { s.dust with sensors := x } } : State).aside u l) t)
    (hc : l.sources[srcCloseoutNotIssued] = s.ladder.sources[srcCloseoutNotIssued])
    (hm : l.sources[srcBillMark] = s.ladder.sources[srcBillMark]) : BandsFormed s t := by
  obtain ⟨h1, h2, h3, h4⟩ := h
  refine ⟨h1, h2, fun k b hb => ?_, fun k => ?_⟩
  · have := h3 k b hb
    simp only [derateBlocks, List.mem_cons, List.not_mem_nil, or_false] at hb
    rcases hb with rfl | rfl | rfl | rfl | rfl | rfl <;> exact this
  · obtain ⟨m, k1, k2, k3, k4⟩ := h4 k
    have hs := OnlyChanges.sources k1.1
    refine ⟨_, LimitRecomputed.aside (u := u) (l := l) k1, k2, fun y => ⟨(k3 y).1, ?_⟩, fun y b hb => ?_⟩
    · refine (k3 y).2.congr rfl rfl rfl rfl rfl rfl rfl rfl rfl rfl ?_ fun z => ⟨z, rfl, ?_⟩
      · rw [hs]; exact hc
      · rw [hs]; exact hm
    · have := k4 y b hb
      simp only [derateBlocks, List.mem_cons, List.not_mem_nil, or_false] at hb
      rcases hb with rfl | rfl | rfl | rfl | rfl <;> exact this

/-! ## The release test -/

/-- The release test by itself, at a source that is neither PENDING nor IN_SERVICE, and the bands (R117, R121). -/
theorem retestLatch_tested (i : SensorNo) (s : State) (h : (s.ladder.state (srcDustTrip i)).holds = false) :
    ReleaseTested i s (retestLatch i s) := by
  have hd (u : State) : (reformBands u).dust.sensors = u.dust.sensors := by
    simpa only [Same] using (reformBands_changes u).same .sensors
  have hc (u : State) : ((reformBands u).ladder.sources[srcDustTrip i]).cond = (u.ladder.sources[srcDustTrip i]).cond := by
    have := (reformBands_changes u).same .conds
    simp only [Same] at this
    exact this _
  by_cases k : (s.dust.sensors[i]).latch = true ∧ (s.dust.sensors[i]).belowRelease = true
  · have e : releaseTest i s = setCond (srcDustTrip i) false
        (setSensor i { s.dust.sensors[i] with latch := false } s) := by
      unfold releaseTest
      simp only [h]
      rw [if_pos (by simpa using k)]
    have hl := setCond_source (srcDustTrip i) false (setSensor i { s.dust.sensors[i] with latch := false } s)
    have ne : srcCloseoutNotIssued ∉ [srcDustTrip i] ∧ srcBillMark ∉ [srcDustTrip i] := by
      clear e hl k hc h
      revert i
      decide
    refine ⟨?_, fun _ => ?_, fun n => absurd k n⟩
    · unfold retestLatch
      rw [e]
      exact BandsFormed.aside (u := s.line.u) (upd s.dust.sensors i { s.dust.sensors[i] with latch := false })
        (reformBands_formed _) (hl _ ne.1) (hl _ ne.2)
    · unfold retestLatch
      rw [hd, hc, e]
      simp [setSensor, Source.withCond]
      split <;> rfl
  · have e : releaseTest i s = s := by
      unfold releaseTest
      simp only [h]
      rw [if_neg (by simpa using k)]
    refine ⟨?_, fun n => absurd n k, fun _ => ?_⟩
    · unfold retestLatch
      rw [e]
      exact reformBands_formed s
    · unfold retestLatch
      rw [hd, hc, e]
      exact ⟨rfl, rfl⟩

end Sys2Proof.Machine
end

