-- ==== Sys2Proof/Laws/Layout.lean ====
section
/-! SUPPORT. The sections of STATUS keep their lengths whatever is absent (R186, R187): an absent field or group is sent
as zeros of its own length. -/

namespace Sys2Proof.Machine

@[simp] theorem beBytes_length (k n : Nat) : (beBytes k n).length = k := by
  induction k <;> simp [beBytes, *]

@[simp] theorem beInt_length (k : Nat) (x : Int) : (beInt k x).length = k := by simp [beInt]

@[simp] theorem kgField_length (n : Nat) : (kgField n).length = 4 := by simp [kgField]

@[simp] theorem optField_length (k : Nat) (x : Option Nat) : (optField k x).length = k + 1 := by
  cases x <;> simp [optField]

theorem optGroup_length (k : Nat) (x : Option (List Byte)) (h : ∀ bs, x = some bs → bs.length = k) :
    (optGroup k x).length = k + 1 := by
  cases x <;> simp_all [optGroup]

theorem statusPart_length (s : State) : (statusPart s).length = 13 := by simp [statusPart]

theorem statusMeter_length (s : State) : (statusMeter s).length = 22 := by simp [statusMeter]

theorem statusFlight_length (s : State) : (statusFlight s).length = 24 := by
  have h := optGroup_length 13 (s.flight.segments.head?.map (headBytes s)) (by
    intro bs h
    obtain ⟨g, -, rfl⟩ := Option.map_eq_some_iff.mp h
    simp [headBytes])
  simp [statusFlight, h]

theorem statusPlacement_length (s : State) : (statusPlacement s).length = 40 := by
  have h1 := optGroup_length 6 (s.place.held.map heldBytes) (by
    intro bs h
    obtain ⟨g, -, rfl⟩ := Option.map_eq_some_iff.mp h
    simp [heldBytes])
  have h2 := optGroup_length 4 (s.place.sweep.map sweepBytes) (by
    intro bs h
    obtain ⟨g, -, rfl⟩ := Option.map_eq_some_iff.mp h
    simp [sweepBytes])
  have h3 : (placeBytes s.place.state).length = 3 := by cases s.place.state <;> rfl
  simp [statusPlacement, axisBytes, h1, h2, h3]

theorem statusPlan_length (s : State) : (statusPlan s).length = 34 := by
  have h := optGroup_length 15 (s.seq.visit.map visitBytes) (by
    intro bs h
    obtain ⟨g, -, rfl⟩ := Option.map_eq_some_iff.mp h
    simp [visitBytes])
  simp [statusPlan, h]

theorem statusFeed_length (s : State) : (statusFeed s).length = 18 := by
  have h (e) : (entryBytes e).length = 3 := by cases e <;> rfl
  simp [statusFeed, h]

theorem statusDust_length (s : State) : (statusDust s).length = 59 := by
  simp [statusDust, sensorBytes, List.length_flatMap]

/-- A service stack of at most 16 sources (R133). -/
theorem statusAlarms_length (s : State) (hs : s.ladder.stack.length ≤ 16) : (statusAlarms s).length = 26 := by
  have h := optGroup_length 2 (s.ladder.presented.map fun x => [byteOf x.1.val, byteOf x.2]) (by
    intro bs h
    obtain ⟨g, -, rfl⟩ := Option.map_eq_some_iff.mp h
    simp)
  simp [statusAlarms, stackBytes, h]
  omega

theorem statusBills_length (s : State) : (statusBills s).length = 35 := by simp [statusBills]

end Sys2Proof.Machine
end

