-- ==== Sys2Proof/WellFormed.lean ====
section
/-! DEFINITION. What a sender may put in the queue. The operands' types carry their ranges (a port, a sensor 1 to 8,
a destination that orders are injected to), so one check is left: RECEIVE_FRAME brings at least one byte. -/

namespace Sys2Proof

/-- A command that a sender may put in the queue (R172: a reception has at least one byte). The meanings are total:
an ill-formed RECEIVE_FRAME changes nothing. -/
def Instr.wellFormed : Instr → Bool
  | .receiveFrame _ bytes => !bytes.isEmpty
  | _ => true

end Sys2Proof
end

