-- ==== Sys2Proof/Laws/PerInstr.lean ====
section
/-! SUPPORT. Per command: what makes it ill-formed. -/

set_option Elab.async false

namespace Sys2Proof.Laws.Shape

/-- A command is ill-formed only as a reception of no byte (R172). -/
def Statement (i : Instr) : Prop := i.wellFormed = false ↔ ∃ p, i = .receiveFrame p []

theorem receiveFrame (p : PortId) (bytes : List Byte) : Statement (.receiveFrame p bytes) := by
  simp [Statement, Instr.wellFormed]
theorem transmitEnd (p : PortId) : Statement (.transmitEnd p) := by simp [Statement, Instr.wellFormed]
theorem beltSample : Statement .beltSample := by simp [Statement, Instr.wellFormed]
theorem positionSample : Statement .positionSample := by simp [Statement, Instr.wellFormed]
theorem holdsenseSample : Statement .holdsenseSample := by simp [Statement, Instr.wellFormed]
theorem dustSample : Statement .dustSample := by simp [Statement, Instr.wellFormed]
theorem feederSample : Statement .feederSample := by simp [Statement, Instr.wellFormed]
theorem reply : Statement .reply := by simp [Statement, Instr.wellFormed]
theorem run : Statement .run := by simp [Statement, Instr.wellFormed]
theorem rate : Statement .rate := by simp [Statement, Instr.wellFormed]
theorem stop : Statement .stop := by simp [Statement, Instr.wellFormed]
theorem move : Statement .move := by simp [Statement, Instr.wellFormed]
theorem halt : Statement .halt := by simp [Statement, Instr.wellFormed]
theorem forwardFrame (p : PortId) : Statement (.forwardFrame p) := by simp [Statement, Instr.wellFormed]
theorem requestDropped (p : PortId) : Statement (.requestDropped p) := by simp [Statement, Instr.wellFormed]
theorem badRequest : Statement .badRequest := by simp [Statement, Instr.wellFormed]
theorem load : Statement .load := by simp [Statement, Instr.wellFormed]
theorem read : Statement .read := by simp [Statement, Instr.wellFormed]
theorem status : Statement .status := by simp [Statement, Instr.wellFormed]
theorem setOptions : Statement .setOptions := by simp [Statement, Instr.wellFormed]
theorem openShip : Statement .openShip := by simp [Statement, Instr.wellFormed]
theorem closeShip : Statement .closeShip := by simp [Statement, Instr.wellFormed]
theorem startPlan : Statement .startPlan := by simp [Statement, Instr.wellFormed]
theorem haltPlan : Statement .haltPlan := by simp [Statement, Instr.wellFormed]
theorem resumePlan : Statement .resumePlan := by simp [Statement, Instr.wellFormed]
theorem skipSlot : Statement .skipSlot := by simp [Statement, Instr.wellFormed]
theorem zeroBelt : Statement .zeroBelt := by simp [Statement, Instr.wellFormed]
theorem zeroAbort : Statement .zeroAbort := by simp [Statement, Instr.wellFormed]
theorem sweep : Statement .sweep := by simp [Statement, Instr.wellFormed]
theorem ackAlarm : Statement .ackAlarm := by simp [Statement, Instr.wellFormed]
theorem doneAlarm : Statement .doneAlarm := by simp [Statement, Instr.wellFormed]
theorem setAlarm : Statement .setAlarm := by simp [Statement, Instr.wellFormed]
theorem readRecords : Statement .readRecords := by simp [Statement, Instr.wellFormed]
theorem takeRecords : Statement .takeRecords := by simp [Statement, Instr.wellFormed]
theorem restart : Statement .restart := by simp [Statement, Instr.wellFormed]
theorem scaleSilenceExpiry : Statement .scaleSilenceExpiry := by simp [Statement, Instr.wellFormed]
theorem zeroTimeout : Statement .zeroTimeout := by simp [Statement, Instr.wellFormed]
theorem sensorSilenceExpiry (i : SensorNo) : Statement (.sensorSilenceExpiry i) := by simp [Statement, Instr.wellFormed]
theorem replyWindowExpiry (d : InjDest) : Statement (.replyWindowExpiry d) := by simp [Statement, Instr.wellFormed]
theorem stepTimeout : Statement .stepTimeout := by simp [Statement, Instr.wellFormed]
theorem stopInputAsserted : Statement .stopInputAsserted := by simp [Statement, Instr.wellFormed]
theorem stopInputCleared : Statement .stopInputCleared := by simp [Statement, Instr.wellFormed]
theorem resetAsserted : Statement .resetAsserted := by simp [Statement, Instr.wellFormed]
theorem resetReleased : Statement .resetReleased := by simp [Statement, Instr.wellFormed]
theorem powerOn : Statement .powerOn := by simp [Statement, Instr.wellFormed]
theorem badDestination : Statement .badDestination := by simp [Statement, Instr.wellFormed]
theorem badFrame : Statement .badFrame := by simp [Statement, Instr.wellFormed]

end Sys2Proof.Laws.Shape
end

