-- ==== Sys2Proof/Laws/Selection.lean ====
section
/-! SUPPORT. What a selection can do (R73, R74): it passes over ineligible slots, one skip and one cursor position for
each, and opens the first eligible one or finishes the plan when all were passed. -/

set_option Elab.async false

namespace Sys2Proof.Machine

/-- The state after `k` slots have been passed over without the cursor coming round. -/
def passedOver (k : Nat) (s : State) : State :=
  { s with seq := { s.seq with cursor := s.seq.cursor + k, skips := s.seq.skips + k } }

/-- The slot `j` positions on from the cursor is passed over, past the trim limit or not (R72, R73). -/
def PassesSlot (s : State) (p : PlanHeader) (j : Nat) (trim : Bool) : Prop :=
  ∃ (i : Fin 16) (sl : Slot), slotIndex s.seq p.slotCount (s.seq.cursor + j) = i.val ∧ s.seq.slots[i] = some sl
    ∧ ineligible s p sl.hold = some trim

theorem slotAtCursor_of (s : State) (p : PlanHeader) (i : Fin 16) (sl : Slot)
    (h : slotIndex s.seq p.slotCount s.seq.cursor = i.val) (hs : s.seq.slots[i] = some sl) :
    slotAtCursor s p = some (i, sl) := by
  unfold slotAtCursor
  rw [dif_pos (by rw [h]; exact i.isLt)]
  simp only [h]
  simp only [Fin.getElem_fin] at hs
  simp [hs]

/-- One slot passed over (R73): the skip is counted and the cursor advances, short of the last slot. -/
theorem selectLoop_passes (p : PlanHeader) (fuel run : Nat) (mark trim : Bool) (s : State)
    (hh : s.seq.header = some p) (ht : shipTargetReached s p = false) (hr : s.seq.round ≤ p.roundLimit)
    (hp : PassesSlot s p 0 trim) (hrun : run + 1 < p.slotCount) (hc : s.seq.cursor + 1 < p.slotCount)
    (hs : s.seq.skips < 65535) :
    selectLoop p (fuel + 1) run mark s = selectLoop p fuel (run + 1) (mark || trim) (passedOver 1 s) := by
  obtain ⟨i, sl, h1, h2, h3⟩ := hp
  rw [selectLoop]
  rw [if_neg (by simp [ht]), if_neg (by omega), slotAtCursor_of s p i sl h1 h2]
  simp only [h3]
  rw [if_neg (by omega)]
  congr 1
  simp only [advanceCursor, hh, if_pos hc, passedOver]
  rw [Nat.min_eq_left (by omega)]

theorem ineligible_passedOver (k : Nat) (s : State) (p : PlanHeader) (h : Hold) :
    ineligible (passedOver k s) p h = ineligible s p h := rfl

theorem PassesSlot.shift {s : State} {p : PlanHeader} {j : Nat} {trim : Bool} (h : PassesSlot s p (j + 1) trim) :
    PassesSlot (passedOver 1 s) p j trim := by
  obtain ⟨i, sl, h1, h2, h3⟩ := h
  refine ⟨i, sl, ?_, h2, h3⟩
  rw [show s.seq.cursor + (j + 1) = s.seq.cursor + 1 + j by omega] at h1
  exact h1

/-- The first eligible slot, `k` positions on, opens its visit (R74). -/
theorem selectLoop_opens (p : PlanHeader) (k : Nat) : ∀ (fuel run : Nat) (mark : Bool) (s : State) (i : Fin 16) (sl : Slot),
    s.seq.header = some p → shipTargetReached s p = false → s.seq.round ≤ p.roundLimit →
    (∀ j < k, ∃ trim, PassesSlot s p j trim) → run + k < p.slotCount → s.seq.cursor + k < p.slotCount →
    s.seq.skips + k ≤ 65535 → k < fuel → slotIndex s.seq p.slotCount (s.seq.cursor + k) = i.val →
    s.seq.slots[i] = some sl → ineligible s p sl.hold = none →
    selectLoop p fuel run mark s = openVisit i sl (passedOver k s) := by
  induction k with
  | zero =>
    intro fuel run mark s i sl hh ht hr _ _ _ _ hf h1 h2 h3
    obtain ⟨f, rfl⟩ : ∃ f, fuel = f + 1 := ⟨fuel - 1, by omega⟩
    rw [selectLoop, if_neg (by simp [ht]), if_neg (by omega), slotAtCursor_of s p i sl h1 h2]
    simp only [h3]
    rfl
  | succ k ih =>
    intro fuel run mark s i sl hh ht hr hp hrun hc hs hf h1 h2 h3
    obtain ⟨f, rfl⟩ : ∃ f, fuel = f + 1 := ⟨fuel - 1, by omega⟩
    obtain ⟨trim, h0⟩ := hp 0 (by omega)
    rw [selectLoop_passes p f run mark trim s hh ht hr h0 (by omega) (by omega) (by omega)]
    rw [ih f (run + 1) (mark || trim) (passedOver 1 s) i sl hh ht hr
      (fun j hj => (hp (j + 1) (by omega)).imp fun _ h => h.shift) (by omega)
      (by simp only [passedOver]; omega) (by simp only [passedOver]; omega) (by omega)
      (by rw [show s.seq.cursor + (k + 1) = s.seq.cursor + 1 + k by omega] at h1; exact h1) h2 h3]
    congr 1
    simp only [passedOver]
    congr 2 <;> omega

/-- All the slots left, `k + 1` of them, are ineligible: the plan finishes NONE_ELIGIBLE, the last one counted too (R73,
R74). -/
theorem selectLoop_exhausts (p : PlanHeader) (k : Nat) : ∀ (fuel run : Nat) (mark : Bool) (s : State) (trims : Nat → Bool),
    s.seq.header = some p → shipTargetReached s p = false → s.seq.round ≤ p.roundLimit →
    (∀ j ≤ k, PassesSlot s p j (trims j)) → run + k + 1 = p.slotCount → s.seq.cursor + k < p.slotCount →
    s.seq.skips + k + 1 ≤ 65535 → k < fuel →
    selectLoop p fuel run mark s = finishPlan .noneEligible (mark || (List.range (k + 1)).any trims)
      { passedOver k s with seq := { (passedOver k s).seq with skips := s.seq.skips + (k + 1) } } := by
  induction k with
  | zero =>
    intro fuel run mark s trims hh ht hr hp hrun _ hs hf
    obtain ⟨f, rfl⟩ : ∃ f, fuel = f + 1 := ⟨fuel - 1, by omega⟩
    obtain ⟨i, sl, h1, h2, h3⟩ := hp 0 (by omega)
    rw [selectLoop, if_neg (by simp [ht]), if_neg (by omega), slotAtCursor_of s p i sl h1 h2]
    simp only [h3]
    rw [if_pos (by omega), Nat.min_eq_left (by omega)]
    simp [passedOver, List.range_succ]
  | succ k ih =>
    intro fuel run mark s trims hh ht hr hp hrun hc hs hf
    obtain ⟨f, rfl⟩ : ∃ f, fuel = f + 1 := ⟨fuel - 1, by omega⟩
    rw [selectLoop_passes p f run mark (trims 0) s hh ht hr (hp 0 (by omega)) (by omega) (by omega) (by omega)]
    rw [ih f (run + 1) (mark || trims 0) (passedOver 1 s) (fun j => trims (j + 1)) hh ht hr
      (fun j hj => (hp (j + 1) (by omega)).shift) (by omega) (by simp only [passedOver]; omega)
      (by simp only [passedOver]; omega) (by omega)]
    congr 1
    · rw [Bool.or_assoc]
      congr 1
      rw [List.range_succ_eq_map (n := k + 1)]
      simp [List.any_map]
      rfl
    · simp only [passedOver]
      congr 2 <;> omega

end Sys2Proof.Machine
end

