-- ==== Sys2Proof/Tests/Slice0.lean ====
section
/-! SUPPORT. Tests: well-formedness, the manual's worked examples, and for each statement with hypotheses a concrete state
and operands that meet them. -/

set_option Elab.async false

namespace Sys2Proof.Tests

open Sys2Proof Sys2Proof.Machine

/-! ## Well-formedness -/

theorem test_wellFormed_refuses_empty_reception : Instr.wellFormed (.receiveFrame .U []) = false := by decide
theorem test_wellFormed_admits_reception : Instr.wellFormed (.receiveFrame .D [0xC5]) = true := by decide
theorem test_wellFormed_admits_others : Instr.wellFormed .beltSample = true ∧ Instr.wellFormed (.transmitEnd .U) = true := by
  decide

/-! ## The manual's examples -/

/-- R171: the check over the nine bytes of "123456789" is 0x29B1. -/
theorem test_check_example : crc [0x31, 0x32, 0x33, 0x34, 0x35, 0x36, 0x37, 0x38, 0x39] = 0x29B1#16 := by decide +kernel

/-- R170: 0xC5 and 0xCA are sent as 0xCA with the byte XOR 0x40. -/
theorem test_escape : escapeOne 0xC5 = [0xCA, 0x85] ∧ escapeOne 0xCA = [0xCA, 0x8A] ∧ escapeOne 0x45 = [0x45] := by decide

/-- R9: with S = 2,561 and d = -10 the net load is -100 g/m. -/
theorem test_net_load : netLoad (-10) 2561 = -100 := by decide

/-- R113: A16 = 640 and k = 3 with a reading of 120, then one of 0. -/
theorem test_average : nextA16 640 120 3 = 800 ∧ nextA16 800 0 3 = 700 ∧ (700 : Int) / 16 = 43 := by decide

/-- R95: max rate 16,000 with the reset derates. -/
theorem test_rate_limit : 16000 * Dust.reset.percent .elevated / 100 = 9600 ∧ 16000 * Dust.reset.percent .high / 100 = 4000
    ∧ 16000 * Dust.reset.percent .trip / 100 = 0 := by decide

/-- R71: the three visiting orders of the rule's table. -/
theorem test_visiting_orders :
    ((List.range 5).map fun k => slotIndex { Sequencer.reset with order := .rotate, start := 3 } 5 k) = [3, 4, 0, 1, 2]
      ∧ ((List.range 8).map fun k => slotIndex { Sequencer.reset with order := .paired, start := 5 } 8 k)
        = [5, 4, 7, 6, 1, 0, 3, 2]
      ∧ ((List.range 4).map fun k => slotIndex { Sequencer.reset with order := .paired, start := 2 } 4 k) = [2, 3, 0, 1] := by
  decide

/-- R170: the RUN order of the rule's example, its content before the check. -/
theorem test_wire_example :
    ({ dst := 5, src := 0, kind := 0x21, seq := 0xC5, payload := [1, 0, 0xCA] } : Frame).body.flatMap escapeOne
      = [5, 0, 0x21, 0xCA, 0x85, 3, 1, 0, 0xCA, 0x8A] := by decide

/-- R46: a settle count lowered below the count already reached. -/
theorem test_settle_lowered : nextPlace { TravelTable.reset with settleCount := 3 } (.settling 3 5) (some 3) = .placed 3 := by
  decide

/-! ## States for the witnesses -/

/-- A scale table at its default values (R1). -/
def scale : ScaleTable :=
  { span := 256, capacity := 400000, deadBand := 500, gapLimit := 8000, segmentLength := 1000, transitBase := 40000,
    chuteFactor := 0, beltLength := 100000, zeroShiftLimit := 2000, driftLimit := 500, scaleSilence := 500,
    zeroTimeout := 300 }

/-- A READY part with the roles SCALE to HOLDSENSE and DUST1 at addresses 1 to 7. -/
def part : State :=
  { State.reset with
    handler := { Handler.reset with part := .ready, stationsMark := true, scaleMark := true }
    stations := #v[some 1, some 2, some 3, some 4, some 5, some 6, some 7, none, none, none, none, none, none, none]
    meter := { Meter.reset with table := some scale } }

def frame (src dst kind : Byte) (payload : List Byte) : Frame :=
  { dst := dst, src := src, kind := kind, seq := 9, payload := payload }

def request (payload : List Byte) : Frame := frame 0 62 0x31 payload
def order (dst : Byte) (payload : List Byte) : Frame := frame 0 dst 0x21 payload
def sample (src : Byte) (payload : List Byte) : Frame := frame src 0 0x11 payload
def replied (src dst : Byte) (payload : List Byte) : Frame := frame src dst 0x22 payload

/-- A state whose port holds one received frame. -/
def holding (p : PortId) (f : Frame) (s : State) : State :=
  { s with line := s.line.setPort p { s.line.port p with rxQueue := [⟨f, .good⟩] } }

/-- The frame held is the command `row`. -/
abbrev Held (s : State) (p : PortId) (f : Frame) (row : Instr) : Prop := Heads (holding p f s) p row ⟨f, .good⟩ []

theorem held_of {s : State} {p : PortId} {f : Frame} {row : Instr} (h : inspect (holding p f s) p f = row) :
    Held s p f row := ⟨by cases p <;> rfl, h⟩

/-- Two slots, of holds 1 and 2, with their tables loaded. -/
def header : PlanHeader :=
  { slotCount := 2, order := .rotate, startSlot := 0, roundLimit := 1, trimLimit := 1000000, shipTarget := some 50,
    maxRate := 16000 }

def envelope (g : Nat) : Envelope :=
  { gantryMin := g, gantryMax := g + 10000, shuttleMin := 0, shuttleMax := 20000, margin := 100, chuteMax := none }

def planned : State :=
  { part with
    ship := { ShipAccount.reset with state := .open, number := some 1 }
    place := { Placement.reset with
      envelopes := ((Vector.replicate 12 none).set 0 (some (envelope 0))).set 1 (some (envelope 20000)) }
    seq := { Sequencer.reset with
      holds := ((Vector.replicate 12 none).set 0 (some ⟨100, none⟩)).set 1 (some ⟨-100, none⟩)
      slots := ((Vector.replicate 16 none).set 0 (some ⟨0, 20⟩)).set 1 (some ⟨1, 20⟩)
      header := some header }
    gate := { Gate.reset with rateLimit := 16000 } }

def visit (st : VisitState) : Visit :=
  { slot := 0, hold := 0, round := 1, quota := 20, state := st, poured := 0, changed := Vector.replicate 13 false,
    flags := VisitFlags.none, start := if st.pours then some 0 else none, pauses := [], pauseCount := 0,
    endReason := none, reserved := st.pours }

/-- The plan ACTIVE with the first slot's visit in a state, the spout PLACED at its hold. -/
def visiting (st : VisitState) : State :=
  { planned with
    seq := { planned.seq with plan := .active, round := 1, visit := some (visit st) }
    place := { planned.place with state := .placed 0, pourPoint := 0,
                                  axes := { planned.place.axes with gantry := ⟨some 5000, some .still⟩ } }
    bills := { BillStore.reset with reserved := if st.pours then 1 else 0 } }

def segment (n : Nat) (mass : Nat) : Segment :=
  { number := BitVec.ofNat 16 n, shipTag := 1, opened := 100 * n, transit := 40000, arrival := 40000 + 100 * n,
    mass := mass, samples := 1, overload := false, gapBridged := false, coarse := false }

/-- The visit with two segments in flight. -/
def flying (st : VisitState) : State :=
  { visiting st with
    flight := { segments := [segment 0 600000, segment 1 400000], nextNumber := 2 }
    ship := { planned.ship with weighed := 1000000 } }

/-- A visit PAUSED, with a held record, a source in service, one presented, a ZERO operation and a queued frame. -/
def loaded : State :=
  { flying .paused with
    bills := { BillStore.reset with records := [⟨1, .shipOpen 1⟩], nextSeq := 2, reserved := 2 }
    meter := { part.meter with zero := some { oldOffset := 0, travel := 0, loadTravel := 0, expiry := 5 } }
    ladder :=
      { sources := (Ladder.reset.sources.set 39 { Source.reset 39 with state := .inService }).set 11
          { Source.reset 11 with state := .pending }
        stack := [39], presented := some (11, 12), horn := true }
    line := { Line.reset with
      u := { Port.reset with txQueue := [request [3, 0]], tally := 20, lineFault := true }
      injection := [{ dest := .feeder, frame := order 2 [3] }] }
    gate := { planned.gate with permit := true } }

def dustEntry : SensorEntry :=
  { location := .hatch, elevated := 100, high := 200, trip := 300, hysteresis := 50, shift := 3, tripRun := 2,
    silenceTime := 2000, enabled := true }

def dusty : State := setSensor 0 { Sensor.fresh (some dustEntry) with run := 1, timer := some 4 } part

/-- Sensor 1 in a given state. -/
def dustyWith (x : Sensor) : State := setSensor 0 x part

/-- A sweep of the gantry at hold 1 that awaits its position at 5,050 mm, with steps left. -/
def sweepAt (clipped : Bool) (remaining : Nat) : Sweep :=
  { axis := .gantry, plus := true, step := 6000, remaining := remaining, done := 1, hold := 0, clipped := clipped,
    target := 5050, phase := .awaitingPosition, timer := 30000 }

/-- The spout PLACED at hold 1 with no visit open. -/
def placed : State :=
  { planned with place := { planned.place with state := .placed 0,
                                               axes := { planned.place.axes with gantry := ⟨some 5000, none⟩ } } }

/-- A port whose transmit queue is full. -/
def full (p : PortId) (s : State) : State :=
  { s with line := s.line.setPort p { s.line.port p with
      txQueue := List.replicate 8 (order 9 [1]), sending := some (order 9 [1]) } }

/-- Sensor 1 latched with its average at 0 and DUST_TRIP_1 in service. -/
def tripped : State :=
  { dusty with
    dust := { dusty.dust with sensors := upd dusty.dust.sensors 0 { Sensor.fresh (some dustEntry) with latch := true } }
    ladder := { Ladder.reset with
      sources := Ladder.reset.sources.set 2 { Source.reset 2 with state := .inService, cond := true }, stack := [2] } }

/-- A feeder that runs after a rate above the limit, with what stands in the FEEDER entry. -/
def overrate (e : Option InjEntry) (q : List InjFrame) (st : VisitState) : State :=
  { visiting st with
    gate := { planned.gate with rateLimit := 9600, lastRate := some 16000, injFeeder := e }
    line := { Line.reset with injection := q } }

/-- The same with the feeder known to run and the FEEDER entry free: a derate is due. -/
def overspeed (st : VisitState) : State :=
  { overrate none [] st with gate := { (overrate none [] st).gate with feeder := .running } }

/-- Port D at a tally, in LINE FAULT or not. -/
def onPort (tally : Nat) (fault : Bool) (s : State) : State :=
  { s with line := { s.line with d := { s.line.d with tally := tally, lineFault := fault } } }

/-- A command answers a next state with a property. -/
def leads (c : Instr) (s : State) (p : State → Bool) : Bool :=
  match exec c s with
  | .next t => p t
  | _ => false

/-- The open visit's state and end reason. -/
def ending (t : State) : Option (VisitState × Option EndReason) := t.seq.visit.map fun v => (v.state, v.endReason)

/-! ## Witnesses: reset and invariants -/

theorem witness_StepTicksOnEmptyQueue : State.reset.pending = [] := rfl

theorem witness_ResetLinesColdReset :
    (State.reset.pins.reset = false ∧ State.reset.pins.stop = false)
      ∧ (setResetPin true State.reset).pins.reset = true ∧ (setResetPin true State.reset).pins.stop = false
      ∧ (setStopPin true State.reset).pins.stop = true ∧ (setStopPin true State.reset).pins.reset = false := by decide

theorem witness_RestartResetsOrRefuses :
    Held (visiting .pouring) .U (request [19]) .restart ∧ pourPhase (holding .U (request [19]) (visiting .pouring)) = true
      ∧ Held part .U (request [19]) .restart ∧ pourPhase (holding .U (request [19]) part) = false
      ∧ part.gate.feeder ≠ .running ∧ part.pins.stop = false ∧ part.pins.reset = false :=
  ⟨held_of (by decide), by decide, held_of (by decide), by decide, by decide, by decide, by decide⟩

theorem witness_PermitStaysTrue :
    PermitTrue loaded ∧ HeldInReset loaded ∧ step loaded = .next (tick loaded) :=
  ⟨by unfold PermitTrue; decide, fun h => absurd h (by decide), rfl⟩

theorem witness_LineFaultStaysTrue : LineFaultTrue loaded := by
  unfold LineFaultTrue PortFaultTrue; decide

theorem witness_QueuesStayBounded : QueuesBounded loaded := by unfold QueuesBounded; decide

/-- A step that is no end of a sending, with frames being sent and waiting. -/
def sending : State :=
  { loaded with
    pending := [.requestDropped .D]
    line := { loaded.line with u := { loaded.line.u with sending := some (request [3, 1]) } } }

theorem witness_QueuesStayBounded_order :
    QueuesBounded sending ∧ sending.pending.head? = some (.requestDropped .D)
      ∧ sending.line.u.sending = some (request [3, 1]) ∧ sending.line.u.txQueue = [request [3, 0]] := by
  unfold QueuesBounded; decide

theorem witness_FlightStaysOrdered : FlightOrdered loaded.flight := by
  refine ⟨by decide, by decide, by decide, ?_⟩
  intro i h
  match i, h with
  | 0, _ => rfl
  | 1, _ => rfl

theorem witness_BillsStaySound : BillsSound loaded := by
  refine ⟨by decide, by decide, by decide, fun _ => Or.inl rfl, ?_⟩
  intro i h
  match i, h with
  | 0, _ => rfl

theorem witness_LadderStaysSound : LadderSound loaded.ladder := by
  refine ⟨by decide, by decide, by decide, by decide, ?_, by decide, by decide⟩
  intro i r h
  have h' : (11, 12) = (i, r) := Option.some.inj h
  cases h'
  decide

theorem witness_InjectionStaysSound : InjectionSound loaded := by unfold InjectionSound; decide

theorem witness_GrainIsConserved :
    Conserved loaded ∧ ScaleInRange loaded ∧ loaded.ship.weighed + 65534000000 < 2 ^ 64 := by
  refine ⟨⟨fun _ => by decide, by decide⟩, ?_, by decide⟩
  intro sc h
  have h' : scale = sc := Option.some.inj h
  subst h'
  decide

theorem witness_LimitStaysTrue : LimitTrue loaded := by unfold LimitTrue; decide

/-! ## Witnesses: the line -/

theorem witness_ReceiveGoodFrame :
    (frame 0 5 0x21 (List.replicate 200 0xC5)).payload.length ≤ 200 ∧ State.reset.pins.reset = false
      ∧ (State.reset.line.port .U).rx = .hunt ∧ (State.reset.line.port .D).rx = .hunt := by decide +kernel

theorem witness_ReceiveErrors (b : Byte) (rx : Receiver) (p : PortId) :
    ∃ s : State, s.pins.reset = false ∧ (s.line.port p).rx = rx ∧ (b = 0x84 → b ≠ 0x85 ∧ b ≠ 0x8A ∧ b ≠ 0xC5 ∧ b ≠ 0xCA) := by
  refine ⟨{ State.reset with line := Line.reset.setPort p { Port.reset with rx := rx } }, rfl, by cases p <;> rfl, ?_⟩
  rintro rfl; decide

/-- Contents that each clause of R172 refuses: too short, a length byte past 200, a length that disagrees, a check that
fails. -/
theorem witness_ReceiveErrors_contents :
    ([1, 2, 3, 4, 0, 0] : List Byte).length < 7
      ∧ 200 < (([1, 2, 3, 4, 201, 0, 0] : List Byte).getD 4 0).toNat
      ∧ ([1, 2, 3, 4, 0, 0, 0, 0] : List Byte).length ≠ (([1, 2, 3, 4, 0, 0, 0, 0] : List Byte).getD 4 0).toNat + 7
      ∧ ([1, 2, 3, 4, 0, 0, 0] : List Byte).drop 5 ≠ beBytes 2 (crc (([1, 2, 3, 4, 0, 0, 0] : List Byte).take 5)).toNat := by
  decide +kernel

/-- Port D one step short of the threshold and two, with a visit POURING. -/
theorem witness_ReceiveErrors_lineFault :
    (onPort 15 false (flying .pouring)).line.d.lineFault = false
      ∧ (onPort 15 false (flying .pouring)).handler.threshold ≤ min (15 + 1) 255
      ∧ ¬ (onPort 14 false (flying .pouring)).handler.threshold ≤ min (14 + 1) 255
      ∧ (onPort 15 false (flying .pouring)).seq.visit = some (visit .pouring)
      ∧ (onPort 15 false (flying .pouring)).gate.injFeeder = none := by decide

theorem witness_TransmitEndBeginsNext (f : Frame) (xs : List InjFrame) :
    ∃ s : State, s.line.u.sending = some f ∧ s.line.d.sending = some f ∧ s.line.injection = xs :=
  ⟨{ State.reset with line := { Line.reset with u := { Port.reset with sending := some f },
                                                d := { Port.reset with sending := some f }, injection := xs } }, rfl, rfl, rfl⟩

theorem witness_TakingStepsTheTally :
    Held part .U (request [3, 0]) .status ∧ Held part .D (frame 9 63 0x31 []) (.requestDropped .D)
      ∧ Heads { part with line := { Line.reset with d := { Port.reset with rxQueue := [⟨sample 2 [5, 0], .overrun⟩] } } } .D
          .feederSample ⟨sample 2 [5, 0], .overrun⟩ []
      ∧ Held (visiting .pouring) .U (request [19]) .restart
      ∧ (rxByte (.receiving [] true) 0).2 = .escapeError ∧ (rxByte (.receiving [0] false) 0xC5).2 = .lengthError
      ∧ (rxByte (.receiving [0, 0, 0, 0, 0, 0, 0] false) 0xC5).2 = .checkError :=
  ⟨held_of (by decide), held_of (by decide), ⟨rfl, by decide⟩, held_of (by decide), by decide, by decide,
    by decide +kernel⟩

/-- A dropped REQUEST takes port D to the threshold with a visit POURING, and a good frame takes it to 0 with a derate
due. -/
theorem witness_TakingStepsTheTally_lineFault :
    Held (onPort 15 false (flying .pouring)) .D (frame 9 0 0x31 []) (.requestDropped .D)
      ∧ Held (onPort 1 true (overspeed .pouring)) .D (frame 9 0 0x11 [9]) (.forwardFrame .D)
      ∧ (frame 9 0 0x11 [9]).kind ≠ 0x21 ∧ (overspeed .pouring).gate.lastRate = some 16000
      ∧ (overspeed .pouring).gate.rateLimit < 16000 ∧ (overspeed .pouring).gate.injFeeder = none
      ∧ (overspeed .pouring).station .feeder = some 2 :=
  ⟨held_of (by decide), held_of (by decide), by decide, by decide, by decide, by decide, by decide⟩

/-- R105, R175: the entry ends the visit without a close-out. -/
theorem test_lineFault_entered :
    leads (.requestDropped .D) (holding .D (frame 9 0 0x31 []) (onPort 15 false (flying .pouring))) (fun t =>
      t.line.d.lineFault && decide (ending t = some (.draining, some .lineFault)
        ∧ t.ladder.sources[srcCloseoutNotIssued] = (Ladder.reset.sources[srcCloseoutNotIssued]).raised)) = true := by
  decide +kernel

/-- R102, R175: the exit makes the derate check. -/
theorem test_lineFault_left :
    leads (.forwardFrame .D) (holding .D (frame 9 0 0x11 [9]) (onPort 1 true (overspeed .pouring))) (fun t =>
      !t.line.d.lineFault && decide (t.gate.lastRate = some 9600)) = true := by decide +kernel

theorem witness_FrameForwarded :
    Held part .U (order 9 [1]) (.forwardFrame .U) ∧ Held part .D (frame 9 0 0x11 [9]) (.forwardFrame .D)
      ∧ (part.line.port .U).room = true ∧ Held (full .D part) .U (order 9 [1]) (.forwardFrame .U)
      ∧ Held (full .D part) .U (frame 0 9 0x41 [1]) (.forwardFrame .U)
      ∧ Held (full .U part) .D (frame 9 0 0x11 [9]) (.forwardFrame .D)
      ∧ Held (full .U part) .D (frame 9 0 0x21 [9]) (.forwardFrame .D)
      ∧ ((full .D part).line.port .D).room = false ∧ ((full .U part).line.port .U).room = false
      ∧ (part.line.port .D).sending = none ∧ part.line.injection = [] ∧ (sending.line.port .U).room = true :=
  ⟨held_of (by decide), held_of (by decide), by decide, held_of (by decide), held_of (by decide), held_of (by decide),
    held_of (by decide), by decide, by decide, by decide, by decide, by decide⟩

theorem witness_RequestDropped :
    Held part .U (frame 0 63 0x31 [19]) (.requestDropped .U) ∧ Held part .D (frame 9 0 0x31 []) (.requestDropped .D) :=
  ⟨held_of (by decide), held_of (by decide)⟩

/-- Frames of each clause on rows: an upper address bit set, the samples and replies of port D, and an UNCONFIGURED
part's. -/
theorem witness_RequestDropped_rows :
    (frame 64 5 0x31 []).src.toNat = 64 ∧ (frame 1 0 0x11 []).dst.toNat < 64 ∧ part.ready = true
      ∧ (frame 2 62 0x22 [3, 0, 0]).kind = 0x22 ∧ (sample 1 [1, 3, 232, 7, 208, 0]).payload = [1, 3, 232, 7, 208, 0]
      ∧ parseSample [9] = none ∧ State.reset.ready = false ∧ State.reset.handler.ownAddr = 62
      ∧ (order 2 [1, 0, 9]).payload.head? = some 1 ∧ (62 : Byte) ≠ 63 := by decide

/-- R179 holds in either part state: a global STOP of a wrong length is BAD_FRAME; R178 has the other orders. -/
theorem test_global_stop_unconfigured :
    inspect State.reset .U (order 63 [3, 0]) = .badFrame ∧ inspect State.reset .U (order 63 [3]) = .forwardFrame .U
      ∧ inspect State.reset .U (order 63 [1, 0]) = .run ∧ inspect State.reset .U (order 5 [3, 0]) = .forwardFrame .U
      ∧ inspect State.reset .U (order 63 []) = .forwardFrame .U ∧ inspect part .U (order 63 [3, 0]) = .badFrame := by
  decide

theorem witness_BadFramesRefused :
    Held part .U (request [20]) .badRequest ∧ Held part .U (request [3]) .badFrame
      ∧ Held part .U (order 63 [1, 0, 0]) .badDestination :=
  ⟨held_of (by decide), held_of (by decide), held_of (by decide)⟩

/-- Destinations of each clause on rows: the own address, the global one, the FEEDER's, an axis's and nobody's. -/
theorem witness_BadFramesRefused_rows :
    part.ready = true ∧ (request []).dst = part.handler.ownAddr ∧ (62 : Byte) ≠ 63 ∧ (order 63 [3]).dst = 63
      ∧ part.station .feeder = some (order 2 [5, 0]).dst ∧ part.station Axis.chute.role = some (order 5 [4]).dst
      ∧ part.station .feeder ≠ some 5 ∧ part.station .feeder ≠ some 9 ∧ part.axisAt 9 = none := by decide

/-! ## Witnesses: metering -/

/-- A BELT sample with load 1,000 g/m at position 2,000, and one with head status FAULT. -/
def belt : Frame := sample 1 [1, 0x03, 0xE8, 0x07, 0xD0, 0]
def beltFault : Frame := sample 1 [1, 0x03, 0xE8, 0x07, 0xD0, 1]

/-- The meter has a previous sample at a position, the segments in flight being far. -/
def metering (p : BitVec 16) (s : State) : State := { s with meter := { s.meter with prev := some (p, 8) } }

theorem witness_BeltNormalSample :
    Held (metering 1000 (flying .pouring)) .D belt .beltSample
      ∧ parseSample belt.payload = some (.belt 1000 2000 true) ∧ part.station .scale = some belt.src
      ∧ part.meter.table = some scale ∧ ((2000 : BitVec 16) - 1000).toNat ≤ scale.gapLimit
      ∧ ((2000 : BitVec 16) - 1000).toNat < 32768 :=
  ⟨held_of (by decide), by decide, by decide, rfl, by decide, by decide⟩

/-- A ZERO operation that has collected some travel. -/
def zeroing (travel : Nat) (loadTravel : Int) : State :=
  { part with meter := { part.meter with
      prev := some (1000, 8), zero := some { oldOffset := 0, travel := travel, loadTravel := loadTravel, expiry := 9 } } }

/-- A belt nearly bare: a load of 1 g/m at position 2,000. -/
def bareBelt : Frame := sample 1 [1, 0, 1, 0x07, 0xD0, 0]

/-- The outcomes of a running ZERO operation: LOADED, still collecting one short of the belt length, ZEROED at the
shift limit and REJECTED past it; and a negative excess with the drift total at its limit and past it. -/
theorem witness_BeltNormalSample_outcomes :
    Held (zeroing 0 0) .D (sample 1 [1, 0x07, 0xD0, 0x07, 0xD0, 0]) .beltSample
      ∧ ¬ (2000 - 0 : Int).natAbs * scale.span < 1024 * scale.deadBand
      ∧ Held (zeroing 98999 0) .D bareBelt .beltSample ∧ parseSample bareBelt.payload = some (.belt 1 2000 true)
      ∧ (1 - 0 : Int).natAbs * scale.span < 1024 * scale.deadBand ∧ 98999 + 1000 < scale.beltLength
      ∧ scale.beltLength ≤ 99000 + 1000
      ∧ ((2 * (199999000 + 1000 : Int).natAbs + 100000) / (2 * 100000) : Nat) = scale.zeroShiftLimit
      ∧ scale.zeroShiftLimit < ((2 * (200099000 + 1000 : Int).natAbs + 100000) / (2 * 100000) : Nat)
      ∧ clampLoad (netLoad (-501 - 0) scale.span) scale.capacity = -501 ∧ ¬ ((0 : Int) ≤ -(scale.deadBand : Int))
      ∧ addMass 499499000 (501 * 1000) = scale.driftLimit * 1000000
      ∧ scale.driftLimit * 1000000 < addMass 499499001 (501 * 1000) :=
  ⟨held_of (by decide), by decide, held_of (by decide), by decide, by decide, by decide, by decide, by decide, by decide,
    by decide, by decide, by decide, by decide⟩

/-- The third sample of a clearing run, and one before; a short transmit queue beside a running ZERO. -/
theorem witness_BeltNormalSample_clearing :
    Held (metering 1000 { part with meter := { part.meter with fault := true, clearing := 2 } }) .D belt .beltSample
      ∧ Held (metering 1000 { part with meter := { part.meter with fault := true, clearing := 1 } }) .D belt .beltSample
      ∧ (zeroing 0 0).line.u.txQueue.length < 6 := ⟨held_of (by decide), held_of (by decide), by decide⟩

theorem witness_BeltFirstAndReverseSamples :
    Held part .D belt .beltSample ∧ part.meter.prev = none ∧ Held (metering 2001 part) .D beltFault .beltSample
      ∧ parseSample beltFault.payload = some (.belt 1000 2000 false) ∧ 32768 ≤ ((2000 : BitVec 16) - 2001).toNat :=
  ⟨held_of (by decide), rfl, held_of (by decide), by decide, by decide⟩

theorem witness_BeltLostOrFaultSample :
    scale.gapLimit < ((2000 : BitVec 16) - 59535).toNat ∧ ((2000 : BitVec 16) - 59535).toNat < 32768
      ∧ Held (metering 59535 part) .D belt .beltSample ∧ Held (metering 1000 part) .D beltFault .beltSample :=
  ⟨by decide, by decide, held_of (by decide), held_of (by decide)⟩

/-- METER FAULT set by a reverse sample with head status FAULT and by a lost position: clear with a visit POURING, already
set, and with a ZERO running; and a reverse sample with head status OK. -/
theorem witness_BeltLostOrFaultSample_fault :
    Held (metering 2001 (flying .pouring)) .D beltFault .beltSample ∧ (flying .pouring).meter.fault = false
      ∧ Held (metering 2001 (flying .pouring)) .D belt .beltSample
      ∧ Held (metering 59535 (flying .pouring)) .D belt .beltSample
      ∧ (∀ g ∈ (flying .pouring).flight.segments, addBelt 0 8001 < g.arrival) ∧ (flying .pouring).meter.belt = 0
      ∧ Held (metering 59535 { part with meter := { part.meter with fault := true } }) .D belt .beltSample
      ∧ Held (metering 59535 (zeroing 5 0)) .D belt .beltSample ∧ Held (metering 2001 (zeroing 5 0)) .D beltFault .beltSample
      ∧ (zeroing 5 0).visitPours = false :=
  ⟨held_of (by decide), by decide, held_of (by decide), held_of (by decide), by decide, by decide, held_of (by decide),
    held_of (by decide), held_of (by decide), by decide⟩

theorem witness_IncrementTakesOnePath :
    0 < acceptedLoad (clampLoad (netLoad (1000 - 0) scale.span) scale.capacity) scale.deadBand * 1000
      ∧ (∀ g ∈ (flying .pouring).flight.segments, (flying .pouring).meter.belt + 1000 < g.arrival) ∧ 1 ≤ scale.transitBase
      ∧ (flying .pouring).flight.segments = [segment 0 600000] ++ [segment 1 400000] := by decide

theorem witness_DeliveryFromTheHead :
    clampLoad (netLoad (499 - 0) scale.span) scale.capacity < scale.deadBand
      ∧ parseSample (sample 1 [1, 0x01, 0xF3, 0x07, 0xD0, 0]).payload = some (.belt 499 2000 true)
      ∧ Held (metering 1000 (flying .draining)) .D (sample 1 [1, 0x01, 0xF3, 0x07, 0xD0, 0]) .beltSample
      ∧ Held (metering 1000 { flying .draining with meter := { part.meter with belt := 39000 } }) .D
          (sample 1 [1, 0x01, 0xF3, 0x07, 0xD0, 0]) .beltSample
      ∧ (segment 0 600000).arrival ≤ addBelt 39000 1000 ∧ addBelt 39000 1000 < (segment 1 400000).arrival :=
  ⟨by decide, by decide, held_of (by decide), held_of (by decide), by decide, by decide⟩

/-- Two segments in flight and a quota of 1 kg. -/
def smallQuota (st : VisitState) : State :=
  { flying st with seq := { (flying st).seq with visit := some { visit st with quota := 1 } } }

/-- An increment with the visit POURING and PAUSED, no projection met and QUOTA met. -/
theorem witness_IncrementTakesOnePath_projection :
    Held (metering 1000 (flying .paused)) .D belt .beltSample ∧ projection (flying .paused) (visit .paused) = none
      ∧ Held (metering 1000 (smallQuota .pouring)) .D belt .beltSample
      ∧ projection (smallQuota .pouring) { visit .pouring with quota := 1 } = some .quota
      ∧ (smallQuota .pouring).gate.injFeeder = none ∧ (smallQuota .pouring).line.d.lineFault = false
      ∧ (smallQuota .pouring).station .feeder = some 2
      ∧ Held (metering 1000 (smallQuota .paused)) .D belt .beltSample ∧ 0 < (smallQuota .paused).flight.total :=
  ⟨held_of (by decide), by decide, held_of (by decide), by decide, by decide, by decide, by decide, held_of (by decide),
    by decide⟩

/-- A sample of no increment. -/
def thin : Frame := sample 1 [1, 0x01, 0xF3, 0x07, 0xD0, 0]

/-- The belt stands at a position, 1,000 mm before the next sample. -/
def beltAt (b : Nat) (s : State) : State := { s with meter := { s.meter with prev := some (1000, 8), belt := b } }

/-- The two segments in flight, the first of no ship or COARSE. -/
def firstSegment (g : Segment) (s : State) : State :=
  { s with flight := { s.flight with segments := [g, segment 1 400000] } }

/-- Deliveries with a visit POURING, PAUSED (QUOTA met then and not) and WAITING, of no ship, COARSE, to another hold, to
UNPLACED with no visit; and one that empties the queue with a visit DRAINING, and with a held move. -/
theorem witness_DeliveryFromTheHead_more :
    Held (beltAt 39000 (flying .pouring)) .D thin .beltSample ∧ Held (beltAt 39000 (smallQuota .pouring)) .D thin .beltSample
      ∧ Held (beltAt 39000 (smallQuota .paused)) .D thin .beltSample ∧ Held (beltAt 39000 (flying .waiting)) .D thin .beltSample
      ∧ Held (beltAt 39000 (firstSegment { segment 0 600000 with shipTag := 0 } (flying .pouring))) .D thin .beltSample
      ∧ Held (beltAt 39000 (firstSegment { segment 0 600000 with coarse := true } (flying .pouring))) .D thin .beltSample
      ∧ Held (beltAt 39000 { flying .paused with place := { (flying .paused).place with pourPoint := 1 } }) .D thin .beltSample
      ∧ holdAccount (visit .paused).hold ≠ 1
      ∧ Held (beltAt 39000 { flying .waiting with
            seq := planned.seq, place := { planned.place with pourPoint := unplaced } }) .D thin .beltSample
      ∧ planned.seq.visit = none ∧ Held (beltAt 39100 (flying .draining)) .D thin .beltSample
      ∧ (segment 1 400000).arrival ≤ addBelt 39100 1000 ∧ (flying .draining).meter.zero = none
      ∧ Held (beltAt 39100 { flying .waiting with
            place := { planned.place with held := some ⟨.gantry, 0, order 3 [4, 0, 0, 0, 0, 0]⟩ } }) .D thin .beltSample
      ∧ (flying .waiting).gate.feeder ≠ .running ∧ ∀ g ∈ (flying .waiting).flight.segments, 0 < g.mass :=
  ⟨held_of (by decide), held_of (by decide), held_of (by decide), held_of (by decide), held_of (by decide),
    held_of (by decide), held_of (by decide), by decide, held_of (by decide), by decide, held_of (by decide), by decide,
    by decide, held_of (by decide), by decide, by decide⟩

/-- 64 segments in flight. -/
def crowded (st : VisitState) : State :=
  { flying st with flight := { segments := (List.range 64).map fun n => segment n 1000, nextNumber := 64 } }

/-- The steady pour: a sample brings an increment that opens a segment and delivers the first; one that delivers both and
meets QUOTA; one whose increment is merged into a full queue, and one that empties that queue too. -/
theorem witness_DeliveryFromTheHead_increment :
    Held (beltAt 39000 (flying .pouring)) .D belt .beltSample ∧ Held (beltAt 39100 (smallQuota .paused)) .D belt .beltSample
      ∧ Held (beltAt 39000 (crowded .pouring)) .D belt .beltSample ∧ Held (beltAt 46000 (crowded .draining)) .D belt .beltSample
      ∧ (∀ g ∈ (crowded .draining).flight.segments, 0 < g.mass ∧ g.arrival ≤ addBelt 46000 1000)
      ∧ (crowded .draining).flight.segments.length = 64 :=
  ⟨held_of (by decide), held_of (by decide), held_of (by decide +kernel), held_of (by decide +kernel), by decide +kernel,
    by decide +kernel⟩

/-- R13: the increment first, then the delivery. -/
theorem test_steady_pour :
    (match exec .beltSample (holding .D belt (beltAt 39000 (flying .pouring))) with
      | .next t => decide (t.flight.segments = [segment 1 400000,
              { segment 2 1000000 with opened := 40000, arrival := 80000 }]
          ∧ t.seq.visit.map (·.poured) = some 600000 ∧ t.ship.accounts[(0 : Account)] = 600000)
      | _ => false) = true := by decide +kernel

/-- A sample that sets METER FAULT and delivers, no projection met. -/
theorem witness_DeliveryFromTheHead_fault :
    Held (beltAt 39000 (flying .pouring)) .D beltFault .beltSample ∧ (flying .pouring).meter.fault = false
      ∧ projection (flying .pouring) (visit .pouring) = none := ⟨held_of (by decide), by decide, by decide⟩

/-- R15, R84: the delivery is booked, then the visit takes the trigger. -/
theorem test_meterFault_after_delivery :
    leads .beltSample (holding .D beltFault (beltAt 39000 (flying .pouring))) (fun t =>
      decide (t.flight.segments = [segment 1 400000] ∧ ending t = some (.closing, some .meterFault)
        ∧ t.ladder.sources[srcMeterFault] = ((Ladder.reset.sources[srcMeterFault]).withCond true).raised)) = true := by
  decide +kernel

theorem witness_StrayBeltSampleForwarded :
    Held part .D (sample 9 [1, 0, 0, 0, 0, 0]) .beltSample ∧ part.station .scale ≠ some 9 :=
  ⟨held_of (by decide), by decide⟩

/-- A stray sample of each other device. -/
theorem witness_StrayBeltSampleForwarded_others :
    Held part .D (sample 9 [2, 1, 0, 0, 0, 9, 0]) .positionSample
      ∧ parseSample (sample 9 [2, 1, 0, 0, 0, 9, 0]).payload = some (.position .shuttle 9 .still)
      ∧ part.station Axis.shuttle.role ≠ some 9 ∧ Held part .D (sample 9 [3, 2]) .holdsenseSample
      ∧ part.station .holdsense ≠ some 9 ∧ Held part .D (sample 9 [4, 0, 9, 0]) .dustSample
      ∧ (∀ i : SensorNo, part.station (.dust i) ≠ some 9) ∧ Held part .D (sample 9 [5, 1]) .feederSample
      ∧ part.station .feeder ≠ some 9
      ∧ Held (dustyWith (Sensor.fresh (some { dustEntry with enabled := false }))) .D (sample 7 [4, 0, 9, 0]) .dustSample :=
  ⟨held_of (by decide), by decide, by decide, held_of (by decide), by decide, held_of (by decide), by decide,
    held_of (by decide), by decide, held_of (by decide)⟩

/-! ## Witnesses: placement, dust, feeder, replies -/

theorem witness_PlacementSamplesTaken :
    Held part .D (sample 5 [2, 2, 0, 0, 0, 9, 0]) .positionSample
      ∧ parseSample (sample 5 [2, 2, 0, 0, 0, 9, 0]).payload = some (.position .chute 9 .still)
      ∧ part.station Axis.chute.role = some 5 ∧ Held part .D (sample 6 [3, 2]) .holdsenseSample
      ∧ parseSample (sample 6 [3, 2]).payload = some (.holdsense .fault) ∧ part.station .holdsense = some 6 :=
  ⟨held_of (by decide), by decide, by decide, held_of (by decide), by decide, by decide⟩

/-- The spout at hold 1 or just outside it, with a placement state and a visit. -/
def spout (p : PlaceState) (gantry : Nat) (s : State) : State :=
  { s with place := { planned.place with
      state := p, sense := some .floor, travel := { TravelTable.reset with leaveCount := 1 },
      axes := { gantry := ⟨some gantry, some .still⟩, shuttle := ⟨some 5000, some .still⟩, chute := AxisState.reset } } }

/-- A POSITION sample of the gantry at 5,000 mm, inside hold 1, and at 15,000 mm, outside. -/
def inHold : Frame := sample 3 [2, 0, 0, 0, 0x13, 0x88, 0]
def outside : Frame := sample 3 [2, 0, 0, 0, 0x3A, 0x98, 0]

/-- The spout comes to the hold of a WAITING visit, stays there, and leaves it in each visit state. -/
theorem witness_PlacementSamplesTaken_passage :
    Held (spout (.settling 0 7) 5000 (visiting .waiting)) .D inHold .positionSample
      ∧ parseSample inHold.payload = some (.position .gantry 5000 .still)
      ∧ nextPlace TravelTable.reset (.settling 0 7) (candidate (spout (.settling 0 7) 5000 (visiting .waiting)).place)
          = .placed 0
      ∧ Held (spout (.placed 0) 5000 (visiting .armed)) .D outside .positionSample
      ∧ parseSample outside.payload = some (.position .gantry 15000 .still)
      ∧ nextPlace { TravelTable.reset with leaveCount := 1 } (.placed 0)
          (candidate { (spout (.placed 0) 5000 (visiting .armed)).place with
            axes := { gantry := ⟨some 15000, some .still⟩, shuttle := ⟨some 5000, some .still⟩, chute := AxisState.reset } })
          = .clear
      ∧ Held (spout (.placed 0) 5000 (flying .paused)) .D outside .positionSample ∧ 0 < (flying .paused).flight.total
      ∧ Held (spout (.placed 0) 5000 (visiting .pouring)) .D outside .positionSample
      ∧ (visiting .pouring).gate.injFeeder = none ∧ (visiting .pouring).line.d.lineFault = false
      ∧ (visiting .pouring).station .feeder ≠ none
      ∧ Held (spout (.placed 0) 5000 (flying .closing)) .D outside .positionSample :=
  ⟨held_of (by decide), by decide, by decide, held_of (by decide), by decide, by decide, held_of (by decide), by decide,
    held_of (by decide), by decide, by decide, by decide, held_of (by decide)⟩

/-- A sweep is cancelled, waits on, ends and takes its next step. -/
theorem witness_PlacementSamplesTaken_sweep :
    Held (setSweep (some (sweepAt false 2)) (spout (.placed 0) 5000 planned)) .D outside .positionSample
      ∧ Held (setSweep (some (sweepAt false 2)) (spout (.placed 0) 5000 planned)) .D inHold .positionSample
      ∧ (5000 ≤ (sweepAt false 2).target + 50 ∧ (sweepAt false 2).target ≤ 5000 + 50)
      ∧ (sweepAt true 2).clipped = true ∧ (sweepAt false 1).remaining ≤ 1 ∧ pourPhase planned = false
      ∧ planned.place.envelopes[(0 : Hold)] = some (envelope 0) ∧ planned.gate.entry (.drive .gantry) = none
      ∧ planned.line.d.lineFault = false ∧ planned.station Axis.gantry.role = some 3
      ∧ max ((envelope 0).innerLow .gantry) (planned.place.travel.limits .gantry).low
          ≤ min ((envelope 0).innerHigh .gantry) (planned.place.travel.limits .gantry).high
      ∧ Held (setSweep (some (sweepAt false 2)) (spout (.placed 0) 5000 planned)) .D (sample 6 [3, 0]) .holdsenseSample :=
  ⟨held_of (by decide), held_of (by decide), by decide, by decide, by decide, by decide, by decide, by decide, by decide,
    by decide, by decide, held_of (by decide)⟩

theorem witness_PlacementStates :
    (1 : Hold) ≠ 0 ∧ 1 < TravelTable.reset.settleCount ∧ 1 < TravelTable.reset.leaveCount := by decide

theorem witness_DustSampleTaken :
    Held dusty .D (sample 7 [4, 1, 0x2C, 0]) .dustSample
      ∧ parseSample (sample 7 [4, 1, 0x2C, 0]).payload = some (.dust 300 true) ∧ dusty.sensorAt 7 = some 0
      ∧ (dusty.dust.sensors[(0 : SensorNo)]).entry = some dustEntry
      ∧ parseSample (sample 7 [4, 1, 0x2B, 1]).payload = some (.dust 299 false) :=
  ⟨held_of (by decide), by decide, by decide, by decide, by decide⟩

/-- Sensor 1 with its latch set and its average low, its source STANDING or IN_SERVICE. -/
def latched (st : AlarmState) : State :=
  { dustyWith { Sensor.fresh (some dustEntry) with latch := true } with
    ladder := { Ladder.reset with
      sources := Ladder.reset.sources.set 2 { Source.reset 2 with state := st, cond := true }
      stack := if st = .inService then [2] else [] } }

/-- A latch released and not; a reading that sets it; one that moves the band to HIGH; a head FAULT. -/
theorem witness_DustSampleTaken_latch :
    Held (latched .standing) .D (sample 7 [4, 0, 0, 0]) .dustSample
      ∧ ((latched .standing).ladder.sources[srcDustTrip 0]).state = .standing
      ∧ (0 + (16 * 0 - 0) / (2 ^ 3 : Nat) : Int) / 16 < (dustEntry.high : Int) - dustEntry.hysteresis
      ∧ Held (latched .inService) .D (sample 7 [4, 0, 0, 0]) .dustSample
      ∧ ((latched .inService).ladder.sources[srcDustTrip 0]).state = .inService
      ∧ Held dusty .D (sample 7 [4, 0xFF, 0xFF, 0]) .dustSample
      ∧ nextAvgBand dustEntry .normal (nextA16 0 65535 3 / 16) = .high ∧ min (1 + 1) dustEntry.tripRun = dustEntry.tripRun
      ∧ Held dusty .D (sample 7 [4, 0, 0, 1]) .dustSample ∧ (dusty.dust.sensors[(0 : SensorNo)]).silent = false :=
  ⟨held_of (by decide), by decide, by decide, held_of (by decide), by decide, held_of (by decide), by decide, by decide,
    held_of (by decide), by decide⟩

/-- Sensor 1 one reading from TRIP. -/
def tripping (s : State) : State := setSensor 0 { Sensor.fresh (some dustEntry) with run := 1 } s

/-- TRIP with a visit POURING, a derate due and not, and HIGH with a derate due. -/
theorem witness_DustSampleTaken_bands :
    Held (tripping (visiting .pouring)) .D (sample 7 [4, 1, 0x2C, 0]) .dustSample
      ∧ (tripping (visiting .pouring)).seq.visit = some (visit .pouring)
      ∧ Held (tripping (overspeed .pouring)) .D (sample 7 [4, 1, 0x2C, 0]) .dustSample
      ∧ Held (tripping (overspeed .pouring)) .D (sample 7 [4, 0xFF, 0xFF, 1]) .dustSample
      ∧ (tripping (overspeed .pouring)).dust.overall = .normal :=
  ⟨held_of (by decide), by decide, held_of (by decide), held_of (by decide), by decide⟩

/-- R84, R102, R105: TRIP closes the visit out, and where its limit of 0 first injects a RATE, the close-out is not
issued. -/
theorem test_trip_meets_the_derate :
    leads .dustSample (holding .D (sample 7 [4, 1, 0x2C, 0]) (tripping (visiting .pouring))) (fun t =>
      decide (ending t = some (.closing, some .dustTrip) ∧ t.gate.rateLimit = 0)) = true
      ∧ leads .dustSample (holding .D (sample 7 [4, 1, 0x2C, 0])
          { tripping (overspeed .pouring) with flight := (flying .pouring).flight }) (fun t =>
        decide (ending t = some (.draining, some .dustTrip) ∧ t.gate.lastRate = some 0 ∧ t.gate.injFeeder = none)) = true := by
  decide +kernel

theorem witness_GateLoaded_sensor :
    Held dusty .U (request [1, 9, 1, 2, 1, 0, 0]) .load ∧ loadHeaderFails [9, 1, 2, 1, 0, 0] = false
      ∧ (parseLoad [1, 9, 1, 2, 1, 0, 0]).map (·.merged dusty)
          = some [some 0, some 100, some 200, some 300, some 50, some 3, some 2, some 2000, some 0]
      ∧ (parseLoad [1, 9, 1, 2, 0, 128, 0, 200]).map (·.merged dusty)
          = some [some 0, some 100, some 200, some 300, some 50, some 3, some 2, some 200, some 1]
      ∧ Held dusty .U (request [1, 9, 1, 2, 0, 128, 0, 200]) .load
      ∧ Held (dustyWith (Sensor.fresh (some { dustEntry with enabled := false }))) .U (request [1, 9, 1, 2, 1, 0, 1]) .load
      ∧ Held (dustyWith { Sensor.fresh (some dustEntry) with latch := true }) .U (request [1, 9, 1, 2, 1, 0, 0]) .load :=
  ⟨held_of (by decide), by decide, by decide, by decide, held_of (by decide), held_of (by decide), held_of (by decide)⟩

theorem witness_FeederSampleTaken :
    Held (visiting .pouring) .D (sample 2 [5, 2]) .feederSample
      ∧ parseSample (sample 2 [5, 2]).payload = some (.feeder .fault) ∧ (visiting .pouring).station .feeder = some 2
      ∧ (visiting .pouring).seq.visit = some (visit .pouring) ∧ FeederState.fault ≠ (visiting .pouring).gate.feeder :=
  ⟨held_of (by decide), by decide, by decide, rfl, by decide⟩

/-- The feeder starts with the visit PAUSED, ARMED and WAITING; with a derate that is due and each state of the FEEDER
entry; and stops with a move held, outside pour phase and within it. -/
theorem witness_FeederSampleTaken_running :
    Held (visiting .paused) .D (sample 2 [5, 1]) .feederSample ∧ projection (visiting .paused) (visit .paused) = none
      ∧ (visiting .paused).gate.lastRate = none ∧ Held (visiting .armed) .D (sample 2 [5, 1]) .feederSample
      ∧ (visiting .armed).gate.injFeeder = none ∧ Held (visiting .waiting) .D (sample 2 [5, 1]) .feederSample
      ∧ Held (overrate none [] .pouring) .D (sample 2 [5, 1]) .feederSample
      ∧ Held (overrate (some ⟨.rate, 1, 200⟩) [⟨.feeder, order 2 [2, 1, 1]⟩] .pouring) .D (sample 2 [5, 1]) .feederSample
      ∧ Held (overrate (some ⟨.stop, 1, 200⟩) [] .pouring) .D (sample 2 [5, 1]) .feederSample
      ∧ Held { overrate none [] .pouring with line := { Line.reset with d := { Port.reset with tally := 2, lineFault := true } } } .D
          (sample 2 [5, 1]) .feederSample
      ∧ Held { part with place := { part.place with held := some ⟨.gantry, 0, order 3 [4, 0, 0, 0, 0, 0]⟩ } } .D
          (sample 2 [5, 0]) .feederSample
      ∧ pourPhase part = false ∧ FeederState.stopped ≠ part.gate.feeder
      ∧ Held { visiting .pouring with place := { part.place with held := some ⟨.gantry, 0, order 3 [4, 0, 0, 0, 0, 0]⟩ } } .D
          (sample 2 [5, 0]) .feederSample ∧ pourPhase (visiting .pouring) = true :=
  ⟨held_of (by decide), by decide, by decide, held_of (by decide), by decide, held_of (by decide), held_of (by decide),
    held_of (by decide), held_of (by decide), held_of (by decide), held_of (by decide), by decide, by decide,
    held_of (by decide), by decide⟩

/-- A visit CLOSING that waits for the reply to its close-out STOP. -/
def awaitingStop : State :=
  { flying .closing with gate := { planned.gate with injFeeder := some { order := .stop, seq := 9, deadline := 200 } } }

theorem witness_CloseOutReplied :
    Held awaitingStop .D (replied 2 62 [3, 0, 0]) .reply ∧ awaitingStop.ready = true
      ∧ parseReply (replied 2 62 [3, 0, 0]).payload = some ⟨3, true, 0⟩
      ∧ parseReply (replied 2 62 [3, 1, 0]).payload = some ⟨3, false, 0⟩ ∧ awaitingStop.station .feeder = some 2
      ∧ awaitingStop.gate.injFeeder = some { order := .stop, seq := 9, deadline := 200 } ∧ 0 < awaitingStop.flight.total :=
  ⟨held_of (by decide), by decide, by decide, by decide, by decide, by decide, by decide⟩

/-- The same with nothing in flight, the plan ACTIVE or SUSPENDED. -/
def lastReply (p : PlanState) : State :=
  { visiting .closing with
    seq := { (visiting .closing).seq with plan := p }
    gate := { planned.gate with injFeeder := some { order := .stop, seq := 9, deadline := 200 } } }

theorem witness_CloseOutReplied_completion :
    Held (lastReply .suspended) .D (replied 2 62 [3, 0, 0]) .reply ∧ (lastReply .suspended).flight.total = 0
      ∧ Held (lastReply .active) .D (replied 2 62 [3, 1, 0]) .reply ∧ (lastReply .active).seq.header = some header
      ∧ (lastReply .active).seq.cursor + 1 < header.slotCount ∧ (lastReply .active).seq.round ≤ header.roundLimit
      ∧ pouredTotal (lastReply .active) < 50 * 1000000 ∧ slotIndex (lastReply .active).seq header.slotCount 1 = 1
      ∧ (lastReply .active).seq.slots[(1 : Fin 16)] = some ⟨1, 20⟩ ∧ reachesTarget (lastReply .active) 1 = false
      ∧ (lastReply .active).seq.holdStates[(1 : Hold)] ≠ .full ∧ trimMoment (lastReply .active) = 0 :=
  ⟨held_of (by decide), by decide, held_of (by decide), by decide, by decide, by decide, by decide, by decide, by decide,
    by decide, by decide, by decide⟩

/-- The reply says RUNNING, FAULT, or no feeder state. -/
theorem witness_CloseOutReplied_device :
    Held awaitingStop .D (replied 2 62 [3, 0, 2]) .reply ∧ Held (lastReply .active) .D (replied 2 62 [3, 0, 1]) .reply
      ∧ Held (lastReply .suspended) .D (replied 2 62 [3, 1, 7]) .reply
      ∧ parseReply (replied 2 62 [3, 1, 7]).payload = some ⟨3, false, 7⟩ :=
  ⟨held_of (by decide), held_of (by decide), held_of (by decide), by decide⟩

theorem witness_OtherReplies :
    Held State.reset .D (replied 2 62 [3, 0, 0]) .reply ∧ State.reset.ready = false
      ∧ Held part .D (replied 3 62 [4, 0, 0]) .reply ∧ part.destAt 3 = some (.drive .gantry)
      ∧ part.gate.entry (.drive .gantry) = none ∧ Held part .D (replied 3 0 [4, 0, 1]) .reply :=
  ⟨held_of (by decide), by decide, held_of (by decide), by decide, by decide, held_of (by decide)⟩

/-- A sweep's MOVE that awaits its reply. -/
def stepping : State :=
  { setSweep (some { sweepAt false 2 with phase := .awaitingReply }) placed with
    gate := { placed.gate with injGantry := some ⟨.move, 9, 200⟩ } }

/-- The feeder is known to run, after the rate 16,000, with a frame in the FEEDER entry. -/
def runningAt (limit : Nat) (o : InjOrder) (st : VisitState) : State :=
  { visiting st with gate := { planned.gate with
      feeder := .running, rateLimit := limit, lastRate := some 16000, injFeeder := some ⟨o, 9, 200⟩ } }

/-- The replies of a sweep's drive, DONE and FAILED, and one observed; the replies of the feeder, observed, to no entry
and to an injected RATE, a derate due and not, in LINE FAULT too, and to the STOP of a stray start. -/
theorem witness_OtherReplies_outcomes :
    Held stepping .D (replied 3 62 [4, 0, 0]) .reply ∧ Held stepping .D (replied 3 62 [4, 1, 0]) .reply
      ∧ parseReply (replied 3 62 [4, 1, 0]).payload = some ⟨4, false, 0⟩ ∧ stepping.destAt 3 = some (.drive .gantry)
      ∧ stepping.gate.entry (.drive .gantry) = some ⟨.move, 9, 200⟩ ∧ part.axisAt 3 = some .gantry
      ∧ Held (visiting .pouring) .D (replied 2 0 [1, 1, 0]) .reply ∧ Held (visiting .paused) .D (replied 2 62 [1, 0, 1]) .reply
      ∧ parseReply (replied 2 62 [1, 0, 1]).payload = some ⟨1, true, FeederState.running.code⟩
      ∧ (visiting .paused).gate.injFeeder = none ∧ FeederState.running ≠ (visiting .paused).gate.feeder
      ∧ projection (visiting .paused) (visit .paused) = none ∧ (visiting .paused).gate.lastRate = none
      ∧ Held (runningAt 9600 .rate .pouring) .D (replied 2 62 [2, 1, 1]) .reply
      ∧ Held (runningAt 16000 .rate .pouring) .D (replied 2 62 [2, 0, 1]) .reply
      ∧ Held { runningAt 9600 .rate .pouring with
            line := { Line.reset with d := { Port.reset with tally := 2, lineFault := true } } } .D
          (replied 2 62 [2, 0, 1]) .reply
      ∧ Held (runningAt 16000 .stop .armed) .D (replied 2 62 [3, 0, 0]) .reply
      ∧ (runningAt 16000 .stop .armed).visitState ≠ some .closing :=
  ⟨held_of (by decide), held_of (by decide), by decide, by decide, by decide, by decide, held_of (by decide),
    held_of (by decide), by decide, by decide, by decide, by decide, by decide, held_of (by decide), held_of (by decide),
    held_of (by decide), held_of (by decide), by decide⟩

/-! ## Witnesses: orders -/

theorem witness_RunForwarded :
    Held (visiting .armed) .U (order 2 [1, 0x3E, 0x81]) .run ∧ parseOrder (order 2 [1, 0x3E, 0x81]).payload = .run 16001
      ∧ (visiting .armed).seq.plan = .active ∧ (visiting .armed).dust.overall ≠ .trip
      ∧ (visiting .armed).bills.records.length + (visiting .armed).bills.reserved < 256
      ∧ projection (visiting .armed) (visit .armed) = none ∧ (visiting .armed).seq.header = some header
      ∧ Held (visiting .paused) .U (order 2 [1, 0x3E, 0x80]) .run ∧ (visit .paused).reserved = true
      ∧ projection (visiting .paused) (visit .paused) = none :=
  ⟨held_of (by decide), by decide, by decide, by decide, by decide, by decide, by decide, held_of (by decide), by decide,
    by decide⟩

/-- A RUN to a POURING visit, at a full queue, and to an ARMED visit that meets QUOTA. -/
theorem witness_RunForwarded_more :
    Held (visiting .pouring) .U (order 2 [1, 0x3E, 0x81]) .run ∧ (visit .pouring).reserved = true
      ∧ Held (full .D (visiting .armed)) .U (order 2 [1, 0, 9]) .run
      ∧ 8 ≤ (full .D (visiting .armed)).line.d.txQueue.length
      ∧ Held (smallQuota .armed) .U (order 2 [1, 0, 9]) .run
      ∧ projection (smallQuota .armed) { visit .armed with quota := 1 } = some .quota
      ∧ (smallQuota .armed).gate.injFeeder = none ∧ (smallQuota .armed).station .feeder = some 2 :=
  ⟨held_of (by decide), by decide, held_of (by decide), by decide, held_of (by decide), by decide, by decide, by decide⟩

/-- A plan's targets, with the trim moment at hold 1's arm of 100 dm, where each projection is the first that is met. -/
def aiming (trimLimit : Nat) (ship target : Option Nat) : State :=
  { flying .pouring with seq := { (flying .pouring).seq with
      header := some { header with trimLimit := trimLimit, shipTarget := ship }
      holds := (flying .pouring).seq.holds.set 0 (some ⟨100, target⟩) } }

theorem witness_RunForwarded_projections :
    projection (smallQuota .pouring) { visit .pouring with quota := 1 } = some .quota
      ∧ projection (aiming 1 (some 1) (some 1)) (visit .pouring) = some .holdTarget
      ∧ projection (aiming 1 (some 1) none) (visit .pouring) = some .trim
      ∧ projection (aiming 1000000 (some 1) none) (visit .pouring) = some .shipTarget
      ∧ projection (aiming 1000000 none none) (visit .pouring) = none ∧ armOf (aiming 1 none none) 2 = 0 := by decide

theorem witness_RunRefused :
    Held State.reset .U (order 2 [1, 0, 9]) .run ∧ Held planned .U (order 2 [1, 0, 9]) .run ∧ planned.seq.plan ≠ .active
      ∧ Held (visiting .draining) .U (order 2 [1, 0, 9]) .run ∧ (visiting .draining).visitState = some .draining
      ∧ Held (visiting .waiting) .U (order 2 [1, 0, 9]) .run ∧ (visiting .waiting).visitState = some .waiting
      ∧ Held (setStopPin true (visiting .armed)) .U (order 2 [1, 0, 9]) .run
      ∧ Held { visiting .armed with bills := { BillStore.reset with reserved := 256 } } .U (order 2 [1, 0, 9]) .run
      ∧ (visit .armed).reserved = false :=
  ⟨held_of (by decide), held_of (by decide), by decide, held_of (by decide), by decide, held_of (by decide), by decide,
    held_of (by decide), held_of (by decide), by decide⟩

theorem witness_RateGated :
    Held (visiting .pouring) .U (order 2 [2, 0, 9]) .rate ∧ parseOrder (order 2 [2, 0, 9]).payload = .rate 9
      ∧ Held (visiting .closing) .U (order 2 [2, 0, 9]) .rate ∧ Held part .U (order 2 [2, 0, 9]) .rate
      ∧ part.visitState = none :=
  ⟨held_of (by decide), by decide, held_of (by decide), held_of (by decide), by decide⟩

theorem witness_RateGated_full :
    Held (full .D (visiting .pouring)) .U (order 2 [2, 0, 9]) .rate
      ∧ (full .D (visiting .pouring)).visitState = some .pouring
      ∧ 8 ≤ (full .D (visiting .pouring)).line.d.txQueue.length :=
  ⟨held_of (by decide), by decide, by decide⟩

theorem witness_StopForwarded :
    Held (visiting .pouring) .U (order 63 [3]) .stop ∧ (visiting .pouring).line.d.txQueue.length < 8
      ∧ Held { part with line := { Line.reset with d := { Port.reset with txQueue := List.replicate 8 (order 9 [1]) } } } .U
          (order 2 [3]) .stop :=
  ⟨held_of (by decide), by decide, held_of (by decide)⟩

theorem witness_MoveForwarded :
    Held part .U (order 5 [4, 2, 0, 0, 0x4E, 0x21]) .move ∧ part.axisAt 5 = some .chute
      ∧ parseOrder (order 5 [4, 2, 0, 0, 0x4E, 0x21]).payload = .move Axis.chute.code 20001
      ∧ (part.place.travel.limits .chute).high = 20000 ∧ Held part .U (order 3 [4, 0, 0, 0, 0, 0]) .move
      ∧ pourPhase part = false ∧ Held part .U (order 3 [4, 1, 0, 0, 0, 0]) .move ∧ (1 : Byte) ≠ Axis.gantry.code :=
  ⟨held_of (by decide), by decide, by decide, by decide, held_of (by decide), by decide, held_of (by decide), by decide⟩

theorem witness_MoveForwarded_busy :
    Held (full .D part) .U (order 3 [4, 0, 0, 0, 0, 0]) .move ∧ 8 ≤ (full .D part).line.d.txQueue.length
      ∧ Held part .U (order 3 [4, 255, 0, 0, 0, 0]) .move ∧ (255 : Byte) ≠ Axis.gantry.code
      ∧ Held (setSweep (some (sweepAt false 2)) planned) .U (order 4 [4, 1, 0, 0, 0, 0]) .move :=
  ⟨held_of (by decide), by decide, held_of (by decide), by decide, held_of (by decide)⟩

theorem witness_LeavingMoveHeldOrRefused :
    Held (visiting .pouring) .U (order 3 [4, 0, 0, 0, 0x75, 0x30]) .move
      ∧ (visiting .pouring).axisAt 3 = some (axisOf .gantry)
      ∧ parseOrder (order 3 [4, 0, 0, 0, 0x75, 0x30]).payload = .move (axisOf .gantry).code 30000
      ∧ pourPhase (visiting .pouring) = true ∧ trimming (visiting .pouring) .gantry 30000 = false
      ∧ (visiting .pouring).handler.holdMoves = true ∧ (visiting .pouring).place.sweep = none :=
  ⟨held_of (by decide), by decide, by decide, by decide, by decide, by decide, by decide⟩

/-- In pour phase with the shuttle's position known and a move held. -/
def trimmed : State :=
  { spout (.placed 0) 5000 (visiting .pouring) with
    place := { (spout (.placed 0) 5000 (visiting .pouring)).place with
      held := some ⟨.gantry, 30000, order 3 [4, 0, 0, 0, 0x75, 0x30]⟩ } }

/-- A held move is replaced; a move with a sweep; the trimming move at both ends of the inner rectangle, and at a full
queue. -/
theorem witness_LeavingMoveHeldOrRefused_trimming :
    Held trimmed .U (order 3 [4, 0, 0, 0, 0x75, 0x30]) .move ∧ trimming trimmed .gantry 30000 = false
      ∧ trimmed.line.u.txQueue.length < 7
      ∧ Held (setSweep (some (sweepAt false 2)) trimmed) .U (order 3 [4, 0, 0, 0, 0x75, 0x30]) .move
      ∧ trimming (setSweep (some (sweepAt false 2)) trimmed) .gantry 30000 = false
      ∧ Held trimmed .U (order 3 [4, 0, 0, 0, 0, 100]) .move ∧ trimming trimmed .gantry 100 = true
      ∧ trimming trimmed .gantry 9900 = true ∧ trimming trimmed .gantry 9901 = false
      ∧ Held (full .D trimmed) .U (order 3 [4, 0, 0, 0, 0, 100]) .move ∧ trimming (full .D trimmed) .gantry 100 = true
      ∧ Held { trimmed with handler := { trimmed.handler with holdMoves := false } } .U
          (order 3 [4, 0, 0, 0, 0x75, 0x30]) .move :=
  ⟨held_of (by decide), by decide, by decide, held_of (by decide), by decide, held_of (by decide), by decide, by decide,
    by decide, held_of (by decide), by decide, held_of (by decide)⟩

theorem witness_HaltForwarded :
    Held part .U (order 4 [5, 1]) .halt ∧ part.axisAt 4 = some .shuttle
      ∧ parseOrder (order 4 [5, 1]).payload = .halt Axis.shuttle.code :=
  ⟨held_of (by decide), by decide, by decide⟩

theorem witness_HaltForwarded_refused :
    Held (full .D part) .U (order 4 [5, 1]) .halt ∧ 8 ≤ (full .D part).line.d.txQueue.length
      ∧ Held part .U (order 4 [5, 0]) .halt ∧ parseOrder (order 4 [5, 0]).payload = .halt 0
      ∧ (0 : Byte) ≠ Axis.shuttle.code ∧ Held part .U (order 4 [5, 255]) .halt :=
  ⟨held_of (by decide), by decide, held_of (by decide), by decide, by decide, held_of (by decide)⟩

/-! ## Witnesses: tables and options -/

theorem witness_GateLoaded :
    Held part .U (request [1, 8, 0, 1, 0, 1, 0, 10]) .load ∧ Held part .U (request [1, 8, 0, 2, 0, 1, 0x07, 0xD0]) .load
      ∧ Held part .U (request [1, 8, 0, 2, 0, 1, 0x07, 0xD1]) .load ∧ Held part .U (request [1, 8, 0, 1, 0, 0]) .load :=
  ⟨held_of (by decide), held_of (by decide), held_of (by decide), held_of (by decide)⟩

/-- A load, with the entry as it would stand. -/
abbrev Loads (s : State) (p : List Byte) (m : List (Option Nat)) : Prop :=
  Held s .U (request (1 :: p)) .load ∧ loadHeaderFails p = false ∧ (parseLoad (1 :: p)).map (·.merged s) = some m
    ∧ (parseLoad (1 :: p)).map (fun l => inRanges (fieldRanges l.table l.entry) l.fields) = some true

theorem loads_of {s : State} {p : List Byte} {m : List (Option Nat)}
    (h : inspect (holding .U (request (1 :: p)) s) .U (request (1 :: p)) = .load) (hf : loadHeaderFails p = false)
    (hm : (parseLoad (1 :: p)).map (·.merged s) = some m)
    (hr : (parseLoad (1 :: p)).map (fun l => inRanges (fieldRanges l.table l.entry) l.fields) = some true) :
    Loads s p m := ⟨held_of h, hf, hm, hr⟩

theorem witness_GateLoaded_header :
    Held part .U (request [1, 12, 1, 1, 0, 0]) .load ∧ loadHeaderFails [12, 1, 1, 0, 0] = true
      ∧ Held part .U (request [1, 1, 14]) .load ∧ loadHeaderFails [1, 14] = true
      ∧ loadHeaderFails [8, 0, 3, 0, 0] = true ∧ loadHeaderFails [8, 0, 2, 0, 2] = true
      ∧ TableId.gate.hasEntry 0 = true ∧ (1 : Nat) < 2 ^ (TableId.gate.widths 0).length
      ∧ Held part .U (request [1, 3, 2, 1, 0, 2, 0, 0, 0x4E, 0x21]) .load
      ∧ (parseLoad [1, 3, 2, 1, 0, 2, 0, 0, 0x4E, 0x21]).map (fun l => inRanges (fieldRanges l.table l.entry) l.fields)
          = some false :=
  ⟨held_of (by decide), by decide, held_of (by decide), by decide, by decide, by decide, by decide, by decide,
    held_of (by decide), by decide⟩

/-- TRAVEL at an axis's whole range and with its ends crossed; the SPOUT entry at its greatest values. -/
theorem witness_GateLoaded_travel :
    Loads part [3, 2, 1, 0, 2, 0, 0, 0x4E, 0x20] [some 0, some 20000]
      ∧ Loads part [3, 0, 2, 0, 3, 0, 0, 0, 2, 0, 0, 0, 1] [some 2, some 1]
      ∧ Loads part [3, 3, 2, 0, 7, 64, 64, 120] [some 64, some 64, some 120] :=
  ⟨loads_of (by decide) (by decide) (by decide) (by decide), loads_of (by decide) (by decide) (by decide) (by decide),
    loads_of (by decide) (by decide) (by decide) (by decide)⟩

/-- ENVELOPES: a field absent; hold 3 apart from the others; hold 3 over hold 1; the visit hold. -/
theorem witness_GateLoaded_envelopes :
    Loads part [4, 3, 1, 0, 1, 0, 0, 0, 0] [some 0, none, none, none, none, none]
      ∧ Loads planned [4, 3, 1, 0, 31, 0, 0, 0x9C, 0x40, 0, 0, 0x9C, 0x40, 0, 0, 0, 0, 0, 0]
          [some 40000, some 40000, some 0, some 0, some 0, none]
      ∧ Loads planned [4, 3, 1, 0, 31, 0, 0, 0, 0, 0, 0, 0x13, 0x88, 0, 0, 0x13, 0x88, 0, 100]
          [some 0, some 5000, some 0, some 5000, some 100, none]
      ∧ Loads (visiting .waiting) [4, 1, 2, 0, 0]
          [some 0, some 10000, some 0, some 20000, some 100, none] :=
  ⟨loads_of (by decide) (by decide) (by decide) (by decide), loads_of (by decide) (by decide) (by decide) (by decide),
    loads_of (by decide) (by decide) (by decide) (by decide), loads_of (by decide) (by decide) (by decide) (by decide)⟩

/-- HOLDS: the arm absent; an arm of -2,000 dm with a target of 1 kg; the visit hold. -/
theorem witness_GateLoaded_holds :
    Loads part [5, 3, 1, 0, 0] [none, none]
      ∧ Loads planned [5, 3, 1, 0, 3, 0xF8, 0x30, 0, 0, 0, 1] [some 63536, some 1]
      ∧ Loads (visiting .armed) [5, 1, 2, 0, 0] [some 100, none] :=
  ⟨loads_of (by decide) (by decide) (by decide) (by decide), loads_of (by decide) (by decide) (by decide) (by decide),
    loads_of (by decide) (by decide) (by decide) (by decide)⟩

/-- SEQUENCE and PLAN: a field absent; an entry while the plan is IDLE; a SET and an AMEND of one while it is ACTIVE. -/
theorem witness_GateLoaded_plan :
    Loads part [6, 0, 1, 0, 1, 1] [some 1, none] ∧ Loads part [6, 15, 1, 0, 3, 12, 0, 0, 0, 1] [some 12, some 1]
      ∧ Loads (visiting .armed) [6, 0, 1, 0, 3, 1, 0, 0, 0, 20] [some 1, some 20]
      ∧ Loads (visiting .armed) [6, 1, 2, 0, 2, 0, 0, 0, 30] [some 2, some 30]
      ∧ Loads part [7, 0, 1, 0, 1, 1] [some 1, none, none, none, none, none, none]
      ∧ Loads part [7, 0, 1, 0, 0x5F, 16, 1, 15, 255, 0, 0, 0, 0, 0, 0, 0, 1, 0xFF, 0xFF]
          [some 16, some 1, some 15, some 255, some 1, none, some 65535]
      ∧ Loads (visiting .armed) [7, 0, 2, 0, 0x40, 0, 1]
          [some 2, some 0, some 0, some 1, some 1000000, some 50, some 1]
      ∧ Loads (visiting .armed) [7, 0, 2, 0, 1, 1] [some 1, some 0, some 0, some 1, some 1000000, some 50, some 16000] :=
  ⟨loads_of (by decide) (by decide) (by decide) (by decide), loads_of (by decide) (by decide) (by decide) (by decide),
    loads_of (by decide) (by decide) (by decide) (by decide), loads_of (by decide) (by decide) (by decide) (by decide),
    loads_of (by decide) (by decide) (by decide) (by decide), loads_of (by decide) (by decide) (by decide) (by decide),
    loads_of (by decide) (by decide) (by decide) (by decide), loads_of (by decide) (by decide) (by decide) (by decide)⟩

/-- DUST and BILLS: derates crossed and equal; a sensor's field absent, its thresholds out of order, loaded fresh,
enabled again, disabled and amended; marks out of order and at their ends. -/
theorem witness_GateLoaded_dust :
    Loads part [9, 0, 2, 0, 1, 24] [some 24, some 25] ∧ Loads part [9, 0, 2, 0, 1, 25] [some 25, some 25]
      ∧ Loads part [9, 1, 1, 0, 1, 0] [some 0, none, none, none, some 50, some 3, some 2, some 2000, some 1]
      ∧ Loads part [9, 1, 1, 0, 15, 0, 0, 2, 0, 1, 0, 3]
          [some 0, some 2, some 1, some 3, some 50, some 3, some 2, some 2000, some 1]
      ∧ Loads part [9, 1, 1, 0, 15, 3, 0, 1, 0, 2, 0, 3]
          [some 3, some 1, some 2, some 3, some 50, some 3, some 2, some 2000, some 1] :=
  ⟨loads_of (by decide) (by decide) (by decide) (by decide), loads_of (by decide) (by decide) (by decide) (by decide),
    loads_of (by decide) (by decide) (by decide) (by decide), loads_of (by decide) (by decide) (by decide) (by decide),
    loads_of (by decide) (by decide) (by decide) (by decide)⟩

theorem witness_GateLoaded_bills :
    Loads part [11, 0, 2, 0, 1, 0, 128] [some 128, some 128, some 192, some 240]
      ∧ Loads part [11, 0, 1, 0, 15, 0, 1, 0, 2, 0, 3, 1, 0] [some 1, some 2, some 3, some 256] :=
  ⟨loads_of (by decide) (by decide) (by decide) (by decide), loads_of (by decide) (by decide) (by decide) (by decide)⟩

/-- An AMEND with an empty mask, on a loaded entry and on one that is not; an AMEND of a sensor whose latch is set, its
source in service and not; ALARM loads of a source at rest, PENDING and IN_SERVICE, changing nothing and something. -/
theorem witness_GateLoaded_amends :
    Loads planned [5, 1, 2, 0, 0] [some 100, none] ∧ entryFields planned .holds 1 = some [some 100, none]
      ∧ Loads planned [5, 3, 2, 0, 0] [none, none] ∧ entryFields planned .holds 3 = none
      ∧ Loads (dustyWith { Sensor.fresh (some dustEntry) with latch := true }) [9, 1, 2, 0, 128, 0, 200]
          [some 0, some 100, some 200, some 300, some 50, some 3, some 2, some 200, some 1]
      ∧ ((dustyWith { Sensor.fresh (some dustEntry) with latch := true }).ladder.sources[srcDustTrip 0]).state = .idle
      ∧ Loads loaded [10, 2, 2, 0, 1, 15] [some 15, some 1, some 1]
      ∧ Loads loaded [10, 11, 1, 0, 2, 0] [some 12, some 0, some 1]
      ∧ Loads loaded [10, 39, 2, 0, 1, 7] [some 7, some 1, some 1]
      ∧ (loaded.ladder.sources[(39 : SourceNo)]).state = .inService ∧ (loaded.ladder.sources[(39 : SourceNo)]).rank ≠ 7
      ∧ Loads loaded [10, 39, 2, 0, 1, 1] [some 1, some 1, some 1] :=
  ⟨loads_of (by decide) (by decide) (by decide) (by decide), by decide,
    loads_of (by decide) (by decide) (by decide) (by decide), by decide,
    loads_of (by decide) (by decide) (by decide) (by decide), by decide,
    loads_of (by decide) (by decide) (by decide) (by decide), loads_of (by decide) (by decide) (by decide) (by decide),
    loads_of (by decide) (by decide) (by decide) (by decide), by decide, by decide,
    loads_of (by decide) (by decide) (by decide) (by decide)⟩

theorem witness_GateLoaded_latched :
    Loads tripped [9, 1, 2, 0, 128, 0, 200]
        [some 0, some 100, some 200, some 300, some 50, some 3, some 2, some 200, some 1]
      ∧ (tripped.ladder.sources[srcDustTrip 0]).state = .inService :=
  ⟨loads_of (by decide) (by decide) (by decide) (by decide), by decide⟩

/-- The limit lowered by a PLAN load and by a DUST load with a derate due; a DUST_TRIP source PENDING that goes to IDLE;
an AMEND of a field and an empty one with the latch set and the average low. -/
theorem witness_GateLoaded_limits :
    Loads (overspeed .pouring) [7, 0, 2, 0, 0x40, 0, 1]
        [some 2, some 0, some 0, some 1, some 1000000, some 50, some 1]
      ∧ Loads { overspeed .pouring with dust := { Dust.reset with overall := .elevated } } [9, 0, 2, 0, 1, 30]
          [some 30, some 25]
      ∧ Loads (latched .pending) [10, 2, 2, 0, 2, 0] [some 14, some 0, some 1]
      ∧ Loads (latched .standing) [9, 1, 2, 0, 0]
          [some 0, some 100, some 200, some 300, some 50, some 3, some 2, some 2000, some 1] :=
  ⟨loads_of (by decide) (by decide) (by decide) (by decide), loads_of (by decide) (by decide) (by decide) (by decide),
    loads_of (by decide) (by decide) (by decide) (by decide), loads_of (by decide) (by decide) (by decide) (by decide)⟩

/-- R117: the release test at an AMEND of a field and at an empty one (log entry 42). -/
theorem test_release_at_load :
    leads .load (holding .U (request [1, 9, 1, 2, 0, 128, 0, 200]) (latched .standing))
        (fun t => !(t.dust.sensors[(0 : SensorNo)]).latch) = true
      ∧ leads .load (holding .U (request [1, 9, 1, 2, 0, 0]) (latched .standing)) (fun t =>
          decide (t.dust.sensors[(0 : SensorNo)] = Sensor.fresh (some dustEntry)
            ∧ (t.ladder.sources[srcDustTrip 0]).state = .idle)) = true := by decide +kernel

/-- An AMEND with an empty mask: of a sensor whose source is IN_SERVICE, and of the visit hold's entry while a visit is
open. -/
theorem witness_GateLoaded_empty :
    Loads (latched .inService) [9, 1, 2, 0, 0]
        [some 0, some 100, some 200, some 300, some 50, some 3, some 2, some 2000, some 1]
      ∧ ((latched .inService).ladder.sources[srcDustTrip 0]).state = .inService
      ∧ Loads (visiting .waiting) [5, 1, 2, 0, 0] [some 100, none] ∧ isVisitHold (visiting .waiting) 1 = true :=
  ⟨loads_of (by decide) (by decide) (by decide) (by decide), by decide,
    loads_of (by decide) (by decide) (by decide) (by decide), by decide⟩

/-- A hold that is FULL. -/
def fullHold (h : Hold) (s : State) : State :=
  { s with seq := { s.seq with holdStates := upd s.seq.holdStates h .full } }

/-- R191: no FULL test at an AMEND of HOLDS with an empty mask (log entry 44), and no BUSY test (log entry 45). -/
theorem test_empty_amend_of_holds :
    leads .load (holding .U (request [1, 5, 1, 2, 0, 0]) (fullHold 0 (visiting .waiting))) (fun t =>
      decide (t.seq = (fullHold 0 (visiting .waiting)).seq
        ∧ t.line.u.sending = some (answerFrame part (request [1, 5, 1, 2, 0, 0]) [1, 0, 0]))) = true := by decide +kernel

/-- A SET load of SCALE with no field, and one of STATIONS for the FEEDER role. -/
theorem witness_TablesLoadedMakeReady :
    Held State.reset .U (request [1, 2, 0, 1, 0, 0]) .load ∧ loadHeaderFails [2, 0, 1, 0, 0] = false
      ∧ ((parseLoad [1, 2, 0, 1, 0, 0]).bind fun l => buildScale (l.merged State.reset)) = some scale
      ∧ Held State.reset .U (request [1, 1, 1, 1, 0, 1, 2]) .load
      ∧ parseLoad [1, 1, 1, 1, 0, 1, 2]
          = some { table := .stations, entry := Role.feeder.index.val, set := true, fields := [some 2] }
      ∧ Held State.reset .U (request [1, 1, 1, 1, 0, 1, 62]) .load ∧ State.reset.gate.anyEntry = false :=
  ⟨held_of (by decide), by decide, by decide, held_of (by decide), by decide, held_of (by decide), by decide⟩

/-- A role removed; the first STATIONS load after a SCALE, with a loaded sensor; an address that is taken. -/
theorem witness_TablesLoadedMakeReady_more :
    Held part .U (request [1, 1, 1, 1, 0, 0]) .load
      ∧ parseLoad [1, 1, 1, 1, 0, 0]
          = some { table := .stations, entry := Role.feeder.index.val, set := true, fields := [none] }
      ∧ part.station .feeder ≠ none ∧ part.place.sweep = none ∧ part.gate.anyEntry = false ∧ pourPhase part = false
      ∧ Held { State.reset with handler := { Handler.reset with scaleMark := true }, meter := part.meter } .U
          (request [1, 1, 0, 1, 0, 1, 1]) .load
      ∧ Held part .U (request [1, 1, 1, 2, 0, 1, 3]) .load ∧ part.station .gantry = some 3 :=
  ⟨held_of (by decide), by decide, by decide, by decide, by decide, by decide, held_of (by decide), held_of (by decide),
    by decide⟩

/-- SCALE's AMEND with an empty mask; both loads in pour phase and while ZEROING, and a STATIONS load while a sweep runs
and while an entry is held; an AMEND of an absent role. -/
theorem witness_TablesLoadedMakeReady_refused :
    Held part .U (request [1, 2, 0, 2, 0, 0]) .load ∧ loadHeaderFails [2, 0, 2, 0, 0] = false
      ∧ (parseLoad [1, 2, 0, 2, 0, 0]).map (·.fields) = some (List.replicate 12 none) ∧ part.meter.table ≠ none
      ∧ Held (visiting .pouring) .U (request [1, 2, 0, 1, 0, 0]) .load ∧ pourPhase (visiting .pouring) = true
      ∧ Held loaded .U (request [1, 2, 0, 1, 0, 0]) .load ∧ loaded.meter.zero ≠ none
      ∧ Held (visiting .pouring) .U (request [1, 1, 1, 1, 0, 1, 9]) .load
      ∧ Held stepping .U (request [1, 1, 1, 1, 0, 1, 9]) .load ∧ stepping.place.sweep ≠ none
      ∧ Held awaitingStop .U (request [1, 1, 1, 1, 0, 1, 9]) .load ∧ some 9 ∉ awaitingStop.stations.toList
      ∧ Held part .U (request [1, 1, 12, 2, 0, 0]) .load ∧ part.station (.dust 6) = none
      ∧ parseLoad [1, 1, 12, 2, 0, 0]
          = some { table := .stations, entry := (Role.dust 6).index.val, set := false, fields := [none] } :=
  ⟨held_of (by decide), by decide, by decide, by decide, held_of (by decide), by decide, held_of (by decide), by decide,
    held_of (by decide), held_of (by decide), by decide, held_of (by decide), by decide, held_of (by decide), by decide,
    by decide⟩

/-- R191: SCALE's AMEND with an empty mask leaves the whole meter, in pour phase too. -/
theorem test_empty_amend_changes_nothing :
    (match exec .load (holding .U (request [1, 2, 0, 2, 0, 0]) (metering 1000 (visiting .pouring))) with
      | .next t => decide (t.meter = (metering 1000 (visiting .pouring)).meter
          ∧ t.line.u.sending = some (answerFrame part (request [1, 2, 0, 2, 0, 0]) [1, 0, 0]))
      | _ => false) = true := by decide +kernel

theorem witness_ReadsChangeNothing :
    Held part .U (request [3, 8]) .status ∧ Held part .U (request [3, 9]) .status ∧ (statusSection part 8).isSome = true
      ∧ Held part .U (request [2, 12, 13]) .read ∧ Held part .U (request [2, 12, 16]) .read
      ∧ Held loaded .U (request [17, 0, 0, 0, 1, 4]) .readRecords ∧ loaded.bills.find 1 = some 0
      ∧ Held loaded .U (request [17, 0, 0, 0, 1, 5]) .readRecords :=
  ⟨held_of (by decide), held_of (by decide), by decide, held_of (by decide), held_of (by decide), held_of (by decide),
    by decide, held_of (by decide)⟩

/-- An entry loaded, one unloaded and none; a whole answer, one cut by its length and one by what is held. -/
theorem witness_ReadsChangeNothing_more :
    Held planned .U (request [2, 5, 1]) .read ∧ entryFields planned .holds 1 = some [some 100, none]
      ∧ Held planned .U (request [2, 5, 12]) .read ∧ entryFields planned .holds 12 = none
      ∧ TableId.fromCode 13 = none ∧ TableId.accounts.hasEntry 0 = false ∧ Held planned .U (request [2, 12, 0]) .read
      ∧ loaded.bills.records = [] ++ [⟨1, .shipOpen 1⟩] ++ [] ∧ ([⟨1, .shipOpen 1⟩] : List Record).length ≤ 4
      ∧ (([⟨1, .shipOpen 1⟩] : List Record).map recordBytes).flatten.length = 7
      ∧ Held loaded .U (request [17, 0, 0, 0, 2, 1]) .readRecords ∧ (∀ r ∈ loaded.bills.records, r.seq.toNat ≠ 2) :=
  ⟨held_of (by decide), by decide, held_of (by decide), by decide, by decide, by decide, held_of (by decide), rfl,
    by decide, by decide, held_of (by decide), by decide⟩

/-- The mask of a sensor's entry and of the derate entry. -/
theorem witness_ReadsChangeNothing_mask :
    Held dusty .U (request [2, 9, 1]) .read ∧ (entryFields dusty .dust 1).map (readMask .dust 1) = some 0x01F0
      ∧ (entryFields dusty .dust 0).map (readMask .dust 0) = some 0
      ∧ (entryFields planned .plan 0).map (readMask .plan 0) = some 0x20
      ∧ (entryFields planned .envelopes 1).map (readMask .envelopes 1) = some 0 :=
  ⟨held_of (by decide), by decide, by decide, by decide, by decide⟩

theorem witness_OptionsSet :
    Held part .U (request [4, 15, 1, 1, 61, 255]) .setOptions ∧ Held part .U (request [4, 4, 0, 0, 7, 0]) .setOptions
      ∧ part.station (.dust 0) = some 7 ∧ Held part .U (request [4, 8, 0, 0, 0, 0]) .setOptions
      ∧ Held part .U (request [4, 16, 0, 0, 0, 0]) .setOptions :=
  ⟨held_of (by decide), held_of (by decide), by decide, held_of (by decide), held_of (by decide)⟩

/-- The threshold lowered to port D's tally, with a visit POURING, and to one above it. -/
theorem witness_OptionsSet_lineFault :
    Held (onPort 3 false (flying .pouring)) .U (request [4, 8, 0, 0, 0, 3]) .setOptions
      ∧ Held (onPort 3 false (flying .pouring)) .U (request [4, 8, 0, 0, 0, 4]) .setOptions
      ∧ (onPort 3 false (flying .pouring)).line.d.tally = 3 := ⟨held_of (by decide), held_of (by decide), by decide⟩

/-! ## Witnesses: the ship and the plan -/

theorem witness_ShipOpened :
    Held part .U (request [5, 0, 1]) .openShip ∧ part.ship.state = .noShip ∧ part.flight.total = 0
      ∧ part.gate.feeder ≠ .running ∧ Held part .U (request [5, 0, 0]) .openShip
      ∧ Held State.reset .U (request [5, 0, 1]) .openShip ∧ Held planned .U (request [5, 0xFF, 0xFF]) .openShip
      ∧ Held { part with bills := { BillStore.reset with reserved := 256 } } .U (request [5, 0, 1]) .openShip :=
  ⟨held_of (by decide), by decide, by decide, by decide, held_of (by decide), held_of (by decide), held_of (by decide),
    held_of (by decide)⟩

theorem witness_ShipClosed :
    Held planned .U (request [6]) .closeShip ∧ planned.ready = true ∧ planned.ship.state = .open
      ∧ planned.ship.number = some 1 ∧ planned.seq.plan ≠ .active ∧ planned.seq.visit = none ∧ planned.flight.total = 0
      ∧ planned.gate.feeder ≠ .running ∧ Held State.reset .U (request [6]) .closeShip ∧ Held part .U (request [6]) .closeShip
      ∧ Held (visiting .armed) .U (request [6]) .closeShip
      ∧ Held { planned with bills := { BillStore.reset with reserved := 256 } } .U (request [6]) .closeShip :=
  ⟨held_of (by decide), by decide, by decide, by decide, by decide, by decide, by decide, by decide, held_of (by decide),
    held_of (by decide), held_of (by decide), held_of (by decide)⟩

theorem witness_PlanStarted :
    Held planned .U (request [7, 3, 1, 1]) .startPlan ∧ planLoaded planned header = true
      ∧ planned.seq.slots[(1 : Fin 16)] = some ⟨1, 20⟩ ∧ (1 : Nat) < header.slotCount
      ∧ (∀ g, header.shipTarget = some g → pouredTotal planned < g * 1000000)
      ∧ planned.seq.holdStates[(1 : Hold)] ≠ .full ∧ trimMoment planned = 0 := by
  refine ⟨held_of (by decide), by decide, by decide, by decide, ?_, by decide, by decide⟩
  intro g h
  have h' : 50 = g := Option.some.inj h
  subst h'
  decide

/-- Each refusal of R70, a slot passed over, every slot passed over and the ship target reached. -/
theorem witness_PlanStarted_more :
    Held State.reset .U (request [7, 0, 0, 0]) .startPlan ∧ Held planned .U (request [7, 4, 0, 0]) .startPlan
      ∧ Held planned .U (request [7, 2, 0, 2]) .startPlan ∧ Held part .U (request [7, 0, 0, 0]) .startPlan
      ∧ Held (visiting .armed) .U (request [7, 0, 0, 0]) .startPlan
      ∧ Held { planned with seq := { planned.seq with header := none } } .U (request [7, 0, 0, 0]) .startPlan
      ∧ Held planned .U (request [7, 1, 2, 0]) .startPlan ∧ ¬ (2 < header.slotCount)
      ∧ Held (fullHold 0 planned) .U (request [7, 0, 0, 0]) .startPlan
      ∧ ineligible (fullHold 0 planned) header 0 = some false ∧ ineligible (fullHold 0 planned) header 1 = none
      ∧ planLoaded (fullHold 0 planned) header = true
      ∧ Held (fullHold 1 (fullHold 0 planned)) .U (request [7, 0, 0, 0]) .startPlan
      ∧ ineligible (fullHold 1 (fullHold 0 planned)) header 1 = some false
      ∧ planned.line.u.txQueue.length < 7 :=
  ⟨held_of (by decide), held_of (by decide), held_of (by decide), held_of (by decide), held_of (by decide),
    held_of (by decide), held_of (by decide), by decide, held_of (by decide), by decide, by decide, by decide,
    held_of (by decide), by decide, by decide⟩

theorem witness_PlanStarted_target :
    50 * 1000000 ≤ pouredTotal { planned with
        ship := { planned.ship with accounts := (Vector.replicate 13 0).set 12 50000000 } }
      ∧ ineligible { planned with ship := { planned.ship with
          accounts := (Vector.replicate 13 0).set 0 10000000000 } } header 0 = some true := by decide

theorem witness_PlanHalted :
    Held State.reset .U (request [8]) .haltPlan ∧ Held planned .U (request [8]) .haltPlan
      ∧ Held (visiting .armed) .U (request [8]) .haltPlan ∧ Held (visiting .pouring) .U (request [8]) .haltPlan
      ∧ (visiting .pouring).gate.injFeeder = none ∧ (visiting .pouring).line.d.lineFault = false
      ∧ Held (flying .paused) .U (request [8]) .haltPlan ∧ 0 < (flying .paused).flight.total
      ∧ Held (flying .draining) .U (request [8]) .haltPlan :=
  ⟨held_of (by decide), held_of (by decide), held_of (by decide), held_of (by decide), by decide, by decide,
    held_of (by decide), by decide, held_of (by decide)⟩

/-- The close-out adopted from a stray start, and not issued for each of its two reasons. -/
theorem witness_PlanHalted_closeOut :
    Held (overrate (some ⟨.stop, 1, 200⟩) [] .pouring) .U (request [8]) .haltPlan
      ∧ Held { flying .pouring with gate := { planned.gate with injFeeder := some ⟨.rate, 1, 200⟩ } } .U (request [8])
          .haltPlan
      ∧ Held { flying .pouring with line := { Line.reset with d := { Port.reset with tally := 2, lineFault := true } } } .U
          (request [8]) .haltPlan
      ∧ 0 < (flying .pouring).flight.total :=
  ⟨held_of (by decide), held_of (by decide), held_of (by decide), by decide⟩

/-- A plan SUSPENDED with no visit open. -/
def suspended : State := { planned with seq := { planned.seq with plan := .suspended, round := 1 } }

theorem witness_PlanResumedOrSkipped :
    Held suspended .U (request [9]) .resumePlan ∧ slotIndex suspended.seq header.slotCount suspended.seq.cursor = 0
      ∧ ineligible suspended header 0 = none ∧ Held (visiting .waiting) .U (request [10]) .skipSlot
      ∧ (visiting .waiting).seq.cursor + 1 < header.slotCount
      ∧ slotIndex (visiting .waiting).seq header.slotCount 1 = 1 ∧ ineligible (visiting .waiting) header 1 = none :=
  ⟨held_of (by decide), by decide, by decide, held_of (by decide), by decide, by decide, by decide⟩

/-- Refused; and past the last round. -/
theorem witness_PlanResumedOrSkipped_more :
    Held State.reset .U (request [9]) .resumePlan ∧ Held planned .U (request [9]) .resumePlan
      ∧ Held { suspended with seq := { suspended.seq with visit := some (visit .draining) } } .U (request [9]) .resumePlan
      ∧ Held State.reset .U (request [10]) .skipSlot ∧ Held planned .U (request [10]) .skipSlot
      ∧ Held (visiting .pouring) .U (request [10]) .skipSlot ∧ (visiting .pouring).visitPours = true
      ∧ Held { suspended with seq := { suspended.seq with round := 2 } } .U (request [9]) .resumePlan
      ∧ header.roundLimit < 2 ∧ pouredTotal suspended < 50 * 1000000
      ∧ Held { visiting .armed with seq := { (visiting .armed).seq with cursor := 1 } } .U (request [10]) .skipSlot
      ∧ header.slotCount ≤ 1 + 1 ∧ header.roundLimit < (visiting .armed).seq.round + 1 :=
  ⟨held_of (by decide), held_of (by decide), held_of (by decide), held_of (by decide), held_of (by decide),
    held_of (by decide), by decide, held_of (by decide), by decide, by decide, held_of (by decide), by decide, by decide⟩

/-! ## Witnesses: ZERO, SWEEP, records -/

def stopped : State := { part with gate := { Gate.reset with feeder := .stopped } }

theorem witness_ZeroBegun :
    Held stopped .U (request [11]) .zeroBelt ∧ stopped.meter.zero = none ∧ stopped.flight.segments = []
      ∧ stopped.visitPours = false ∧ stopped.meter.fault = false ∧ Held State.reset .U (request [11]) .zeroBelt
      ∧ Held part .U (request [11]) .zeroBelt ∧ part.gate.feeder ≠ .stopped
      ∧ Held { stopped with bills := { BillStore.reset with reserved := 256 } } .U (request [11]) .zeroBelt :=
  ⟨held_of (by decide), by decide, by decide, by decide, by decide, held_of (by decide), held_of (by decide), by decide,
    held_of (by decide)⟩

theorem witness_ZeroEnded :
    Held loaded .U (request [12]) .zeroAbort ∧ loaded.meter.zero.isSome = true ∧ Held part .U (request [12]) .zeroAbort
      ∧ part.meter.zero = none ∧ loaded.meter.zero.map (·.expiry) = some 5 ∧ 5 ≤ { loaded with now := 5 }.now :=
  ⟨held_of (by decide), by decide, held_of (by decide), by decide, by decide, by decide⟩

/-- The second mark is reached by the record that is issued; and none is. -/
theorem witness_ZeroEnded_mark :
    loaded.bills.records.length + 1 = 2
      ∧ Held { loaded with bills := { loaded.bills with marks := #v[1, 2, 3, 4] } } .U (request [12]) .zeroAbort
      ∧ (∀ k : Fin 4, loaded.bills.marks[k] ≠ loaded.bills.records.length + 1) :=
  ⟨by decide, held_of (by decide), by decide⟩

theorem witness_SweepBegun :
    Held placed .U (request [13, 0, 0, 0x13, 0x88, 1]) .sweep ∧ placed.place.state = .placed 0 ∧ pourPhase placed = false
      ∧ placed.place.envelopes[(0 : Hold)] = some (envelope 0) ∧ (placed.place.axes.get .gantry).pos = some 5000
      ∧ placed.gate.entry (.drive .gantry) = none ∧ placed.station (axisOf .gantry).role = some 3
      ∧ max ((envelope 0).innerLow .gantry) (placed.place.travel.limits .gantry).low
          ≤ min ((envelope 0).innerHigh .gantry) (placed.place.travel.limits .gantry).high :=
  ⟨held_of (by decide), by decide, by decide, by decide, by decide, by decide, by decide, by decide⟩

theorem witness_SweepBegun_refused :
    Held part .U (request [13, 2, 0, 0, 10, 1]) .sweep ∧ Held State.reset .U (request [13, 0, 0, 0, 10, 1]) .sweep
      ∧ Held (setSweep (some (sweepAt false 2)) placed) .U (request [13, 0, 0, 0, 10, 1]) .sweep
      ∧ Held part .U (request [13, 1, 1, 0x13, 0x88, 255]) .sweep ∧ part.place.state = .clear
      ∧ Held { visiting .pouring with place := { planned.place with state := .placed 1 } } .U
          (request [13, 0, 0, 0, 10, 1]) .sweep
      ∧ pourPhase { visiting .pouring with place := { planned.place with state := .placed 1 } } = true
      ∧ (visit .pouring).hold ≠ 1 :=
  ⟨held_of (by decide), held_of (by decide), held_of (by decide), held_of (by decide), by decide, held_of (by decide),
    by decide, by decide⟩

/-- A SWEEP in pour phase at the guarded hold; with port D in LINE FAULT; and with the GANTRY role absent. -/
theorem witness_SweepBegun_more :
    Held (spout (.placed 0) 5000 (visiting .pouring)) .U (request [13, 0, 0, 0x13, 0x88, 3]) .sweep
      ∧ pourPhase (spout (.placed 0) 5000 (visiting .pouring)) = true ∧ (visit .pouring).hold = 0
      ∧ Held { placed with line := { Line.reset with d := { Port.reset with tally := 2, lineFault := true } } } .U
          (request [13, 0, 0, 0x13, 0x88, 3]) .sweep
      ∧ Held { placed with stations := placed.stations.set 2 none } .U (request [13, 0, 0, 0x13, 0x88, 3]) .sweep
      ∧ State.station { placed with stations := placed.stations.set 2 none } (axisOf .gantry).role = none
      ∧ placed.line.u.txQueue.length < 7 :=
  ⟨held_of (by decide), by decide, by decide, held_of (by decide), held_of (by decide), by decide, by decide⟩

theorem witness_RecordsTaken :
    Held loaded .U (request [18, 0, 0, 0, 1]) .takeRecords ∧ loaded.bills.records = [] ++ ⟨1, .shipOpen 1⟩ :: []
      ∧ Held loaded .U (request [18, 0, 0, 0, 2]) .takeRecords ∧ (∀ r ∈ loaded.bills.records, r.seq.toNat ≠ 2) :=
  ⟨held_of (by decide), rfl, held_of (by decide), by decide⟩

/-! ## Witnesses: the ladder, the expiries and the STOP input -/

theorem witness_AlarmsServed :
    Held loaded .U (request [14, 11]) .ackAlarm ∧ loaded.ladder.presented = some (11, 12)
      ∧ Held loaded .U (request [14, 39]) .ackAlarm ∧ Held loaded .U (request [15, 39]) .doneAlarm
      ∧ loaded.ladder.stack = 39 :: [] ∧ Held loaded .U (request [15, 11]) .doneAlarm
      ∧ Held tripped .U (request [15, 2]) .doneAlarm ∧ tripped.ladder.stack = srcDustTrip 0 :: []
      ∧ (tripped.dust.sensors[(0 : SensorNo)]).latch = true
      ∧ (tripped.dust.sensors[(0 : SensorNo)]).belowRelease = true :=
  ⟨held_of (by decide), by decide, held_of (by decide), held_of (by decide), by decide, held_of (by decide),
    held_of (by decide), by decide, by decide, by decide⟩

/-- An index above 39; and a DUST_TRIP source left with the average too high. -/
theorem witness_AlarmsServed_more :
    Held part .U (request [14, 40]) .ackAlarm ∧ Held part .U (request [15, 255]) .doneAlarm
      ∧ Held (setSensor 0 { Sensor.fresh (some dustEntry) with latch := true, a16 := 16000 } tripped) .U (request [15, 2])
          .doneAlarm
      ∧ Sensor.belowRelease { Sensor.fresh (some dustEntry) with latch := true, a16 := 16000 } = false :=
  ⟨held_of (by decide), held_of (by decide), held_of (by decide), by decide⟩

theorem witness_AlarmTableSet :
    Held loaded .U (request [16, 11, 7, 15, 0, 1]) .setAlarm ∧ Held loaded .U (request [16, 11, 1, 16, 0, 0]) .setAlarm
      ∧ Held loaded .U (request [16, 39, 1, 2, 0, 0]) .setAlarm ∧ Held loaded .U (request [16, 39, 1, 1, 0, 0]) .setAlarm
      ∧ (loaded.ladder.sources[(39 : SourceNo)]).state = .inService ∧ (loaded.ladder.sources[(39 : SourceNo)]).rank = 1
      ∧ Held loaded .U (request [16, 40, 1, 1, 0, 0]) .setAlarm ∧ Held loaded .U (request [16, 39, 8, 1, 0, 0]) .setAlarm :=
  ⟨held_of (by decide), held_of (by decide), held_of (by decide), held_of (by decide), by decide, by decide,
    held_of (by decide), held_of (by decide)⟩

/-- A request that marks no field, of a ladder that is sound; one that turns record enable off. -/
theorem witness_AlarmTableSet_mask :
    Held loaded .U (request [16, 11, 0, 0, 0, 0]) .setAlarm ∧ LadderSound loaded.ladder
      ∧ Held loaded .U (request [16, 11, 2, 0, 0, 0]) .setAlarm
      ∧ (loaded.ladder.sources[(11 : SourceNo)]).state = .pending :=
  ⟨held_of (by decide), witness_LadderStaysSound, held_of (by decide), by decide⟩

/-- Record enable turned off with DUST_TRIP_1 PENDING, its latch set and its average low. -/
theorem witness_AlarmTableSet_release :
    Held (latched .pending) .U (request [16, 2, 2, 0, 0, 0]) .setAlarm
      ∧ ((latched .pending).ladder.sources[srcDustTrip 0]).state = .pending
      ∧ ((latched .pending).dust.sensors[(0 : SensorNo)]).latch = true
      ∧ ((latched .pending).dust.sensors[(0 : SensorNo)]).belowRelease = true :=
  ⟨held_of (by decide), by decide, by decide, by decide⟩

/-- A source for each row of R128. -/
theorem witness_AlarmTableSet_sources :
    (∃ x : Source, x.record = false) ∧ (∃ x : Source, x.record = true ∧ x.state = .idle)
      ∧ (∃ x : Source, x.record = true ∧ x.state = .pending)
      ∧ (∃ x : Source, x.record = true ∧ x.state = .inService ∧ x.repeats = 255)
      ∧ (∃ x : Source, x.record = true ∧ x.state = .standing ∧ x.repeats = 0) :=
  ⟨⟨{ Source.reset 0 with record := false }, rfl⟩, ⟨Source.reset 0, by decide⟩,
    ⟨{ Source.reset 0 with state := .pending }, by decide⟩,
    ⟨{ Source.reset 0 with state := .inService, repeats := 255 }, by decide⟩,
    ⟨{ Source.reset 0 with state := .standing }, by decide⟩⟩

theorem witness_TimersExpire :
    (∃ s : State, s.meter.silence = some 3 ∧ 3 ≤ s.now)
      ∧ (dusty.dust.sensors[(0 : SensorNo)]).timer = some 4 ∧ 4 ≤ { dusty with now := 4 }.now ∧ dusty.now < 4
      ∧ awaitingStop.gate.injFeeder = some { order := .stop, seq := 9, deadline := 200 }
      ∧ 200 ≤ { awaitingStop with now := 200 }.now ∧ awaitingStop.now < 200
      ∧ awaitingStop.seq.visit = some (visit .closing) ∧ 0 < awaitingStop.flight.total
      ∧ (∃ s : State, s.gate.entry (.drive .gantry) = some ⟨.move, 0, 7⟩ ∧ 7 ≤ s.now
          ∧ s.place.sweep = some (sweepAt false 2))
      ∧ (∃ s : State, s.place.sweep = some (sweepAt false 2) ∧ (sweepAt false 2).timer ≤ s.now)
      ∧ loaded.meter.zero.map (·.expiry) = some 5 ∧ loaded.now < 5 ∧ part.meter.silence = none :=
  ⟨⟨{ part with meter := { part.meter with silence := some 3 }, now := 3 }, rfl, by decide⟩, by decide, by decide,
    by decide, rfl, by decide, by decide, rfl, by decide,
    ⟨{ setSweep (some (sweepAt false 2)) part with
        gate := { part.gate with injGantry := some ⟨.move, 0, 7⟩ }, now := 7 }, rfl, by decide, rfl⟩,
    ⟨{ setSweep (some (sweepAt false 2)) part with now := 30000 }, rfl, by decide⟩, by decide, by decide, by decide⟩

/-- The window of an injected RATE closes, with a derate due, in LINE FAULT and not due; that of a stray start's STOP;
and a close-out's with nothing in flight. -/
theorem witness_TimersExpire_windows :
    (runningAt 9600 .rate .pouring).gate.injFeeder = some ⟨.rate, 9, 200⟩
      ∧ (runningAt 9600 .rate .pouring).gate.feeder = .running
      ∧ (runningAt 9600 .rate .pouring).gate.lastRate = some 16000
      ∧ (runningAt 9600 .rate .pouring).line.d.lineFault = false
      ∧ (runningAt 9600 .rate .pouring).station .feeder = some 2
      ∧ (∃ s : State, s.gate = (runningAt 9600 .rate .pouring).gate ∧ 200 ≤ s.now ∧ s.line.d.lineFault = true)
      ∧ (runningAt 16000 .stop .armed).visitState = some .armed
      ∧ (lastReply .active).seq.visit = some (visit .closing) ∧ (lastReply .active).flight.total = 0
      ∧ (lastReply .active).gate.injFeeder = some { order := .stop, seq := 9, deadline := 200 }
      ∧ 200 ≤ { lastReply .active with now := 200 }.now :=
  ⟨by decide, by decide, by decide, by decide, by decide,
    ⟨{ runningAt 9600 .rate .pouring with
        now := 200, line := { Line.reset with d := { Port.reset with tally := 2, lineFault := true } } }, rfl, by decide,
      rfl⟩,
    by decide, by decide, by decide, by decide, by decide⟩

/-- Scale silence with a visit POURING; a sensor that falls silent with a derate due. -/
theorem witness_TimersExpire_bands :
    (∃ s : State, s.meter.silence = some 3 ∧ 3 ≤ s.now ∧ s.meter.fault = false ∧ s.seq.visit = some (visit .pouring)
        ∧ s.gate.injFeeder = none ∧ s.station .feeder = some 2)
      ∧ (∃ s : State, (s.dust.sensors[(0 : SensorNo)]).timer = some 4 ∧ 4 ≤ s.now ∧ s.dust.overall = .normal
        ∧ s.gate = (overspeed .pouring).gate) :=
  ⟨⟨{ flying .pouring with meter := { part.meter with silence := some 3 }, now := 3 }, by decide⟩,
    ⟨{ setSensor 0 { Sensor.fresh (some dustEntry) with timer := some 4 } (overspeed .pouring) with now := 4 }, by decide⟩⟩

/-- R119, R120, R95, R102: silence brings HIGH, and the lowered limit a RATE. -/
theorem test_silence_derates :
    leads (.sensorSilenceExpiry 0)
      { setSensor 0 { Sensor.fresh (some dustEntry) with timer := some 4 } (overspeed .pouring) with now := 4 } (fun t =>
        decide (t.dust.overall = .high ∧ t.gate.lastRate = some 4000)) = true := by decide +kernel

theorem witness_StopInputActs :
    (flying .paused).pins.stop = false ∧ (flying .paused).pins.reset = false
      ∧ (flying .paused).seq.visit = some (visit .paused) ∧ 0 < (flying .paused).flight.total
      ∧ (setStopPin true part).pins.stop = true
      ∧ (setResetPin true (setStopPin true part)).pins = ⟨true, true⟩ := by decide

/-- A visit POURING, one PAUSED with nothing in flight, and one WAITING. -/
theorem witness_StopInputActs_visits :
    (flying .pouring).gate.injFeeder = none ∧ (flying .pouring).line.d.lineFault = false
      ∧ (flying .pouring).station .feeder = some 2 ∧ (visiting .paused).flight.total = 0
      ∧ (visiting .paused).meter.zero = none ∧ (visiting .waiting).visitState = some .waiting := by decide

end Sys2Proof.Tests
end

section
/-! TAKE_RECORDS (R154): the place of a sequence number among the held records, what releasing up to it leaves, and the
answer. -/

namespace Sys2Proof.Machine

/-! ## The place of a sequence number among the held records -/

/-- A number carried by one record and by none before it stands at the place of that record. -/
theorem BillStore.find_of_split {b : BillStore} {q : Nat} {old new : List Record} {r : Record}
    (hs : b.records = old ++ r :: new) (hr : r.seq.toNat = q) (ho : ∀ x ∈ old, x.seq.toNat ≠ q) :
    b.find q = some old.length := by
  have hold : old.findIdx? (fun x => x.seq.toNat == q) = none := by simpa using ho
  simp [BillStore.find, hs, List.findIdx?_append, hold, List.findIdx?_cons, hr]

theorem BillStore.find_eq_none_iff (b : BillStore) (q : Nat) : b.find q = none ↔ ∀ r ∈ b.records, r.seq.toNat ≠ q := by
  simp [BillStore.find]

/-! ## Releasing -/

@[simp] theorem releaseRecords_bills (n : Nat) (s : State) :
    (releaseRecords n s).bills = { s.bills with records := s.bills.records.drop n } := rfl

/-! ## The treatment of the frame -/

theorem fieldAt_takeRecords {f : Frame} {q0 q1 q2 q3 : Byte} (h : f.payload = [18, q0, q1, q2, q3]) :
    fieldAt f.payload 1 4 = beNat [q0, q1, q2, q3] := by rw [h]; rfl

/-- A held number: DONE with how many are released and the new oldest, then the release (R154). -/
theorem treatTakeRecords_held {f : Frame} {s : State} {old new : List Record} {r : Record}
    (hs : s.bills.records = old ++ r :: new) (hf : s.bills.find (fieldAt f.payload 1 4) = some old.length) :
    treatTakeRecords f s = releaseRecords (old.length + 1)
      (answerDone f (beBytes 2 (old.length + 1) ++ optField 4 (new.head?.map fun x => x.seq.toNat)) s) := by
  simp only [treatTakeRecords, hf, hs, List.drop_length_add_append, List.drop_succ_cons, List.drop_zero]

theorem treatTakeRecords_notHeld {f : Frame} {s : State} (hf : s.bills.find (fieldAt f.payload 1 4) = none) :
    treatTakeRecords f s = answerRefused f .notHeld s := by
  simp only [treatTakeRecords, hf]

end Sys2Proof.Machine

open Sys2Proof Sys2Proof.Machine

/-- Settles O56. The taking of the frame leaves the Bill Store (`takeHead_U_fields`), so the place found is the one in
`s`; the answer, offered first, stays on the wire through the release. -/
theorem recordsTaken : Obligations.RecordsTaken := by
  intro s e rest q0 q1 q2 q3 h hp
  have hcode : payloadCode e.frame = 18 := by rw [payloadCode, hp]; rfl
  have hq := fieldAt_takeRecords hp
  have htaken : (takeHead .U e rest .takeRecords s).bills = s.bills := by simp
  refine ⟨fun old new r hs hr hold => ?_, fun hnone => ?_⟩
  · have hfirst : ∀ x ∈ old, x.seq.toNat ≠ beNat [q0, q1, q2, q3] :=
      fun x hx hxq => hold x hx (BitVec.eq_of_toNat_eq (hxq.trans hr.symm))
    have htreat := treatTakeRecords_held (f := e.frame) (by rw [htaken]; exact hs)
      (by rw [htaken, hq]; exact BillStore.find_of_split hs hr hfirst)
    refine takes_of treatTakeRecords h rfl (treatTakeRecords_changes _ _) (by decide) ?_
    rw [htreat]
    refine ⟨?_, by simp, offered_done (by rw [hcode]; rfl) .line⟩
    simp [hs]
  · have htreat := treatTakeRecords_notHeld (f := e.frame) (s := takeHead .U e rest .takeRecords s)
      (by rw [htaken, hq]; exact (BillStore.find_eq_none_iff _ _).2 hnone)
    refine takes_of (xs := [.send .U]) treatTakeRecords h rfl ?_ (by decide) ?_
    · rw [htreat]; exact answerRefused_changes _ _ _
    · rw [htreat]; exact offered_refused (by rw [hcode]; rfl)

end

section
/-! The error tally and LINE FAULT at the receiving side of a port (R172 to R175): how a step of the tally leaves that
side, which treatments can change it afterwards, and what the end of the event keeps of a LINE FAULT entered or left. -/

namespace Sys2Proof.Machine

/-! ## Every row of the inspector has a treatment (R177 to R179) -/

/-- Some treatment belongs to the command `row` of a frame of port `p`. -/
def Treated (p : PortId) (row : Instr) : Prop := ∃ treat, Treatment p row treat

theorem requestForm_treated {n : Nat} {k : Nat × Instr} (h : requestForm n = some k) : Treated .U k.2 := by
  unfold requestForm at h
  split at h <;> cases h
  · exact ⟨_, .read⟩
  · exact ⟨_, .status⟩
  · exact ⟨_, .setOptions⟩
  · exact ⟨_, .openShip⟩
  · exact ⟨_, .closeShip⟩
  · exact ⟨_, .startPlan⟩
  · exact ⟨_, .haltPlan⟩
  · exact ⟨_, .resumePlan⟩
  · exact ⟨_, .skipSlot⟩
  · exact ⟨_, .zeroBelt⟩
  · exact ⟨_, .zeroAbort⟩
  · exact ⟨_, .sweep⟩
  · exact ⟨_, .ackAlarm⟩
  · exact ⟨_, .doneAlarm⟩
  · exact ⟨_, .setAlarm⟩
  · exact ⟨_, .readRecords⟩
  · exact ⟨_, .takeRecords⟩
  · exact ⟨_, .restart⟩

theorem requestRow_treated (bs : List Byte) : Treated .U (requestRow bs) := by
  unfold requestRow
  split
  · exact ⟨_, .badFrame⟩
  · split
    · split
      · exact ⟨_, .load⟩
      · exact ⟨_, .badFrame⟩
    · split
      · exact ⟨_, .badRequest⟩
      · rename_i hform
        split
        · exact requestForm_treated hform
        · exact ⟨_, .badFrame⟩

theorem feederOrderRow_treated (bs : List Byte) : Treated .U (feederOrderRow bs) := by
  unfold feederOrderRow
  split
  · exact ⟨_, .badFrame⟩
  · exact ⟨_, .run⟩
  · exact ⟨_, .rate⟩
  · exact ⟨_, .stop⟩
  · exact ⟨_, .forwarded .U⟩

theorem axisOrderRow_treated (bs : List Byte) : Treated .U (axisOrderRow bs) := by
  unfold axisOrderRow
  split
  · exact ⟨_, .badFrame⟩
  · exact ⟨_, .move⟩
  · exact ⟨_, .halt⟩
  · exact ⟨_, .forwarded .U⟩

theorem globalOrderRow_treated (bs : List Byte) : Treated .U (globalOrderRow bs) := by
  unfold globalOrderRow
  split
  · split
    · split
      · exact ⟨_, .stop⟩
      · exact ⟨_, .badFrame⟩
    · exact ⟨_, .badDestination⟩
  · exact ⟨_, .badDestination⟩

theorem sampleRow_treated (bs : List Byte) : Treated .D (sampleRow bs) := by
  unfold sampleRow
  split
  · exact ⟨_, .belt⟩
  · exact ⟨_, .position⟩
  · exact ⟨_, .sense⟩
  · exact ⟨_, .dust⟩
  · exact ⟨_, .feeder⟩
  · exact ⟨_, .forwarded .D⟩

theorem readyRowU_treated (s : State) (f : Frame) : Treated .U (readyRowU s f) := by
  unfold readyRowU
  split
  · split
    · exact ⟨_, .dropped .U⟩
    · split
      · exact requestRow_treated _
      · exact ⟨_, .forwarded .U⟩
  · split
    · split
      · exact globalOrderRow_treated _
      · split
        · exact feederOrderRow_treated _
        · split
          · exact axisOrderRow_treated _
          · exact ⟨_, .forwarded .U⟩
    · exact ⟨_, .forwarded .U⟩

theorem readyRowD_treated (f : Frame) : Treated .D (readyRowD f) := by
  unfold readyRowD
  split
  · exact ⟨_, .dropped .D⟩
  · split
    · exact sampleRow_treated _
    · split
      · exact ⟨_, .reply⟩
      · exact ⟨_, .forwarded .D⟩

theorem unconfiguredOrderRow_treated (f : Frame) : Treated .U (unconfiguredOrderRow f) := by
  unfold unconfiguredOrderRow
  split
  · split
    · exact ⟨_, .run⟩
    · split
      · exact ⟨_, .badFrame⟩
      · exact ⟨_, .forwarded .U⟩
  · exact ⟨_, .forwarded .U⟩

theorem unconfiguredRow_treated (s : State) (p : PortId) (f : Frame) : Treated p (unconfiguredRow s p f) := by
  unfold unconfiguredRow
  split
  · split
    · exact ⟨_, .dropped p⟩
    · rename_i hport
      obtain rfl : p = .U := by cases p <;> simp_all
      split
      · exact requestRow_treated _
      · exact ⟨_, .forwarded .U⟩
  · split
    · rename_i hreply
      obtain ⟨rfl, -, -⟩ := hreply
      exact ⟨_, .reply⟩
    · split
      · rename_i horder
        obtain ⟨rfl, -⟩ := horder
        exact unconfiguredOrderRow_treated _
      · exact ⟨_, .forwarded p⟩

theorem inspect_treated (s : State) (p : PortId) (f : Frame) : Treated p (inspect s p f) := by
  unfold inspect
  split
  · exact ⟨_, .forwarded p⟩
  · split
    · cases p with
      | U => exact readyRowU_treated s f
      | D => exact readyRowD_treated f
    · exact unconfiguredRow_treated s p f

theorem Heads.treated {s : State} {p : PortId} {row : Instr} {e : RxEntry} {rest : List RxEntry}
    (h : Heads s p row e rest) : Treated p row := h.2 ▸ inspect_treated s p e.frame

theorem Treatment.exec_eq {p : PortId} {row : Instr} {treat : Frame → State → State} (h : Treatment p row treat)
    (s : State) : exec row s = .next (takeFrame p row treat s) := by
  cases h <;> rfl

/-- A dropped REQUEST is dropped at the port whose command it is. -/
theorem Treated.dropped_port {p q : PortId} {row : Instr} (h : Treated p row) (hq : row = .requestDropped q) :
    q = p := by
  obtain ⟨treat, h⟩ := h
  subst hq
  cases h
  rfl

/-! ## The receiving side of a port -/

/-- Receiver, receive queue, tally and LINE FAULT of a port. -/
def State.recvSide (s : State) (p : PortId) : Receiver × List RxEntry × Nat × Bool :=
  ((s.line.port p).rx, (s.line.port p).rxQueue, (s.line.port p).tally, (s.line.port p).lineFault)

theorem same_recv_iff (p : PortId) (s t : State) : Same (.recv p) s t ↔ t.recvSide p = s.recvSide p := by
  simp [Same, State.recvSide]

theorem recvSide_eq_iff {rx : Receiver} {queue : List RxEntry} {n : Nat} {lf : Bool} (p : PortId) (s : State) :
    s.recvSide p = (rx, queue, n, lf) ↔ (s.line.port p).rx = rx ∧ (s.line.port p).rxQueue = queue
      ∧ (s.line.port p).tally = n ∧ (s.line.port p).lineFault = lf := by
  simp [State.recvSide]

@[simp] theorem setLinePort_recvSide (p : PortId) (x : Port) (s : State) :
    (setLinePort p x s).recvSide p = (x.rx, x.rxQueue, x.tally, x.lineFault) := by
  simp [State.recvSide]

@[simp] theorem endEvent_recvSide (s : State) (p : PortId) : (endEvent s).recvSide p = s.recvSide p :=
  (same_recv_iff p _ _).1 ((endEvent_changes s).same (.recv p) (by simp [closing]))

/-- A change that stays off both receiving sides. -/
theorem OnlyChanges.same_recv {xs : List Block} {s t : State} (h : OnlyChanges xs s t) (q : PortId)
    (hU : Block.recv .U ∉ xs := by decide) (hD : Block.recv .D ∉ xs := by decide) : Same (.recv q) s t := by
  cases q
  · exact h.same _ hU
  · exact h.same _ hD

theorem enterLineFault_recvSide (p : PortId) (s : State) :
    (enterLineFault p s).recvSide p
      = ((s.line.port p).rx, (s.line.port p).rxQueue, (s.line.port p).tally, true) := by
  cases p with
  | U => rfl
  | D => exact (same_recv_iff .D _ _).1 ((takeTrigger_changes .lineFault _).same (.recv .D))

theorem leaveLineFault_recvSide (p : PortId) (s : State) :
    (leaveLineFault p s).recvSide p
      = ((s.line.port p).rx, (s.line.port p).rxQueue, (s.line.port p).tally, false) := by
  cases p with
  | U => rfl
  | D => exact (same_recv_iff .D _ _).1 ((derateCheck_changes _).same (.recv .D))

/-- LINE FAULT stands after the test where it stood before or the tally has the threshold (R175). -/
theorem lineFaultTest_recvSide (p : PortId) (s : State) :
    (lineFaultTest p s).recvSide p
      = ((s.line.port p).rx, (s.line.port p).rxQueue, (s.line.port p).tally,
         (s.line.port p).lineFault || decide (s.handler.threshold ≤ (s.line.port p).tally)) := by
  unfold lineFaultTest
  split
  · rw [enterLineFault_recvSide]
    simp_all
  · cases hfault : (s.line.port p).lineFault <;> simp_all [State.recvSide]

theorem tallyUp_recvSide (p : PortId) (s : State) :
    let x := s.line.port p
    let n := min (x.tally + 1) 255
    (tallyUp p s).recvSide p = (x.rx, x.rxQueue, n, x.lineFault || decide (s.handler.threshold ≤ n)) := by
  intro x n
  rw [tallyUp, lineFaultTest_recvSide]
  simp [x, n]

theorem tallyDown_recvSide (p : PortId) (s : State) :
    let x := s.line.port p
    (tallyDown p s).recvSide p = (x.rx, x.rxQueue, x.tally - 1, x.lineFault && decide (x.tally - 1 ≠ 0)) := by
  intro x
  unfold tallyDown
  simp only
  split
  · rw [leaveLineFault_recvSide]
    simp_all [x]
  · simp_all [x]

/-! ## The taking of a frame, by the direction of the tally's step (R173, R174) -/

section
variable (p : PortId) (e : RxEntry) (rest : List RxEntry) (row : Instr) (s : State)

theorem takeHead_of_up (h : e.receipt = .overrun ∨ row = .requestDropped p) :
    takeHead p e rest row s = tallyUp p (setLinePort p { s.line.port p with rxQueue := rest } s) := by
  unfold takeHead takingStep
  rcases h with h | rfl
  · rw [h]
  · cases e.receipt <;> rfl

theorem takeHead_of_down (ht : Treated p row) (h : ¬ (e.receipt = .overrun ∨ row = .requestDropped p)) :
    takeHead p e rest row s = tallyDown p (setLinePort p { s.line.port p with rxQueue := rest } s) := by
  obtain ⟨hgood, hrow⟩ := not_or.1 h
  unfold takeHead takingStep
  split
  · exact absurd ‹_› hgood
  · exact absurd (by rw [ht.dropped_port rfl]) hrow
  · rfl

theorem takeHead_up_recvSide (h : e.receipt = .overrun ∨ row = .requestDropped p) :
    let x := s.line.port p
    let n := min (x.tally + 1) 255
    (takeHead p e rest row s).recvSide p = (x.rx, rest, n, x.lineFault || decide (s.handler.threshold ≤ n)) := by
  intro x n
  rw [takeHead_of_up p e rest row s h, tallyUp_recvSide]
  simp [x, n]

theorem takeHead_down_recvSide (ht : Treated p row) (h : ¬ (e.receipt = .overrun ∨ row = .requestDropped p)) :
    let x := s.line.port p
    (takeHead p e rest row s).recvSide p = (x.rx, rest, x.tally - 1, x.lineFault && decide (x.tally - 1 ≠ 0)) := by
  intro x
  rw [takeHead_of_down p e rest row s ht h, tallyDown_recvSide]
  simp [x]

/-- The taking stays within what a step of the port's tally may change. -/
theorem takeHead_lineFaultBlocks : OnlyChanges (lineFaultBlocks p) s (takeHead p e rest row s) := by
  cases p with
  | U => exact takeHead_U e rest row s
  | D => exact takeHead_changes .D e rest row s

end

/-- A step up that does not enter LINE FAULT is one of the tally alone. -/
theorem tallyUp_quiet {p : PortId} {s : State}
    (h : ¬ ((s.line.port p).lineFault = false ∧ s.handler.threshold ≤ min ((s.line.port p).tally + 1) 255)) :
    tallyUp p s = setLinePort p { s.line.port p with tally := min ((s.line.port p).tally + 1) 255 } s := by
  unfold tallyUp lineFaultTest
  rw [if_neg (by simpa using h)]

/-- A step down that does not leave LINE FAULT is one of the tally alone. -/
theorem tallyDown_quiet {p : PortId} {s : State} (h : ¬ ((s.line.port p).lineFault = true ∧ (s.line.port p).tally ≤ 1)) :
    tallyDown p s = setLinePort p { s.line.port p with tally := (s.line.port p).tally - 1 } s := by
  unfold tallyDown
  simp only
  rw [if_neg]
  simpa [Nat.sub_eq_zero_iff_le] using h

/-- A taking that neither enters nor leaves LINE FAULT touches the port's receiving side alone. -/
theorem takeHead_quiet {p : PortId} {e : RxEntry} {rest : List RxEntry} {row : Instr} {s : State} (ht : Treated p row) :
    let x := s.line.port p
    let up : Prop := e.receipt = .overrun ∨ row = .requestDropped p
    ¬ (up ∧ x.lineFault = false ∧ s.handler.threshold ≤ min (x.tally + 1) 255) →
    ¬ (¬ up ∧ x.lineFault = true ∧ x.tally ≤ 1) → OnlyChanges [.recv p] s (takeHead p e rest row s) := by
  intro x up henters hleaves
  have hremoved := setLinePort_recv p { s.line.port p with rxQueue := rest } s rfl rfl
  by_cases hup : up
  · rw [takeHead_of_up p e rest row s hup, tallyUp_quiet (by simpa [x] using fun h k => henters ⟨hup, h, k⟩)]
    exact hremoved.trans (setLinePort_recv p _ _ rfl rfl)
  · rw [takeHead_of_down p e rest row s ht hup, tallyDown_quiet (by simpa [x] using fun h k => hleaves ⟨hup, h, k⟩)]
    exact hremoved.trans (setLinePort_recv p _ _ rfl rfl)

/-! ## Treatments and the receiving sides -/

theorem treatRestart_refused {f : Frame} {s : State} (h : restartRefused s = true) :
    treatRestart f s = answerRefused f .busy s := by
  unfold treatRestart
  rw [if_pos h]

/-- No treatment but SET_OPTIONS and an accepted RESTART touches a port's receiving side. -/
theorem Treatment.same_recv {p : PortId} {row : Instr} {treat : Frame → State → State} (h : Treatment p row treat)
    (f : Frame) (s : State) (ho : row ≠ .setOptions) (hr : row = .restart → restartRefused s = true) (q : PortId) :
    Same (.recv q) s (treat f s) := by
  cases h with
  | belt => exact (treatBelt_changes f s).same_recv q
  | position => exact (treatPosition_changes f s).same_recv q
  | sense => exact (treatSense_changes f s).same_recv q
  | dust => exact (treatDust_changes f s).same_recv q
  | feeder => exact (treatFeeder_changes f s).same_recv q
  | reply => exact (treatReply_changes f s).same_recv q
  | run => exact (treatRun_changes f s).same_recv q
  | rate => exact (treatRate_changes f s).same_recv q
  | stop => exact (treatStop_changes f s).same_recv q
  | move => exact (treatMove_changes f s).same_recv q
  | halt => exact (treatHalt_changes f s).same_recv q
  | forwarded => exact (forward_changes _ f s).same_recv q
  | dropped => exact Same.refl _ s
  | badRequest => exact (refuse_U f _ s).same_recv q
  | load => exact (treatLoad_changes f s).same_recv q
  | read => exact (treatRead_changes f s).same_recv q
  | status => exact (treatStatus_changes f s).same_recv q
  | setOptions => exact absurd rfl ho
  | openShip => exact (treatOpenShip_changes f s).same_recv q
  | closeShip => exact (treatCloseShip_changes f s).same_recv q
  | startPlan => exact (treatStartPlan_changes f s).same_recv q
  | haltPlan => exact (treatHaltPlan_changes f s).same_recv q
  | resumePlan => exact (treatResumePlan_changes f s).same_recv q
  | skipSlot => exact (treatSkipSlot_changes f s).same_recv q
  | zeroBelt => exact (treatZeroBelt_changes f s).same_recv q
  | zeroAbort => exact (treatZeroAbort_changes f s).same_recv q
  | sweep => exact (treatSweep_changes f s).same_recv q
  | ackAlarm => exact (treatAckAlarm_changes f s).same_recv q
  | doneAlarm => exact (treatDoneAlarm_changes f s).same_recv q
  | setAlarm => exact (treatSetAlarm_changes f s).same_recv q
  | readRecords => exact (treatReadRecords_changes f s).same_recv q
  | takeRecords => exact (treatTakeRecords_changes f s).same_recv q
  | restart =>
    rw [treatRestart_refused (hr rfl)]
    exact (answerRefused_changes f _ s).same_recv q
  | badDestination => exact (refuse_U f _ s).same_recv q
  | badFrame => exact (refuse_U f _ s).same_recv q

/-- What a SET_OPTIONS can change of port U's receiving side is LINE FAULT (R175, R193). -/
theorem treatSetOptions_recvSide (f : Frame) (s : State) :
    ∃ lf, (treatSetOptions f s).recvSide .U = (s.line.u.rx, s.line.u.rxQueue, s.line.u.tally, lf) := by
  unfold treatSetOptions
  split
  · split
    · exact ⟨_, (same_recv_iff .U _ _).1 ((answerRefused_changes f _ s).same_recv .U)⟩
    · split
      · exact ⟨_, (same_recv_iff .U _ _).1 ((answerRefused_changes f _ s).same_recv .U)⟩
      · obtain ⟨hrx, hqueue, htally, -⟩ := (answerDone_changes f [] s).same_recv .U
        unfold setOptions
        rw [(same_recv_iff .U _ _).1 ((lineFaultTest_changes .D _).same (.recv .U)), lineFaultTest_recvSide]
        simpa using ⟨hrx, hqueue, htally⟩
  · exact ⟨_, rfl⟩

/-- Whatever treats a frame of port `p`, but for an accepted RESTART, leaves that port's receiver, receive queue and
tally. -/
theorem Treatment.recvSide {p : PortId} {row : Instr} {treat : Frame → State → State} (h : Treatment p row treat)
    (f : Frame) (s : State) (hr : row = .restart → restartRefused s = true) :
    ∃ lf, (treat f s).recvSide p = ((s.line.port p).rx, (s.line.port p).rxQueue, (s.line.port p).tally, lf) := by
  by_cases ho : row = .setOptions
  · subst ho
    cases h
    exact treatSetOptions_recvSide f s
  · exact ⟨_, (same_recv_iff p _ _).1 (h.same_recv f s ho hr p)⟩

theorem restartRefused_iff (s : State) : restartRefused s = true ↔ pourPhase s = true ∨ s.gate.feeder = .running := by
  simp [restartRefused]

/-- The taking of a RESTART's frame leaves what refuses it (R194). -/
theorem restartRefused_takeHead_U (e : RxEntry) (rest : List RxEntry) (row : Instr) (s : State) :
    restartRefused (takeHead .U e rest row s) = restartRefused s := by
  simp [restartRefused, pourPhase, State.visitPours]

theorem Treatment.restartRefused_taken {p : PortId} {row : Instr} {treat : Frame → State → State}
    (h : Treatment p row treat) (e : RxEntry) (rest : List RxEntry) {s : State}
    (hr : row = .restart → pourPhase s = true ∨ s.gate.feeder = .running) (hrow : row = .restart) :
    restartRefused (takeHead p e rest row s) = true := by
  subst hrow
  cases h
  rw [restartRefused_takeHead_U]
  exact (restartRefused_iff s).2 (hr rfl)

/-! ## LINE FAULT through the rest of the event -/

/-- What the rest of an event keeps of a state in which port `p` has entered or left LINE FAULT. -/
def KeepsLineFault (p : PortId) (t t' : State) : Prop :=
  (t'.line.port p).lineFault = (t.line.port p).lineFault ∧ t'.ladder.sources = t.ladder.sources
    ∧ (p = .D → Closes t t')

theorem KeepsLineFault.refl (p : PortId) (t : State) : KeepsLineFault p t t :=
  ⟨rfl, rfl, fun _ => ⟨rfl, rfl, rfl, rfl, rfl, rfl, rfl, rfl, rfl, rfl, Keeps.refl t⟩⟩

theorem KeepsLineFault.trans {p : PortId} {s t u : State} (h : KeepsLineFault p s t) (k : KeepsLineFault p t u) :
    KeepsLineFault p s u :=
  ⟨k.1.trans h.1, k.2.1.trans h.2.1, fun hp => (h.2.2 hp).trans (k.2.2 hp)⟩

theorem endEvent_keepsLineFault (p : PortId) (s : State) : KeepsLineFault p s (endEvent s) := by
  obtain ⟨-, -, -, hfault⟩ := (endEvent_changes s).same (.recv p) (by simp [closing])
  exact ⟨hfault, by simp, fun _ => endEvent_closes s⟩

theorem forward_ladder (p : PortId) (f : Frame) (s : State) : (forward p f s).ladder = s.ladder := by
  unfold forward
  split
  · rfl
  · split <;> rfl

/-- A forwarded frame that is no ORDER. -/
theorem forward_keepsLineFault (p : PortId) (f : Frame) (s : State) (h : f.kind ≠ kindOrder) :
    KeepsLineFault p s (forward p f s) := by
  obtain ⟨-, -, -, hfault⟩ := (forward_changes p f s).same_recv p
  refine ⟨hfault, by rw [forward_ladder], fun hp => ?_⟩
  subst hp
  exact forward_D_closes f s h

theorem EntersLineFault.keptBy {p : PortId} {s t t' : State} (h : EntersLineFault p s t) (k : KeepsLineFault p t t') :
    EntersLineFault p s t' := by
  obtain ⟨hset, hsource, htrigger⟩ := h
  obtain ⟨hfault, hsources, hcloses⟩ := k
  exact ⟨hfault.trans hset, by rw [hsources, hsource], fun hp => (htrigger hp).closes (hcloses hp)⟩

theorem LeavesLineFault.keptBy {p : PortId} {s t t' : State} (h : LeavesLineFault p s t) (k : KeepsLineFault p t t') :
    LeavesLineFault p s t' := by
  obtain ⟨hclear, hsource, hderate⟩ := h
  obtain ⟨hfault, hsources, hcloses⟩ := k
  exact ⟨hfault.trans hclear, by rw [hsources, hsource], fun hp => (hderate hp).closes (hcloses hp)⟩

/-- A dropped REQUEST, or a forwarded frame that is no ORDER, keeps to the end of its event what its taking did of LINE
FAULT. -/
theorem Treatment.keepsLineFault {p : PortId} {row : Instr} {treat : Frame → State → State} (h : Treatment p row treat)
    (f : Frame) (s : State) (hrow : row = .requestDropped p ∨ (row = .forwardFrame p ∧ f.kind ≠ kindOrder)) :
    KeepsLineFault p s (endEvent (treat f s)) := by
  refine KeepsLineFault.trans ?_ (endEvent_keepsLineFault p _)
  rcases hrow with rfl | ⟨rfl, hkind⟩
  · cases h
    exact KeepsLineFault.refl p s
  · cases h
    exact forward_keepsLineFault p f s hkind

/-! ## An error at the receiver (R172, R174) -/

/-- The byte at which the receiver finds an error steps the tally up (R172, R174). -/
theorem receiveByte_error {p : PortId} {s : State} {b : Byte} (hreset : s.pins.reset = false)
    (herr : (rxByte (s.line.port p).rx b).2 = .escapeError ∨ (rxByte (s.line.port p).rx b).2 = .lengthError
      ∨ (rxByte (s.line.port p).rx b).2 = .checkError) :
    receiveByte p s b
      = endEvent (tallyUp p (setLinePort p { s.line.port p with rx := (rxByte (s.line.port p).rx b).1 } s)) := by
  unfold receiveByte
  rw [if_neg (by simp [hreset])]
  simp only
  split <;> simp_all

theorem receiveByte_error_tally {p : PortId} {s : State} {b : Byte} (hreset : s.pins.reset = false)
    (herr : (rxByte (s.line.port p).rx b).2 = .escapeError ∨ (rxByte (s.line.port p).rx b).2 = .lengthError
      ∨ (rxByte (s.line.port p).rx b).2 = .checkError) :
    ((receiveByte p s b).line.port p).tally = min ((s.line.port p).tally + 1) 255 := by
  let u := setLinePort p { s.line.port p with rx := (rxByte (s.line.port p).rx b).1 } s
  obtain ⟨-, -, htally, -⟩ := (recvSide_eq_iff p _).1 ((endEvent_recvSide (tallyUp p u) p).trans (tallyUp_recvSide p u))
  rw [receiveByte_error hreset herr]
  simpa [u] using htally

end Sys2Proof.Machine

open Sys2Proof Sys2Proof.Machine

/-- Settles O20. The taking alone decides the tally and LINE FAULT (`takeHead_up_recvSide`, `takeHead_down_recvSide`,
`takeHead_moves`); of what follows in the event, a SET_OPTIONS' test of LINE FAULT alone touches the receiving side
again. -/
theorem takingStepsTheTally : Obligations.TakingStepsTheTally := by
  refine ⟨fun p => by cases p <;> rfl, fun s p b hreset herr => ⟨_, rfl, receiveByte_error_tally hreset herr⟩, ?_⟩
  intro s p row e rest h hrestart x up enters leaves moved taken
  obtain ⟨treat, ht⟩ := h.treated
  have htaken : OnlyChanges (lineFaultBlocks p) s taken := takeHead_lineFaultBlocks p e rest row s
  have hmoved : moved taken := takeHead_moves s p e rest row fun q hq => h.treated.dropped_port hq
  have hrefused := ht.restartRefused_taken e rest hrestart
  let t := endEvent (treat e.frame taken)
  obtain ⟨lf, hside⟩ : ∃ lf, t.recvSide p
      = ((taken.line.port p).rx, (taken.line.port p).rxQueue, (taken.line.port p).tally, lf) := by
    rw [endEvent_recvSide]
    exact ht.recvSide e.frame taken hrefused
  obtain ⟨hrx, hqueue, htally, -⟩ := (recvSide_eq_iff p t).1 hside
  have hsame (ho : row ≠ .setOptions) (q : PortId) : Same (.recv q) taken t :=
    (ht.same_recv e.frame taken ho hrefused q).trans ((same_recv_iff q _ _).2 (endEvent_recvSide _ q))
  have hother (ho : row ≠ .setOptions) : Same (.recv (otherPort p)) s t :=
    (htaken.same _ (by cases p <;> decide)).trans (hsame ho _)
  have hends (hrow : row = .requestDropped p ∨ (row = .forwardFrame p ∧ e.frame.kind ≠ 0x21)) : moved t :=
    have hkept : KeepsLineFault p taken t := ht.keepsLineFault e.frame taken hrow
    ⟨fun k => (hmoved.1 k).keptBy hkept, fun k => (hmoved.2 k).keptBy hkept⟩
  refine ⟨htaken, takeHead_quiet h.treated, hmoved, t, by rw [ht.exec_eq, takeFrame_of_heads treat h], ?_⟩
  by_cases hup : up
  · obtain ⟨krx, kqueue, ktally, kfault⟩ := (recvSide_eq_iff p taken).1 (takeHead_up_recvSide p e rest row s hup)
    refine ⟨hrx.trans krx, hqueue.trans kqueue, hends, fun _ => htally.trans ktally, fun n => absurd hup n,
      fun ho => ⟨hother ho, fun hf => ?_, fun hf _ => ?_, fun _ n => absurd hup n⟩⟩
    · rw [(hsame ho p).2.2.2, kfault, htally, ktally, hf]
      simp
    · rw [(hsame ho p).2.2.2, kfault, htally, ktally, hf]
      simp
  · obtain ⟨krx, kqueue, ktally, kfault⟩ :=
      (recvSide_eq_iff p taken).1 (takeHead_down_recvSide p e rest row s h.treated hup)
    refine ⟨hrx.trans krx, hqueue.trans kqueue, hends, fun k => absurd k hup, fun _ => htally.trans ktally,
      fun ho => ⟨hother ho, fun hf => ?_, fun _ k => absurd k hup, fun hf _ => ?_⟩⟩
    · rw [(hsame ho p).2.2.2, kfault, htally, ktally, hf]
      simp
    · rw [(hsame ho p).2.2.2, kfault, hf]
      simp

end

section
/-! What every command can change, said once by blocks, and the invariants that rest on a few blocks alone. -/

set_option Elab.async false

namespace Sys2Proof.Machine

/-! ## The blocks of a command that takes a frame -/

/-- What the treatment of a frame may change, by its command. -/
def treatmentBlocks : Instr → List Block
  | .beltSample => .prev :: .silence :: beltBlocks
  | .positionSample | .holdsenseSample => placementBlocks
  | .dustSample => dustBlocks
  | .feederSample => feederBlocks
  | .reply => replyBlocks
  | .run | .haltPlan => pourBlocks
  | .rate => [.visit, .rate, .send .U, .send .D, .injection]
  | .stop => [.visit, .send .U, .send .D, .injection]
  | .move | .halt => moveBlocks
  | .forwardFrame _ => [.send .U, .send .D, .injection]
  | .requestDropped _ => []
  | .load | .setAlarm => loadBlocks
  | .setOptions => optionBlocks
  | .openShip => openBlocks
  | .closeShip => closeBlocks
  | .startPlan | .resumePlan => selectionBlocks
  | .skipSlot => .unbilled :: selectionBlocks
  | .zeroBelt => [.zero, .reserved, .sources, .send .U]
  | .zeroAbort => zeroEndBlocks
  | .sweep => sweepBlocks
  | .ackAlarm | .doneAlarm => alarmBlocks
  | .takeRecords => [.send .U, .records]
  | _ => [.send .U]

/-- Every treatment but an accepted RESTART's keeps to its command's blocks. -/
theorem Treatment.changes {p : PortId} {row : Instr} {treat : Frame → State → State} (h : Treatment p row treat)
    (hr : row ≠ .restart) (f : Frame) (s : State) : OnlyChanges (treatmentBlocks row) s (treat f s) := by
  cases h with
  | belt => exact treatBelt_changes f s
  | position => exact treatPosition_changes f s
  | sense => exact treatSense_changes f s
  | dust => exact treatDust_changes f s
  | feeder => exact treatFeeder_changes f s
  | reply => exact treatReply_changes f s
  | run => exact treatRun_changes f s
  | rate => exact treatRate_changes f s
  | stop => exact treatStop_changes f s
  | move => exact treatMove_changes f s
  | halt => exact treatHalt_changes f s
  | forwarded => exact forward_changes _ f s
  | dropped => exact OnlyChanges.refl _ s
  | badRequest => exact refuse_U f _ s
  | load => exact treatLoad_changes f s
  | read => exact treatRead_changes f s
  | status => exact treatStatus_changes f s
  | setOptions => exact treatSetOptions_changes f s
  | openShip => exact treatOpenShip_changes f s
  | closeShip => exact treatCloseShip_changes f s
  | startPlan => exact treatStartPlan_changes f s
  | haltPlan => exact treatHaltPlan_changes f s
  | resumePlan => exact treatResumePlan_changes f s
  | skipSlot => exact treatSkipSlot_changes f s
  | zeroBelt => exact treatZeroBelt_changes f s
  | zeroAbort => exact treatZeroAbort_changes f s
  | sweep => exact treatSweep_changes f s
  | ackAlarm => exact treatAckAlarm_changes f s
  | doneAlarm => exact treatDoneAlarm_changes f s
  | setAlarm => exact treatSetAlarm_changes f s
  | readRecords => exact treatReadRecords_changes f s
  | takeRecords => exact treatTakeRecords_changes f s
  | restart => exact absurd rfl hr
  | badDestination => exact refuse_U f _ s
  | badFrame => exact refuse_U f _ s

/-- What a command that takes a frame may change, from the taking to the end of its event. -/
def frameBlocks (p : PortId) (row : Instr) : List Block := takingBlocks p ++ treatmentBlocks row ++ closing

theorem Treatment.event_changes {p : PortId} {row : Instr} {treat : Frame → State → State}
    (h : Treatment p row treat) (hr : row ≠ .restart) (s : State) (e : RxEntry) (rest : List RxEntry) :
    OnlyChanges (frameBlocks p row) s (endEvent (treat e.frame (takeHead p e rest row s))) := by
  have htaken := (takeHead_changes p e rest row s).mono (ys := frameBlocks p row)
    fun b hb => List.mem_append_left _ (List.mem_append_left _ hb)
  have htreated := (h.changes hr e.frame (takeHead p e rest row s)).mono (ys := frameBlocks p row)
    fun b hb => List.mem_append_left _ (List.mem_append_right _ hb)
  exact (htaken.trans htreated).trans ((endEvent_changes _).mono fun b hb => List.mem_append_right _ hb)

/-- A RESTART is refused or makes the cold reset (R194). -/
theorem treatRestart_cases (f : Frame) (s : State) :
    (restartRefused s = true ∧ treatRestart f s = answerRefused f .busy s)
      ∨ (restartRefused s = false ∧ treatRestart f s = endReset (coldReset s)) := by
  unfold treatRestart
  cases h : restartRefused s <;> simp

/-! ## The blocks of the other events -/

/-- What the events that take no frame may change, but for the ends of a reset. -/
def eventBlocks : List Block :=
  .recv .U :: .recv .D :: .silence :: .pins :: .zero :: .fault :: .sweep :: .sensors :: .conds :: bandBlocks

theorem setStopPin_changes (b : Bool) (s : State) : OnlyChanges [.pins] s (setStopPin b s) := by
  intro x hx
  cases x <;> simp_all [Same, setStopPin]

theorem stopAsserted_changes (s : State) : OnlyChanges (.pins :: .conds :: .sweep :: pourBlocks) s (stopAsserted s) := by
  unfold stopAsserted
  have h1 := (setStopPin_changes true s).mono (ys := .pins :: .conds :: .sweep :: pourBlocks)
  have h2 := (h1.then (dismissHeldMove_changes .cancelled _)).then (cancelSweep_changes _)
  exact ((h2.then (takeTrigger_changes .stopInput _)).then (setCond_changes srcStopInput true _)).then
    (raise_changes srcStopInput _)

theorem setSilence_changes (x : Option Nat) (s : State) :
    OnlyChanges [.silence] s { s with meter := { s.meter with silence := x } } := by
  intro b hb
  cases b <;> simp_all [Same]

theorem expiredOrder_changes (d : InjDest) (o : InjOrder) (s : State) :
    OnlyChanges (.sweep :: pourBlocks) s (expiredOrder d o s) := by
  unfold expiredOrder
  cases d with
  | feeder => exact (feederOutcome_changes o true s).mono
  | drive a =>
    simp only
    split
    · split
      · exact (faultSweep_changes s).mono
      · exact OnlyChanges.refl _ s
    · exact OnlyChanges.refl _ s

/-- An event that takes no frame keeps to its blocks, unless it ends a reset. -/
theorem Event.changes_or_resets {s t : State} (h : Event s t) :
    OnlyChanges eventBlocks s t ∨ ∃ u, t = endReset u ∧ u.pins.reset = false ∧ u = { coldReset s with pins := u.pins } := by
  cases h with
  | receiveError p x s hr hx =>
    refine .inl (((setLinePort_recv p x s (by rw [hx]) (by rw [hx])).mono ?_).trans ((tallyUp_changes p _).mono ?_))
      <;> cases p <;> decide
  | silence t s h hd => exact .inl (((setSilence_changes none s).mono).then (setMeterFault_changes _))
  | zeroTimeout z s h hd => exact .inl (endZero_changes _ _ s).mono
  | sensorSilence i t s h hd =>
    exact .inl ((((setSensor_changes i _ s).mono).then (silenceSensor_changes i _)).then (reformBands_changes _))
  | replyWindow d e s h hd => exact .inl (((abandonOrder_changes d s).mono).then (expiredOrder_changes d e.order _))
  | stepTimeout w s h hd => exact .inl (faultSweep_changes s).mono
  | stopAsserted s h hr => exact .inl (stopAsserted_changes s).mono
  | stopCleared s h hr => exact .inl (((setStopPin_changes false s).mono).then (setCond_changes _ _ _))
  | released s h => exact .inr ⟨_, rfl, rfl, rfl⟩
  | poweredOn s h => exact .inr ⟨_, rfl, h, rfl⟩

end Sys2Proof.Machine
end

section
/-! Invariants that rest on a few blocks, what a request's answer and a LOAD can bring about, and the rate limit (R95). -/

set_option Elab.async false

namespace Sys2Proof.Machine

/-! ## Resets and quiet changes, by blocks -/

/-- What the changes that close no event may change, but for a cold reset. -/
def quietBlocks : List Block := [.recv .U, .recv .D, .send .U, .send .D, .injection, .clock, .queue, .pins]

theorem endSending_changes (p : PortId) (s : State) : OnlyChanges [.send .U, .send .D, .injection] s (endSending p s) := by
  intro b hb
  have hrecv (q : PortId) : Same (.recv q) s (endSending p s) := by
    unfold endSending
    split
    · obtain ⟨hrx, hqueue, htally, hfault⟩ := begin_port (s.line.setPort p { s.line.port p with sending := none }) p q
      refine ⟨hrx.trans ?_, hqueue.trans ?_, htally.trans ?_, hfault.trans ?_⟩ <;> cases p <;> cases q <;> rfl
    · exact Same.refl _ s
  cases b with
  | recv q => exact hrecv q
  | send q => cases q <;> simp at hb
  | injection => simp at hb
  | _ => unfold endSending; split <;> simp [Same]

theorem tick_changes (s : State) : OnlyChanges [.clock, .queue] s (tick s) := by
  intro b hb
  cases b <;> simp_all [Same, tick]

@[simp] theorem Port.enqueue_kept (x : Port) (f : Frame) :
    (x.enqueue f).rx = x.rx ∧ (x.enqueue f).txQueue = x.txQueue ∧ (x.enqueue f).sending = x.sending
      ∧ (x.enqueue f).tally = x.tally ∧ (x.enqueue f).lineFault = x.lineFault := by
  unfold Port.enqueue
  split <;> simp

theorem Quiet.changes_or_resets {s t : State} (h : Quiet s t) :
    OnlyChanges quietBlocks s t ∨ t = { coldReset s with pins := t.pins } := by
  cases h with
  | receiver p rx s =>
    have h := setLinePort_recv p { s.line.port p with rx := rx } s rfl rfl
    exact .inl (h.mono (by cases p <;> decide))
  | received p rx f s hr =>
    have h := setLinePort_recv p (Port.enqueue { s.line.port p with rx := rx } f) s (by simp) (by simp)
    exact .inl (h.mono (by cases p <;> decide))
  | sent p s => exact .inl (endSending_changes p s).mono
  | tick s => exact .inl (tick_changes s).mono
  | taken cs s => exact .inl fun b hb => by cases b <;> simp_all [Same, quietBlocks]
  | heldReset s h => exact .inr rfl
  | heldPower s h => exact .inr rfl
  | heldStop b s h => exact .inl (setStopPin_changes b s).mono

theorem endReset_changes (s : State) : OnlyChanges [.sources, .conds] s (endReset s) := by
  unfold endReset
  split
  · exact (setCond_changes _ true s).then (raise_changes _ _)
  · exact OnlyChanges.refl _ s

theorem coldReset_pins_changes (s : State) (x : Pins) : OnlyChanges [.pins] (coldReset s) { coldReset s with pins := x } := by
  intro b hb
  cases b <;> simp_all [Same]

/-! ## Invariants that rest on a few blocks -/

/-- A property of blocks that neither the line nor the inputs touch, true after a cold reset, is kept by every step when
the treatments that name one of its blocks keep it, and the events do. -/
theorem step_keeps_on {P : State → Prop} (on : List Block) (hp : ∀ s t, (∀ b ∈ on, Same b s t) → P s → P t)
    (hreset : ∀ s, P (coldReset s)) (hon : ∀ b ∈ on, b ∉ .sources :: .conds :: quietBlocks ++ closing)
    (ht : ∀ p row treat, Treatment p row treat → row ≠ .restart → ¬ (∀ b ∈ on, b ∉ frameBlocks p row) →
      ∀ s e rest, Heads s p row e rest → P s → P (endEvent (treat e.frame (takeHead p e rest row s))))
    (he : ∀ s t, Event s t → OnlyChanges eventBlocks s t → P s → P t)
    (s t : State) (hx : step s = .next t) (h : P s) : P t := by
  have keeps {xs : List Block} {u v : State} (hc : OnlyChanges xs u v)
      (hxs : ∀ b ∈ xs, b ∈ .sources :: .conds :: quietBlocks ++ closing) : P u → P v :=
    keeps_of_blocks on hp hc fun b hb hbx => hon b hb (hxs b hbx)
  have reset (u : State) (x : Pins) : P { coldReset u with pins := x } :=
    keeps (coldReset_pins_changes u x) (by decide) (hreset u)
  have ends (u : State) : P u → P (endEvent u) := keeps (endEvent_changes u) (by decide)
  have ended (u : State) : P u → P (endReset u) := keeps (endReset_changes u) (by decide)
  refine step_keeps (fun p row treat hrow s e rest hhead hs => ?_) (fun s t hev hs => ends t ?_)
    (fun s t hquiet hs => ?_) s t hx h
  · by_cases hr : row = .restart
    · subst hr
      cases hrow
      have htaken : OnlyChanges [.recv .U, .sources, .conds] s (takeHead .U e rest .restart s) := takeHead_U e rest _ s
      refine ends _ ?_
      rcases treatRestart_cases e.frame (takeHead .U e rest .restart s) with ⟨-, hbusy⟩ | ⟨-, hdone⟩
      · rw [hbusy]
        exact keeps (answerRefused_changes _ _ _) (by decide) (keeps htaken (by decide) hs)
      · rw [hdone]
        exact ended _ (hreset _)
    · by_cases hb : ∀ b ∈ on, b ∉ frameBlocks p row
      · exact keeps_of_blocks on hp (hrow.event_changes hr s e rest) hb hs
      · exact ht p row treat hrow hr hb s e rest hhead hs
  · rcases hev.changes_or_resets with hc | ⟨u, rfl, -, hu⟩
    · exact he s t hev hc hs
    · rw [hu]
      exact ended _ (reset s _)
  · rcases hquiet.changes_or_resets with hc | hc
    · exact keeps hc (by decide) hs
    · rw [hc]
      exact reset s _

/-! ## Answered requests -/

/-- A judged request is refused, or answered DONE and brought about. -/
theorem answerJudged_cases {α : Type} (f : Frame) (j : Except Reason α) (effect : α → State → State) (s : State) :
    (∃ r, j = .error r ∧ answerJudged f j effect s = answerRefused f r s)
      ∨ ∃ x, j = .ok x ∧ answerJudged f j effect s = effect x (answerDone f [] s) := by
  cases j with
  | error r => exact .inl ⟨r, rfl, rfl⟩
  | ok x => exact .inr ⟨x, rfl, rfl⟩

/-- What a load that is accepted has passed (R191). -/
theorem judgeLoad_ok {α : Type} {s : State} {l : Load} {build : List (Option Nat) → Option α}
    {relation : α → Option Reason} {busy : α → Bool} {x : α} (h : judgeLoad s l build relation busy = .ok x) :
    inRanges (fieldRanges l.table l.entry) l.fields = true ∧ build (l.merged s) = some x ∧ relation x = none
      ∧ busy x = false := by
  unfold judgeLoad at h
  split at h
  next hin =>
    split at h
    · cases h
    next y hb =>
      split at h
      · cases h
      next hr =>
        split at h
        · cases h
        next hy =>
          cases h
          exact ⟨hin, hb, hr, by simpa using hy⟩
  · cases h

/-- What an accepted LOAD brings about, by its table, with the judgement it has passed. -/
inductive LoadEffect (s : State) (l : Load) : (State → State) → Prop
  | nothing : LoadEffect s l (applyNothing l)
  | stations (a : Option Byte)
      (h : judgeLoad s l buildStation (stationRelation s l.entry) (fun _ => stationBusy s) = .ok a) :
      LoadEffect s l (applyStation l.entry a)
  | scale (x : ScaleTable) (ht : l.table = .scale)
      (h : judgeLoad s l buildScale noRelation (fun _ => pourPhase s || s.meter.zero.isSome) = .ok x) :
      LoadEffect s l (applyScale x)
  | travel (x : TravelTable) : LoadEffect s l (applyTravel x)
  | envelopes (x : Envelope) : LoadEffect s l (applyEnvelope l.entry x)
  | holds (x : HoldEntry) : LoadEffect s l (applyHold l.entry x)
  | sequence (x : Slot) : LoadEffect s l (applySlot l.entry x)
  | plan (x : PlanHeader) : LoadEffect s l (applyPlan x)
  | gate (w : Nat) : LoadEffect s l (applyGate w)
  | derate (x : Nat × Nat) : LoadEffect s l (applyDerate x)
  | sensor (x : SensorEntry) : LoadEffect s l (applySensor l x)
  | alarm (x : AlarmFields) (ht : l.table = .alarm)
      (h : judgeLoad s l buildAlarm noRelation (alarmBusy s l.entry) = .ok x) : LoadEffect s l (applyAlarm l.entry x)
  | marks (v : Vector Nat 4) : LoadEffect s l (applyMarks v)

/-- A LOAD is refused, or answered DONE and brought about (R191). -/
theorem runLoad_cases (f : Frame) (l : Load) (s : State) :
    (∃ r, runLoad f l s = answerRefused f r s)
      ∨ ∃ effect, LoadEffect s l effect ∧ runLoad f l s = effect (answerDone f [] s) := by
  have judged {α : Type} {j : Except Reason α} {k : α → State → State} (hk : ∀ x, j = .ok x → LoadEffect s l (k x)) :
      (∃ r, answerJudged f j k s = answerRefused f r s)
        ∨ ∃ effect, LoadEffect s l effect ∧ answerJudged f j k s = effect (answerDone f [] s) := by
    rcases answerJudged_cases f j k s with ⟨r, -, h⟩ | ⟨x, hx, h⟩
    · exact .inl ⟨r, h⟩
    · exact .inr ⟨k x, hk x hx, h⟩
  unfold runLoad
  split
  · exact .inr ⟨_, .nothing, rfl⟩
  · unfold loadTable
    cases ht : l.table with
    | stations => exact judged fun a h => .stations a h
    | scale => exact judged fun x h => .scale x ht h
    | travel => exact judged fun x _ => .travel x
    | envelopes => exact judged fun x _ => .envelopes x
    | holds => exact judged fun x _ => .holds x
    | sequence => exact judged fun x _ => .sequence x
    | plan => exact judged fun x _ => .plan x
    | gate => exact judged fun x _ => .gate x
    | dust =>
      simp only
      split
      · exact judged fun x _ => .derate x
      · exact judged fun x _ => .sensor x
    | alarm => exact judged fun x h => .alarm x ht h
    | bills => exact judged fun x _ => .marks x
    | accounts => exact .inl ⟨_, rfl⟩

theorem treatLoad_cases (f : Frame) (s : State) :
    (∃ r, treatLoad f s = answerRefused f r s)
      ∨ ∃ l effect, LoadEffect s l effect ∧ treatLoad f s = effect (answerDone f [] s) := by
  unfold treatLoad
  split
  · exact .inl ⟨_, rfl⟩
  · split
    next l _ =>
      rcases runLoad_cases f l s with h | ⟨effect, h⟩
      · exact .inl h
      · exact .inr ⟨l, effect, h⟩
    · exact .inl ⟨_, rfl⟩

theorem treatSetAlarm_cases (f : Frame) (s : State) :
    treatSetAlarm f s = s ∨ (∃ r, treatSetAlarm f s = answerRefused f r s)
      ∨ ∃ l effect, LoadEffect s l effect ∧ treatSetAlarm f s = effect (answerDone f [] s) := by
  unfold treatSetAlarm
  split
  · split
    next n mask rank rec pres _ _ =>
      rcases runLoad_cases f (setAlarmLoad n mask rank rec pres) s with h | ⟨effect, h⟩
      · exact .inr (.inl h)
      · exact .inr (.inr ⟨_, effect, h⟩)
    · exact .inr (.inl ⟨_, rfl⟩)
  · exact .inl rfl

theorem treatAckAlarm_cases (f : Frame) (s : State) :
    treatAckAlarm f s = s ∨ (∃ r, treatAckAlarm f s = answerRefused f r s)
      ∨ ∃ i r, s.ladder.presented = some (i, r) ∧ treatAckAlarm f s = ackAlarm i (answerDone f [] s) := by
  unfold treatAckAlarm
  split
  next n _ =>
    rcases answerJudged_cases f (judgeAck s n.toNat) ackAlarm s with ⟨r, -, h⟩ | ⟨i, hj, h⟩
    · exact .inr (.inl ⟨r, h⟩)
    · refine .inr (.inr ?_)
      unfold judgeAck at hj
      split at hj
      · cases hj
      · split at hj
        next hpres =>
          cases hj
          obtain ⟨⟨i, r⟩, hir, rfl⟩ := Option.map_eq_some_iff.1 hpres
          exact ⟨i, r, hir, h⟩
        · cases hj
  · exact .inl rfl

theorem treatDoneAlarm_cases (f : Frame) (s : State) :
    treatDoneAlarm f s = s ∨ (∃ r, treatDoneAlarm f s = answerRefused f r s)
      ∨ ∃ i st, s.ladder.stack = i :: st ∧ treatDoneAlarm f s = doneAlarm i (answerDone f [] s) := by
  unfold treatDoneAlarm
  split
  next n _ =>
    rcases answerJudged_cases f (judgeDone s n.toNat) doneAlarm s with ⟨r, -, h⟩ | ⟨i, hj, h⟩
    · exact .inr (.inl ⟨r, h⟩)
    · refine .inr (.inr ?_)
      unfold judgeDone at hj
      split at hj
      · cases hj
      · split at hj
        next htop =>
          cases hj
          obtain ⟨st, hst⟩ := List.head?_eq_some_iff.1 htop
          exact ⟨i, st, hst, h⟩
        · cases hj
  · exact .inl rfl

/-! ## The rate limit (R95) -/

/-- The blocks that the rate limit rests on. -/
def limitBlocks : List Block := [.limit, .planTables, .derates, .band]

theorem LimitTrue.congr {s t : State} (h : ∀ b ∈ limitBlocks, Same b s t) (k : LimitTrue s) : LimitTrue t := by
  obtain ⟨hlimit, ⟨-, -, hheader⟩, ⟨helev, hhigh⟩, hband, -⟩ :
      Same .limit s t ∧ Same .planTables s t ∧ Same .derates s t ∧ Same .band s t := by
    simpa [limitBlocks] using h
  have hpercent : t.dust.percent = s.dust.percent := by
    funext b
    cases b <;> simp [Dust.percent, helev, hhigh]
  unfold LimitTrue rateLimitOf at *
  rw [hheader, hband, hpercent]
  exact Eq.trans hlimit k

theorem LimitTrue.frame {xs : List Block} {s t : State} (h : OnlyChanges xs s t) (k : LimitTrue s)
    (hx : ∀ b ∈ limitBlocks, b ∉ xs := by decide) : LimitTrue t := keeps_of_blocks limitBlocks (fun _ _ => LimitTrue.congr) h hx k

/-- A recomputed limit is true, whatever stood before. -/
theorem recomputeLimit_limitTrue (s : State) : LimitTrue (recomputeLimit s) := by
  obtain ⟨hlimit, hheader, -, -, hdust⟩ := recomputeLimit_fields s
  rw [LimitTrue, hlimit, rateLimitOf, rateLimitOf, hheader, hdust]

theorem reformBands_limitTrue {s : State} (h : LimitTrue s) : LimitTrue (reformBands s) := by
  unfold reformBands
  simp only
  split
  next hsame =>
    rw [LimitTrue, rateLimitOf] at h ⊢
    simpa [hsame, Dust.percent] using h
  next =>
    split
    · exact (recomputeLimit_limitTrue _).frame (takeTrigger_changes _ _)
    · exact recomputeLimit_limitTrue _

theorem retestLatch_limitTrue {s : State} (i : SensorNo) (h : LimitTrue s) : LimitTrue (retestLatch i s) :=
  reformBands_limitTrue (h.frame (releaseTest_changes i s))

theorem reportSource_limitTrue {s : State} (i : SourceNo) (h : LimitTrue s) : LimitTrue (reportSource i s) := by
  unfold reportSource
  split
  · exact retestLatch_limitTrue _ h
  · exact h

theorem applyPlan_limitTrue {s : State} (x : PlanHeader) (h : LimitTrue s) : LimitTrue (applyPlan x s) := by
  unfold applyPlan
  cases ho : s.seq.header with
  | none => exact recomputeLimit_limitTrue _
  | some o =>
    simp only
    split
    next hsame =>
      rw [LimitTrue, rateLimitOf, ho] at h
      rw [LimitTrue, rateLimitOf]
      simpa [← beq_iff_eq.1 hsame] using h
    next => exact recomputeLimit_limitTrue _

theorem applyDerate_limitTrue {s : State} (x : Nat × Nat) (h : LimitTrue s) : LimitTrue (applyDerate x s) := by
  unfold applyDerate
  simp only
  split
  next hsame =>
    rw [LimitTrue, rateLimitOf] at h ⊢
    simpa [hsame] using h
  next => exact recomputeLimit_limitTrue _

theorem applySensor_limitTrue {s : State} (l : Load) (x : SensorEntry) (h : LimitTrue s) :
    LimitTrue (applySensor l x s) := by
  unfold applySensor
  split
  · exact retestLatch_limitTrue _ (h.frame (loadSensor_changes _ _ _ _))
  · exact h

theorem applyAlarm_limitTrue {s : State} (e : Nat) (x : AlarmFields) (h : LimitTrue s) :
    LimitTrue (applyAlarm e x s) := by
  unfold applyAlarm
  split
  · simp only
    split
    · exact h.frame (putSource_changes _ _ s)
    · exact reportSource_limitTrue _ (h.frame (putSource_changes _ _ s))
  · exact h

theorem LoadEffect.limitTrue {s u : State} {l : Load} {effect : State → State} (h : LoadEffect s l effect)
    (k : LimitTrue u) : LimitTrue (effect u) := by
  cases h with
  | nothing =>
    unfold applyNothing
    split
    · exact retestLatch_limitTrue _ k
    · exact k
  | stations a => exact k.frame (applyStation_changes _ _ _)
  | scale x => exact k.frame (applyScale_changes _ _)
  | travel x => exact k.frame (applyTravel_changes _ _)
  | envelopes x => exact k.frame (applyEnvelope_changes _ _ _)
  | holds x =>
    unfold applyHold
    split <;> exact k
  | sequence x =>
    unfold applySlot
    split <;> exact k
  | plan x => exact applyPlan_limitTrue x k
  | gate w => exact k.frame (applyGate_changes _ _)
  | derate x => exact applyDerate_limitTrue x k
  | sensor x => exact applySensor_limitTrue l x k
  | alarm x => exact applyAlarm_limitTrue _ x k
  | marks v => exact k.frame (applyMarks_changes _ _)

theorem takeDust_limitTrue {s : State} (i : SensorNo) (e : SensorEntry) (c : Nat) (ok : Bool) (k : LimitTrue s) :
    LimitTrue (takeDust i e c ok s) := by
  unfold takeDust
  refine reformBands_limitTrue ?_
  have hrestart := k.frame (restartSensor_changes i s)
  split
  · exact (((hrestart.frame (averageSensor_changes i e c _)).frame (tripSensor_changes i e c _)).frame
      (hearSensor_changes i _)).frame (dustAlarms_changes i e _ c _)
  · exact hrestart.frame (silenceSensor_changes i _)

theorem treatDust_limitTrue {s : State} (f : Frame) (k : LimitTrue s) : LimitTrue (treatDust f s) := by
  unfold treatDust
  split
  · refine LimitTrue.frame (forward_changes _ _ _) ?_
    split
    · exact k
    · split
      · split
        · exact takeDust_limitTrue _ _ _ _ k
        · exact k
      · exact k
  · exact k

/-- The treatments that name a block of the rate limit. -/
theorem Treatment.limitTrue {p : PortId} {row : Instr} {treat : Frame → State → State} (h : Treatment p row treat)
    (hb : ¬ (∀ b ∈ limitBlocks, b ∉ frameBlocks p row)) (f : Frame) {s : State} (k : LimitTrue s) :
    LimitTrue (treat f s) := by
  have refused (r : Reason) : LimitTrue (answerRefused f r s) := k.frame (answerRefused_changes f r s)
  have answered : LimitTrue (answerDone f [] s) := k.frame (answerDone_changes f [] s)
  cases h
  case dust => exact treatDust_limitTrue f k
  case load =>
    rcases treatLoad_cases f s with ⟨r, hr⟩ | ⟨l, effect, he, hr⟩ <;> rw [hr]
    · exact refused r
    · exact he.limitTrue answered
  case setAlarm =>
    rcases treatSetAlarm_cases f s with hr | ⟨r, hr⟩ | ⟨l, effect, he, hr⟩ <;> rw [hr]
    · exact k
    · exact refused r
    · exact he.limitTrue answered
  case ackAlarm =>
    rcases treatAckAlarm_cases f s with hr | ⟨r, hr⟩ | ⟨i, r, -, hr⟩ <;> rw [hr]
    · exact k
    · exact refused r
    · exact reportSource_limitTrue i (LimitTrue.congr (by simp [limitBlocks, Same]) answered)
  case doneAlarm =>
    rcases treatDoneAlarm_cases f s with hr | ⟨r, hr⟩ | ⟨i, st, -, hr⟩ <;> rw [hr]
    · exact k
    · exact refused r
    · exact reportSource_limitTrue i (LimitTrue.congr (by simp [limitBlocks, Same]) answered)
  case forwarded => exact absurd (by cases p <;> decide) hb
  case dropped => exact absurd (by cases p <;> decide) hb
  all_goals exact absurd (by decide) hb

theorem Event.limitTrue {s t : State} (h : Event s t) (hc : OnlyChanges eventBlocks s t) (k : LimitTrue s) :
    LimitTrue t := by
  cases h with
  | receiveError p x s hr hx =>
    refine LimitTrue.frame (tallyUp_changes p _) (k.frame (setLinePort_recv p x s (by rw [hx]) (by rw [hx])) ?_) ?_
      <;> cases p <;> decide
  | silence t s h hd => exact (k.frame (setSilence_changes none s)).frame (setMeterFault_changes _)
  | zeroTimeout z s h hd => exact k.frame (endZero_changes _ _ s)
  | sensorSilence i t s h hd =>
    exact reformBands_limitTrue ((k.frame (setSensor_changes i _ s)).frame (silenceSensor_changes i _))
  | replyWindow d e s h hd => exact (k.frame (abandonOrder_changes d s)).frame (expiredOrder_changes d e.order _)
  | stepTimeout w s h hd => exact k.frame (faultSweep_changes s)
  | stopAsserted s h hr => exact k.frame (stopAsserted_changes s)
  | stopCleared s h hr => exact (k.frame (setStopPin_changes false s)).frame (setCond_changes _ _ _)
  | released s h => exact LimitTrue.frame (endReset_changes _) rfl
  | poweredOn s h => exact LimitTrue.frame (endReset_changes _) rfl

end Sys2Proof.Machine

open Sys2Proof Sys2Proof.Machine

/-- Settles O16. The limit rests on four blocks; what changes one of them recomputes the limit. -/
theorem limitStaysTrue : Obligations.LimitStaysTrue := fun s t k h =>
  step_keeps_on limitBlocks (fun _ _ => LimitTrue.congr) (fun _ => rfl) (by decide)
    (fun p row treat hrow hr hb s e rest _ k =>
      (hrow.limitTrue hb e.frame (k.frame (takeHead_changes p e rest row s) (by cases p <;> decide))).frame
        (endEvent_changes _))
    (fun s t he hc k => he.limitTrue hc k) s t h k

end

section
/-! FEED PERMIT and the held reset (R106, R195), and LINE FAULT (R174, R175), as every step keeps them. -/

set_option Elab.async false

namespace Sys2Proof.Machine

/-! ## FEED PERMIT (R106) -/

/-- The end of an event evaluates the permit, which reads nothing that the end itself changes. -/
theorem endEvent_permitTrue (s : State) : PermitTrue (endEvent s) := by
  simp [PermitTrue, permitOf, State.ready, visitPermits, Ladder.state]

/-- The blocks that the permit and its conditions rest on. -/
def permitBlocks : List Block :=
  [.permit, .part, .plan, .visit, .placement, .pins, .band, .fault, .sources]

theorem PermitTrue.congr {s t : State} (h : ∀ b ∈ permitBlocks, Same b s t)
    (hfault : t.line.d.lineFault = s.line.d.lineFault) (k : PermitTrue s) : PermitTrue t := by
  obtain ⟨hpermit, ⟨hpart, -, -⟩, ⟨hplan, -, -, -, -, -, -⟩, hvisit, ⟨-, hpour⟩, hpins, ⟨hband, -⟩, ⟨hmeter, -⟩, hsources⟩ :
      Same .permit s t ∧ Same .part s t ∧ Same .plan s t ∧ Same .visit s t ∧ Same .placement s t ∧ Same .pins s t
        ∧ Same .band s t ∧ Same .fault s t ∧ Same .sources s t := by
    simpa [permitBlocks] using h
  have hstate (i : SourceNo) : t.ladder.state i = s.ladder.state i := (hsources i).1
  unfold PermitTrue permitOf State.ready visitPermits at *
  rw [hpart, hplan, hvisit, hpour, hpins, hband, hmeter, hfault, hstate, hstate]
  exact Eq.trans hpermit k

/-! ## The held reset (R195) -/

/-- An UNCONFIGURED part has no permit. -/
theorem permitOf_unconfigured {s : State} (h : s.handler.part = .unconfigured) : permitOf s = false := by
  simp [permitOf, State.ready, h]

theorem HeldInReset.congr {s t : State} (hpins : t.pins = s.pins) (hpart : t.handler.part = s.handler.part)
    (hqueue : ∀ p, (t.line.port p).rxQueue = (s.line.port p).rxQueue) (k : HeldInReset s) : HeldInReset t := by
  intro hr
  obtain ⟨kpart, ku, kd⟩ := k (by rw [← hpins]; exact hr)
  exact ⟨hpart.trans kpart, (hqueue .U).trans ku, (hqueue .D).trans kd⟩

theorem HeldInReset.frame {xs : List Block} {s t : State} (h : OnlyChanges xs s t) (k : HeldInReset s)
    (hpins : Block.pins ∉ xs := by decide) (hpart : Block.part ∉ xs := by decide)
    (hU : Block.recv .U ∉ xs := by decide) (hD : Block.recv .D ∉ xs := by decide) : HeldInReset t :=
  k.congr (h.same .pins hpins) (h.same .part hpart).1 fun p => (h.same_recv p hU hD).2.1

theorem HeldInReset.of_released {s : State} (h : s.pins.reset = false) : HeldInReset s :=
  fun hr => absurd (h.symm.trans hr) (by decide)

/-- A part that holds a received frame is not held in reset. -/
theorem HeldInReset.released {s : State} {p : PortId} {row : Instr} {e : RxEntry} {rest : List RxEntry}
    (k : HeldInReset s) (h : Heads s p row e rest) : s.pins.reset = false := by
  by_contra hr
  obtain ⟨-, ku, kd⟩ := k (by simpa using hr)
  cases p with
  | U => exact absurd (ku.symm.trans h.1) (by simp)
  | D => exact absurd (kd.symm.trans h.1) (by simp)

/-- The taking and treating of a frame leave the RESET input. -/
theorem Treatment.reset_pin {p : PortId} {row : Instr} {treat : Frame → State → State} (h : Treatment p row treat)
    (s : State) (e : RxEntry) (rest : List RxEntry) :
    (endEvent (treat e.frame (takeHead p e rest row s))).pins = s.pins := by
  by_cases hr : row = .restart
  · subst hr
    cases h
    have htaken : (takeHead .U e rest .restart s).pins = s.pins := by simp
    rcases treatRestart_cases e.frame (takeHead .U e rest .restart s) with ⟨-, h⟩ | ⟨-, h⟩
    · rw [h, ((endEvent_changes _).same .pins : _ = _), (answerRefused_changes _ _ _).same .pins]
      exact htaken
    · rw [h, ((endEvent_changes _).same .pins : _ = _), (endReset_changes _).same .pins]
      exact htaken
  · refine (h.event_changes hr s e rest).same .pins ?_
    cases h
    case forwarded => cases p <;> decide
    case dropped => cases p <;> decide
    all_goals decide

theorem stopAsserted_pins (s : State) : (stopAsserted s).pins = ⟨s.pins.reset, true⟩ := by
  have hkept : (takeTrigger .stopInput (cancelSweep (dismissHeldMove .cancelled (setStopPin true s)))).pins
      = (setStopPin true s).pins :=
    (((dismissHeldMove_changes _ _).same .pins).trans ((cancelSweep_changes _).same .pins)).trans
      ((takeTrigger_changes _ _).same .pins)
  simpa [stopAsserted, setStopPin] using hkept

theorem endReset_pins (s : State) : (endReset s).pins = s.pins := (endReset_changes s).same .pins

/-- No event moves a part that is held in reset: the events that end a reset release it. -/
theorem Event.heldInReset {s t : State} (h : Event s t) (k : HeldInReset s) : HeldInReset t := by
  cases h with
  | receiveError p x s hr hx =>
    refine HeldInReset.of_released ?_
    rw [((tallyUp_changes p _).same .pins (by cases p <;> decide) : _ = _)]
    exact hr
  | silence t s h hd => exact HeldInReset.frame (setMeterFault_changes _) (k.frame (setSilence_changes none s))
  | zeroTimeout z s h hd => exact k.frame (endZero_changes _ _ s)
  | sensorSilence i t s h hd =>
    exact ((k.frame (setSensor_changes i _ s)).frame (silenceSensor_changes i _)).frame (reformBands_changes _)
  | replyWindow d e s h hd => exact (k.frame (abandonOrder_changes d s)).frame (expiredOrder_changes d e.order _)
  | stepTimeout w s h hd => exact k.frame (faultSweep_changes s)
  | stopAsserted s h hr => exact .of_released (by rw [stopAsserted_pins]; exact hr)
  | stopCleared s h hr => exact .of_released hr
  | released s h => exact .of_released (by rw [endReset_pins]; rfl)
  | poweredOn s h => exact .of_released (by rw [endReset_pins]; exact h)

theorem Quiet.heldInReset {s t : State} (h : Quiet s t) (k : HeldInReset s) : HeldInReset t := by
  cases h with
  | receiver p rx s => exact HeldInReset.congr (s := s) rfl rfl (fun q => by cases p <;> cases q <;> rfl) k
  | received p rx f s hr => exact .of_released hr
  | sent p s =>
    have hc := endSending_changes p s
    exact k.frame hc
  | tick s => exact k
  | taken cs s => exact k
  | heldReset s h => exact fun _ => ⟨rfl, rfl, rfl⟩
  | heldPower s h => exact fun _ => ⟨rfl, rfl, rfl⟩
  | heldStop b s h => exact fun _ => k h

/-- A change that closes no event touches neither the permit nor its conditions, or takes both away. -/
theorem Quiet.permitTrue {s t : State} (h : Quiet s t) (hs : HeldInReset s) (k : PermitTrue s) : PermitTrue t := by
  cases h with
  | receiver p rx s => exact k.congr (fun b hb => by cases b <;> simp_all [Same, permitBlocks]) (by cases p <;> rfl)
  | received p rx f s hr =>
    exact k.congr (fun b hb => by cases b <;> simp_all [Same, permitBlocks]) (by cases p <;> simp)
  | sent p s =>
    have hc := endSending_changes p s
    exact k.congr (fun b hb => hc b (by cases b <;> simp_all [permitBlocks])) (hc.same (.recv .D)).2.2.2
  | tick s => exact k
  | taken cs s => exact k
  | heldReset s h => exact (permitOf_unconfigured rfl).symm
  | heldPower s h => exact (permitOf_unconfigured rfl).symm
  | heldStop b s h =>
    obtain ⟨hpart, -, -⟩ := hs h
    exact Eq.trans k ((permitOf_unconfigured hpart).trans (permitOf_unconfigured (s := setStopPin b s) hpart).symm)

end Sys2Proof.Machine

open Sys2Proof Sys2Proof.Machine

/-- Settles O8. The end of an event evaluates the permit; a part held in reset has received no frame, so no command
takes one. -/
theorem permitStaysTrue : Obligations.PermitStaysTrue := fun s t k hk h =>
  step_keeps (P := fun s => PermitTrue s ∧ HeldInReset s)
    (fun _ _ _ hrow s e rest hhead ⟨_, hs⟩ => ⟨endEvent_permitTrue _,
      .of_released ((congrArg Pins.reset (hrow.reset_pin s e rest)).trans (hs.released hhead))⟩)
    (fun s t he ⟨_, hs⟩ => ⟨endEvent_permitTrue t, (he.heldInReset hs).frame (endEvent_changes t)⟩)
    (fun s t hq ⟨ks, hs⟩ => ⟨hq.permitTrue hs ks, hq.heldInReset hs⟩) s t h ⟨k, hk⟩

end

section
/-! LINE FAULT (R174, R175) and the Flight Queue's order (R25, R26), as every step keeps them. -/

set_option Elab.async false

namespace Sys2Proof.Machine

/-! ## LINE FAULT -/

theorem lineFaultTrue_iff (s : State) :
    LineFaultTrue s ↔ (1 ≤ s.handler.threshold ∧ s.handler.threshold ≤ 255)
      ∧ ∀ p, PortFaultTrue s.handler.threshold (s.line.port p) := by
  constructor
  · rintro ⟨hlow, hhigh, hU, hD⟩
    exact ⟨⟨hlow, hhigh⟩, fun p => by cases p; exacts [hU, hD]⟩
  · rintro ⟨⟨hlow, hhigh⟩, h⟩
    exact ⟨hlow, hhigh, h .U, h .D⟩

/-- LINE FAULT of a port reads its receiving side alone. -/
theorem portFaultTrue_of_recvSide {th n : Nat} {p : PortId} {s : State} {rx : Receiver} {queue : List RxEntry} {lf : Bool}
    (h : s.recvSide p = (rx, queue, n, lf)) (hn : n ≤ 255) (hclear : lf = false → n < th) (hset : lf = true → 0 < n) :
    PortFaultTrue th (s.line.port p) := by
  obtain ⟨-, -, htally, hfault⟩ := (recvSide_eq_iff p s).1 h
  rw [PortFaultTrue, htally, hfault]
  exact ⟨hn, hclear, hset⟩

theorem PortFaultTrue.same {th : Nat} {p : PortId} {s t : State} (h : Same (.recv p) s t)
    (k : PortFaultTrue th (s.line.port p)) : PortFaultTrue th (t.line.port p) := by
  obtain ⟨-, -, htally, hfault⟩ := h
  rw [PortFaultTrue, htally, hfault]
  exact k

theorem LineFaultTrue.congr {s t : State} (ho : Same .options s t) (h : ∀ p, Same (.recv p) s t)
    (k : LineFaultTrue s) : LineFaultTrue t := by
  rw [lineFaultTrue_iff] at k ⊢
  rw [ho.2.2.2]
  exact ⟨k.1, fun p => (k.2 p).same (h p)⟩

theorem LineFaultTrue.frame {xs : List Block} {s t : State} (h : OnlyChanges xs s t) (k : LineFaultTrue s)
    (ho : Block.options ∉ xs := by decide) (hU : Block.recv .U ∉ xs := by decide)
    (hD : Block.recv .D ∉ xs := by decide) : LineFaultTrue t :=
  k.congr (h.same .options ho) fun p => h.same_recv p hU hD

/-- What steps one port's tally leaves the other port and the threshold. -/
theorem LineFaultTrue.of_port {p : PortId} {s t : State} (h : OnlyChanges (takingBlocks p) s t)
    (hp : PortFaultTrue s.handler.threshold (t.line.port p)) (k : LineFaultTrue s) : LineFaultTrue t := by
  rw [lineFaultTrue_iff] at k ⊢
  rw [(h.same .options (by cases p <;> decide)).2.2.2]
  refine ⟨k.1, fun q => ?_⟩
  by_cases hq : q = p
  · exact hq ▸ hp
  · exact (k.2 q).same (h.same (.recv q) (by cases p <;> cases q <;> first | decide | exact absurd rfl hq))

theorem tallyUp_lineFaultTrue (p : PortId) {s : State} (k : LineFaultTrue s) : LineFaultTrue (tallyUp p s) := by
  obtain ⟨⟨hlow, hhigh⟩, hports⟩ := (lineFaultTrue_iff s).1 k
  refine k.of_port (tallyUp_changes p s) (portFaultTrue_of_recvSide (tallyUp_recvSide p s) ?_ ?_ ?_)
  · omega
  · simp only [Bool.or_eq_false_iff, decide_eq_false_iff_not]
    omega
  · omega

theorem tallyDown_lineFaultTrue (p : PortId) {s : State} (k : LineFaultTrue s) : LineFaultTrue (tallyDown p s) := by
  obtain ⟨⟨hlow, hhigh⟩, hports⟩ := (lineFaultTrue_iff s).1 k
  obtain ⟨hmax, hclear, hset⟩ := hports p
  refine k.of_port (tallyDown_changes p s) (portFaultTrue_of_recvSide (tallyDown_recvSide p s) ?_ ?_ ?_)
  · omega
  · cases hf : (s.line.port p).lineFault
    · have := hclear hf
      omega
    · simp only [Bool.true_and, decide_eq_false_iff_not]
      omega
  · simp only [Bool.and_eq_true, decide_eq_true_eq]
    omega

theorem setQueue_lineFaultTrue (p : PortId) (queue : List RxEntry) {s : State} (k : LineFaultTrue s) :
    LineFaultTrue (setLinePort p { s.line.port p with rxQueue := queue } s) :=
  k.of_port (setRecv_changes p _ s rfl rfl) (by simpa [PortFaultTrue] using ((lineFaultTrue_iff s).1 k).2 p)

theorem takeHead_lineFaultTrue (p : PortId) (e : RxEntry) (rest : List RxEntry) (row : Instr) {s : State}
    (k : LineFaultTrue s) : LineFaultTrue (takeHead p e rest row s) := by
  unfold takeHead takingStep
  split
  · exact tallyUp_lineFaultTrue p (setQueue_lineFaultTrue p rest k)
  · exact tallyUp_lineFaultTrue p (setQueue_lineFaultTrue p rest k)
  · exact tallyDown_lineFaultTrue p (setQueue_lineFaultTrue p rest k)

/-- The test of both ports at a new threshold (R175, R193). -/
theorem lineFaultTest_threshold {s : State} (hlow : 1 ≤ s.handler.threshold) (hhigh : s.handler.threshold ≤ 255)
    (h : ∀ p, (s.line.port p).tally ≤ 255 ∧ ((s.line.port p).lineFault = true → 0 < (s.line.port p).tally)) :
    LineFaultTrue (lineFaultTest .D (lineFaultTest .U s)) := by
  have hU := lineFaultTest_changes .U s
  have hD := lineFaultTest_changes .D (lineFaultTest .U s)
  have hthU : (lineFaultTest .U s).handler.threshold = s.handler.threshold := (hU.same .options).2.2.2
  have hth : (lineFaultTest .D (lineFaultTest .U s)).handler.threshold = s.handler.threshold :=
    ((hD.same .options).2.2.2).trans hthU
  have hsame : Same (.recv .D) s (lineFaultTest .U s) := hU.same (.recv .D)
  have tested (p : PortId) (u : State) (hu : u.handler.threshold = s.handler.threshold) (hs : Same (.recv p) s u) :
      PortFaultTrue s.handler.threshold ((lineFaultTest p u).line.port p) := by
    obtain ⟨-, -, htally, hfault⟩ := hs
    obtain ⟨hmax, hset⟩ := h p
    refine portFaultTrue_of_recvSide (lineFaultTest_recvSide p u) ?_ ?_ ?_ <;>
      simp only [htally, hfault, hu, Bool.or_eq_false_iff, Bool.or_eq_true, decide_eq_false_iff_not, decide_eq_true_eq]
    · exact hmax
    · omega
    · rintro (hf | hf)
      · exact hset hf
      · omega
  rw [lineFaultTrue_iff, hth]
  refine ⟨⟨hlow, hhigh⟩, fun p => ?_⟩
  cases p with
  | U => exact (tested .U s rfl (Same.refl _ s)).same (hD.same (.recv .U))
  | D => exact tested .D _ hthU hsame

theorem setOptions_lineFaultTrue {m a b c d : Byte} (hr : optionsInRange m a b c d = true) {s : State}
    (k : LineFaultTrue s) : LineFaultTrue (setOptions m a b c d s) := by
  obtain ⟨⟨hlow, hhigh⟩, hports⟩ := (lineFaultTrue_iff s).1 k
  have hrange : marked m 3 = true → 1 ≤ d.toNat := by
    intro hm
    simp only [optionsInRange, hm, Bool.and_eq_true, decide_eq_true_eq] at hr
    simpa using hr.2
  unfold setOptions
  simp only
  have hbyte : d.toNat ≤ 255 := by omega
  refine lineFaultTest_threshold ?_ ?_ fun p => ⟨(hports p).1, (hports p).2.2⟩
  · split_ifs <;> first | exact hrange ‹_› | exact hlow
  · split_ifs <;> first | exact hbyte | exact hhigh

theorem treatSetOptions_lineFaultTrue (f : Frame) {s : State} (k : LineFaultTrue s) :
    LineFaultTrue (treatSetOptions f s) := by
  unfold treatSetOptions
  split
  · split
    · exact k.frame (answerRefused_changes f _ s)
    · split
      · exact k.frame (answerRefused_changes f _ s)
      · next hr _ => exact setOptions_lineFaultTrue (by simpa using hr) (k.frame (answerDone_changes f [] s))
  · exact k

theorem coldReset_lineFaultTrue (s : State) : LineFaultTrue (coldReset s) := by
  simp [LineFaultTrue, PortFaultTrue, Handler.reset, Line.reset, Port.reset]

/-- No treatment but SET_OPTIONS names the options. -/
theorem Treatment.same_options {p : PortId} {row : Instr} {treat : Frame → State → State} (h : Treatment p row treat)
    (hr : row ≠ .restart) (ho : row ≠ .setOptions) (f : Frame) (s : State) : Same .options s (treat f s) := by
  refine (h.changes hr f s).same .options ?_
  cases h
  case setOptions => exact absurd rfl ho
  case forwarded => simp [treatmentBlocks]
  case dropped => simp [treatmentBlocks]
  all_goals decide

theorem Treatment.lineFaultTrue {p : PortId} {row : Instr} {treat : Frame → State → State} (h : Treatment p row treat)
    (f : Frame) {s : State} (k : LineFaultTrue s) : LineFaultTrue (treat f s) := by
  by_cases hr : row = .restart
  · subst hr
    cases h
    rcases treatRestart_cases f s with ⟨-, h⟩ | ⟨-, h⟩ <;> rw [h]
    · exact k.frame (answerRefused_changes f _ s)
    · exact (coldReset_lineFaultTrue s).frame (endReset_changes _)
  · by_cases ho : row = .setOptions
    · subst ho
      cases h
      exact treatSetOptions_lineFaultTrue f k
    · exact k.congr (h.same_options hr ho f s) fun q => h.same_recv f s ho (fun hx => absurd hx hr) q

theorem Event.lineFaultTrue {s t : State} (h : Event s t) (k : LineFaultTrue s) : LineFaultTrue t := by
  cases h with
  | receiveError p x s hr hx =>
    refine tallyUp_lineFaultTrue p (k.of_port (setRecv_changes p x s (by rw [hx]) (by rw [hx])) ?_)
    rw [hx]
    simpa [PortFaultTrue] using ((lineFaultTrue_iff s).1 k).2 p
  | silence t s h hd => exact LineFaultTrue.frame (setMeterFault_changes _) (k.frame (setSilence_changes none s))
  | zeroTimeout z s h hd => exact k.frame (endZero_changes _ _ s)
  | sensorSilence i t s h hd =>
    exact ((k.frame (setSensor_changes i _ s)).frame (silenceSensor_changes i _)).frame (reformBands_changes _)
  | replyWindow d e s h hd => exact (k.frame (abandonOrder_changes d s)).frame (expiredOrder_changes d e.order _)
  | stepTimeout w s h hd => exact k.frame (faultSweep_changes s)
  | stopAsserted s h hr => exact k.frame (stopAsserted_changes s)
  | stopCleared s h hr => exact (k.frame (setStopPin_changes false s)).frame (setCond_changes _ _ _)
  | released s h => exact (coldReset_lineFaultTrue s).frame (endReset_changes _)
  | poweredOn s h => exact (coldReset_lineFaultTrue s).frame (endReset_changes _)

theorem Quiet.lineFaultTrue {s t : State} (h : Quiet s t) (k : LineFaultTrue s) : LineFaultTrue t := by
  have hports := ((lineFaultTrue_iff s).1 k).2
  cases h with
  | receiver p rx s => exact k.of_port (setRecv_changes p _ s rfl rfl) (by simpa [PortFaultTrue] using hports p)
  | received p rx f s hr =>
    exact k.of_port (setRecv_changes p _ s (by simp) (by simp)) (by simpa [PortFaultTrue] using hports p)
  | sent p s => exact k.frame (endSending_changes p s)
  | tick s => exact k
  | taken cs s => exact k
  | heldReset s h => exact coldReset_lineFaultTrue s
  | heldPower s h => exact coldReset_lineFaultTrue s
  | heldStop b s h => exact k

end Sys2Proof.Machine

open Sys2Proof Sys2Proof.Machine

/-- Settles O9. A step of the tally makes the test of LINE FAULT, and so does a new threshold; nothing else touches what
the statement reads. -/
theorem lineFaultStaysTrue : Obligations.LineFaultStaysTrue := fun s t k h =>
  step_keeps (P := LineFaultTrue)
    (fun p row _ hrow s e rest _ k =>
      (hrow.lineFaultTrue e.frame (takeHead_lineFaultTrue p e rest row k)).frame (endEvent_changes _))
    (fun _ t he k => (he.lineFaultTrue k).frame (endEvent_changes t)) (fun _ _ hq k => hq.lineFaultTrue k) s t h k

end

section
/-! What a command answers, by the frame it takes or the events it brings about, and the queue of waiting commands. -/

set_option Elab.async false

namespace Sys2Proof.Machine

/-! ## What a command answers -/

/-- The events and quiet changes that a command without a frame brings about, one after another. -/
inductive Unframed (s : State) : State → Prop
  | refl : Unframed s s
  | event {t u : State} (h : Unframed s t) (k : Event t u) : Unframed s (endEvent u)
  | quiet {t u : State} (h : Unframed s t) (k : Quiet t u) (hp : u.pending = t.pending) : Unframed s u

theorem Unframed.keeps {P : State → Prop} (he : ∀ s t, Event s t → P s → P (endEvent t))
    (hq : ∀ s t, Quiet s t → P s → P t) {s t : State} (h : Unframed s t) (k : P s) : P t := by
  induction h with
  | refl => exact k
  | event _ hev ih => exact he _ _ hev ih
  | quiet _ hqu _ ih => exact hq _ _ hqu ih

theorem Unframed.receiveByte {s u : State} (h : Unframed s u) (p : PortId) (b : Byte) :
    Unframed s (receiveByte p u b) := by
  unfold Machine.receiveByte
  split
  · exact h
  next hr =>
    simp only
    split
    · exact h.quiet (.receiver p _ u) rfl
    · exact h.quiet (.received p _ _ u (by simpa using hr)) rfl
    · exact h.event (.receiveError p _ u (by simpa using hr) rfl)

theorem Unframed.receiveBytes {s u : State} (h : Unframed s u) (p : PortId) (bytes : List Byte) :
    Unframed s (bytes.foldl (Machine.receiveByte p) u) := by
  induction bytes generalizing u with
  | nil => exact h
  | cons b bs ih => exact ih (h.receiveByte p b)

/-- Every command answers a next state: the one it was given, the one that treating the frame at the head of its port's
queue leaves, or the one that its own events leave. -/
theorem exec_cases (c : Instr) (s : State) : ∃ t, exec c s = .next t ∧ (t = s
    ∨ (∃ p treat e rest, Treatment p c treat ∧ Heads s p c e rest ∧ t = endEvent (treat e.frame (takeHead p e rest c s)))
    ∨ Unframed s t) := by
  have take {p : PortId} {treat : Frame → State → State} (h : Treatment p c treat) :
      ∃ t, exec c s = .next t ∧ (t = s
        ∨ (∃ p treat e rest, Treatment p c treat ∧ Heads s p c e rest
            ∧ t = endEvent (treat e.frame (takeHead p e rest c s)))
        ∨ Unframed s t) := by
    refine ⟨_, h.exec_eq s, ?_⟩
    unfold takeFrame
    split
    · exact .inl rfl
    · split
      · exact .inr (.inl ⟨p, treat, _, _, h, ⟨‹_›, ‹_›⟩, rfl⟩)
      · exact .inl rfl
  have own {t : State} (hx : exec c s = .next t) (h : t = s ∨ Unframed s t) :
      ∃ t, exec c s = .next t ∧ (t = s
        ∨ (∃ p treat e rest, Treatment p c treat ∧ Heads s p c e rest
            ∧ t = endEvent (treat e.frame (takeHead p e rest c s)))
        ∨ Unframed s t) := ⟨t, hx, h.imp_right .inr⟩
  have event {u : State} (h : Event s u) : Unframed s (endEvent u) := Unframed.refl.event h
  have quiet {u : State} (h : Quiet s u) (hp : u.pending = s.pending) : Unframed s u := Unframed.refl.quiet h hp
  cases c with
  | receiveFrame p bytes => exact own rfl (.inr (Unframed.refl.receiveBytes p bytes))
  | transmitEnd p => exact own rfl (.inr (quiet (.sent p s) (endSending_changes p s |>.same .queue)))
  | beltSample => exact take .belt
  | positionSample => exact take .position
  | holdsenseSample => exact take .sense
  | dustSample => exact take .dust
  | feederSample => exact take .feeder
  | reply => exact take .reply
  | run => exact take .run
  | rate => exact take .rate
  | stop => exact take .stop
  | move => exact take .move
  | halt => exact take .halt
  | forwardFrame p => exact take (.forwarded p)
  | requestDropped p => exact take (.dropped p)
  | badRequest => exact take .badRequest
  | load => exact take .load
  | read => exact take .read
  | status => exact take .status
  | setOptions => exact take .setOptions
  | openShip => exact take .openShip
  | closeShip => exact take .closeShip
  | startPlan => exact take .startPlan
  | haltPlan => exact take .haltPlan
  | resumePlan => exact take .resumePlan
  | skipSlot => exact take .skipSlot
  | zeroBelt => exact take .zeroBelt
  | zeroAbort => exact take .zeroAbort
  | sweep => exact take .sweep
  | ackAlarm => exact take .ackAlarm
  | doneAlarm => exact take .doneAlarm
  | setAlarm => exact take .setAlarm
  | readRecords => exact take .readRecords
  | takeRecords => exact take .takeRecords
  | restart => exact take .restart
  | badDestination => exact take .badDestination
  | badFrame => exact take .badFrame
  | scaleSilenceExpiry =>
    refine own rfl ?_
    split
    · split
      · exact .inr (event (.silence _ s ‹_› ‹_›))
      · exact .inl rfl
    · exact .inl rfl
  | zeroTimeout =>
    refine own rfl ?_
    split
    · split
      · exact .inr (event (.zeroTimeout _ s ‹_› ‹_›))
      · exact .inl rfl
    · exact .inl rfl
  | sensorSilenceExpiry i =>
    refine own rfl ?_
    split
    · split
      · exact .inr (event (.sensorSilence i _ s ‹_› ‹_›))
      · exact .inl rfl
    · exact .inl rfl
  | replyWindowExpiry d =>
    refine own rfl ?_
    split
    · split
      · exact .inr (event (.replyWindow d _ s ‹_› ‹_›))
      · exact .inl rfl
    · exact .inl rfl
  | stepTimeout =>
    refine own rfl ?_
    split
    · split
      · exact .inr (event (.stepTimeout _ s ‹_› ‹_›))
      · exact .inl rfl
    · exact .inl rfl
  | stopInputAsserted =>
    refine own rfl ?_
    split
    · exact .inl rfl
    next hstop =>
      split
      next hr => exact .inr (quiet (.heldStop true s hr) rfl)
      next hr => exact .inr (event (.stopAsserted s (by simpa using hstop) (by simpa using hr)))
  | stopInputCleared =>
    refine own rfl ?_
    split
    · exact .inl rfl
    next hstop =>
      split
      next hr => exact .inr (quiet (.heldStop false s hr) rfl)
      next hr => exact .inr (event (.stopCleared s (by simpa using hstop) (by simpa using hr)))
  | resetAsserted =>
    refine own rfl ?_
    split
    · exact .inl rfl
    next hr => exact .inr (quiet (.heldReset s (by simpa using hr)) rfl)
  | resetReleased =>
    refine own rfl ?_
    split
    next hr => exact .inr (event (.released s hr))
    · exact .inl rfl
  | powerOn =>
    refine own rfl ?_
    split
    next hr => exact .inr (quiet (.heldPower s hr) rfl)
    next hr => exact .inr (event (.poweredOn s (by simpa using hr)))

/-! ## The waiting commands -/

theorem Treatment.pending {p : PortId} {row : Instr} {treat : Frame → State → State} (h : Treatment p row treat)
    (e : RxEntry) (rest : List RxEntry) (s : State) :
    (endEvent (treat e.frame (takeHead p e rest row s))).pending = s.pending := by
  by_cases hr : row = .restart
  · subst hr
    cases h
    have htaken : (takeHead .U e rest .restart s).pending = s.pending := by simp
    rcases treatRestart_cases e.frame (takeHead .U e rest .restart s) with ⟨-, h⟩ | ⟨-, h⟩
    · rw [h, ((endEvent_changes _).same .queue : _ = _), ((answerRefused_changes _ _ _).same .queue : _ = _)]
      exact htaken
    · rw [h, ((endEvent_changes _).same .queue : _ = _), ((endReset_changes _).same .queue : _ = _)]
      exact htaken
  · refine (h.event_changes hr s e rest).same .queue ?_
    cases h
    case forwarded => cases p <;> decide
    case dropped => cases p <;> decide
    all_goals decide

theorem Event.pending {s t : State} (h : Event s t) : (endEvent t).pending = s.pending := by
  rw [((endEvent_changes t).same .queue : _ = _)]
  rcases h.changes_or_resets with hc | ⟨u, rfl, -, hu⟩
  · exact hc.same .queue
  · rw [((endReset_changes u).same .queue : _ = _), hu]
    rfl

theorem Unframed.pending {s t : State} (h : Unframed s t) : t.pending = s.pending := by
  induction h with
  | refl => rfl
  | event _ hev ih => exact hev.pending.trans ih
  | quiet _ _ hp ih => exact hp.trans ih

/-! ## The expiries that are due (R196) -/

theorem mem_dueCommand {now : Nat} {x : Option Nat} {c d : Instr} :
    c ∈ dueCommand now x d ↔ c = d ∧ ∃ t, x = some t ∧ t ≤ now := by
  unfold dueCommand
  cases x with
  | none => simp
  | some t => by_cases h : t ≤ now <;> simp [h]

theorem mem_dueCommands {c : Instr} {s : State} : c ∈ dueCommands s ↔
    (c = .scaleSilenceExpiry ∧ ∃ x, s.meter.silence = some x ∧ x ≤ s.now)
      ∨ (c = .zeroTimeout ∧ ∃ z, s.meter.zero = some z ∧ z.expiry ≤ s.now)
      ∨ (∃ i, c = .sensorSilenceExpiry i ∧ ∃ x, (s.dust.sensors[i]).timer = some x ∧ x ≤ s.now)
      ∨ (∃ d, c = .replyWindowExpiry d ∧ ∃ x, s.gate.entry d = some x ∧ x.deadline ≤ s.now)
      ∨ (c = .stepTimeout ∧ ∃ w, s.place.sweep = some w ∧ w.timer ≤ s.now) := by
  have hentries : (∃ d, c = .replyWindowExpiry d ∧ ∃ x, s.gate.entry d = some x ∧ x.deadline ≤ s.now)
      ↔ (c = .replyWindowExpiry .feeder ∧ ∃ x, s.gate.injFeeder = some x ∧ x.deadline ≤ s.now)
        ∨ (c = .replyWindowExpiry (.drive .gantry) ∧ ∃ x, s.gate.injGantry = some x ∧ x.deadline ≤ s.now)
        ∨ (c = .replyWindowExpiry (.drive .shuttle) ∧ ∃ x, s.gate.injShuttle = some x ∧ x.deadline ≤ s.now) := by
    constructor
    · rintro ⟨d, h⟩
      rcases d with _ | (_ | _)
      exacts [.inl h, .inr (.inl h), .inr (.inr h)]
    · rintro (h | h | h)
      exacts [⟨.feeder, h⟩, ⟨.drive .gantry, h⟩, ⟨.drive .shuttle, h⟩]
  rw [hentries]
  simp only [dueCommands, List.mem_append, List.mem_flatMap, List.mem_finRange, true_and, mem_dueCommand,
    Option.map_eq_some_iff, exists_exists_and_eq_and, or_assoc]

end Sys2Proof.Machine

open Sys2Proof Sys2Proof.Machine

/-- Settles O1: the definition of a step. -/
theorem stepRunsFrontCommand : Obligations.StepRunsFrontCommand := fun _ _ => rfl

/-- Settles O2. The queue after a tick holds the due expiries alone (`mem_dueCommands`). -/
theorem stepTicksOnEmptyQueue : Obligations.StepTicksOnEmptyQueue := by
  intro s hs
  have hstep : step s = .next (tick s) := by rw [step, hs]
  have hpending : (tick s).pending = dueCommands { s with now := s.now + 1 } := by simp [tick, hs]
  refine ⟨_, hstep, rfl, tick_changes s, ?_⟩
  rw [hpending]
  simp only [mem_dueCommands]
  refine ⟨by simp, by simp, by simp, by simp, by simp, fun c hc => ?_⟩
  rcases hc with ⟨h, -⟩ | ⟨h, -⟩ | ⟨i, h, -⟩ | ⟨d, h, -⟩ | ⟨h, -⟩
  exacts [.inl h, .inr (.inl h), .inr (.inr (.inl ⟨i, h⟩)), .inr (.inr (.inr (.inl ⟨d, h⟩))),
    .inr (.inr (.inr (.inr h)))]

/-- Settles O3. -/
theorem everyCommandAnswers : Obligations.EveryCommandAnswers := by
  intro c s
  obtain ⟨t, hx, rfl | ⟨p, treat, e, rest, ht, -, rfl⟩ | hown⟩ := exec_cases c s
  · exact ⟨t, hx, rfl⟩
  · exact ⟨_, hx, ht.pending e rest s⟩
  · exact ⟨t, hx, hown.pending⟩

end

section
/-! The Flight Queue: its order (R25, R26), what deliveries leave of it (R31, R35), and the conservation of the grain
(R36). -/

set_option Elab.async false

namespace Sys2Proof.Machine

/-! ## What deliveries leave of the queue (R31) -/

/-- The segment is due at a belt position (R31). -/
def Segment.due (belt : Nat) (g : Segment) : Bool := decide (g.arrival ≤ belt)

theorem deliver_flight (g : Segment) (rest : List Segment) (s : State) :
    (deliver g rest s).flight = { s.flight with segments := rest } := by
  unfold deliver
  simp only
  have hcredit : (creditDelivery g (coarseLeft g rest { s with flight := { s.flight with segments := rest } })).flight
      = { s.flight with segments := rest } :=
    ((coarseLeft_changes g rest _).same .flight).trans ((creditDelivery_changes g _).same .flight)
  split
  · exact Eq.trans ((queueEmptied_changes _).same .flight) hcredit
  · exact hcredit

theorem deliver_belt (g : Segment) (rest : List Segment) (s : State) :
    (deliver g rest s).meter.belt = s.meter.belt := (deliver_changes g rest s).same .belt

theorem deliverDue_belt (gs : List Segment) (s : State) : (deliverDue gs s).meter.belt = s.meter.belt :=
  (deliverDue_changes gs s).same .belt

/-- The deliveries take every due segment off the head (R31). -/
theorem deliverDue_flight (gs : List Segment) (s : State) (h : s.flight.segments = gs) :
    (deliverDue gs s).flight = { s.flight with segments := gs.dropWhile (Segment.due s.meter.belt) } := by
  induction gs generalizing s with
  | nil =>
    change s.flight = _
    rw [List.dropWhile_nil, ← h]
  | cons g rest ih =>
    unfold deliverDue
    split
    next hdue =>
      have hflight := deliver_flight g rest s
      rw [ih _ (by rw [hflight]), deliver_belt, hflight, List.dropWhile_cons_of_pos (by simpa [Segment.due] using hdue)]
    next hdue =>
      rw [List.dropWhile_cons_of_neg (by simpa [Segment.due] using hdue), ← h]

theorem deliverAndCheck_flight (handed : Bool) (s : State) :
    (deliverAndCheck handed s).flight
      = { s.flight with segments := s.flight.segments.dropWhile (Segment.due s.meter.belt) } := by
  unfold deliverAndCheck
  simp only
  split
  · exact Eq.trans ((checkProjections_changes _).same .flight) (deliverDue_flight _ s rfl)
  · exact deliverDue_flight _ s rfl

/-! ## The order of the queue (R25, R26) -/

theorem FlightOrdered.tail {g : Segment} {gs : List Segment} {n : BitVec 16} (h : FlightOrdered ⟨g :: gs, n⟩) :
    FlightOrdered ⟨gs, n⟩ := by
  obtain ⟨hlen, hmass, harrival, hnumber⟩ := h
  simp only [List.map_cons, List.pairwise_cons] at harrival
  refine ⟨by simp at hlen ⊢; omega, fun x hx => hmass x (List.mem_cons_of_mem g hx), harrival.2, fun i hi => ?_⟩
  have := hnumber (i + 1) (by simpa using hi)
  simpa using this

theorem FlightOrdered.drop {gs : List Segment} {n : BitVec 16} (p : Segment → Bool) (h : FlightOrdered ⟨gs, n⟩) :
    FlightOrdered ⟨gs.dropWhile p, n⟩ := by
  induction gs with
  | nil => exact h
  | cons g rest ih =>
    by_cases hp : p g = true
    · rw [List.dropWhile_cons_of_pos hp]
      exact ih h.tail
    · rwa [List.dropWhile_cons_of_neg hp]

/-- A segment opened at the tail, arriving no earlier than the tail (R26, R27). -/
theorem FlightOrdered.snoc {gs : List Segment} {g : Segment} {n : BitVec 16} (h : FlightOrdered ⟨gs, n⟩)
    (hlen : gs.length < 64) (hmass : 0 < g.mass) (hnumber : g.number = n)
    (harrival : ∀ t, gs.getLast? = some t → t.arrival ≤ g.arrival) : FlightOrdered ⟨gs ++ [g], n + 1⟩ := by
  obtain ⟨-, kmass, karrival, knumber⟩ := h
  refine ⟨by simp; omega, ?_, ?_, fun i hi => ?_⟩
  · simpa [or_imp, forall_and, hmass] using kmass
  · rw [List.map_append, List.pairwise_append]
    refine ⟨karrival, by simp, ?_⟩
    simp only [List.mem_map, List.map_cons, List.map_nil, List.mem_singleton, forall_eq, forall_exists_index, and_imp,
      forall_apply_eq_imp_iff₂]
    intro x hx
    obtain ⟨init, last, rfl⟩ : ∃ init last, gs = init ++ [last] :=
      ⟨gs.dropLast, gs.getLast (List.ne_nil_of_mem hx), (List.dropLast_append_getLast _).symm⟩
    have hlast := harrival last (by simp)
    rcases List.mem_append.1 hx with hx | hx
    · rw [List.map_append, List.pairwise_append] at karrival
      exact (karrival.2.2 _ (List.mem_map_of_mem hx) last.arrival (by simp)).trans hlast
    · rwa [List.mem_singleton.1 hx]
  · simp only [List.length_append, List.length_singleton] at hi ⊢
    by_cases hg : i < gs.length
    · rw [List.getElem_append_left hg, show gs.length + 1 - i = (gs.length - i) + 1 by omega, BitVec.ofNat_add,
        ← BitVec.add_assoc, knumber i hg]
      rfl
    · obtain rfl : i = gs.length := by omega
      simp [hnumber]

/-- The tail replaced by one of its number and arrival position (R28, R30). -/
theorem FlightOrdered.setTail {gs : List Segment} {t x : Segment} {n : BitVec 16} (h : FlightOrdered ⟨gs, n⟩)
    (ht : gs.getLast? = some t) (hmass : 0 < x.mass) (hnumber : x.number = t.number) (harrival : x.arrival = t.arrival) :
    FlightOrdered (Flight.setTail ⟨gs, n⟩ x) := by
  obtain ⟨init, rfl⟩ : ∃ init, gs = init ++ [t] := List.getLast?_eq_some_iff.1 ht
  obtain ⟨hlen, kmass, karrival, knumber⟩ := h
  simp only [Flight.setTail, List.dropLast_concat]
  refine ⟨by simpa using hlen, ?_, ?_, fun i hi => ?_⟩
  · simp only [List.mem_append, List.mem_singleton, or_imp, forall_and, forall_eq] at kmass ⊢
    exact ⟨kmass.1, hmass⟩
  · simpa [harrival] using karrival
  · have hi' : i < (init ++ [t]).length := by simpa using hi
    have := knumber i hi'
    simp only [List.length_append, List.length_singleton] at this ⊢
    by_cases hg : i < init.length
    · rw [List.getElem_append_left hg] at this ⊢
      exact this
    · simp only [List.length_append, List.length_singleton] at hi
      obtain rfl : i = init.length := by omega
      simpa [hnumber] using this

theorem flight_reset_ordered : FlightOrdered Flight.reset := by simp [FlightOrdered, Flight.reset]

/-- Each of the three paths of an increment keeps the order (R28 to R30). -/
theorem takeIncrement_ordered (sc : ScaleTable) {m : Nat} (hm : 0 < m) (o g : Bool) {s : State}
    (h : FlightOrdered s.flight) : FlightOrdered (takeIncrement sc m o g s).flight := by
  have opened (hlen : s.flight.segments.length < 64) : FlightOrdered (openSegment sc m o g s).flight := by
    refine FlightOrdered.snoc (gs := s.flight.segments) h hlen hm rfl fun t ht => ?_
    simp only [arrivalNow, ht]
    exact le_max_left _ _
  unfold takeIncrement
  split
  next hnone => exact opened (by simp [List.getLast?_eq_none_iff.1 hnone])
  next t ht =>
    split
    · exact FlightOrdered.setTail (gs := s.flight.segments) h ht (by simp [Segment.joined]; omega) rfl rfl
    · split
      · exact opened ‹_›
      · exact FlightOrdered.setTail (gs := s.flight.segments) h ht (by simp [Segment.merged, Segment.joined]; omega) rfl rfl

theorem deliverAndCheck_ordered (handed : Bool) {s : State} (h : FlightOrdered s.flight) :
    FlightOrdered (deliverAndCheck handed s).flight := by
  rw [deliverAndCheck_flight]
  exact h.drop _

theorem integrate_ordered (sc : ScaleTable) (load : Int) (t : Nat) (gap : Bool) {s : State} (h : FlightOrdered s.flight) :
    FlightOrdered (integrate sc load t gap s).flight := by
  unfold integrate
  refine deliverAndCheck_ordered _ ?_
  have hflight (d m : Nat) : (advanceBelt t (weigh m (addDrift d s))).flight = s.flight :=
    (((addDrift_changes d s).same .flight).trans ((weigh_changes m _).same .flight)).trans
      ((advanceBelt_changes t _).same .flight)
  split
  next hm => exact takeIncrement_ordered sc hm _ _ (by rw [hflight]; exact h)
  next => rw [hflight]; exact h

/-! ## A BELT sample beside its integration -/

/-- What a taken BELT sample may change beside its integration and its deliveries. -/
def meterBlocks : List Block := .prev :: .silence :: .belt :: .offset :: .drift :: .conds :: faultBlocks

theorem setPrev_changes (x : Option (BitVec 16 × Byte)) (s : State) :
    OnlyChanges [.prev] s { s with meter := { s.meter with prev := x } } := by
  intro b hb
  cases b <;> simp_all [Same]

/-- A property that the meter's own blocks do not touch is kept by a BELT sample when the integration of a normal sample
and the deliveries of any other keep it (R13). -/
theorem treatBelt_keeps_on {P : State → Prop} (on : List Block) (hp : ∀ s t, (∀ b ∈ on, Same b s t) → P s → P t)
    (hon : ∀ b ∈ on, b ∉ .send .D :: .injection :: meterBlocks)
    (f : Frame) {s : State}
    (hint : ∀ u sc load t gap, OnlyChanges [.sources, .conds] s u → s.meter.table = some sc → t ≤ sc.gapLimit →
      P u → P (integrate sc load t gap u))
    (hdel : ∀ u, OnlyChanges [.sources, .conds, .belt] s u → P u → P (deliverAndCheck false u)) (h : P s) : P (treatBelt f s) := by
  have keeps {xs : List Block} {u v : State} (hc : OnlyChanges xs u v)
      (hxs : ∀ b ∈ xs, b ∈ .send .D :: .injection :: meterBlocks) : P u → P v :=
    keeps_of_blocks on hp hc fun b hb hbx => hon b hb (hxs b hbx)
  have faulted (u : State) : P u → P (setMeterFault u) := keeps (setMeterFault_changes u) (by decide)
  have taken (q : Byte) (load : Int) (pos : BitVec 16) (ok : Bool) : P (takeBelt q load pos ok s) := by
    unfold takeBelt
    split
    · exact h
    next sc hsc =>
      refine keeps (restartSilence_changes _) (by decide) ?_
      simp only
      refine keeps (setPrev_changes _ _) (by decide) ?_
      have clear : OnlyChanges [.sources, .conds] s (setCond srcBeltReverse false s) := setCond_changes _ _ _
      split
      · unfold firstSample
        simp only
        split
        · exact keeps clear (by decide) h
        · exact faulted _ (keeps clear (by decide) h)
      next p r _ =>
        unfold beltTravel
        split
        · simp only
          split
          · exact keeps (reverseSample_changes s) (by decide) h
          · exact faulted _ (keeps (reverseSample_changes s) (by decide) h)
        · simp only
          split
          next hnormal =>
            refine keeps (collectZero_changes _ _ _ _) (by decide) (keeps (countClearing_changes _) (by decide) ?_)
            exact hint _ sc load _ _ clear hsc hnormal.1 (keeps clear (by decide) h)
          next =>
            exact faulted _ (hdel _ (clear.mono.then (advanceBelt_changes _ _))
              (keeps (advanceBelt_changes _ _) (by decide) (keeps clear (by decide) h)))
  unfold treatBelt
  split
  · refine keeps (forward_changes _ _ _) (by decide) ?_
    split
    · exact taken _ _ _ _
    · exact h
  · exact h

end Sys2Proof.Machine

open Sys2Proof Sys2Proof.Machine

/-- Settles O11. Of all commands a BELT sample alone touches the queue: its increment takes one of three paths, and its
deliveries take segments off the head. -/
theorem flightStaysOrdered : Obligations.FlightStaysOrdered := fun s t k h =>
  step_keeps_on (P := fun s => FlightOrdered s.flight) [.flight]
    (fun s t hs k => by rw [show t.flight = s.flight from hs .flight (by simp)]; exact k)
    (fun _ => flight_reset_ordered) (by decide)
    (fun p row treat hrow hr hb s e rest _ k => by
      cases hrow
      case belt =>
        have htaken : (takeHead .D e rest .beltSample s).flight = s.flight := (takeHead_changes .D e rest _ s).same .flight
        rw [show ∀ u, (endEvent u).flight = u.flight from fun u => (endEvent_changes u).same .flight]
        exact treatBelt_keeps_on (P := fun s => FlightOrdered s.flight) [.flight]
          (fun s t hs k => by rw [show t.flight = s.flight from hs .flight (by simp)]; exact k) (by decide) e.frame
          (fun u sc load t gap _ _ _ k => integrate_ordered sc load t gap k) (fun u _ k => deliverAndCheck_ordered _ k)
          (by rw [htaken]; exact k)
      case forwarded => exact absurd (by cases p <;> decide) hb
      case dropped => exact absurd (by cases p <;> decide) hb
      all_goals exact absurd (by decide) hb)
    (fun s t he hc k => by rw [show t.flight = s.flight from hc.same .flight]; exact k) s t h k

end

section
/-! Conservation of the grain (R36): the increment enters the weighed total and the queue, and a delivery moves a segment's
mass to an account. -/

set_option Elab.async false

namespace Sys2Proof.Machine

/-! ## What conservation rests on -/

/-- The blocks that conservation rests on. -/
def conservedBlocks : List Block := [.ship, .accounts, .weighed, .flight]

/-- Conservation while an increment of `m` has entered the weighed total and not yet the queue (R13): `Conserved` is the
case of 0. -/
def Ahead (m : Nat) (s : State) : Prop :=
  (s.ship.state = .open → s.ship.weighed = accountedFor s + m ∧ s.ship.tag ≠ 0)
    ∧ (∀ g ∈ s.flight.segments, g.shipTag = s.ship.tag ∧ 0 < g.mass)

theorem ahead_zero_iff (s : State) : Ahead 0 s ↔ Conserved s := Iff.rfl

theorem Ahead.congr {m : Nat} {s t : State} (h : ∀ b ∈ conservedBlocks, Same b s t) (k : Ahead m s) : Ahead m t := by
  obtain ⟨⟨hstate, hnumber⟩, haccounts, hweighed, hflight⟩ :
      Same .ship s t ∧ Same .accounts s t ∧ Same .weighed s t ∧ Same .flight s t := by
    simpa [conservedBlocks] using h
  have htag : t.ship.tag = s.ship.tag := by rw [ShipAccount.tag, ShipAccount.tag, hstate, hnumber]
  have htotal : accountedFor t = accountedFor s := by
    rw [accountedFor, accountedFor, pouredTotal, pouredTotal, haccounts, hflight]
  unfold Ahead at *
  rw [hstate, htag, htotal, hflight]
  exact ⟨fun ho => ⟨Eq.trans hweighed (k.1 ho).1, (k.1 ho).2⟩, k.2⟩

theorem Ahead.frame {m : Nat} {xs : List Block} {s t : State} (h : OnlyChanges xs s t) (k : Ahead m s)
    (hx : ∀ b ∈ conservedBlocks, b ∉ xs := by decide) : Ahead m t :=
  keeps_of_blocks conservedBlocks (fun _ _ => Ahead.congr) h hx k

theorem Conserved.frame {xs : List Block} {s t : State} (h : OnlyChanges xs s t) (k : Conserved s)
    (hx : ∀ b ∈ conservedBlocks, b ∉ xs := by decide) : Conserved t :=
  (ahead_zero_iff t).1 (Ahead.frame h ((ahead_zero_iff s).2 k) hx)

theorem ScaleInRange.same {s t : State} (h : Same .scale s t) (k : ScaleInRange s) : ScaleInRange t :=
  fun sc hsc => k sc (Eq.trans h.symm hsc)

/-- With nothing in flight the queue is empty: every segment has mass. -/
theorem Conserved.segments_nil {s : State} (k : Conserved s) (h : s.flight.total = 0) : s.flight.segments = [] := by
  cases hs : s.flight.segments with
  | nil => rfl
  | cons g gs =>
    have hmass := (k.2 g (by simp [hs])).2
    simp [Flight.total, hs] at h
    omega

/-! ## The accounts -/

/-- Mass added to one account of thirteen adds to their sum. -/
theorem sum_upd (v : Vector Nat 13) (a : Account) (m : Nat) :
    ((List.finRange 13).map fun i : Account => (upd v a (v[a] + m))[i]).sum
      = ((List.finRange 13).map fun i : Account => v[i]).sum + m := by
  rw [← Fin.sum_univ_def, ← Fin.sum_univ_def]
  have hentry (i : Account) : (upd v a (v[a] + m))[i] = v[i] + if i = a then m else 0 := by
    rw [upd_get_ite]
    by_cases h : a = i
    · simp [h]
    · simp [h, Ne.symm h]
  rw [Finset.sum_congr rfl fun i _ => hentry i, Finset.sum_add_distrib, Finset.sum_ite_eq' Finset.univ a fun _ => m]
  simp

theorem account_le_poured (s : State) (a : Account) : s.ship.accounts[a] ≤ pouredTotal s := by
  rw [pouredTotal, ← Fin.sum_univ_def]
  exact Finset.single_le_sum (f := fun i : Account => s.ship.accounts[i]) (fun _ _ => Nat.zero_le _) (Finset.mem_univ a)

/-! ## One increment (R13, R28 to R30) -/

theorem addMass_of_lt {a m : Nat} (h : a + m < 2 ^ 64) : addMass a m = a + m := if_pos h

theorem weigh_ahead {m : Nat} {s : State} (k : Conserved s) (hm : s.ship.weighed + m < 2 ^ 64) :
    Ahead m (weigh m s) := by
  unfold weigh
  split
  next ho =>
    refine ⟨fun _ => ⟨?_, (k.1 ho).2⟩, k.2⟩
    change addMass s.ship.weighed m = accountedFor s + m
    rw [addMass_of_lt hm, (k.1 ho).1]
  next hn => exact ⟨fun ho => absurd (hn.symm.trans ho) (by decide), k.2⟩

theorem total_append (gs : List Segment) (g : Segment) (n : BitVec 16) :
    Flight.total ⟨gs ++ [g], n⟩ = Flight.total ⟨gs, n⟩ + g.mass := by simp [Flight.total]

theorem openSegment_conserved {m : Nat} (sc : ScaleTable) (o g : Bool) {s : State} (hm : 0 < m) (k : Ahead m s) :
    Conserved (openSegment sc m o g s) := by
  refine ⟨fun ho => ⟨?_, (k.1 ho).2⟩, fun x hx => ?_⟩
  · have htotal := total_append s.flight.segments
      { number := s.flight.nextNumber, shipTag := s.ship.tag, opened := s.meter.belt, transit := transitNow s sc,
        arrival := arrivalNow s sc, mass := m, samples := 1, overload := o, gapBridged := g, coarse := false }
      (s.flight.nextNumber + 1)
    have hopen := (k.1 ho).1
    simp only [accountedFor, openSegment, pouredTotal] at hopen ⊢
    rw [htotal, hopen]
    simp only [Flight.total]
    omega
  · rcases List.mem_append.1 hx with hx | hx
    · exact k.2 x hx
    · rw [List.mem_singleton.1 hx]
      exact ⟨rfl, hm⟩

/-- The tail grown by the increment, its tag kept. -/
theorem setTail_conserved {m : Nat} {t x : Segment} {s : State} (ht : s.flight.segments.getLast? = some t)
    (hmass : x.mass = t.mass + m) (htag : x.shipTag = t.shipTag) (k : Ahead m s) :
    Conserved { s with flight := s.flight.setTail x } := by
  obtain ⟨init, hinit⟩ := List.getLast?_eq_some_iff.1 ht
  have htotal : (s.flight.setTail x).total = s.flight.total + m := by
    simp only [Flight.total, Flight.setTail, hinit, List.dropLast_concat, List.map_append, List.sum_append, List.map_cons,
      List.map_nil, List.sum_singleton, hmass]
    omega
  refine ⟨fun ho => ⟨?_, (k.1 ho).2⟩, fun y hy => ?_⟩
  · have hopen := (k.1 ho).1
    simp only [accountedFor, pouredTotal] at hopen ⊢
    rw [htotal, hopen]
    omega
  · obtain ⟨ktag, kmass⟩ := k.2 t (by simp [hinit])
    simp only [Flight.setTail, hinit, List.dropLast_concat, List.mem_append, List.mem_singleton] at hy
    rcases hy with hy | rfl
    · exact k.2 y (by simp [hinit, hy])
    · exact ⟨htag.trans ktag, by omega⟩

theorem takeIncrement_conserved {m : Nat} (sc : ScaleTable) (o g : Bool) {s : State} (hm : 0 < m) (k : Ahead m s) :
    Conserved (takeIncrement sc m o g s) := by
  unfold takeIncrement
  split
  · exact openSegment_conserved sc o g hm k
  next t ht =>
    split
    · exact setTail_conserved ht rfl rfl k
    · split
      · exact openSegment_conserved sc o g hm k
      · exact ((setTail_conserved (x := t.merged m o g) ht rfl rfl k).frame (setCond_changes _ true _)).frame
          (raise_changes _ _)

/-! ## Deliveries (R31 to R34) -/

/-- The head taken off leaves its mass to be accounted for. -/
theorem removeHead_ahead {g : Segment} {rest : List Segment} {s : State} (h : s.flight.segments = g :: rest)
    (k : Conserved s) : Ahead g.mass { s with flight := { s.flight with segments := rest } } := by
  refine ⟨fun ho => ⟨?_, (k.1 ho).2⟩, fun x hx => k.2 x (by simp [h, hx])⟩
  have hopen := (k.1 ho).1
  simp only [accountedFor, pouredTotal, Flight.total, h, List.map_cons, List.sum_cons] at hopen ⊢
  omega

/-- The mass that is owing enters an account. -/
theorem creditAccount_conserved {m : Nat} (a : Account) {s : State} (hw : s.ship.weighed < 2 ^ 64) (k : Ahead m s) :
    Conserved { s with ship := { s.ship with accounts := upd s.ship.accounts a (addMass s.ship.accounts[a] m) } } := by
  refine ⟨fun ho => ⟨?_, (k.1 ho).2⟩, k.2⟩
  have hopen := (k.1 ho).1
  have hle := account_le_poured s a
  have hsum := sum_upd s.ship.accounts a m
  simp only [accountedFor, pouredTotal] at hopen hle ⊢
  have hadd : addMass s.ship.accounts[a] m = s.ship.accounts[a] + m := addMass_of_lt (by omega)
  simp only [hadd, hsum, hopen]
  omega

/-- A delivery moves the head's mass to an account; mass of no ship is delivered while none is open alone. -/
theorem deliver_conserved {g : Segment} {rest : List Segment} {s : State} (h : s.flight.segments = g :: rest)
    (hw : s.ship.weighed < 2 ^ 64) (k : Conserved s) : Conserved (deliver g rest s) := by
  have htag : g.shipTag = s.ship.tag := (k.2 g (by simp [h])).1
  have hcoarse := coarseLeft_changes g rest { s with flight := { s.flight with segments := rest } }
  have howing := (removeHead_ahead h k).frame hcoarse
  have hship : (coarseLeft g rest { s with flight := { s.flight with segments := rest } }).ship = s.ship := by
    unfold coarseLeft
    split <;> rfl
  have credited : Conserved (creditDelivery g (coarseLeft g rest { s with flight := { s.flight with segments := rest } })) := by
    unfold creditDelivery
    split
    next hstray =>
      refine Conserved.frame (raise_changes _ _) ⟨fun ho => ?_, howing.2⟩
      exact absurd (by rw [hship, ← htag]; exact hstray) (howing.1 ho).2
    next =>
      exact Conserved.frame (reportDelivery_changes g _ _)
        (Conserved.frame (deliveryAlarm_changes _ _) (creditAccount_conserved _ (by rw [hship]; exact hw) howing))
  unfold deliver
  simp only
  split
  · exact credited.frame (queueEmptied_changes _)
  · exact credited

theorem deliverDue_conserved {gs : List Segment} {s : State} (h : s.flight.segments = gs) (hw : s.ship.weighed < 2 ^ 64)
    (k : Conserved s) : Conserved (deliverDue gs s) := by
  induction gs generalizing s with
  | nil => exact k
  | cons g rest ih =>
    unfold deliverDue
    split
    · refine ih (by rw [deliver_flight]) ?_ (deliver_conserved h hw k)
      rw [((deliver_changes g rest s).same .weighed : _ = _)]
      exact hw
    · exact k

theorem deliverAndCheck_conserved (handed : Bool) {s : State} (hw : s.ship.weighed < 2 ^ 64) (k : Conserved s) :
    Conserved (deliverAndCheck handed s) := by
  have hdue := deliverDue_conserved rfl hw k
  unfold deliverAndCheck
  simp only
  split
  · exact hdue.frame (checkProjections_changes _)
  · exact hdue

/-! ## One sample -/

/-- An increment stays below the capacity times the travel (R10, R11). -/
theorem acceptedLoad_clamped_le (n : Int) (capacity deadBand : Nat) :
    acceptedLoad (clampLoad n capacity) deadBand ≤ capacity := by
  have hclamp : (clampLoad n capacity).toNat ≤ capacity := by
    unfold clampLoad overloaded
    split
    · rcases lt_trichotomy n 0 with h | h | h
      · simp [Int.sign_eq_neg_one_of_neg h]
      · simp [h]
      · simp [Int.sign_eq_one_of_pos h]
    next h =>
      simp only [decide_eq_true_eq] at h
      omega
  unfold acceptedLoad
  split
  · exact hclamp
  · exact Nat.zero_le _

theorem integrate_conserved (sc : ScaleTable) (load : Int) {t : Nat} (gap : Bool) {s : State} (ht : t ≤ sc.gapLimit)
    (hsc : sc.capacity ≤ 2000000 ∧ sc.gapLimit ≤ 32767) (hw : s.ship.weighed + 65534000000 < 2 ^ 64) (k : Conserved s) :
    Conserved (integrate sc load t gap s) := by
  unfold integrate
  set n := netLoad (load - s.meter.offset) sc.span with hn
  set m := acceptedLoad (clampLoad n sc.capacity) sc.deadBand * t with hmdef
  simp only [← hmdef]
  have hm : m ≤ 65534000000 :=
    (Nat.mul_le_mul ((acceptedLoad_clamped_le n sc.capacity sc.deadBand).trans hsc.1) (ht.trans hsc.2)).trans (by norm_num)
  set d := driftMass (clampLoad n sc.capacity) sc.deadBand t with hd
  have hdrift := addDrift_changes d s
  have hweighed : (addDrift d s).ship.weighed = s.ship.weighed := hdrift.same .weighed
  have hahead : Ahead m (advanceBelt t (weigh m (addDrift d s))) :=
    (weigh_ahead (k.frame hdrift) (by omega)).frame (advanceBelt_changes t _)
  have hbound : (advanceBelt t (weigh m (addDrift d s))).ship.weighed < 2 ^ 64 := by
    have : (weigh m (addDrift d s)).ship.weighed ≤ (addDrift d s).ship.weighed + m := by
      unfold weigh
      split
      · exact (addMass_of_lt (by omega)).le
      · exact Nat.le_add_right _ _
    simp only [advanceBelt]
    omega
  refine deliverAndCheck_conserved _ ?_ ?_
  · split
    · rw [((takeIncrement_changes sc m _ _ _).same .weighed : _ = _)]
      exact hbound
    · exact hbound
  · split
    next hpos => exact takeIncrement_conserved sc _ _ hpos hahead
    next hzero =>
      have hm0 : m = 0 := by omega
      rw [hm0] at hahead ⊢
      exact (ahead_zero_iff _).1 hahead

/-! ## The ship (R162 to R165) -/

/-- A request that may need a place is refused, or answered DONE and brought about. -/
theorem answerRequest_cases (f : Frame) (reason : Option Reason) (effect : State → State) (s : State) :
    (∃ r, reason = some r ∧ answerRequest f reason effect s = refuseRequest f r s)
      ∨ (reason = none ∧ answerRequest f reason effect s = effect (answerDone f [] s)) := by
  cases reason with
  | some r => exact .inl ⟨r, rfl, rfl⟩
  | none => exact .inr ⟨rfl, rfl⟩

theorem refuseRequest_changes (f : Frame) (r : Reason) (s : State) :
    OnlyChanges [.send .U, .sources] s (refuseRequest f r s) := by
  have hanswer := (answerRefused_changes f r s).mono (ys := [.send .U, .sources])
  unfold refuseRequest
  simp only
  split
  · exact hanswer.then (raise_changes _ _)
  · exact hanswer

/-- What an accepted OPEN_SHIP has passed (R162). -/
theorem openRefusal_none {s : State} {n : Nat} (h : openRefusal s n = none) :
    1 ≤ n ∧ n ≤ 65535 ∧ s.ready = true ∧ s.ship.state ≠ .open ∧ s.flight.total = 0 ∧ s.gate.feeder ≠ .running
      ∧ s.bills.free ≠ 0 := by
  unfold openRefusal between at h
  split_ifs at h
  simp_all
  omega

/-- What an accepted CLOSE_SHIP has passed (R164). -/
theorem closeRefusal_none {s : State} (h : closeRefusal s = none) :
    s.ready = true ∧ s.ship.state ≠ .noShip ∧ s.seq.plan ≠ .active ∧ s.seq.visit = none ∧ s.flight.total = 0
      ∧ s.gate.feeder ≠ .running ∧ s.bills.free ≠ 0 := by
  unfold closeRefusal at h
  split_ifs at h
  simp_all

theorem openShip_conserved {n : Nat} {s : State} (hn : 1 ≤ n) (hempty : s.flight.segments = []) :
    Conserved (openShip n s) := by
  refine Conserved.frame (issue_changes _ _ _) ⟨fun _ => ⟨?_, ?_⟩, ?_⟩
  · simp only [accountedFor, pouredTotal, Flight.total, hempty]
    decide
  · simp only [ShipAccount.tag, Option.getD_some]
    omega
  · simp [hempty]

theorem closeShip_conserved {s : State} (hempty : s.flight.segments = []) : Conserved (closeShip s) := by
  have hflight : (closeShip s).flight = s.flight := by
    have h := ((setBases_changes (closeLineAccounts s) s).same .flight).trans
      ((issue_changes false (closeRecord s) (setBases (closeLineAccounts s) s)).same .flight)
    exact h
  refine ⟨fun ho => absurd ho (by simp [closeShip, clearPlan]), ?_⟩
  rw [hflight, hempty]
  simp

theorem treatOpenShip_conserved (f : Frame) {s : State} (k : Conserved s) : Conserved (treatOpenShip f s) := by
  unfold treatOpenShip
  rcases answerRequest_cases f (openRefusal s (fieldAt f.payload 1 2)) (openShip (fieldAt f.payload 1 2)) s with
    ⟨r, -, h⟩ | ⟨hnone, h⟩ <;> simp only [h]
  · exact k.frame (refuseRequest_changes f r s)
  · obtain ⟨hn, -, -, -, hempty, -, -⟩ := openRefusal_none hnone
    refine openShip_conserved hn ?_
    rw [((answerDone_changes f [] s).same .flight : _ = _)]
    exact k.segments_nil hempty

theorem treatCloseShip_conserved (f : Frame) {s : State} (k : Conserved s) : Conserved (treatCloseShip f s) := by
  unfold treatCloseShip
  rcases answerRequest_cases f (closeRefusal s) closeShip s with ⟨r, -, h⟩ | ⟨hnone, h⟩ <;> rw [h]
  · exact k.frame (refuseRequest_changes f r s)
  · obtain ⟨-, -, -, -, hempty, -, -⟩ := closeRefusal_none hnone
    refine closeShip_conserved ?_
    rw [((answerDone_changes f [] s).same .flight : _ = _)]
    exact k.segments_nil hempty

/-! ## The scale table (R1, R191) -/

/-- A field that is present lies in its range. -/
theorem inRanges_get {rs : List (Nat → Bool)} {fs : List (Option Nat)} {k v : Nat} {r : Nat → Bool}
    (h : inRanges rs fs = true) (hr : rs[k]? = some r) (hf : fs[k]? = some (some v)) : r v = true := by
  have hmem : (some v).all r ∈ List.zipWith (fun (r : Nat → Bool) (f : Option Nat) => f.all r) rs fs :=
    List.mem_of_getElem? (i := k) (by simp [List.getElem?_zipWith, hr, hf])
  have hall := List.all_eq_true.1 h _ hmem
  simpa using hall

/-- A merged field is the load's own, or stands in the entry or in the defaults. -/
theorem merged_get {s : State} {l : Load} {k v : Nat} (h : (l.merged s)[k]? = some (some v)) :
    l.fields[k]? = some (some v) ∨ (defaultFields l.table l.entry)[k]? = some (some v)
      ∨ ∃ fs, entryFields s l.table l.entry = some fs ∧ fs[k]? = some (some v) := by
  unfold Load.merged at h
  simp only [List.getElem?_zipWith] at h
  split at h
  next a b ha hb =>
    simp only [Option.some.injEq] at h
    cases a with
    | some x =>
      have hxv : x = v := Option.some.inj h
      exact .inl (by rw [ha, hxv])
    | none =>
      have hbv : b = some v := by simpa using h
      rw [hbv] at hb
      split at hb
      · exact .inr (.inl hb)
      · cases he : entryFields s l.table l.entry with
        | none => exact .inr (.inl (by simpa [he] using hb))
        | some fs => exact .inr (.inr ⟨fs, rfl, by simpa [he] using hb⟩)
  · cases h

/-- A scale table that a load leaves lies in its ranges: each field is the load's, a default or the table's own. -/
theorem buildScale_inRange {s : State} {l : Load} {x : ScaleTable} {busy : ScaleTable → Bool} (k : ScaleInRange s)
    (ht : l.table = .scale) (h : judgeLoad s l buildScale noRelation busy = .ok x) :
    x.capacity ≤ 2000000 ∧ x.gapLimit ≤ 32767 := by
  obtain ⟨hin, hbuild, -, -⟩ := judgeLoad_ok h
  have hfields : l.merged s = x.fields := by
    unfold buildScale at hbuild
    split at hbuild
    next hm =>
      cases hbuild
      exact hm
    · cases hbuild
  rw [ht] at hin
  have bounded {i v bound : Nat} {r : Nat → Bool} (hv : x.fields[i]? = some (some v))
      (hr : (fieldRanges .scale l.entry)[i]? = some r) (hbound : ∀ n, r n = true → n ≤ bound)
      (hdefault : ∀ n, (defaultFields .scale l.entry)[i]? = some (some n) → n ≤ bound)
      (hown : ∀ (sc : ScaleTable) (n : Nat), s.meter.table = some sc → sc.fields[i]? = some (some n) → n ≤ bound) :
      v ≤ bound := by
    rcases merged_get (hfields ▸ hv) with hf | hd | ⟨fs, he, hf⟩
    · exact hbound v (inRanges_get hin hr hf)
    · exact hdefault v (by rwa [ht] at hd)
    · rw [ht] at he
      obtain ⟨sc, hsc, rfl⟩ := Option.map_eq_some_iff.1 he
      exact hown sc v hsc hf
  constructor
  · refine bounded (i := 1) rfl rfl (fun n hn => ?_) (fun n hn => ?_) fun sc n hsc hn => ?_
    · simp only [between, decide_eq_true_eq] at hn
      exact hn.2
    · cases hn
      decide
    · cases hn
      exact (k sc hsc).1
  · refine bounded (i := 3) rfl rfl (fun n hn => ?_) (fun n hn => ?_) fun sc n hsc hn => ?_
    · simp only [between, decide_eq_true_eq] at hn
      exact hn.2
    · cases hn
      decide
    · cases hn
      exact (k sc hsc).2

/-- The blocks that conservation and the scale table's ranges rest on. -/
def grainBlocks : List Block := .scale :: conservedBlocks

/-- Conservation and the scale table's ranges together. -/
def GrainSound (s : State) : Prop := Conserved s ∧ ScaleInRange s

theorem GrainSound.congr {s t : State} (h : ∀ b ∈ grainBlocks, Same b s t) (k : GrainSound s) : GrainSound t :=
  ⟨(ahead_zero_iff t).1 (Ahead.congr (fun b hb => h b (List.mem_cons_of_mem _ hb)) ((ahead_zero_iff s).2 k.1)), k.2.same (h .scale (by decide))⟩

theorem GrainSound.frame {xs : List Block} {s t : State} (h : OnlyChanges xs s t) (k : GrainSound s)
    (hx : ∀ b ∈ grainBlocks, b ∉ xs := by decide) : GrainSound t :=
  keeps_of_blocks grainBlocks (fun _ _ => GrainSound.congr) h hx k

/-- A change that leaves the scale table. -/
theorem GrainSound.of_conserved {xs : List Block} {s t : State} (hc : OnlyChanges xs s t) (h : Conserved t)
    (k : GrainSound s) (hx : Block.scale ∉ xs := by decide) : GrainSound t := ⟨h, k.2.same (hc.same .scale hx)⟩

theorem applyScale_table (x : ScaleTable) (s : State) : (applyScale x s).meter.table = some x := by
  have hkept (u : State) : (evalDrift (restartSilence u)).meter.table = u.meter.table :=
    ((restartSilence_changes u).same .scale).trans ((evalDrift_changes _).same .scale)
  have hready (u : State) : (becomeReady u).meter.table = u.meter.table := (becomeReady_changes u).same .scale
  unfold applyScale
  simp only [hready, hkept]

/-- What an accepted LOAD leaves: of the blocks that conservation rests on, a SCALE load alone touches one. -/
theorem LoadEffect.grainSound {s u : State} {l : Load} {effect : State → State} (h : LoadEffect s l effect)
    (hs : GrainSound s) (k : GrainSound u) : GrainSound (effect u) := by
  cases h with
  | nothing => exact k.frame (applyNothing_changes _ _)
  | stations a => exact k.frame (applyStation_changes _ _ _)
  | scale x ht hj =>
    refine ⟨k.1.frame (applyScale_changes x u), fun sc hsc => ?_⟩
    obtain rfl : x = sc := by simpa [applyScale_table] using hsc
    exact buildScale_inRange hs.2 ht hj
  | travel x => exact k.frame (applyTravel_changes _ _)
  | envelopes x => exact k.frame (applyEnvelope_changes _ _ _)
  | holds x => exact k.frame (applyHold_changes _ _ _)
  | sequence x => exact k.frame (applySlot_changes _ _ _)
  | plan x => exact k.frame (applyPlan_changes _ _)
  | gate w => exact k.frame (applyGate_changes _ _)
  | derate x => exact k.frame (applyDerate_changes _ _)
  | sensor x => exact k.frame (applySensor_changes _ _ _)
  | alarm x => exact k.frame (applyAlarm_changes _ _ _)
  | marks v => exact k.frame (applyMarks_changes _ _)

/-! ## Every step -/

theorem coldReset_grainSound (s : State) : GrainSound (coldReset s) := by
  simp [GrainSound, Conserved, ScaleInRange, ShipAccount.reset, Flight.reset, Meter.reset]

/-- A BELT sample's increment is at most 65,534 kg (R1, R10, R11). -/
theorem treatBelt_grainSound (f : Frame) {s : State} (hw : s.ship.weighed + 65534000000 < 2 ^ 64) (k : GrainSound s) :
    GrainSound (treatBelt f s) := by
  refine k.of_conserved (treatBelt_changes f s) ?_
  refine treatBelt_keeps_on conservedBlocks (fun s t h k => (ahead_zero_iff t).1 (Ahead.congr h ((ahead_zero_iff s).2 k)))
    (by decide) f (fun u sc load t gap hc hsc ht ku => ?_) (fun u hc ku => ?_) k.1
  · exact integrate_conserved sc load gap ht (k.2 sc hsc) (by rw [(hc.same .weighed : _ = _)]; exact hw) ku
  · exact deliverAndCheck_conserved _ (by rw [(hc.same .weighed : _ = _)]; omega) ku

theorem Treatment.grainSound {p : PortId} {row : Instr} {treat : Frame → State → State} (h : Treatment p row treat)
    (f : Frame) {s : State} (hw : s.ship.weighed + 65534000000 < 2 ^ 64) (k : GrainSound s) :
    GrainSound (treat f s) := by
  have refused (r : Reason) : GrainSound (answerRefused f r s) := k.frame (answerRefused_changes f r s)
  have answered : GrainSound (answerDone f [] s) := k.frame (answerDone_changes f [] s)
  by_cases hr : row = .restart
  · subst hr
    cases h
    rcases treatRestart_cases f s with ⟨-, h⟩ | ⟨-, h⟩ <;> rw [h]
    · exact refused .busy
    · exact (coldReset_grainSound s).frame (endReset_changes _)
  · by_cases hb : ∀ b ∈ grainBlocks, b ∉ treatmentBlocks row
    · exact k.frame (h.changes hr f s) hb
    · cases h
      case belt => exact treatBelt_grainSound f hw k
      case openShip => exact k.of_conserved (treatOpenShip_changes f s) (treatOpenShip_conserved f k.1)
      case closeShip => exact k.of_conserved (treatCloseShip_changes f s) (treatCloseShip_conserved f k.1)
      case load =>
        rcases treatLoad_cases f s with ⟨r, hr⟩ | ⟨l, effect, he, hr⟩ <;> rw [hr]
        · exact refused r
        · exact he.grainSound k answered
      case setAlarm =>
        rcases treatSetAlarm_cases f s with hr | ⟨r, hr⟩ | ⟨l, effect, he, hr⟩ <;> rw [hr]
        · exact k
        · exact refused r
        · exact he.grainSound k answered
      case forwarded => exact absurd (by simp [grainBlocks, conservedBlocks, treatmentBlocks]) hb
      case dropped => exact absurd (by simp [treatmentBlocks]) hb
      all_goals exact absurd (by decide) hb

theorem Event.grainSound {s t : State} (h : Event s t) (k : GrainSound s) : GrainSound (endEvent t) := by
  refine GrainSound.frame (endEvent_changes t) ?_
  rcases h.changes_or_resets with hc | ⟨u, rfl, -, hu⟩
  · exact k.frame hc
  · rw [hu]
    exact ((coldReset_grainSound s).frame (coldReset_pins_changes s _)).frame (endReset_changes _)

theorem Quiet.grainSound {s t : State} (h : Quiet s t) (k : GrainSound s) : GrainSound t := by
  rcases h.changes_or_resets with hc | hc
  · exact k.frame hc
  · rw [hc]
    exact (coldReset_grainSound s).frame (coldReset_pins_changes s _)

end Sys2Proof.Machine

open Sys2Proof Sys2Proof.Machine

/-- Settles O15. An increment enters the weighed total and the queue (`integrate_conserved`), a delivery moves a segment's
mass to an account (`deliver_conserved`), and a ship is opened and closed with nothing in flight. -/
theorem grainIsConserved : Obligations.GrainIsConserved := by
  intro s t k hscale hw hx
  have hs : GrainSound s := ⟨k, hscale⟩
  unfold step at hx
  split at hx
  next c rest _ =>
    have hs' : GrainSound { s with pending := rest } := hs
    obtain ⟨u, hu, hcase⟩ := exec_cases c { s with pending := rest }
    obtain rfl : u = t := by simpa using hu.symm.trans hx
    rcases hcase with rfl | ⟨p, treat, e, queue, hrow, -, rfl⟩ | hown
    · exact hs'
    · have htaken := takeHead_changes p e queue c { s with pending := rest }
      have hweighed : (takeHead p e queue c { s with pending := rest }).ship.weighed = s.ship.weighed :=
        htaken.same .weighed (by cases p <;> decide)
      exact (hrow.grainSound e.frame (by rw [hweighed]; exact hw)
        (hs'.frame htaken (by cases p <;> decide))).frame (endEvent_changes _)
    · exact hown.keeps (P := GrainSound) (fun _ _ he k => he.grainSound k) (fun _ _ hq k => hq.grainSound k) hs'
  · cases hx
    exact hs.frame (tick_changes s)

end

section
/-! What every operation keeps of the line's sending side and of the source table: a property that the few primitive
changes of these keep is kept by every operation, treatment and event. -/

set_option Elab.async false

namespace Sys2Proof.Machine

/-! ## The primitive changes -/

/-- The changes that the alarm requests and a LOAD of the source table make of the ladder (R131, R132, R136), with what
is known of them where the ladder is `sound`. -/
inductive LadderMove (sound : Prop) : State → State → Prop
  | ack (i : SourceNo) (s : State) (h : sound → s.ladder.qualifies i = true) :
      LadderMove sound s { s with ladder := { s.ladder.put i { s.ladder.sources[i] with state := .inService } with
        stack := i :: s.ladder.stack } }
  | done (i : SourceNo) (st : List SourceNo) (s : State) (h : s.ladder.stack = i :: st) :
      LadderMove sound s { s with ladder := { s.ladder.put i (s.ladder.sources[i]).completed with stack := st } }
  | amend (i : SourceNo) (x : AlarmFields) (s : State) (hr : sound → x.rank ≤ 15)
      (hb : (s.ladder.sources[i]).state = .inService →
        (s.ladder.sources[i]).rank = x.rank ∧ (s.ladder.sources[i]).record = x.record) :
      LadderMove sound s { s with ladder := s.ladder.put i ((s.ladder.sources[i]).amended x) }

/-- A property of the line and of the source table with its stack that every primitive change of these keeps. -/
structure SharedKept (sound : Prop) (P : State → Prop) : Prop where
  /-- a change elsewhere -/
  aside : ∀ {s t : State}, P s → (_ : t.line = s.line := by rfl) →
    (_ : t.ladder.sources = s.ladder.sources := by rfl) → (_ : t.ladder.stack = s.ladder.stack := by rfl) → P t
  /-- a frame offered to a transmit queue (R181) -/
  offered : ∀ (p : PortId) (f : Frame) {s : State}, P s → P (offer p f s)
  /-- an order injected (R93) -/
  injected : ∀ {d : InjDest} {o : InjOrder} {bs : List Byte} {s t : State}, injectOrder d o bs s = some t → P s → P t
  /-- an unsent frame removed from the injection queue (R94) -/
  withdrawn : ∀ (d : InjDest) {s : State}, P s → P { s with line := { s.line with injection := s.line.without d } }
  /-- an unsent frame rewritten (R102) -/
  rewritten : ∀ (d : InjDest) (bs : List Byte) {s : State}, P s → P { s with line := s.line.rewrite d bs }
  /-- the receiving side, its queue no longer (R172 to R175) -/
  receiving : ∀ (p : PortId) (x : Port) {s : State}, x.txQueue = (s.line.port p).txQueue →
    x.sending = (s.line.port p).sending → x.rxQueue.length ≤ (s.line.port p).rxQueue.length → P s →
    P (setLinePort p x s)
  raised : ∀ (i : SourceNo) {s : State}, P s → P (raise i s)
  condSet : ∀ (i : SourceNo) (b : Bool) {s : State}, P s → P (setCond i b s)
  moved : ∀ {s t : State}, LadderMove sound s t → P s → P t

theorem OnlyChanges.line_eq {xs : List Block} {s t : State} (h : OnlyChanges xs s t)
    (hru : Block.recv .U ∉ xs := by decide) (hrd : Block.recv .D ∉ xs := by decide)
    (hsu : Block.send .U ∉ xs := by decide) (hsd : Block.send .D ∉ xs := by decide)
    (hi : Block.injection ∉ xs := by decide) : t.line = s.line := by
  have hport {p : PortId} (hr : Same (.recv p) s t) (hs : Same (.send p) s t) : t.line.port p = s.line.port p := by
    obtain ⟨hrx, hqueue, htally, hfault⟩ := hr
    obtain ⟨htx, hsending⟩ := hs
    cases h : t.line.port p
    simp_all
  have hu := hport (h.same _ hru) (h.same _ hsu)
  have hd := hport (h.same _ hrd) (h.same _ hsd)
  obtain ⟨hinj, hseq⟩ := h.same _ hi
  cases h : t.line
  simp_all

section
variable {sound : Prop} {P : State → Prop} (hk : SharedKept sound P) {s : State} (k : P s)
include hk

/-- A change of blocks that are neither the line's nor the ladder's. -/
theorem SharedKept.frame {xs : List Block} {t : State} (h : OnlyChanges xs s t) (k : P s)
    (hru : Block.recv .U ∉ xs := by decide) (hrd : Block.recv .D ∉ xs := by decide)
    (hsu : Block.send .U ∉ xs := by decide) (hsd : Block.send .D ∉ xs := by decide)
    (hi : Block.injection ∉ xs := by decide) (ha : Block.alarmTable ∉ xs := by decide)
    (hs : Block.sources ∉ xs := by decide) (hc : Block.conds ∉ xs := by decide)
    (hst : Block.stack ∉ xs := by decide) : P t :=
  hk.aside k (h.line_eq hru hrd hsu hsd hi)
    (Vector.ext fun i hi => h.sources ⟨i, hi⟩ ha hs hc) (h.same .stack hst)

include k

/-! ## Frames of the part's own, and the end of an event -/

theorem notice_shared (bs : List Byte) : P (notice bs s) := hk.offered _ _ k
theorem refuse_shared (p : PortId) (f : Frame) (r : Reason) : P (refuse p f r s) := hk.offered _ _ k
theorem answerDone_shared (f : Frame) (bs : List Byte) : P (answerDone f bs s) := hk.offered _ _ k
theorem answerRefused_shared (f : Frame) (r : Reason) : P (answerRefused f r s) := hk.offered _ _ k

theorem forward_shared (p : PortId) (f : Frame) : P (forward p f s) := by
  unfold forward
  split
  · exact hk.offered _ _ k
  · split
    · exact refuse_shared hk k p f _
    · exact k

theorem endEvent_shared : P (endEvent s) := by
  unfold endEvent
  simp only
  split
  · exact hk.aside k
  · exact notice_shared hk (hk.aside k) _

theorem setVisit_shared (v : Option Visit) : P (setVisit v s) := hk.aside k
theorem abandonOrder_shared (d : InjDest) : P (abandonOrder d s) := hk.aside (hk.withdrawn d k)
theorem releaseEntry_shared (d : InjDest) : P (releaseEntry d s) := hk.aside k

theorem testHeldMove_shared : P (testHeldMove s) := by
  unfold testHeldMove
  split
  · exact k
  · split
    · exact forward_shared hk (hk.aside k) _ _
    · exact k

theorem dismissHeldMove_shared (r : Reason) : P (dismissHeldMove r s) := by
  unfold dismissHeldMove
  split
  · exact k
  · exact refuse_shared hk (hk.aside k) _ _ _

/-! ## Plan and visit -/

theorem issue_shared (r : Bool) (x : RecordBody) : P (issue r x s) := by
  unfold issue markTest
  split
  · exact hk.raised _ (hk.aside k)
  · exact hk.aside k

theorem finishPlan_shared (r : FinishReason) (m : Bool) : P (finishPlan r m s) := by
  unfold finishPlan
  simp only
  refine notice_shared hk ?_ _
  split
  · exact hk.raised _ (hk.aside k)
  · exact hk.aside k

theorem openVisit_shared (i : Fin 16) (sl : Slot) : P (openVisit i sl s) :=
  notice_shared hk (setVisit_shared hk k _) _

theorem advanceCursor_shared : P (advanceCursor s) := hk.frame (advanceCursor_changes s) k

omit k in
theorem selectLoop_shared (p : PlanHeader) (fuel run : Nat) (m : Bool) {s : State} (k : P s) :
    P (selectLoop p fuel run m s) := by
  induction fuel generalizing run m s with
  | zero => exact k
  | succ n ih =>
    unfold selectLoop
    split
    · exact finishPlan_shared hk k _ _
    · split
      · exact finishPlan_shared hk k _ _
      · split
        · exact k
        · split
          · exact openVisit_shared hk k _ _
          · simp only
            split
            · exact finishPlan_shared hk (hk.aside k) _ _
            · exact ih _ _ (advanceCursor_shared hk (hk.aside k))

theorem selectVisit_shared : P (selectVisit s) := by
  unfold selectVisit
  split
  · exact k
  · exact selectLoop_shared hk _ _ _ _ k

theorem afterVisit_shared : P (afterVisit s) := by
  unfold afterVisit
  split
  · exact selectVisit_shared hk (advanceCursor_shared hk k)
  · exact advanceCursor_shared hk k
  · exact k

theorem completeVisit_shared : P (completeVisit s) := by
  cases hv : s.seq.visit with
  | none =>
    rw [completeVisit, hv]
    exact k
  | some v =>
    rw [completeVisit_eq v s hv]
    exact afterVisit_shared hk (testHeldMove_shared hk
      (hk.aside (issue_shared hk (s := setBases (visitLineAccounts s v) s) (hk.aside k) _ _)))

theorem completeIfEmpty_shared : P (completeIfEmpty s) := by
  unfold completeIfEmpty
  split
  · exact completeVisit_shared hk k
  · exact k

theorem enterDraining_shared (b : Bool) : P (enterDraining b s) :=
  completeIfEmpty_shared hk (setVisit_shared hk k _)

theorem closeOutNotIssued_shared : P (closeOutNotIssued s) :=
  enterDraining_shared hk (hk.raised _ (abandonOrder_shared hk k _)) _

theorem closeOut_shared : P (closeOut s) := by
  unfold closeOut
  split
  · split
    · exact hk.aside k
    · exact closeOutNotIssued_shared hk k
  · split
    next hinj => exact hk.aside (hk.injected hinj k)
    · exact closeOutNotIssued_shared hk k

theorem closeOutOutcome_shared (b : Bool) : P (closeOutOutcome b s) := by
  unfold closeOutOutcome
  split
  · exact enterDraining_shared hk k b
  · exact k

theorem takeTrigger_shared (r : EndReason) : P (takeTrigger r s) := by
  unfold takeTrigger
  split
  · exact closeOut_shared hk (setVisit_shared hk k _)
  · exact completeIfEmpty_shared hk (setVisit_shared hk k _)
  · exact k

theorem checkProjections_shared : P (checkProjections s) := by
  unfold checkProjections
  split
  · exact k
  · split
    · split
      · exact takeTrigger_shared hk k _
      · exact k
    · exact k

theorem enterPouring_shared : P (enterPouring s) := by
  unfold enterPouring
  split
  · exact k
  · exact checkProjections_shared hk (hk.frame (fillHold_changes _ _) (setVisit_shared hk k _))

theorem runForwarded_shared : P (runForwarded s) := by
  unfold runForwarded
  split
  · exact enterPouring_shared hk k
  · exact enterPouring_shared hk k
  · exact k

theorem feederRunning_shared : P (feederRunning s) := by
  unfold feederRunning
  split
  · exact enterPouring_shared hk k
  · exact k

theorem reportLost_shared (h : Hold) : P (reportLost h s) := by
  unfold reportLost
  split
  · exact k
  · split
    · split
      · exact setVisit_shared hk k _
      · exact takeTrigger_shared hk k _
    · exact k

/-! ## Feed Gate and Dust Monitor -/

theorem derateCheck_shared : P (derateCheck s) := by
  unfold derateCheck
  split
  · split
    next hinj => exact hk.aside (hk.injected hinj k)
    · split
      · exact hk.aside (hk.rewritten .feeder (limitPayload s) k)
      · exact hk.aside k
  · exact hk.aside k

theorem recomputeLimit_shared : P (recomputeLimit s) := by
  unfold recomputeLimit
  simp only
  split
  · exact derateCheck_shared hk (hk.aside k)
  · exact hk.aside k

theorem reformBands_shared : P (reformBands s) := by
  unfold reformBands
  simp only
  split
  · exact hk.aside k
  · split
    · exact takeTrigger_shared hk (recomputeLimit_shared hk (hk.aside k)) _
    · exact recomputeLimit_shared hk (hk.aside k)

theorem setSensor_shared (i : SensorNo) (x : Sensor) : P (setSensor i x s) := hk.aside k

theorem releaseTest_shared (i : SensorNo) : P (releaseTest i s) := by
  unfold releaseTest
  simp only
  split
  · exact hk.condSet _ _ (setSensor_shared hk k _ _)
  · exact k

theorem retestLatch_shared (i : SensorNo) : P (retestLatch i s) := reformBands_shared hk (releaseTest_shared hk k i)

theorem reportSource_shared (i : SourceNo) : P (reportSource i s) := by
  unfold reportSource
  split
  · exact retestLatch_shared hk k _
  · exact k

theorem setFeeder_shared (st : FeederState) : P (setFeeder st s) := by
  unfold setFeeder
  split
  · exact k
  · exact testHeldMove_shared hk (hk.aside k)

theorem strayStop_shared : P (strayStop s) := by
  unfold strayStop
  split
  next hinj => exact hk.injected hinj k
  · exact k

theorem reportRunning_shared : P (reportRunning s) := by
  unfold reportRunning
  refine derateCheck_shared hk ?_
  split
  · exact strayStop_shared hk (feederRunning_shared hk k)
  · exact feederRunning_shared hk k

theorem pauseVisit_shared (r : PauseReason) : P (pauseVisit r s) := hk.frame (pauseVisit_changes r s) k

theorem feederArrival_shared (st : FeederState) (b : Bool) : P (feederArrival st b s) := by
  have hset := setFeeder_shared hk k st
  unfold feederArrival
  cases st <;> simp only
  · split
    · exact pauseVisit_shared hk hset _
    · exact hset
  · split
    · exact reportRunning_shared hk hset
    · exact hset
  · split
    · exact pauseVisit_shared hk hset _
    · exact hset
  · exact hset

theorem feederOutcome_shared (o : InjOrder) (b : Bool) : P (feederOutcome o b s) := by
  have hraised : P (if b then raise srcStopFault s else s) := by
    split
    · exact hk.raised _ k
    · exact k
  unfold feederOutcome
  cases o <;> simp only
  · exact closeOutOutcome_shared hk hraised _
  · exact derateCheck_shared hk hraised
  · exact hraised

/-! ## Sweeps and placement -/

theorem finishSweep_shared (o : SweepOutcome) (w : Sweep) : P (finishSweep o w s) :=
  notice_shared hk (hk.aside k) _

theorem cancelSweep_shared : P (cancelSweep s) := by
  unfold cancelSweep
  split
  · exact k
  · exact finishSweep_shared hk (abandonOrder_shared hk k _) _ _

theorem faultSweep_shared : P (faultSweep s) := by
  unfold faultSweep
  split
  · exact k
  · exact finishSweep_shared hk (hk.raised _ (abandonOrder_shared hk k _)) _ _

theorem beginStep_shared (w : Sweep) : P (beginStep w s) := by
  unfold beginStep
  split
  · exact finishSweep_shared hk k _ _
  · simp only
    have hdrawn : P { s with draws := s.draws + 1 } := hk.aside k
    split
    next hinj => exact hk.aside (hk.injected hinj hdrawn)
    · exact faultSweep_shared hk (hk.aside hdrawn)

theorem completeStep_shared (w : Sweep) : P (completeStep w s) := by
  unfold completeStep
  simp only
  split
  · exact finishSweep_shared hk k _ _
  · split
    · exact finishSweep_shared hk k _ _
    · exact beginStep_shared hk k _

theorem sweepTest_shared (b : PlaceState) (x : Option (Axis × Nat × Motion)) : P (sweepTest b x s) := by
  unfold sweepTest
  split
  · exact k
  · split
    · exact cancelSweep_shared hk k
    · split
      · split
        · exact completeStep_shared hk k _
        · exact k
      · exact k

theorem evaluatePlacement_shared : P (evaluatePlacement s) := by
  unfold evaluatePlacement reportPlacement
  simp only
  have hset (st : PlaceState) (a : Account) : P { s with place := { s.place with state := st, pourPoint := a } } :=
    hk.aside k
  split
  · exact hset _ _
  · split
    · exact hk.frame (reportPlaced_changes _ _) (hset _ _)
    · exact reportLost_shared hk (hset _ _) _
    · exact hset _ _

/-! ## Belt Meter and Flight Queue -/

theorem evalDrift_shared : P (evalDrift s) := by
  unfold evalDrift
  split
  · exact k
  · simp only
    split
    · exact hk.raised _ (hk.condSet _ _ k)
    · exact hk.condSet _ _ k

theorem addDrift_shared (m : Nat) : P (addDrift m s) := by
  unfold addDrift
  split
  · exact evalDrift_shared hk (hk.aside k)
  · exact k

theorem endZero_shared (o : ZeroOutcome) (n : Int) : P (endZero o n s) := by
  unfold endZero
  split
  · exact k
  · exact notice_shared hk (hk.aside (issue_shared hk k _ _)) _

theorem setMeterFault_shared : P (setMeterFault s) := by
  unfold setMeterFault
  simp only
  have hended : ∀ n, P (endZero .faulted n (raise srcMeterFault (setCond srcMeterFault true
      { s with meter := { s.meter with fault := true, clearing := 0 } }))) := fun n =>
    endZero_shared hk (hk.raised _ (hk.condSet _ _ (hk.aside k))) _ n
  split
  · exact hended _
  · exact takeTrigger_shared hk (hended _) _

theorem countClearing_shared : P (countClearing s) := by
  unfold countClearing
  split
  · split
    · exact hk.condSet _ _ (hk.aside k)
    · exact hk.aside k
  · exact k

theorem restartSilence_shared : P (restartSilence s) := hk.frame (restartSilence_changes s) k

theorem takeIncrement_shared (sc : ScaleTable) (m : Nat) (o g : Bool) : P (takeIncrement sc m o g s) := by
  unfold takeIncrement
  split
  · exact hk.aside k
  · split
    · exact hk.aside k
    · split
      · exact hk.aside k
      · exact hk.raised _ (hk.condSet _ _ (hk.aside k))

theorem deliveryAlarm_shared (a : Account) : P (deliveryAlarm a s) := by
  unfold deliveryAlarm
  split
  · exact hk.raised _ k
  · split
    · split
      · exact k
      · exact hk.raised _ k
    · exact k

theorem creditDelivery_shared (g : Segment) : P (creditDelivery g s) := by
  unfold creditDelivery
  split
  · exact hk.raised _ k
  · exact hk.frame (reportDelivery_changes _ _ _) (deliveryAlarm_shared hk (hk.aside k) _)

theorem coarseLeft_shared (g : Segment) (rest : List Segment) : P (coarseLeft g rest s) := by
  unfold coarseLeft
  split
  · exact hk.condSet _ _ k
  · exact k

theorem queueEmptied_shared : P (queueEmptied s) := by
  unfold queueEmptied
  refine testHeldMove_shared hk ?_
  split
  · exact completeVisit_shared hk k
  · exact k

theorem deliver_shared (g : Segment) (rest : List Segment) : P (deliver g rest s) := by
  have hcredited := creditDelivery_shared hk (coarseLeft_shared hk
    (s := { s with flight := { s.flight with segments := rest } }) (hk.aside k) g rest) g
  unfold deliver
  simp only
  split
  · exact queueEmptied_shared hk hcredited
  · exact hcredited

omit k in
theorem deliverDue_shared (gs : List Segment) {s : State} (k : P s) : P (deliverDue gs s) := by
  induction gs generalizing s with
  | nil => exact k
  | cons g rest ih =>
    unfold deliverDue
    split
    · exact ih (deliver_shared hk k g rest)
    · exact k

theorem deliverAndCheck_shared (b : Bool) : P (deliverAndCheck b s) := by
  unfold deliverAndCheck
  simp only
  split
  · exact checkProjections_shared hk (deliverDue_shared hk _ k)
  · exact deliverDue_shared hk _ k

theorem integrate_shared (sc : ScaleTable) (load : Int) (t : Nat) (g : Bool) : P (integrate sc load t g s) := by
  unfold integrate
  have hweighed (d m : Nat) : P (advanceBelt t (weigh m (addDrift d s))) :=
    hk.frame (advanceBelt_changes _ _) (hk.frame (weigh_changes _ _) (addDrift_shared hk k d))
  refine deliverAndCheck_shared hk ?_ _
  split
  · exact takeIncrement_shared hk (hweighed _ _) _ _ _ _
  · exact hweighed _ _

theorem collectZero_shared (sc : ScaleTable) (load : Int) (t : Nat) : P (collectZero sc load t s) := by
  unfold collectZero
  split
  · exact k
  · split
    · exact endZero_shared hk k _ _
    · simp only
      split
      · unfold completeZero
        simp only
        split
        · exact endZero_shared hk (evalDrift_shared hk (hk.aside k)) _ _
        · exact endZero_shared hk (hk.aside k) _ _
      · exact hk.aside k

theorem beltTravel_shared (sc : ScaleTable) (load : Int) (t : Nat) (g ok : Bool) :
    P (beltTravel sc load t g ok s) := by
  unfold beltTravel
  split
  · have hreverse : P (reverseSample s) := hk.raised _ (hk.condSet _ _ (hk.aside k))
    simp only
    split
    · exact hreverse
    · exact setMeterFault_shared hk hreverse
  · have hclear : P (setCond srcBeltReverse false s) := hk.condSet _ _ k
    simp only
    split
    · exact collectZero_shared hk (countClearing_shared hk (integrate_shared hk hclear _ _ _ _)) _ _ _
    · exact setMeterFault_shared hk
        (deliverAndCheck_shared hk (s := advanceBelt t _) (hk.aside hclear) _)

theorem takeBelt_shared (q : Byte) (load : Int) (pos : BitVec 16) (ok : Bool) : P (takeBelt q load pos ok s) := by
  unfold takeBelt
  split
  · exact k
  · refine restartSilence_shared hk (hk.frame (setPrev_changes _ _) ?_)
    split
    · have hclear : P (setCond srcBeltReverse false s) := hk.condSet _ _ k
      unfold firstSample
      simp only
      split
      · exact hclear
      · exact setMeterFault_shared hk hclear
    · exact beltTravel_shared hk k _ _ _ _ _

end

end Sys2Proof.Machine
end

section
/-! What every treatment and event keeps of the line's sending side and of the source table, from the primitive changes. -/

set_option Elab.async false

namespace Sys2Proof.Machine

section
variable {sound : Prop} {P : State → Prop} (hk : SharedKept sound P) {s : State} (k : P s)
include hk k

/-! ## Taking a frame (R173 to R175) -/

theorem enterLineFault_shared (p : PortId) : P (enterLineFault p s) := by
  have hentered : P (raise (srcLineFault p) (setCond (srcLineFault p) true
      (setLinePort p { s.line.port p with lineFault := true } s))) :=
    hk.raised _ (hk.condSet _ _ (hk.receiving p _ rfl rfl le_rfl k))
  unfold enterLineFault
  cases p
  · exact hentered
  · exact takeTrigger_shared hk hentered _

theorem leaveLineFault_shared (p : PortId) : P (leaveLineFault p s) := by
  have hleft : P (setCond (srcLineFault p) false (setLinePort p { s.line.port p with lineFault := false } s)) :=
    hk.condSet _ _ (hk.receiving p _ rfl rfl le_rfl k)
  unfold leaveLineFault
  cases p
  · exact hleft
  · exact derateCheck_shared hk hleft

theorem lineFaultTest_shared (p : PortId) : P (lineFaultTest p s) := by
  unfold lineFaultTest
  split
  · exact enterLineFault_shared hk k p
  · exact k

theorem tallyUp_shared (p : PortId) : P (tallyUp p s) := by
  have hstepped : P (setLinePort p { s.line.port p with tally := min ((s.line.port p).tally + 1) 255 } s) :=
    hk.receiving p _ rfl rfl le_rfl k
  exact lineFaultTest_shared hk hstepped p

theorem tallyDown_shared (p : PortId) : P (tallyDown p s) := by
  have hstepped : P (setLinePort p { s.line.port p with tally := (s.line.port p).tally - 1 } s) :=
    hk.receiving p _ rfl rfl le_rfl k
  unfold tallyDown
  simp only
  split
  · exact leaveLineFault_shared hk hstepped p
  · exact hstepped

theorem takeHead_shared {p : PortId} {e : RxEntry} {rest : List RxEntry} {row : Instr} (h : Heads s p row e rest) :
    P (takeHead p e rest row s) := by
  have htaken : P (setLinePort p { s.line.port p with rxQueue := rest } s) :=
    hk.receiving p _ rfl rfl (by simp [h.1]) k
  unfold takeHead takingStep
  split
  · exact tallyUp_shared hk htaken p
  · exact tallyUp_shared hk htaken p
  · exact tallyDown_shared hk htaken p

/-! ## Samples (R3, R42, R43, R90, R112) -/

theorem takePosition_shared (a : Axis) (n : Nat) (m : Motion) : P (takePosition a n m s) := by
  unfold takePosition
  exact sweepTest_shared hk (evaluatePlacement_shared hk (hk.frame (putAxis_changes _ _ s) k)) _ _

theorem takeSense_shared (r : SenseResult) : P (takeSense r s) := by
  unfold takeSense
  exact sweepTest_shared hk (evaluatePlacement_shared hk (hk.frame (setSense_changes _ s) k)) _ _

theorem restartSensor_shared (i : SensorNo) : P (restartSensor i s) := hk.frame (restartSensor_changes i s) k

theorem silenceSensor_shared (i : SensorNo) : P (silenceSensor i s) := by
  have hset : P (setCond (srcSensorSilent i) true (setSensor i { s.dust.sensors[i] with silent := true } s)) :=
    hk.condSet _ _ (setSensor_shared hk k _ _)
  unfold silenceSensor
  simp only
  split
  · exact hset
  · exact hk.raised _ hset

theorem averageSensor_shared (i : SensorNo) (e : SensorEntry) (c : Nat) : P (averageSensor i e c s) :=
  hk.condSet _ _ (setSensor_shared hk k _ _)

theorem tripSensor_shared (i : SensorNo) (e : SensorEntry) (c : Nat) : P (tripSensor i e c s) := by
  unfold tripSensor
  simp only
  split
  · exact hk.condSet _ _ (setSensor_shared hk k _ _)
  · exact releaseTest_shared hk (setSensor_shared hk k _ _) _

theorem hearSensor_shared (i : SensorNo) : P (hearSensor i s) := hk.condSet _ _ (setSensor_shared hk k _ _)

theorem dustAlarms_shared (i : SensorNo) (e : SensorEntry) (x : Sensor) (c : Nat) : P (dustAlarms i e x c s) := by
  have hhigh : P (if x.avgBand != .high && (s.dust.sensors[i]).avgBand == .high then raise (srcDustHigh i) s else s) := by
    split
    · exact hk.raised _ k
    · exact k
  unfold dustAlarms
  simp only
  split
  · exact hk.raised _ hhigh
  · exact hhigh

theorem takeDust_shared (i : SensorNo) (e : SensorEntry) (c : Nat) (ok : Bool) : P (takeDust i e c ok s) := by
  have hrestarted := restartSensor_shared hk k i
  unfold takeDust
  refine reformBands_shared hk ?_
  split
  · exact dustAlarms_shared hk (hearSensor_shared hk (tripSensor_shared hk
      (averageSensor_shared hk hrestarted _ _ _) _ _ _) _) _ _ _ _
  · exact silenceSensor_shared hk hrestarted _

theorem treatBelt_shared (f : Frame) : P (treatBelt f s) := by
  unfold treatBelt
  split
  · refine forward_shared hk ?_ _ _
    split
    · exact takeBelt_shared hk k _ _ _ _
    · exact k
  · exact k

theorem treatPosition_shared (f : Frame) : P (treatPosition f s) := by
  unfold treatPosition
  split
  · refine forward_shared hk ?_ _ _
    split
    · exact takePosition_shared hk k _ _ _
    · exact k
  · exact k

theorem treatSense_shared (f : Frame) : P (treatSense f s) := by
  unfold treatSense
  split
  · refine forward_shared hk ?_ _ _
    split
    · exact takeSense_shared hk k _
    · exact k
  · exact k

theorem treatDust_shared (f : Frame) : P (treatDust f s) := by
  unfold treatDust
  split
  · refine forward_shared hk ?_ _ _
    split
    · exact k
    · split
      · split
        · exact takeDust_shared hk k _ _ _ _
        · exact k
      · exact k
  · exact k

theorem treatFeeder_shared (f : Frame) : P (treatFeeder f s) := by
  unfold treatFeeder
  split
  · refine forward_shared hk ?_ _ _
    split
    · exact feederArrival_shared hk k _ _
    · exact k
  · exact k

/-! ## Replies (R63, R90, R91, R94) -/

theorem observeAxis_shared (a : Axis) (r : ReplyForm) : P (observeAxis a r s) := hk.frame (observeAxis_changes a r s) k

theorem observeFeeder_shared (r : ReplyForm) : P (observeFeeder r s) := by
  unfold observeFeeder
  split
  · exact feederArrival_shared hk k _ _
  · exact k

theorem replyFeeder_shared (r : ReplyForm) (n : Byte) : P (replyFeeder r n s) := by
  have hobserved := observeFeeder_shared hk k r
  unfold replyFeeder
  simp only
  split
  · split
    · exact feederOutcome_shared hk (releaseEntry_shared hk hobserved _) _ _
    · exact hobserved
  · exact hobserved

theorem driveOutcome_shared (a : DriveAxis) (b : Bool) : P (driveOutcome a b s) := by
  have hreleased := releaseEntry_shared hk k (.drive a)
  unfold driveOutcome
  split
  · split
    · split
      · exact hk.frame (setSweep_changes _ _) hreleased
      · exact faultSweep_shared hk k
    · exact hreleased
  · exact hreleased

theorem consumeReply_shared (f : Frame) (r : ReplyForm) : P (consumeReply f r s) := by
  unfold consumeReply
  split
  · exact replyFeeder_shared hk k _ _
  · unfold replyDrive
    split
    · exact driveOutcome_shared hk (observeAxis_shared hk k _ _) _ _
    · exact k
  · exact k

theorem observeReply_shared (f : Frame) (r : ReplyForm) : P (observeReply f r s) := by
  unfold observeReply
  split
  · exact observeFeeder_shared hk k _
  · split
    · exact observeAxis_shared hk k _ _
    · exact k

theorem treatReply_shared (f : Frame) : P (treatReply f s) := by
  unfold treatReply
  split
  · exact k
  · split
    · exact consumeReply_shared hk k _ _
    · exact k
    · exact forward_shared hk (observeReply_shared hk k _ _) _ _
    · exact forward_shared hk k _ _

/-! ## Orders (R49 to R55, R96 to R101) -/

theorem recordRate_shared (n : Nat) : P (recordRate n s) := hk.frame (recordRate_changes n s) k

theorem treatRun_shared (f : Frame) : P (treatRun f s) := by
  unfold treatRun
  split
  · exact refuse_shared hk (hk.raised _ k) _ _ _
  · exact refuse_shared hk k _ _ _
  · split
    · unfold runTaken
      split
      · exact runForwarded_shared hk (recordRate_shared hk
          (hk.offered _ _ (hk.frame (reserveForVisit_changes s) k)) _)
      · exact refuse_shared hk k _ _ _
    · exact k

theorem treatRate_shared (f : Frame) : P (treatRate f s) := by
  unfold treatRate
  split
  · exact refuse_shared hk k _ _ _
  · split
    · split
      · exact recordRate_shared hk (hk.offered _ _ k) _
      · exact refuse_shared hk k _ _ _
    · exact k

theorem treatStop_shared (f : Frame) : P (treatStop f s) := by
  unfold treatStop
  split
  · exact pauseVisit_shared hk (hk.offered _ _ k) _
  · exact refuse_shared hk k _ _ _

theorem cancelSweepOn_shared (a : DriveAxis) : P (cancelSweepOn a s) := by
  unfold cancelSweepOn
  split
  · split
    · exact cancelSweep_shared hk k
    · exact k
  · exact k

theorem dismissHeldOn_shared (a : DriveAxis) (r : Reason) : P (dismissHeldOn a r s) := by
  unfold dismissHeldOn
  split
  · split
    · exact dismissHeldMove_shared hk k r
    · exact k
  · exact k

theorem holdMove_shared (h : HeldMove) : P (holdMove h s) :=
  refuse_shared hk (hk.aside (dismissHeldMove_shared hk k _)) _ _ _

theorem forwardOrder_shared (f g : Frame) {effect : State → State} (he : ∀ {u : State}, P u → P (effect u)) :
    P (forwardOrder f effect g s) := by
  unfold forwardOrder
  split
  · exact he (hk.offered _ _ k)
  · exact refuse_shared hk k _ _ _

theorem moveDrive_shared (a : DriveAxis) (f g : Frame) (n : Nat) : P (moveDrive a f g n s) := by
  unfold moveDrive
  split
  · exact forwardOrder_shared hk k _ _ fun ku => cancelSweepOn_shared hk ku _
  · split
    · exact forwardOrder_shared hk k _ _ fun ku => dismissHeldOn_shared hk (cancelSweepOn_shared hk ku _) _ _
    · split
      · exact holdMove_shared hk (cancelSweepOn_shared hk k _) _
      · exact refuse_shared hk (cancelSweepOn_shared hk k _) _ _ _

theorem treatMove_shared (f : Frame) : P (treatMove f s) := by
  unfold treatMove
  split
  · split
    · unfold moveAxis
      simp only
      split
      · exact forwardOrder_shared hk k _ _ fun ku => ku
      · exact moveDrive_shared hk k _ _ _ _
      · exact moveDrive_shared hk k _ _ _ _
    · exact refuse_shared hk k _ _ _
  · exact k

theorem treatHalt_shared (f : Frame) : P (treatHalt f s) := by
  unfold treatHalt
  split
  · split
    · refine forwardOrder_shared hk k _ _ fun ku => ?_
      unfold haltAxis
      split
      · exact dismissHeldOn_shared hk (cancelSweepOn_shared hk ku _) _ _
      · exact dismissHeldOn_shared hk (cancelSweepOn_shared hk ku _) _ _
      · exact ku
    · exact refuse_shared hk k _ _ _
  · exact k

/-! ## Requests (R142, R162 to R165, R193, R70 to R77, R19 to R22, R56) -/

theorem answerJudged_shared {α : Type} (f : Frame) (j : Except Reason α) {effect : α → State → State}
    (he : ∀ {x : α} {u : State}, P u → P (effect x u)) : P (answerJudged f j effect s) := by
  rcases answerJudged_cases f j effect s with ⟨r, -, h⟩ | ⟨x, -, h⟩ <;> rw [h]
  · exact answerRefused_shared hk k _ _
  · exact he (answerDone_shared hk k _ _)

theorem answerRequest_shared (f : Frame) (r : Option Reason) {effect : State → State}
    (he : ∀ {u : State}, P u → P (effect u)) : P (answerRequest f r effect s) := by
  unfold answerRequest
  split
  · unfold refuseRequest
    simp only
    split
    · exact hk.raised _ (answerRefused_shared hk k _ _)
    · exact answerRefused_shared hk k _ _
  · exact he (answerDone_shared hk k _ _)

theorem treatSetOptions_shared (f : Frame) : P (treatSetOptions f s) := by
  unfold treatSetOptions
  split
  · split
    · exact answerRefused_shared hk k _ _
    · split
      · exact answerRefused_shared hk k _ _
      · exact lineFaultTest_shared hk (lineFaultTest_shared hk (hk.aside (answerDone_shared hk k f [])) _) _
  · exact k

theorem openShip_shared (n : Nat) : P (openShip n s) := issue_shared hk (hk.aside k) _ _

theorem closeShip_shared : P (closeShip s) :=
  hk.aside (issue_shared hk (s := setBases (closeLineAccounts s) s) (hk.aside k) false (closeRecord s))

theorem haltPlan_shared : P (haltPlan s) := by
  have hdismissed : P (dismissHeldMove .cancelled (setPlan .suspended s)) := dismissHeldMove_shared hk (hk.aside k) _
  unfold haltPlan haltVisit
  split
  · exact hk.frame (dropVisit_changes _) hdismissed
  · exact hk.frame (dropVisit_changes _) hdismissed
  · exact takeTrigger_shared hk hdismissed _

theorem skipSlot_shared : P (skipSlot s) :=
  selectVisit_shared hk (advanceCursor_shared hk (hk.frame (dropVisit_changes s) k))

theorem treatSweep_shared (f : Frame) : P (treatSweep f s) := by
  unfold treatSweep
  split
  · split
    · exact answerJudged_shared hk k _ _ fun ku => beginStep_shared hk ku _
    · exact answerRefused_shared hk k _ _
  · exact k

theorem treatStartPlan_shared (f : Frame) : P (treatStartPlan f s) := by
  unfold treatStartPlan
  split
  · exact answerJudged_shared hk k _ _ fun ku => selectVisit_shared hk (hk.aside ku)
  · exact k

theorem treatRead_shared (f : Frame) : P (treatRead f s) := by
  unfold treatRead
  split
  · split
    · split
      · exact answerDone_shared hk k _ _
      · exact answerRefused_shared hk k _ _
    · exact answerRefused_shared hk k _ _
  · exact k

theorem treatStatus_shared (f : Frame) : P (treatStatus f s) := by
  unfold treatStatus
  split
  · split
    · exact answerDone_shared hk k _ _
    · exact answerRefused_shared hk k _ _
  · exact k

theorem treatReadRecords_shared (f : Frame) : P (treatReadRecords f s) := by
  unfold treatReadRecords
  simp only
  split
  · exact answerRefused_shared hk k _ _
  · split
    · exact answerRefused_shared hk k _ _
    · exact answerDone_shared hk k _ _

theorem treatTakeRecords_shared (f : Frame) : P (treatTakeRecords f s) := by
  unfold treatTakeRecords
  split
  · exact answerRefused_shared hk k _ _
  · exact hk.aside (answerDone_shared hk k f _)

/-! ## The alarm requests (R131, R132) -/

theorem ackAlarm_shared (i : SourceNo) (h : sound → s.ladder.qualifies i = true) : P (ackAlarm i s) :=
  reportSource_shared hk (hk.moved (.ack i s h) k) i

theorem doneAlarm_shared (i : SourceNo) (st : List SourceNo) (h : s.ladder.stack = i :: st) : P (doneAlarm i s) := by
  have hmoved : P { s with ladder := { s.ladder.put i (s.ladder.sources[i]).completed with stack := st } } :=
    hk.moved (.done i st s h) k
  have htail : (s.ladder.put i (s.ladder.sources[i]).completed).stack.tail = st := by
    simp [Ladder.put, h]
  unfold doneAlarm
  simp only [htail]
  exact reportSource_shared hk hmoved i

/-! ## LOAD (R191) -/

theorem applyStation_shared (e : Nat) (a : Option Byte) : P (applyStation e a s) := by
  unfold applyStation
  split
  next h =>
    have hplaced : P (restartSilence { s with stations := upd s.stations ⟨e, h⟩ a }) :=
      restartSilence_shared hk (hk.aside k)
    refine hk.frame (becomeReady_changes _) ?_
    simp only
    refine hk.aside (s := if s.stations[e] != a then roleChanged e (restartSilence { s with
      stations := upd s.stations ⟨e, h⟩ a }) else restartSilence { s with stations := upd s.stations ⟨e, h⟩ a }) ?_
    split
    · unfold roleChanged
      split
      · exact hk.aside hplaced
      · exact setFeeder_shared hk hplaced _
      · exact hk.frame (putAxis_changes _ _ _) hplaced
      · exact hk.frame (putAxis_changes _ _ _) hplaced
      · exact hk.frame (putAxis_changes _ _ _) hplaced
      · exact hk.aside hplaced
      · split
        · exact restartSensor_shared hk hplaced _
        · exact hplaced
    · exact hplaced
  · exact k

theorem applyScale_shared (x : ScaleTable) : P (applyScale x s) := by
  have hdrift := evalDrift_shared hk (restartSilence_shared hk
    (s := { s with meter := { s.meter with table := some x, prev := none } }) (hk.aside k))
  exact hk.frame (becomeReady_changes _) (hk.aside hdrift)

theorem applyPlan_shared (x : PlanHeader) : P (applyPlan x s) := by
  have hloaded : P { s with seq := { s.seq with header := some x } } := hk.aside k
  unfold applyPlan
  simp only
  split
  · split
    · exact hloaded
    · exact recomputeLimit_shared hk hloaded
  · exact recomputeLimit_shared hk hloaded

theorem applyDerate_shared (x : Nat × Nat) : P (applyDerate x s) := by
  unfold applyDerate
  simp only
  split
  · exact hk.aside k
  · exact recomputeLimit_shared hk (hk.aside k)

theorem loadSensor_shared (i : SensorNo) (set : Bool) (x : SensorEntry) : P (loadSensor i set x s) := by
  have hfresh : P (freshSensor i x s) :=
    restartSensor_shared hk (hk.condSet _ _ (hk.condSet _ _ (hk.condSet _ _ (setSensor_shared hk k _ _)))) i
  have hamended : P (setSensor i { s.dust.sensors[i] with entry := some x } s) := setSensor_shared hk k _ _
  unfold loadSensor
  split
  · exact hfresh
  · split
    · exact hfresh
    · split
      · exact hk.condSet _ _ (hk.condSet _ _ (setSensor_shared hk k _ _))
      · unfold amendSensor
        simp only
        split
        · exact restartSensor_shared hk hamended _
        · exact hamended

theorem applySensor_shared (l : Load) (x : SensorEntry) : P (applySensor l x s) := by
  unfold applySensor
  split
  · exact retestLatch_shared hk (loadSensor_shared hk k _ _ _) _
  · exact k

theorem applyNothing_shared (l : Load) : P (applyNothing l s) := by
  unfold applyNothing
  split
  · exact retestLatch_shared hk k _
  · exact k

theorem applyAlarm_shared (e : Nat) (x : AlarmFields) (hr : sound → x.rank ≤ 15)
    (hb : ∀ h : e < 40, (s.ladder.sources[e]).state = .inService →
      (s.ladder.sources[e]).rank = x.rank ∧ (s.ladder.sources[e]).record = x.record) : P (applyAlarm e x s) := by
  unfold applyAlarm
  split
  next h =>
    have hamended : P { s with ladder := s.ladder.put ⟨e, h⟩ ((s.ladder.sources[e]).amended x) } :=
      hk.moved (.amend ⟨e, h⟩ x s hr (hb h)) k
    simp only
    split
    · exact hamended
    · exact reportSource_shared hk hamended _
  · exact k

end

/-! ## A LOAD, as it was judged -/

theorem resetRank_le (i : Nat) : resetRank i ≤ 15 := by
  have branch {c : Prop} [Decidable c] {a b : Nat} (ha : a ≤ 15) (hb : b ≤ 15) : (if c then a else b) ≤ 15 := by
    split <;> assumption
  unfold resetRank
  repeat' apply branch
  all_goals decide

/-- The ranks that a load leaves lie in their range (R135): each is the load's, a default or the entry's own. -/
theorem buildAlarm_rank {s : State} {l : Load} {x : AlarmFields} {relation : AlarmFields → Option Reason}
    {busy : AlarmFields → Bool} (ht : l.table = .alarm) (k : ∀ i : SourceNo, (s.ladder.sources[i]).rank ≤ 15)
    (h : judgeLoad s l buildAlarm relation busy = .ok x) : x.rank ≤ 15 := by
  obtain ⟨hin, hbuild, -, -⟩ := judgeLoad_ok h
  have hrank : (l.merged s)[0]? = some (some x.rank) := by
    unfold buildAlarm at hbuild
    split at hbuild
    next hm =>
      cases hbuild
      simp [hm]
    · cases hbuild
  rw [ht] at hin
  rcases merged_get hrank with hf | hd | ⟨fs, he, hf⟩
  · have hrange := inRanges_get hin (k := 0) rfl hf
    simp only [between, decide_eq_true_eq] at hrange
    exact hrange.2
  · rw [ht] at hd
    have hdefault : resetRank l.entry = x.rank := by simpa [defaultFields] using hd
    exact hdefault ▸ resetRank_le l.entry
  · rw [ht] at he
    obtain ⟨y, hy, rfl⟩ := Option.map_eq_some_iff.1 he
    have hyx : y.rank = x.rank := by simpa [Source.fields] using hf
    unfold entryAt at hy
    split at hy
    next hlt =>
      cases hy
      rw [← hyx]
      exact k ⟨_, hlt⟩
    · cases hy

/-- A source in service keeps its rank and its record enable (R135). -/
theorem alarmBusy_false {s : State} {e : Nat} {x : AlarmFields} (h : alarmBusy s e x = false) (he : e < 40)
    (hs : (s.ladder.sources[e]).state = .inService) :
    (s.ladder.sources[e]).rank = x.rank ∧ (s.ladder.sources[e]).record = x.record := by
  unfold alarmBusy entryAt at h
  rw [dif_pos he] at h
  simp only [hs, beq_self_eq_true, Bool.true_and, Bool.or_eq_false_iff, bne_eq_false_iff_eq] at h
  exact h.1

section
variable {sound : Prop} {P : State → Prop} (hk : SharedKept sound P)
include hk

theorem LoadEffect.shared {s u : State} {l : Load} {effect : State → State} (h : LoadEffect s l effect)
    (hs : sound → ∀ i : SourceNo, (s.ladder.sources[i]).rank ≤ 15) (hu : u.ladder = s.ladder) (k : P u) : P (effect u) := by
  cases h with
  | nothing => exact applyNothing_shared hk k l
  | stations a h => exact applyStation_shared hk k _ _
  | scale x ht h => exact applyScale_shared hk k x
  | travel x => exact hk.aside k
  | envelopes x => exact hk.frame (applyEnvelope_changes _ _ _) k
  | holds x => exact hk.frame (applyHold_changes _ _ _) k
  | sequence x => exact hk.frame (applySlot_changes _ _ _) k
  | plan x => exact applyPlan_shared hk k x
  | gate w => exact hk.aside k
  | derate x => exact applyDerate_shared hk k x
  | sensor x => exact applySensor_shared hk k l x
  | alarm x ht h =>
    obtain ⟨-, -, -, hbusy⟩ := judgeLoad_ok h
    refine applyAlarm_shared hk k _ _ (fun hsound => buildAlarm_rank ht (hs hsound) h) fun he => ?_
    rw [hu]
    exact alarmBusy_false hbusy he
  | marks v => exact hk.aside k

/-- A treatment keeps a shared property; where the ladder is `sound`, its ranks lie in their range and the presented source
that an ACK_ALARM takes qualifies. -/
theorem Treatment.shared {p : PortId} {row : Instr} {treat : Frame → State → State} (h : Treatment p row treat)
    (hr : row ≠ .restart) (f : Frame) {s : State}
    (hs : sound → ∀ i : SourceNo, (s.ladder.sources[i]).rank ≤ 15)
    (ha : sound → p = .U → ∀ i r, s.ladder.presented = some (i, r) → s.ladder.qualifies i = true) (k : P s) :
    P (treat f s) := by
  cases h with
  | belt => exact treatBelt_shared hk k f
  | position => exact treatPosition_shared hk k f
  | sense => exact treatSense_shared hk k f
  | dust => exact treatDust_shared hk k f
  | feeder => exact treatFeeder_shared hk k f
  | reply => exact treatReply_shared hk k f
  | run => exact treatRun_shared hk k f
  | rate => exact treatRate_shared hk k f
  | stop => exact treatStop_shared hk k f
  | move => exact treatMove_shared hk k f
  | halt => exact treatHalt_shared hk k f
  | forwarded => exact forward_shared hk k _ f
  | dropped => exact k
  | badRequest => exact refuse_shared hk k _ f _
  | load =>
    rcases treatLoad_cases f s with ⟨r, h⟩ | ⟨l, effect, he, h⟩ <;> rw [h]
    · exact answerRefused_shared hk k f r
    · exact he.shared hk hs rfl (answerDone_shared hk k f [])
  | read => exact treatRead_shared hk k f
  | status => exact treatStatus_shared hk k f
  | setOptions => exact treatSetOptions_shared hk k f
  | openShip => exact answerRequest_shared hk k f _ fun ku => openShip_shared hk ku _
  | closeShip => exact answerRequest_shared hk k f _ fun ku => closeShip_shared hk ku
  | startPlan => exact treatStartPlan_shared hk k f
  | haltPlan => exact answerRequest_shared hk k f _ fun ku => haltPlan_shared hk ku
  | resumePlan => exact answerRequest_shared hk k f _ fun ku => selectVisit_shared hk (hk.aside ku)
  | skipSlot => exact answerRequest_shared hk k f _ fun ku => skipSlot_shared hk ku
  | zeroBelt => exact answerRequest_shared hk k f _ fun ku => hk.aside ku
  | zeroAbort => exact answerRequest_shared hk k f _ fun ku => endZero_shared hk ku _ _
  | sweep => exact treatSweep_shared hk k f
  | ackAlarm =>
    rcases treatAckAlarm_cases f s with h | ⟨r, h⟩ | ⟨i, r, hi, h⟩ <;> rw [h]
    · exact k
    · exact answerRefused_shared hk k f r
    · exact ackAlarm_shared hk (answerDone_shared hk k f []) i fun hsound => ha hsound rfl i r hi
  | doneAlarm =>
    rcases treatDoneAlarm_cases f s with h | ⟨r, h⟩ | ⟨i, st, hst, h⟩ <;> rw [h]
    · exact k
    · exact answerRefused_shared hk k f r
    · exact doneAlarm_shared hk (answerDone_shared hk k f []) i st hst
  | setAlarm =>
    rcases treatSetAlarm_cases f s with h | ⟨r, h⟩ | ⟨l, effect, he, h⟩ <;> rw [h]
    · exact k
    · exact answerRefused_shared hk k f r
    · exact he.shared hk hs rfl (answerDone_shared hk k f [])
  | readRecords => exact treatReadRecords_shared hk k f
  | takeRecords => exact treatTakeRecords_shared hk k f
  | restart => exact absurd rfl hr
  | badDestination => exact refuse_shared hk k _ f _
  | badFrame => exact refuse_shared hk k _ f _

theorem endReset_shared {s : State} (k : P s) : P (endReset s) := by
  unfold endReset
  split
  · exact hk.raised _ (hk.condSet _ _ k)
  · exact k

theorem stopAsserted_shared {s : State} (k : P s) : P (stopAsserted s) :=
  hk.raised _ (hk.condSet _ _ (takeTrigger_shared hk (cancelSweep_shared hk
    (dismissHeldMove_shared hk (s := setStopPin true s) (hk.aside k) _)) _))

theorem expiredOrder_shared (d : InjDest) (o : InjOrder) {s : State} (k : P s) : P (expiredOrder d o s) := by
  unfold expiredOrder
  split
  · exact feederOutcome_shared hk k _ _
  · split
    · split
      · exact faultSweep_shared hk k
      · exact k
    · exact k

theorem Event.shared (hreset : ∀ s, P (coldReset s)) {s t : State} (h : Event s t) (k : P s) : P t := by
  cases h with
  | receiveError p x s hr hx => exact tallyUp_shared hk (hk.receiving p x (by rw [hx]) (by rw [hx]) (by rw [hx]) k) p
  | silence t s h hd => exact setMeterFault_shared hk (hk.aside k)
  | zeroTimeout z s h hd => exact endZero_shared hk k _ _
  | sensorSilence i t s h hd => exact reformBands_shared hk (silenceSensor_shared hk (setSensor_shared hk k _ _) i)
  | replyWindow d e s h hd => exact expiredOrder_shared hk d _ (abandonOrder_shared hk k d)
  | stepTimeout w s h hd => exact faultSweep_shared hk k
  | stopAsserted s h hr => exact stopAsserted_shared hk k
  | stopCleared s h hr => exact hk.condSet _ _ (hk.aside k)
  | released s h => exact endReset_shared hk (hk.aside (hreset s))
  | poweredOn s h => exact endReset_shared hk (hreset s)

end

end Sys2Proof.Machine
end

section
/-! The queues' bounds (R173, R181), the injection queue (R182) and what is being sent, as every step keeps them. -/

set_option Elab.async false

namespace Sys2Proof.Machine

/-! ## The queues (R173, R181) -/

/-- A transmitter that begins a frame takes it from the queue. -/
theorem begin_txQueue (l : Line) (p q : PortId) :
    ((l.begin p).port q).txQueue.length ≤ (l.port q).txQueue.length := by
  cases p <;> cases q <;> simp only [Line.begin, port_U, port_D] <;> split <;> simp_all

theorem queuesBounded_iff (s : State) :
    QueuesBounded s ↔ ∀ p, (s.line.port p).rxQueue.length ≤ 8 ∧ (s.line.port p).txQueue.length ≤ 8 := by
  constructor
  · rintro ⟨hrU, htU, hrD, htD⟩ p
    cases p
    · exact ⟨hrU, htU⟩
    · exact ⟨hrD, htD⟩
  · intro h
    exact ⟨(h .U).1, (h .U).2, (h .D).1, (h .D).2⟩

theorem QueuesBounded.of_le {s t : State} (k : QueuesBounded s)
    (hr : ∀ p, (t.line.port p).rxQueue.length ≤ (s.line.port p).rxQueue.length)
    (ht : ∀ p, (t.line.port p).txQueue.length ≤ (s.line.port p).txQueue.length) : QueuesBounded t := by
  rw [queuesBounded_iff] at k ⊢
  exact fun p => ⟨(hr p).trans (k p).1, (ht p).trans (k p).2⟩

theorem begin_queuesBounded (p : PortId) {s : State} (k : QueuesBounded s) :
    QueuesBounded { s with line := s.line.begin p } :=
  k.of_le (fun q => by rw [(begin_port s.line p q).2.1]) fun q => begin_txQueue s.line p q

theorem setLinePort_queuesBounded (p : PortId) (x : Port) {s : State} (hr : x.rxQueue.length ≤ 8)
    (ht : x.txQueue.length ≤ 8) (k : QueuesBounded s) : QueuesBounded (setLinePort p x s) := by
  rw [queuesBounded_iff] at k ⊢
  intro q
  have hq := k q
  cases p <;> cases q <;> first | exact ⟨hr, ht⟩ | exact hq

theorem offer_queuesBounded (p : PortId) (f : Frame) {s : State} (k : QueuesBounded s) : QueuesBounded (offer p f s) := by
  have hp := (queuesBounded_iff s).1 k p
  unfold offer Line.offer
  split
  next hroom =>
    refine begin_queuesBounded p (s := setLinePort p { s.line.port p with txQueue := (s.line.port p).txQueue ++ [f] } s)
      (setLinePort_queuesBounded p _ hp.1 ?_ k)
    simp only [Port.room, decide_eq_true_eq] at hroom
    simp only [List.length_append, List.length_singleton]
    omega
  · exact k

theorem injectOrder_queuesBounded {d : InjDest} {o : InjOrder} {bs : List Byte} {s t : State}
    (h : injectOrder d o bs s = some t) (k : QueuesBounded s) : QueuesBounded t := by
  unfold injectOrder at h
  split at h
  · cases h
    exact begin_queuesBounded .D (s := { s with
      gate := _, line := { s.line with injection := _, injSeq := _ } }) k
  · cases h

theorem queuesBounded_shared : SharedKept False QueuesBounded where
  aside k hline _ _ := k.of_le (fun p => by rw [hline]) fun p => by rw [hline]
  offered p f _ k := offer_queuesBounded p f k
  injected h k := injectOrder_queuesBounded h k
  withdrawn _ _ k := k
  rewritten _ _ _ k := k
  receiving p x s ht _ hr k := by
    have hp := (queuesBounded_iff s).1 k p
    exact setLinePort_queuesBounded p x (hr.trans hp.1) (ht ▸ hp.2) k
  raised _ _ k := k
  condSet _ _ _ k := k
  moved h k := by cases h <;> exact k

theorem coldReset_queuesBounded (s : State) : QueuesBounded (coldReset s) := by
  simp [QueuesBounded, coldReset, State.reset, Line.reset, Port.reset]

theorem Port.enqueue_length (x : Port) (f : Frame) (h : x.rxQueue.length ≤ 8) : (x.enqueue f).rxQueue.length ≤ 8 := by
  unfold Port.enqueue
  split <;> simp <;> omega

theorem endSending_queuesBounded (p : PortId) {s : State} (k : QueuesBounded s) : QueuesBounded (endSending p s) := by
  have hp := (queuesBounded_iff s).1 k p
  unfold endSending
  split
  · exact begin_queuesBounded p (s := setLinePort p { s.line.port p with sending := none } s)
      (setLinePort_queuesBounded p _ hp.1 hp.2 k)
  · exact k

theorem Quiet.queuesBounded {s t : State} (h : Quiet s t) (k : QueuesBounded s) : QueuesBounded t := by
  have hports := (queuesBounded_iff s).1 k
  cases h with
  | receiver p rx s => exact setLinePort_queuesBounded p _ (hports p).1 (hports p).2 k
  | received p rx f s hr =>
    exact setLinePort_queuesBounded p _ (Port.enqueue_length _ f (hports p).1) (by simpa using (hports p).2) k
  | sent p s => exact endSending_queuesBounded p k
  | tick s => exact k
  | taken cs s => exact k
  | heldReset s h => exact coldReset_queuesBounded s
  | heldPower s h => exact coldReset_queuesBounded s
  | heldStop b s h => exact k

/-- A shared property, true after a cold reset and kept by the quiet changes, is kept by every step. -/
theorem step_keeps_shared {P : State → Prop} (hk : SharedKept False P) (hreset : ∀ s, P (coldReset s))
    (hq : ∀ s t, Quiet s t → P s → P t) (s t : State) (hx : step s = .next t) (h : P s) : P t := by
  refine step_keeps (fun p row treat hrow s e rest hhead k => endEvent_shared hk ?_)
    (fun s t he k => endEvent_shared hk (he.shared hk hreset k)) hq s t hx h
  have htaken := takeHead_shared hk k hhead
  by_cases hr : row = .restart
  · subst hr
    cases hrow
    rcases treatRestart_cases e.frame (takeHead .U e rest .restart s) with ⟨-, h⟩ | ⟨-, h⟩ <;> rw [h]
    · exact answerRefused_shared hk htaken _ _
    · exact endReset_shared hk (hreset _)
  · exact hrow.shared hk hr e.frame False.elim False.elim htaken

/-! ## What is being sent (R181) -/

theorem receiveByte_keeps_sending (p : PortId) (b : Byte) (s : State) : Keeps s (receiveByte p s b) := by
  unfold receiveByte
  split
  · exact Keeps.refl s
  · simp only
    split
    · exact setRecv_keeps p _ s rfl rfl
    · exact setRecv_keeps p _ s (by simp) (by simp)
    next rx _ _ _ _ =>
      exact ((setRecv_keeps p { s.line.port p with rx := rx } s rfl rfl).trans (tallyUp_keeps p _)).trans
        (endEvent_keeps _)

theorem receiveBytes_keeps_sending (p : PortId) (bytes : List Byte) (s : State) :
    Keeps s (bytes.foldl (receiveByte p) s) := by
  induction bytes generalizing s with
  | nil => exact Keeps.refl s
  | cons b bs ih => exact (receiveByte_keeps_sending p b s).trans (ih _)

theorem silenceSensor_keeps (i : SensorNo) (s : State) : Keeps s (silenceSensor i s) :=
  .frame (silenceSensor_changes i s)

theorem stopAsserted_keeps (s : State) : Keeps s (stopAsserted s) :=
  (((Keeps.frame (setStopPin_changes true s)).trans (dismissHeldMove_keeps _ _)).trans
    ((cancelSweep_keeps _).trans (takeTrigger_keeps .stopInput _))).trans .line

theorem expiredOrder_keeps (d : InjDest) (o : InjOrder) (s : State) : Keeps s (expiredOrder d o s) := by
  unfold expiredOrder
  split
  · exact feederOutcome_keeps _ _ s
  · split
    · split
      · exact faultSweep_keeps s
      · exact Keeps.refl s
    · exact Keeps.refl s

/-- Every command but the end of a sending and the resets keeps what is being sent and queued. -/
theorem exec_keeps_sending (c : Instr) (s t : State) (hx : exec c s = .next t)
    (hc : (∀ p, c ≠ .transmitEnd p) ∧ c ≠ .restart ∧ c ≠ .resetAsserted ∧ c ≠ .resetReleased ∧ c ≠ .powerOn) :
    Keeps s t := by
  obtain ⟨hsent, hrestart, hasserted, hreleased, hpower⟩ := hc
  have take {p : PortId} {treat : Frame → State → State} (h : Treatment p c treat) : Keeps s t := by
    rw [h.exec_eq s] at hx
    cases hx
    unfold takeFrame
    split
    · exact Keeps.refl s
    · split
      · exact ((takeHead_keeps p _ _ c s).trans (h.keeps hrestart _ _)).trans (endEvent_keeps _)
      · exact Keeps.refl s
  cases c
  case receiveFrame p bytes => cases hx; exact receiveBytes_keeps_sending p bytes s
  case transmitEnd p => exact absurd rfl (hsent p)
  case resetAsserted => exact absurd rfl hasserted
  case resetReleased => exact absurd rfl hreleased
  case powerOn => exact absurd rfl hpower
  case restart => exact absurd rfl hrestart
  case scaleSilenceExpiry =>
    cases hx
    split
    · split
      · exact (Keeps.trans (t := { s with meter := _ }) .line (setMeterFault_keeps _)).trans (endEvent_keeps _)
      · exact Keeps.refl s
    · exact Keeps.refl s
  case zeroTimeout =>
    cases hx
    split
    · split
      · exact (endZero_keeps _ _ s).trans (endEvent_keeps _)
      · exact Keeps.refl s
    · exact Keeps.refl s
  case sensorSilenceExpiry i =>
    cases hx
    split
    · split
      · exact (((Keeps.frame (setSensor_changes i _ s)).trans (silenceSensor_keeps i _)).trans
          (reformBands_keeps _)).trans (endEvent_keeps _)
      · exact Keeps.refl s
    · exact Keeps.refl s
  case replyWindowExpiry d =>
    cases hx
    split
    · split
      · exact ((abandonOrder_keeps d s).trans (expiredOrder_keeps d _ _)).trans (endEvent_keeps _)
      · exact Keeps.refl s
    · exact Keeps.refl s
  case stepTimeout =>
    cases hx
    split
    · split
      · exact (faultSweep_keeps s).trans (endEvent_keeps _)
      · exact Keeps.refl s
    · exact Keeps.refl s
  case stopInputAsserted =>
    cases hx
    split
    · exact Keeps.refl s
    · split
      · exact .frame (setStopPin_changes true s)
      · exact (stopAsserted_keeps s).trans (endEvent_keeps _)
  case stopInputCleared =>
    cases hx
    split
    · exact Keeps.refl s
    · split
      · exact .frame (setStopPin_changes false s)
      · exact ((Keeps.frame (setStopPin_changes false s)).trans (setCond_keeps _ _ _)).trans (endEvent_keeps _)
  all_goals exact take (by constructor)

/-! ## The injection queue (R182) -/

/-- At most one frame for each destination: with three destinations, within the queue's four places. -/
theorem injectionSound_iff (s : State) : InjectionSound s ↔ (s.line.injection.map (·.dest)).Nodup := by
  refine ⟨fun h => h.2, fun h => ⟨?_, h⟩⟩
  have hsub : s.line.injection.map (·.dest) ⊆ [.feeder, .drive .gantry, .drive .shuttle] := by
    intro d _
    cases d with
    | feeder => simp
    | drive a => cases a <;> simp
  have hlength := (h.subperm hsub).length_le
  simp only [List.length_map, List.length_cons, List.length_nil] at hlength
  omega

theorem begin_injection (l : Line) (p : PortId) : (l.begin p).injection.Sublist l.injection := by
  cases p <;> simp only [Line.begin] <;> split <;> simp_all

theorem InjectionSound.of_sublist {s t : State} (k : InjectionSound s)
    (h : t.line.injection.Sublist s.line.injection) : InjectionSound t := by
  rw [injectionSound_iff] at k ⊢
  exact k.sublist (h.map _)

theorem offer_injectionSound (p : PortId) (f : Frame) {s : State} (k : InjectionSound s) :
    InjectionSound (offer p f s) := by
  refine k.of_sublist ?_
  unfold offer Line.offer
  split
  · refine (begin_injection _ p).trans ?_
    cases p <;> exact List.Sublist.refl _
  · exact List.Sublist.refl _

theorem injectOrder_injectionSound {d : InjDest} {o : InjOrder} {bs : List Byte} {s t : State}
    (h : injectOrder d o bs s = some t) (k : InjectionSound s) : InjectionSound t := by
  unfold injectOrder at h
  split at h
  · cases h
    rw [injectionSound_iff] at k ⊢
    refine List.Nodup.sublist ((begin_injection _ .D).map _) ?_
    rw [List.map_append, List.nodup_append']
    refine ⟨k.sublist (List.filter_sublist.map _), by simp, ?_⟩
    simp [Line.without]
  · cases h

theorem rewrite_injection_dests (l : Line) (d : InjDest) (bs : List Byte) :
    (l.rewrite d bs).injection.map (·.dest) = l.injection.map (·.dest) := by
  unfold Line.rewrite
  simp only [List.map_map]
  refine List.map_congr_left fun x _ => ?_
  simp only [Function.comp]
  split <;> rfl

theorem injectionSound_shared : SharedKept False InjectionSound where
  aside k hline _ _ := k.of_sublist (by rw [hline])
  offered p f _ k := offer_injectionSound p f k
  injected h k := injectOrder_injectionSound h k
  withdrawn _ _ k := k.of_sublist List.filter_sublist
  rewritten d bs s k := by
    rw [injectionSound_iff] at k ⊢
    exact (rewrite_injection_dests s.line d bs).symm ▸ k
  receiving p x s _ _ _ k := k.of_sublist (by cases p <;> exact List.Sublist.refl _)
  raised _ _ k := k
  condSet _ _ _ k := k
  moved h k := by cases h <;> exact k

theorem coldReset_injectionSound (s : State) : InjectionSound (coldReset s) := by
  simp [InjectionSound, coldReset, State.reset, Line.reset]

theorem Quiet.injectionSound {s t : State} (h : Quiet s t) (k : InjectionSound s) : InjectionSound t := by
  cases h with
  | receiver p rx s => exact k.of_sublist (by cases p <;> exact List.Sublist.refl _)
  | received p rx f s hr => exact k.of_sublist (by cases p <;> exact List.Sublist.refl _)
  | sent p s =>
    refine k.of_sublist ?_
    unfold endSending
    split
    · refine (begin_injection _ p).trans ?_
      cases p <;> exact List.Sublist.refl _
    · exact List.Sublist.refl _
  | tick s => exact k
  | taken cs s => exact k
  | heldReset s h => exact coldReset_injectionSound s
  | heldPower s h => exact coldReset_injectionSound s
  | heldStop b s h => exact k

end Sys2Proof.Machine

open Sys2Proof Sys2Proof.Machine

/-- Settles O10. Every operation keeps the bounds from its primitive changes (`queuesBounded_shared`), and what is sent
keeps its order command by command. -/
theorem queuesStayBounded : Obligations.QueuesStayBounded := by
  intro s t k hx
  refine ⟨step_keeps_shared queuesBounded_shared coldReset_queuesBounded (fun _ _ h => h.queuesBounded) s t hx k,
    fun hc => ?_⟩
  unfold step at hx
  split at hx
  next c rest hp =>
    have hkeeps := exec_keeps_sending c { s with pending := rest } t hx (hc c (by rw [hp]; rfl))
    exact ((Keeps.line (s := s) (t := { s with pending := rest })).trans hkeeps).1
  · cases hx
    exact (Keeps.frame (tick_changes s)).1

/-- Settles O14. Three destinations, at most one frame for each: an injected frame replaces its destination's. -/
theorem injectionStaysSound : Obligations.InjectionStaysSound := fun s t k hx =>
  step_keeps_shared injectionSound_shared coldReset_injectionSound (fun _ _ h => h.injectionSound) s t hx k

end

section
/-! The Alarm Ladder (R126 to R136), as every step keeps it. -/

set_option Elab.async false

namespace Sys2Proof.Machine

/-! ## The stack and the source table -/

/-- The clauses of `LadderSound` that speak of the source table and the stack alone. -/
def StackSound (l : Ladder) : Prop :=
  (∀ i : SourceNo, (l.sources[i]).rank ≤ 15)
    ∧ (l.stack.map fun i => (l.sources[i]).rank).Pairwise (· > ·)
    ∧ (∀ i : SourceNo, i ∈ l.stack ↔ (l.sources[i]).state = .inService)
    ∧ ∀ i : SourceNo, (l.sources[i]).record = false → (l.sources[i]).state = .idle

theorem ladderSound_iff (l : Ladder) : LadderSound l ↔ StackSound l
    ∧ (∀ i r, l.presented = some (i, r) → l.qualifies i = true ∧ (l.sources[i]).rank = r)
    ∧ l.presented = l.toPresent ∧ l.horn = l.presented.isSome := by
  simp only [LadderSound, StackSound, and_assoc]

theorem StackSound.congr {l m : Ladder} (hs : m.sources = l.sources) (ht : m.stack = l.stack) (k : StackSound l) :
    StackSound m := by
  unfold StackSound at *
  rw [hs, ht]
  exact k

theorem put_get (l : Ladder) (i j : SourceNo) (x : Source) :
    ((l.put i x).sources[j]) = if i = j then x else l.sources[j] := upd_get_ite l.sources i j x

/-- A source changed in place, neither into service nor out of it. -/
theorem StackSound.put {l : Ladder} (k : StackSound l) (i : SourceNo) (x : Source) (hbound : x.rank ≤ 15)
    (hrank : i ∈ l.stack → x.rank = (l.sources[i]).rank) (hservice : x.state = .inService ↔ i ∈ l.stack)
    (hidle : x.record = false → x.state = .idle) : StackSound (l.put i x) := by
  obtain ⟨hranks, hrising, hstack, hrecord⟩ := k
  refine ⟨fun j => ?_, ?_, fun j => ?_, fun j => ?_⟩
  · rw [put_get]
    split
    · exact hbound
    · exact hranks j
  · have hsame : (l.put i x).stack.map (fun j => ((l.put i x).sources[j]).rank)
        = l.stack.map fun j => (l.sources[j]).rank := by
      refine List.map_congr_left fun j hj => ?_
      rw [put_get]
      split
      next hij => exact hij ▸ hrank (hij ▸ hj)
      · rfl
    rw [hsame]
    exact hrising
  · rw [put_get]
    split
    next hij => exact hij ▸ hservice.symm
    · exact hstack j
  · rw [put_get]
    split
    · exact hidle
    · exact hrecord j

theorem raised_inService (x : Source) : x.raised.state = .inService ↔ x.state = .inService := by
  unfold Source.raised
  split
  · cases h : x.state <;> simp [h]
  · rfl

theorem raised_idle (x : Source) (h : x.record = false) : x.raised = x := by simp [Source.raised, h]

theorem withCond_inService (x : Source) (b : Bool) : (x.withCond b).state = .inService ↔ x.state = .inService := by
  unfold Source.withCond
  split
  next h =>
    simp only [Bool.and_eq_true, beq_iff_eq] at h
    simp [h.2]
  · rfl

theorem withCond_idle (x : Source) (b : Bool) (h : x.state = .idle) : (x.withCond b).state = .idle := by
  simp [Source.withCond, h]

theorem StackSound.raise {s : State} (i : SourceNo) (k : StackSound s.ladder) : StackSound (raise i s).ladder := by
  obtain ⟨hrank, hrecord, -⟩ := raised_kept (s.ladder.sources[i])
  refine k.put i _ (hrank ▸ k.1 i) (fun _ => hrank) ((raised_inService _).trans (k.2.2.1 i).symm) fun h => ?_
  have hoff := hrecord.symm.trans h
  rw [raised_idle _ hoff]
  exact k.2.2.2 i hoff

theorem StackSound.setCond {s : State} (i : SourceNo) (b : Bool) (k : StackSound s.ladder) :
    StackSound (setCond i b s).ladder := by
  obtain ⟨hrank, hrecord, -⟩ := withCond_kept (s.ladder.sources[i]) b
  refine k.put i _ (hrank ▸ k.1 i) (fun _ => hrank) ((withCond_inService _ b).trans (k.2.2.1 i).symm) fun h => ?_
  exact withCond_idle _ b (k.2.2.2 i (hrecord.symm.trans h))

theorem qualifies_iff (l : Ladder) (i : SourceNo) : l.qualifies i = true ↔ (l.sources[i]).state = .pending
    ∧ (l.sources[i]).present = true ∧ ∀ t ∈ l.stack.head?, (l.sources[t]).rank < (l.sources[i]).rank := by
  unfold Ladder.qualifies
  cases l.stack <;> simp [and_assoc]

/-- What qualifies ranks above the whole stack. -/
theorem StackSound.above {l : Ladder} (k : StackSound l) {i : SourceNo} (h : l.qualifies i = true) :
    ∀ j ∈ l.stack, (l.sources[j]).rank < (l.sources[i]).rank := by
  obtain ⟨-, hrising, -, -⟩ := k
  obtain ⟨-, -, htop⟩ := (qualifies_iff l i).1 h
  cases hs : l.stack with
  | nil => simp
  | cons t st =>
    rw [hs, List.map_cons, List.pairwise_cons] at hrising
    have ht : (l.sources[t]).rank < (l.sources[i]).rank := htop t (by simp [hs])
    intro j hj
    rcases List.mem_cons.1 hj with rfl | hj
    · exact ht
    · exact (hrising.1 _ (List.mem_map_of_mem hj)).trans ht

theorem StackSound.ack {l : Ladder} (k : StackSound l) {i : SourceNo} (h : l.qualifies i = true) :
    StackSound { l.put i { l.sources[i] with state := .inService } with stack := i :: l.stack } := by
  have habove := k.above h
  obtain ⟨hranks, hrising, hstack, hrecord⟩ := k
  obtain ⟨hpending, -, -⟩ := (qualifies_iff l i).1 h
  have hrank (j : SourceNo) : ((l.put i { l.sources[i] with state := .inService }).sources[j]).rank
      = (l.sources[j]).rank := by
    rw [put_get]
    split
    next hij => rw [← hij]
    · rfl
  refine ⟨fun j => (hrank j).trans_le (hranks j), ?_, fun j => ?_, fun j hj => ?_⟩
  · simp only [hrank, List.map_cons, List.pairwise_cons]
    exact ⟨by simpa using habove, hrising⟩
  · change j ∈ i :: l.stack ↔ ((l.put i _).sources[j]).state = .inService
    rw [put_get]
    split
    next hij => simp [hij]
    next hij => exact (List.mem_cons.trans (or_iff_right (Ne.symm hij))).trans (hstack j)
  · change ((l.put i _).sources[j]).state = .idle
    change ((l.put i _).sources[j]).record = false at hj
    rw [put_get] at hj ⊢
    split at hj
    next hij =>
      have hidle := hrecord i hj
      rw [hpending] at hidle
      cases hidle
    next hij =>
      rw [if_neg hij]
      exact hrecord j hj

theorem StackSound.done {l : Ladder} (k : StackSound l) {i : SourceNo} {st : List SourceNo} (h : l.stack = i :: st) :
    StackSound { l.put i (l.sources[i]).completed with stack := st } := by
  obtain ⟨hranks, hrising, hstack, hrecord⟩ := k
  rw [h, List.map_cons, List.pairwise_cons] at hrising
  obtain ⟨htop, hrest⟩ := hrising
  have hout : i ∉ st := fun hi => lt_irrefl _ (htop _ (List.mem_map_of_mem hi))
  have hrank (j : SourceNo) : ((l.put i (l.sources[i]).completed).sources[j]).rank = (l.sources[j]).rank := by
    rw [put_get]
    split
    next hij => rw [← hij]; rfl
    · rfl
  refine ⟨fun j => (hrank j).trans_le (hranks j), ?_, fun j => ?_, fun j hj => ?_⟩
  · simpa only [hrank] using hrest
  · change j ∈ st ↔ ((l.put i _).sources[j]).state = .inService
    rw [put_get]
    split
    next hij =>
      subst hij
      simp only [hout, false_iff, Source.completed]
      split <;> simp
    next hij =>
      have hcons := hstack j
      rw [h] at hcons
      exact (List.mem_cons.trans (or_iff_right (Ne.symm hij))).symm.trans hcons
  · change ((l.put i _).sources[j]).state = .idle
    change ((l.put i _).sources[j]).record = false at hj
    rw [put_get] at hj ⊢
    split at hj
    next hij =>
      have hidle := hrecord i hj
      rw [(hstack i).1 (by simp [h])] at hidle
      cases hidle
    next hij =>
      rw [if_neg hij]
      exact hrecord j hj

theorem amended_inService (y : Source) (x : AlarmFields) : (y.amended x).state = .inService ↔ y.state = .inService := by
  unfold Source.amended
  cases y.state <;> cases x.record <;> simp

/-- Record enable off leaves only a source in service standing (R136). -/
theorem amended_idle (y : Source) (x : AlarmFields) (hx : x.record = false) (hy : y.state ≠ .inService) :
    (y.amended x).state = .idle := by
  unfold Source.amended
  cases h : y.state <;> simp_all

theorem StackSound.amend {l : Ladder} (k : StackSound l) (i : SourceNo) (x : AlarmFields) (hr : x.rank ≤ 15)
    (hb : (l.sources[i]).state = .inService → (l.sources[i]).rank = x.rank ∧ (l.sources[i]).record = x.record) :
    StackSound (l.put i ((l.sources[i]).amended x)) := by
  refine k.put i _ hr (fun hi => (hb ((k.2.2.1 i).1 hi)).1.symm) ((amended_inService _ x).trans (k.2.2.1 i).symm)
    fun hx => amended_idle _ x hx fun hs => ?_
  have hidle := k.2.2.2 i ((hb hs).2.trans hx)
  rw [hs] at hidle
  cases hidle

/-! ## The presented source (R129, R130) -/

/-- What is found to be presented qualifies, at its own rank. -/
theorem toPresent_qualifies (l : Ladder) (i : SourceNo) (r : Nat) (h : l.toPresent = some (i, r)) :
    l.qualifies i = true ∧ (l.sources[i]).rank = r := by
  have best (is : List SourceNo) (b : Option (SourceNo × Nat))
      (hb : ∀ i r, b = some (i, r) → l.qualifies i = true ∧ (l.sources[i]).rank = r) :
      ∀ i r, is.foldl l.better b = some (i, r) → l.qualifies i = true ∧ (l.sources[i]).rank = r := by
    induction is generalizing b with
    | nil => exact hb
    | cons j is ih =>
      refine ih _ fun i r h => ?_
      unfold Ladder.better at h
      split at h
      next hq =>
        split at h
        · cases h
          exact ⟨hq, rfl⟩
        · split at h
          · cases h
            exact ⟨hq, rfl⟩
          · exact hb i r h
      · exact hb i r h
  exact best _ none (fun _ _ h => by cases h) i r h

theorem endEvent_ladder (s : State) :
    (endEvent s).ladder = { s.ladder with presented := s.ladder.toPresent, horn := s.ladder.toPresent.isSome } := by
  unfold endEvent
  simp only
  split <;> rfl

/-- The end of an event presents what R129 names. -/
theorem endEvent_ladderSound {s : State} (k : StackSound s.ladder) : LadderSound (endEvent s).ladder := by
  rw [endEvent_ladder, ladderSound_iff]
  exact ⟨k.congr rfl rfl, fun i r h => toPresent_qualifies s.ladder i r h, rfl, rfl⟩

/-! ## What stays presentable as a frame is taken -/

theorem qualifies_put {l : Ladder} {i j : SourceNo} {x : Source} (hrank : x.rank = (l.sources[i]).rank)
    (hpresent : x.present = (l.sources[i]).present) (hpending : (l.sources[i]).state = .pending → x.state = .pending)
    (h : l.qualifies j = true) : (l.put i x).qualifies j = true := by
  have hranks (m : SourceNo) : ((l.put i x).sources[m]).rank = (l.sources[m]).rank := by
    rw [put_get]
    split
    next him => exact him ▸ hrank
    · rfl
  rw [qualifies_iff] at h ⊢
  obtain ⟨hj, hjp, htop⟩ := h
  refine ⟨?_, ?_, fun t ht => ?_⟩
  · rw [put_get]
    split
    next hij => exact hpending (hij ▸ hj)
    · exact hj
  · rw [put_get]
    split
    next hij => exact hpresent.trans (hij ▸ hjp)
    · exact hjp
  · rw [hranks, hranks]
    exact htop t ht

theorem raised_pending (x : Source) (h : x.state = .pending) : x.raised.state = .pending := by
  unfold Source.raised
  split <;> simp [h]

theorem withCond_pending (x : Source) (b : Bool) (h : x.state = .pending) : (x.withCond b).state = .pending := by
  simp [Source.withCond, h]

theorem raise_qualifies {s : State} (i j : SourceNo) (h : s.ladder.qualifies j = true) :
    (raise i s).ladder.qualifies j = true := by
  obtain ⟨hrank, -, hpresent, -⟩ := raised_kept (s.ladder.sources[i])
  exact qualifies_put hrank hpresent (raised_pending _) h

theorem setCond_qualifies {s : State} (i j : SourceNo) (b : Bool) (h : s.ladder.qualifies j = true) :
    (setCond i b s).ladder.qualifies j = true := by
  obtain ⟨hrank, -, hpresent, -⟩ := withCond_kept (s.ladder.sources[i]) b
  exact qualifies_put hrank hpresent (withCond_pending _ b) h

theorem takeHead_U_qualifies (e : RxEntry) (rest : List RxEntry) (row : Instr) {s : State} (j : SourceNo)
    (h : s.ladder.qualifies j = true) : (takeHead .U e rest row s).ladder.qualifies j = true := by
  have up (u : State) (hu : u.ladder.qualifies j = true) : (tallyUp .U u).ladder.qualifies j = true := by
    unfold tallyUp lineFaultTest
    split
    · exact raise_qualifies _ j (setCond_qualifies _ j true hu)
    · exact hu
  have down (u : State) (hu : u.ladder.qualifies j = true) : (tallyDown .U u).ladder.qualifies j = true := by
    unfold tallyDown
    simp only
    split
    · exact setCond_qualifies _ j false hu
    · exact hu
  unfold takeHead takingStep
  split
  · exact up _ h
  · exact up _ h
  · exact down _ h

/-! ## Every step -/

theorem stackSound_shared : SharedKept True (fun s => StackSound s.ladder) where
  aside k _ hs ht := k.congr hs ht
  offered _ _ _ k := k
  injected h k := by
    unfold injectOrder at h
    split at h
    · cases h
      exact k
    · cases h
  withdrawn _ _ k := k
  rewritten _ _ _ k := k
  receiving _ _ _ _ _ _ k := k
  raised i _ k := k.raise i
  condSet i b _ k := k.setCond i b
  moved h k := by
    cases h with
    | ack i s h => exact k.ack (h trivial)
    | done i st s h => exact k.done h
    | amend i x s hr hb => exact k.amend i x (hr trivial) hb

theorem resetLadder_stackSound : StackSound Ladder.reset := by
  refine ⟨fun i => ?_, by simp [Ladder.reset], fun i => ?_, fun i => ?_⟩ <;>
    simp [Ladder.reset, Source.reset, resetRank_le]

theorem resetLadder_sound : LadderSound Ladder.reset := by
  rw [ladderSound_iff]
  refine ⟨resetLadder_stackSound, by simp [Ladder.reset], ?_, rfl⟩
  cases h : Ladder.reset.toPresent with
  | none => rfl
  | some x =>
    obtain ⟨hq, -⟩ := toPresent_qualifies Ladder.reset x.1 x.2 h
    rw [qualifies_iff] at hq
    simp [Ladder.reset, Source.reset] at hq

theorem Quiet.ladder {s t : State} (h : Quiet s t) (k : LadderSound s.ladder) : LadderSound t.ladder := by
  cases h with
  | sent p s =>
    unfold endSending
    split
    · exact k
    · exact k
  | heldReset s h => exact resetLadder_sound
  | heldPower s h => exact resetLadder_sound
  | _ => exact k

end Sys2Proof.Machine

open Sys2Proof Sys2Proof.Machine

/-- Settles O13. Every event keeps the stack and the source table sound (`stackSound_shared`), and its end presents what
R129 names; an ACK_ALARM puts on the stack what qualified as the frame came. -/
theorem ladderStaysSound : Obligations.LadderStaysSound := fun s t k hx =>
  step_keeps (P := fun s => LadderSound s.ladder)
    (fun p row treat hrow s e rest hhead k => by
      obtain ⟨hstack, hpresented, -, -⟩ := (ladderSound_iff _).1 k
      have htaken := takeHead_shared stackSound_shared hstack hhead
      refine endEvent_ladderSound ?_
      by_cases hr : row = .restart
      · subst hr
        cases hrow
        rcases treatRestart_cases e.frame (takeHead .U e rest .restart s) with ⟨-, h⟩ | ⟨-, h⟩ <;> rw [h]
        · exact htaken
        · exact endReset_shared stackSound_shared (P := fun s => StackSound s.ladder) resetLadder_stackSound
      · refine hrow.shared stackSound_shared hr e.frame (fun _ => htaken.1) (fun _ hU i r hi => ?_) htaken
        subst hU
        have hkept := ((takeHead_U e rest row s).same .present).1
        exact takeHead_U_qualifies e rest row i (hpresented i r (hkept ▸ hi)).1)
    (fun s t he k => endEvent_ladderSound
      (he.shared stackSound_shared (fun _ => resetLadder_stackSound) ((ladderSound_iff _).1 k).1))
    (fun _ _ hq k => hq.ladder k) s t hx k

end

section
/-! The Bill Store (R140 to R142): the walk over what opens, reserves for, pours into and completes a visit, and over the
ZERO operation. -/

set_option Elab.async false

namespace Sys2Proof.Machine

/-! ## The store's clauses, by whether a visit is open -/

/-- The held records carry consecutive numbers up to the next sequence number (R141). -/
def InSequence (b : BillStore) : Prop :=
  ∀ i, (h : i < b.records.length) → (b.records[i]).seq + BitVec.ofNat 32 (b.records.length - i) = b.nextSeq

/-- The reservation of a running ZERO operation (R142). -/
def zeroPlaces (s : State) : Nat := if s.meter.zero.isSome then 1 else 0

theorem billsSound_none {s : State} (h : s.seq.visit = none) : BillsSound s ↔
    s.bills.records.length + s.bills.reserved ≤ 256 ∧ s.bills.reserved = zeroPlaces s ∧ InSequence s.bills := by
  simp [BillsSound, reservationsHeld, visitReserved, State.visitPours, h, InSequence, zeroPlaces]

theorem billsSound_some {s : State} {v : Visit} (h : s.seq.visit = some v) : BillsSound s ↔
    s.bills.records.length + s.bills.reserved ≤ 256
      ∧ s.bills.reserved = (if v.reserved then 1 else 0) + zeroPlaces s ∧ v.reserved = v.state.pours
      ∧ (s.seq.plan = .active ∨ s.seq.plan = .suspended) ∧ InSequence s.bills := by
  simp [BillsSound, reservationsHeld, visitReserved, State.visitPours, h, InSequence, zeroPlaces]

theorem InSequence.snoc {b c : BillStore} (k : InSequence b) {x : RecordBody}
    (hr : c.records = b.records ++ [⟨b.nextSeq, x⟩]) (hs : c.nextSeq = b.nextSeq + 1) : InSequence c := by
  intro i h
  simp only [hr, hs, List.length_append, List.length_singleton] at h ⊢
  by_cases hi : i < b.records.length
  · rw [List.getElem_append_left hi, ← k i hi, show b.records.length + 1 - i = b.records.length - i + 1 by omega,
      BitVec.ofNat_add, ← BitVec.add_assoc]
    rfl
  · obtain rfl : i = b.records.length := by omega
    simp

theorem InSequence.drop {b c : BillStore} (k : InSequence b) (n : Nat) (hr : c.records = b.records.drop n)
    (hs : c.nextSeq = b.nextSeq) : InSequence c := by
  intro i h
  simp only [hr, List.length_drop, List.getElem_drop, hs] at h ⊢
  rw [← k (n + i) (by omega), show b.records.length - n - i = b.records.length - (n + i) by omega]

/-- What the store's clauses read. -/
theorem BillsSound.aside {s t : State} (k : BillsSound s) (hv : t.seq.visit = s.seq.visit := by rfl)
    (hp : t.seq.plan = s.seq.plan := by rfl) (hz : t.meter.zero.isSome = s.meter.zero.isSome := by rfl)
    (hr : t.bills.records = s.bills.records := by rfl) (hs : t.bills.nextSeq = s.bills.nextSeq := by rfl)
    (hn : t.bills.reserved = s.bills.reserved := by rfl) : BillsSound t := by
  unfold BillsSound reservationsHeld visitReserved State.visitPours at *
  simp only [hv, hp, hz, hs, hn, hr]
  exact k

/-- The blocks that the store's clauses rest on. -/
def billBlocks : List Block := [.visit, .plan, .zero, .records, .reserved]

theorem BillsSound.frame {xs : List Block} {s t : State} (h : OnlyChanges xs s t) (k : BillsSound s)
    (hx : ∀ b ∈ billBlocks, b ∉ xs := by decide) : BillsSound t := by
  obtain ⟨hvisit, ⟨hplan, -⟩, hzero, ⟨hrecords, hseq⟩, hreserved⟩ :
      Same .visit s t ∧ Same .plan s t ∧ Same .zero s t ∧ Same .records s t ∧ Same .reserved s t := by
    have hsame (b : Block) (hb : b ∈ billBlocks) : Same b s t := h.same b (hx b hb)
    simpa [billBlocks] using hsame
  exact k.aside hvisit hplan (by rw [show t.meter.zero = s.meter.zero from hzero]) hrecords hseq hreserved

/-- A change of the open visit that keeps its reservation with its pour state (R81). -/
theorem BillsSound.revise {s : State} {v w : Visit} (k : BillsSound s) (h : s.seq.visit = some v)
    (hr : w.reserved = v.reserved) (hs : w.state.pours = v.state.pours) : BillsSound (setVisit (some w) s) := by
  rw [billsSound_some h] at k
  rw [billsSound_some (v := w) rfl, hr, hs]
  exact k

theorem BillsSound.mapVisit {s : State} {f : Visit → Visit} (k : BillsSound s)
    (hf : ∀ v, s.seq.visit = some v → (f v).reserved = v.reserved ∧ (f v).state.pours = v.state.pours) :
    BillsSound (mapVisit f s) := by
  unfold Machine.mapVisit
  cases h : s.seq.visit with
  | none => exact k.aside h.symm
  | some v => exact k.revise h (hf v h).1 (hf v h).2

theorem visitState_eq {s : State} {st : VisitState} (h : s.visitState = some st) :
    ∃ v, s.seq.visit = some v ∧ v.state = st := Option.map_eq_some_iff.1 h

/-! ## Records (R141, R142, R144) -/

/-- A record issued at a free place. -/
theorem issue_billsSound (x : RecordBody) {s : State} (hfree : s.bills.free ≠ 0) (k : BillsSound s) :
    BillsSound (issue false x s) := by
  obtain ⟨hrecords, hseq, hreserved, -⟩ := issue_spec false x s
  obtain ⟨hkept, -, -, -, -, -, -, hmeter, -⟩ := issue_kept false x s
  obtain ⟨hbound, hheld, hpours, hplan, hnumbers⟩ := k
  have hvisit : visitReserved (issue false x s) = visitReserved s := by simp only [visitReserved, hkept]
  have hstate : (issue false x s).visitPours = s.visitPours := by simp only [State.visitPours, hkept]
  have hplaces : reservationsHeld (issue false x s) = reservationsHeld s := by
    simp only [reservationsHeld, hvisit, hmeter]
  have hkeep : (issue false x s).bills.reserved = s.bills.reserved := hreserved
  refine ⟨?_, (hkeep.trans hheld).trans hplaces.symm, (hvisit.trans hpours).trans hstate.symm, by rwa [hkept],
    InSequence.snoc hnumbers hrecords hseq⟩
  rw [hrecords, hkeep, List.length_append, List.length_singleton]
  unfold BillStore.free at hfree
  omega

/-- The end of a ZERO operation gives its reservation to its record (R23). -/
theorem endZero_billsSound (o : ZeroOutcome) (n : Int) {s : State} (k : BillsSound s) :
    BillsSound (endZero o n s) := by
  cases hz : s.meter.zero with
  | none =>
    rw [endZero, hz]
    exact k
  | some z =>
    have hzero : endZero o n s = notice (4 :: o.code :: beBytes 4 s.bills.nextSeq.toNat)
        { issue true (.zero z.oldOffset n o z.travel) s with
          meter := { (issue true (.zero z.oldOffset n o z.travel) s).meter with zero := none } } := by
      simp only [endZero, hz]
    rw [hzero]
    refine BillsSound.frame (notice_changes _ _) ?_
    set body := RecordBody.zero z.oldOffset n o z.travel
    obtain ⟨hrecords, hseq, hreserved, -⟩ := issue_spec true body s
    obtain ⟨hkept, -⟩ := issue_kept true body s
    obtain ⟨hbound, hheld, hpours, hplan, hnumbers⟩ := k
    have hvisit : visitReserved (issue true body s) = visitReserved s := by simp only [visitReserved, hkept]
    have hstate : (issue true body s).visitPours = s.visitPours := by simp only [State.visitPours, hkept]
    have hgiven : (issue true body s).bills.reserved = s.bills.reserved - 1 := hreserved
    have hcount : s.bills.reserved = (if visitReserved s then 1 else 0) + 1 := by
      rw [hheld, reservationsHeld, hz]
      rfl
    refine ⟨?_, ?_, (hvisit.trans hpours).trans hstate.symm, by rwa [hkept], InSequence.snoc hnumbers hrecords hseq⟩
    · change (issue true body s).bills.records.length + (issue true body s).bills.reserved ≤ 256
      rw [hrecords, hgiven, List.length_append, List.length_singleton]
      omega
    · change (issue true body s).bills.reserved = (if visitReserved (issue true body s) then 1 else 0) + 0
      rw [hgiven, hvisit]
      omega

/-! ## Selection and completion (R71 to R74, R87) -/

theorem finishPlan_billsSound (r : FinishReason) (m : Bool) {s : State} (h : s.seq.visit = none) (k : BillsSound s) :
    BillsSound (finishPlan r m s) := by
  have hfinished : BillsSound { s with seq := { s.seq with plan := .finished, finish := some r } } := by
    rw [billsSound_none h] at k
    exact (billsSound_none (by exact h)).2 k
  unfold finishPlan
  refine BillsSound.frame (notice_changes _ _) ?_
  split
  · exact hfinished.frame (raise_changes _ _)
  · exact hfinished

theorem openVisit_billsSound (i : Fin 16) (sl : Slot) {s : State} (h : s.seq.visit = none) (hp : s.seq.plan = .active)
    (k : BillsSound s) : BillsSound (openVisit i sl s) := by
  refine BillsSound.frame (notice_changes _ (setVisit (some (newVisit s i sl)) s)) ?_
  rw [billsSound_none h] at k
  obtain ⟨hbound, hheld, hnumbers⟩ := k
  rw [billsSound_some (v := newVisit s i sl) rfl]
  have hpours : (newVisit s i sl).state.pours = false := by
    unfold newVisit
    simp only
    split <;> rfl
  exact ⟨hbound, by simpa [newVisit, zeroPlaces] using hheld, hpours.symm, .inl hp, hnumbers⟩

theorem advanceCursor_plan (s : State) : (advanceCursor s).seq.visit = s.seq.visit
    ∧ (advanceCursor s).seq.plan = s.seq.plan ∧ (advanceCursor s).meter = s.meter
    ∧ (advanceCursor s).bills = s.bills := by
  unfold advanceCursor
  split
  · simp
  · split <;> simp

theorem advanceCursor_billsSound {s : State} (k : BillsSound s) : BillsSound (advanceCursor s) := by
  obtain ⟨hvisit, hplan, hmeter, hbills⟩ := advanceCursor_plan s
  exact k.aside hvisit hplan (by rw [hmeter]) (by rw [hbills]) (by rw [hbills]) (by rw [hbills])

theorem selectLoop_billsSound (p : PlanHeader) (fuel run : Nat) (m : Bool) {s : State} (h : s.seq.visit = none)
    (hp : s.seq.plan = .active) (k : BillsSound s) : BillsSound (selectLoop p fuel run m s) := by
  induction fuel generalizing run m s with
  | zero => exact k
  | succ n ih =>
    unfold selectLoop
    split
    · exact finishPlan_billsSound _ _ h k
    · split
      · exact finishPlan_billsSound _ _ h k
      · split
        · exact k
        · split
          · exact openVisit_billsSound _ _ h hp k
          · have hskipped : BillsSound { s with seq := { s.seq with skips := min (s.seq.skips + 1) 65535 } } := k.aside
            simp only
            split
            · exact finishPlan_billsSound _ _ h hskipped
            · obtain ⟨hvisit, hplan, -, -⟩ :=
                advanceCursor_plan { s with seq := { s.seq with skips := min (s.seq.skips + 1) 65535 } }
              exact ih _ _ (hvisit.trans h) (hplan.trans hp) (advanceCursor_billsSound hskipped)

/-- A selection is made with no visit open and the plan ACTIVE. -/
theorem selectVisit_billsSound {s : State} (h : s.seq.visit = none) (hp : s.seq.plan = .active) (k : BillsSound s) :
    BillsSound (selectVisit s) := by
  unfold selectVisit
  split
  · exact k
  · exact selectLoop_billsSound _ _ _ _ h hp k

theorem afterVisit_billsSound {s : State} (h : s.seq.visit = none) (k : BillsSound s) : BillsSound (afterVisit s) := by
  obtain ⟨hvisit, hplan, -, -⟩ := advanceCursor_plan s
  unfold afterVisit
  split
  next hp => exact selectVisit_billsSound (hvisit.trans h) (hplan.trans hp) (advanceCursor_billsSound k)
  · exact advanceCursor_billsSound k
  · exact k

theorem dropVisit_none (s : State) : (dropVisit s).seq.visit = none := by
  unfold dropVisit
  split
  · assumption
  · simp only
    split <;> rfl

/-- A dropped visit has no reservation: it is WAITING or ARMED (R75, R77). -/
theorem dropVisit_billsSound {s : State} (h : s.visitPours = false) (k : BillsSound s) : BillsSound (dropVisit s) := by
  unfold dropVisit
  split
  · exact k
  next v hv =>
    have hpours : v.state.pours = false := by simpa [State.visitPours, hv] using h
    rw [billsSound_some hv] at k
    obtain ⟨hbound, hheld, hreserved, -, hnumbers⟩ := k
    rw [hreserved, hpours] at hheld
    have hdropped : BillsSound (setVisit none s) :=
      (billsSound_none rfl).2 ⟨hbound, by simpa [zeroPlaces] using hheld, hnumbers⟩
    simp only
    split
    · exact hdropped.aside
    · exact hdropped

/-- A completed visit gives its reservation to its record (R87): a visit that pours has one. -/
theorem completeVisit_billsSound {s : State} (h : ∀ v, s.seq.visit = some v → v.state.pours = true)
    (k : BillsSound s) : BillsSound (completeVisit s) := by
  cases hv : s.seq.visit with
  | none =>
    rw [completeVisit, hv]
    exact k
  | some v =>
    rw [completeVisit_eq v s hv]
    have hclosed : (completed v s).seq.visit = none := rfl
    have hheldMove := testHeldMove_changes (completed v s)
    have hvisit : (testHeldMove (completed v s)).seq.visit = (completed v s).seq.visit := hheldMove.same .visit
    refine afterVisit_billsSound (hvisit.trans hclosed) (BillsSound.frame hheldMove ?_)
    rw [billsSound_some hv, h v hv] at k
    obtain ⟨hbound, hheld, hreserved, -, hnumbers⟩ := k
    obtain ⟨hrecords, hseq, hgiven, -⟩ := issue_spec v.reserved (visitRecord s v) (setBases (visitLineAccounts s v) s)
    obtain ⟨-, -, -, -, -, -, -, hmeter, -⟩ :=
      issue_kept v.reserved (visitRecord s v) (setBases (visitLineAccounts s v) s)
    have hrec : (completed v s).bills.records = s.bills.records ++ [⟨s.bills.nextSeq, visitRecord s v⟩] := hrecords
    have hnext : (completed v s).bills.nextSeq = s.bills.nextSeq + 1 := hseq
    have hplaces : (completed v s).bills.reserved = s.bills.reserved - 1 :=
      hgiven.trans (if_pos hreserved)
    have hzero : zeroPlaces (completed v s) = zeroPlaces s := by
      have hmeter' : (completed v s).meter = s.meter := hmeter
      rw [zeroPlaces, zeroPlaces, hmeter']
    rw [hreserved, if_pos rfl] at hheld
    rw [billsSound_none hclosed]
    refine ⟨?_, ?_, InSequence.snoc hnumbers hrec hnext⟩
    · rw [hrec, hplaces, List.length_append, List.length_singleton]
      omega
    · rw [hplaces, hzero]
      omega

end Sys2Proof.Machine
end

section
/-! The Bill Store, as every operation, treatment and event keeps it. -/

set_option Elab.async false

namespace Sys2Proof.Machine

theorem pausedFor_reserved (v : Visit) (r : PauseReason) (b : Nat) :
    (v.pausedFor r b).reserved = v.reserved ∧ (v.pausedFor r b).state = .paused := by
  unfold Visit.pausedFor
  simp only
  split <;> exact ⟨rfl, rfl⟩

section
variable {s : State} (k : BillsSound s)
include k

/-! ## The visit's pour states (R81 to R87, R99 to R105) -/

/-- A visit that pours enters DRAINING (R86). -/
theorem enterDraining_billsSound (b : Bool) (h : ∀ v, s.seq.visit = some v → v.state.pours = true) :
    BillsSound (enterDraining b s) := by
  unfold enterDraining completeIfEmpty
  have hdraining : BillsSound (mapVisit (fun v => { v with
      state := .draining, flags := { v.flags with hardStopped := v.flags.hardStopped || b } }) s) :=
    k.mapVisit fun v hv => ⟨rfl, (h v hv).symm⟩
  split
  · refine completeVisit_billsSound (fun v hv => ?_) hdraining
    obtain ⟨w, -, rfl⟩ := Option.map_eq_some_iff.1 hv
    rfl
  · exact hdraining

theorem closeOutNotIssued_billsSound (h : ∀ v, s.seq.visit = some v → v.state.pours = true) :
    BillsSound (closeOutNotIssued s) :=
  enterDraining_billsSound ((k.frame (abandonOrder_changes .feeder s)).frame (raise_changes _ _)) _ h

theorem injectOrder_billsSound {d : InjDest} {o : InjOrder} {bs : List Byte} {t : State}
    (h : injectOrder d o bs s = some t) : BillsSound t := by
  unfold injectOrder at h
  split at h
  · cases h
    exact k.aside
  · cases h

theorem closeOut_billsSound (h : ∀ v, s.seq.visit = some v → v.state.pours = true) : BillsSound (closeOut s) := by
  unfold closeOut
  split
  · split
    · exact k.aside
    · exact closeOutNotIssued_billsSound k h
  · split
    next hinj => exact (injectOrder_billsSound k hinj).aside
    · exact closeOutNotIssued_billsSound k h

theorem closeOutOutcome_billsSound (b : Bool) : BillsSound (closeOutOutcome b s) := by
  unfold closeOutOutcome
  split
  next hs =>
    obtain ⟨v, hv, hclosing⟩ := visitState_eq hs
    refine enterDraining_billsSound k b fun w hw => ?_
    obtain rfl : v = w := Option.some.inj (hv.symm.trans hw)
    rw [hclosing]
    rfl
  · exact k

theorem takeTrigger_billsSound (r : EndReason) : BillsSound (takeTrigger r s) := by
  unfold takeTrigger
  split
  next hs =>
    obtain ⟨v, hv, hpouring⟩ := visitState_eq hs
    refine closeOut_billsSound (k.mapVisit fun w hw => ⟨rfl, ?_⟩) fun w hw => ?_
    · obtain rfl : v = w := Option.some.inj (hv.symm.trans hw)
      rw [hpouring]
      rfl
    · obtain ⟨u, -, rfl⟩ := Option.map_eq_some_iff.1 hw
      rfl
  next hs =>
    obtain ⟨v, hv, hpaused⟩ := visitState_eq hs
    have hdraining : BillsSound (mapVisit (fun v => { v with state := .draining, endReason := some r }) s) := by
      refine k.mapVisit fun w hw => ⟨rfl, ?_⟩
      obtain rfl : v = w := Option.some.inj (hv.symm.trans hw)
      rw [hpaused]
      rfl
    unfold completeIfEmpty
    split
    · refine completeVisit_billsSound (fun w hw => ?_) hdraining
      obtain ⟨u, -, rfl⟩ := Option.map_eq_some_iff.1 hw
      rfl
    · exact hdraining
  · exact k

theorem checkProjections_billsSound : BillsSound (checkProjections s) := by
  unfold checkProjections
  split
  · exact k
  · split
    · split
      · exact takeTrigger_billsSound k _
      · exact k
    · exact k

/-- A PAUSED visit returns to POURING (R81, R82). -/
theorem enterPouring_billsSound (h : s.visitState = some .paused) : BillsSound (enterPouring s) := by
  obtain ⟨v, hv, hpaused⟩ := visitState_eq h
  unfold enterPouring
  simp only [hv]
  refine checkProjections_billsSound (BillsSound.frame (fillHold_changes _ _) (k.revise hv rfl ?_))
  rw [hpaused]
  rfl

theorem feederRunning_billsSound : BillsSound (feederRunning s) := by
  unfold feederRunning
  split
  next hs => exact enterPouring_billsSound k hs
  · exact k

theorem pauseVisit_billsSound (r : PauseReason) : BillsSound (pauseVisit r s) := by
  unfold pauseVisit
  split
  next hs =>
    obtain ⟨v, hv, hpouring⟩ := visitState_eq hs
    refine k.mapVisit fun w hw => ?_
    obtain rfl : v = w := Option.some.inj (hv.symm.trans hw)
    obtain ⟨hreserved, hpaused⟩ := pausedFor_reserved v r s.meter.belt
    exact ⟨hreserved, by rw [hpaused, hpouring]; rfl⟩
  · exact k

theorem recordRate_billsSound (n : Nat) : BillsSound (recordRate n s) :=
  BillsSound.mapVisit (s := { s with gate := { s.gate with lastRate := some (min n s.gate.rateLimit) } }) k.aside
    fun _ _ => ⟨rfl, rfl⟩

theorem reportPlaced_billsSound (h : Hold) : BillsSound (reportPlaced h s) := by
  unfold reportPlaced
  split
  · exact k
  next v hv =>
    split
    next hw => exact k.revise hv rfl (by rw [hw.1]; rfl)
    · exact k

theorem reportLost_billsSound (h : Hold) : BillsSound (reportLost h s) := by
  unfold reportLost
  split
  · exact k
  next v hv =>
    split
    · split
      next ha => exact k.revise hv rfl (by rw [ha]; rfl)
      · exact takeTrigger_billsSound k _
    · exact k

/-! ## Feed Gate and Dust Monitor -/

theorem markDerated_billsSound : BillsSound (markDerated s) :=
  k.mapVisit fun v _ => by split <;> exact ⟨rfl, rfl⟩

theorem derateCheck_billsSound : BillsSound (derateCheck s) := by
  unfold derateCheck
  split
  · split
    next t hinj =>
      exact BillsSound.aside (s := markDerated (commandLimit t))
        (markDerated_billsSound (s := commandLimit t) (injectOrder_billsSound k hinj).aside)
    · split
      · exact k.aside
      · exact k.aside
  · exact k.aside

theorem recomputeLimit_billsSound : BillsSound (recomputeLimit s) := by
  have hset : BillsSound { s with gate := { s.gate with rateLimit := rateLimitOf s } } := k.aside
  unfold recomputeLimit
  simp only
  split
  · exact derateCheck_billsSound hset
  · exact hset

theorem reformBands_billsSound : BillsSound (reformBands s) := by
  have hset : BillsSound { s with dust := { s.dust with overall := s.dust.formOverall, spray := s.dust.formSpray } } :=
    k.aside
  unfold reformBands
  simp only
  split
  · exact hset
  · split
    · exact takeTrigger_billsSound (recomputeLimit_billsSound hset) _
    · exact recomputeLimit_billsSound hset

theorem retestLatch_billsSound (i : SensorNo) : BillsSound (retestLatch i s) :=
  reformBands_billsSound (k.frame (releaseTest_changes i s))

theorem reportSource_billsSound (i : SourceNo) : BillsSound (reportSource i s) := by
  unfold reportSource
  split
  · exact retestLatch_billsSound k _
  · exact k

theorem reportRunning_billsSound : BillsSound (reportRunning s) := by
  have hrunning := feederRunning_billsSound k
  unfold reportRunning
  refine derateCheck_billsSound ?_
  split
  · unfold strayStop
    split
    next hinj => exact injectOrder_billsSound hrunning hinj
    · exact hrunning
  · exact hrunning

theorem feederArrival_billsSound (st : FeederState) (b : Bool) : BillsSound (feederArrival st b s) := by
  have hset := k.frame (setFeeder_changes st s)
  unfold feederArrival
  cases st <;> simp only
  · split
    · exact pauseVisit_billsSound hset _
    · exact hset
  · split
    · exact reportRunning_billsSound hset
    · exact hset
  · split
    · exact pauseVisit_billsSound hset _
    · exact hset
  · exact hset

theorem feederOutcome_billsSound (o : InjOrder) (b : Bool) : BillsSound (feederOutcome o b s) := by
  have hraised : BillsSound (if b then raise srcStopFault s else s) := by
    split
    · exact k.frame (raise_changes _ s)
    · exact k
  unfold feederOutcome
  cases o <;> simp only
  · exact closeOutOutcome_billsSound hraised _
  · exact derateCheck_billsSound hraised
  · exact hraised

theorem evaluatePlacement_billsSound : BillsSound (evaluatePlacement s) := by
  have hset (st : PlaceState) (a : Account) :
      BillsSound { s with place := { s.place with state := st, pourPoint := a } } := k.aside
  unfold evaluatePlacement reportPlacement
  simp only
  split
  · exact hset _ _
  · split
    · exact reportPlaced_billsSound (hset _ _) _
    · exact reportLost_billsSound (hset _ _) _
    · exact hset _ _

/-! ## Belt Meter and Flight Queue -/

theorem setMeterFault_billsSound : BillsSound (setMeterFault s) := by
  have hset : BillsSound (raise srcMeterFault (setCond srcMeterFault true
      { s with meter := { s.meter with fault := true, clearing := 0 } })) := k.aside
  unfold setMeterFault
  simp only
  split
  · exact endZero_billsSound _ _ hset
  · exact takeTrigger_billsSound (endZero_billsSound _ _ hset) _

theorem creditDelivery_billsSound (g : Segment) : BillsSound (creditDelivery g s) := by
  unfold creditDelivery
  split
  · exact k.frame (raise_changes _ s)
  · simp only
    set u : State := { s with ship := { s.ship with accounts := _ } }
    have hu : BillsSound u := k.aside
    have halarm : BillsSound (deliveryAlarm s.place.pourPoint u) := by
      unfold deliveryAlarm
      split
      · exact hu.frame (raise_changes _ u)
      · split
        · split
          · exact hu
          · exact hu.frame (raise_changes _ u)
        · exact hu
    unfold reportDelivery
    split
    next v hv => exact halarm.revise hv rfl rfl
    · exact halarm.aside

theorem queueEmptied_billsSound : BillsSound (queueEmptied s) := by
  unfold queueEmptied
  refine BillsSound.frame (testHeldMove_changes _) ?_
  split
  next hs =>
    obtain ⟨v, hv, hdraining⟩ := visitState_eq hs
    refine completeVisit_billsSound (fun w hw => ?_) k
    obtain rfl : v = w := Option.some.inj (hv.symm.trans hw)
    rw [hdraining]
    rfl
  · exact k

theorem deliver_billsSound (g : Segment) (rest : List Segment) : BillsSound (deliver g rest s) := by
  have hremoved : BillsSound { s with flight := { s.flight with segments := rest } } := k.aside
  have hcredited := creditDelivery_billsSound (hremoved.frame (coarseLeft_changes g rest _)) g
  unfold deliver
  simp only
  split
  · exact queueEmptied_billsSound hcredited
  · exact hcredited

omit k in
theorem deliverDue_billsSound (gs : List Segment) {s : State} (k : BillsSound s) : BillsSound (deliverDue gs s) := by
  induction gs generalizing s with
  | nil => exact k
  | cons g rest ih =>
    unfold deliverDue
    split
    · exact ih (deliver_billsSound k g rest)
    · exact k

theorem deliverAndCheck_billsSound (b : Bool) : BillsSound (deliverAndCheck b s) := by
  unfold deliverAndCheck
  simp only
  split
  · exact checkProjections_billsSound (deliverDue_billsSound _ k)
  · exact deliverDue_billsSound _ k

theorem integrate_billsSound (sc : ScaleTable) (load : Int) (t : Nat) (g : Bool) :
    BillsSound (integrate sc load t g s) := by
  have hweighed (d m : Nat) : BillsSound (advanceBelt t (weigh m (addDrift d s))) :=
    ((k.frame (addDrift_changes d s)).frame (weigh_changes m _)).frame (advanceBelt_changes t _)
  unfold integrate
  refine deliverAndCheck_billsSound ?_ _
  split
  · exact (hweighed _ _).frame (takeIncrement_changes _ _ _ _ _)
  · exact hweighed _ _

theorem collectZero_billsSound (sc : ScaleTable) (load : Int) (t : Nat) : BillsSound (collectZero sc load t s) := by
  unfold collectZero
  split
  · exact k
  next z hz =>
    have hkept (z' : ZeroOp) (f : Meter → Meter) (hf : (f s.meter).zero = some z') :
        BillsSound { s with meter := f s.meter } := k.aside (hz := by rw [hf, hz]; rfl)
    split
    · exact endZero_billsSound _ _ k
    · simp only
      split
      · unfold completeZero
        simp only
        split
        · exact endZero_billsSound _ _ (BillsSound.frame (evalDrift_changes _)
            (hkept _ (fun m => { m with zero := some _, offset := _, drift := 0 }) rfl))
        · exact endZero_billsSound _ _ (hkept _ (fun m => { m with zero := some _ }) rfl)
      · exact hkept _ (fun m => { m with zero := some _ }) rfl

theorem beltTravel_billsSound (sc : ScaleTable) (load : Int) (t : Nat) (g ok : Bool) :
    BillsSound (beltTravel sc load t g ok s) := by
  unfold beltTravel
  split
  · have hreverse := k.frame (reverseSample_changes s)
    simp only
    split
    · exact hreverse
    · exact setMeterFault_billsSound hreverse
  · have hclear := k.frame (setCond_changes srcBeltReverse false s)
    simp only
    split
    · exact collectZero_billsSound ((integrate_billsSound hclear _ _ _ _).frame (countClearing_changes _)) _ _ _
    · exact setMeterFault_billsSound (deliverAndCheck_billsSound (hclear.frame (advanceBelt_changes t _)) _)

theorem treatBelt_billsSound (f : Frame) : BillsSound (treatBelt f s) := by
  unfold treatBelt
  split
  · refine BillsSound.frame (forward_changes _ _ _) ?_
    split
    · unfold takeBelt
      split
      · exact k
      · refine BillsSound.frame (restartSilence_changes _) (BillsSound.frame (setPrev_changes _ _) ?_)
        split
        · have hclear := k.frame (setCond_changes srcBeltReverse false s)
          unfold firstSample
          simp only
          split
          · exact hclear
          · exact setMeterFault_billsSound hclear
        · exact beltTravel_billsSound k _ _ _ _ _
    · exact k
  · exact k

/-! ## Taking a frame, samples and replies -/

theorem enterLineFault_billsSound (p : PortId) : BillsSound (enterLineFault p s) := by
  have hentered : BillsSound (raise (srcLineFault p) (setCond (srcLineFault p) true
      (setLinePort p { s.line.port p with lineFault := true } s))) := k.aside
  unfold enterLineFault
  cases p
  · exact hentered
  · exact takeTrigger_billsSound hentered _

theorem lineFaultTest_billsSound (p : PortId) : BillsSound (lineFaultTest p s) := by
  unfold lineFaultTest
  split
  · exact enterLineFault_billsSound k p
  · exact k

theorem tallyUp_billsSound (p : PortId) : BillsSound (tallyUp p s) := by
  have hstepped : BillsSound (setLinePort p { s.line.port p with tally := min ((s.line.port p).tally + 1) 255 } s) :=
    k.aside
  exact lineFaultTest_billsSound hstepped p

theorem tallyDown_billsSound (p : PortId) : BillsSound (tallyDown p s) := by
  have hstepped : BillsSound (setLinePort p { s.line.port p with tally := (s.line.port p).tally - 1 } s) := k.aside
  unfold tallyDown
  simp only
  split
  · have hleft : BillsSound (setCond (srcLineFault p) false (setLinePort p { (setLinePort p
        { s.line.port p with tally := (s.line.port p).tally - 1 } s).line.port p with lineFault := false }
        (setLinePort p { s.line.port p with tally := (s.line.port p).tally - 1 } s))) := hstepped.aside
    unfold leaveLineFault
    cases p
    · exact hleft
    · exact derateCheck_billsSound hleft
  · exact hstepped

theorem takeHead_billsSound (p : PortId) (e : RxEntry) (rest : List RxEntry) (row : Instr) :
    BillsSound (takeHead p e rest row s) := by
  have htaken : BillsSound (setLinePort p { s.line.port p with rxQueue := rest } s) := k.aside
  unfold takeHead takingStep
  split
  · exact tallyUp_billsSound htaken p
  · exact tallyUp_billsSound htaken p
  · exact tallyDown_billsSound htaken p

theorem treatPosition_billsSound (f : Frame) : BillsSound (treatPosition f s) := by
  unfold treatPosition
  split
  · refine BillsSound.frame (forward_changes _ _ _) ?_
    split
    · unfold takePosition
      exact (evaluatePlacement_billsSound (k.frame (putAxis_changes _ _ s))).frame (sweepTest_changes _ _ _)
    · exact k
  · exact k

theorem treatSense_billsSound (f : Frame) : BillsSound (treatSense f s) := by
  unfold treatSense
  split
  · refine BillsSound.frame (forward_changes _ _ _) ?_
    split
    · unfold takeSense
      exact (evaluatePlacement_billsSound (k.frame (setSense_changes _ s))).frame (sweepTest_changes _ _ _)
    · exact k
  · exact k

theorem takeDust_billsSound (i : SensorNo) (e : SensorEntry) (c : Nat) (ok : Bool) : BillsSound (takeDust i e c ok s) := by
  have hrestarted := k.frame (restartSensor_changes i s)
  unfold takeDust
  refine reformBands_billsSound ?_
  split
  · exact (((hrestarted.frame (averageSensor_changes i e c _)).frame (tripSensor_changes i e c _)).frame
      (hearSensor_changes i _)).frame (dustAlarms_changes i e _ c _)
  · exact hrestarted.frame (silenceSensor_changes i _)

theorem treatDust_billsSound (f : Frame) : BillsSound (treatDust f s) := by
  unfold treatDust
  split
  · refine BillsSound.frame (forward_changes _ _ _) ?_
    split
    · exact k
    · split
      · split
        · exact takeDust_billsSound k _ _ _ _
        · exact k
      · exact k
  · exact k

theorem treatFeeder_billsSound (f : Frame) : BillsSound (treatFeeder f s) := by
  unfold treatFeeder
  split
  · refine BillsSound.frame (forward_changes _ _ _) ?_
    split
    · exact feederArrival_billsSound k _ _
    · exact k
  · exact k

theorem observeFeeder_billsSound (r : ReplyForm) : BillsSound (observeFeeder r s) := by
  unfold observeFeeder
  split
  · exact feederArrival_billsSound k _ _
  · exact k

theorem replyFeeder_billsSound (r : ReplyForm) (n : Byte) : BillsSound (replyFeeder r n s) := by
  have hobserved := observeFeeder_billsSound k r
  unfold replyFeeder
  simp only
  split
  · split
    · exact feederOutcome_billsSound (hobserved.frame (releaseEntry_changes _ _)) _ _
    · exact hobserved
  · exact hobserved

theorem treatReply_billsSound (f : Frame) : BillsSound (treatReply f s) := by
  unfold treatReply
  split
  · exact k
  · split
    · unfold consumeReply
      split
      · exact replyFeeder_billsSound k _ _
      · unfold replyDrive
        split
        · exact (k.frame (observeAxis_changes _ _ s)).frame (driveOutcome_changes _ _ _)
        · exact k
      · exact k
    · exact k
    · refine BillsSound.frame (forward_changes _ _ _) ?_
      unfold observeReply
      split
      · exact observeFeeder_billsSound k _
      · split
        · exact k.frame (observeAxis_changes _ _ s)
        · exact k
    · exact k.frame (forward_changes _ _ s)

end

end Sys2Proof.Machine
end

section
/-! The Bill Store: reservations taken by a RUN and a ZERO_BELT, the plan and ship requests, loads, and every step. -/

set_option Elab.async false

namespace Sys2Proof.Machine

/-! ## What accepted requests have passed (R70, R75 to R77, R19, R98) -/

theorem haltRefusal_none {s : State} (h : haltRefusal s = none) : s.ready = true ∧ s.seq.plan = .active := by
  unfold haltRefusal at h
  split_ifs at h
  simp_all

theorem resumeRefusal_none {s : State} (h : resumeRefusal s = none) :
    s.ready = true ∧ s.seq.plan = .suspended ∧ s.seq.visit = none := by
  unfold resumeRefusal at h
  split_ifs at h
  simp_all

theorem skipRefusal_none {s : State} (h : skipRefusal s = none) :
    s.ready = true ∧ s.seq.plan = .active ∧ s.visitPours = false := by
  unfold skipRefusal at h
  split_ifs at h
  simp_all

theorem zeroRefusal_none {s : State} (h : zeroRefusal s = none) :
    s.ready = true ∧ s.meter.zero = none ∧ s.gate.feeder = .stopped ∧ s.flight.segments = [] ∧ s.visitPours = false
      ∧ s.meter.fault = false ∧ s.bills.free ≠ 0 := by
  unfold zeroRefusal at h
  split_ifs at h
  simp_all

theorem judgeStart_ok {s : State} {mask slot order : Byte} {x : Nat × Order}
    (h : judgeStart s mask slot order = .ok x) : planRuns s = false := by
  by_contra hruns
  unfold judgeStart at h
  simp only [if_pos (Bool.not_eq_false _ ▸ hruns)] at h
  split_ifs at h

theorem runBarred_none {s : State} (h : runBarred s = none) :
    s.pins.stop = false ∧ s.dust.overall ≠ .trip ∧ s.meter.fault = false ∧ s.line.d.lineFault = false
      ∧ s.meter.zero = none ∧ (visitReserved s = true ∨ s.bills.free ≠ 0) := by
  unfold runBarred at h
  split_ifs at h
  simp_all
  exact Bool.eq_false_or_eq_true _ |>.imp_right ‹_›

/-- A RUN that is not refused finds a visit ARMED, POURING or PAUSED (R98). -/
theorem runRefusal_none {s : State} (h : runRefusal s = none) : runBarred s = none
    ∧ ∃ v, s.seq.visit = some v ∧ (v.state = .armed ∨ v.state = .pouring ∨ v.state = .paused) := by
  unfold runRefusal at h
  split_ifs at h
  cases hv : s.seq.visit with
  | none =>
    rw [State.visitState, hv] at h
    cases h
  | some v =>
    rw [State.visitState, hv] at h
    cases hs : v.state <;> simp [hs] at h
    all_goals exact ⟨h, v, rfl, by simp [hs]⟩

/-! ## A RUN's reservation (R99) -/

/-- A place is held for the open visit, whatever its state. -/
def PlaceHeld (s : State) : Prop :=
  s.bills.records.length + s.bills.reserved ≤ 256 ∧ s.bills.reserved = 1 + zeroPlaces s
    ∧ (s.seq.plan = .active ∨ s.seq.plan = .suspended) ∧ InSequence s.bills

/-- A visit that holds a place enters POURING (R81). -/
theorem enterPouring_placeHeld {s : State} {v : Visit} (hv : s.seq.visit = some v) (hr : v.reserved = true)
    (k : PlaceHeld s) : BillsSound (enterPouring s) := by
  obtain ⟨hbound, hheld, hplan, hnumbers⟩ := k
  unfold enterPouring
  simp only [hv]
  refine checkProjections_billsSound (BillsSound.frame (fillHold_changes _ _) ?_)
  refine (billsSound_some rfl).2 ⟨hbound, ?_, hr, hplan, hnumbers⟩
  simpa [hr, zeroPlaces, setVisit] using hheld

theorem reserveForVisit_placeHeld {s : State} {v : Visit} (hv : s.seq.visit = some v)
    (hfree : visitReserved s = true ∨ s.bills.free ≠ 0) (k : BillsSound s) :
    PlaceHeld (reserveForVisit s) ∧ (reserveForVisit s).seq.visit = some { v with reserved := true } := by
  have hreserved : visitReserved s = v.reserved := by simp only [visitReserved, hv]
  obtain ⟨hbound, hheld, -, hplan, hnumbers⟩ := (billsSound_some hv).1 k
  unfold reserveForVisit
  split
  next hr =>
    have hr' : v.reserved = true := hreserved.symm.trans hr
    rw [if_pos hr'] at hheld
    refine ⟨⟨hbound, hheld, hplan, hnumbers⟩, ?_⟩
    rw [hv, ← hr']
  next hr =>
    have hr' : v.reserved = false := by simpa [hreserved] using hr
    have hplace : s.bills.free ≠ 0 := hfree.resolve_left hr
    unfold BillStore.free at hplace
    simp only [hr', Bool.false_eq_true, if_false] at hheld
    refine ⟨⟨?_, ?_, hplan, hnumbers⟩, ?_⟩
    · change s.bills.records.length + (s.bills.reserved + 1) ≤ 256
      omega
    · change s.bills.reserved + 1 = 1 + zeroPlaces s
      omega
    · simp [mapVisit, setVisit, reserve, hv]

theorem runTaken_billsSound (f : Frame) (rate : Nat) {s : State} {v : Visit} (hv : s.seq.visit = some v)
    (hs : v.state = .armed ∨ v.state = .pouring ∨ v.state = .paused)
    (hfree : visitReserved s = true ∨ s.bills.free ≠ 0) (k : BillsSound s) : BillsSound (runTaken f rate s) := by
  obtain ⟨hplace, hheld⟩ := reserveForVisit_placeHeld hv hfree k
  unfold runTaken
  split
  · set u := recordRate rate (offer .D (clampFrame s f rate) (reserveForVisit s)) with hu
    have hplaceu : PlaceHeld u := hplace
    obtain ⟨w, hw, hwr, hws⟩ : ∃ w, u.seq.visit = some w ∧ w.reserved = true ∧ w.state = v.state := by
      have hvisit : u.seq.visit = ((reserveForVisit s).seq.visit).map _ := rfl
      rw [hheld] at hvisit
      exact ⟨_, hvisit, rfl, rfl⟩
    have hstate : u.visitState = some v.state := by rw [State.visitState, hw, ← hws]; rfl
    unfold runForwarded
    split
    · exact enterPouring_placeHeld hw hwr hplaceu
    · exact enterPouring_placeHeld hw hwr hplaceu
    next harmed hpaused =>
      have hpouring : v.state = .pouring := by
        rcases hs with h | h | h
        · exact absurd (hstate.trans (congrArg some h)) harmed
        · exact h
        · exact absurd (hstate.trans (congrArg some h)) hpaused
      obtain ⟨hbound, hcount, hplan, hnumbers⟩ := hplaceu
      exact (billsSound_some hw).2 ⟨hbound, by rw [hwr]; exact hcount, by rw [hws, hpouring, hwr]; rfl, hplan, hnumbers⟩
  · exact k.frame (refuse_changes _ _ _ s)

theorem treatRun_billsSound (f : Frame) {s : State} (k : BillsSound s) : BillsSound (treatRun f s) := by
  unfold treatRun
  split
  · exact BillsSound.frame (refuse_changes _ _ _ _) (k.frame (raise_changes _ s))
  · exact k.frame (refuse_changes _ _ _ s)
  next hnone =>
    split
    · obtain ⟨hbarred, v, hv, hs⟩ := runRefusal_none hnone
      obtain ⟨-, -, -, -, -, hfree⟩ := runBarred_none hbarred
      exact runTaken_billsSound f _ hv hs hfree k
    · exact k

/-! ## Requests -/

theorem answerDone_billsSound (f : Frame) (bs : List Byte) {s : State} (k : BillsSound s) :
    BillsSound (answerDone f bs s) := k.frame (answerDone_changes f bs s)

theorem answerRefused_billsSound (f : Frame) (r : Reason) {s : State} (k : BillsSound s) :
    BillsSound (answerRefused f r s) := k.frame (answerRefused_changes f r s)

/-- A request's effect is brought about on the state it was judged in, but for the answer. -/
theorem answerRequest_billsSound (f : Frame) {reason : Option Reason} {effect : State → State} {s : State}
    (k : BillsSound s) (he : reason = none → BillsSound (effect (answerDone f [] s))) :
    BillsSound (answerRequest f reason effect s) := by
  rcases answerRequest_cases f reason effect s with ⟨r, -, h⟩ | ⟨hnone, h⟩ <;> rw [h]
  · exact k.frame (refuseRequest_changes f r s)
  · exact he hnone

theorem openShip_billsSound (n : Nat) {s : State} (hfree : s.bills.free ≠ 0) (k : BillsSound s) :
    BillsSound (openShip n s) := by
  refine issue_billsSound _ ?_ k.aside
  exact hfree

theorem closeShip_billsSound {s : State} (hv : s.seq.visit = none) (hfree : s.bills.free ≠ 0) (k : BillsSound s) :
    BillsSound (closeShip s) := by
  have hissued : BillsSound (issue false (closeRecord s) (setBases (closeLineAccounts s) s)) :=
    issue_billsSound _ hfree k.aside
  obtain ⟨hkept, -⟩ := issue_kept false (closeRecord s) (setBases (closeLineAccounts s) s)
  have hvisit : (issue false (closeRecord s) (setBases (closeLineAccounts s) s)).seq.visit = none := by
    rw [hkept]
    exact hv
  exact (billsSound_none (by exact hvisit)).2 ((billsSound_none hvisit).1 hissued)

theorem setPlan_billsSound {p : PlanState} {s : State} (h : s.seq.visit = none ∨ p = .active ∨ p = .suspended)
    (k : BillsSound s) : BillsSound (setPlan p s) := by
  obtain ⟨hbound, hheld, hpours, -, hnumbers⟩ := k
  exact ⟨hbound, hheld, hpours, fun hv => h.resolve_left hv, hnumbers⟩

theorem haltPlan_billsSound {s : State} (k : BillsSound s) : BillsSound (haltPlan s) := by
  have hdismissed : BillsSound (dismissHeldMove .cancelled (setPlan .suspended s)) :=
    (setPlan_billsSound (.inr (.inr rfl)) k).frame (dismissHeldMove_changes _ _)
  have dropped {st : VisitState} (hst : st.pours = false)
      (hs : (dismissHeldMove .cancelled (setPlan .suspended s)).visitState = some st) :
      BillsSound (dropVisit (dismissHeldMove .cancelled (setPlan .suspended s))) := by
    obtain ⟨v, hv, rfl⟩ := visitState_eq hs
    exact dropVisit_billsSound (by simp [State.visitPours, hv, hst]) hdismissed
  unfold haltPlan haltVisit
  split
  next hs => exact dropped rfl hs
  next hs => exact dropped rfl hs
  · exact takeTrigger_billsSound hdismissed _

theorem resumePlan_billsSound {s : State} (hv : s.seq.visit = none) (k : BillsSound s) : BillsSound (resumePlan s) :=
  selectVisit_billsSound (s := setPlan .active s) hv rfl (setPlan_billsSound (.inl hv) k)

theorem skipSlot_billsSound {s : State} (hp : s.seq.plan = .active) (hv : s.visitPours = false) (k : BillsSound s) :
    BillsSound (skipSlot s) := by
  obtain ⟨hvisit, hplan, -, -⟩ := advanceCursor_plan (dropVisit s)
  have hkept : (dropVisit s).seq.plan = s.seq.plan := ((dropVisit_changes s).same .plan).1
  exact selectVisit_billsSound (hvisit.trans (dropVisit_none s)) (hplan.trans (hkept.trans hp))
    (advanceCursor_billsSound (dropVisit_billsSound hv k))

/-- A plan that does not run has no visit. -/
theorem BillsSound.visit_none {s : State} (k : BillsSound s) (h : planRuns s = false) : s.seq.visit = none := by
  obtain ⟨-, -, -, hplan, -⟩ := k
  by_contra hv
  rcases hplan hv with hp | hp <;> simp [planRuns, hp] at h

theorem startPlan_billsSound (x : Nat × Order) {s : State} (hv : s.seq.visit = none) (k : BillsSound s) :
    BillsSound (startPlan x s) := by
  have hplan := setPlan_billsSound (p := .active) (.inl hv) k
  unfold startPlan
  exact selectVisit_billsSound hv rfl (hplan.aside)

theorem beginZero_billsSound {s : State} (hz : s.meter.zero = none) (hfree : s.bills.free ≠ 0) (k : BillsSound s) :
    BillsSound (beginZero s) := by
  obtain ⟨hbound, hheld, hpours, hplan, hnumbers⟩ := k
  rw [reservationsHeld, hz] at hheld
  unfold BillStore.free at hfree
  refine ⟨?_, ?_, hpours, hplan, hnumbers⟩
  · change s.bills.records.length + (s.bills.reserved + 1) ≤ 256
    omega
  · change s.bills.reserved + 1 = (if visitReserved s then 1 else 0) + 1
    rw [hheld]
    rfl

theorem releaseRecords_billsSound (n : Nat) {s : State} (k : BillsSound s) : BillsSound (releaseRecords n s) := by
  obtain ⟨hbound, hheld, hpours, hplan, hnumbers⟩ := k
  refine ⟨?_, hheld, hpours, hplan, InSequence.drop hnumbers n rfl rfl⟩
  have hlength : (releaseRecords n s).bills.records.length ≤ s.bills.records.length := by simp [releaseRecords]
  have hreserved : (releaseRecords n s).bills.reserved = s.bills.reserved := rfl
  omega

/-! ## Loads (R191) -/

theorem applyPlan_billsSound (x : PlanHeader) {s : State} (k : BillsSound s) : BillsSound (applyPlan x s) := by
  have hloaded : BillsSound { s with seq := { s.seq with header := some x } } := k.aside
  unfold applyPlan
  simp only
  split
  · split
    · exact hloaded
    · exact recomputeLimit_billsSound hloaded
  · exact recomputeLimit_billsSound hloaded

theorem applyDerate_billsSound (x : Nat × Nat) {s : State} (k : BillsSound s) : BillsSound (applyDerate x s) := by
  have hloaded : BillsSound { s with dust := { s.dust with elevDerate := x.1, highDerate := x.2 } } := k.aside
  unfold applyDerate
  simp only
  split
  · exact hloaded
  · exact recomputeLimit_billsSound hloaded

theorem applySensor_billsSound (l : Load) (x : SensorEntry) {s : State} (k : BillsSound s) :
    BillsSound (applySensor l x s) := by
  unfold applySensor
  split
  · exact retestLatch_billsSound (k.frame (loadSensor_changes _ _ _ s)) _
  · exact k

theorem applyNothing_billsSound (l : Load) {s : State} (k : BillsSound s) : BillsSound (applyNothing l s) := by
  unfold applyNothing
  split
  · exact retestLatch_billsSound k _
  · exact k

theorem applyAlarm_billsSound (e : Nat) (x : AlarmFields) {s : State} (k : BillsSound s) :
    BillsSound (applyAlarm e x s) := by
  unfold applyAlarm
  split
  next h =>
    have hamended : BillsSound { s with ladder := s.ladder.put ⟨e, h⟩ ((s.ladder.sources[e]).amended x) } := k.aside
    simp only
    split
    · exact hamended
    · exact reportSource_billsSound hamended _
  · exact k

theorem LoadEffect.billsSound {s u : State} {l : Load} {effect : State → State} (h : LoadEffect s l effect)
    (k : BillsSound u) : BillsSound (effect u) := by
  cases h with
  | nothing => exact applyNothing_billsSound l k
  | stations a h => exact k.frame (applyStation_changes _ _ u)
  | scale x ht h => exact k.frame (applyScale_changes _ u)
  | travel x => exact k.frame (applyTravel_changes _ u)
  | envelopes x => exact k.frame (applyEnvelope_changes _ _ u)
  | holds x => exact k.frame (applyHold_changes _ _ u)
  | sequence x => exact k.frame (applySlot_changes _ _ u)
  | plan x => exact applyPlan_billsSound x k
  | gate w => exact k.frame (applyGate_changes _ u)
  | derate x => exact applyDerate_billsSound x k
  | sensor x => exact applySensor_billsSound l x k
  | alarm x ht h => exact applyAlarm_billsSound _ x k
  | marks v => exact k.frame (applyMarks_changes _ u)

/-! ## Every step -/

theorem coldReset_billsSound (s : State) : BillsSound (coldReset s) := by
  refine (billsSound_none rfl).2 ⟨show 0 + 0 ≤ 256 by decide, by rfl, fun i h => absurd h (Nat.not_lt_zero i)⟩

theorem Treatment.billsSound {p : PortId} {row : Instr} {treat : Frame → State → State} (h : Treatment p row treat)
    (f : Frame) {s : State} (k : BillsSound s) : BillsSound (treat f s) := by
  have refused (r : Reason) : BillsSound (answerRefused f r s) := answerRefused_billsSound f r k
  have answered : BillsSound (answerDone f [] s) := answerDone_billsSound f [] k
  by_cases hr : row = .restart
  · subst hr
    cases h
    rcases treatRestart_cases f s with ⟨-, h⟩ | ⟨-, h⟩ <;> rw [h]
    · exact refused .busy
    · exact (coldReset_billsSound s).frame (endReset_changes _)
  · by_cases hb : ∀ b ∈ billBlocks, b ∉ treatmentBlocks row
    · exact k.frame (h.changes hr f s) hb
    · cases h
      case belt => exact treatBelt_billsSound k f
      case position => exact treatPosition_billsSound k f
      case sense => exact treatSense_billsSound k f
      case dust => exact treatDust_billsSound k f
      case feeder => exact treatFeeder_billsSound k f
      case reply => exact treatReply_billsSound k f
      case run => exact treatRun_billsSound f k
      case rate =>
        unfold treatRate
        split
        · exact k.frame (refuse_changes _ _ _ s)
        · split
          · split
            · exact recordRate_billsSound (k.frame (offer_changes _ _ s)) _
            · exact k.frame (refuse_changes _ _ _ s)
          · exact k
      case stop =>
        unfold treatStop
        split
        · exact pauseVisit_billsSound (k.frame (offer_changes _ _ s)) _
        · exact k.frame (refuse_changes _ _ _ s)
      case setOptions =>
        unfold treatSetOptions
        split
        · split
          · exact refused _
          · split
            · exact refused _
            · exact lineFaultTest_billsSound (lineFaultTest_billsSound answered.aside _) _
        · exact k
      case openShip =>
        refine answerRequest_billsSound f k fun hnone => ?_
        obtain ⟨-, -, -, -, -, -, hfree⟩ := openRefusal_none hnone
        exact openShip_billsSound _ hfree answered
      case closeShip =>
        refine answerRequest_billsSound f k fun hnone => ?_
        obtain ⟨-, -, -, hv, -, -, hfree⟩ := closeRefusal_none hnone
        exact closeShip_billsSound hv hfree answered
      case startPlan =>
        unfold treatStartPlan
        split
        next mask slot order _ =>
          rcases answerJudged_cases f (judgeStart s mask slot order) Machine.startPlan s with ⟨r, -, h⟩ | ⟨x, hx, h⟩ <;> rw [h]
          · exact refused r
          · exact startPlan_billsSound x (k.visit_none (judgeStart_ok hx)) answered
        · exact k
      case haltPlan => exact answerRequest_billsSound f k fun _ => haltPlan_billsSound answered
      case resumePlan =>
        refine answerRequest_billsSound f k fun hnone => ?_
        obtain ⟨-, -, hv⟩ := resumeRefusal_none hnone
        exact resumePlan_billsSound hv answered
      case skipSlot =>
        refine answerRequest_billsSound f k fun hnone => ?_
        obtain ⟨-, hp, hv⟩ := skipRefusal_none hnone
        exact skipSlot_billsSound hp hv answered
      case zeroBelt =>
        refine answerRequest_billsSound f k fun hnone => ?_
        obtain ⟨-, hz, -, -, -, -, hfree⟩ := zeroRefusal_none hnone
        exact beginZero_billsSound hz hfree answered
      case zeroAbort => exact answerRequest_billsSound f k fun _ => endZero_billsSound _ _ answered
      case takeRecords =>
        unfold treatTakeRecords
        split
        · exact refused _
        · exact releaseRecords_billsSound _ (answerDone_billsSound f _ k)
      case ackAlarm =>
        rcases treatAckAlarm_cases f s with h | ⟨r, h⟩ | ⟨i, r, -, h⟩ <;> rw [h]
        · exact k
        · exact refused r
        · exact reportSource_billsSound answered.aside i
      case doneAlarm =>
        rcases treatDoneAlarm_cases f s with h | ⟨r, h⟩ | ⟨i, st, -, h⟩ <;> rw [h]
        · exact k
        · exact refused r
        · exact reportSource_billsSound answered.aside i
      case load =>
        rcases treatLoad_cases f s with ⟨r, h⟩ | ⟨l, effect, he, h⟩ <;> rw [h]
        · exact refused r
        · exact he.billsSound answered
      case setAlarm =>
        rcases treatSetAlarm_cases f s with h | ⟨r, h⟩ | ⟨l, effect, he, h⟩ <;> rw [h]
        · exact k
        · exact refused r
        · exact he.billsSound answered
      case forwarded => exact absurd (by cases p <;> decide) hb
      case dropped => exact absurd (by simp [treatmentBlocks]) hb
      all_goals exact absurd (by decide) hb

theorem expiredOrder_billsSound (d : InjDest) (o : InjOrder) {s : State} (k : BillsSound s) :
    BillsSound (expiredOrder d o s) := by
  unfold expiredOrder
  split
  · exact feederOutcome_billsSound k _ _
  · split
    · split
      · exact k.frame (faultSweep_changes s)
      · exact k
    · exact k

theorem Event.billsSound {s t : State} (h : Event s t) (k : BillsSound s) : BillsSound t := by
  cases h with
  | receiveError p x s hr hx => exact tallyUp_billsSound (s := setLinePort p x s) k.aside p
  | silence t s h hd => exact setMeterFault_billsSound (s := { s with meter := { s.meter with silence := none } }) k.aside
  | zeroTimeout z s h hd => exact endZero_billsSound _ _ k
  | sensorSilence i t s h hd =>
    exact reformBands_billsSound ((k.frame (setSensor_changes i _ s)).frame (silenceSensor_changes i _))
  | replyWindow d e s h hd => exact expiredOrder_billsSound d _ (k.frame (abandonOrder_changes d s))
  | stepTimeout w s h hd => exact k.frame (faultSweep_changes s)
  | stopAsserted s h hr =>
    have hswept := ((k.frame (setStopPin_changes true s)).frame (dismissHeldMove_changes .cancelled _)).frame
      (cancelSweep_changes _)
    exact BillsSound.aside (s := takeTrigger .stopInput (cancelSweep (dismissHeldMove .cancelled (setStopPin true s))))
      (takeTrigger_billsSound hswept _)
  | stopCleared s h hr => exact (k.frame (setStopPin_changes false s)).frame (setCond_changes _ _ _)
  | released s h => exact (coldReset_billsSound s).frame (endReset_changes _)
  | poweredOn s h => exact (coldReset_billsSound s).frame (endReset_changes _)

theorem Quiet.billsSound {s t : State} (h : Quiet s t) (k : BillsSound s) : BillsSound t := by
  rcases h.changes_or_resets with hc | hc
  · exact k.frame hc
  · rw [hc]
    exact (coldReset_billsSound s).frame (coldReset_pins_changes s _)

end Sys2Proof.Machine

open Sys2Proof Sys2Proof.Machine

/-- Settles O12. A reservation is taken as a visit enters its pour states or a ZERO operation begins, at a free place, and
given to the record that ends them (`completeVisit_billsSound`, `endZero_billsSound`). -/
theorem billsStaySound : Obligations.BillsStaySound := fun s t k hx =>
  step_keeps (P := BillsSound)
    (fun p row _ hrow s e rest _ k =>
      (hrow.billsSound e.frame (takeHead_billsSound k p e rest row)).frame (endEvent_changes _))
    (fun _ t he k => (he.billsSound k).frame (endEvent_changes t)) (fun _ _ hq k => hq.billsSound k) s t hx k

end

section
/-! Reset (R194, R195), the end of a sending (R181, R182) and the arithmetic of one sample (R9 to R11). -/

set_option Elab.async false

namespace Sys2Proof.Machine

/-! ## The state that a reset leaves -/

theorem resetLadder_toPresent : Ladder.reset.toPresent = none := by
  obtain ⟨-, -, hpresented, -⟩ := (ladderSound_iff _).1 resetLadder_sound
  exact hpresented.symm

/-- A state with every block but the inputs, the count, the draws and the queue at its reset values (R195). -/
def resetAt (x : Pins) (s : State) : State :=
  { State.reset with pins := x, now := s.now, draws := s.draws, pending := s.pending }

theorem coldReset_eq (s : State) : coldReset s = resetAt s.pins s := rfl

/-- The end of an event finds nothing to present, and no permit. -/
theorem endEvent_resetAt (x : Pins) (s : State) : endEvent (resetAt x s) = resetAt x s := by
  have hpermit : permitOf (resetAt x s) = false := permitOf_unconfigured rfl
  have hpresent : (resetAt x s).ladder.toPresent = none := resetLadder_toPresent
  unfold endEvent
  simp only [hpermit, hpresent]
  rfl

theorem endReset_resetAt {x : Pins} (h : x.stop = false) (s : State) : endReset (resetAt x s) = resetAt x s :=
  if_neg (by rw [show (resetAt x s).pins.stop = x.stop from rfl, h]; decide)

/-- With the STOP input asserted a reset ends with STOP_INPUT raised (R107, R195). -/
def stopPresented (x : Pins) (s : State) : State := raise srcStopInput (setCond srcStopInput true (resetAt x s))

theorem endReset_stop {x : Pins} (h : x.stop = true) (s : State) : endReset (resetAt x s) = stopPresented x s :=
  if_pos h

theorem stopPresented_toPresent (x : Pins) (s : State) :
    (stopPresented x s).ladder.toPresent = some (srcStopInput, 13) := by
  change ((raise srcStopInput (setCond srcStopInput true State.reset)).ladder).toPresent = some (srcStopInput, 13)
  decide +kernel

theorem stopPresented_ends (x : Pins) (s : State) :
    (endEvent (stopPresented x s)).pins = x
      ∧ (endEvent (stopPresented x s)).ladder.presented = some (srcStopInput, 13)
      ∧ (endEvent (stopPresented x s)).ladder.horn = true
      ∧ ((endEvent (stopPresented x s)).ladder.sources[srcStopInput]).state = .pending
      ∧ ((endEvent (stopPresented x s)).ladder.sources[srcStopInput]).cond = true
      ∧ (endEvent (stopPresented x s)).line.u.sending
          = some { dst := 0, src := 62, kind := 0x41, seq := 0, payload := [1, 1, 10, 13] }
      ∧ OnlyChanges [.pins, .clock, .draws, .queue, .present, .sources, .conds, .send .U] State.reset
          (endEvent (stopPresented x s)) := by
  have hpresent := stopPresented_toPresent x s
  have hladder := endEvent_ladder (stopPresented x s)
  rw [hpresent] at hladder
  have hpermit : permitOf (stopPresented x s) = false := permitOf_unconfigured rfl
  have hsource : (raise srcStopInput (setCond srcStopInput true State.reset)).ladder.sources[srcStopInput]
      = { Source.reset 10 with state := .pending, cond := true } := by decide +kernel
  refine ⟨by simp [stopPresented, resetAt], by rw [hladder], by rw [hladder]; rfl, ?_, ?_, ?_, fun b hb => ?_⟩
  · rw [hladder]
    exact congrArg Source.state hsource
  · rw [hladder]
    exact congrArg Source.cond hsource
  · unfold endEvent
    simp only [hpresent]
    rfl
  · by_cases hb' : b = .permit
    · subst hb'
      exact (endEvent_permitTrue (stopPresented x s)).trans
        ((permitOf_unconfigured (by rw [((endEvent_changes _).same .part).1]; rfl)))
    · have hreset : OnlyChanges [.pins, .clock, .draws, .queue] State.reset (resetAt x s) := by
        intro b hb
        cases b <;> simp_all [Same, resetAt]
      have hraised := (hreset.mono (ys := [.pins, .clock, .draws, .queue, .conds, .sources])).then
        (setCond_changes srcStopInput true _) |>.then (raise_changes srcStopInput _)
      have hended := (hraised.mono (ys := [.pins, .clock, .draws, .queue, .conds, .sources, .permit, .present,
        .send .U])).then (endEvent_changes (stopPresented x s))
      refine hended b ?_
      simp only [List.mem_cons, List.not_mem_nil, or_false, not_or] at hb ⊢
      tauto

/-! ## RESTART (R194) -/

/-- A RESTART that is not refused resets the part as it stood before the frame was taken. -/
theorem exec_restart {s : State} {e : RxEntry} {rest : List RxEntry} (h : Heads s .U .restart e rest)
    (hr : restartRefused s = false) : exec .restart s = .next (endEvent (endReset (resetAt s.pins s))) := by
  have htaken := takeHead_U e rest .restart s
  have hreset : coldReset (takeHead .U e rest .restart s) = resetAt s.pins s := by
    rw [coldReset, resetAt, (htaken.same .pins : _ = _), (htaken.same .clock : _ = _), (htaken.same .draws : _ = _),
      (htaken.same .queue : _ = _)]
  rw [Treatment.restart.exec_eq, takeFrame_of_heads treatRestart h, treatRestart, restartRefused_takeHead_U, hr, hreset]
  rfl

/-! ## The end of a sending (R181, R182) -/

theorem endSending_U {s : State} {f : Frame} (h : s.line.u.sending = some f) :
    (endSending .U s).line.u.sending = s.line.u.txQueue.head?
      ∧ (endSending .U s).line.u.txQueue = s.line.u.txQueue.tail
      ∧ (endSending .U s).line.d = s.line.d ∧ (endSending .U s).line.injection = s.line.injection
      ∧ (endSending .U s).line.injSeq = s.line.injSeq := by
  simp only [endSending, port_U, h, Option.isSome_some, if_true, Line.setPort, Line.begin]
  cases s.line.u.txQueue <;> simp

theorem endSending_D {s : State} {f : Frame} (h : s.line.d.sending = some f) :
    (endSending .D s).line.u = s.line.u ∧ (endSending .D s).line.injSeq = s.line.injSeq
      ∧ (∀ x xs, s.line.injection = x :: xs → (endSending .D s).line.d.sending = some x.frame
          ∧ (endSending .D s).line.injection = xs ∧ (endSending .D s).line.d.txQueue = s.line.d.txQueue)
      ∧ (s.line.injection = [] → (endSending .D s).line.d.sending = s.line.d.txQueue.head?
          ∧ (endSending .D s).line.d.txQueue = s.line.d.txQueue.tail ∧ (endSending .D s).line.injection = []) := by
  simp only [endSending, port_D, h, Option.isSome_some, if_true, Line.setPort, Line.begin]
  cases s.line.injection <;> cases s.line.d.txQueue <;> simp

/-! ## The arithmetic of one sample (R9 to R11) -/

theorem netLoad_natAbs (d : Int) (span : Nat) : (netLoad d span).natAbs = (d.natAbs * span + 128) / 256 := by
  unfold netLoad
  rcases lt_trichotomy d 0 with hd | hd | hd
  · rw [Int.sign_eq_neg_one_of_neg hd, neg_one_mul, Int.natAbs_neg, Int.natAbs_natCast]
  · subst hd
    simp
  · rw [Int.sign_eq_one_of_pos hd, one_mul, Int.natAbs_natCast]

theorem netLoad_nonneg {d : Int} (span : Nat) (h : 0 ≤ d) : 0 ≤ netLoad d span := by
  rcases h.eq_or_lt with rfl | hd
  · simp [netLoad]
  · rw [netLoad, Int.sign_eq_one_of_pos hd, one_mul]
    exact Int.natCast_nonneg _

theorem netLoad_nonpos {d : Int} (span : Nat) (h : d ≤ 0) : netLoad d span ≤ 0 := by
  rcases h.eq_or_lt with rfl | hd
  · simp [netLoad]
  · rw [netLoad, Int.sign_eq_neg_one_of_neg hd, neg_one_mul]
    exact Int.neg_nonpos_of_nonneg (Int.natCast_nonneg _)

theorem clampLoad_within {n : Int} {capacity : Nat} (h : n.natAbs ≤ capacity) : clampLoad n capacity = n := by
  simp [clampLoad, overloaded, Nat.not_lt.2 h]

theorem clampLoad_over {n : Int} {capacity : Nat} (h : (capacity : Int) < n) : clampLoad n capacity = capacity := by
  have hover : capacity < n.natAbs := by omega
  simp [clampLoad, overloaded, hover, Int.sign_eq_one_of_pos (show 0 < n by omega)]

theorem clampLoad_under {n : Int} {capacity : Nat} (h : n < -(capacity : Int)) :
    clampLoad n capacity = -(capacity : Int) := by
  have hover : capacity < n.natAbs := by omega
  simp [clampLoad, overloaded, hover, Int.sign_eq_neg_one_of_neg (show n < 0 by omega)]

end Sys2Proof.Machine

open Sys2Proof Sys2Proof.Machine

/-- Settles O4. -/
theorem resetValues : Obligations.ResetValues := by
  refine ⟨rfl, fun r => ?_, fun p => ?_, rfl, rfl, rfl, rfl, rfl, rfl, fun h => ?_, fun a => ?_, rfl, rfl, rfl, rfl, rfl,
    fun h => ?_, fun i => ?_, rfl, rfl, rfl, rfl, rfl, rfl, rfl, rfl, rfl, rfl, rfl, fun d => ?_, rfl, rfl, rfl, rfl,
    fun i => ?_, rfl, rfl, rfl, rfl, fun i => ?_, by decide +kernel, rfl, rfl, rfl, rfl, rfl, rfl, rfl, rfl, rfl, rfl,
    rfl, rfl, rfl, fun a => ?_⟩
  · cases r <;> simp [State.station, State.reset]
  · cases p <;> exact ⟨rfl, rfl, rfl, rfl, rfl, rfl⟩
  · simp [State.reset, Placement.reset]
  · cases a <;> rfl
  · simp [State.reset, Sequencer.reset]
  · simp [State.reset, Sequencer.reset]
  · cases d with
    | feeder => rfl
    | drive a => cases a <;> rfl
  · simp [State.reset, Dust.reset, Sensor.fresh]
  · simp [State.reset, Ladder.reset, Source.reset]
  · simp [State.reset, ShipAccount.reset]

/-- Settles O5. -/
theorem resetMeetsInvariants : Obligations.ResetMeetsInvariants :=
  ⟨(permitOf_unconfigured rfl).symm, fun _ => ⟨rfl, rfl, rfl⟩, coldReset_lineFaultTrue State.reset,
    coldReset_queuesBounded State.reset, flight_reset_ordered, coldReset_billsSound State.reset, resetLadder_sound,
    coldReset_injectionSound State.reset, (coldReset_grainSound State.reset).1, (coldReset_grainSound State.reset).2,
    rfl⟩

/-- Settles O6. -/
theorem resetLinesColdReset : Obligations.ResetLinesColdReset := by
  intro s
  have released : exec .resetReleased s
      = .next (if s.pins.reset then endEvent (endReset (resetAt ⟨false, s.pins.stop⟩ s)) else s) := rfl
  have powered : exec .powerOn s
      = .next (if s.pins.reset then resetAt s.pins s else endEvent (endReset (resetAt s.pins s))) := rfl
  have asserted : exec .resetAsserted s = .next (if s.pins.reset then s else resetAt ⟨true, s.pins.stop⟩ s) := rfl
  have pins : s.pins = ⟨s.pins.reset, s.pins.stop⟩ := rfl
  refine ⟨fun hr => ?_, fun hr hs => ?_, fun hr hs => ?_, fun hr => ⟨?_, ?_⟩, fun hr => ?_, fun hs c hc => ?_⟩
  · rw [asserted, hr]
    rfl
  · rw [released, hr, hs, if_pos rfl, endReset_resetAt rfl, endEvent_resetAt]
    rfl
  · rw [powered, endReset_resetAt hs, endEvent_resetAt, ite_self, pins, hr, hs]
    rfl
  · rw [asserted, hr]
    rfl
  · rw [powered, hr]
    rfl
  · rw [released, hr]
    rfl
  · refine ⟨endEvent (stopPresented ⟨false, true⟩ s), ?_, stopPresented_ends ⟨false, true⟩ s⟩
    rcases hc with ⟨rfl, hr⟩ | ⟨rfl, hr⟩
    · rw [released, hr, hs, if_pos rfl, endReset_stop rfl]
    · rw [powered, endReset_stop hs, pins, hr, hs]
      rfl

/-- Settles O7. -/
theorem restartResetsOrRefuses : Obligations.RestartResetsOrRefuses := by
  intro s e rest h
  refine ⟨fun hbusy => ?_, fun hphase hfeeder => ?_⟩
  · have hrefused : restartRefused (takeHead .U e rest .restart s) = true := by
      rw [restartRefused_takeHead_U, restartRefused_iff]
      exact hbusy
    have htreat : treatRestart e.frame (takeHead .U e rest .restart s)
        = answerRefused e.frame .busy (takeHead .U e rest .restart s) := if_pos hrefused
    refine takes_of (xs := [.send .U]) treatRestart h rfl ?_ (by decide) ?_
    · rw [htreat]
      exact answerRefused_changes _ _ _
    · rw [htreat]
      exact offered_answerRefused e rest _ _ s
  · have hrefused : restartRefused s = false := by
      rw [← Bool.not_eq_true, restartRefused_iff, hphase]
      simpa using hfeeder
    rw [exec_restart h hrefused]
    refine ⟨fun hr => ?_, fun hs => ?_⟩
    · change _ = Host.Outcome.next (if s.pins.reset then resetAt s.pins s else endEvent (endReset (resetAt s.pins s)))
      rw [hr]
      rfl
    · rw [endReset_resetAt hs, endEvent_resetAt]
      rfl

/-- Settles O19. -/
theorem transmitEndBeginsNext : Obligations.TransmitEndBeginsNext := by
  intro s f
  refine ⟨fun h => ?_, fun h => ?_⟩
  · obtain ⟨hsending, hqueue, hd, hinjection, hseq⟩ := endSending_U h
    refine ⟨endSending .U s, rfl, fun b hb => ?_, hsending, hqueue⟩
    have hc := endSending_changes .U s
    cases b with
    | send p => cases p <;> simp_all [Same]
    | injection => exact ⟨hinjection, hseq⟩
    | _ => exact hc _ (by simp)
  · obtain ⟨hu, hseq, hinjected, hnone⟩ := endSending_D h
    refine ⟨endSending .D s, rfl, fun b hb => ?_, hseq, hinjected, hnone⟩
    have hc := endSending_changes .D s
    cases b with
    | send p => cases p <;> simp_all [Same]
    | injection => simp at hb
    | _ => exact hc _ (by simp)

/-- Settles O24. -/
theorem netLoadArithmetic : Obligations.NetLoadArithmetic := by
  intro d span capacity deadBand t
  refine ⟨netLoad_natAbs d span, netLoad_nonneg span, netLoad_nonpos span, fun n => ⟨clampLoad_within, clampLoad_over,
    clampLoad_under, fun h0 hn => ?_, fun hn => if_neg (by omega), fun hn => if_pos hn, fun hn => if_neg (by omega)⟩⟩
  rw [acceptedLoad, if_pos hn, Int.toNat_of_nonneg h0]

end

section
/-! Which command a frame is (R177 to R179), by port, part state, kind and destination. -/

set_option Elab.async false

namespace Sys2Proof.Machine

/-! ## The inspector's rows -/

theorem addressed_iff (f : Frame) : f.addressed = true ↔ f.dst.toNat < 64 ∧ f.src.toNat < 64 := by
  simp [Frame.addressed]

theorem inspect_unaddressed {s : State} {p : PortId} {f : Frame} (h : ¬ (f.dst.toNat < 64 ∧ f.src.toNat < 64)) :
    inspect s p f = .forwardFrame p := by
  have hf : f.addressed = false := by rwa [← Bool.not_eq_true, addressed_iff]
  simp [inspect, hf]

theorem inspect_ready_U {s : State} {f : Frame} (h : f.dst.toNat < 64 ∧ f.src.toNat < 64) (hr : s.ready = true) :
    inspect s .U f = readyRowU s f := by simp [inspect, (addressed_iff f).2 h, hr]

theorem inspect_ready_D {s : State} {f : Frame} (h : f.dst.toNat < 64 ∧ f.src.toNat < 64) (hr : s.ready = true) :
    inspect s .D f = readyRowD f := by simp [inspect, (addressed_iff f).2 h, hr]

theorem inspect_unconfigured {s : State} {p : PortId} {f : Frame} (h : f.dst.toNat < 64 ∧ f.src.toNat < 64)
    (hr : s.ready = false) : inspect s p f = unconfiguredRow s p f := by simp [inspect, (addressed_iff f).2 h, hr]

/-- A REQUEST from port U to the own address is its request's row in either part state. -/
theorem inspect_request {s : State} {f : Frame} (h : f.dst.toNat < 64 ∧ f.src.toNat < 64) (hk : f.kind = kindRequest)
    (hg : f.dst ≠ addrGlobal) (ho : f.dst = s.handler.ownAddr) : inspect s .U f = requestRow f.payload := by
  cases hr : s.ready with
  | true => rw [inspect_ready_U h hr, readyRowU, if_pos hk, if_neg hg, if_pos ho]
  | false =>
    rw [inspect_unconfigured h hr, unconfiguredRow, if_pos hk, if_neg (by simp [hg]), if_pos ho]

/-! ## Rows that drop no REQUEST -/

theorem requestForm_ne_dropped {n : Nat} {x : Nat × Instr} (h : requestForm n = some x) (p : PortId) :
    x.2 ≠ .requestDropped p := by
  unfold requestForm at h
  split at h <;> first | (cases h; simp) | cases h

theorem requestRow_ne_dropped (bs : List Byte) (p : PortId) : requestRow bs ≠ .requestDropped p := by
  unfold requestRow
  split
  · simp
  · split
    · split <;> simp
    · split
      · simp
      next h =>
        split
        · exact requestForm_ne_dropped h p
        · simp

theorem feederOrderRow_ne_dropped (bs : List Byte) (p : PortId) : feederOrderRow bs ≠ .requestDropped p := by
  unfold feederOrderRow
  split <;> simp

theorem axisOrderRow_ne_dropped (bs : List Byte) (p : PortId) : axisOrderRow bs ≠ .requestDropped p := by
  unfold axisOrderRow
  split <;> simp

theorem globalOrderRow_ne_dropped (bs : List Byte) (p : PortId) : globalOrderRow bs ≠ .requestDropped p := by
  unfold globalOrderRow
  split
  · split_ifs <;> simp
  · simp

theorem sampleRow_ne_dropped (bs : List Byte) (p : PortId) : sampleRow bs ≠ .requestDropped p := by
  unfold sampleRow
  split <;> simp

theorem unconfiguredOrderRow_ne_dropped (f : Frame) (p : PortId) : unconfiguredOrderRow f ≠ .requestDropped p := by
  unfold unconfiguredOrderRow
  split
  · split_ifs <;> simp
  · simp

/-- The REQUESTs that are dropped (R177, R178): every one of port D, and those to the global address. -/
theorem inspect_dropped_iff (s : State) (p : PortId) (f : Frame) : inspect s p f = .requestDropped p ↔
    (f.dst.toNat < 64 ∧ f.src.toNat < 64) ∧ f.kind = kindRequest ∧ (p = .D ∨ f.dst = addrGlobal) := by
  by_cases hk : f.dst.toNat < 64 ∧ f.src.toNat < 64
  · cases hr : s.ready with
    | false =>
      rw [inspect_unconfigured hk hr, unconfiguredRow]
      split
      next hq =>
        split
        next hd => exact ⟨fun _ => ⟨hk, hq, hd⟩, fun _ => rfl⟩
        next hd =>
          split
          · simp [requestRow_ne_dropped, hd]
          · simp [hd]
      next hq =>
        split_ifs
        · simp [hq]
        · simp [hq, unconfiguredOrderRow_ne_dropped]
        · simp [hq]
    | true =>
      cases p with
      | U =>
        rw [inspect_ready_U hk hr, readyRowU]
        split
        next hq =>
          split
          next hd => exact ⟨fun _ => ⟨hk, hq, .inr hd⟩, fun _ => rfl⟩
          next hd =>
            split
            · simp [requestRow_ne_dropped, hd]
            · simp [hd]
        next hq =>
          split_ifs <;> simp [hq, globalOrderRow_ne_dropped, feederOrderRow_ne_dropped, axisOrderRow_ne_dropped]
      | D =>
        rw [inspect_ready_D hk hr, readyRowD]
        split
        next hq => simp [hk, hq]
        next hq => split_ifs <;> simp [hq, sampleRow_ne_dropped]
  · simp [inspect_unaddressed hk, hk]

/-! ## Samples by their payload (R179) -/

theorem byte_le_one {b : Byte} (h : b.toNat ≤ 1) : b = 0 ∨ b = 1 := by bv_omega
theorem byte_le_two {b : Byte} (h : b.toNat ≤ 2) : b = 0 ∨ b = 1 ∨ b = 2 := by bv_omega

theorem headOfByte_some {b : Byte} (h : b.toNat ≤ 1) : ∃ ok, headOfByte b = some ok := by
  rcases byte_le_one h with rfl | rfl <;> exact ⟨_, rfl⟩

theorem parseSample_belt (a b c d : Byte) {h : Byte} (hh : h.toNat ≤ 1) :
    ∃ load pos ok, parseSample [1, a, b, c, d, h] = some (.belt load pos ok) := by
  obtain ⟨ok, hok⟩ := headOfByte_some hh
  exact ⟨signed16 (beNat [a, b]), BitVec.ofNat 16 (beNat [c, d]), ok, by simp [parseSample, parseBelt, hok]⟩

theorem parseSample_position {x m : Byte} (a b c d : Byte) (hx : x.toNat ≤ 2) (hm : m.toNat ≤ 1) :
    ∃ ax n mo, parseSample [2, x, a, b, c, d, m] = some (.position ax n mo) := by
  obtain ⟨ax, hax⟩ : ∃ ax, Axis.ofByte x = some ax := by rcases byte_le_two hx with rfl | rfl | rfl <;> exact ⟨_, rfl⟩
  obtain ⟨mo, hmo⟩ : ∃ mo, Motion.ofByte m = some mo := by rcases byte_le_one hm with rfl | rfl <;> exact ⟨_, rfl⟩
  exact ⟨ax, beNat [a, b, c, d], mo, by simp [parseSample, parsePosition, hax, hmo]⟩

theorem parseSample_sense {r : Byte} (hr : r.toNat ≤ 2) : ∃ x, parseSample [3, r] = some (.holdsense x) := by
  rcases byte_le_two hr with rfl | rfl | rfl <;> exact ⟨_, rfl⟩

theorem parseSample_dust (a b : Byte) {h : Byte} (hh : h.toNat ≤ 1) :
    ∃ c ok, parseSample [4, a, b, h] = some (.dust c ok) := by
  obtain ⟨ok, hok⟩ := headOfByte_some hh
  exact ⟨beNat [a, b], ok, by simp [parseSample, parseDust, hok]⟩

theorem parseSample_feeder {x : Byte} (hx : x.toNat ≤ 2) : ∃ st, parseSample [5, x] = some (.feeder st) := by
  rcases byte_le_two hx with rfl | rfl | rfl <;> exact ⟨_, rfl⟩

/-- A SAMPLE taken from port D while the part is READY. -/
theorem inspect_sample {s : State} {f : Frame} (h : f.dst.toNat < 64 ∧ f.src.toNat < 64) (hr : s.ready = true)
    (hk : f.kind = 0x11) : inspect s .D f = sampleRow f.payload := by
  rw [inspect_ready_D h hr, readyRowD, hk]
  rfl

/-! ## The taking of a frame from its queue -/

theorem takeHead_rxQueue {s : State} {p : PortId} {row : Instr} {e : RxEntry} {rest : List RxEntry}
    (h : Heads s p row e rest) : ((takeHead p e rest row s).line.port p).rxQueue = rest := by
  by_cases hup : e.receipt = .overrun ∨ row = .requestDropped p
  · exact ((recvSide_eq_iff p _).1 (takeHead_up_recvSide p e rest row s hup)).2.1
  · exact ((recvSide_eq_iff p _).1 (takeHead_down_recvSide p e rest row s h.treated hup)).2.1

end Sys2Proof.Machine

open Sys2Proof Sys2Proof.Machine

/-- Settles O22. -/
theorem requestDropped : Obligations.RequestDropped := by
  refine ⟨fun s p e rest h => ?_, fun s p f => ?_⟩
  · refine takes_of (xs := []) (fun _ s => s) h rfl (OnlyChanges.refl _ _) (by simp) ?_
    have hended := endEvent_changes (takeHead p e rest (.requestDropped p) s)
    exact (hended.same (.recv p) (by cases p <;> decide)).2.1.trans (takeHead_rxQueue h)
  · refine ⟨inspect_unaddressed, inspect_dropped_iff s p f, fun hk hr => ⟨fun h => ?_, fun h => ?_, fun h1 h2 h3 => ?_⟩,
      fun hk hr => ⟨fun h ho => ?_, fun h hp => ?_, fun h hg ho => ?_, fun h hreply hrun hstop => ?_,
        fun b fs h hg hp => ?_⟩⟩
    · rw [inspect_ready_D hk hr, readyRowD, h]
      rfl
    · rw [inspect_sample hk hr h]
      refine ⟨fun a b c d x hp hx => ?_, fun x a b c d m hp hx hm => ?_, fun r hp hx => ?_, fun a b x hp hx => ?_,
        fun x hp hx => ?_, fun hn => ?_⟩
      · obtain ⟨_, _, _, hsample⟩ := parseSample_belt a b c d hx
        rw [hp, sampleRow, hsample]
      · obtain ⟨_, _, _, hsample⟩ := parseSample_position a b c d hx hm
        rw [hp, sampleRow, hsample]
      · obtain ⟨_, hsample⟩ := parseSample_sense hx
        rw [hp, sampleRow, hsample]
      · obtain ⟨_, _, hsample⟩ := parseSample_dust a b hx
        rw [hp, sampleRow, hsample]
      · obtain ⟨_, hsample⟩ := parseSample_feeder hx
        rw [hp, sampleRow, hsample]
      · rw [sampleRow, hn]
    · have hrequest : f.kind ≠ kindRequest := h1
      have hreply : f.kind ≠ kindReply := h2
      have hsample : f.kind ≠ kindSample := h3
      rw [inspect_ready_D hk hr, readyRowD, if_neg hrequest, if_neg hsample, if_neg hreply]
    · rw [inspect_unconfigured hk hr, unconfiguredRow, h, ho]
      simp [kindRequest, kindReply]
    · rw [inspect_unconfigured hk hr, unconfiguredRow, h]
      cases hfp : f.payload with
      | nil => simp [hfp] at hp
      | cons c fs =>
        obtain rfl : c = 1 := by simpa [hfp] using hp
        simp [kindRequest, kindReply, kindOrder, unconfiguredOrderRow, hfp]
    · have hrequest : f.kind = kindRequest := h
      have hglobal : ¬ (PortId.U = .D ∨ f.dst = addrGlobal) := by
        rintro (hp | hd)
        · cases hp
        · exact hg hd
      rw [inspect_unconfigured hk hr, unconfiguredRow, if_pos hrequest, if_neg hglobal, if_neg ho]
    · have hrow : inspect s p f = if p = .U ∧ f.kind = kindOrder then unconfiguredOrderRow f else .forwardFrame p := by
        rw [inspect_unconfigured hk hr, unconfiguredRow, if_neg (by exact h), if_neg (by exact hreply)]
      rw [hrow]
      split
      next hU =>
        obtain ⟨hp, hkind⟩ := hU
        unfold unconfiguredOrderRow
        split
        next c fs hfp =>
          split
          next hc => exact absurd ⟨hp, hkind, by simp [hfp, hc]⟩ hrun
          next =>
            split
            next hc =>
              obtain ⟨hc3, hdst, hlen⟩ := hc
              refine absurd ⟨hp, hkind, hdst, ?_⟩ hstop
              cases fs with
              | nil => simp at hlen
              | cons b bs => exact ⟨b, bs, by rw [hfp, hc3]⟩
            next => rw [hp]
        next => rw [hp]
      · rfl
    · rw [inspect_unconfigured hk hr, unconfiguredRow, h]
      simp [kindRequest, kindReply, kindOrder, unconfiguredOrderRow, hp, hg, addrGlobal]

end

section
/-! Frames refused by the inspector (R179, R180) and frames forwarded (R177, R181). -/

set_option Elab.async false

namespace Sys2Proof.Machine

/-! ## Requests and orders by code (R179, R186) -/

/-- A request code with its payload's length gives its command. -/
theorem requestRow_of_form {c : Byte} {n : Nat} {row : Instr} (fs : List Byte) (hc : c ≠ 1)
    (h : requestForm c.toNat = some (n, row)) : requestRow (c :: fs) = if fs.length = n then row else .badFrame := by
  simp only [requestRow, if_neg hc, h]

theorem requestForm_unknown {n : Nat} (h : n = 0 ∨ 19 < n) : requestForm n = none := by
  unfold requestForm
  split <;> first | omega | rfl

theorem requestRow_unknown {c : Byte} (fs : List Byte) (h : c = 0 ∨ 19 < c.toNat) :
    requestRow (c :: fs) = .badRequest := by
  have hform : requestForm c.toNat = none := requestForm_unknown (h.imp_left fun hc => by rw [hc]; rfl)
  have hc : c ≠ 1 := by rintro rfl; simp at h
  simp only [requestRow, if_neg hc, hform]

theorem requestRow_load_row (fs : List Byte) :
    requestRow (1 :: fs) = if loadHeaderFails fs || loadLengthHolds fs then .load else .badFrame := rfl

theorem parseOrder_unknown {c : Byte} (fs : List Byte) (h : c = 0 ∨ 5 < c.toNat) :
    parseOrder (c :: fs) = .unknownCode := by
  have hne (k : Byte) (hk : 1 ≤ k.toNat ∧ k.toNat ≤ 5) : c ≠ k := by
    rintro rfl
    rcases h with rfl | h
    · simp at hk
    · omega
  rw [parseOrder, if_neg (hne 1 (by decide)), if_neg (hne 2 (by decide)), if_neg (hne 3 (by decide)),
    if_neg (hne 4 (by decide)), if_neg (hne 5 (by decide))]

/-- The lengths of the five orders' payloads after their code. -/
def orderLengths : List (Byte × Nat) := [(1, 2), (2, 2), (3, 0), (4, 5), (5, 1)]

theorem feederOrderRow_known {c : Byte} {n : Nat} (fs : List Byte) (h : (c, n) ∈ orderLengths) :
    feederOrderRow (c :: fs) = if fs.length ≠ n then .badFrame
      else if c = 1 then .run else if c = 2 then .rate else if c = 3 then .stop else .forwardFrame .U := by
  simp only [orderLengths, List.mem_cons, Prod.mk.injEq, List.not_mem_nil, or_false] at h
  rcases h with ⟨rfl, rfl⟩ | ⟨rfl, rfl⟩ | ⟨rfl, rfl⟩ | ⟨rfl, rfl⟩ | ⟨rfl, rfl⟩ <;>
    simp only [feederOrderRow, parseOrder] <;> split_ifs <;> simp_all

theorem axisOrderRow_known {c : Byte} {n : Nat} (fs : List Byte) (h : (c, n) ∈ orderLengths) :
    axisOrderRow (c :: fs) = if fs.length ≠ n then .badFrame
      else if c = 4 then .move else if c = 5 then .halt else .forwardFrame .U := by
  simp only [orderLengths, List.mem_cons, Prod.mk.injEq, List.not_mem_nil, or_false] at h
  rcases h with ⟨rfl, rfl⟩ | ⟨rfl, rfl⟩ | ⟨rfl, rfl⟩ | ⟨rfl, rfl⟩ | ⟨rfl, rfl⟩ <;>
    simp only [axisOrderRow, parseOrder] <;> split_ifs <;> simp_all

theorem axisAt_isSome_iff (s : State) (addr : Byte) :
    (s.axisAt addr).isSome = true ↔ ∃ a : Axis, s.station a.role = some addr := by
  unfold State.axisAt
  constructor
  · intro h
    split_ifs at h with h1 h2 h3
    · exact ⟨.gantry, h1⟩
    · exact ⟨.shuttle, h2⟩
    · exact ⟨.chute, h3⟩
    · cases h
  · rintro ⟨a, ha⟩
    cases a <;> simp only [Axis.role] at ha <;> split_ifs <;> simp_all

/-! ## Orders of port U while the part is READY (R177) -/

section
variable {s : State} {f : Frame} (h : f.dst.toNat < 64 ∧ f.src.toNat < 64) (hr : s.ready = true)
include h hr

theorem inspect_order (hk : f.kind = kindOrder) : inspect s .U f = if f.dst = addrGlobal then globalOrderRow f.payload
    else if s.station .feeder = some f.dst then feederOrderRow f.payload
    else if (s.axisAt f.dst).isSome then axisOrderRow f.payload else .forwardFrame .U := by
  have hn : kindOrder ≠ kindRequest := by decide
  rw [inspect_ready_U h hr, readyRowU, hk, if_neg hn, if_pos rfl]

theorem inspect_feeder_order (hk : f.kind = kindOrder) (hg : f.dst ≠ addrGlobal)
    (hf : s.station .feeder = some f.dst) : inspect s .U f = feederOrderRow f.payload := by
  rw [inspect_order h hr hk, if_neg hg, if_pos hf]

theorem inspect_axis_order (hk : f.kind = kindOrder) (hg : f.dst ≠ addrGlobal)
    (hf : s.station .feeder ≠ some f.dst) (ha : ∃ a : Axis, s.station a.role = some f.dst) :
    inspect s .U f = axisOrderRow f.payload := by
  rw [inspect_order h hr hk, if_neg hg, if_neg hf, if_pos ((axisAt_isSome_iff s f.dst).2 ha)]

end

/-! ## Frames forwarded (R177, R181) -/

theorem otherPort_ne (p : PortId) : otherPort p ≠ p := by cases p <;> decide

/-- A full transmit queue drops what it is offered. -/
theorem offer_full {p : PortId} {f : Frame} {s : State} (h : (s.line.port p).room = false) : offer p f s = s := by
  simp [offer, Line.offer, h]

/-- A frame offered to a port that sends joins the tail. -/
theorem offer_sending {p : PortId} {f g : Frame} {s : State} (hr : (s.line.port p).room = true)
    (hs : (s.line.port p).sending = some g) : ((offer p f s).line.port p).sending = some g
      ∧ ((offer p f s).line.port p).txQueue = (s.line.port p).txQueue ++ [f] := by
  cases p <;> simp_all [offer, Line.offer, Line.begin]

/-- A frame offered to a free port with nothing waiting is begun at once. -/
theorem offer_begins {p : PortId} {f : Frame} {s : State} (hs : (s.line.port p).sending = none)
    (hq : (s.line.port p).txQueue = []) (hi : p = .D → s.line.injection = []) :
    ((offer p f s).line.port p).sending = some f := by
  have hr : (s.line.port p).room = true := by simp [Port.room, hq]
  cases p with
  | U => simp_all [offer, Line.offer, Line.begin]
  | D =>
    have := hi rfl
    simp_all [offer, Line.offer, Line.begin]

theorem offer_send_other {p q : PortId} {f : Frame} {s : State} (h : q ≠ p) : Same (.send q) s (offer p f s) := by
  cases p with
  | U => exact (offer_U f s).same (.send q) (by cases q <;> simp_all)
  | D => exact (offer_D f s).same (.send q) (by cases q <;> simp_all)

theorem offer_line_injSeq (p : PortId) (f : Frame) (s : State) : (offer p f s).line.injSeq = s.line.injSeq := by
  unfold offer Line.offer
  split
  · rw [begin_injSeq]
    cases p <;> rfl
  · rfl

theorem endEvent_injSeq (s : State) : (endEvent s).line.injSeq = s.line.injSeq :=
  ((endEvent_changes s).same .injection).2

/-- The end of an event sends at most a notice to port U; a full queue there drops it. -/
theorem endEvent_send_full {q : PortId} {s : State} (h : (s.line.port q).room = false) : Same (.send q) s (endEvent s) := by
  cases q with
  | D => exact (endEvent_changes s).same (.send .D)
  | U =>
    unfold endEvent
    simp only
    split
    · exact ⟨rfl, rfl⟩
    · rw [notice, offer_full (by exact h)]
      exact ⟨rfl, rfl⟩

/-- Without a change of the presented source the end of an event sends nothing (R130). -/
theorem endEvent_send_quiet {p : PortId} {s : State} (h : (endEvent s).ladder.presented = s.ladder.presented) :
    Same (.send p) s (endEvent s) := by
  rw [endEvent_ladder] at h
  unfold endEvent
  simp only
  rw [if_pos h]
  exact ⟨rfl, rfl⟩

theorem forward_full_order {p : PortId} {f : Frame} {s : State} (h : (s.line.port (otherPort p)).room = false)
    (hk : f.kind = kindOrder) : forward p f s = refuse p f .lineBusy s := by
  simp [forward, h, hk]

theorem forward_full_other {p : PortId} {f : Frame} {s : State} (h : (s.line.port (otherPort p)).room = false)
    (hk : f.kind ≠ kindOrder) : forward p f s = s := by
  simp [forward, h, hk]

theorem forward_room {p : PortId} {f : Frame} {s : State} (h : (s.line.port (otherPort p)).room = true) :
    forward p f s = offer (otherPort p) f s := by
  simp [forward, h]

end Sys2Proof.Machine

open Sys2Proof Sys2Proof.Machine

/-- Settles O23. -/
theorem badFramesRefused : Obligations.BadFramesRefused := by
  refine ⟨fun s row r e rest hrow h => ?_, fun s f hd hs => ?_⟩
  · have refused (h : Heads s .U row e rest) (hx : exec row s = .next (takeFrame .U row (fun f => refuse .U f r) s)) :
        Takes s .U row e rest [] fun t => Offered .U (refusalFrame s e.frame r) s t :=
      takes_of (xs := [.send .U]) (fun f => refuse .U f r) h hx (refuse_U _ r _) (by decide)
        (offered_refuse e rest row r s)
    rcases hrow with ⟨rfl, rfl⟩ | ⟨rfl, rfl⟩ | ⟨rfl, rfl⟩ <;> exact refused h rfl
  · have hk : f.dst.toNat < 64 ∧ f.src.toNat < 64 := ⟨hd, hs⟩
    refine ⟨fun hreq hg ho => ?_, fun hr hreq hg ho => ?_, fun hr hord hg => ?_, fun c fs n hr hord hg hp hmem => ?_,
      fun hr hord hg hst => ?_, fun hr hord hg hf ha => ?_, fun hr h1 h2 => ?_⟩
    · simp only [inspect_request hk hreq hg ho]
      refine ⟨fun hp => by rw [hp]; rfl, fun c fs hp => ?_⟩
      rw [hp]
      refine ⟨requestRow_unknown fs, fun hc => by rw [hc, requestRow_load_row], fun x hx hc => ?_⟩
      subst hc
      have hform : ∀ x ∈ ([(2, 2, .read), (3, 1, .status), (4, 5, .setOptions), (5, 2, .openShip), (6, 0, .closeShip),
          (7, 3, .startPlan), (8, 0, .haltPlan), (9, 0, .resumePlan), (10, 0, .skipSlot), (11, 0, .zeroBelt),
          (12, 0, .zeroAbort), (13, 5, .sweep), (14, 1, .ackAlarm), (15, 1, .doneAlarm), (16, 5, .setAlarm),
          (17, 5, .readRecords), (18, 4, .takeRecords), (19, 0, .restart)] : List (Byte × Nat × Instr)),
          x.1 ≠ 1 ∧ requestForm x.1.toNat = some x.2 := by decide
      exact requestRow_of_form fs (hform x hx).1 (hform x hx).2
    · have hrequest : f.kind = kindRequest := hreq
      have hglobal : f.dst ≠ addrGlobal := hg
      rw [inspect_ready_U hk hr, readyRowU, if_pos hrequest, if_neg hglobal, if_neg ho]
    · have hglobal : f.dst = addrGlobal := hg
      simp only [inspect_order hk hr hord, if_pos hglobal]
      refine ⟨fun hp => by rw [hp]; rfl, fun b fs hp => by rw [hp]; rfl, fun hp => ?_⟩
      cases hfp : f.payload with
      | nil => rfl
      | cons c fs =>
        have hc : c ≠ 3 := by simpa [hfp] using hp
        rw [globalOrderRow, if_neg hc]
    · have hglobal : f.dst ≠ addrGlobal := hg
      refine ⟨fun hf => ?_, fun hf ha => ?_⟩
      · rw [inspect_feeder_order hk hr hord hglobal hf, hp]
        exact feederOrderRow_known fs hmem
      · rw [inspect_axis_order hk hr hord hglobal hf ha, hp]
        exact axisOrderRow_known fs hmem
    · have hglobal : f.dst ≠ addrGlobal := hg
      have row : inspect s .U f = feederOrderRow f.payload ∨ inspect s .U f = axisOrderRow f.payload := by
        by_cases hf : s.station .feeder = some f.dst
        · exact .inl (inspect_feeder_order hk hr hord hglobal hf)
        · exact .inr (inspect_axis_order hk hr hord hglobal hf (hst.resolve_left hf))
      refine ⟨fun hp => ?_, fun c fs hp hc => ?_⟩
      · rcases row with h | h <;> rw [h, hp] <;> rfl
      · rcases row with h | h <;> rw [h, hp]
        · rw [feederOrderRow, parseOrder_unknown fs hc]
        · rw [axisOrderRow, parseOrder_unknown fs hc]
    · have hglobal : f.dst ≠ addrGlobal := hg
      have hnone : ¬ (s.axisAt f.dst).isSome = true := by
        rw [axisAt_isSome_iff]
        rintro ⟨a, h⟩
        exact ha a h
      rw [inspect_order hk hr hord, if_neg hglobal, if_neg hf, if_neg hnone]
    · have hrequest : f.kind ≠ kindRequest := h1
      have horder : f.kind ≠ kindOrder := h2
      rw [inspect_ready_U hk hr, readyRowU, if_neg hrequest, if_neg horder]

/-- Settles O21. -/
theorem frameForwarded : Obligations.FrameForwarded := by
  intro s p e rest h s1 q x
  refine takes_of (forward p) h rfl (forward_changes p e.frame s1)
    (fun b hb => List.mem_append_right _ hb) ?_
  intro y
  have hkeep := (endEvent_keeps (forward p e.frame s1)).1 q
  have hq : otherPort p = q := rfl
  refine ⟨fun hroom => ?_, ?_, fun g hroom hsending => ?_, fun hsending hqueue hinj => ?_, fun hfull => ?_,
    fun hfull hkind => ?_, fun hfull hkind => ?_⟩
  · rw [forward_room hroom]
    exact (offer_onWire q e.frame s1 hroom).endEvent
  · rw [endEvent_injSeq]
    unfold forward
    split
    · exact offer_line_injSeq _ _ _
    · split
      · exact offer_line_injSeq _ _ _
      · rfl
  · have hfwd : forward p e.frame s1 = offer q e.frame s1 := forward_room hroom
    obtain ⟨hs, ht⟩ := offer_sending (f := e.frame) hroom hsending
    rw [hfwd] at hkeep
    obtain ⟨hs', ht'⟩ := hkeep g hs
    rw [ht] at ht'
    change ((endEvent (forward p e.frame s1)).line.port q).sending = _ ∧ _ <+:
      ((endEvent (forward p e.frame s1)).line.port q).txQueue ∧ (_ →
        ((endEvent (forward p e.frame s1)).line.port q).txQueue = _)
    rw [hfwd]
    refine ⟨hs', ht', fun hD => Eq.trans ?_ ht⟩
    have hsame : Same (.send .D) (offer q e.frame s1) (endEvent (offer q e.frame s1)) :=
      (endEvent_changes _).same (.send .D)
    rw [hD] at hsame ⊢
    exact hsame.1
  · have hroom : x.room = true := by simp [Port.room, hqueue]
    have hfwd : forward p e.frame s1 = offer q e.frame s1 := forward_room hroom
    have hbegun := offer_begins (f := e.frame) hsending hqueue hinj
    rw [hfwd] at hkeep
    change ((endEvent (forward p e.frame s1)).line.port q).sending = _
    rw [hfwd]
    exact (hkeep e.frame hbegun).1
  · have hsent : Same (.send q) s1 (forward p e.frame s1) := by
      by_cases hkind : e.frame.kind = kindOrder
      · rw [forward_full_order hfull hkind]
        exact offer_send_other (otherPort_ne p)
      · rw [forward_full_other hfull hkind]
        exact Same.refl _ s1
    refine hsent.trans (endEvent_send_full ?_)
    rw [← hfull]
    simp only [Port.room, hsent.1, x, q]
  · intro hroom
    have hown : s1.handler.ownAddr = s.handler.ownAddr :=
      ((takeHead_changes p e rest _ s).same .options (by cases p <;> decide)).2.2.1
    rw [forward_full_order hfull hkind]
    have hwire := offer_onWire p (refusalFrame s1 e.frame .lineBusy) s1 hroom
    rw [show refusalFrame s e.frame .lineBusy = refusalFrame s1 e.frame .lineBusy by
      rw [refusalFrame, refusalFrame, hown]]
    exact hwire.endEvent
  · have hkept := forward_full_other hfull hkind
    refine ⟨?_, fun hp => ?_⟩
    · rw [hkept]
      exact (endEvent_changes s1).same .injection
    · rw [hkept] at hp ⊢
      rcases hp with rfl | hp
      · exact (endEvent_changes s1).same (.send .D)
      · exact endEvent_send_quiet hp

end

section
/-! The receiver (R169 to R175): a frame's wire bytes, and the three errors. -/

set_option Elab.async false

namespace Sys2Proof.Machine

/-! ## The judgement at a closing delimiter (R172) -/

/-- The length byte of gathered content. -/
def lengthByte (g : List Byte) : Nat := (g.getD 4 0).toNat

theorem judge_length {g : List Byte} (h : g.length < 7 ∨ 200 < lengthByte g ∨ g.length ≠ lengthByte g + 7) :
    judge g = .lengthError := by
  unfold judge
  split
  next d s k q l rest => exact if_pos h
  · rfl

/-- Content of the right length is judged by its last two bytes. -/
theorem judge_check {d s k q l : Byte} {rest : List Byte} (h : rest.length = l.toNat + 2) (hl : l.toNat ≤ 200) :
    judge (d :: s :: k :: q :: l :: rest)
      = if rest.drop l.toNat = beBytes 2 (crc (d :: s :: k :: q :: l :: rest.take l.toNat)).toNat
        then .good ⟨d, s, k, q, rest.take l.toNat⟩ else .checkError := by
  have hlength : byteOf (rest.take l.toNat).length = l := by
    rw [List.length_take, h, Nat.min_eq_left (by omega)]
    simp [byteOf]
  have hok : ¬ ((d :: s :: k :: q :: l :: rest).length < 7 ∨ 200 < l.toNat
      ∨ (d :: s :: k :: q :: l :: rest).length ≠ l.toNat + 7) := by
    simp only [List.length_cons, h]
    omega
  simp only [judge, if_neg hok, Frame.checkBytes, Frame.body, hlength]

theorem judge_checkError {g : List Byte} (h7 : 7 ≤ g.length) (hl : lengthByte g ≤ 200)
    (h : g.length = lengthByte g + 7)
    (hc : g.drop (g.length - 2) ≠ beBytes 2 (crc (g.take (g.length - 2))).toNat) : judge g = .checkError := by
  match g, h7, hl, h, hc with
  | d :: s :: k :: q :: l :: rest, h7, hl, h, hc =>
    have hrest : rest.length = l.toNat + 2 := by
      simp only [lengthByte, List.length_cons, List.getD_cons_succ, List.getD_cons_zero] at h
      omega
    have hcut : (d :: s :: k :: q :: l :: rest).length - 2 = l.toNat + 5 := by
      simp only [List.length_cons, hrest]
      omega
    rw [hcut] at hc
    rw [judge_check hrest hl]
    exact if_neg hc

/-- A frame's content is judged good. -/
theorem judge_content (f : Frame) (h : f.payload.length ≤ 200) : judge f.content = .good f := by
  have hbyte : (byteOf f.payload.length).toNat = f.payload.length := by
    simp only [byteOf, BitVec.toNat_ofNat]
    omega
  have hcheck : f.checkBytes.length = 2 := by simp [Frame.checkBytes]
  have hrest : (f.payload ++ f.checkBytes).length = (byteOf f.payload.length).toNat + 2 := by
    rw [List.length_append, hbyte, hcheck]
  have hcontent : f.content
      = f.dst :: f.src :: f.kind :: f.seq :: byteOf f.payload.length :: (f.payload ++ f.checkBytes) := by
    simp [Frame.content, Frame.body]
  rw [hcontent, judge_check hrest (by omega), hbyte, List.take_left, List.drop_left]
  exact if_pos rfl

/-! ## One byte (R172) -/

theorem gather_long {g : List Byte} (b : Byte) (h : g.length = 207) : gather g b = (.hunt, .lengthError) := by
  simp [gather, h]

theorem gather_joins {g : List Byte} (b : Byte) (h : g.length < 207) :
    gather g b = (.receiving (g ++ [b]) false, .quiet) := by
  simp only [gather, List.length_append, List.length_singleton]
  rw [if_neg (by omega)]

theorem unescaped_delimiter (b : Byte) : b ^^^ 0x40 = delimiter ↔ b = 0x85 := by
  unfold delimiter
  constructor
  · intro h
    rw [show b = (b ^^^ 0x40) ^^^ 0x40 by rw [BitVec.xor_assoc, BitVec.xor_self, BitVec.xor_zero], h]
    rfl
  · rintro rfl
    rfl

theorem unescaped_escape (b : Byte) : b ^^^ 0x40 = escapeByte ↔ b = 0x8A := by
  unfold escapeByte
  constructor
  · intro h
    rw [show b = (b ^^^ 0x40) ^^^ 0x40 by rw [BitVec.xor_assoc, BitVec.xor_self, BitVec.xor_zero], h]
    rfl
  · rintro rfl
    rfl

theorem rxByte_escaped (g : List Byte) (b : Byte) : rxByte (.receiving g true) b
    = if b = 0x85 ∨ b = 0x8A then gather g (b ^^^ 0x40) else (.hunt, .escapeError) := by
  simp only [rxByte, unescaped_delimiter, unescaped_escape]

theorem rxByte_plain {g : List Byte} {b : Byte} (hd : b ≠ delimiter) (he : b ≠ escapeByte) :
    rxByte (.receiving g false) b = gather g b := by
  simp only [rxByte, if_neg hd, if_neg he]

theorem rxByte_delimiter_length {g : List Byte} (hg : g ≠ []) (h : judge g = .lengthError) :
    rxByte (.receiving g false) delimiter = (.hunt, .lengthError) := by
  simp only [rxByte, if_pos, if_neg hg, h]

theorem rxByte_delimiter_judged {g : List Byte} (hg : g ≠ []) (h : judge g ≠ .lengthError) :
    rxByte (.receiving g false) delimiter = (.receiving [] false, judge g) := by
  simp only [rxByte, if_pos, if_neg hg]

/-! ## A frame's bytes (R169 to R173) -/

/-- A port whose receiver alone is changed. -/
def setRx (p : PortId) (rx : Receiver) (s : State) : State := setLinePort p { s.line.port p with rx := rx } s

theorem setRx_setRx (p : PortId) (a b : Receiver) (s : State) : setRx p b (setRx p a s) = setRx p b s := by
  cases p <;> rfl

theorem setRx_rx (p : PortId) (a : Receiver) (s : State) : ((setRx p a s).line.port p).rx = a := by
  cases p <;> rfl

theorem setRx_pins (p : PortId) (a : Receiver) (s : State) : (setRx p a s).pins = s.pins := rfl

theorem setRx_self (p : PortId) (s : State) : setRx p (s.line.port p).rx s = s := by
  cases p <;> rfl

theorem receiveByte_quiet {p : PortId} {s : State} {b : Byte} {rx rx' : Receiver} (hr : s.pins.reset = false)
    (h : rxByte rx b = (rx', .quiet)) : receiveByte p (setRx p rx s) b = setRx p rx' s := by
  rw [← setRx_setRx p rx rx']
  simp [receiveByte, hr, setRx, h]

theorem receiveByte_good {p : PortId} {s : State} {b : Byte} {rx rx' : Receiver} {f : Frame}
    (hr : s.pins.reset = false) (h : rxByte rx b = (rx', .good f)) :
    receiveByte p (setRx p rx s) b = setLinePort p (Port.enqueue { s.line.port p with rx := rx' } f) s := by
  cases p <;> simp [receiveByte, hr, setRx, h, setLinePort, Line.setPort, Line.port]

/-- The wire's one or two bytes of a content byte add that byte to what is gathered. -/
theorem receive_escapeOne {p : PortId} {s : State} {g : List Byte} (b : Byte) (hr : s.pins.reset = false)
    (hg : g.length < 207) : (escapeOne b).foldl (receiveByte p) (setRx p (.receiving g false) s)
      = setRx p (.receiving (g ++ [b]) false) s := by
  unfold escapeOne
  split
  next hb =>
    have hescape : rxByte (.receiving g false) escapeByte = (.receiving g true, .quiet) := rfl
    have hback : b ^^^ 0x40 ^^^ 0x40 = b := by rw [BitVec.xor_assoc, BitVec.xor_self, BitVec.xor_zero]
    have hunescape : rxByte (.receiving g true) (b ^^^ 0x40) = (.receiving (g ++ [b]) false, .quiet) := by
      simp only [rxByte, hback]
      rw [if_pos hb, gather_joins b hg]
    rw [List.foldl_cons, List.foldl_cons, List.foldl_nil, receiveByte_quiet hr hescape,
      receiveByte_quiet hr hunescape]
  next hb =>
    obtain ⟨hd, he⟩ := not_or.1 hb
    rw [List.foldl_cons, List.foldl_nil, receiveByte_quiet hr (by rw [rxByte_plain hd he, gather_joins b hg])]

theorem receive_content {p : PortId} {s : State} (bs : List Byte) {g : List Byte} (hr : s.pins.reset = false)
    (hg : g.length + bs.length ≤ 207) :
    (bs.flatMap escapeOne).foldl (receiveByte p) (setRx p (.receiving g false) s)
      = setRx p (.receiving (g ++ bs) false) s := by
  induction bs generalizing g with
  | nil => simp
  | cons b bs ih =>
    simp only [List.length_cons] at hg
    rw [List.flatMap_cons, List.foldl_append, receive_escapeOne b hr (by omega),
      ih (by simp only [List.length_append, List.length_singleton]; omega), List.append_assoc]
    rfl

theorem content_length (f : Frame) : f.content.length = f.payload.length + 7 := by
  simp [Frame.content, Frame.body, Frame.checkBytes]

/-- A frame's wire bytes, from HUNT or with nothing gathered, enqueue the frame. -/
theorem receive_wire {p : PortId} {f : Frame} {s : State} (hf : f.payload.length ≤ 200) (hr : s.pins.reset = false)
    (hrx : (s.line.port p).rx = .hunt ∨ (s.line.port p).rx = .receiving [] false) :
    f.wire.foldl (receiveByte p) s
      = setLinePort p (Port.enqueue { s.line.port p with rx := .receiving [] false } f) s := by
  have hopen : receiveByte p s delimiter = setRx p (.receiving [] false) s := by
    have h := receiveByte_quiet (p := p) (b := delimiter) (rx := (s.line.port p).rx) (rx' := .receiving [] false) hr
      (by rcases hrx with h | h <;> rw [h] <;> rfl)
    rwa [setRx_self] at h
  have hlength := content_length f
  have hne : f.content ≠ [] := by
    rw [← List.length_pos_iff_ne_nil, hlength]
    omega
  have hgood := judge_content f hf
  have hclose : rxByte (.receiving f.content false) delimiter = (.receiving [] false, .good f) := by
    rw [rxByte_delimiter_judged hne (by rw [hgood]; simp), hgood]
  rw [Frame.wire, List.foldl_cons, hopen, List.foldl_append, receive_content f.content hr (by simp; omega),
    List.nil_append, List.foldl_cons, List.foldl_nil, receiveByte_good hr hclose]

theorem enqueue_rxQueue (x : Port) (f : Frame) : (x.enqueue f).rxQueue
    = if x.rxQueue.length < 8 then x.rxQueue ++ [⟨f, .good⟩] else x.rxQueue.dropLast ++ [⟨f, .overrun⟩] := by
  unfold Port.enqueue
  split <;> rfl

/-! ## Errors (R172, R174, R175) -/

theorem tallyUp_enters {p : PortId} {s : State} (hl : (s.line.port p).lineFault = false)
    (ht : s.handler.threshold ≤ min ((s.line.port p).tally + 1) 255) : tallyUp p s
      = enterLineFault p (setLinePort p { s.line.port p with tally := min ((s.line.port p).tally + 1) 255 } s) := by
  unfold tallyUp lineFaultTest
  rw [if_pos]
  simp [hl, ht]

/-- A port whose own fields alone differ enters LINE FAULT alike. -/
theorem EntersLineFault.of_port {p : PortId} {x : Port} {s t : State} (h : EntersLineFault p (setLinePort p x s) t) :
    EntersLineFault p s t := by
  obtain ⟨hfault, hsource, hreach⟩ := h
  refine ⟨hfault, hsource, fun hp => ?_⟩
  subst hp
  exact (hreach rfl).congr rfl rfl rfl rfl rfl rfl rfl rfl rfl rfl rfl fun hz => ⟨hz, rfl, rfl⟩

theorem tallyUp_lineFaultBlocks (p : PortId) (s : State) : OnlyChanges (lineFaultBlocks p) s (tallyUp p s) := by
  cases p with
  | U => exact tallyUp_U s
  | D => exact tallyUp_changes .D s

end Sys2Proof.Machine

open Sys2Proof Sys2Proof.Machine

/-- Settles O17. -/
theorem receiveGoodFrame : Obligations.ReceiveGoodFrame := by
  intro p f s hf hr hrx
  refine ⟨setLinePort p (Port.enqueue { s.line.port p with rx := .receiving [] false } f) s,
    congrArg _ (receive_wire hf hr hrx), setLinePort_recv p _ s (by simp) (by simp), by simp, ?_, by simp, by simp⟩
  simp [enqueue_rxQueue]

/-- Settles O18. Every error drops what was gathered and steps the tally, and the step to the threshold enters LINE
FAULT. -/
theorem receiveErrors : Obligations.ReceiveErrors := by
  intro p s b hr x enters Dropped len
  have dropped {rx : Receiver} {ev : RxEvent} (h : rxByte x.rx b = (rx, ev))
      (herr : ev = .escapeError ∨ ev = .lengthError ∨ ev = .checkError) : Dropped rx := by
    set u := setLinePort p { s.line.port p with rx := rx } s with hu
    have hrecv := (recvSide_eq_iff p _).1 (tallyUp_recvSide p u)
    have hport : u.line.port p = { s.line.port p with rx := rx } := by simp [hu]
    have hthreshold : u.handler.threshold = s.handler.threshold := rfl
    rw [hport, hthreshold] at hrecv
    obtain ⟨hrx, hqueue, htally, hfault⟩ := hrecv
    have hblocks : OnlyChanges (lineFaultBlocks p) s (tallyUp p u) := by
      have hset := setLinePort_recv p { s.line.port p with rx := rx } s rfl rfl
      exact (hset.mono (by cases p <;> decide)).trans (tallyUp_lineFaultBlocks p u)
    have hended := endEvent_changes (tallyUp p u)
    have hsame (q : PortId) : Same (.recv q) (tallyUp p u) (endEvent (tallyUp p u)) := hended.same_recv q
    obtain ⟨hrx', hqueue', htally', hfault'⟩ := hsame p
    have hexec : exec (.receiveFrame p [b]) s = .next (endEvent (tallyUp p u)) := by
      have hev : rxByte (s.line.port p).rx b = (rx, ev) := h
      change Host.Outcome.next (receiveByte p s b) = _
      rw [receiveByte_error hr (by rw [hev]; exact herr), hev]
    refine ⟨_, hexec, (hblocks.mono (fun b hb => List.mem_append_right _ hb)).trans
      (hended.mono fun b hb => List.mem_append_left _ hb), hrx'.trans hrx, hqueue'.trans hqueue, htally'.trans htally,
      hfault'.trans hfault, ?_, fun hent => ?_, fun hnot => ?_⟩
    · exact Same.trans (hblocks.same (.recv (otherPort p)) (by cases p <;> decide)) (hsame _)
    · have henters : EntersLineFault p s (tallyUp p u) := by
        have hup := tallyUp_enters (p := p) (s := u) (by rw [hport]; exact hent.1)
          (by rw [hport, hthreshold]; exact hent.2)
        rw [hup]
        exact (enterLineFault_enters p _).of_port.of_port
      exact henters.closes (endEvent_closes _) hfault'
    · have hquiet := tallyUp_quiet (p := p) (s := u) (by rw [hport, hthreshold]; exact hnot)
      have hset := setLinePort_recv p { s.line.port p with rx := rx } s rfl rfl
      have hstep : OnlyChanges [.recv p] u (tallyUp p u) := by
        rw [hquiet]
        exact setLinePort_recv p _ u rfl rfl
      exact ((hset.trans hstep).mono fun b hb => List.mem_append_right _ hb).trans
        (hended.mono fun b hb => List.mem_append_left _ hb)
  refine ⟨fun g hx h1 h2 => ?_, fun g hx hg h1 h2 => ?_, fun g hx hg hb => ?_, fun g hx hg hb hlen => ?_,
    fun g hx hb h7 hl hlen hc => ?_⟩
  · exact dropped (ev := .escapeError) (by rw [hx, rxByte_escaped, if_neg (by tauto)]) (by simp)
  · exact dropped (ev := .lengthError) (by rw [hx, rxByte_plain h1 h2, gather_long b hg]) (by simp)
  · exact dropped (ev := .lengthError) (by rw [hx, rxByte_escaped, if_pos hb, gather_long _ hg]) (by simp)
  · subst hb
    exact dropped (ev := .lengthError) (by rw [hx]; exact rxByte_delimiter_length hg (judge_length hlen)) (by simp)
  · subst hb
    have hcheck := judge_checkError h7 hl hlen hc
    have hne : g ≠ [] := by
      rw [← List.length_pos_iff_ne_nil]
      omega
    refine dropped (ev := .checkError) ?_ (by simp)
    rw [hx, ← hcheck]
    exact rxByte_delimiter_judged hne (by rw [hcheck]; simp)

end

section
/-! Samples that no block takes (R3, R42, R43, R90, R112), the moves of the placement state (R46, R47) and the start and
the abort of a ZERO operation (R19, R22). -/

set_option Elab.async false

namespace Sys2Proof.Machine

/-! ## Which frames are samples -/

/-- A row of port D that is no forwarding, no dropping and no reply is a sample's, in a READY part (R177, R178). -/
theorem inspect_D_sample {s : State} {f : Frame} {row : Instr} (h : inspect s .D f = row) (hf : row ≠ .forwardFrame .D)
    (hq : row ≠ .requestDropped .D) (hp : row ≠ .reply) :
    s.ready = true ∧ f.kind = kindSample ∧ sampleRow f.payload = row := by
  subst h
  by_cases ha : f.dst.toNat < 64 ∧ f.src.toNat < 64
  · cases hr : s.ready with
    | false =>
      rw [inspect_unconfigured ha hr, unconfiguredRow] at hf hq hp
      split_ifs at hf hq hp <;> simp_all
    | true =>
      rw [inspect_ready_D ha hr, readyRowD] at hf hq hp ⊢
      split_ifs at hf hq hp ⊢ <;> simp_all
  · exact absurd (inspect_unaddressed ha) hf

theorem kindSample_ne_order {f : Frame} (h : f.kind = kindSample) : f.kind ≠ kindOrder := by
  rw [h]
  decide

theorem sampleRow_belt {bs : List Byte} (h : sampleRow bs = .beltSample) :
    ∃ load pos ok, parseSample bs = some (.belt load pos ok) := by
  unfold sampleRow at h
  split at h <;> simp_all

theorem sampleRow_holdsense {bs : List Byte} (h : sampleRow bs = .holdsenseSample) :
    ∃ r, parseSample bs = some (.holdsense r) := by
  unfold sampleRow at h
  split at h <;> simp_all

theorem sampleRow_dust {bs : List Byte} (h : sampleRow bs = .dustSample) :
    ∃ c ok, parseSample bs = some (.dust c ok) := by
  unfold sampleRow at h
  split at h <;> simp_all

theorem sampleRow_feeder {bs : List Byte} (h : sampleRow bs = .feederSample) :
    ∃ st, parseSample bs = some (.feeder st) := by
  unfold sampleRow at h
  split at h <;> simp_all

/-! ## Forwarding a sample -/

/-- A frame forwarded from port D is offered to port U. -/
theorem forward_D_offered (f : Frame) (s : State) : Offered .U f s (endEvent (forward .D f s)) := by
  intro hroom
  have hforward : forward .D f s = offer .U f s := if_pos hroom
  rw [hforward]
  exact (offer_onWire .U f s hroom).endEvent

theorem takeHead_D_station (e : RxEntry) (rest : List RxEntry) (row : Instr) (s : State) (r : Role) :
    (takeHead .D e rest row s).station r = s.station r :=
  congrArg (fun v => v[r.index]) ((takeHead_changes .D e rest row s).same .stations : _ = _)

theorem fromRole_iff (s : State) (r : Role) (f : Frame) : s.fromRole r f = true ↔ s.station r = some f.src := by
  simp [State.fromRole]

/-- A sample whose treatment is its forwarding alone. -/
theorem takes_passed {s : State} {row : Instr} {e : RxEntry} {rest : List RxEntry} {treat : Frame → State → State}
    (h : Heads s .D row e rest) (htreat : Treatment .D row treat) (hk : e.frame.kind = kindSample)
    (ht : treat e.frame (takeHead .D e rest row s) = forward .D e.frame (takeHead .D e rest row s)) :
    Takes s .D row e rest [.send .U] fun t => Offered .U e.frame (takeHead .D e rest row s) t := by
  refine takes_of (xs := [.send .U]) treat h (htreat.exec_eq s) ?_ (by decide) ?_
  · rw [ht]
    exact forward_D_changes _ _ (kindSample_ne_order hk)
  · rw [ht]
    exact forward_D_offered _ _

/-- A sample from another address than its role's. -/
theorem fromRole_taken_false {s : State} {e : RxEntry} (rest : List RxEntry) (row : Instr) {r : Role}
    (h : s.station r ≠ some e.frame.src) : (takeHead .D e rest row s).fromRole r e.frame = false := by
  rw [← Bool.not_eq_true, fromRole_iff, takeHead_D_station]
  exact h

theorem takeHead_D_sensors (e : RxEntry) (rest : List RxEntry) (row : Instr) (s : State) :
    (takeHead .D e rest row s).dust.sensors = s.dust.sensors := (takeHead_changes .D e rest row s).same .sensors

theorem sensorAt_some {s : State} {a : Byte} {i : SensorNo} (h : s.sensorAt a = some i) : s.station (.dust i) = some a := by
  simpa using List.find?_some h

theorem takeHead_D_sensorAt (e : RxEntry) (rest : List RxEntry) (row : Instr) (s : State) (a : Byte) :
    (takeHead .D e rest row s).sensorAt a = s.sensorAt a := by
  simp only [State.sensorAt, takeHead_D_station]

/-- A DUST sample of no sensor that is loaded and enabled is forwarded alone (R112). -/
theorem treatDust_passed {s : State} {f : Frame} {c : Nat} {ok : Bool} (hparse : parseSample f.payload = some (.dust c ok))
    (h : ∀ (i : SensorNo) (en : SensorEntry), s.station (.dust i) = some f.src →
      (s.dust.sensors[i]).entry = some en → en.enabled = false) : treatDust f s = forward .D f s := by
  have htaken : ∀ x, s.sensorAt f.src = x → (match x with
      | none => s
      | some i =>
        match (s.dust.sensors[i]).entry with
        | some e => if e.enabled then takeDust i e c ok s else s
        | none => s) = s := by
    intro x hx
    cases x with
    | none => rfl
    | some i =>
      change (match (s.dust.sensors[i]).entry with
        | some e => if e.enabled then takeDust i e c ok s else s
        | none => s) = s
      split
      next en hen =>
        have hoff : en.enabled = false := h i en (sensorAt_some hx) hen
        rw [hoff]
        rfl
      · rfl
  simp only [treatDust, hparse]
  exact congrArg (forward .D f) (htaken _ rfl)

/-! ## The moves of the placement state that leave a hold (R46) -/

theorem nextPlace_placed_other (t : TravelTable) {h : Hold} {c : Option Hold} (hc : c ≠ some h) :
    nextPlace t (.placed h) c = if t.leaveCount ≤ 1 then .clear else .leaving h 1 := if_neg hc

theorem nextPlace_leaving_other (t : TravelTable) {h : Hold} (n : Nat) {c : Option Hold} (hc : c ≠ some h) :
    nextPlace t (.leaving h n) c = if t.leaveCount ≤ n + 1 then .clear else .leaving h (n + 1) := if_neg hc

/-! ## The request that a command takes (R177, R179, R186) -/

/-- The code of the request that a command takes, LOAD apart. -/
def requestCode : Instr → Option Byte
  | .read => some 2
  | .status => some 3
  | .setOptions => some 4
  | .openShip => some 5
  | .closeShip => some 6
  | .startPlan => some 7
  | .haltPlan => some 8
  | .resumePlan => some 9
  | .skipSlot => some 10
  | .zeroBelt => some 11
  | .zeroAbort => some 12
  | .sweep => some 13
  | .ackAlarm => some 14
  | .doneAlarm => some 15
  | .setAlarm => some 16
  | .readRecords => some 17
  | .takeRecords => some 18
  | .restart => some 19
  | _ => none

theorem requestForm_code {c : Byte} {n : Nat} {row : Instr} (h : requestForm c.toNat = some (n, row)) :
    requestCode row = some c := by
  have code (k : Nat) (hk : c.toNat = k) (hlt : k < 256) : BitVec.ofNat 8 k = c := by
    rw [← hk]
    simp
  unfold requestForm at h
  split at h <;> first | (cases h; exact congrArg some (code _ (by assumption) (by decide))) | cases h

/-- A request's row that is none of the inspector's own and no LOAD has that row's code. -/
theorem requestRow_code {bs : List Byte} {c : Byte} (h : requestCode (requestRow bs) = some c) :
    ∃ fs n, bs = c :: fs ∧ requestForm c.toNat = some (n, requestRow bs) ∧ fs.length = n := by
  cases bs with
  | nil => cases h
  | cons b fs =>
    by_cases hb : b = 1
    · have hrow : requestRow (b :: fs) = .load ∨ requestRow (b :: fs) = .badFrame := by
        rw [requestRow, if_pos hb]
        split
        · exact .inl rfl
        · exact .inr rfl
      rcases hrow with hrow | hrow <;> rw [hrow] at h <;> cases h
    · cases hform : requestForm b.toNat with
      | none =>
        rw [requestRow, if_neg hb, hform] at h
        cases h
      | some x =>
        obtain ⟨n, row⟩ := x
        have hrow := requestRow_of_form fs hb hform
        by_cases hn : fs.length = n
        · rw [if_pos hn] at hrow
          rw [hrow, requestForm_code hform] at h
          obtain rfl := Option.some.inj h
          exact ⟨fs, n, rfl, by rw [hrow, hform], hn⟩
        · rw [hrow, if_neg hn] at h
          cases h

theorem requestCode_globalOrderRow (bs : List Byte) : requestCode (globalOrderRow bs) = none := by
  unfold globalOrderRow
  split
  · split_ifs <;> rfl
  · rfl

theorem requestCode_feederOrderRow (bs : List Byte) : requestCode (feederOrderRow bs) = none := by
  unfold feederOrderRow
  split <;> rfl

theorem requestCode_axisOrderRow (bs : List Byte) : requestCode (axisOrderRow bs) = none := by
  unfold axisOrderRow
  split <;> rfl

theorem requestCode_unconfiguredOrderRow (f : Frame) : requestCode (unconfiguredOrderRow f) = none := by
  unfold unconfiguredOrderRow
  split
  · split_ifs <;> rfl
  · rfl

/-- A frame of port U that a request's command takes is that request. -/
theorem inspect_U_request {s : State} {f : Frame} {c : Byte} (h : requestCode (inspect s .U f) = some c) :
    requestRow f.payload = inspect s .U f := by
  have hforward : requestCode (.forwardFrame .U) ≠ some c := by simp [requestCode]
  have hdropped : requestCode (.requestDropped .U) ≠ some c := by simp [requestCode]
  by_cases ha : f.dst.toNat < 64 ∧ f.src.toNat < 64
  · cases hr : s.ready with
    | false =>
      rw [inspect_unconfigured ha hr, unconfiguredRow] at h ⊢
      split_ifs at h ⊢
      all_goals first | rfl | exact absurd h hforward | exact absurd h hdropped | skip
      · rw [requestCode_unconfiguredOrderRow] at h
        cases h
    | true =>
      rw [inspect_ready_U ha hr, readyRowU] at h ⊢
      split_ifs at h ⊢
      all_goals first | rfl | exact absurd h hforward | exact absurd h hdropped | skip
      · rw [requestCode_globalOrderRow] at h
        cases h
      · rw [requestCode_feederOrderRow] at h
        cases h
      · rw [requestCode_axisOrderRow] at h
        cases h
  · rw [inspect_unaddressed ha] at h
    exact absurd h hforward

/-- The payload of a request at the head of port U's queue: its code and as many bytes as it requires. -/
theorem Heads.request {s : State} {row : Instr} {e : RxEntry} {rest : List RxEntry} {c : Byte} (h : Heads s .U row e rest)
    (hc : requestCode row = some c) :
    ∃ fs n, e.frame.payload = c :: fs ∧ requestForm c.toNat = some (n, row) ∧ fs.length = n := by
  have hrow : inspect s .U e.frame = row := h.2
  have hreq : requestRow e.frame.payload = row := by
    rw [← hrow] at hc
    rw [inspect_U_request hc, hrow]
  rw [← hreq] at hc
  have hcode := requestRow_code hc
  rwa [hreq] at hcode

theorem Heads.code {s : State} {row : Instr} {e : RxEntry} {rest : List RxEntry} {c : Byte} (h : Heads s .U row e rest)
    (hc : requestCode row = some c) : payloadCode e.frame = c := by
  obtain ⟨fs, -, hp, -, -⟩ := h.request hc
  rw [payloadCode, hp]
  rfl

/-! ## How a request is answered -/

theorem raise_same (i : SourceNo) (s : State) :
    (raise i s).ladder.sources[i] = (s.ladder.sources[i]).raised := by
  obtain ⟨-, -, -, -, -, -, -, -, -, -, -, hladder, -⟩ := raise_fields i s
  rw [hladder, put_source, if_pos rfl]

theorem enterLineFault_U_source (s : State) : LeavesSources [srcLineFault .U] s (enterLineFault .U s) := by
  have hset : LeavesSources [srcLineFault .U] s (setLinePort .U { s.line.port .U with lineFault := true } s) := .ladder
  exact hset.trans ((setCond_source _ true _).trans (raise_source _ _))

theorem leaveLineFault_U_source (s : State) : LeavesSources [srcLineFault .U] s (leaveLineFault .U s) := by
  have hset : LeavesSources [srcLineFault .U] s (setLinePort .U { s.line.port .U with lineFault := false } s) := .ladder
  exact hset.trans (setCond_source _ false _)

theorem tallyUp_U_source (s : State) : LeavesSources [srcLineFault .U] s (tallyUp .U s) := by
  unfold tallyUp lineFaultTest
  split
  · exact (LeavesSources.ladder).trans (enterLineFault_U_source _)
  · exact .ladder

theorem tallyDown_U_source (s : State) : LeavesSources [srcLineFault .U] s (tallyDown .U s) := by
  unfold tallyDown
  simp only
  split
  · exact (LeavesSources.ladder).trans (leaveLineFault_U_source _)
  · exact .ladder

/-- The taking of a frame of port U leaves every source but that port's LINE FAULT. -/
theorem takeHead_U_source (e : RxEntry) (rest : List RxEntry) (row : Instr) (s : State) :
    LeavesSources [srcLineFault .U] s (takeHead .U e rest row s) := by
  unfold takeHead takingStep
  split
  · exact (LeavesSources.ladder).trans (tallyUp_U_source _)
  · exact (LeavesSources.ladder).trans (tallyUp_U_source _)
  · exact (LeavesSources.ladder).trans (tallyDown_U_source _)

theorem refuseRequest_billFull (f : Frame) (s : State) :
    refuseRequest f .billFull s = raise srcBillFull (answerRefused f .billFull s) := rfl

theorem refuseRequest_other {r : Reason} (f : Frame) (s : State) (h : r ≠ .billFull) :
    refuseRequest f r s = answerRefused f r s := if_neg h

/-- A refused request is answered with its reason; BILL_FULL raises its alarm (R142, R143). -/
theorem takes_requestRefused {s : State} {row : Instr} {e : RxEntry} {rest : List RxEntry}
    {treat : Frame → State → State} {r : Reason} {xs : List Byte} (h : Heads s .U row e rest)
    (htreat : Treatment .U row treat) (hxs : xs = [payloadCode e.frame, 1, r.code])
    (ht : treat e.frame (takeHead .U e rest row s) = refuseRequest e.frame r (takeHead .U e rest row s)) :
    Takes s .U row e rest (if r = .billFull then [.sources] else []) fun t =>
      Offered .U (answerFrame s e.frame xs) s t
        ∧ (r = .billFull → t.ladder.sources[srcBillFull] = (s.ladder.sources[srcBillFull]).raised) := by
  subst hxs
  have hanswered := offered_answerRefused e rest row r s
  by_cases hr : r = .billFull
  · subst hr
    refine takes_of (xs := [.send .U, .sources]) treat h (htreat.exec_eq s) ?_ (by decide) ⟨fun hroom => ?_, fun _ => ?_⟩
    · rw [ht]
      exact refuseRequest_changes _ _ _
    · rw [ht, refuseRequest_billFull]
      have honWire := offer_taken e rest row (answerFrame s e.frame [payloadCode e.frame, 1, Reason.billFull.code]) s hroom
      refine OnWire.endEvent (OnWire.same ?_ ((raise_changes srcBillFull _).same (.send .U)))
      simpa [answerRefused, answerFrame] using honWire
    · have hkept : (takeHead .U e rest row s).ladder.sources[srcBillFull] = s.ladder.sources[srcBillFull] :=
        takeHead_U_source e rest row s srcBillFull (by decide)
      have hraised : (raise srcBillFull (answerRefused e.frame .billFull (takeHead .U e rest row s))).ladder.sources[srcBillFull]
          = ((answerRefused e.frame .billFull (takeHead .U e rest row s)).ladder.sources[srcBillFull]).raised := by
        rw [raise_same]
      rw [ht, refuseRequest_billFull, (endEvent_changes _).sources, hraised, (answerRefused_changes _ _ _).sources, hkept]
  · rw [if_neg hr]
    refine takes_of (xs := [.send .U]) treat h (htreat.exec_eq s) ?_ (by decide) ⟨?_, fun hf => absurd hf hr⟩
    · rw [ht, refuseRequest_other _ _ hr]
      exact answerRefused_changes _ _ _
    · rw [ht, refuseRequest_other _ _ hr]
      exact hanswered

/-! ## ZERO_BELT, ZERO_ABORT (R19, R22) -/

theorem free_eq_zero_iff (b : BillStore) : b.free = 0 ↔ ¬ b.records.length + b.reserved < 256 := by
  unfold BillStore.free
  omega

/-- Nothing stands against a ZERO operation but the place of its record (R19). -/
def ZeroIdle (s : State) : Prop :=
  s.meter.zero = none ∧ s.gate.feeder = .stopped ∧ s.flight.segments = [] ∧ s.visitPours = false ∧ s.meter.fault = false

theorem zeroBusy_iff (s : State) : (s.meter.zero.isSome || s.gate.feeder != .stopped || !s.flight.segments.isEmpty
    || s.visitPours || s.meter.fault) = true ↔ ¬ ZeroIdle s := by
  have hidle : (s.meter.zero.isSome || s.gate.feeder != .stopped || !s.flight.segments.isEmpty || s.visitPours
      || s.meter.fault) = false ↔ ZeroIdle s := by
    simp [ZeroIdle, and_assoc]
  rw [← hidle, Bool.not_eq_false]

theorem zeroRefusal_notReady {s : State} (h : s.ready = false) : zeroRefusal s = some .notReady := by
  simp [zeroRefusal, h]

theorem zeroRefusal_busy {s : State} (hr : s.ready = true) (h : ¬ ZeroIdle s) : zeroRefusal s = some .busy := by
  rw [zeroRefusal, hr, if_neg (by simp), if_pos ((zeroBusy_iff s).2 h)]

theorem zeroRefusal_idle {s : State} (hr : s.ready = true) (h : ZeroIdle s) :
    zeroRefusal s = if s.bills.free = 0 then some .billFull else none := by
  rw [zeroRefusal, hr, if_neg (by simp), if_neg fun hbusy => (zeroBusy_iff s).1 hbusy h]

theorem zeroRefusal_taken (e : RxEntry) (rest : List RxEntry) (row : Instr) (s : State) :
    zeroRefusal (takeHead .U e rest row s) = zeroRefusal s := by
  simp [zeroRefusal, State.ready, State.visitPours]

theorem beginZero_changes (s : State) : OnlyChanges [.zero, .reserved] s (beginZero s) :=
  (setZero_changes _ s).mono.then (reserve_changes _)

/-- The ZERO operation that starts with a scale table (R19). -/
theorem beginZero_zero {s : State} {sc : ScaleTable} (h : s.meter.table = some sc) :
    (beginZero s).meter.zero = some { oldOffset := s.meter.offset, travel := 0, loadTravel := 0,
                                      expiry := s.now + sc.zeroTimeout * 1000 } := by
  simp [beginZero, reserve, zeroDuration, h]

theorem beginZero_reserved (s : State) : (beginZero s).bills.reserved = s.bills.reserved + 1 := rfl

/-- The mark test reads the records, the marks and BILL_MARK, and leaves the last mark and BILL_MARK. -/
theorem MarkTested.congr {s s' t t' : State} (h : MarkTested s' t) (hrecords : s'.bills.records = s.bills.records)
    (hmarks : s'.bills.marks = s.bills.marks) (hlast : s'.bills.lastMark = s.bills.lastMark)
    (hs : s'.ladder.sources[srcBillMark] = s.ladder.sources[srcBillMark]) (hlast' : t'.bills.lastMark = t.bills.lastMark)
    (hs' : t'.ladder.sources[srcBillMark] = t.ladder.sources[srcBillMark]) : MarkTested s t' := by
  unfold MarkTested at *
  rw [hlast', hs', ← hrecords, ← hmarks, ← hlast, ← hs]
  exact h

theorem MarkTested.endEvent {s t : State} (h : MarkTested s t) : MarkTested s (endEvent t) :=
  h.congr rfl rfl rfl rfl (by simp) (by simp)

/-- A queue with two free places has one left after a frame is offered to it. -/
theorem offer_U_leaves_room (f : Frame) {s : State} (h : s.line.u.txQueue.length < 7) :
    ((offer .U f s).line.port .U).room = true := by
  have hroom : s.line.u.room = true := by
    simp [Port.room]
    omega
  cases hs : s.line.u.sending <;> cases hq : s.line.u.txQueue <;>
    simp_all [offer, Line.offer, Line.begin, Port.room]
  omega

/-- The end of a ZERO with its offset kept, seen from a state that had its meter, its records and its BILL_MARK (R23). -/
theorem endZero_endsFrom {s s' : State} {z : ZeroOp} {o : ZeroOutcome} (hz : s.meter.zero = some z)
    (hm : s'.meter = s.meter) (hb : s'.bills = s.bills)
    (hsource : s'.ladder.sources[srcBillMark] = s.ladder.sources[srcBillMark]) :
    let t := endEvent (endZero o s'.meter.offset s')
    t.meter.zero = none ∧ t.bills.reserved = s.bills.reserved - 1
      ∧ t.bills.records = s.bills.records ++ [⟨s.bills.nextSeq, .zero z.oldOffset s.meter.offset o z.travel⟩]
      ∧ t.bills.nextSeq = s.bills.nextSeq + 1 ∧ MarkTested s t := by
  obtain ⟨hmeter, hrecords, hnext, hreserved, hmark, -⟩ := endZero_ends z o s' (by rw [hm, hz])
  obtain ⟨-, hbills, -, hmeter', -, -, -, -, -, hsources, -⟩ := endEvent_closes (endZero o s'.meter.offset s')
  refine ⟨?_, ?_, ?_, ?_, ?_⟩
  · rw [hmeter', hmeter]
  · rw [hbills, hreserved, hb]
  · rw [hbills, hrecords, hb, hm]
  · rw [hbills, hnext, hb]
  · exact (hmark.congr (by rw [hb]) (by rw [hb]) (by rw [hb]) hsource rfl rfl).endEvent

theorem abortRefusal_taken (e : RxEntry) (rest : List RxEntry) (row : Instr) (s : State) :
    abortRefusal (takeHead .U e rest row s) = abortRefusal s := by
  simp [abortRefusal]

theorem answerDone_taken_source (e : RxEntry) (rest : List RxEntry) (row : Instr) (bs : List Byte) (s : State)
    {i : SourceNo} (hi : i ≠ srcLineFault .U) :
    (answerDone e.frame bs (takeHead .U e rest row s)).ladder.sources[i] = s.ladder.sources[i] := by
  rw [(answerDone_changes _ _ _).sources]
  exact takeHead_U_source e rest row s i (by simpa using hi)

end Sys2Proof.Machine

open Sys2Proof Sys2Proof.Machine

/-- Settles O30. -/
theorem strayBeltSampleForwarded : Obligations.StrayBeltSampleForwarded := by
  intro s e rest
  refine ⟨fun h hst => ?_, fun a pos m h hparse hst => ?_, fun h hst => ?_, fun h hst => ?_, fun h hst => ?_⟩
  · obtain ⟨-, hk, hrow⟩ := inspect_D_sample h.2 (by simp) (by simp) (by simp)
    obtain ⟨load, pos, ok, hparse⟩ := sampleRow_belt hrow
    exact takes_passed h .belt hk (by simp only [treatBelt, hparse, fromRole_taken_false rest _ hst]; rfl)
  · obtain ⟨-, hk, -⟩ := inspect_D_sample h.2 (by simp) (by simp) (by simp)
    exact takes_passed h .position hk (by simp only [treatPosition, hparse, fromRole_taken_false rest _ hst]; rfl)
  · obtain ⟨-, hk, hrow⟩ := inspect_D_sample h.2 (by simp) (by simp) (by simp)
    obtain ⟨r, hparse⟩ := sampleRow_holdsense hrow
    exact takes_passed h .sense hk (by simp only [treatSense, hparse, fromRole_taken_false rest _ hst]; rfl)
  · obtain ⟨-, hk, hrow⟩ := inspect_D_sample h.2 (by simp) (by simp) (by simp)
    obtain ⟨c, ok, hparse⟩ := sampleRow_dust hrow
    refine takes_passed h .dust hk (treatDust_passed hparse fun i en hi hen => hst i en ?_ ?_)
    · rw [← takeHead_D_station e rest .dustSample s]
      exact hi
    · rw [← takeHead_D_sensors e rest .dustSample s]
      exact hen
  · obtain ⟨-, hk, hrow⟩ := inspect_D_sample h.2 (by simp) (by simp) (by simp)
    obtain ⟨st, hparse⟩ := sampleRow_feeder hrow
    exact takes_passed h .feeder hk (by simp only [treatFeeder, hparse, fromRole_taken_false rest _ hst]; rfl)

/-- Settles O32. -/
theorem placementStates : Obligations.PlacementStates := by
  intro t h h' n hne
  have hother : some h' ≠ some h := fun heq => hne (Option.some.inj heq)
  have hnone : none ≠ some h := by simp
  exact ⟨fun hs => if_neg (by omega), fun hs => if_pos (by omega), rfl, fun hs => (if_pos rfl).trans (if_neg (by omega)),
    fun hs => (if_pos rfl).trans (if_pos hs), fun hs => (if_neg hne).trans (if_neg (by omega)),
    fun hs => (if_neg hne).trans (if_pos (by omega)), rfl, if_pos rfl,
    fun hl => ⟨(nextPlace_placed_other t hother).trans (if_neg (by omega)),
      (nextPlace_placed_other t hnone).trans (if_neg (by omega))⟩,
    fun hl => ⟨(nextPlace_placed_other t hother).trans (if_pos (by omega)),
      (nextPlace_placed_other t hnone).trans (if_pos (by omega))⟩, if_pos rfl,
    fun hl => ⟨(nextPlace_leaving_other t n hother).trans (if_neg (by omega)),
      (nextPlace_leaving_other t n hnone).trans (if_neg (by omega))⟩,
    fun hl => ⟨(nextPlace_leaving_other t n hother).trans (if_pos hl),
      (nextPlace_leaving_other t n hnone).trans (if_pos hl)⟩, rfl, rfl, rfl, rfl, rfl, rfl, rfl, rfl⟩

/-- Settles O53. -/
theorem zeroBegun : Obligations.ZeroBegun := by
  intro s e rest h
  have hcode : payloadCode e.frame = 11 := h.code rfl
  refine ⟨fun sc hsc hr hidle hfree => ?_, fun r hr => ?_⟩
  · have hnone : zeroRefusal (takeHead .U e rest .zeroBelt s) = none := by
      rw [zeroRefusal_taken, zeroRefusal_idle hr hidle, if_neg fun hz => (free_eq_zero_iff _).1 hz hfree]
    have htreat : treatZeroBelt e.frame (takeHead .U e rest .zeroBelt s)
        = beginZero (answerDone e.frame [] (takeHead .U e rest .zeroBelt s)) := by
      rw [treatZeroBelt, hnone]
      rfl
    refine takes_of (xs := [.send .U, .zero, .reserved]) treatZeroBelt h rfl ?_ (by decide) ⟨?_, ?_, ?_⟩
    · rw [htreat]
      exact (answerDone_changes _ _ _).mono.then (beginZero_changes _)
    · have hanswered := answerDone_changes e.frame [] (takeHead .U e rest .zeroBelt s)
      have htable : (answerDone e.frame [] (takeHead .U e rest .zeroBelt s)).meter.table = some sc := by
        rw [(hanswered.same .scale : _ = _)]
        simpa using hsc
      rw [htreat, ((endEvent_changes _).same .zero : _ = _), beginZero_zero htable, (hanswered.same .offset : _ = _),
        (hanswered.same .clock : _ = _)]
      simp
    · have hanswered := answerDone_changes e.frame [] (takeHead .U e rest .zeroBelt s)
      rw [htreat, ((endEvent_changes _).same .reserved : _ = _), beginZero_reserved, (hanswered.same .reserved : _ = _)]
      simp
    · rw [htreat]
      exact offered_done (bs := []) (by rw [hcode]) (.frame (beginZero_changes _))
  · have hrefused : zeroRefusal (takeHead .U e rest .zeroBelt s) = some r := by
      rw [zeroRefusal_taken]
      rcases hr with ⟨rfl, hr⟩ | ⟨rfl, hr, hbusy⟩ | ⟨rfl, hr, hidle, hfull⟩
      · exact zeroRefusal_notReady hr
      · exact zeroRefusal_busy hr hbusy
      · rw [zeroRefusal_idle hr hidle, if_pos ((free_eq_zero_iff _).2 hfull)]
    refine takes_requestRefused h .zeroBelt (by rw [hcode]) ?_
    rw [treatZeroBelt, hrefused]
    rfl

/-- Settles O54. -/
theorem zeroEnded : Obligations.ZeroEnded := by
  intro s
  refine ⟨fun e rest z h hz => ?_, fun e rest h hz => ?_, fun z hz hdue => ?_⟩
  · have hcode : payloadCode e.frame = 12 := h.code rfl
    have htreat : treatZeroAbort e.frame (takeHead .U e rest .zeroAbort s)
        = abortZero (answerDone e.frame [] (takeHead .U e rest .zeroAbort s)) := by
      rw [treatZeroAbort, abortRefusal_taken, abortRefusal, hz]
      rfl
    set u := answerDone e.frame [] (takeHead .U e rest .zeroAbort s) with hu
    have hmeter : u.meter = s.meter := by simp [hu]
    have hbills : u.bills = s.bills := by simp [hu]
    have hhandler : u.handler = s.handler := by simp [hu]
    obtain ⟨hzero, hreserved, hrecords, hnext, hmark⟩ := endZero_endsFrom (o := .aborted) hz hmeter hbills
      (answerDone_taken_source e rest .zeroAbort [] s (by decide))
    refine takes_of (xs := .send .U :: zeroEndBlocks) treatZeroAbort h rfl ?_ (by decide) ?_
    · rw [htreat]
      exact (answerDone_changes _ _ _).mono.then (endZero_changes _ _ _)
    · rw [htreat]
      refine ⟨hzero, hreserved, hrecords, hnext, hmark, ?_, fun hroom => ?_⟩
      · exact offered_done (bs := []) (by rw [hcode]) (endZero_keeps _ _ _)
      · obtain ⟨-, -, -, -, -, hoffered⟩ := endZero_ends z .aborted u (by rw [hmeter, hz])
        have htaken : (takeHead .U e rest .zeroAbort s).line.u.txQueue.length < 7 := by simpa using hroom
        have hdone := (hoffered (offer_U_leaves_room _ htaken)).endEvent
        rwa [zeroDone, hhandler, hbills] at hdone
  · have hcode : payloadCode e.frame = 12 := h.code rfl
    have hrefused := takes_requestRefused (r := .notZeroing) (xs := [12, 1, 27]) h .zeroAbort (by rw [hcode]; rfl) (by
      rw [treatZeroAbort, abortRefusal_taken, abortRefusal, hz]
      rfl)
    obtain ⟨t, hexec, hchanges, hanswered, -⟩ := hrefused
    exact ⟨t, hexec, hchanges, hanswered⟩
  · obtain ⟨-, -, -, -, -, hoffered⟩ := endZero_ends z .timeout s hz
    obtain ⟨hzero, hreserved, hrecords, hnext, hmark⟩ := endZero_endsFrom (o := .timeout) hz rfl rfl rfl
    have hexec : exec .zeroTimeout s = .next (endEvent (endZero .timeout s.meter.offset s)) := by
      change execZeroTimeout s = _
      rw [execZeroTimeout, hz]
      exact congrArg Host.Outcome.next (if_pos hdue)
    exact runs_of (xs := zeroEndBlocks) _ hexec (endZero_changes _ _ _) (by decide)
      ⟨hzero, hreserved, hrecords, hnext, hmark, fun hroom => (hoffered hroom).endEvent⟩

end

section
/-! The orders of the terminal station: RATE and STOP (R100, R101), MOVE and HALT (R49 to R55). -/

set_option Elab.async false

namespace Sys2Proof.Machine

/-! ## Orders that are refused or forwarded -/

/-- A frame of port U whose treatment is a refusal alone. -/
theorem takes_refused {s : State} {row : Instr} {e : RxEntry} {rest : List RxEntry} {treat : Frame → State → State}
    {r : Reason} (changed : List Block) (h : Heads s .U row e rest) (htreat : Treatment .U row treat)
    (ht : treat e.frame (takeHead .U e rest row s) = refuse .U e.frame r (takeHead .U e rest row s)) :
    Takes s .U row e rest changed fun t => Offered .U (refusalFrame s e.frame r) s t := by
  refine takes_of (xs := [.send .U]) treat h (htreat.exec_eq s) ?_ (by simp [closing]) ?_
  · rw [ht]
    exact refuse_U _ _ _
  · rw [ht]
    exact offered_refuse e rest row r s

theorem room_iff (x : Port) : x.room = true ↔ x.txQueue.length < 8 := by simp [Port.room]

theorem room_full {x : Port} (h : 8 ≤ x.txQueue.length) : x.room ≠ true := by
  rw [ne_eq, room_iff]
  omega

theorem takeHead_U_roomD {s : State} (e : RxEntry) (rest : List RxEntry) (row : Instr)
    (h : s.line.d.txQueue.length < 8) : (takeHead .U e rest row s).line.d.room = true := by
  simpa [room_iff] using h

theorem takeHead_U_fullD {s : State} (e : RxEntry) (rest : List RxEntry) (row : Instr)
    (h : 8 ≤ s.line.d.txQueue.length) : (takeHead .U e rest row s).line.d.room ≠ true := by
  apply room_full
  simpa using h

/-- A frame offered to port D stays on the wire through what its forwarding brings about. -/
theorem onWire_forwarded {f : Frame} {s t : State} (h : s.line.d.room = true) (k : Keeps (offer .D f s) t) :
    OnWire .D f (endEvent t) := (k.2 _ _ (offer_onWire .D f s h)).endEvent

/-! ## RATE (R96, R100) -/

/-- A frame that is a RATE stands in a READY part (R177, R178). -/
theorem inspect_rate_ready {s : State} {f : Frame} (h : inspect s .U f = .rate) : s.ready = true := by
  by_contra hr
  have hrequest (bs : List Byte) : requestRow bs ≠ .rate := by
    unfold requestRow
    split
    · simp
    · split
      · split <;> simp
      · split
        · simp
        next hform =>
          split
          · intro heq
            rw [heq] at hform
            cases requestForm_code hform
          · simp
  have horder : unconfiguredOrderRow f ≠ .rate := by
    unfold unconfiguredOrderRow
    split
    · split_ifs <;> simp
    · simp
  by_cases ha : f.dst.toNat < 64 ∧ f.src.toNat < 64
  · rw [inspect_unconfigured ha (by simpa using hr), unconfiguredRow] at h
    split_ifs at h
    · exact hrequest _ h
    · exact horder h
  · rw [inspect_unaddressed ha] at h
    cases h

theorem rateRefusal_taken (e : RxEntry) (rest : List RxEntry) (row : Instr) (s : State) :
    rateRefusal (takeHead .U e rest row s) = rateRefusal s := by
  simp [rateRefusal, State.ready, State.visitState]

theorem parseOrder_rate_code {bs : List Byte} {n : Nat} (h : parseOrder bs = .rate n) : bs.headD 0 = 2 := by
  unfold parseOrder at h
  split at h
  · cases h
  · split_ifs at h
    assumption

theorem parseOrder_run_code {bs : List Byte} {n : Nat} (h : parseOrder bs = .run n) : bs.headD 0 = 1 := by
  unfold parseOrder at h
  split at h
  · cases h
  · split_ifs at h
    assumption

/-- The frame that a RUN or RATE is forwarded as, its code kept (R96). -/
theorem clampFrame_taken {f : Frame} {c : Byte} (e : RxEntry) (rest : List RxEntry) (row : Instr) (n : Nat) (s : State)
    (hc : f.payload.headD 0 = c) : clampFrame (takeHead .U e rest row s) f n
      = if s.gate.rateLimit < n then { f with payload := c :: beBytes 2 s.gate.rateLimit } else f := by
  obtain ⟨-, -, -, -, -, -, -, -, hgate, -⟩ := takeHead_U_fields e rest row s
  rw [clampFrame, ratePayload, payloadCode, hc, hgate]

theorem endEvent_seq (s : State) : (endEvent s).seq = s.seq := by simp

theorem recordRate_lastRate (n : Nat) (s : State) : (recordRate n s).gate.lastRate = some (min n s.gate.rateLimit) := rfl

/-- The flags that a forwarded RUN or RATE leaves on the open visit (R99, R100). -/
theorem recordRate_visit (n : Nat) (s : State) : (recordRate n s).seq.visit = s.seq.visit.map fun v =>
    { v with flags := { v.flags with clamped := v.flags.clamped || decide (s.gate.rateLimit < n)
                                     derated := v.flags.derated || limitBelowMax s } } := rfl

theorem limitBelowMax_header {s : State} {p : PlanHeader} (h : s.seq.header = some p) :
    limitBelowMax s = decide (s.gate.rateLimit < p.maxRate) := by
  simp [limitBelowMax, h]

/-! ## STOP (R82, R101) -/

theorem pauseVisit_visit (r : PauseReason) (s : State) : (pauseVisit r s).seq.visit = s.seq.visit.map fun v =>
    if v.state = .pouring then v.pausedFor r s.meter.belt else v := by
  unfold pauseVisit State.visitState
  cases hv : s.seq.visit with
  | none => simp [hv]
  | some v => cases hst : v.state <;> simp [hv, hst, mapVisit]

end Sys2Proof.Machine

open Sys2Proof Sys2Proof.Machine

/-- Settles O39. -/
theorem rateGated : Obligations.RateGated := by
  intro s e rest rate h hparse
  have hready : s.ready = true := inspect_rate_ready h.2
  have refused {r : Reason} (hr : rateRefusal s = some r) :
      Takes s .U .rate e rest [.send .U] fun t => Offered .U (refusalFrame s e.frame r) s t :=
    takes_refused _ h .rate (by rw [treatRate, rateRefusal_taken, hr])
  refine ⟨fun v p hv hpours hroom hheader => ?_, fun hpours hfull => ?_, fun hcloses => ?_, fun hother => ?_⟩
  · have hnone : rateRefusal s = none := by simp [rateRefusal, hready, State.visitState, hv, hpours]
    have htaken := takeHead_U_roomD e rest .rate hroom
    set u := takeHead .U e rest .rate s with hu
    have htreat : treatRate e.frame u = recordRate rate (offer .D (clampFrame u e.frame rate) u) := by
      rw [treatRate, hu, rateRefusal_taken, hnone, ← hu]
      simp only [hparse]
      exact if_pos htaken
    have hclamp := clampFrame_taken e rest .rate rate s (parseOrder_rate_code hparse)
    refine takes_of (xs := [.visit, .rate, .send .D, .injection]) treatRate h rfl ?_ (by decide) ⟨?_, ?_, ?_⟩
    · rw [htreat]
      exact (offer_D _ _).mono.then (recordRate_changes _ _)
    · rw [htreat]
      simp [recordRate_lastRate, hu]
    · have hmax : limitBelowMax (offer .D (clampFrame u e.frame rate) u) = decide (s.gate.rateLimit < p.maxRate) := by
        rw [limitBelowMax_header (p := p) (by simp [hu, hheader])]
        simp [hu]
      rw [htreat, endEvent_seq, recordRate_visit, hmax]
      simp [hu, hv]
    · rw [htreat, hclamp]
      exact onWire_forwarded htaken (recordRate_keeps _ _)
  · have hnone : rateRefusal s = none := by simp [rateRefusal, hready, hpours]
    refine takes_refused _ h .rate ?_
    rw [treatRate, rateRefusal_taken, hnone]
    simp only [hparse]
    exact if_neg (takeHead_U_fullD e rest .rate hfull)
  · refine refused ?_
    rcases hcloses with hc | hc <;> simp [rateRefusal, hready, hc]
  · refine refused ?_
    rcases hother with hc | hc | hc | hc <;> simp [rateRefusal, hready, hc]

/-- Settles O40. -/
theorem stopForwarded : Obligations.StopForwarded := by
  intro s e rest h
  refine ⟨fun hroom => ?_, fun hfull => ?_⟩
  · have htaken := takeHead_U_roomD e rest .stop hroom
    set u := takeHead .U e rest .stop s with hu
    have htreat : treatStop e.frame u = pauseVisit .stopOrder (offer .D e.frame u) := if_pos htaken
    refine takes_of (xs := [.visit, .send .D, .injection]) treatStop h rfl ?_ (by decide) ⟨?_, ?_⟩
    · rw [htreat]
      exact (offer_D _ _).mono.then (pauseVisit_changes _ _)
    · rw [htreat]
      exact onWire_forwarded htaken (pauseVisit_keeps _ _)
    · have hpaused := pauseVisit_visit .stopOrder (offer .D e.frame u)
      rw [htreat]
      simpa [hu] using hpaused
  · exact takes_refused _ h .stop (if_neg (takeHead_U_fullD e rest .stop hfull))

end

section
/-! RUN (R81, R83, R96, R98, R99): the first reason that refuses it, what a forwarded one leaves, and the projections. -/

set_option Elab.async false

namespace Sys2Proof.Machine

/-! ## The first reason of R98 -/

theorem runRefusal_taken (e : RxEntry) (rest : List RxEntry) (row : Instr) (s : State) :
    runRefusal (takeHead .U e rest row s) = runRefusal s := by
  simp [runRefusal, runBarred, visitReserved, State.ready, State.visitState]

theorem runRefusal_unpoured {s : State} {r : Reason} (hr : s.ready = true) (hp : s.seq.plan = .active)
    (h : (r = .closing ∧ (s.visitState = some .closing ∨ s.visitState = some .draining))
      ∨ (r = .notArmed ∧ (s.visitState = some .waiting ∨ s.visitState = none))) : runRefusal s = some r := by
  rcases h with ⟨rfl, h | h⟩ | ⟨rfl, h | h⟩ <;> simp [runRefusal, hr, hp, h]

/-- To an ARMED, POURING or PAUSED visit the reasons from STOPPED on decide. -/
theorem runRefusal_barred {s : State} (hr : s.ready = true) (hp : s.seq.plan = .active)
    (h : s.visitState = some .armed ∨ s.visitState = some .pouring ∨ s.visitState = some .paused) :
    runRefusal s = runBarred s := by
  rcases h with h | h | h <;> simp [runRefusal, hr, hp, h]

theorem visitReserved_false {s : State} (h : ∀ v, s.seq.visit = some v → v.reserved = false) :
    visitReserved s = false := by
  unfold visitReserved
  split
  next v hv => exact h v hv
  · rfl

/-- A RUN refused at port U; BILL_FULL raises its alarm (R98, R142). -/
theorem takes_runRefused {s : State} {e : RxEntry} {rest : List RxEntry} {r : Reason} (h : Heads s .U .run e rest)
    (hr : runRefusal s = some r) :
    Takes s .U .run e rest (if r = .billFull then [.sources, .send .U] else [.send .U]) fun t =>
      Offered .U (refusalFrame s e.frame r) s t
        ∧ (r = .billFull → t.ladder.sources[srcBillFull] = (s.ladder.sources[srcBillFull]).raised) := by
  have htaken : runRefusal (takeHead .U e rest .run s) = some r := by rw [runRefusal_taken, hr]
  by_cases hfull : r = .billFull
  · subst hfull
    set u := takeHead .U e rest .run s with hu
    have htreat : treatRun e.frame u = refuse .U e.frame .billFull (raise srcBillFull u) := by
      rw [treatRun, htaken]
    refine takes_of (xs := [.sources, .send .U]) treatRun h rfl ?_ (by decide) ⟨fun hroom => ?_, fun _ => ?_⟩
    · rw [htreat]
      exact (raise_changes _ _).mono.then (refuse_U _ _ _)
    · have hroom' : ((raise srcBillFull u).line.port .U).room = true := by
        have hline : (raise srcBillFull u).line = u.line := by simp
        rw [hline, hu, takeHead_U_room]
        exact hroom
      have hframe : refusalFrame (raise srcBillFull u) e.frame .billFull = refusalFrame s e.frame .billFull := by
        simp [refusalFrame, hu]
      rw [htreat, refuse, hframe]
      exact (offer_onWire .U _ _ hroom').endEvent
    · rw [htreat, (endEvent_changes _).sources, (refuse_U _ _ _).sources, raise_same, hu]
      exact congrArg Source.raised (takeHead_U_source e rest .run s srcBillFull (by decide))
  · rw [if_neg hfull]
    have htreat : treatRun e.frame (takeHead .U e rest .run s) = refuse .U e.frame r (takeHead .U e rest .run s) := by
      rw [treatRun, htaken]
      cases r <;> first | rfl | exact absurd rfl hfull
    obtain ⟨t, hexec, hchanges, hanswered⟩ := takes_refused [.send .U] h .run htreat
    exact ⟨t, hexec, hchanges, hanswered, fun hf => absurd hf hfull⟩

/-! ## Injected orders seen from another state -/

/-- An injection reads the own address, the counter, the count and the window of the state before it. -/
theorem Injects.congr {d : InjDest} {o : InjOrder} {addr : Byte} {bs : List Byte} {s s' t : State}
    (h : Injects d o addr bs s' t) (hh : s'.handler = s.handler) (hseq : s'.line.injSeq = s.line.injSeq)
    (hnow : s'.now = s.now) (hw : s'.gate.replyWindow = s.gate.replyWindow) : Injects d o addr bs s t := by
  simp only [Injects, hh, hseq, hnow, hw] at h
  exact h

theorem Injects.endEvent {d : InjDest} {o : InjOrder} {addr : Byte} {bs : List Byte} {s t : State}
    (h : Injects d o addr bs s t) : Injects d o addr bs s (endEvent t) := by
  obtain ⟨hentry, hseq, hsent⟩ := h
  refine ⟨?_, by simpa using hseq, by simpa using hsent⟩
  rw [(endEvent_closes t).entry]
  exact hentry

/-! ## A trigger whose close-out STOP can be injected -/

/-- What a POURING visit's trigger leaves with a free FEEDER entry and no LINE FAULT (R85, R103). -/
theorem takeTrigger_injects {r : EndReason} {s : State} {v : Visit} {addr : Byte} (hv : s.seq.visit = some v)
    (hs : v.state = .pouring) (he : s.gate.injFeeder = none) (hl : s.line.d.lineFault = false)
    (ha : s.station .feeder = some addr) :
    OnlyChanges [.visit, .entries, .injection, .send .D, .rate] s (takeTrigger r s)
      ∧ (takeTrigger r s).seq.visit = some { v with state := .closing, endReason := some r }
      ∧ (takeTrigger r s).gate.lastRate = s.gate.lastRate ∧ Injects .feeder .stop addr [3] s (takeTrigger r s) := by
  obtain ⟨htriggered, -⟩ := (takeTrigger_reaches r s).2 v hv
  obtain ⟨hclosing, -, hinjects⟩ := htriggered.1 addr hs he hl ha
  refine ⟨?_, hclosing, takeTrigger_lastRate r s, hinjects⟩
  obtain ⟨u, hu, -⟩ := injectOrder_injects .feeder .stop [InjOrder.code .stop]
    (setVisit (some { v with state := .closing, endReason := some r }) s) addr he hl ha
  have htake : takeTrigger r s = { u with gate := { u.gate with pendingDerate := false } } := by
    simp [takeTrigger, State.visitState, hv, hs, mapVisit, closeOut, he, hu]
  have hinjected := (setVisit_changes (some { v with state := .closing, endReason := some r }) s).mono
    (ys := [.visit, .entries, .injection, .send .D, .rate]) |>.then (injectOrder_changes _ _ _ _ _ hu)
  rw [htake]
  exact hinjected.then (setPendingDerate_changes false u)

/-! ## Entering POURING (R66, R81) -/

/-- The hold states with a visit hold in IDLE become FILLING (R66). -/
theorem fillHold_holdStates (h : Hold) (s : State) : (fillHold h s).seq.holdStates
    = if s.seq.holdStates[h] = .idle then s.seq.holdStates.set h.val .filling else s.seq.holdStates := by
  unfold fillHold
  split <;> simp [upd]

/-- The state in which a visit that enters POURING has its projections checked (R81). -/
def pouringState (v : Visit) (s : State) : State :=
  fillHold v.hold (setVisit (some { v with state := .pouring, start := some (v.start.getD s.meter.belt) }) s)

theorem pouringState_changes (v : Visit) (s : State) : OnlyChanges [.visit, .holdStates] s (pouringState v s) :=
  (setVisit_changes _ s).mono.then (fillHold_changes _ _)

theorem pouringState_visit (v : Visit) (s : State) :
    (pouringState v s).seq.visit = some { v with state := .pouring, start := some (v.start.getD s.meter.belt) } :=
  ((fillHold_changes v.hold _).same .visit : _ = _)

theorem pouringState_holdStates (v : Visit) (s : State) : (pouringState v s).seq.holdStates
    = if s.seq.holdStates[v.hold] = .idle then s.seq.holdStates.set v.hold.val .filling else s.seq.holdStates :=
  fillHold_holdStates v.hold _

theorem pouringState_line (v : Visit) (s : State) : (pouringState v s).line = s.line := by
  change (fillHold v.hold _).line = s.line
  unfold fillHold
  split <;> rfl

theorem armOf_holds {s t : State} (h : t.seq.holds = s.seq.holds) : armOf t = armOf s := by
  funext x
  rw [armOf, armOf, h]

theorem pouredTotal_accounts {s t : State} (h : t.ship.accounts = s.ship.accounts) : pouredTotal t = pouredTotal s := by
  rw [pouredTotal, pouredTotal, h]

theorem trimMoment_accounts {s t : State} (hh : t.seq.holds = s.seq.holds) (ha : t.ship.accounts = s.ship.accounts) :
    trimMoment t = trimMoment s := by
  have heach : holdMoment t = holdMoment s := by
    funext h
    rw [holdMoment, holdMoment, hh, ha]
  rw [trimMoment, trimMoment, heach]

/-- A projection reads the tables, the accounts and the mass in flight. -/
theorem projection_accounts {s t : State} (hholds : t.seq.holds = s.seq.holds) (hheader : t.seq.header = s.seq.header)
    (haccounts : t.ship.accounts = s.ship.accounts) (htotal : t.flight.total = s.flight.total) (v : Visit) :
    projection t v = projection s v := by
  have htarget : targetOf t = targetOf s := by
    funext h
    rw [targetOf, targetOf, hholds]
  rw [projection, projection, armOf_holds hholds, htarget, trimMoment_accounts hholds haccounts,
    pouredTotal_accounts haccounts, hheader, haccounts, htotal]

/-- Of the visit a projection reads its hold, quota and mass. -/
theorem projection_congr {s t : State} {v w : Visit} (hholds : t.seq.holds = s.seq.holds)
    (hheader : t.seq.header = s.seq.header) (hship : t.ship = s.ship) (hflight : t.flight = s.flight)
    (hv : w.hold = v.hold ∧ w.quota = v.quota ∧ w.poured = v.poured) : projection t w = projection s v := by
  have hvisit : projection s w = projection s v := by
    cases v
    cases w
    obtain ⟨rfl, rfl, rfl⟩ := hv
    rfl
  rw [projection_accounts hholds hheader (by rw [hship]) (by rw [hflight]), hvisit]

theorem pouringState_projection (v : Visit) (s : State) :
    projection (pouringState v s) { v with state := .pouring, start := some (v.start.getD s.meter.belt) }
      = projection s v := by
  have hc := pouringState_changes v s
  obtain ⟨hholds, -, hheader⟩ := hc.same .planTables
  refine projection_congr hholds hheader ?_ (hc.same .flight) ⟨rfl, rfl, rfl⟩
  change (fillHold v.hold _).ship = s.ship
  unfold fillHold
  split <;> rfl

theorem enterPouring_none {s : State} {v : Visit} (hv : s.seq.visit = some v) (h : projection s v = none) :
    enterPouring s = pouringState v s := by
  have hentered : enterPouring s = checkProjections (pouringState v s) := by simp only [enterPouring, hv]; rfl
  rw [hentered, checkProjections, pouringState_visit]
  simp only [VisitState.triggers, if_true, pouringState_projection, h]

theorem enterPouring_some {s : State} {v : Visit} {r : EndReason} (hv : s.seq.visit = some v)
    (h : projection s v = some r) : enterPouring s = takeTrigger r (pouringState v s) := by
  have hentered : enterPouring s = checkProjections (pouringState v s) := by simp only [enterPouring, hv]; rfl
  rw [hentered, checkProjections, pouringState_visit]
  simp only [VisitState.triggers, if_true, pouringState_projection, h]

theorem runForwarded_enters {s : State} {v : Visit} (hv : s.seq.visit = some v)
    (hs : v.state = .armed ∨ v.state = .paused) : runForwarded s = enterPouring s := by
  rcases hs with hs | hs <;> simp [runForwarded, State.visitState, hv, hs]

theorem runForwarded_pouring {s : State} {v : Visit} (hv : s.seq.visit = some v) (hs : v.state = .pouring) :
    runForwarded s = s := by
  simp [runForwarded, State.visitState, hv, hs]

/-! ## The reservation and the record of a RUN (R99) -/

theorem reserveForVisit_visit {s : State} {v : Visit} (hv : s.seq.visit = some v) :
    (reserveForVisit s).seq.visit = some { v with reserved := true } := by
  have hr : visitReserved s = v.reserved := by simp only [visitReserved, hv]
  unfold reserveForVisit
  split
  next h => rw [hv, ← hr.symm.trans h]
  next h => simp [mapVisit, reserve, hv]

theorem reserveForVisit_reserved {s : State} {v : Visit} (hv : s.seq.visit = some v) :
    (reserveForVisit s).bills.reserved = if v.reserved then s.bills.reserved else s.bills.reserved + 1 := by
  have hr : visitReserved s = v.reserved := by simp only [visitReserved, hv]
  unfold reserveForVisit
  rw [hr]
  split <;> rfl

/-! ## The four projections (R69, R83) -/

/-- The visit hold's target is met with what is in flight. -/
def meetsTarget (s : State) (v : Visit) : Bool :=
  match targetOf s v.hold with
  | some t => decide (t * 1000000 ≤ s.ship.accounts[holdAccount v.hold] + s.flight.total)
  | none => false

/-- The trim limit is met with what is in flight. -/
def meetsTrim (s : State) (v : Visit) : Bool :=
  match s.seq.header with
  | some h => trimPast (trimMoment s + (s.flight.total : Int) * armOf s v.hold) (armOf s v.hold) h.trimLimit
  | none => false

/-- The ship's target is met with what is in flight. -/
def meetsShipTarget (s : State) : Bool :=
  match s.seq.header with
  | some h => (match h.shipTarget with
      | some t => decide (t * 1000000 ≤ pouredTotal s + s.flight.total)
      | none => false)
  | none => false

theorem projection_eq (s : State) (v : Visit) : projection s v =
    if v.quota * 1000000 ≤ v.poured + s.flight.total then some .quota
    else if meetsTarget s v then some .holdTarget
    else if meetsTrim s v then some .trim
    else if meetsShipTarget s then some .shipTarget
    else none := rfl

theorem meetsTarget_iff (s : State) (v : Visit) : meetsTarget s v = true ↔ ∃ en g, s.seq.holds[v.hold] = some en
    ∧ en.target = some g ∧ g * 1000000 ≤ s.ship.accounts[holdAccount v.hold] + s.flight.total := by
  cases hen : s.seq.holds[v.hold] with
  | none =>
    have htarget : targetOf s v.hold = none := by simp only [targetOf, hen]
    simp [meetsTarget, htarget]
  | some en =>
    have htarget : targetOf s v.hold = en.target := by simp only [targetOf, hen]
    cases hg : en.target <;> simp [meetsTarget, htarget, hg]

theorem meetsTrim_iff (s : State) (v : Visit) : meetsTrim s v = true ↔ ∃ p, s.seq.header = some p
    ∧ 0 < (trimMoment s + (s.flight.total : Int) * armOf s v.hold) * armOf s v.hold
    ∧ p.trimLimit * 1000000 ≤ (trimMoment s + (s.flight.total : Int) * armOf s v.hold).natAbs := by
  cases hp : s.seq.header <;> simp [meetsTrim, hp, trimPast]

theorem meetsShipTarget_iff (s : State) : meetsShipTarget s = true ↔ ∃ p g, s.seq.header = some p
    ∧ p.shipTarget = some g ∧ g * 1000000 ≤ pouredTotal s + s.flight.total := by
  cases hp : s.seq.header with
  | none => simp [meetsShipTarget, hp]
  | some p => cases hg : p.shipTarget <;> simp [meetsShipTarget, hp, hg]

theorem holdMoment_eq (s : State) (h : Hold) : holdMoment s h = (s.ship.accounts[holdAccount h] : Int) * armOf s h := by
  unfold holdMoment armOf
  split <;> simp

/-! ## A RUN that passes R98 (R99) -/

/-- The state that a passed RUN has when the visit is told of it. -/
def ranState (f : Frame) (rate : Nat) (s : State) : State :=
  recordRate rate (offer .D (clampFrame s f rate) (reserveForVisit s))

theorem ranState_changes (f : Frame) (rate : Nat) (s : State) :
    OnlyChanges [.visit, .reserved, .rate, .send .D, .injection] s (ranState f rate s) :=
  ((reserveForVisit_changes s).mono.then (offer_D _ _)).then (recordRate_changes _ _)

theorem runTaken_room {s : State} (f : Frame) (rate : Nat) (h : s.line.d.room = true) :
    runTaken f rate s = runForwarded (ranState f rate s) := if_pos h

/-- The visit as a forwarded RUN records it (R99). -/
def Visit.ran (v : Visit) (rate limit maxRate : Nat) : Visit :=
  { v with
    reserved := true
    flags := { v.flags with clamped := v.flags.clamped || decide (limit < rate)
                            derated := v.flags.derated || decide (limit < maxRate) } }

theorem offer_gate (p : PortId) (f : Frame) (s : State) : (offer p f s).gate = s.gate := rfl

theorem ranState_visit {s : State} {v : Visit} {p : PlanHeader} (f : Frame) (rate : Nat) (hv : s.seq.visit = some v)
    (hp : s.seq.header = some p) :
    (ranState f rate s).seq.visit = some (v.ran rate s.gate.rateLimit p.maxRate) := by
  have hreserve := reserveForVisit_changes s
  obtain ⟨-, -, hheader⟩ := hreserve.same .planTables
  have hlimit : (reserveForVisit s).gate.rateLimit = s.gate.rateLimit := hreserve.same .limit
  have hmax : limitBelowMax (offer .D (clampFrame s f rate) (reserveForVisit s)) = decide (s.gate.rateLimit < p.maxRate) := by
    rw [limitBelowMax_header (s := offer .D (clampFrame s f rate) (reserveForVisit s)) (p := p) (hheader.trans hp)]
    exact congrArg (fun n => decide (n < p.maxRate)) hlimit
  rw [ranState, recordRate_visit, hmax]
  change Option.map _ (reserveForVisit s).seq.visit = _
  rw [reserveForVisit_visit hv, offer_gate, hlimit]
  rfl

theorem ranState_reserved {s : State} {v : Visit} (f : Frame) (rate : Nat) (hv : s.seq.visit = some v) :
    (ranState f rate s).bills.reserved = if v.reserved then s.bills.reserved else s.bills.reserved + 1 :=
  reserveForVisit_reserved hv

theorem ranState_lastRate (f : Frame) (rate : Nat) (s : State) :
    (ranState f rate s).gate.lastRate = some (min rate s.gate.rateLimit) := by
  rw [ranState, recordRate_lastRate, offer_gate, ((reserveForVisit_changes s).same .limit : _ = _)]

theorem ranState_onWire (f : Frame) (rate : Nat) {s t : State} (h : s.line.d.room = true) (k : Keeps (ranState f rate s) t) :
    OnWire .D (clampFrame s f rate) (endEvent t) := by
  have hroom : (reserveForVisit s).line.d.room = true := by
    have hqueue : (reserveForVisit s).line.d.txQueue = s.line.d.txQueue :=
      ((reserveForVisit_changes s).same (.send .D)).1
    rwa [room_iff, hqueue, ← room_iff]
  exact onWire_forwarded hroom ((recordRate_keeps _ _).trans k)

/-- The part state, the marks and the options are the whole handler. -/
theorem OnlyChanges.handler {xs : List Block} {s t : State} (h : OnlyChanges xs s t)
    (h1 : Block.part ∉ xs := by decide) (h2 : Block.options ∉ xs := by decide) : t.handler = s.handler := by
  obtain ⟨hpart, hstations, hscale⟩ := h.same .part h1
  obtain ⟨hleave, hhold, hown, hthreshold⟩ := h.same .options h2
  cases hs : s.handler
  cases ht : t.handler
  simp_all

theorem ranState_injSeq (f : Frame) (rate : Nat) (s : State) : (ranState f rate s).line.injSeq = s.line.injSeq := by
  have hoffer := lineOffer_injSeq (reserveForVisit s).line .D (clampFrame s f rate)
  exact hoffer.trans ((reserveForVisit_changes s).same .injection).2

theorem ranState_ship (f : Frame) (rate : Nat) (s : State) : (ranState f rate s).ship = s.ship := by
  change (reserveForVisit s).ship = s.ship
  unfold reserveForVisit
  split <;> rfl

theorem ranState_projection (f : Frame) (rate n m k : Nat) (s : State) (v : Visit) :
    projection (ranState f rate s) (v.ran n m k) = projection s v := by
  have hc := ranState_changes f rate s
  obtain ⟨hholds, -, hheader⟩ := hc.same .planTables
  exact projection_congr hholds hheader (ranState_ship f rate s) (hc.same .flight) ⟨rfl, rfl, rfl⟩

theorem projection_taken (e : RxEntry) (rest : List RxEntry) (row : Instr) (s : State) (v : Visit) :
    projection (takeHead .U e rest row s) v = projection s v :=
  projection_congr (by simp) (by simp) (by simp) (by simp) ⟨rfl, rfl, rfl⟩

end Sys2Proof.Machine

open Sys2Proof Sys2Proof.Machine

/-- Settles O38. -/
theorem runRefused : Obligations.RunRefused := by
  intro s e rest r h vs closing pours stop trip fault lineFault active hcases
  refine takes_runRefused h ?_
  rcases hcases with ⟨rfl, hr⟩ | ⟨rfl, hr, hp⟩ | ⟨rfl, ⟨hr, hp⟩, hv⟩ | ⟨rfl, ⟨hr, hp⟩, hv⟩ | ⟨⟨hr, hp⟩, hv, hbarred⟩
  · simp [runRefusal, hr]
  · simp [runRefusal, hr, hp]
  · exact runRefusal_unpoured hr hp (.inl ⟨rfl, hv⟩)
  · exact runRefusal_unpoured hr hp (.inr ⟨rfl, hv⟩)
  · rw [runRefusal_barred hr hp hv]
    rcases hbarred with ⟨rfl, hs⟩ | ⟨hs, rfl, ht⟩ | ⟨hs, ht, rfl, hf⟩ | ⟨hs, ht, hf, rfl, hl⟩ | ⟨hs, ht, hf, hl, rfl, hz⟩
      | ⟨hs, ht, hf, hl, hz, rfl, hn, hfull⟩
    · simp [runBarred, show s.pins.stop = true from hs]
    · simp [runBarred, show s.pins.stop = false from hs, show s.dust.overall = .trip from ht]
    · simp [runBarred, show s.pins.stop = false from hs, show ¬ s.dust.overall = .trip from ht,
        show s.meter.fault = true from hf]
    · simp [runBarred, show s.pins.stop = false from hs, show ¬ s.dust.overall = .trip from ht,
        show s.meter.fault = false from hf, show s.line.d.lineFault = true from hl]
    · simp [runBarred, show s.pins.stop = false from hs, show ¬ s.dust.overall = .trip from ht,
        show s.meter.fault = false from hf, show s.line.d.lineFault = false from hl, Option.isSome_iff_ne_none.2 hz]
    · have hfree : s.bills.free = 0 := (free_eq_zero_iff _).2 (by omega)
      simp [runBarred, show s.pins.stop = false from hs, show ¬ s.dust.overall = .trip from ht,
        show s.meter.fault = false from hf, show s.line.d.lineFault = false from hl, hz, visitReserved_false hn, hfree]

/-- Settles O37. -/
theorem runForwarded : Obligations.RunForwarded := by
  refine ⟨?_, fun s => ⟨?_, rfl, fun h => ⟨fun en hen => ?_, fun hnone => ?_⟩⟩, fun s v => ?_⟩
  · intro s e rest rate v p h hready hparse hplan hv hs hstop htrip hfault hline hzero hplace hp forwarded run entered sent
      filled
    have hfree : s.bills.free ≠ 0 ∨ v.reserved = true := by
      rcases hplace with hplace | hplace
      · exact .inr hplace
      · exact .inl fun hz => (free_eq_zero_iff _).1 hz hplace
    have hbarred : runBarred s = none := by
      have hzero' : s.meter.zero.isSome = false := by rw [hzero]; rfl
      rcases hfree with hfree | hfree <;>
        simp [runBarred, visitReserved, hv, hstop, htrip, hfault, hline, hzero', hfree]
    have hnone : runRefusal s = none := by
      rw [runRefusal_barred hready hplan ?_, hbarred]
      rcases hs with hs | hs | hs <;> simp [State.visitState, hv, hs]
    set u := takeHead .U e rest .run s with hu
    have htreat : treatRun e.frame u = runTaken e.frame rate u := by
      rw [treatRun, hu, runRefusal_taken, hnone]
      simp only [hparse]
    have huv : u.seq.visit = some v := by simpa [hu] using hv
    have hclamp := clampFrame_taken e rest .run rate s (parseOrder_run_code hparse)
    set w := ranState e.frame rate u with hw
    have hrw : OnlyChanges [.visit, .reserved, .rate, .send .D, .injection] u w := ranState_changes e.frame rate u
    have hgate : u.gate = s.gate := by simp [hu]
    have hwv : w.seq.visit = some (v.ran rate s.gate.rateLimit p.maxRate) := by
      rw [hw, ranState_visit e.frame rate huv (p := p) (by simpa [hu] using hp), hgate]
    have hbelt : w.meter.belt = s.meter.belt := by
      rw [(hrw.same .belt : _ = _)]
      simp [hu]
    have hproj : projection w (v.ran rate s.gate.rateLimit p.maxRate) = projection s v := by
      rw [hw, ranState_projection, hu, projection_taken]
    have hroom (hq : s.line.d.txQueue.length < 8) : u.line.d.room = true := takeHead_U_roomD e rest .run hq
    have hsent (t : State) (hq : s.line.d.txQueue.length < 8) (hreserved : t.bills.reserved = w.bills.reserved)
        (hrate : t.gate.lastRate = w.gate.lastRate) (hk : Keeps w t) : sent (endEvent t) := by
      refine ⟨?_, ?_, ?_⟩
      · have hbills : u.bills = s.bills := by simp [hu]
        rw [((endEvent_changes t).same .reserved : _ = _), hreserved, hw, ranState_reserved e.frame rate huv, hbills]
      · rw [((endEvent_changes t).same .rate).1, hrate, hw, ranState_lastRate, hgate]
      · rw [← hclamp]
        exact ranState_onWire e.frame rate (hroom hq) hk
    set x := pouringState (v.ran rate s.gate.rateLimit p.maxRate) w with hx
    have hc : OnlyChanges [.visit, .holdStates] w x := pouringState_changes _ w
    have hux : OnlyChanges [.visit, .reserved, .rate, .holdStates, .send .D, .injection] u x := hrw.mono.then hc
    have hentered : x.seq.visit = some entered := by
      rw [hx, pouringState_visit, hbelt]
      rfl
    have hfilled (t : State) (hstates : t.seq.holdStates = x.seq.holdStates) : filled (endEvent t) := by
      have hkept : w.seq.holdStates = s.seq.holdStates := by
        rw [(hrw.same .holdStates : _ = _)]
        simp [hu]
      change (endEvent t).seq.holdStates = _
      rw [endEvent_seq, hstates, hx, pouringState_holdStates, hkept]
      rfl
    refine ⟨fun hq hne hprojection => ?_, fun r addr hq hne hprojection hinj haddr => ?_, fun hq hpours => ?_,
      fun hfull => ?_⟩
    · have hstate : v.state = .armed ∨ v.state = .paused := by tauto
      have hran : treatRun e.frame u = x := by
        rw [htreat, runTaken_room _ _ (hroom hq), ← hw, runForwarded_enters hwv hstate,
          enterPouring_none hwv (hproj.trans hprojection)]
      refine takes_of (xs := [.visit, .reserved, .rate, .holdStates, .send .D, .injection]) treatRun h rfl ?_ (by decide)
        ?_
      · rw [← hu, hran]
        exact hrw.mono.then hc
      · rw [← hu, hran]
        refine ⟨?_, hsent _ hq (hc.same .reserved) (hc.same .rate).1 (.frame hc), hfilled _ rfl⟩
        rw [endEvent_seq]
        exact hentered
    · have hstate : v.state = .armed ∨ v.state = .paused := by tauto
      have hran : treatRun e.frame u = takeTrigger r x := by
        rw [htreat, runTaken_room _ _ (hroom hq), ← hw, runForwarded_enters hwv hstate,
          enterPouring_some hwv (hproj.trans hprojection)]
      have hgate' : x.gate.injFeeder = none ∧ x.gate.replyWindow = s.gate.replyWindow := by
        rw [(hux.same .entries).1, (hux.same .window : _ = _), hgate]
        exact ⟨hinj, rfl⟩
      have hline' : x.line.d.lineFault = false := by
        have hfaults := (hux.same (.recv .D)).2.2.2
        rw [port_D, port_D] at hfaults
        rw [hfaults]
        simpa [hu] using hline
      have hstation : x.station .feeder = some addr := by
        rw [State.station, (hux.same .stations : _ = _)]
        simpa [hu, State.station] using haddr
      obtain ⟨hc', hclosing, hrate, hinjects⟩ := takeTrigger_injects (r := r) hentered rfl hgate'.1 hline' hstation
      refine takes_of (xs := [.visit, .reserved, .rate, .holdStates, .entries, .send .D, .injection]) treatRun h rfl ?_
        (by decide) ?_
      · rw [← hu, hran]
        exact hux.mono.then hc'
      · rw [← hu, hran]
        refine ⟨?_, hsent _ hq (Eq.trans (hc'.same .reserved) (hc.same .reserved))
          (hrate.trans (hc.same .rate).1) ((Keeps.frame hc).trans (takeTrigger_keeps r x)),
          hfilled _ (hc'.same .holdStates), ?_⟩
        · rw [endEvent_seq]
          exact hclosing
        · refine hinjects.endEvent.congr ?_ ?_ ?_ hgate'.2
          · rw [hux.handler]
            simp [hu]
          · have hseq : x.line.injSeq = w.line.injSeq := by rw [hx, pouringState_line]
            rw [hseq, hw, ranState_injSeq]
            simp [hu]
          · rw [(hux.same .clock : _ = _)]
            simp [hu]
    · have hran : treatRun e.frame u = w := by
        rw [htreat, runTaken_room _ _ (hroom hq), ← hw, runForwarded_pouring hwv hpours]
      refine takes_of (xs := [.visit, .reserved, .rate, .send .D, .injection]) treatRun h rfl ?_ (by decide) ?_
      · rw [← hu, hran]
        exact hrw
      · rw [← hu, hran]
        refine ⟨?_, hsent w hq rfl rfl (.refl w)⟩
        rw [endEvent_seq, hwv]
        simp only [run, Visit.ran, ← hpours]
    · refine takes_refused _ h .run ?_
      rw [← hu, htreat]
      exact if_neg (takeHead_U_fullD e rest .run hfull)
  · rw [trimMoment, funext (holdMoment_eq s)]
  · simp only [armOf, hen]
  · simp only [armOf, hnone]
  · refine ⟨fun hq => ?_, fun hq ht => ?_, fun hq ht hm => ?_, fun hq ht hm hg => ?_, fun hq ht hm hg => ?_⟩
    · rw [projection_eq, if_pos hq]
    · rw [projection_eq, if_neg hq, if_pos ((meetsTarget_iff s v).2 ht)]
    · rw [projection_eq, if_neg hq, if_neg (mt (meetsTarget_iff s v).1 ht), if_pos ((meetsTrim_iff s v).2 hm)]
    · rw [projection_eq, if_neg hq, if_neg (mt (meetsTarget_iff s v).1 ht), if_neg (mt (meetsTrim_iff s v).1 hm),
        if_pos ((meetsShipTarget_iff s).2 hg)]
    · rw [projection_eq, if_neg hq, if_neg (mt (meetsTarget_iff s v).1 ht), if_neg (mt (meetsTrim_iff s v).1 hm),
        if_neg (mt (meetsShipTarget_iff s).1 hg)]

end

section
/-! MOVE and HALT (R49 to R55, R60): forwarding, the sweep they end, and the held move. -/

set_option Elab.async false

namespace Sys2Proof.Machine

/-! ## What a forwarded order to an axis ends (R49, R52, R55, R60) -/

theorem ofByte_eq_some_iff (b : Byte) (a : Axis) : Axis.ofByte b = some a ↔ b = a.code := by
  unfold Axis.ofByte
  cases a <;> simp only [Axis.code] <;> split_ifs <;> simp_all

theorem takeHead_U_station (e : RxEntry) (rest : List RxEntry) (row : Instr) (s : State) (r : Role) :
    (takeHead .U e rest row s).station r = s.station r :=
  congrArg (fun v => v[r.index]) ((takeHead_U e rest row s).same .stations : _ = _)

theorem axisAt_taken (e : RxEntry) (rest : List RxEntry) (row : Instr) (s : State) (addr : Byte) :
    (takeHead .U e rest row s).axisAt addr = s.axisAt addr := by
  simp only [State.axisAt, takeHead_U_station]

theorem setEntry_entry (g : Gate) (d : InjDest) (x : Option InjEntry) : (g.setEntry d x).entry d = x := by
  cases d with
  | feeder => rfl
  | drive a => cases a <;> rfl

/-- A cancelled sweep is gone, its entry freed and its unsent MOVE removed (R60). -/
theorem cancelSweep_some {s : State} {w : Sweep} (h : s.place.sweep = some w) :
    (cancelSweep s).place = { s.place with sweep := none } ∧ (cancelSweep s).gate.entry (.drive w.axis) = none
      ∧ ∀ y ∈ (cancelSweep s).line.injection, y.dest ≠ .drive w.axis := by
  have hcancel : cancelSweep s = notice [5, SweepOutcome.code .cancelled, (axisOf w.axis).code, byteOf w.done]
      (setSweep none (abandonOrder (.drive w.axis) s)) := by
    simp only [cancelSweep, h]
    rfl
  rw [hcancel]
  refine ⟨by simp [abandonOrder], ?_, fun y hy => ?_⟩
  · simp [abandonOrder, setEntry_entry]
  · simp [abandonOrder, Line.without] at hy
    exact hy.2

theorem cancelSweep_none {s : State} (h : s.place.sweep = none) : cancelSweep s = s := by simp only [cancelSweep, h]

theorem cancelSweepOn_none (a : DriveAxis) {s : State} (h : s.place.sweep = none) : cancelSweepOn a s = s := by
  simp only [cancelSweepOn, h]

/-- A sweep is ended by an order to its own axis alone. -/
theorem cancelSweepOn_some {s : State} {w : Sweep} (a : DriveAxis) (h : s.place.sweep = some w) :
    (cancelSweepOn a s).place = { s.place with sweep := if w.axis = a then none else some w }
      ∧ (w.axis = a → (cancelSweepOn a s).gate.entry (.drive a) = none) := by
  by_cases ha : w.axis = a
  · have hcancel : cancelSweepOn a s = cancelSweep s := by
      simp only [cancelSweepOn, h]
      exact if_pos ha
    obtain ⟨hplace, hentry, -⟩ := cancelSweep_some h
    rw [hcancel, if_pos ha]
    exact ⟨hplace, fun _ => ha ▸ hentry⟩
  · have hkept : cancelSweepOn a s = s := by
      simp only [cancelSweepOn, h]
      exact if_neg ha
    rw [hkept, if_neg ha, ← h]
    exact ⟨rfl, fun hq => absurd hq ha⟩

theorem dismissHeldMove_some {s : State} {m : HeldMove} (r : Reason) (h : s.place.held = some m) :
    dismissHeldMove r s = refuse .U m.frame r { s with place := { s.place with held := none } } := by
  simp only [dismissHeldMove, h]

theorem dismissHeldMove_none {s : State} (r : Reason) (h : s.place.held = none) : dismissHeldMove r s = s := by
  simp only [dismissHeldMove, h]

theorem dismissHeldOn_held {s : State} {m : HeldMove} (a : DriveAxis) (r : Reason) (h : s.place.held = some m) :
    (dismissHeldOn a r s).place.held = if m.axis = a then none else some m := by
  simp only [dismissHeldOn, h]
  split
  · rw [dismissHeldMove_some r h]
    rfl
  · exact h

/-- A move held for the axis is answered (R52, R55). -/
theorem dismissHeldOn_offered {s : State} {m : HeldMove} {a : DriveAxis} (r : Reason) (h : s.place.held = some m)
    (ha : m.axis = a) (hroom : (s.line.port .U).room = true) :
    OnWire .U (refusalFrame s m.frame r) (dismissHeldOn a r s) := by
  have hdismissed : dismissHeldOn a r s = refuse .U m.frame r { s with place := { s.place with held := none } } := by
    simp only [dismissHeldOn, h]
    rw [if_pos ha, dismissHeldMove_some r h]
  rw [hdismissed]
  exact offer_onWire .U _ _ hroom

theorem dismissHeldOn_place (a : DriveAxis) (r : Reason) (s : State) :
    (dismissHeldOn a r s).place.sweep = s.place.sweep ∧ (dismissHeldOn a r s).gate = s.gate := by
  have hc := dismissHeldOn_changes a r s
  refine ⟨hc.same .sweep, ?_⟩
  unfold dismissHeldOn dismissHeldMove
  split
  · split
    · split <;> rfl
    · rfl
  · rfl

/-- A sweep and a held move that a forwarded HALT leaves (R49, R55, R60). -/
theorem haltAxis_sweep {s : State} {w : Sweep} (a : Axis) (h : s.place.sweep = some w) :
    (haltAxis a s).place.sweep = if axisOf w.axis = a then none else some w := by
  have drive (b : DriveAxis) : (dismissHeldOn b .cancelled (cancelSweepOn b s)).place.sweep
      = if w.axis = b then none else some w := by
    rw [(dismissHeldOn_place _ _ _).1, (cancelSweepOn_some b h).1]
  cases a with
  | gantry => exact (drive .gantry).trans (by cases w.axis <;> rfl)
  | shuttle => exact (drive .shuttle).trans (by cases w.axis <;> rfl)
  | chute => exact h.trans (by cases w.axis <;> rfl)

theorem cancelSweepOn_held (a : DriveAxis) (s : State) : (cancelSweepOn a s).place.held = s.place.held :=
  ((cancelSweepOn_changes a s).same .held : _ = _)

theorem haltAxis_held {s : State} {m : HeldMove} (a : Axis) (h : s.place.held = some m) :
    (haltAxis a s).place.held = if axisOf m.axis = a then none else some m := by
  have drive (b : DriveAxis) : (dismissHeldOn b .cancelled (cancelSweepOn b s)).place.held
      = if m.axis = b then none else some m := dismissHeldOn_held b _ ((cancelSweepOn_held b s).trans h)
  cases a with
  | gantry => exact (drive .gantry).trans (by cases m.axis <;> rfl)
  | shuttle => exact (drive .shuttle).trans (by cases m.axis <;> rfl)
  | chute => exact h.trans (by cases m.axis <;> rfl)

theorem haltAxis_keeps (a : Axis) (s : State) : Keeps s (haltAxis a s) := by
  cases a with
  | gantry => exact (cancelSweepOn_keeps _ s).trans (dismissHeldOn_keeps _ _ _)
  | shuttle => exact (cancelSweepOn_keeps _ s).trans (dismissHeldOn_keeps _ _ _)
  | chute => exact .refl s

/-! ## Forwarding to an axis (R49) -/

/-- An order to an axis that finds room is forwarded, and then ends what it ends. -/
theorem takes_forwardOrder {s : State} {row : Instr} {e : RxEntry} {rest : List RxEntry} {treat : Frame → State → State}
    {k : State → State} {sent : Frame} {xs changed : List Block} {post : State → Prop} (h : Heads s .U row e rest)
    (htreat : Treatment .U row treat) (hroom : s.line.d.txQueue.length < 8)
    (ht : treat e.frame (takeHead .U e rest row s) = forwardOrder e.frame k sent (takeHead .U e rest row s))
    (hc : ∀ u, OnlyChanges xs u (k u)) (hk : ∀ u, Keeps u (k u))
    (hx : ∀ b ∈ [.send .D, .injection] ++ xs, b ∈ closing ++ changed)
    (hp : post (endEvent (k (offer .D sent (takeHead .U e rest row s))))) :
    Takes s .U row e rest changed fun t => OnWire .D sent t ∧ post t := by
  have htaken := takeHead_U_roomD e rest row hroom
  have hforward : treat e.frame (takeHead .U e rest row s) = k (offer .D sent (takeHead .U e rest row s)) := by
    rw [ht]
    exact if_pos htaken
  refine takes_of (xs := [.send .D, .injection] ++ xs) treat h (htreat.exec_eq s) ?_ hx ⟨?_, ?_⟩
  · rw [hforward]
    exact ((offer_D _ _).mono fun b hb => List.mem_append_left _ hb).trans
      ((hc _).mono fun b hb => List.mem_append_right _ hb)
  · rw [hforward]
    exact onWire_forwarded htaken (hk _)
  · rw [hforward]
    exact hp

/-- At a full queue it is refused and ends nothing. -/
theorem takes_orderBusy {s : State} {row : Instr} {e : RxEntry} {rest : List RxEntry} {treat : Frame → State → State}
    {k : State → State} {sent : Frame} (changed : List Block) (h : Heads s .U row e rest) (htreat : Treatment .U row treat)
    (hfull : 8 ≤ s.line.d.txQueue.length)
    (ht : treat e.frame (takeHead .U e rest row s) = forwardOrder e.frame k sent (takeHead .U e rest row s)) :
    Takes s .U row e rest changed fun t => Offered .U (refusalFrame s e.frame .lineBusy) s t :=
  takes_refused changed h htreat (ht.trans (if_neg (takeHead_U_fullD e rest row hfull)))

theorem pourPhase_taken (e : RxEntry) (rest : List RxEntry) (row : Instr) (s : State) :
    pourPhase (takeHead .U e rest row s) = pourPhase s := by
  simp [pourPhase, State.visitPours]

theorem trimming_taken (e : RxEntry) (rest : List RxEntry) (row : Instr) (s : State) (a : DriveAxis) (n : Nat) :
    trimming (takeHead .U e rest row s) a n = trimming s a n := by
  simp [trimming, guardedHold]

theorem endEvent_place (s : State) : (endEvent s).place = s.place := by simp

/-- A taken MOVE whose axis is its destination's. -/
theorem treatMove_axis {s : State} {e : RxEntry} {a : Axis} {target : Nat} (rest : List RxEntry)
    (ha : s.axisAt e.frame.dst = some a) (hparse : parseOrder e.frame.payload = .move a.code target) :
    treatMove e.frame (takeHead .U e rest .move s) = moveAxis a e.frame target (takeHead .U e rest .move s) := by
  simp only [treatMove, axisAt_taken, ha, hparse]
  exact if_pos ((ofByte_eq_some_iff _ _).2 rfl)

/-- The frame that a MOVE is forwarded as (R50). -/
theorem clampMove_eq (a : Axis) (f : Frame) (target n : Nat) :
    clampMove a f target n = if n = target then f else { f with payload := 4 :: a.code :: beBytes 4 n } := rfl

/-- A MOVE to the CHUTE, or outside pour phase (R50, R52). -/
theorem moveAxis_free {s : State} (a : Axis) (f : Frame) (target : Nat) (h : a = .chute ∨ pourPhase s = false) :
    ∃ k : State → State, (∀ u, OnlyChanges [.sweep, .send .U, .entries, .injection] u (k u)) ∧ (∀ u, Keeps u (k u))
      ∧ (∀ u w, u.place.sweep = some w → (k u).place.sweep = if axisOf w.axis = a then none else some w)
      ∧ moveAxis a f target s
        = forwardOrder f k (clampMove a f target ((s.place.travel.limits a).clamp target)) s := by
  have drive (b : DriveAxis) (hb : axisOf b = a) (u : State) (w : Sweep) (hw : u.place.sweep = some w) :
      (cancelSweepOn b u).place.sweep = if axisOf w.axis = a then none else some w := by
    rw [(cancelSweepOn_some b hw).1, ← hb]
    cases w.axis <;> cases b <;> rfl
  cases a with
  | chute =>
    refine ⟨id, fun u => .refl _ u, fun u => .refl u, fun u w hw => ?_, rfl⟩
    rw [id, hw]
    cases w.axis <;> rfl
  | gantry =>
    have hphase : pourPhase s = false := by simpa using h
    refine ⟨cancelSweepOn .gantry, cancelSweepOn_changes _, cancelSweepOn_keeps _, drive .gantry rfl, ?_⟩
    exact if_pos (by rw [hphase]; rfl)
  | shuttle =>
    have hphase : pourPhase s = false := by simpa using h
    refine ⟨cancelSweepOn .shuttle, cancelSweepOn_changes _, cancelSweepOn_keeps _, drive .shuttle rfl, ?_⟩
    exact if_pos (by rw [hphase]; rfl)

/-- A MOVE of a drive in pour phase (R52, R53). -/
theorem moveAxis_pours {s : State} (a : DriveAxis) (f : Frame) (target : Nat) (h : pourPhase s = true) :
    let n := (s.place.travel.limits (axisOf a)).clamp target
    let sent := clampMove (axisOf a) f target n
    moveAxis (axisOf a) f target s
      = if trimming s a n then forwardOrder f (fun s => dismissHeldOn a .superseded (cancelSweepOn a s)) sent s
        else if s.handler.holdMoves then holdMove { axis := a, target := n, frame := sent } (cancelSweepOn a s)
        else refuse .U f .outOfHold (cancelSweepOn a s) := by
  intro n sent
  cases a <;> exact if_neg (by rw [h]; decide)

/-- A held move takes the slot, one that stood there answered before it (R53). -/
theorem holdMove_eq (m : HeldMove) (s : State) : holdMove m s = refuse .U m.frame .held
    { dismissHeldMove .superseded s with
      place := { (dismissHeldMove .superseded s).place with held := some m } } := rfl

theorem holdMove_held (m : HeldMove) (s : State) : (holdMove m s).place.held = some m := rfl

theorem holdMove_sweep (m : HeldMove) (s : State) : (holdMove m s).place.sweep = s.place.sweep :=
  ((holdMove_changes m s).same .sweep : _ = _)

theorem holdMove_gate (m : HeldMove) (s : State) : (holdMove m s).gate = s.gate := by
  rw [holdMove_eq]
  change (dismissHeldMove .superseded s).gate = s.gate
  unfold dismissHeldMove
  split <;> rfl

/-- HELD is offered where no move was held. -/
theorem holdMove_onWire_free {m : HeldMove} {s : State} (h : s.place.held = none)
    (hroom : (s.line.port .U).room = true) : OnWire .U (refusalFrame s m.frame .held) (holdMove m s) := by
  rw [holdMove_eq, dismissHeldMove_none _ h]
  exact offer_onWire .U _ _ hroom

/-- SUPERSEDED is offered before HELD (R53; log entry 17). -/
theorem holdMove_onWire_superseded {m x : HeldMove} {s : State} (h : s.place.held = some x)
    (hroom : (s.line.port .U).room = true) : OnWire .U (refusalFrame s x.frame .superseded) (holdMove m s) := by
  rw [holdMove_eq, dismissHeldMove_some _ h]
  exact OnWire.offer (offer_onWire .U _ _ hroom)

theorem holdMove_onWire_held {m x : HeldMove} {s : State} (h : s.place.held = some x)
    (hroom : s.line.u.txQueue.length < 7) : OnWire .U (refusalFrame s m.frame .held) (holdMove m s) := by
  rw [holdMove_eq, dismissHeldMove_some _ h]
  exact offer_onWire .U _ _ (offer_U_leaves_room (refusalFrame s x.frame .superseded) hroom)

theorem refusalFrame_taken (e : RxEntry) (rest : List RxEntry) (row : Instr) (s : State) (f : Frame) (r : Reason) :
    refusalFrame (takeHead .U e rest row s) f r = refusalFrame s f r := by
  simp [refusalFrame]

/-- A trimming move keeps the spout inside the guarded hold's inner rectangle (R52). -/
theorem trimming_iff (s : State) (a : DriveAxis) (n : Nat) : trimming s a n = true ↔
    ∃ v en o, s.seq.visit = some v ∧ s.place.envelopes[v.hold] = some en
      ∧ ((a = .gantry ∧ s.place.axes.shuttle.pos = some o ∧ en.inside n o = true)
        ∨ (a = .shuttle ∧ s.place.axes.gantry.pos = some o ∧ en.inside o n = true)) := by
  unfold trimming guardedHold
  cases hv : s.seq.visit with
  | none => simp
  | some v =>
    simp only [Option.map_some]
    cases hen : s.place.envelopes[v.hold] with
    | none =>
      refine iff_of_false (by simp) ?_
      rintro ⟨v', en, o, hv', hen', -⟩
      obtain rfl := Option.some.inj hv'
      exact absurd (hen.symm.trans hen') (by simp)
    | some en =>
      constructor
      · intro ht
        refine ⟨v, en, ?_⟩
        cases a with
        | gantry =>
          cases hpos : s.place.axes.shuttle.pos with
          | none => simp [hpos] at ht
          | some o => exact ⟨o, rfl, hen, .inl ⟨rfl, rfl, by simpa [hpos] using ht⟩⟩
        | shuttle =>
          cases hpos : s.place.axes.gantry.pos with
          | none => simp [hpos] at ht
          | some o => exact ⟨o, rfl, hen, .inr ⟨rfl, rfl, by simpa [hpos] using ht⟩⟩
      · rintro ⟨v', en', o, hv', hen', ⟨rfl, hpos, hin⟩ | ⟨rfl, hpos, hin⟩⟩
        all_goals
          obtain rfl := Option.some.inj hv'
          obtain rfl := Option.some.inj (hen.symm.trans hen')
          simpa [hpos] using hin

theorem inside_iff (en : Envelope) (g sh : Nat) : en.inside g sh = true ↔
    en.gantryMin + en.margin ≤ g ∧ g ≤ en.gantryMax - en.margin
      ∧ en.shuttleMin + en.margin ≤ sh ∧ sh ≤ en.shuttleMax - en.margin := decide_eq_true_iff

end Sys2Proof.Machine

open Sys2Proof Sys2Proof.Machine

/-- Settles O43. -/
theorem haltForwarded : Obligations.HaltForwarded := by
  intro s e rest a b h ha hparse
  have htreat (hb : b = a.code) : treatHalt e.frame (takeHead .U e rest .halt s)
      = forwardOrder e.frame (haltAxis a) e.frame (takeHead .U e rest .halt s) := by
    simp only [treatHalt, axisAt_taken, ha, hparse]
    exact if_pos ((ofByte_eq_some_iff _ _).2 hb)
  refine ⟨fun hb hroom => ?_, fun hb hfull => ?_, fun hb => ?_⟩
  · refine takes_forwardOrder h .halt hroom (htreat hb) (haltAxis_changes a) (haltAxis_keeps a) (by decide) ?_
    rw [endEvent_place]
    exact ⟨fun w hw => haltAxis_sweep a (by simpa using hw), fun m hm => haltAxis_held a (by simpa using hm)⟩
  · exact takes_orderBusy _ h .halt hfull (htreat hb)
  · refine takes_refused _ h .halt ?_
    simp only [treatHalt, axisAt_taken, ha, hparse]
    exact if_neg (mt (ofByte_eq_some_iff _ _).1 hb)

/-- Settles O41. -/
theorem moveForwarded : Obligations.MoveForwarded := by
  intro s e rest a b target h ha hparse lim clamped
  have hlimits : (takeHead .U e rest .move s).place.travel.limits a = lim := by simp [lim]
  have hfree (hp : a = .chute ∨ pourPhase s = false) :=
    moveAxis_free (s := takeHead .U e rest .move s) a e.frame target (by rwa [pourPhase_taken])
  refine ⟨fun hb hp hroom => ?_, fun hb hp hfull => ?_, fun hb => ?_⟩
  · subst hb
    obtain ⟨k, hc, hk, hsweep, hmove⟩ := hfree hp
    rw [hlimits] at hmove
    refine takes_forwardOrder h .move hroom ((treatMove_axis rest ha hparse).trans hmove) hc hk (by decide) ?_
    rw [endEvent_place]
    refine ⟨fun w hw hwa => ?_, fun w hw hwa => ?_⟩
    · rw [hsweep _ w (by simpa using hw), if_pos hwa]
    · rw [hsweep _ w (by simpa using hw), if_neg hwa]
  · subst hb
    obtain ⟨k, -, -, -, hmove⟩ := hfree hp
    exact takes_orderBusy _ h .move hfull ((treatMove_axis rest ha hparse).trans hmove)
  · refine takes_refused _ h .move ?_
    simp only [treatMove, axisAt_taken, ha, hparse]
    exact if_neg (mt (ofByte_eq_some_iff _ _).1 hb)

/-- Settles O42. -/
theorem leavingMoveHeldOrRefused : Obligations.LeavingMoveHeldOrRefused := by
  intro s e rest a target h ha hparse lim clamped sent hphase
  set u := takeHead .U e rest .move s with hu
  have hlimits : (u.place.travel.limits (axisOf a)).clamp target = clamped := by
    rw [hu, AxisLimits.clamp]
    simp [clamped, lim]
  have htreat : treatMove e.frame u
      = if trimming s a clamped then
          forwardOrder e.frame (fun s => dismissHeldOn a .superseded (cancelSweepOn a s)) sent u
        else if s.handler.holdMoves then
          holdMove { axis := a, target := clamped, frame := sent } (cancelSweepOn a u)
        else refuse .U e.frame .outOfHold (cancelSweepOn a u) := by
    have hmove := moveAxis_pours a e.frame target (s := u) (by rwa [hu, pourPhase_taken])
    have hhandler : u.handler = s.handler := by simp [hu]
    rw [hlimits, hhandler] at hmove
    rw [hu, treatMove_axis rest ha hparse, ← hu, hmove, hu, trimming_taken]
    rfl
  have hplace : u.place = s.place := by simp [hu]
  have hroomU : (u.line.port .U).room = (s.line.port .U).room := by rw [hu, takeHead_U_room]
  refine ⟨fun ht hsweep => ⟨fun hhold => ?_, fun hhold => ?_⟩, fun w ht hsweep => ?_, fun ht hroom => ?_,
    fun ht hfull => ?_, trimming_iff s a clamped, inside_iff⟩
  · have hheld : treatMove e.frame u = holdMove { axis := a, target := clamped, frame := sent } u := by
      rw [htreat, ht, hhold, cancelSweepOn_none a (by rw [hplace, hsweep])]
      rfl
    refine takes_of (xs := [.held, .send .U]) treatMove h rfl ?_ (by decide) ?_
    · rw [← hu, hheld]
      exact holdMove_changes _ _
    · rw [← hu, hheld]
      refine ⟨?_, fun hnone hr => ?_, fun m hm => ⟨fun hr => ?_, fun hr => ?_⟩⟩
      · rw [endEvent_place, holdMove_held]
      · rw [← refusalFrame_taken e rest .move, ← hu]
        exact (holdMove_onWire_free (by rw [hplace, hnone]) (by rw [hroomU, hr])).endEvent
      · rw [← refusalFrame_taken e rest .move, ← hu]
        exact (holdMove_onWire_superseded (by rw [hplace, hm]) (by rw [hroomU, hr])).endEvent
      · rw [← refusalFrame_taken e rest .move, ← hu]
        refine (holdMove_onWire_held (by rw [hplace, hm]) ?_).endEvent
        simpa [hu] using hr
  · refine takes_refused _ h .move ?_
    rw [← hu, htreat, ht, hhold, cancelSweepOn_none a (by rw [hplace, hsweep])]
    rfl
  · obtain ⟨hcancelled, hentry⟩ := cancelSweepOn_some a (s := u) (w := w) (by rw [hplace, hsweep])
    have hc := cancelSweepOn_changes a u
    by_cases hhold : s.handler.holdMoves = true
    · have hheld : treatMove e.frame u
          = holdMove { axis := a, target := clamped, frame := sent } (cancelSweepOn a u) := by
        rw [htreat, ht, hhold]
        rfl
      refine takes_of (xs := [.held, .sweep, .entries, .injection, .send .U]) treatMove h rfl ?_ (by decide) ?_
      · rw [← hu, hheld]
        exact hc.mono.then (holdMove_changes _ _)
      · rw [← hu, hheld, if_pos hhold]
        refine ⟨?_, fun hw => ?_, ?_⟩
        · rw [endEvent_place, holdMove_sweep, hcancelled]
        · rw [(endEvent_closes _).entry, holdMove_gate]
          exact hentry hw
        · rw [endEvent_place, holdMove_held]
    · have hrefused : treatMove e.frame u = refuse .U e.frame .outOfHold (cancelSweepOn a u) := by
        rw [htreat, ht, if_neg (by decide), if_neg hhold]
      refine takes_of (xs := [.held, .sweep, .entries, .injection, .send .U]) treatMove h rfl ?_ (by decide) ?_
      · rw [← hu, hrefused]
        exact hc.mono.then (refuse_U _ _ _)
      · rw [← hu, hrefused, if_neg hhold]
        refine ⟨?_, fun hw => ?_, ?_⟩
        · rw [endEvent_place]
          exact congrArg Placement.sweep hcancelled
        · rw [(endEvent_closes _).entry]
          exact hentry hw
        · rw [endEvent_place]
          exact (congrArg Placement.held hcancelled).trans (congrArg (·.held) hplace)
  · refine takes_forwardOrder h .move hroom (k := fun s => dismissHeldOn a .superseded (cancelSweepOn a s))
      (by rw [← hu, htreat, ht]; rfl) (xs := [.held, .sweep, .entries, .injection, .send .U])
      (fun u => (cancelSweepOn_changes a u).mono.then (dismissHeldOn_changes _ _ _))
      (fun u => (cancelSweepOn_keeps a u).trans (dismissHeldOn_keeps _ _ _)) (by decide) ?_
    rw [← hu]
    have hplace' : (offer .D sent u).place = s.place := hplace
    refine ⟨fun w hw => ?_, fun m hm => ⟨?_, fun hma hsweep hr => ?_⟩⟩
    · rw [endEvent_place, (dismissHeldOn_place _ _ _).1, (cancelSweepOn_some a (by rw [hplace', hw])).1]
    · rw [endEvent_place, dismissHeldOn_held a _ (m := m)]
      rw [cancelSweepOn_held, hplace', hm]
    · rw [cancelSweepOn_none a (by rw [hplace', hsweep])]
      have hroom' : ((offer .D sent u).line.port .U).room = true := by
        have hqueue : (offer .D sent u).line.u.txQueue = u.line.u.txQueue := ((offer_D sent u).same (.send .U)).1
        rw [← hroomU] at hr
        rwa [port_U, room_iff, hqueue, ← room_iff]
      have hoffered := (dismissHeldOn_offered .superseded (by rw [hplace', hm]) hma hroom').endEvent
      have hframe : refusalFrame (offer .D sent u) m.frame .superseded = refusalFrame s m.frame .superseded := by
        simp [refusalFrame, hu]
      rwa [hframe] at hoffered
  · refine takes_orderBusy (k := fun s => dismissHeldOn a .superseded (cancelSweepOn a s)) (sent := sent) _ h .move hfull ?_
    rw [← hu, htreat, ht]
    rfl

end

section
/-! The requests that open and close a ship (R162 to R165) and set the options (R193). -/

set_option Elab.async false

namespace Sys2Proof.Machine

/-! ## Requests that are answered DONE -/

/-- What holds of the next state may be weakened. -/
theorem Takes.imp {s : State} {p : PortId} {row : Instr} {e : RxEntry} {rest : List RxEntry} {changed : List Block}
    {post post' : State → Prop} (h : Takes s p row e rest changed post) (hp : ∀ t, post t → post' t) :
    Takes s p row e rest changed post' := by
  obtain ⟨t, hexec, hchanges, hpost⟩ := h
  exact ⟨t, hexec, hchanges, hp t hpost⟩

/-- The state in which a taken request has been answered DONE. -/
def answered (e : RxEntry) (rest : List RxEntry) (row : Instr) (s : State) : State :=
  answerDone e.frame [] (takeHead .U e rest row s)

/-- A taken and answered request leaves everything but port U and its LINE FAULT alarm. -/
theorem answered_fields (e : RxEntry) (rest : List RxEntry) (row : Instr) (s : State) :
    (answered e rest row s).handler = s.handler ∧ (answered e rest row s).stations = s.stations ∧
    (answered e rest row s).pins = s.pins ∧ (answered e rest row s).now = s.now ∧
    (answered e rest row s).meter = s.meter ∧ (answered e rest row s).flight = s.flight ∧
    (answered e rest row s).place = s.place ∧ (answered e rest row s).seq = s.seq ∧
    (answered e rest row s).gate = s.gate ∧ (answered e rest row s).dust = s.dust ∧
    (answered e rest row s).bills = s.bills ∧ (answered e rest row s).ship = s.ship ∧
    (answered e rest row s).line.d = s.line.d ∧ (answered e rest row s).line.injection = s.line.injection ∧
    (answered e rest row s).line.injSeq = s.line.injSeq := by
  simp [answered]

theorem answered_source (e : RxEntry) (rest : List RxEntry) (row : Instr) (s : State) {i : SourceNo}
    (hi : i ≠ srcLineFault .U) : (answered e rest row s).ladder.sources[i] = s.ladder.sources[i] :=
  answerDone_taken_source e rest row [] s hi

theorem answered_room {s : State} (e : RxEntry) (rest : List RxEntry) (row : Instr)
    (h : s.line.u.txQueue.length < 7) : ((answered e rest row s).line.port .U).room = true :=
  offer_U_leaves_room _ (by simpa using h)

/-- A request that is answered DONE and brings about its effect. -/
theorem takes_requestDone {s : State} {row : Instr} {e : RxEntry} {rest : List RxEntry} {treat : Frame → State → State}
    {u : State} {xs changed : List Block} {post : State → Prop} {bs : List Byte} (h : Heads s .U row e rest)
    (htreat : Treatment .U row treat) (ht : treat e.frame (takeHead .U e rest row s) = u)
    (hc : OnlyChanges xs (answered e rest row s) u) (hk : Keeps (answered e rest row s) u)
    (hbs : bs = [payloadCode e.frame, 0, 0]) (hx : ∀ b ∈ xs, b ∈ closing ++ changed)
    (hp : Offered .U (answerFrame s e.frame bs) s (endEvent u) → post (endEvent u)) :
    Takes s .U row e rest changed post := by
  refine takes_of (xs := .send .U :: xs) treat h (htreat.exec_eq s) ?_ ?_ ?_
  · rw [ht]
    exact ((answerDone_changes e.frame [] _).mono (by simp)).trans (hc.mono fun b hb => List.mem_cons_of_mem _ hb)
  · simpa [closing] using hx
  · rw [ht]
    exact hp (offered_done (bs := []) (by rw [hbs]) hk)

/-- A request that is answered refused, and changes nothing. -/
theorem takes_answerRefused {s : State} {row : Instr} {e : RxEntry} {rest : List RxEntry} {treat : Frame → State → State}
    {r : Reason} {bs : List Byte} (h : Heads s .U row e rest) (htreat : Treatment .U row treat)
    (ht : treat e.frame (takeHead .U e rest row s) = answerRefused e.frame r (takeHead .U e rest row s))
    (hbs : bs = [payloadCode e.frame, 1, r.code]) :
    Takes s .U row e rest [] fun t => Offered .U (answerFrame s e.frame bs) s t := by
  refine takes_of (xs := [.send .U]) treat h (htreat.exec_eq s) ?_ (by decide) ?_
  · rw [ht]
    exact answerRefused_changes _ _ _
  · rw [ht]
    exact offered_refused hbs

theorem answerRequest_some (f : Frame) {r : Reason} {reason : Option Reason} (k : State → State) (s : State)
    (h : reason = some r) : answerRequest f reason k s = refuseRequest f r s := by rw [h, answerRequest]

theorem answerRequest_none (f : Frame) {reason : Option Reason} (k : State → State) (s : State) (h : reason = none) :
    answerRequest f reason k s = k (answerDone f [] s) := by rw [h, answerRequest]

/-! ## OPEN_SHIP (R162, R163) -/

theorem openRefusal_taken (e : RxEntry) (rest : List RxEntry) (row : Instr) (s : State) (n : Nat) :
    openRefusal (takeHead .U e rest row s) n = openRefusal s n := by
  simp [openRefusal, State.ready]

theorem ship_state_cases (s : State) : s.ship.state = .noShip ∨ s.ship.state = .open := by
  cases s.ship.state <;> simp

/-- No ship is open, nothing is in flight and the feeder does not run (R162). -/
def OpenIdle (s : State) : Prop := s.ship.state = .noShip ∧ s.flight.total = 0 ∧ s.gate.feeder ≠ .running

theorem openRefusal_badValue {s : State} {n : Nat} (h : between 1 65535 n = false) :
    openRefusal s n = some .badValue := by simp [openRefusal, h]

theorem openRefusal_notReady {s : State} {n : Nat} (h : between 1 65535 n = true) (hr : s.ready = false) :
    openRefusal s n = some .notReady := by simp [openRefusal, h, hr]

theorem openRefusal_busy {s : State} {n : Nat} (h : between 1 65535 n = true) (hr : s.ready = true) (hi : ¬ OpenIdle s) :
    openRefusal s n = some .busy := by
  rw [openRefusal, h, hr, if_neg (by simp), if_neg (by simp)]
  split_ifs with h1 h2 h3 h4
  · rfl
  · rfl
  · rfl
  · exact absurd ⟨(ship_state_cases s).resolve_right h1, by omega, h3⟩ hi
  · exact absurd ⟨(ship_state_cases s).resolve_right h1, by omega, h3⟩ hi

theorem openRefusal_idle {s : State} {n : Nat} (h : between 1 65535 n = true) (hr : s.ready = true) (hi : OpenIdle s) :
    openRefusal s n = if s.bills.free = 0 then some .billFull else none := by
  obtain ⟨hship, hflight, hfeeder⟩ := hi
  rw [openRefusal, h, hr, if_neg (by simp), if_neg (by simp), if_neg (by rw [hship]; simp), if_neg (by omega),
    if_neg hfeeder]

/-- The state that OPEN_SHIP's record is issued in (R163). -/
def openedShip (n : Nat) (s : State) : State :=
  { s with
    ship := { s.ship with number := some n, weighed := 0, accounts := Vector.replicate 13 0,
                          bases := Vector.replicate 13 0, state := .open }
    seq := { s.seq with holdStates := Vector.replicate 12 .idle }
    bills := { s.bills with unbilled := false } }

theorem openShip_eq (n : Nat) (s : State) : openShip n s = issue false (.shipOpen n) (openedShip n s) := rfl

theorem openedShip_changes (n : Nat) (s : State) :
    OnlyChanges [.ship, .accounts, .bases, .weighed, .holdStates, .unbilled] s (openedShip n s) := by
  intro b hb
  cases b <;> simp_all [Same, openedShip]

theorem openShip_changes (n : Nat) (s : State) : OnlyChanges openBlocks s (openShip n s) :=
  (openedShip_changes n s).mono.then (issue_changes _ _ _)

theorem openShip_keeps (n : Nat) (s : State) : Keeps s (openShip n s) := by
  obtain ⟨-, -, -, -, -, -, -, -, hline⟩ := issue_kept false (.shipOpen n) (openedShip n s)
  exact .line hline

/-! ## CLOSE_SHIP (R164, R165) -/

theorem closeRefusal_taken (e : RxEntry) (rest : List RxEntry) (row : Instr) (s : State) :
    closeRefusal (takeHead .U e rest row s) = closeRefusal s := by
  simp [closeRefusal, State.ready]

/-- The plan does not run, no visit is open, nothing is in flight and the feeder does not run (R164). -/
def CloseIdle (s : State) : Prop :=
  s.seq.plan ≠ .active ∧ s.seq.visit = none ∧ s.flight.total = 0 ∧ s.gate.feeder ≠ .running

theorem closeRefusal_busy {s : State} (hr : s.ready = true) (hs : s.ship.state = .open) (hi : ¬ CloseIdle s) :
    closeRefusal s = some .busy := by
  rw [closeRefusal, hr, if_neg (by simp), if_neg (by rw [hs]; simp)]
  split_ifs with h1 h2 h3 h4 h5
  · rfl
  · rfl
  · rfl
  · rfl
  · exact absurd ⟨h1, by simpa using h2, by omega, h4⟩ hi
  · exact absurd ⟨h1, by simpa using h2, by omega, h4⟩ hi

theorem closeRefusal_idle {s : State} (hr : s.ready = true) (hs : s.ship.state = .open) (hi : CloseIdle s) :
    closeRefusal s = if s.bills.free = 0 then some .billFull else none := by
  obtain ⟨hplan, hvisit, hflight, hfeeder⟩ := hi
  rw [closeRefusal, hr, if_neg (by simp), if_neg (by rw [hs]; simp), if_neg hplan, if_neg (by rw [hvisit]; simp),
    if_neg (by omega), if_neg hfeeder]

/-- The state that CLOSE_SHIP's record is issued in (R148, R165). -/
def cutShip (s : State) : State := issue false (closeRecord s) (setBases (closeLineAccounts s) s)

theorem closeShip_eq (s : State) : closeShip s
    = clearPlan { cutShip s with
        bills := { (cutShip s).bills with unbilled := false }
        ship := { (cutShip s).ship with unassigned := 0, state := .noShip } } := rfl

theorem closeShip_changes (s : State) : OnlyChanges closeBlocks s (closeShip s) := by
  have hcut : OnlyChanges closeBlocks s (cutShip s) :=
    (setBases_changes (closeLineAccounts s) s).mono.then (issue_changes _ _ _)
  refine hcut.trans ?_
  rw [closeShip_eq]
  intro b hb
  cases b <;> simp_all [Same, closeBlocks, clearPlan]

theorem closeShip_keeps (s : State) : Keeps s (closeShip s) := by
  obtain ⟨-, -, -, -, -, -, -, -, hline⟩ := issue_kept false (closeRecord s) (setBases (closeLineAccounts s) s)
  exact .line hline

theorem setBases_get (as : List Account) (s : State) (a : Account) :
    (setBases as s).ship.bases[a] = if a ∈ as then roundKg s.ship.accounts[a] else s.ship.bases[a] := by
  simp [setBases, ShipAccount.rounded]

/-- The accounts that SHIP_CLOSE states: UNPLACED, those that hold grain, and those of loaded holds (R147). -/
theorem mem_closeLineAccounts (s : State) (a : Account) : a ∈ closeLineAccounts s ↔
    a = unplaced ∨ s.ship.accounts[a] ≠ 0 ∨ ∃ h : Hold, holdAccount h = a ∧ s.seq.holds[h] ≠ none := by
  have hloaded : accountLoaded s a = true ↔ ∃ h : Hold, holdAccount h = a ∧ s.seq.holds[h] ≠ none := by
    unfold accountLoaded accountHold
    by_cases ha : a.val < 12
    · simp only [dif_pos ha]
      constructor
      · intro h
        exact ⟨⟨a.val, ha⟩, rfl, Option.isSome_iff_ne_none.1 h⟩
      · rintro ⟨h, rfl, hh⟩
        exact Option.isSome_iff_ne_none.2 hh
    · simp only [dif_neg ha, Bool.false_eq_true, false_iff]
      rintro ⟨h, rfl, -⟩
      exact ha h.isLt
  rw [closeLineAccounts, List.mem_filter, ← hloaded]
  simp only [List.mem_finRange, true_and, Bool.or_eq_true, beq_iff_eq, bne_iff_ne]
  tauto

theorem closeLineAccounts_sorted (s : State) : (closeLineAccounts s).Pairwise (· < ·) :=
  (List.pairwise_lt_finRange 13).filter _

/-- The record of SHIP_CLOSE (R147). -/
theorem closeRecord_eq {s : State} {n : Nat} (h : s.ship.number = some n) : closeRecord s
    = .shipClose n ((closeLineAccounts s).map fun a => ⟨a, false, roundKg s.ship.accounts[a] - s.ship.bases[a]⟩)
        (roundKg s.ship.weighed) (roundKg s.ship.unassigned) := by
  rw [closeRecord, h]
  rfl

theorem closeRecord_congr {s t : State} (hship : t.ship = s.ship) (hseq : t.seq = s.seq) : closeRecord t = closeRecord s := by
  cases s
  cases t
  obtain rfl := hship
  obtain rfl := hseq
  rfl

theorem closeLineAccounts_congr {s t : State} (hship : t.ship = s.ship) (hseq : t.seq = s.seq) :
    closeLineAccounts t = closeLineAccounts s := by
  cases s
  cases t
  obtain rfl := hship
  obtain rfl := hseq
  rfl

end Sys2Proof.Machine

open Sys2Proof Sys2Proof.Machine

/-- Settles O48. -/
theorem shipOpened : Obligations.ShipOpened := by
  intro s e rest a b h hpayload n idle full
  have hcode : payloadCode e.frame = 5 := h.code rfl
  have hn : fieldAt e.frame.payload 1 2 = n := by
    simp [hpayload, fieldAt, beNat, n]
  have hrange (hne : n ≠ 0) : between 1 65535 n = true := by
    have ha := a.isLt
    have hb := b.isLt
    simp only [between, decide_eq_true_eq]
    omega
  refine ⟨fun hne hr hidle hfull => ?_, fun r hr => ?_⟩
  · have hnone : openRefusal s n = none := by
      rw [openRefusal_idle (hrange hne) hr hidle, if_neg fun hz => (free_eq_zero_iff _).1 hz (by omega)]
    set u := answered e rest .openShip s with hu
    have htreat : treatOpenShip e.frame (takeHead .U e rest .openShip s) = openShip n u := by
      rw [treatOpenShip, hn]
      exact answerRequest_none _ _ _ ((openRefusal_taken e rest .openShip s n).trans hnone)
    obtain ⟨-, -, -, -, -, -, -, hseq, -, -, hbills, hship, -⟩ := answered_fields e rest .openShip s
    rw [← hu] at hseq hbills hship
    obtain ⟨hrecords, hnext, hreserved, hmark⟩ := issue_spec false (.shipOpen n) (openedShip n u)
    obtain ⟨hseq', hship', -⟩ := issue_kept false (.shipOpen n) (openedShip n u)
    have hunbilled : (openShip n u).bills.unbilled = (openedShip n u).bills.unbilled :=
      (issue_changes false (.shipOpen n) (openedShip n u)).same .unbilled
    rw [← openShip_eq] at hrecords hnext hreserved hmark hseq' hship'
    refine takes_requestDone h .openShip htreat (openShip_changes n u) (openShip_keeps n u) (by rw [hcode])
      (by decide) fun hanswer => ?_
    obtain ⟨hseq'', hbills', hship'', -⟩ := endEvent_closes (openShip n u)
    have hnow : (openedShip n u).bills = { s.bills with unbilled := false } := by
      rw [← hbills]
      rfl
    rw [hnow] at hrecords hnext hreserved hunbilled
    rw [hseq'', hship'', hbills', hseq', hship', hrecords, hnext, hreserved]
    refine ⟨rfl, rfl, rfl, fun x => ?_, fun x => ?_, rfl, rfl, rfl, hunbilled, ?_, hanswer⟩
    · simp [openedShip]
    · simp [openedShip]
    · refine (hmark.congr ?_ ?_ ?_ (answered_source e rest .openShip s (by decide)) rfl rfl).endEvent <;> rw [hnow]
  · refine takes_requestRefused h .openShip (by rw [hcode]) ?_
    rw [treatOpenShip, hn]
    refine answerRequest_some _ _ _ ((openRefusal_taken e rest .openShip s n).trans ?_)
    rcases hr with ⟨rfl, hz⟩ | ⟨rfl, hne, hr⟩ | ⟨rfl, hne, hr, hbusy⟩ | ⟨rfl, hne, hr, hidle, hfull⟩
    · exact openRefusal_badValue (by rw [hz]; decide)
    · exact openRefusal_notReady (hrange hne) hr
    · exact openRefusal_busy (hrange hne) hr hbusy
    · rw [openRefusal_idle (hrange hne) hr hidle, if_pos ((free_eq_zero_iff _).2 (by omega))]

/-- Settles O49. -/
theorem shipClosed : Obligations.ShipClosed := by
  intro s e rest h idle full kg stated
  have hcode : payloadCode e.frame = 6 := h.code rfl
  refine ⟨fun n hr hopen hnumber hidle hfull => ?_, fun r hr => ?_⟩
  · have hnone : closeRefusal s = none := by
      rw [closeRefusal_idle hr hopen hidle, if_neg fun hz => (free_eq_zero_iff _).1 hz (by omega)]
    set u := answered e rest .closeShip s with hu
    have htreat : treatCloseShip e.frame (takeHead .U e rest .closeShip s) = closeShip u :=
      answerRequest_none _ _ _ ((closeRefusal_taken e rest .closeShip s).trans hnone)
    obtain ⟨-, -, -, -, -, -, -, hseq, -, -, hbills, hship, -⟩ := answered_fields e rest .closeShip s
    rw [← hu] at hseq hbills hship
    obtain ⟨hrecords, hnext, -, hmark⟩ := issue_spec false (closeRecord u) (setBases (closeLineAccounts u) u)
    obtain ⟨-, hship', -⟩ := issue_kept false (closeRecord u) (setBases (closeLineAccounts u) u)
    have hcutBills : (setBases (closeLineAccounts u) u).bills = s.bills := hbills
    have hlines : closeLineAccounts u = closeLineAccounts s := closeLineAccounts_congr hship hseq
    have hissued : (closeShip u).bills.records = s.bills.records ++ [⟨s.bills.nextSeq, closeRecord s⟩] := by
      change (cutShip u).bills.records = _
      rw [cutShip, hrecords, hcutBills, closeRecord_congr hship hseq]
    rw [closeRecord_eq hnumber] at hissued
    rw [hcutBills] at hnext
    refine takes_requestDone h .closeShip htreat (closeShip_changes u) (closeShip_keeps u) (by rw [hcode])
      (by decide) fun hanswer => ?_
    obtain ⟨hseq', hbills', hship'', -⟩ := endEvent_closes (closeShip u)
    rw [hseq', hbills', hship'']
    refine ⟨rfl, ?_, rfl, rfl, rfl, rfl, rfl, rfl, rfl, rfl, rfl, fun a ha => ?_,
      ⟨closeLineAccounts s, mem_closeLineAccounts s, closeLineAccounts_sorted s, hissued⟩, hnext, ?_, hanswer⟩
    · refine (congrArg ShipAccount.number hship').trans ?_
      change u.ship.number = some n
      rw [hship, hnumber]
    · have hissue := congrArg ShipAccount.bases hship'
      have hbases : (closeShip u).ship.bases = (setBases (closeLineAccounts u) u).ship.bases := hissue
      rw [hbases, setBases_get, hlines, if_pos ((mem_closeLineAccounts s a).2 ha), hship]
      rfl
    · refine (hmark.congr (t' := closeShip u) (by rw [hcutBills]) (by rw [hcutBills]) (by rw [hcutBills]) ?_ rfl rfl).endEvent
      exact answered_source e rest .closeShip s (by decide)
  · refine takes_requestRefused h .closeShip (by rw [hcode]) ?_
    refine answerRequest_some _ _ _ ((closeRefusal_taken e rest .closeShip s).trans ?_)
    rcases hr with ⟨rfl, hr⟩ | ⟨rfl, hr, hs⟩ | ⟨rfl, hr, hs, hbusy⟩ | ⟨rfl, hr, hs, hidle, hfull⟩
    · simp [closeRefusal, hr]
    · simp [closeRefusal, hr, hs]
    · exact closeRefusal_busy hr hs hbusy
    · rw [closeRefusal_idle hr hs hidle, if_pos ((free_eq_zero_iff _).2 (by omega))]

end

section
/-! SET_OPTIONS (R175, R193). -/

set_option Elab.async false

namespace Sys2Proof.Machine

/-! ## The request's fields (R193) -/

theorem marked_eq (mask : Byte) (k : Nat) : marked mask k = mask.getLsbD k := by
  rw [marked, BitVec.getLsbD, Nat.testBit_eq_decide_div_mod_eq]
  rfl

/-- The marked options lie in their ranges. -/
def OptionsInRange (mask leave hold own thr : Byte) : Prop :=
  mask.toNat < 16 ∧ (mask.getLsbD 0 = true → leave.toNat ≤ 1) ∧ (mask.getLsbD 1 = true → hold.toNat ≤ 1)
    ∧ (mask.getLsbD 2 = true → 1 ≤ own.toNat ∧ own.toNat ≤ 62) ∧ (mask.getLsbD 3 = true → 1 ≤ thr.toNat)

theorem optionsInRange_iff (mask leave hold own thr : Byte) :
    optionsInRange mask leave hold own thr = true ↔ OptionsInRange mask leave hold own thr := by
  simp only [optionsInRange, marked_eq, between, OptionsInRange, Bool.and_eq_true, Bool.or_eq_true, Bool.not_eq_true',
    decide_eq_true_eq, ← Bool.not_eq_true, ← imp_iff_not_or, and_assoc]

theorem index_surjective (k : Fin 14) : ∃ r : Role, r.index = k := by
  by_cases hk : k.val < 6
  · have hsmall : k = 0 ∨ k = 1 ∨ k = 2 ∨ k = 3 ∨ k = 4 ∨ k = 5 := by omega
    rcases hsmall with rfl | rfl | rfl | rfl | rfl | rfl
    exacts [⟨.scale, rfl⟩, ⟨.feeder, rfl⟩, ⟨.gantry, rfl⟩, ⟨.shuttle, rfl⟩, ⟨.chute, rfl⟩, ⟨.holdsense, rfl⟩]
  · refine ⟨.dust ⟨k.val - 6, by omega⟩, Fin.ext ?_⟩
    simp only [Role.index]
    omega

theorem ownAddrTaken_iff (s : State) (own : Byte) : ownAddrTaken s own = true ↔ ∃ r : Role, s.station r = some own := by
  rw [ownAddrTaken, List.any_eq_true]
  constructor
  · rintro ⟨a, ha, heq⟩
    obtain ⟨k, hk, rfl⟩ := List.mem_iff_getElem.1 ha
    obtain ⟨r, hr⟩ := index_surjective ⟨k, by simpa using hk⟩
    refine ⟨r, ?_⟩
    simpa only [State.station, hr, Fin.getElem_fin, Vector.getElem_toList, beq_iff_eq] using heq
  · rintro ⟨r, hr⟩
    have hmem : s.station r ∈ s.stations.toList := Vector.mem_toList_iff.2 (Vector.getElem_mem r.index.isLt)
    exact ⟨some own, hr ▸ hmem, by simp⟩

/-- The handler with every marked option at its new value. -/
def chosenHandler (mask leave hold own thr : Byte) (h : Handler) : Handler :=
  { h with
    leave := if mask.getLsbD 0 then (if leave = 0 then .early else .late) else h.leave
    holdMoves := if mask.getLsbD 1 then hold == 1 else h.holdMoves
    ownAddr := if mask.getLsbD 2 then own else h.ownAddr
    threshold := if mask.getLsbD 3 then thr.toNat else h.threshold }

/-! ## The test for LINE FAULT (R175) -/

theorem lineFaultTest_enters {p : PortId} {s : State} (hl : (s.line.port p).lineFault = false)
    (ht : s.handler.threshold ≤ (s.line.port p).tally) : lineFaultTest p s = enterLineFault p s :=
  if_pos (by simp [hl, ht])

theorem lineFaultTest_stays {p : PortId} {s : State}
    (h : ¬ ((s.line.port p).lineFault = false ∧ s.handler.threshold ≤ (s.line.port p).tally)) : lineFaultTest p s = s :=
  if_neg (by simpa using h)

theorem lineFaultTest_lineFault (p : PortId) (s : State) : ((lineFaultTest p s).line.port p).lineFault
    = ((s.line.port p).lineFault || decide (s.handler.threshold ≤ (s.line.port p).tally)) := by
  by_cases h : (s.line.port p).lineFault = false ∧ s.handler.threshold ≤ (s.line.port p).tally
  · rw [lineFaultTest_enters h.1 h.2, (enterLineFault_enters p s).1, h.1]
    simp [h.2]
  · rw [lineFaultTest_stays h]
    cases hl : (s.line.port p).lineFault <;> simp_all

theorem enterLineFault_D_source (s : State) :
    LeavesSources [srcLineFault .D, srcCloseoutNotIssued, srcTrimBound, srcBillMark] s (enterLineFault .D s) := by
  have hset : LeavesSources [srcLineFault .D, srcCloseoutNotIssued, srcTrimBound, srcBillMark] s
      (setLinePort .D { s.line.d with lineFault := true } s) := .ladder
  exact ((hset.trans ((setCond_source _ true _).mono)).trans ((raise_source _ _).mono)).trans
    ((takeTrigger_source .lineFault _).mono)

theorem lineFaultTest_D_source (s : State) :
    LeavesSources [srcLineFault .D, srcCloseoutNotIssued, srcTrimBound, srcBillMark] s (lineFaultTest .D s) := by
  unfold lineFaultTest
  split
  · exact enterLineFault_D_source s
  · exact .refl _ s

theorem lineFaultTest_U_source (s : State) : LeavesSources [srcLineFault .U] s (lineFaultTest .U s) := by
  unfold lineFaultTest
  split
  · exact enterLineFault_U_source s
  · exact .refl _ s

/-- Under LINE FAULT no close-out STOP is injected, so a trigger does not read what an injection reads (R105). -/
theorem TriggerReaches.congr_faulted {r : EndReason} {s s' t : State} (h : TriggerReaches r s' t)
    (hl : s.line.d.lineFault = true) (hl' : s'.line.d.lineFault = true) (hq : s'.seq = s.seq) (hg : s'.gate = s.gate)
    (hf : s'.flight = s.flight) (hs : s'.ship = s.ship) (hm : s'.meter = s.meter) (hb : s'.bills = s.bills)
    (hc : s'.ladder.sources[srcCloseoutNotIssued] = s.ladder.sources[srcCloseoutNotIssued])
    (hk : s'.ladder.sources[srcBillMark] = s.ladder.sources[srcBillMark]) : TriggerReaches r s t := by
  have hcompletes (v : Visit) (c : Completes v s' t) : Completes v s t :=
    c.congr (by rw [hm]) hs hb (by rw [hq]) (by rw [hq]) hk
  refine ⟨by rw [← hq]; exact h.1, fun v hv => ?_⟩
  obtain ⟨⟨-, hadopted, hstopped, hdrained, hcompleted⟩, hother⟩ := h.2 v (by rw [hq]; exact hv)
  rw [hg] at hadopted hstopped
  rw [hl', hf, hc, hm] at hstopped
  rw [hf] at hdrained hcompleted
  rw [hm] at hcompleted
  refine ⟨⟨fun _ _ _ hn _ => absurd (hl.symm.trans hn) (by simp), hadopted, fun hp hnot => ?_, hdrained,
    fun hp hz hn => hcompletes _ (hcompleted hp hz hn)⟩, hother⟩
  rw [hl] at hnot
  obtain ⟨hentry, hqueue, hraised, hfull, hempty⟩ := hstopped hp hnot
  exact ⟨hentry, hqueue, hraised, hfull, fun hz hn => hcompletes _ (hempty hz hn)⟩

/-! ## What the options leave (R175, R193) -/

/-- The state in which the options have their new values and the ports are to be tested. -/
def optionsState (mask leave hold own thr : Byte) (s : State) : State :=
  { s with handler := chosenHandler mask leave hold own thr s.handler }

theorem optionsState_changes (mask leave hold own thr : Byte) (s : State) :
    OnlyChanges [.options] s (optionsState mask leave hold own thr s) := by
  intro b hb
  cases b <;> simp_all [Same, optionsState, chosenHandler]

/-- Both tests, one after the other. -/
def bothTests (s : State) : State := lineFaultTest .D (lineFaultTest .U s)

theorem setOptions_eq (mask leave hold own thr : Byte) (s : State) :
    setOptions mask leave hold own thr s = bothTests (optionsState mask leave hold own thr s) := by
  unfold setOptions bothTests optionsState chosenHandler
  simp only [marked_eq]
  cases mask.getLsbD 0 <;> cases mask.getLsbD 1 <;> cases mask.getLsbD 2 <;> cases mask.getLsbD 3 <;> rfl

theorem lineFaultTest_handler (p : PortId) (s : State) : (lineFaultTest p s).handler = s.handler := by
  cases p with
  | U => exact (lineFaultTest_changes .U s).handler
  | D => exact (lineFaultTest_changes .D s).handler

theorem bothTests_handler (s : State) : (bothTests s).handler = s.handler := by
  rw [bothTests, lineFaultTest_handler, lineFaultTest_handler]

theorem bothTests_lineFault (p : PortId) (s : State) : ((bothTests s).line.port p).lineFault
    = ((s.line.port p).lineFault || decide (s.handler.threshold ≤ (s.line.port p).tally)) := by
  have hU := lineFaultTest_U s
  cases p with
  | U =>
    have hkept := (lineFaultTest_changes .D (lineFaultTest .U s)).same (.recv .U)
    exact hkept.2.2.2.trans (lineFaultTest_lineFault .U s)
  | D =>
    obtain ⟨-, -, htally, hfault⟩ := hU.same (.recv .D)
    rw [bothTests, lineFaultTest_lineFault, htally, hfault, lineFaultTest_handler]

/-- A port that the tests put into LINE FAULT, seen from a state with other options (R84, R175). -/
theorem bothTests_enters {p : PortId} {s v : State} (hv : OnlyChanges [.options, .send .U] s v)
    (hship : v.ship = s.ship ∧ v.gate = s.gate ∧ v.seq = s.seq ∧ v.meter = s.meter ∧ v.bills = s.bills)
    (hl : (v.line.port p).lineFault = false) (ht : v.handler.threshold ≤ (v.line.port p).tally) :
    EntersLineFault p s (bothTests v) := by
  obtain ⟨hship, hgate, hseq, hmeter, hbills⟩ := hship
  cases p with
  | U =>
    obtain ⟨hfault, hsource, -⟩ := enterLineFault_enters .U v
    have hkept := (lineFaultTest_changes .D (enterLineFault .U v)).same (.recv .U)
    rw [bothTests, lineFaultTest_enters hl ht]
    refine ⟨hkept.2.2.2.trans hfault, ?_, fun hp => absurd hp (by decide)⟩
    rw [lineFaultTest_D_source _ _ (by decide), hsource, hv.sources]
  | D =>
    set w := lineFaultTest .U v with hw
    have hU : OnlyChanges [.recv .U, .sources, .conds] v w := lineFaultTest_U v
    obtain ⟨-, -, htally, hfault⟩ := hU.same (.recv .D)
    have henters : bothTests v = enterLineFault .D w := by
      rw [bothTests, ← hw]
      refine lineFaultTest_enters (hfault.trans hl) ?_
      rw [htally, hw, lineFaultTest_handler]
      exact ht
    have hsource : LeavesSources [srcLineFault .U] s w :=
      (LeavesSources.frame hv).trans (lineFaultTest_U_source v)
    have hkept : w.ship = v.ship ∧ w.gate = v.gate ∧ w.seq = v.seq ∧ w.meter = v.meter ∧ w.bills = v.bills := by
      rw [hw]
      unfold lineFaultTest enterLineFault
      split <;> simp
    obtain ⟨hship', hgate', hseq', hmeter', hbills'⟩ := hkept
    obtain ⟨hfault', hraised, htrigger⟩ := enterLineFault_enters .D w
    rw [henters]
    refine ⟨hfault', ?_, fun hp => ?_⟩
    · rw [hraised, hsource _ (by decide)]
    · refine (htrigger hp).congr_faulted rfl rfl (hseq'.trans hseq) (hgate'.trans hgate)
        (Eq.trans (hU.same .flight) (hv.same .flight)) (hship'.trans hship) (hmeter'.trans hmeter)
        (hbills'.trans hbills) (hsource _ (by decide)) (hsource _ (by decide))

/-- A port that the tests leave as it is. -/
theorem bothTests_stays {p : PortId} {s v : State} (hv : OnlyChanges [.options, .send .U] s v)
    (h : ¬ ((v.line.port p).lineFault = false ∧ v.handler.threshold ≤ (v.line.port p).tally)) :
    (bothTests v).ladder.sources[srcLineFault p] = s.ladder.sources[srcLineFault p]
      ∧ (p = .D → OnlyChanges [.options, .send .U, .recv .U, .sources, .conds] s (bothTests v)) := by
  cases p with
  | U =>
    have hstays : bothTests v = lineFaultTest .D v := by rw [bothTests, lineFaultTest_stays h]
    refine ⟨?_, fun hp => absurd hp (by decide)⟩
    rw [hstays, lineFaultTest_D_source _ _ (by decide), hv.sources]
  | D =>
    have hU := lineFaultTest_U v
    obtain ⟨-, -, htally, hfault⟩ := hU.same (.recv .D)
    have hstays : bothTests v = lineFaultTest .U v := by
      refine lineFaultTest_stays ?_
      rwa [show ((lineFaultTest .U v).line.port .D).lineFault = (v.line.port .D).lineFault from hfault,
        show ((lineFaultTest .U v).line.port .D).tally = (v.line.port .D).tally from htally, lineFaultTest_handler]
    rw [hstays]
    refine ⟨?_, fun _ => hv.mono.then hU⟩
    rw [lineFaultTest_U_source v _ (by decide), hv.sources]

end Sys2Proof.Machine

open Sys2Proof Sys2Proof.Machine

/-- Settles O47. -/
theorem optionsSet : Obligations.OptionsSet := by
  intro s e rest mask leave hold own thr h hpayload s1 inRange taken
  have hcode : payloadCode e.frame = 4 := h.code rfl
  have hin : optionsInRange mask leave hold own thr = true ↔ inRange := optionsInRange_iff mask leave hold own thr
  have htaken : (marked mask 2 && ownAddrTaken s1 own) = true ↔ taken := by
    have hstation : ownAddrTaken s1 own = ownAddrTaken s own := by simp [ownAddrTaken, s1]
    rw [hstation, marked_eq, Bool.and_eq_true, ownAddrTaken_iff]
  refine ⟨fun hr ht => ?_, fun hr => ?_, fun hr ht => ?_⟩
  · set u := answered e rest .setOptions s with hu
    set v := optionsState mask leave hold own thr u with hv
    have htreat : treatSetOptions e.frame s1 = bothTests v := by
      have htaken' : (marked mask 2 && ownAddrTaken s1 own) = false := by
        rw [← Bool.not_eq_true, htaken]
        exact ht
      rw [treatSetOptions, hpayload]
      simp only [hin.2 hr, htaken']
      exact setOptions_eq mask leave hold own thr u
    have hsu : OnlyChanges [.send .U] s1 u := answerDone_changes _ _ _
    have hsv : OnlyChanges [.options, .send .U] s1 v := hsu.mono.then (optionsState_changes _ _ _ _ _ _)
    have hkept : v.ship = s1.ship ∧ v.gate = s1.gate ∧ v.seq = s1.seq ∧ v.meter = s1.meter ∧ v.bills = s1.bills := by
      simp [hv, hu, optionsState, answered, s1]
    have hhandler : v.handler = chosenHandler mask leave hold own thr s.handler := by
      simp [hv, hu, optionsState, answered]
    have hport (p : PortId) : (v.line.port p).lineFault = (s1.line.port p).lineFault
        ∧ (v.line.port p).tally = (s1.line.port p).tally := by
      obtain ⟨-, -, htally, hfault⟩ := hsv.same_recv p
      exact ⟨hfault, htally⟩
    refine takes_requestDone (u := bothTests v) (xs := optionBlocks) h .setOptions htreat ?_ ?_ (by rw [hcode]) (by decide)
      fun hanswer => ?_
    · rw [hv, ← setOptions_eq]
      exact setOptions_changes mask leave hold own thr u
    · rw [hv, ← setOptions_eq]
      exact setOptions_keeps mask leave hold own thr u
    · have hended : (endEvent (bothTests v)).handler = chosenHandler mask leave hold own thr s.handler := by
        rw [(endEvent_changes _).handler, bothTests_handler, hhandler]
      have hrecv (p : PortId) : ((endEvent (bothTests v)).line.port p).lineFault = ((bothTests v).line.port p).lineFault :=
        ((endEvent_changes _).same_recv p).2.2.2
      rw [hended]
      refine ⟨rfl, rfl, rfl, rfl, fun p => ?_, fun p => ⟨fun henters => ?_, fun hstays => ?_⟩, hanswer⟩
      · rw [hrecv, bothTests_lineFault, (hport p).1, (hport p).2, hhandler]
      · refine EntersLineFault.closes (bothTests_enters hsv hkept ?_ ?_) (endEvent_closes _) (hrecv p)
        · rw [(hport p).1, henters.1]
        · rw [(hport p).2, hhandler]
          exact henters.2
      · obtain ⟨hsource, hchanges⟩ := bothTests_stays (p := p) hsv (by rw [(hport p).1, (hport p).2, hhandler]; exact hstays)
        refine ⟨?_, fun hp b hb => ?_⟩
        · rw [(endEvent_changes _).sources, hsource]
        · have hall : ∀ b ∈ pourBlocks, b = .sources ∨ b = .send .U
              ∨ b ∉ [Block.options, .send .U, .recv .U, .sources, .conds, .permit, .present] := by decide
          have hended' : OnlyChanges [Block.options, .send .U, .recv .U, .sources, .conds, .permit, .present] s1
              (endEvent (bothTests v)) := (hchanges hp).mono.then (endEvent_changes _)
          exact (hall b hb).imp_right fun hb' => hb'.imp_right fun hb'' => hended' b hb''
  · have hout : optionsInRange mask leave hold own thr = false := by
      rw [← Bool.not_eq_true, hin]
      exact hr
    have htreat : treatSetOptions e.frame s1 = answerRefused e.frame .badValue s1 := by
      rw [treatSetOptions, hpayload]
      simp only [hout]
      rfl
    exact takes_answerRefused h .setOptions htreat (by rw [hcode]; rfl)
  · have htreat : treatSetOptions e.frame s1 = answerRefused e.frame .duplicateAddress s1 := by
      rw [treatSetOptions, hpayload]
      simp only [hin.2 hr, htaken.2 ht]
      rfl
    exact takes_answerRefused h .setOptions htreat (by rw [hcode]; rfl)

end

section
/-! START_PLAN (R70 to R74, R78): how it is judged, and what the selection that follows opens or finishes. -/

set_option Elab.async false

namespace Sys2Proof.Machine

/-! ## What a selection leaves (R74, R78) -/

theorem placedAt_eq_some_iff (x : PlaceState) (h : Hold) : x.placedAt = some h ↔ x = .placed h := by
  cases x <;> simp [PlaceState.placedAt]

theorem openVisit_seq (i : Fin 16) (sl : Slot) (s : State) :
    (openVisit i sl s).seq = { s.seq with visit := some (newVisit s i sl) } := by
  simp [openVisit]

/-- The NEXT_SLOT notice (R74, R186). -/
def nextSlotFrame (s : State) (i : Fin 16) (sl : Slot) : Frame :=
  { dst := 0, src := s.handler.ownAddr, kind := 0x41, seq := 0,
    payload := [2, byteOf i.val, holdCode sl.hold, byteOf s.seq.round] ++ beBytes 4 sl.quota ++ beBytes 2 s.seq.skips }

theorem openVisit_onWire (i : Fin 16) (sl : Slot) {s : State} (h : (s.line.port .U).room = true) :
    OnWire .U (nextSlotFrame s i sl) (openVisit i sl s) := by
  have hoffered := offer_onWire .U (nextSlotFrame s i sl) (setVisit (some (newVisit s i sl)) s) h
  simpa [openVisit, notice, nextSlotFrame, addrTerminal, kindNotice, newVisit] using hoffered

theorem finishPlan_seq (r : FinishReason) (mark : Bool) (s : State) :
    (finishPlan r mark s).seq = { s.seq with plan := .finished, finish := some r } := by
  unfold finishPlan
  simp only
  split <;> simp

/-- TRIM_BOUND is raised where no slot was eligible and one was past the trim limit (R74). -/
theorem finishPlan_trimBound (r : FinishReason) (mark : Bool) (s : State) :
    (finishPlan r mark s).ladder.sources[srcTrimBound]
      = if (r == .noneEligible && mark) = true then (s.ladder.sources[srcTrimBound]).raised
        else s.ladder.sources[srcTrimBound] := by
  unfold finishPlan
  simp only
  split
  · rw [notice_source _ _ srcTrimBound (by simp), raise_same]
  · rw [notice_source _ _ srcTrimBound (by simp)]

/-- The PLAN_DONE notice (R74, R186). -/
def planDoneFrame (s : State) (r : FinishReason) : Frame :=
  { dst := 0, src := s.handler.ownAddr, kind := 0x41, seq := 0,
    payload := [3, r.code] ++ beBytes 2 s.seq.round ++ beBytes 2 s.seq.skips }

theorem finishPlan_onWire (r : FinishReason) (mark : Bool) {s : State} (h : (s.line.port .U).room = true) :
    OnWire .U (planDoneFrame s r) (finishPlan r mark s) := by
  unfold finishPlan
  simp only
  split
  · have hoffered := offer_onWire .U (planDoneFrame s r) (raise srcTrimBound
      { s with seq := { s.seq with plan := .finished, finish := some r } }) (by simpa using h)
    simpa [notice, planDoneFrame, addrTerminal, kindNotice] using hoffered
  · have hoffered := offer_onWire .U (planDoneFrame s r) { s with seq := { s.seq with plan := .finished, finish := some r } } h
    simpa [notice, planDoneFrame, addrTerminal, kindNotice] using hoffered

theorem selectVisit_eq {s : State} {p : PlanHeader} (h : s.seq.header = some p) :
    selectVisit s = selectLoop p p.slotCount 0 false s := by simp only [selectVisit, h]

theorem shipTargetReached_iff (s : State) (p : PlanHeader) :
    shipTargetReached s p = false ↔ ∀ g, p.shipTarget = some g → pouredTotal s < g * 1000000 := by
  unfold shipTargetReached
  cases p.shipTarget <;> simp

/-- The ship target finishes the plan at once (R73). -/
theorem selectLoop_shipTarget {p : PlanHeader} (fuel run : Nat) (mark : Bool) {s : State}
    (h : shipTargetReached s p = true) : selectLoop p (fuel + 1) run mark s = finishPlan .shipTarget mark s := by
  rw [selectLoop, if_pos h]

/-- So does the round limit. -/
theorem selectLoop_rounds {p : PlanHeader} (fuel run : Nat) (mark : Bool) {s : State}
    (h : shipTargetReached s p = false) (hr : p.roundLimit < s.seq.round) :
    selectLoop p (fuel + 1) run mark s = finishPlan .rounds mark s := by
  rw [selectLoop, h, if_neg (by decide), if_pos hr]

/-! ## Eligibility (R72) -/

/-- The trim moment is past the limit in the direction of a hold's arm. -/
theorem trimPast_iff (m arm : Int) (limit : Nat) :
    trimPast m arm limit = true ↔ 0 < m * arm ∧ limit * 1000000 ≤ m.natAbs := by simp [trimPast]

theorem ineligible_full {s : State} {p : PlanHeader} {h : Hold} (hf : s.seq.holdStates[h] = .full) :
    ineligible s p h = some false := if_pos hf

theorem ineligible_trim {s : State} {p : PlanHeader} {h : Hold} (hf : s.seq.holdStates[h] ≠ .full)
    (ht : 0 < trimMoment s * armOf s h ∧ p.trimLimit * 1000000 ≤ (trimMoment s).natAbs) :
    ineligible s p h = some true := (if_neg hf).trans (if_pos ((trimPast_iff _ _ _).2 ht))

theorem ineligible_none {s : State} {p : PlanHeader} {h : Hold} (hf : s.seq.holdStates[h] ≠ .full)
    (ht : ¬ (0 < trimMoment s * armOf s h ∧ p.trimLimit * 1000000 ≤ (trimMoment s).natAbs)) :
    ineligible s p h = none := (if_neg hf).trans (if_neg (mt (trimPast_iff _ _ _).1 ht))

/-- Eligibility reads the hold table, the hold states and the ship. -/
theorem ineligible_congr {s t : State} (hholds : t.seq.holds = s.seq.holds) (hstates : t.seq.holdStates = s.seq.holdStates)
    (hship : t.ship = s.ship) (p : PlanHeader) (h : Hold) : ineligible t p h = ineligible s p h := by
  have harm : armOf t = armOf s := by
    funext x
    rw [armOf, armOf, hholds]
  have hmoment : trimMoment t = trimMoment s := by
    have heach : holdMoment t = holdMoment s := by
      funext x
      rw [holdMoment, holdMoment, hholds, hship]
    rw [trimMoment, trimMoment, heach]
  rw [ineligible, ineligible, harm, hmoment, hstates]

/-! ## How START_PLAN is judged (R70) -/

/-- The order code or the mask is outside its values. -/
abbrev BadStart (mask order : Byte) : Prop := 4 ≤ mask.toNat ∨ (mask.getLsbD 1 = true ∧ 2 ≤ order.toNat)

/-- The start slot and the visiting order that a START_PLAN chooses. -/
def chosenStart (mask slot : Byte) (p : PlanHeader) : Nat := if mask.getLsbD 0 then slot.toNat else p.startSlot

def chosenOrder (mask order : Byte) (p : PlanHeader) : Order :=
  if mask.getLsbD 1 then (if order = 0 then .rotate else .paired) else p.order

theorem planSuits_iff (p : PlanHeader) (start : Nat) (o : Order) : planSuits p start o = true ↔ start < p.slotCount
    ∧ (o = .rotate ∨ p.slotCount = 2 ∨ p.slotCount = 4 ∨ p.slotCount = 8 ∨ p.slotCount = 16) := by
  simp [planSuits]

theorem planRuns_iff (s : State) : planRuns s = true ↔ s.seq.plan = .active ∨ s.seq.plan = .suspended := by
  simp [planRuns]

section
variable {s : State} {mask slot order : Byte}

theorem judgeStart_notReady (hr : s.ready = false) : judgeStart s mask slot order = .error .notReady := by
  simp [judgeStart, hr]

variable (hr : s.ready = true)
include hr

theorem judgeStart_badMask (h : BadStart mask order) : judgeStart s mask slot order = .error .badValue := by
  rw [judgeStart, hr, if_neg (by simp), marked_eq, if_pos (show 4 ≤ mask.toNat ∨ (mask.getLsbD 1 = true ∧ 2 ≤ order.toNat) from h)]

variable (hm : ¬ BadStart mask order)
include hm

theorem judgeStart_noShip (h : s.ship.state = .noShip) : judgeStart s mask slot order = .error .noShip := by
  rw [judgeStart, hr, if_neg (by simp), marked_eq, if_neg (show ¬ (4 ≤ mask.toNat ∨ (mask.getLsbD 1 = true ∧ 2 ≤ order.toNat)) from hm), if_pos h]

variable (hs : s.ship.state = .open)
include hs

theorem judgeStart_busy (h : planRuns s = true) : judgeStart s mask slot order = .error .busy := by
  rw [judgeStart, hr, if_neg (by simp), marked_eq, if_neg (show ¬ (4 ≤ mask.toNat ∨ (mask.getLsbD 1 = true ∧ 2 ≤ order.toNat)) from hm), if_neg (by rw [hs]; simp), if_pos h]

variable (hp : planRuns s = false)
include hp

theorem judgeStart_notLoaded (h : ∀ p, s.seq.header = some p → planLoaded s p = false) :
    judgeStart s mask slot order = .error .notLoaded := by
  rw [judgeStart, hr, if_neg (by simp), marked_eq, if_neg (show ¬ (4 ≤ mask.toNat ∨ (mask.getLsbD 1 = true ∧ 2 ≤ order.toNat)) from hm), if_neg (by rw [hs]; simp), hp, if_neg (by simp)]
  cases hh : s.seq.header with
  | none => rfl
  | some p => exact if_pos (by rw [h p hh]; rfl)

theorem judgeStart_loaded {p : PlanHeader} (hh : s.seq.header = some p) (hl : planLoaded s p = true) :
    judgeStart s mask slot order
      = if planSuits p (chosenStart mask slot p) (chosenOrder mask order p)
        then .ok (chosenStart mask slot p, chosenOrder mask order p) else .error .badPlan := by
  rw [judgeStart, hr, if_neg (by simp), marked_eq, if_neg (show ¬ (4 ≤ mask.toNat ∨ (mask.getLsbD 1 = true ∧ 2 ≤ order.toNat)) from hm), if_neg (by rw [hs]; simp), hp, if_neg (by simp)]
  simp only [hh, hl, marked_eq]
  rfl

end

theorem judgeStart_taken (e : RxEntry) (rest : List RxEntry) (row : Instr) (s : State) (mask slot order : Byte) :
    judgeStart (takeHead .U e rest row s) mask slot order = judgeStart s mask slot order := by
  simp [judgeStart, planLoaded, planRuns, State.ready]

/-- Slot `k`, its hold's entry and its hold's envelope are loaded. -/
def slotLoaded (s : State) (k : Nat) : Bool :=
  match (entryAt s.seq.slots k).join with
  | some sl => (s.seq.holds[sl.hold]).isSome && (s.place.envelopes[sl.hold]).isSome
  | none => false

theorem planLoaded_eq (s : State) (p : PlanHeader) : planLoaded s p = (List.range p.slotCount).all (slotLoaded s) := rfl

theorem slotLoaded_iff (s : State) (k : Nat) : slotLoaded s k = true ↔ ∃ (i : Fin 16) (sl : Slot),
    i.val = k ∧ s.seq.slots[i] = some sl ∧ s.seq.holds[sl.hold] ≠ none ∧ s.place.envelopes[sl.hold] ≠ none := by
  by_cases hk : k < 16
  · have hentry : (entryAt s.seq.slots k).join = s.seq.slots[(⟨k, hk⟩ : Fin 16)] := by
      rw [entryAt, dif_pos hk]
      rfl
    unfold slotLoaded
    rw [hentry]
    constructor
    · intro h
      split at h
      next sl hsl =>
        rw [Bool.and_eq_true, Option.isSome_iff_ne_none, Option.isSome_iff_ne_none] at h
        exact ⟨⟨k, hk⟩, sl, rfl, hsl, h.1, h.2⟩
      · cases h
    · rintro ⟨i, sl, rfl, hsl, hhold, henvelope⟩
      have hsl' : s.seq.slots[(⟨i.val, hk⟩ : Fin 16)] = some sl := hsl
      simp only [hsl']
      rw [Bool.and_eq_true, Option.isSome_iff_ne_none, Option.isSome_iff_ne_none]
      exact ⟨hhold, henvelope⟩
  · have hentry : (entryAt s.seq.slots k).join = none := by
      rw [entryAt, dif_neg hk]
      rfl
    unfold slotLoaded
    rw [hentry]
    refine iff_of_false (by simp) ?_
    rintro ⟨i, sl, rfl, -⟩
    exact hk i.isLt

/-- Every slot of a loaded plan lies in the table. -/
theorem planLoaded_iff (s : State) (p : PlanHeader) : planLoaded s p = true ↔ ∀ k < p.slotCount, ∃ (i : Fin 16) (sl : Slot),
    i.val = k ∧ s.seq.slots[i] = some sl ∧ s.seq.holds[sl.hold] ≠ none ∧ s.place.envelopes[sl.hold] ≠ none := by
  simp only [planLoaded_eq, List.all_eq_true, List.mem_range, slotLoaded_iff]

theorem planLoaded_slotCount {s : State} {p : PlanHeader} (h : planLoaded s p = true) : p.slotCount ≤ 16 := by
  by_contra hlarge
  obtain ⟨i, -, hi, -⟩ := (planLoaded_iff s p).1 h 16 (by omega)
  have hlt := i.isLt
  omega

/-! ## An accepted START_PLAN (R70, R73) -/

/-- The state that an accepted START_PLAN selects in. -/
def begunPlan (start : Nat) (o : Order) (s : State) : State :=
  { s with seq := { s.seq with start := start, order := o, round := 1, cursor := 0, skips := 0, finish := none,
                               plan := .active } }

theorem startPlan_eq (start : Nat) (o : Order) (s : State) : startPlan (start, o) s = selectVisit (begunPlan start o s) := rfl

theorem startPlan_changes (x : Nat × Order) (s : State) : OnlyChanges selectionBlocks s (startPlan x s) := by
  refine OnlyChanges.then ?_ (selectVisit_changes _)
  intro b hb
  cases b <;> simp_all [Same, selectionBlocks]

theorem startPlan_keeps (x : Nat × Order) (s : State) : Keeps s (startPlan x s) :=
  (Keeps.line (t := begunPlan x.1 x.2 s)).trans (selectVisit_keeps _)

/-- The slot at a position of the visiting order that starts at `start` (R71). -/
theorem slotIndex_begun (start : Nat) (o : Order) (s : State) (n k : Nat) : slotIndex (begunPlan start o s).seq n k
    = slotIndex { s.seq with start := start, order := o } n k := rfl

/-- A START_PLAN that passes R70, answered, leaves what its selection leaves. -/
theorem takes_planStarted {s : State} {e : RxEntry} {rest : List RxEntry} {mask slot order : Byte} {p : PlanHeader}
    {post : State → Prop} (h : Heads s .U .startPlan e rest) (hpayload : e.frame.payload = [7, mask, slot, order])
    (hjudge : judgeStart s mask slot order = .ok (chosenStart mask slot p, chosenOrder mask order p))
    (hp : s.seq.header = some p)
    (hpost : ∀ t, t = selectLoop p p.slotCount 0 false (begunPlan (chosenStart mask slot p) (chosenOrder mask order p)
        (answered e rest .startPlan s)) →
      Offered .U (answerFrame s e.frame [7, 0, 0]) s (endEvent t) → post (endEvent t)) :
    Takes s .U .startPlan e rest selectionBlocks post := by
  have hcode : payloadCode e.frame = 7 := h.code rfl
  set u := answered e rest .startPlan s with hu
  have htreat : treatStartPlan e.frame (takeHead .U e rest .startPlan s)
      = startPlan (chosenStart mask slot p, chosenOrder mask order p) u := by
    rw [treatStartPlan, hpayload]
    simp only [judgeStart_taken, hjudge]
    rfl
  have hheader : u.seq.header = some p := by simpa [hu, answered] using hp
  refine takes_requestDone h .startPlan htreat (startPlan_changes _ u) (startPlan_keeps _ u) (by rw [hcode]) (by decide)
    fun hanswer => hpost _ ?_ hanswer
  exact selectVisit_eq (s := begunPlan (chosenStart mask slot p) (chosenOrder mask order p) u) hheader

/-- A START_PLAN that R70 refuses. -/
theorem takes_planRefused {s : State} {e : RxEntry} {rest : List RxEntry} {mask slot order : Byte} {r : Reason}
    (h : Heads s .U .startPlan e rest) (hpayload : e.frame.payload = [7, mask, slot, order])
    (hjudge : judgeStart s mask slot order = .error r) :
    Takes s .U .startPlan e rest [] fun t => Offered .U (answerFrame s e.frame [7, 1, r.code]) s t := by
  have hcode : payloadCode e.frame = 7 := h.code rfl
  refine takes_answerRefused h .startPlan ?_ (by rw [hcode])
  rw [treatStartPlan, hpayload]
  simp only [judgeStart_taken, hjudge]
  rfl

theorem PassesSlot.congr {s t : State} {p : PlanHeader} {j : Nat} {trim : Bool} (h : PassesSlot s p j trim)
    (hseq : t.seq = s.seq) (hship : t.ship = s.ship) : PassesSlot t p j trim := by
  obtain ⟨i, sl, hi, hsl, hin⟩ := h
  refine ⟨i, sl, by rw [hseq]; exact hi, by rw [hseq]; exact hsl, ?_⟩
  rw [ineligible_congr (by rw [hseq]) (by rw [hseq]) hship]
  exact hin

theorem pouredTotal_congr {s t : State} (hship : t.ship = s.ship) : pouredTotal t = pouredTotal s := by
  rw [pouredTotal, pouredTotal, hship]

theorem shipTargetReached_congr {s t : State} (hship : t.ship = s.ship) (p : PlanHeader) :
    shipTargetReached t p = shipTargetReached s p := by
  simp only [shipTargetReached, pouredTotal_congr hship]

theorem newVisit_congr {s t : State} (hplace : t.place = s.place) (i : Fin 16) (sl : Slot) :
    newVisit t i sl = { newVisit s i sl with round := t.seq.round } := by
  simp only [newVisit, hplace]

section
variable {s : State} {e : RxEntry} {rest : List RxEntry} {mask slot order : Byte} {p : PlanHeader}
  (h : Heads s .U .startPlan e rest) (hpayload : e.frame.payload = [7, mask, slot, order])
  (hjudge : judgeStart s mask slot order = .ok (chosenStart mask slot p, chosenOrder mask order p))
  (hp : s.seq.header = some p)
include h hpayload hjudge hp

/-- The first eligible slot, `k` positions on, opens its visit (R73, R74, R78). -/
theorem takes_planOpens {k : Nat} {i : Fin 16} {sl : Slot} (hcount : p.slotCount ≤ 16) (hk : k < p.slotCount)
    (hpass : ∀ j < k, ∃ trim, PassesSlot (begunPlan (chosenStart mask slot p) (chosenOrder mask order p) s) p j trim)
    (hindex : slotIndex (begunPlan (chosenStart mask slot p) (chosenOrder mask order p) s).seq p.slotCount k = i.val)
    (hsl : s.seq.slots[i] = some sl) (hin : ineligible s p sl.hold = none) (hround : 1 ≤ p.roundLimit)
    (hshort : shipTargetReached s p = false) :
    Takes s .U .startPlan e rest selectionBlocks fun t =>
      t.seq = { (begunPlan (chosenStart mask slot p) (chosenOrder mask order p) s).seq with
          cursor := k, skips := k, visit := some { newVisit s i sl with round := 1 } }
        ∧ Offered .U (answerFrame s e.frame [7, 0, 0]) s t
        ∧ (s.line.u.txQueue.length < 7 →
            OnWire .U { dst := 0, src := s.handler.ownAddr, kind := 0x41, seq := 0,
                        payload := [2, byteOf i.val, holdCode sl.hold, 1] ++ beBytes 4 sl.quota ++ beBytes 2 k } t) := by
  refine takes_planStarted h hpayload hjudge hp fun t ht hanswer => ?_
  set u := answered e rest .startPlan s with hu
  obtain ⟨hhandler, -, -, -, -, -, hplace, hseq, -, -, -, hship, -⟩ := answered_fields e rest .startPlan s
  rw [← hu] at hhandler hplace hseq hship
  set b := begunPlan (chosenStart mask slot p) (chosenOrder mask order p) u with hb
  have hbegun : b.seq = (begunPlan (chosenStart mask slot p) (chosenOrder mask order p) s).seq := by
    simp only [hb, begunPlan, hseq]
  have hopens : t = openVisit i sl (passedOver k b) := by
    rw [ht]
    refine selectLoop_opens p k p.slotCount 0 false b i sl (by rw [hbegun]; exact hp) ?_ ?_ ?_ ?_ ?_ ?_ hk ?_ ?_ ?_
    · exact (shipTargetReached_congr hship p).trans hshort
    · rw [hbegun]
      exact hround
    · exact fun j hj => (hpass j hj).imp fun trim hpassed => hpassed.congr hbegun hship
    · omega
    · rw [hbegun]
      change 0 + k < p.slotCount
      omega
    · rw [hbegun]
      change 0 + k ≤ 65535
      omega
    · rw [hbegun, ← hindex]
      exact congrArg _ (Nat.zero_add k)
    · rw [hbegun]
      exact hsl
    · exact (ineligible_congr (by rw [hseq]) (by rw [hseq]) hship p sl.hold).trans hin
  have hpassed : (passedOver k b).seq = { b.seq with cursor := k, skips := k } := by
    simp [passedOver, hb, begunPlan]
  refine ⟨?_, hanswer, fun hroom => ?_⟩
  · rw [hopens, endEvent_seq, openVisit_seq, hpassed, hbegun, newVisit_congr (s := s) (t := passedOver k b) hplace, hpassed, hbegun]
    rfl
  · have hframe : nextSlotFrame (passedOver k b) i sl
        = { dst := 0, src := s.handler.ownAddr, kind := 0x41, seq := 0,
            payload := [2, byteOf i.val, holdCode sl.hold, 1] ++ beBytes 4 sl.quota ++ beBytes 2 k } := by
      rw [nextSlotFrame, hpassed, hbegun]
      change Frame.mk 0 u.handler.ownAddr _ _ _ = _
      rw [hhandler]
      rfl
    rw [← hframe, hopens]
    exact (openVisit_onWire i sl (s := passedOver k b) (answered_room e rest .startPlan hroom)).endEvent

/-- A selection that finishes the plan in a state with the skips counted (R74). -/
theorem takes_planFinishes {r : FinishReason} {mark : Bool} {n k : Nat}
    (hloop : ∀ b : State, b.seq = (begunPlan (chosenStart mask slot p) (chosenOrder mask order p) s).seq →
      b.ship = s.ship → selectLoop p p.slotCount 0 false b
        = finishPlan r mark { b with seq := { b.seq with cursor := n, skips := k } }) :
    Takes s .U .startPlan e rest selectionBlocks fun t =>
      t.seq = { (begunPlan (chosenStart mask slot p) (chosenOrder mask order p) s).seq with
          cursor := n, skips := k, plan := .finished, finish := some r }
        ∧ Offered .U (answerFrame s e.frame [7, 0, 0]) s t
        ∧ (s.line.u.txQueue.length < 7 →
            OnWire .U { dst := 0, src := s.handler.ownAddr, kind := 0x41, seq := 0,
                        payload := [3, r.code] ++ beBytes 2 1 ++ beBytes 2 k } t)
        ∧ t.ladder.sources[srcTrimBound] = if (r == .noneEligible && mark) = true
            then (s.ladder.sources[srcTrimBound]).raised else s.ladder.sources[srcTrimBound] := by
  refine takes_planStarted h hpayload hjudge hp fun t ht hanswer => ?_
  set u := answered e rest .startPlan s with hu
  obtain ⟨hhandler, -, -, -, -, -, -, hseq, -, -, -, hship, -⟩ := answered_fields e rest .startPlan s
  rw [← hu] at hhandler hseq hship
  set b := begunPlan (chosenStart mask slot p) (chosenOrder mask order p) u with hb
  have hbegun : b.seq = (begunPlan (chosenStart mask slot p) (chosenOrder mask order p) s).seq := by
    simp only [hb, begunPlan, hseq]
  have hfinishes := ht.trans (hloop b hbegun hship)
  refine ⟨?_, hanswer, fun hroom => ?_, ?_⟩
  · rw [hfinishes, endEvent_seq, finishPlan_seq, hbegun]
  · have hwired := finishPlan_onWire r mark (s := { b with seq := { b.seq with cursor := n, skips := k } })
      (answered_room e rest .startPlan hroom)
    have hframe : planDoneFrame { b with seq := { b.seq with cursor := n, skips := k } } r
        = { dst := 0, src := s.handler.ownAddr, kind := 0x41, seq := 0,
            payload := [3, r.code] ++ beBytes 2 1 ++ beBytes 2 k } := by
      change Frame.mk 0 u.handler.ownAddr _ _ _ = _
      rw [hhandler]
      rfl
    rw [hframe] at hwired
    rw [hfinishes]
    exact hwired.endEvent
  · have hsource : b.ladder.sources[srcTrimBound] = s.ladder.sources[srcTrimBound] :=
      answered_source e rest .startPlan s (by decide)
    rw [hfinishes, (endEvent_changes _).sources, finishPlan_trimBound]
    change (if _ then (b.ladder.sources[srcTrimBound]).raised else b.ladder.sources[srcTrimBound]) = _
    rw [hsource]

end

end Sys2Proof.Machine

open Sys2Proof Sys2Proof.Machine

/-- Settles O50. -/
theorem planStarted : Obligations.PlanStarted := by
  refine ⟨?_, ?_, planLoaded_iff, fun s p h => ⟨ineligible_full, ineligible_trim, ineligible_none⟩⟩
  · intro s e rest mask slot order p i sl h hpayload hr hmask horder hs hactive hsuspended hh hl o hi hlt hsuits hsl hround
      hshort hfull htrim
    have hm : ¬ BadStart mask order := by
      rintro (hm | ⟨hm, hbad⟩)
      · omega
      · have := horder hm
        omega
    have hp : planRuns s = false := by
      rw [← Bool.not_eq_true, planRuns_iff]
      tauto
    have hstart : chosenStart mask slot p = i.val := hi.symm
    have hjudge : judgeStart s mask slot order = .ok (chosenStart mask slot p, chosenOrder mask order p) := by
      rw [judgeStart_loaded hr hm hs hp hh hl]
      exact if_pos ((planSuits_iff p _ _).2 ⟨hstart.trans_lt hlt, hsuits⟩)
    have hindex : slotIndex (begunPlan (chosenStart mask slot p) (chosenOrder mask order p) s).seq p.slotCount 0 = i.val := by
      rw [hstart]
      unfold slotIndex begunPlan
      simp only
      split
      · exact Nat.mod_eq_of_lt hlt
      · simp
    refine (takes_planOpens h hpayload hjudge hh (k := 0) (planLoaded_slotCount hl) (by omega)
      (fun j hj => absurd hj (by omega)) hindex hsl (ineligible_none hfull htrim) hround
      ((shipTargetReached_iff s p).2 hshort)).imp fun t ⟨hseq, hanswer, hwire⟩ => ?_
    rw [hseq]
    refine ⟨rfl, rfl, rfl, rfl, rfl, hstart, rfl, ?_, hanswer, hwire⟩
    simp only [newVisit, placedAt_eq_some_iff]
  · intro s e rest mask slot order h hpayload badMask runs start chosen suits
    refine ⟨fun r hr => takes_planRefused h hpayload ?_, ?_⟩
    · rcases hr with ⟨rfl, hr⟩ | ⟨hr, ⟨rfl, hm⟩ | ⟨hm, ⟨rfl, hs⟩ | ⟨hs, ⟨rfl, hp⟩ | ⟨hp, ⟨rfl, hl⟩ | ⟨rfl, p, hh, hl, hsuits⟩⟩⟩⟩⟩
      · exact judgeStart_notReady hr
      · exact judgeStart_badMask hr hm
      · exact judgeStart_noShip hr hm hs
      · exact judgeStart_busy hr hm hs ((planRuns_iff s).2 hp)
      · exact judgeStart_notLoaded hr hm hs (by rw [← Bool.not_eq_true, planRuns_iff]; exact hp) hl
      · rw [judgeStart_loaded hr hm hs (by rw [← Bool.not_eq_true, planRuns_iff]; exact hp) hh hl]
        exact if_neg (mt (planSuits_iff p _ _).1 hsuits)
    · intro p hr hm hs hp hh hl hsuits index passed short begun finished
      have hjudge : judgeStart s mask slot order = .ok (start p, chosen p) := by
        rw [judgeStart_loaded hr hm hs (by rw [← Bool.not_eq_true, planRuns_iff]; exact hp) hh hl]
        exact if_pos ((planSuits_iff p _ _).2 hsuits)
      have hcount : p.slotCount ≤ 16 := planLoaded_slotCount hl
      have hshort : shipTargetReached s p = false ↔ short := shipTargetReached_iff s p
      have hindex (k : Nat) : slotIndex (begunPlan (start p) (chosen p) s).seq p.slotCount k = index k := rfl
      have hpasses (k : Nat) (trim : Bool) (hpass : passed k trim) :
          PassesSlot (begunPlan (start p) (chosen p) s) p k trim := by
        obtain ⟨i, sl, hi, hsl, hin⟩ := hpass
        refine ⟨i, sl, ?_, hsl, hin⟩
        rw [← hi, ← hindex]
        exact congrArg _ (Nat.zero_add k)
      refine ⟨fun k i sl hk hbefore hi hsl hin hround hs' => ?_, fun hreached => ?_, fun hall hround hs' => ?_⟩
      · refine (takes_planOpens h hpayload hjudge hh hcount hk (fun j hj => (hbefore j hj).imp (hpasses j))
          ((hindex k).trans hi) hsl hin hround (hshort.2 hs')).imp fun t ⟨hseq, hanswer, hwire⟩ => ?_
        have hfield {α : Type} (g : Sequencer → α) := congrArg g hseq
        exact ⟨⟨hfield (·.round), hfield (·.start), hfield (·.order), hanswer⟩, hfield (·.plan), hfield (·.cursor),
          hfield (·.skips), hfield (·.finish), hfield (·.visit), hwire⟩
      · obtain ⟨n, hn⟩ : ∃ n, p.slotCount = n + 1 := ⟨p.slotCount - 1, by have := hsuits.1; omega⟩
        refine (takes_planFinishes (r := .shipTarget) (mark := false) (n := 0) (k := 0) h hpayload hjudge hh
          fun b hb hship => ?_).imp fun t ⟨hseq, hanswer, hwire, hsource⟩ => ?_
        · have htarget : shipTargetReached b p = true := by
            rw [shipTargetReached_congr hship, ← Bool.not_eq_false, hshort]
            exact hreached
          have hkept : { b.seq with cursor := 0, skips := 0 } = b.seq := by rw [hb]; rfl
          rw [hn, selectLoop_shipTarget n 0 false htarget, hkept]
        · have hfield {α : Type} (g : Sequencer → α) := congrArg g hseq
          exact ⟨⟨⟨hfield (·.round), hfield (·.start), hfield (·.order), hanswer⟩, hfield (·.plan), hfield (·.finish),
            hfield (·.skips), hfield (·.visit), hwire⟩, hfield (·.cursor), hsource⟩
      · obtain ⟨n, hn⟩ : ∃ n, p.slotCount = n + 1 := ⟨p.slotCount - 1, by have := hsuits.1; omega⟩
        choose! trims htrims using hall
        refine (takes_planFinishes (r := .noneEligible) (mark := (List.range (n + 1)).any trims) (n := n) (k := n + 1) h
          hpayload hjudge hh fun b hb hship => ?_).imp fun t ⟨hseq, hanswer, hwire, hsource⟩ => ?_
        · have hexhausts := selectLoop_exhausts p n p.slotCount 0 false b trims (by rw [hb]; exact hh)
            ((shipTargetReached_congr hship p).trans (hshort.2 hs')) (by rw [hb]; exact hround)
            (fun j hj => (hpasses j _ (htrims j (by omega))).congr hb hship) (by omega)
            (by rw [hb]; change 0 + n < p.slotCount; omega) (by rw [hb]; change 0 + n + 1 ≤ 65535; omega) (by omega)
          have hcursor : b.seq.cursor + n = n := by rw [hb]; exact Nat.zero_add n
          have hskips : b.seq.skips + (n + 1) = n + 1 := by rw [hb]; exact Nat.zero_add _
          rw [hexhausts, passedOver, hcursor, hskips]
          rfl
        · have hunique (k : Nat) (trim : Bool) (hk : k < p.slotCount) (hpass : passed k trim) : trims k = trim := by
            obtain ⟨i, sl, hi, hsl, hin⟩ := hpass
            obtain ⟨i', sl', hi', hsl', hin'⟩ := htrims k hk
            obtain rfl : i = i' := Fin.ext (hi.symm.trans hi')
            obtain rfl : sl = sl' := Option.some.inj (hsl.symm.trans hsl')
            exact Option.some.inj (hin'.symm.trans hin)
          have hfield {α : Type} (g : Sequencer → α) := congrArg g hseq
          refine ⟨⟨⟨hfield (·.round), hfield (·.start), hfield (·.order), hanswer⟩, hfield (·.plan), hfield (·.finish),
            (hfield (·.skips)).trans hn.symm, hfield (·.visit), hn ▸ hwire⟩, (hfield (·.cursor)).trans (show n = p.slotCount - 1 by omega),
            fun ⟨k, hk, hpass⟩ => ?_, fun hnone => ?_⟩
          · have hmark : (List.range (n + 1)).any trims = true :=
              List.any_eq_true.2 ⟨k, by rw [List.mem_range]; omega, hunique k true hk hpass⟩
            rw [hsource, hmark]
            rfl
          · have hmark : (List.range (n + 1)).any trims = false := by
              rw [List.any_eq_false]
              intro k hk
              rw [List.mem_range] at hk
              rw [hunique k false (by omega) (hnone k (by omega))]
              decide
            rw [hsource, hmark]
            rfl

end

section
/-! HALT_PLAN, RESUME_PLAN and SKIP_SLOT (R75 to R77). -/

set_option Elab.async false

namespace Sys2Proof.Machine

/-! ## What a trigger changes, case by case (R85, R103, R105) -/

section
variable {r : EndReason} {s : State} {v : Visit} (hv : s.seq.visit = some v)
include hv

/-- A stray start's STOP is adopted. -/
theorem takeTrigger_adopts {x : InjEntry} (hs : v.state = .pouring) (he : s.gate.injFeeder = some x)
    (ho : x.order = .stop) : OnlyChanges [.visit, .rate] s (takeTrigger r s)
      ∧ (takeTrigger r s).gate.lastRate = s.gate.lastRate := by
  have htake : takeTrigger r s
      = setPendingDerate false (setVisit (some { v with state := .closing, endReason := some r }) s) := by
    simp [takeTrigger, State.visitState, hv, hs, mapVisit, closeOut, he, ho, setPendingDerate]
  rw [htake]
  exact ⟨(setVisit_changes _ s).mono.then (setPendingDerate_changes _ _), rfl⟩

/-- The close-out is not issued, with grain in flight. -/
theorem takeTrigger_notIssued (hs : v.state = .pouring) (hz : 0 < s.flight.total)
    (hn : (∃ x, s.gate.injFeeder = some x ∧ x.order = .rate) ∨ (s.gate.injFeeder = none ∧ s.line.d.lineFault = true)) :
    OnlyChanges [.visit, .entries, .injection, .sources] s (takeTrigger r s)
      ∧ (takeTrigger r s).line.injSeq = s.line.injSeq := by
  set u := setVisit (some { v with state := .closing, endReason := some r }) s with hu
  have hclose : takeTrigger r s = closeOutNotIssued u := by
    have htake : takeTrigger r s = closeOut u := by simp [takeTrigger, State.visitState, hv, hs, mapVisit, hu]
    rw [htake, closeOut]
    rcases hn with ⟨x, he, ho⟩ | ⟨he, hl⟩
    · simp [hu, he, ho]
    · simp [hu, he, injectOrder, hl, Gate.entry]
  have hdrains : closeOutNotIssued u = mapVisit (fun v =>
      { v with state := .draining, flags := { v.flags with hardStopped := v.flags.hardStopped || true } })
      (raise srcCloseoutNotIssued (abandonOrder .feeder u)) := by
    have hfull : (mapVisit (fun v =>
        { v with state := .draining, flags := { v.flags with hardStopped := v.flags.hardStopped || true } })
        (raise srcCloseoutNotIssued (abandonOrder .feeder u))).flight.total ≠ 0 := by
      simp [mapVisit, abandonOrder, hu]
      omega
    exact if_neg hfull
  rw [hclose, hdrains]
  refine ⟨?_, by simp [mapVisit, abandonOrder, hu]⟩
  exact (((setVisit_changes _ s).mono.then (abandonOrder_changes _ _)).then (raise_changes _ _)).then
    (mapVisit_changes _ _)

/-- A PAUSED visit with grain in flight drains. -/
theorem takeTrigger_drains (hs : v.state = .paused) (hz : 0 < s.flight.total) :
    takeTrigger r s = setVisit (some { v with state := .draining, endReason := some r }) s := by
  simp only [takeTrigger, State.visitState, hv, hs, Option.map_some, mapVisit, completeIfEmpty]
  exact if_neg (by simp; omega)

theorem takeTrigger_ignored (h1 : v.state ≠ .pouring) (h2 : v.state ≠ .paused) : takeTrigger r s = s := by
  simp only [takeTrigger, State.visitState, hv, Option.map_some]
  cases hs : v.state <;> simp_all

end

/-! ## HALT_PLAN (R55, R75) -/

theorem haltRefusal_taken (e : RxEntry) (rest : List RxEntry) (row : Instr) (s : State) :
    haltRefusal (takeHead .U e rest row s) = haltRefusal s := by
  simp [haltRefusal, State.ready]

/-- The state in which HALT_PLAN reaches the visit: the plan suspended, the held move cancelled. -/
def haltedPlan (s : State) : State := dismissHeldMove .cancelled (setPlan .suspended s)

theorem haltPlan_eq (s : State) : haltPlan s = haltVisit (haltedPlan s) := rfl

theorem haltedPlan_changes (s : State) : OnlyChanges [.plan, .held, .send .U] s (haltedPlan s) :=
  (setPlan_changes _ s).mono.then (dismissHeldMove_changes _ _)

theorem haltedPlan_keeps (s : State) : Keeps s (haltedPlan s) :=
  (Keeps.line (t := setPlan .suspended s)).trans (dismissHeldMove_keeps _ _)

theorem haltedPlan_fields (s : State) : (haltedPlan s).seq = { s.seq with plan := .suspended }
    ∧ (haltedPlan s).place.held = none ∧ (haltedPlan s).gate = s.gate ∧ (haltedPlan s).line.d = s.line.d
    ∧ (haltedPlan s).line.injection = s.line.injection ∧ (haltedPlan s).line.injSeq = s.line.injSeq
    ∧ (haltedPlan s).ladder = s.ladder ∧ (haltedPlan s).bills = s.bills := by
  unfold haltedPlan dismissHeldMove
  split
  next hn => exact ⟨rfl, hn, rfl, rfl, rfl, rfl, rfl, rfl⟩
  next m hm => simp [refuse, setPlan]

theorem haltedPlan_onWire {s : State} {m : HeldMove} (h : s.place.held = some m) (hroom : (s.line.port .U).room = true) :
    OnWire .U (refusalFrame s m.frame .cancelled) (haltedPlan s) := by
  have hdismissed := dismissHeldMove_some .cancelled (s := setPlan .suspended s) h
  rw [haltedPlan, hdismissed]
  exact offer_onWire .U _ _ hroom

/-- A dropped visit that had changed an account leaves the unbilled mark (R150). -/
theorem dropVisit_unbilled {s : State} {v : Visit} (hv : s.seq.visit = some v) :
    (dropVisit s).bills.unbilled = (s.bills.unbilled || v.changed.toList.any id) := by
  simp only [dropVisit, hv]
  split
  next hany => rw [hany, Bool.or_true]
  next hany => rw [Bool.not_eq_true] at hany; rw [hany, Bool.or_false]; rfl

/-- An accepted HALT_PLAN, by what its trigger or its dropping of the visit leaves. -/
theorem takes_halted {s : State} {e : RxEntry} {rest : List RxEntry} {xs changed : List Block} {post : State → Prop}
    (h : Heads s .U .haltPlan e rest) (hr : s.ready = true) (hp : s.seq.plan = .active)
    (hc : OnlyChanges xs (haltedPlan (answered e rest .haltPlan s)) (haltPlan (answered e rest .haltPlan s)))
    (hk : Keeps (haltedPlan (answered e rest .haltPlan s)) (haltPlan (answered e rest .haltPlan s)))
    (hx : ∀ b ∈ [.plan, .held, .send .U] ++ xs, b ∈ closing ++ changed) (hplan : Block.plan ∉ xs) (hheld : Block.held ∉ xs)
    (hpost : post (endEvent (haltPlan (answered e rest .haltPlan s)))) :
    Takes s .U .haltPlan e rest changed fun t =>
      (t.seq.plan = .suspended ∧ t.place.held = none ∧ t.seq.cursor = s.seq.cursor
        ∧ Offered .U (answerFrame s e.frame [8, 0, 0]) s t
        ∧ ∀ m, s.place.held = some m → s.line.u.txQueue.length < 7 → OnWire .U (refusalFrame s m.frame .cancelled) t)
      ∧ post t := by
  have hcode : payloadCode e.frame = 8 := h.code rfl
  obtain ⟨hhandler, -, -, -, -, -, hplace, hseq, -⟩ := answered_fields e rest .haltPlan s
  set u := answered e rest .haltPlan s with hu
  obtain ⟨hseq', hheld', -⟩ := haltedPlan_fields u
  have hnone : haltRefusal s = none := by simp [haltRefusal, hr, hp]
  have htreat : treatHaltPlan e.frame (takeHead .U e rest .haltPlan s) = haltPlan u :=
    answerRequest_none _ _ _ ((haltRefusal_taken e rest .haltPlan s).trans hnone)
  have hkept := hc.same .plan hplan
  refine takes_requestDone (xs := [.plan, .held, .send .U] ++ xs) h .haltPlan htreat ?_ ((haltedPlan_keeps u).trans hk)
    (by rw [hcode]) hx fun hanswer => ⟨⟨?_, ?_, ?_, hanswer, fun m hm hroom => ?_⟩, hpost⟩
  · exact ((haltedPlan_changes u).mono fun b hb => List.mem_append_left _ hb).trans
      (hc.mono fun b hb => List.mem_append_right _ hb)
  · rw [endEvent_seq, hkept.1, hseq']
  · rw [endEvent_place, (hc.same .held hheld : _ = _), hheld']
  · rw [endEvent_seq, hkept.2.2.2.1, hseq', hseq]
  · have hwired := haltedPlan_onWire (s := u) (m := m) (by rw [hplace, hm]) (answered_room e rest .haltPlan hroom)
    have hframe : refusalFrame u m.frame .cancelled = refusalFrame s m.frame .cancelled := by
      simp only [refusalFrame, hhandler]
    rw [hframe] at hwired
    exact (hk.2 _ _ hwired).endEvent

end Sys2Proof.Machine

open Sys2Proof Sys2Proof.Machine

/-- Settles O51. -/
theorem planHalted : Obligations.PlanHalted := by
  intro s e rest h
  have hcode : payloadCode e.frame = 8 := h.code rfl
  have refused {r : Reason} (hr : haltRefusal s = some r) (hb : r ≠ .billFull) :
      Takes s .U .haltPlan e rest [] fun t => Offered .U (answerFrame s e.frame [8, 1, r.code]) s t := by
    refine takes_answerRefused h .haltPlan ?_ (by rw [hcode])
    rw [treatHaltPlan, answerRequest_some _ _ _ ((haltRefusal_taken e rest .haltPlan s).trans hr),
      refuseRequest_other _ _ hb]
  refine ⟨fun hr => refused (r := .notReady) (by simp [haltRefusal, hr]) (by decide),
    fun hr hp => refused (r := .notActive) (by simp [haltRefusal, hr, hp]) (by decide), ?_⟩
  intro v hr hp hv halted
  obtain ⟨hhandler, hstations, -, hnow, -, hflight, hplace, hseq, hgate, -, hbills, -, hd, hinjection, hinjSeq⟩ :=
    answered_fields e rest .haltPlan s
  have hsource : (answered e rest .haltPlan s).ladder.sources[srcCloseoutNotIssued]
      = s.ladder.sources[srcCloseoutNotIssued] := answered_source e rest .haltPlan s (by decide)
  set u := answered e rest .haltPlan s with hu
  set w := haltedPlan u with hw
  obtain ⟨hwseq, -, hwgate, hwd, hwinjection, hwinjSeq, hwladder, hwbills⟩ := haltedPlan_fields u
  rw [← hw] at hwseq hwgate hwd hwinjection hwinjSeq hwladder hwbills
  have hwc : OnlyChanges [.plan, .held, .send .U] u w := haltedPlan_changes u
  have hwv : w.seq.visit = some v := by rw [hwseq, hseq, ← hv]
  have hwstate : w.visitState = some v.state := by rw [State.visitState, hwv]; rfl
  have hwflight : w.flight = s.flight := Eq.trans (hwc.same .flight) hflight
  have htrigger (h1 : v.state ≠ .waiting) (h2 : v.state ≠ .armed) : haltPlan u = takeTrigger .halted w := by
    rw [haltPlan_eq, ← hw, haltVisit, hwstate]
    cases hs : v.state <;> simp_all
  have hreaches := (takeTrigger_reaches .halted w).2 v hwv
  obtain ⟨⟨hinjects, hadopts, hstops, -, -⟩, -⟩ := hreaches
  refine ⟨fun hs => ?_, fun addr hs he hl ha => ?_, fun x hs he ho => ?_, fun hs hz hn => ?_, fun hs hz => ?_, fun hs => ?_⟩
  · have hdrop : haltPlan u = dropVisit w := by
      rw [haltPlan_eq, ← hw, haltVisit, hwstate]
      rcases hs with hs | hs <;> rw [hs]
    have hchanges : OnlyChanges [.visit, .unbilled] w (haltPlan u) := hdrop ▸ dropVisit_changes w
    refine takes_halted (xs := [.visit, .unbilled]) h hr hp hchanges (.frame hchanges) (by decide) (by decide) (by decide) ?_
    rw [← hu, hdrop, endEvent_seq, ((endEvent_changes _).same .unbilled : _ = _), dropVisit_unbilled hwv, hwbills, hbills]
    exact ⟨dropVisit_none w, rfl⟩
  · have hhalt : haltPlan u = takeTrigger .halted w := htrigger (by simp [hs]) (by simp [hs])
    have hlw : w.line.d.lineFault = false := by rw [hwd, hd, hl]
    have haw : w.station .feeder = some addr := by
      rw [State.station, (hwc.same .stations : _ = _), hstations]
      exact ha
    have hew : w.gate.injFeeder = none := by rw [hwgate, hgate, he]
    obtain ⟨hchanges, hclosing, hrate, hinjected⟩ := takeTrigger_injects (r := .halted) hwv hs hew hlw haw
    obtain ⟨-, hpending, -⟩ := hinjects addr hs hew hlw haw
    rw [← hhalt] at hchanges hclosing hrate hinjected hpending
    refine takes_halted h hr hp hchanges (hhalt ▸ takeTrigger_keeps .halted w) (by decide) (by decide) (by decide) ?_
    rw [← hu, endEvent_seq]
    have hseen : Injects .feeder .stop addr [3] s (endEvent (haltPlan u)) := by
      refine hinjected.endEvent.congr ?_ (hwinjSeq.trans hinjSeq) (Eq.trans (hwc.same .clock) hnow) (by rw [hwgate, hgate])
      rw [hwc.handler, hhandler]
    obtain ⟨hentry, hcount, hsent⟩ := hseen
    obtain ⟨hlast, hmark⟩ := (endEvent_changes (haltPlan u)).same .rate
    refine ⟨hclosing, hmark.trans hpending, hlast.trans (hrate.trans ?_), hentry, hcount, hsent⟩
    rw [hwgate, hgate]
  · have hhalt : haltPlan u = takeTrigger .halted w := htrigger (by simp [hs]) (by simp [hs])
    have hew : w.gate.injFeeder = some x := by rw [hwgate, hgate, he]
    obtain ⟨hchanges, hrate⟩ := takeTrigger_adopts (r := .halted) hwv hs hew ho
    obtain ⟨hclosing, hpending, -⟩ := hadopts x hs hew ho
    rw [← hhalt] at hchanges hclosing hrate hpending
    refine takes_halted h hr hp hchanges (.frame hchanges) (by decide) (by decide) (by decide) ?_
    rw [← hu, endEvent_seq]
    obtain ⟨hlast, hmark⟩ := (endEvent_changes (haltPlan u)).same .rate
    refine ⟨hclosing, hmark.trans hpending, hlast.trans (hrate.trans ?_)⟩
    rw [hwgate, hgate]
  · have hhalt : haltPlan u = takeTrigger .halted w := htrigger (by simp [hs]) (by simp [hs])
    have hnw : (∃ x, w.gate.injFeeder = some x ∧ x.order = .rate)
        ∨ (w.gate.injFeeder = none ∧ w.line.d.lineFault = true) := by rw [hwgate, hgate, hwd, hd]; exact hn
    have hzw : 0 < w.flight.total := by rw [hwflight]; exact hz
    obtain ⟨hchanges, hcount⟩ := takeTrigger_notIssued (r := .halted) hwv hs hzw hnw
    obtain ⟨hentry, hqueue, hraised, hdrained, -⟩ := hstops hs hnw
    rw [← hhalt] at hchanges hcount hentry hqueue hraised hdrained
    refine takes_halted h hr hp hchanges (.frame hchanges) (by decide) (by decide) (by decide) ?_
    rw [← hu, endEvent_seq, ((endEvent_changes _).same .injection).1, ((endEvent_changes _).same .injection).2,
      ((endEvent_changes _).same .entries).1, (endEvent_changes _).sources]
    refine ⟨hdrained hzw, hentry, hqueue, hcount.trans (hwinjSeq.trans hinjSeq), ?_⟩
    rw [hraised, hwladder, hsource]
  · have hhalt : haltPlan u = setVisit (some { v with state := .draining, endReason := some .halted }) w := by
      rw [htrigger (by simp [hs]) (by simp [hs])]
      exact takeTrigger_drains hwv hs (by rw [hwflight]; exact hz)
    have hchanges : OnlyChanges [.visit] w (haltPlan u) := hhalt ▸ setVisit_changes _ w
    refine takes_halted h hr hp hchanges (.frame hchanges) (by decide) (by decide) (by decide) ?_
    rw [← hu, endEvent_seq, hhalt]
    rfl
  · have hhalt : haltPlan u = w := by
      rw [htrigger (by rcases hs with hs | hs <;> simp [hs]) (by rcases hs with hs | hs <;> simp [hs])]
      exact takeTrigger_ignored hwv (by rcases hs with hs | hs <;> simp [hs]) (by rcases hs with hs | hs <;> simp [hs])
    have hchanges : OnlyChanges [] w (haltPlan u) := hhalt ▸ .refl [] w
    refine takes_halted h hr hp hchanges (.frame hchanges) (by decide) (by decide) (by decide) ?_
    rw [← hu, endEvent_seq, hhalt]
    exact hwv

end

section
/-! RESUME_PLAN and SKIP_SLOT (R76, R77). -/

set_option Elab.async false

namespace Sys2Proof.Machine

/-- The slot at the cursor, eligible, opens its visit (R73). -/
theorem selectLoop_opensHere {p : PlanHeader} (fuel run : Nat) (mark : Bool) {s : State} {i : Fin 16} {sl : Slot}
    (ht : shipTargetReached s p = false) (hr : s.seq.round ≤ p.roundLimit)
    (hi : slotIndex s.seq p.slotCount s.seq.cursor = i.val) (hs : s.seq.slots[i] = some sl)
    (hin : ineligible s p sl.hold = none) : selectLoop p (fuel + 1) run mark s = openVisit i sl s := by
  rw [selectLoop, if_neg (by simp [ht]), if_neg (by omega), slotAtCursor_of s p i sl hi hs]
  simp only [hin]

theorem resumeRefusal_taken (e : RxEntry) (rest : List RxEntry) (row : Instr) (s : State) :
    resumeRefusal (takeHead .U e rest row s) = resumeRefusal s := by
  simp [resumeRefusal, State.ready]

theorem skipRefusal_taken (e : RxEntry) (rest : List RxEntry) (row : Instr) (s : State) :
    skipRefusal (takeHead .U e rest row s) = skipRefusal s := by
  obtain ⟨hhandler, -, -, -, -, -, -, hseq, -⟩ := takeHead_U_fields e rest row s
  have hpours : (takeHead .U e rest row s).visitPours = s.visitPours := by rw [State.visitPours, State.visitPours, hseq]
  simp only [skipRefusal, State.ready, hhandler, hseq, hpours]
  rfl

/-- A visit that is WAITING or ARMED does not pour. -/
theorem visitPours_false {s : State} {v : Visit} (hv : s.seq.visit = some v) (hs : v.state = .waiting ∨ v.state = .armed) :
    s.visitPours = false := by
  unfold State.visitPours
  rcases hs with hs | hs <;> simp [hv, hs, VisitState.pours]

theorem advanceCursor_within {s : State} {p : PlanHeader} (hp : s.seq.header = some p) (hc : s.seq.cursor + 1 < p.slotCount) :
    advanceCursor s = { s with seq := { s.seq with cursor := s.seq.cursor + 1 } } := by
  simp only [advanceCursor, hp]
  exact if_pos hc

theorem advanceCursor_round {s : State} {p : PlanHeader} (hp : s.seq.header = some p) (hc : p.slotCount ≤ s.seq.cursor + 1) :
    advanceCursor s = { s with seq := { s.seq with cursor := 0, round := s.seq.round + 1 } } := by
  simp only [advanceCursor, hp]
  exact if_neg (by omega)

theorem dropVisit_seq (s : State) : (dropVisit s).seq = { s.seq with visit := none } := by
  unfold dropVisit
  split
  next hv => rw [← hv]
  next v hv =>
    simp only
    split <;> rfl

theorem dropVisit_place (s : State) : (dropVisit s).place = s.place ∧ (dropVisit s).ship = s.ship := by
  unfold dropVisit
  split
  · exact ⟨rfl, rfl⟩
  · simp only
    split <;> exact ⟨rfl, rfl⟩

/-- A selection whose slot at the cursor is eligible, in a state `b` that has the plan of `s` with the fields `q`. -/
theorem selectVisit_opensHere {s b : State} {q : Sequencer} {p : PlanHeader} {i : Fin 16} {sl : Slot} (hb : b.seq = q)
    (hp : q.header = some p) (hcount : 1 ≤ p.slotCount) (hship : b.ship = s.ship) (hplace : b.place = s.place)
    (hholds : q.holds = s.seq.holds) (hstates : q.holdStates = s.seq.holdStates)
    (htarget : ∀ g, p.shipTarget = some g → pouredTotal s < g * 1000000) (hround : q.round ≤ p.roundLimit)
    (hi : slotIndex q p.slotCount q.cursor = i.val) (hsl : q.slots[i] = some sl)
    (hin : ineligible s p sl.hold = none) :
    (selectVisit b).seq = { q with visit := some { newVisit s i sl with round := q.round } } := by
  subst hb
  obtain ⟨n, hn⟩ : ∃ n, p.slotCount = n + 1 := ⟨p.slotCount - 1, by omega⟩
  have hshort : shipTargetReached b p = false := by
    rw [shipTargetReached_congr hship]
    exact (shipTargetReached_iff s p).2 htarget
  rw [selectVisit_eq hp, hn, selectLoop_opensHere n 0 false hshort hround (hn ▸ hi) hsl
    ((ineligible_congr hholds hstates hship p sl.hold).trans hin), openVisit_seq, newVisit_congr hplace]

/-- A selection past the round limit. -/
theorem selectVisit_rounds {s b : State} {q : Sequencer} {p : PlanHeader} (hb : b.seq = q) (hp : q.header = some p)
    (hcount : 1 ≤ p.slotCount) (hship : b.ship = s.ship) (htarget : ∀ g, p.shipTarget = some g → pouredTotal s < g * 1000000)
    (hround : p.roundLimit < q.round) : (selectVisit b).seq = { q with plan := .finished, finish := some .rounds } := by
  subst hb
  obtain ⟨n, hn⟩ : ∃ n, p.slotCount = n + 1 := ⟨p.slotCount - 1, by omega⟩
  have hshort : shipTargetReached b p = false := by
    rw [shipTargetReached_congr hship]
    exact (shipTargetReached_iff s p).2 htarget
  rw [selectVisit_eq hp, hn, selectLoop_rounds n 0 false hshort hround, finishPlan_seq]

/-- An accepted RESUME_PLAN. -/
theorem takes_resumed {s : State} {e : RxEntry} {rest : List RxEntry} {post : State → Prop}
    (h : Heads s .U .resumePlan e rest) (hnone : resumeRefusal s = none)
    (hp : post (endEvent (resumePlan (answered e rest .resumePlan s)))) :
    Takes s .U .resumePlan e rest selectionBlocks post := by
  have hcode : payloadCode e.frame = 9 := h.code rfl
  refine takes_requestDone (xs := selectionBlocks) (bs := [9, 0, 0]) h .resumePlan
    (answerRequest_none _ _ _ ((resumeRefusal_taken e rest .resumePlan s).trans hnone)) ?_ ?_ (by rw [hcode]) (by decide)
    fun _ => hp
  · exact (setPlan_changes _ _).mono.trans (selectVisit_changes _)
  · exact (Keeps.line (t := setPlan .active (answered e rest .resumePlan s))).trans (selectVisit_keeps _)

/-- An accepted SKIP_SLOT. -/
theorem takes_skipped {s : State} {e : RxEntry} {rest : List RxEntry} {post : State → Prop}
    (h : Heads s .U .skipSlot e rest) (hnone : skipRefusal s = none)
    (hp : post (endEvent (skipSlot (answered e rest .skipSlot s)))) :
    Takes s .U .skipSlot e rest (.unbilled :: selectionBlocks) post := by
  have hcode : payloadCode e.frame = 10 := h.code rfl
  refine takes_requestDone (xs := .unbilled :: selectionBlocks) (bs := [10, 0, 0]) h .skipSlot
    (answerRequest_none _ _ _ ((skipRefusal_taken e rest .skipSlot s).trans hnone)) ?_ ?_ (by rw [hcode]) (by decide)
    fun _ => hp
  · exact ((dropVisit_changes _).mono.then (advanceCursor_changes _)).then (selectVisit_changes _)
  · exact ((dropVisit_keeps _).trans (advanceCursor_keeps _)).trans (selectVisit_keeps _)

theorem resumeRefusal_suspended {s : State} (hr : s.ready = true) (hp : s.seq.plan = .suspended) (hv : s.seq.visit = none) :
    resumeRefusal s = none := by simp [resumeRefusal, hr, hp, hv]

theorem skipRefusal_waits {s : State} {v : Visit} (hr : s.ready = true) (hp : s.seq.plan = .active)
    (hv : s.seq.visit = some v) (hs : v.state = .waiting ∨ v.state = .armed) : skipRefusal s = none := by
  simp [skipRefusal, hr, hp, visitPours_false hv hs]

end Sys2Proof.Machine

open Sys2Proof Sys2Proof.Machine

/-- Settles O52. -/
theorem planResumedOrSkipped : Obligations.PlanResumedOrSkipped := by
  refine ⟨?_, ?_⟩
  · intro s e rest p i sl hr hp hsl hround hcount htarget hin
    refine ⟨fun h hplan hv hi => ?_, fun v h hplan hv hs hcursor hi => ?_⟩
    · obtain ⟨-, -, -, -, -, -, hplace, hseq, -, -, -, hship, -⟩ := answered_fields e rest .resumePlan s
      refine takes_resumed h (resumeRefusal_suspended hr hplan hv) ?_
      set b := setPlan .active (answered e rest .resumePlan s) with hb
      have hbseq : b.seq = { s.seq with plan := .active } := by rw [← hseq]; rfl
      have hopens := selectVisit_opensHere hbseq hp hcount hship hplace rfl rfl htarget hround hi hsl hin
      rw [endEvent_seq, resumePlan, ← hb, hopens]
      exact ⟨rfl, rfl, rfl, rfl, rfl⟩
    · obtain ⟨-, -, -, -, -, -, hplace, hseq, -, -, -, hship, -⟩ := answered_fields e rest .skipSlot s
      refine takes_skipped h (skipRefusal_waits hr hplan hv hs) ?_
      set d := dropVisit (answered e rest .skipSlot s) with hd
      obtain ⟨hdplace, hdship⟩ := dropVisit_place (answered e rest .skipSlot s)
      have hdseq : d.seq = { s.seq with visit := none } := by rw [hd, dropVisit_seq, hseq]
      have hadvance := advanceCursor_within (s := d) (p := p) (by rw [hdseq]; exact hp) (by rw [hdseq]; exact hcursor)
      set b := advanceCursor d with hb
      have hbseq : b.seq = { s.seq with visit := none, cursor := s.seq.cursor + 1 } := by rw [hadvance, hdseq]
      have hbship : b.ship = s.ship := by rw [hadvance]; exact hdship.trans hship
      have hbplace : b.place = s.place := by rw [hadvance]; exact hdplace.trans hplace
      have hopens := selectVisit_opensHere hbseq hp hcount hbship hbplace rfl rfl htarget hround hi hsl hin
      rw [endEvent_seq, skipSlot, ← hd, ← hb, hopens]
      exact ⟨hplan, rfl, rfl, rfl, rfl⟩
  · intro s e rest
    refine ⟨fun r h hr => ?_, fun r h hr => ?_, fun p hr hp hcount htarget => ⟨fun h hplan hv hround => ?_,
      fun v h hplan hv hs hcursor hround => ?_⟩⟩
    · have hcode : payloadCode e.frame = 9 := h.code rfl
      have hrefused : resumeRefusal s = some r ∧ r ≠ .billFull := by
        rcases hr with ⟨rfl, hr⟩ | ⟨rfl, hr, hp⟩ | ⟨rfl, hr, hp, hv⟩
        · exact ⟨by simp [resumeRefusal, hr], by decide⟩
        · exact ⟨by simp [resumeRefusal, hr, hp], by decide⟩
        · exact ⟨by simp [resumeRefusal, hr, hp, Option.isSome_iff_ne_none.2 hv], by decide⟩
      refine takes_answerRefused h .resumePlan ?_ (by rw [hcode])
      rw [treatResumePlan, answerRequest_some _ _ _ ((resumeRefusal_taken e rest .resumePlan s).trans hrefused.1),
        refuseRequest_other _ _ hrefused.2]
    · have hcode : payloadCode e.frame = 10 := h.code rfl
      have hrefused : skipRefusal s = some r ∧ r ≠ .billFull := by
        rcases hr with ⟨rfl, hr⟩ | ⟨rfl, hr, hp⟩ | ⟨rfl, hr, hp, hv⟩
        · exact ⟨by simp [skipRefusal, hr], by decide⟩
        · exact ⟨by simp [skipRefusal, hr, hp], by decide⟩
        · exact ⟨by simp [skipRefusal, hr, hp, hv], by decide⟩
      refine takes_answerRefused h .skipSlot ?_ (by rw [hcode])
      rw [treatSkipSlot, answerRequest_some _ _ _ ((skipRefusal_taken e rest .skipSlot s).trans hrefused.1),
        refuseRequest_other _ _ hrefused.2]
    · obtain ⟨-, -, -, -, -, -, -, hseq, -, -, -, hship, -⟩ := answered_fields e rest .resumePlan s
      refine takes_resumed h (resumeRefusal_suspended hr hplan hv) ?_
      set b := setPlan .active (answered e rest .resumePlan s) with hb
      have hbseq : b.seq = { s.seq with plan := .active } := by rw [← hseq]; rfl
      have hrounds := selectVisit_rounds hbseq hp hcount hship htarget hround
      rw [endEvent_seq, resumePlan, ← hb, hrounds]
      exact ⟨rfl, rfl, hv⟩
    · obtain ⟨-, -, -, -, -, -, -, hseq, -, -, -, hship, -⟩ := answered_fields e rest .skipSlot s
      refine takes_skipped h (skipRefusal_waits hr hplan hv hs) ?_
      set d := dropVisit (answered e rest .skipSlot s) with hd
      obtain ⟨-, hdship⟩ := dropVisit_place (answered e rest .skipSlot s)
      have hdseq : d.seq = { s.seq with visit := none } := by rw [hd, dropVisit_seq, hseq]
      have hadvance := advanceCursor_round (s := d) (p := p) (by rw [hdseq]; exact hp) (by rw [hdseq]; exact hcursor)
      set b := advanceCursor d with hb
      have hbseq : b.seq = { s.seq with visit := none, cursor := 0, round := s.seq.round + 1 } := by rw [hadvance, hdseq]
      have hbship : b.ship = s.ship := by rw [hadvance]; exact hdship.trans hship
      have hrounds := selectVisit_rounds hbseq hp hcount hbship htarget hround
      rw [endEvent_seq, skipSlot, ← hd, ← hb, hrounds]
      exact ⟨rfl, rfl, rfl, rfl, rfl⟩

end

section
/-! The STOP input (R107). -/

set_option Elab.async false

namespace Sys2Proof.Machine

/-! ## What a report to the visit reads -/

/-- A report to the visit reads the gate's FEEDER entry and reply window alone. -/
theorem TriggerReaches.congr_feeder {r : EndReason} {s s' t : State} (h : TriggerReaches r s' t) (hq : s'.seq = s.seq)
    (hg : s'.gate.injFeeder = s.gate.injFeeder) (hw : s'.gate.replyWindow = s.gate.replyWindow)
    (hd : s'.line.d.lineFault = s.line.d.lineFault) (hi : s'.line.injSeq = s.line.injSeq) (hn : s'.now = s.now)
    (hh : s'.handler = s.handler) (hst : s'.stations = s.stations) (hf : s'.flight = s.flight) (hs : s'.ship = s.ship)
    (hm : s'.meter = s.meter) (hb : s'.bills = s.bills) (hl : s'.ladder = s.ladder) : TriggerReaches r s t := by
  have hcompletes (v : Visit) (c : Completes v s' t) : Completes v s t :=
    c.congr (by rw [hm]) hs hb (by rw [hq]) (by rw [hq]) (by rw [hl])
  have hstation (a : Role) : s'.station a = s.station a := by rw [State.station, State.station, hst]
  refine ⟨by rw [← hq]; exact h.1, fun v hv => ?_⟩
  obtain ⟨⟨hinjected, hadopted, hstopped, hdrained, hcompleted⟩, hother⟩ := h.2 v (by rw [hq]; exact hv)
  rw [hg] at hinjected hadopted hstopped
  rw [hd] at hinjected
  rw [hd, hf, hl, hm] at hstopped
  rw [hf] at hdrained hcompleted
  rw [hm] at hcompleted
  refine ⟨⟨fun addr hp hfree hok haddr => ?_, hadopted, fun hp hnot => ?_, hdrained,
    fun hp hz hn => hcompletes _ (hcompleted hp hz hn)⟩, hother⟩
  · obtain ⟨hvisit, hpending, hinjects⟩ := hinjected addr hp hfree hok ((hstation _).trans haddr)
    exact ⟨hvisit, hpending, hinjects.congr hh hi hn hw⟩
  · obtain ⟨hentry, hqueue, hraised, hfull, hempty⟩ := hstopped hp hnot
    exact ⟨hentry, hqueue, hraised, hfull, fun hz hn => hcompletes _ (hempty hz hn)⟩

theorem Completes.leaves {v : Visit} {s t t' : State} (h : Completes v s t) (hq : t'.seq = t.seq) (hs : t'.ship = t.ship)
    (hb : t'.bills = t.bills) (hk : t'.ladder.sources[srcBillMark] = t.ladder.sources[srcBillMark]) :
    Completes v s t' := by
  unfold Completes MarkTested at *
  rw [hq, hs, hb, hk]
  exact h

/-- A report stands in a state that differs from its end in other sources alone. -/
theorem TriggerReaches.leaves {r : EndReason} {s t t' : State} {xs : List SourceNo} (h : TriggerReaches r s t)
    (hl : LeavesSources xs t t') (hq : t'.seq = t.seq) (hg : t'.gate = t.gate) (hline : t'.line = t.line)
    (hs : t'.ship = t.ship) (hb : t'.bills = t.bills) (hc : srcCloseoutNotIssued ∉ xs := by decide)
    (hk : srcBillMark ∉ xs := by decide) : TriggerReaches r s t' := by
  have hcompletes (v : Visit) (c : Completes v s t) : Completes v s t' := c.leaves hq hs hb (hl _ hk)
  refine ⟨fun hv => hq ▸ h.1 hv, fun v hv => ?_⟩
  obtain ⟨⟨hinjected, hadopted, hstopped, hdrained, hcompleted⟩, hother⟩ := h.2 v hv
  simp only [Triggered, Injects, hq, hg, hline, hl _ hc]
  exact ⟨⟨hinjected, hadopted, fun hp hnot => (hstopped hp hnot).imp_right fun ⟨hqueue, hraised, hfull, hempty⟩ =>
    ⟨hqueue, hraised, hfull, fun hz hn => hcompletes _ (hempty hz hn)⟩, hdrained,
    fun hp hz hn => hcompletes _ (hcompleted hp hz hn)⟩, hother⟩

/-! ## A cancelled sweep and a dismissed move -/

theorem abandonOrder_drive (a : DriveAxis) (s : State) : (abandonOrder (.drive a) s).gate.injFeeder = s.gate.injFeeder
    ∧ (abandonOrder (.drive a) s).gate.replyWindow = s.gate.replyWindow := by
  cases a <;> exact ⟨rfl, rfl⟩

/-! ## Parts of the state a frame condition leaves whole -/

theorem OnlyChanges.seq_eq {xs : List Block} {s t : State} (h : OnlyChanges xs s t)
    (hb : ∀ b ∈ [Block.planTables, .holdStates, .plan, .visit], b ∉ xs := by decide) : t.seq = s.seq := by
  obtain ⟨hholds, hslots, hheader⟩ := h .planTables (hb _ (by decide))
  have hstates : t.seq.holdStates = s.seq.holdStates := h .holdStates (hb _ (by decide))
  obtain ⟨hplan, horder, hstart, hcursor, hround, hskips, hfinish⟩ := h .plan (hb _ (by decide))
  have hvisit : t.seq.visit = s.seq.visit := h .visit (hb _ (by decide))
  cases ht : t.seq
  cases hs : s.seq
  simp_all

theorem OnlyChanges.meter_eq {xs : List Block} {s t : State} (h : OnlyChanges xs s t)
    (hb : ∀ b ∈ [Block.scale, .offset, .prev, .belt, .drift, .fault, .silence, .zero], b ∉ xs := by decide) :
    t.meter = s.meter := by
  have htable : t.meter.table = s.meter.table := h .scale (hb _ (by decide))
  have hoffset : t.meter.offset = s.meter.offset := h .offset (hb _ (by decide))
  have hprev : t.meter.prev = s.meter.prev := h .prev (hb _ (by decide))
  have hbelt : t.meter.belt = s.meter.belt := h .belt (hb _ (by decide))
  have hdrift : t.meter.drift = s.meter.drift := h .drift (hb _ (by decide))
  obtain ⟨hfault, hclearing⟩ := h .fault (hb _ (by decide))
  have hsilence : t.meter.silence = s.meter.silence := h .silence (hb _ (by decide))
  have hzero : t.meter.zero = s.meter.zero := h .zero (hb _ (by decide))
  cases ht : t.meter
  cases hs : s.meter
  simp_all

theorem OnlyChanges.bills_eq {xs : List Block} {s t : State} (h : OnlyChanges xs s t)
    (hb : ∀ b ∈ [Block.records, .reserved, .marks, .lastMark, .unbilled], b ∉ xs := by decide) : t.bills = s.bills := by
  obtain ⟨hrecords, hnext⟩ := h .records (hb _ (by decide))
  have hreserved : t.bills.reserved = s.bills.reserved := h .reserved (hb _ (by decide))
  have hmarks : t.bills.marks = s.bills.marks := h .marks (hb _ (by decide))
  have hlast : t.bills.lastMark = s.bills.lastMark := h .lastMark (hb _ (by decide))
  have hunbilled : t.bills.unbilled = s.bills.unbilled := h .unbilled (hb _ (by decide))
  cases ht : t.bills
  cases hs : s.bills
  simp_all

theorem OnlyChanges.ship_eq {xs : List Block} {s t : State} (h : OnlyChanges xs s t)
    (hb : ∀ b ∈ [Block.ship, .accounts, .bases, .weighed, .unassigned], b ∉ xs := by decide) : t.ship = s.ship := by
  obtain ⟨hstate, hnumber⟩ := h .ship (hb _ (by decide))
  have haccounts : t.ship.accounts = s.ship.accounts := h .accounts (hb _ (by decide))
  have hbases : t.ship.bases = s.ship.bases := h .bases (hb _ (by decide))
  have hweighed : t.ship.weighed = s.ship.weighed := h .weighed (hb _ (by decide))
  have hunassigned : t.ship.unassigned = s.ship.unassigned := h .unassigned (hb _ (by decide))
  cases ht : t.ship
  cases hs : s.ship
  simp_all

/-- What the end of a sweep leaves to the visit. -/
theorem cancelSweep_feeder (s : State) : (cancelSweep s).gate.injFeeder = s.gate.injFeeder
    ∧ (cancelSweep s).gate.replyWindow = s.gate.replyWindow ∧ (cancelSweep s).line.injSeq = s.line.injSeq
    ∧ (cancelSweep s).ladder = s.ladder := by
  unfold cancelSweep
  split
  · exact ⟨rfl, rfl, rfl, rfl⟩
  next w hw =>
    simp only [finishSweep, notice_fields, setSweep]
    exact ⟨(abandonOrder_drive _ s).1, (abandonOrder_drive _ s).2, rfl, rfl⟩

theorem cancelSweep_place (s : State) : (cancelSweep s).place = { s.place with sweep := none } := by
  cases hw : s.place.sweep with
  | none => rw [cancelSweep_none hw, ← hw]
  | some w => exact (cancelSweep_some hw).1

theorem dismissHeldMove_place (r : Reason) (s : State) :
    (dismissHeldMove r s).place = { s.place with held := none } := by
  cases hm : s.place.held with
  | none => rw [dismissHeldMove_none r hm, ← hm]
  | some m => rw [dismissHeldMove_some r hm, (refuse_U_fields _ _ _).2.2.2.2.2.2.1]

theorem dismissHeldMove_kept (r : Reason) (s : State) : (dismissHeldMove r s).gate = s.gate
    ∧ (dismissHeldMove r s).line.injSeq = s.line.injSeq ∧ (dismissHeldMove r s).ladder = s.ladder := by
  cases hm : s.place.held with
  | none => rw [dismissHeldMove_none r hm]; exact ⟨rfl, rfl, rfl⟩
  | some m => rw [dismissHeldMove_some r hm]; simp

/-- The state in which the STOP input reports to the visit (R107). -/
def stopReported (s : State) : State := cancelSweep (dismissHeldMove .cancelled (setStopPin true s))

theorem stopAsserted_eq (s : State) :
    stopAsserted s = raise srcStopInput (setCond srcStopInput true (takeTrigger .stopInput (stopReported s))) := rfl

theorem stopReported_changes (s : State) :
    OnlyChanges [.pins, .held, .sweep, .send .U, .entries, .injection] s (stopReported s) :=
  ((setStopPin_changes true s).mono.trans (dismissHeldMove_changes _ _).mono).trans (cancelSweep_changes _).mono

theorem stopReported_ladder (s : State) : (stopReported s).ladder = s.ladder := by
  obtain ⟨-, -, -, hladder⟩ := cancelSweep_feeder (dismissHeldMove .cancelled (setStopPin true s))
  obtain ⟨-, -, hladder'⟩ := dismissHeldMove_kept .cancelled (setStopPin true s)
  exact hladder.trans hladder'

theorem stopReported_place (s : State) : (stopReported s).place = { s.place with held := none, sweep := none } := by
  rw [stopReported, cancelSweep_place, dismissHeldMove_place]
  rfl

/-! ## No move is held after a trigger that found none held -/

theorem testHeldMove_none {s : State} (h : s.place.held = none) : testHeldMove s = s := by simp [testHeldMove, h]

theorem completeIfEmpty_held_none {s : State} (h : s.place.held = none) : (completeIfEmpty s).place.held = none := by
  unfold completeIfEmpty
  split
  · cases hv : s.seq.visit with
    | none => simpa [completeVisit, hv] using h
    | some v =>
      have hissue := issue_changes v.reserved (visitRecord s v) (setBases (visitLineAccounts s v) s)
      have hcompleted : (completed v s).place.held = none := Eq.trans (hissue.same .held) h
      rw [completeVisit_eq v s hv, testHeldMove_none hcompleted]
      exact Eq.trans ((afterVisit_changes _).same .held) hcompleted
  · exact h

theorem closeOut_held_none {s : State} (h : s.place.held = none) : (closeOut s).place.held = none := by
  have hnotIssued : (closeOutNotIssued s).place.held = none := completeIfEmpty_held_none (h : _ = _)
  unfold closeOut
  split
  · split
    · exact h
    · exact hnotIssued
  · split
    next s' hs' => exact Eq.trans ((injectOrder_changes _ _ _ _ _ hs').same .held) h
    · exact hnotIssued

theorem takeTrigger_held_none (r : EndReason) {s : State} (h : s.place.held = none) :
    (takeTrigger r s).place.held = none := by
  unfold takeTrigger
  split
  · exact closeOut_held_none (h : _ = _)
  · exact completeIfEmpty_held_none (h : _ = _)
  · exact h

/-- The trigger STOP_INPUT reaches the visit, and STOP_INPUT stands behind it. -/
theorem stopAsserted_reaches (s : State) : TriggerReaches .stopInput s (stopAsserted s) := by
  have hc := stopReported_changes s
  obtain ⟨hfeeder, hwindow, hinj, -⟩ := cancelSweep_feeder (dismissHeldMove .cancelled (setStopPin true s))
  obtain ⟨hgate, hinj', -⟩ := dismissHeldMove_kept .cancelled (setStopPin true s)
  have hreaches : TriggerReaches .stopInput s (takeTrigger .stopInput (stopReported s)) :=
    (takeTrigger_reaches .stopInput (stopReported s)).congr_feeder hc.seq_eq
      (hfeeder.trans (congrArg Gate.injFeeder hgate)) (hwindow.trans (congrArg Gate.replyWindow hgate))
      (hc.same (.recv .D)).2.2.2 (hinj.trans hinj') (hc.same .clock) hc.handler (hc.same .stations) (hc.same .flight)
      hc.ship_eq hc.meter_eq hc.bills_eq (stopReported_ladder s)
  rw [stopAsserted_eq]
  exact hreaches.leaves (((setCond_source srcStopInput true _).trans (raise_source srcStopInput _))) rfl rfl rfl rfl rfl

theorem stopAsserted_source (s : State) : (stopAsserted s).ladder.sources[srcStopInput]
    = ({ s.ladder.sources[srcStopInput] with cond := true } : Source).raised := by
  have htrigger := takeTrigger_source .stopInput (stopReported s) srcStopInput (by decide)
  rw [stopReported_ladder] at htrigger
  rw [stopAsserted_eq, raise_same, (setCond_fields _ _ _).2.2.2.2.2.2.2.2.2.2.2.1, put_source, htrigger, if_pos rfl]
  rfl

theorem stopAsserted_place (s : State) : (stopAsserted s).place.held = none ∧ (stopAsserted s).place.sweep = none := by
  have hc := takeTrigger_changes .stopInput (stopReported s)
  have hnone : (stopReported s).place.held = none := by rw [stopReported_place]
  have hheld : (stopAsserted s).place.held = none := takeTrigger_held_none .stopInput hnone
  have hsweep : (stopAsserted s).place.sweep = (stopReported s).place.sweep := hc.same .sweep
  rw [hsweep, stopReported_place]
  exact ⟨hheld, rfl⟩

/-- With the STOP input asserted FEED PERMIT is false after every event (R106). -/
theorem endEvent_permit_stopped {s : State} (h : s.pins.stop = true) : (endEvent s).gate.permit = false := by
  have hpins : (endEvent s).pins = s.pins := (endEvent_changes s).same .pins
  rw [show (endEvent s).gate.permit = permitOf (endEvent s) from endEvent_permitTrue s, permitOf, hpins, h]
  simp

theorem exec_stopInputAsserted {s : State} (hs : s.pins.stop = false) (hr : s.pins.reset = false) :
    exec .stopInputAsserted s = .next (endEvent (stopAsserted s)) := by
  change execStopInputAsserted s = _
  simp [execStopInputAsserted, hs, hr]

theorem exec_stopInputCleared {s : State} (hs : s.pins.stop = true) (hr : s.pins.reset = false) :
    exec .stopInputCleared s = .next (endEvent (setCond srcStopInput false (setStopPin false s))) := by
  change execStopInputCleared s = _
  simp [execStopInputCleared, hs, hr]

end Sys2Proof.Machine

open Sys2Proof Sys2Proof.Machine

/-- Settles O60. -/
theorem stopInputActs : Obligations.StopInputActs := by
  intro s
  refine ⟨fun hs hr => ?_, fun hs hr => ?_, fun hs => ?_, fun hs => ?_, fun hr hs => ?_, fun hr hs => ?_⟩
  · refine runs_of (xs := .pins :: .conds :: .sweep :: pourBlocks) (stopAsserted s) (exec_stopInputAsserted hs hr)
      (stopAsserted_changes s) (by decide) ?_
    have hpins := stopAsserted_pins s
    rw [hr] at hpins
    have hclosed := (stopAsserted_reaches s).closes (endEvent_closes _)
    have hend : (endEvent (stopAsserted s)).pins = (stopAsserted s).pins := (endEvent_changes _).same .pins
    refine ⟨hend.trans hpins, endEvent_permit_stopped (by rw [hpins]), ?_, ?_, ?_, hclosed.2⟩
    · rw [endEvent_place]; exact (stopAsserted_place s).1
    · rw [endEvent_place]; exact (stopAsserted_place s).2
    · rw [endEvent_ladder]; exact stopAsserted_source s
  · refine runs_of (xs := [.pins, .sources, .conds]) _ (exec_stopInputCleared hs hr)
      ((setStopPin_changes false s).mono.trans (setCond_changes _ _ _).mono) (by decide) ⟨?_, ?_⟩
    · have hend := (endEvent_changes (setCond srcStopInput false (setStopPin false s))).same .pins
      refine Eq.trans hend ?_
      change (⟨s.pins.reset, false⟩ : Pins) = _
      rw [hr]
    · rw [endEvent_ladder, (setCond_fields _ _ _).2.2.2.2.2.2.2.2.2.2.2.1]
      change ((setStopPin false s).ladder.put _ _).sources[srcStopInput].cond = false
      rw [put_source, if_pos rfl]
      exact (withCond_kept _ _).2.2.2
  · change execStopInputAsserted s = _
    simp [execStopInputAsserted, hs]
  · change execStopInputCleared s = _
    simp [execStopInputCleared, hs]
  · change execStopInputAsserted s = _
    simp [execStopInputAsserted, hs, hr, setStopPin]
  · change execStopInputCleared s = _
    simp [execStopInputCleared, hs, hr, setStopPin]

end

section
/-! The expiries (R15, R17, R61, R94, R102, R104, R119, R121). -/

set_option Elab.async false

namespace Sys2Proof.Machine

/-! ## Bands formed again (R121) -/

theorem reformBands_sensors (s : State) : (reformBands s).dust.sensors = s.dust.sensors := (reformBands_changes s).same .sensors

theorem recomputeLimit_source (s : State) : LeavesSources [] s (recomputeLimit s) := by
  unfold recomputeLimit
  simp only
  split
  · exact .trans (.ladder) (.frame (derateCheck_changes { s with gate := { s.gate with rateLimit := rateLimitOf s } }))
  · exact .ladder

/-- The state whose bands are formed, the limit not yet recomputed (R121). -/
def bandState (s : State) : State :=
  { s with dust := { s.dust with overall := s.dust.formOverall, spray := s.dust.formSpray } }

theorem reformBands_source (s : State) :
    LeavesSources [srcCloseoutNotIssued, srcTrimBound, srcBillMark] s (reformBands s) := by
  have hlimit : LeavesSources [srcCloseoutNotIssued, srcTrimBound, srcBillMark] s (recomputeLimit (bandState s)) :=
    .trans .ladder (recomputeLimit_source (bandState s)).mono
  unfold reformBands
  simp only
  split
  · exact .ladder
  · split
    · exact hlimit.trans (takeTrigger_source _ (recomputeLimit (bandState s)))
    · exact hlimit

/-! ## A sensor falls silent (R119) -/

/-- The sensor once its silence timer has expired. -/
def silentSensor (x : Sensor) : Sensor := { x with silent := true, timer := none }

/-- The state in which the expiry of a sensor's timer forms the bands again. -/
theorem silencedSensor_fields (i : SensorNo) (s : State) :
    (silenceSensor i (stopSensorTimer i s)).dust.sensors = upd s.dust.sensors i (silentSensor s.dust.sensors[i])
      ∧ (silenceSensor i (stopSensorTimer i s)).ladder.sources[srcSensorSilent i]
        = (let y := (s.ladder.sources[srcSensorSilent i]).withCond true
          if (s.dust.sensors[i]).silent then y else y.raised) := by
  have hset : (stopSensorTimer i s).dust.sensors[i] = { s.dust.sensors[i] with timer := none } := by
    rw [stopSensorTimer, setSensor_get, if_pos rfl]
  have hsensors : upd (stopSensorTimer i s).dust.sensors i { (stopSensorTimer i s).dust.sensors[i] with silent := true }
      = upd s.dust.sensors i (silentSensor s.dust.sensors[i]) := by
    rw [hset]
    exact Vector.set_set ..
  have hput : ((stopSensorTimer i s).ladder.put (srcSensorSilent i)
      ((s.ladder.sources[srcSensorSilent i]).withCond true)).sources[srcSensorSilent i]
      = (s.ladder.sources[srcSensorSilent i]).withCond true := by rw [put_source, if_pos rfl]
  have hsilent : ((stopSensorTimer i s).dust.sensors[i]).silent = (s.dust.sensors[i]).silent := by rw [hset]
  unfold silenceSensor
  simp only [hsilent]
  split
  · exact ⟨hsensors, hput⟩
  · refine ⟨hsensors, ?_⟩
    rw [raise_same]
    exact congrArg Source.raised hput

theorem silencedSensor_changes (i : SensorNo) (s : State) :
    OnlyChanges [.sensors, .sources, .conds] s (silenceSensor i (stopSensorTimer i s)) :=
  OnlyChanges.trans (t := stopSensorTimer i s) (setSensor_changes i _ s).mono (silenceSensor_changes i _)

theorem silencedSensor_source (i : SensorNo) (s : State) :
    LeavesSources [srcSensorSilent i] s (silenceSensor i (stopSensorTimer i s)) := by
  set x : Sensor := { (stopSensorTimer i s).dust.sensors[i] with silent := true }
  have hcond : LeavesSources [srcSensorSilent i] s
      (setCond (srcSensorSilent i) true (setSensor i x (stopSensorTimer i s))) :=
    .trans .ladder (setCond_source (srcSensorSilent i) true (setSensor i x (stopSensorTimer i s)))
  unfold silenceSensor
  simp only
  split
  · exact hcond
  · exact hcond.trans (raise_source _ _)

theorem silencedSensor_eq (i : SensorNo) (s : State) : silenceSensor i (stopSensorTimer i s)
    = ({ s with dust := { s.dust with sensors := (silenceSensor i (stopSensorTimer i s)).dust.sensors } } : State).aside
        s.line.u (silenceSensor i (stopSensorTimer i s)).ladder := by
  unfold silenceSensor
  simp only
  split <;> rfl

theorem silencedSensor_bands (i : SensorNo) (s : State) :
    BandsFormed s (reformBands (silenceSensor i (stopSensorTimer i s))) := by
  have hsource := silencedSensor_source i s
  have hne : ∀ i : SensorNo, srcCloseoutNotIssued ∉ [srcSensorSilent i] ∧ srcBillMark ∉ [srcSensorSilent i] := by decide
  refine BandsFormed.aside (u := s.line.u) (l := (silenceSensor i (stopSensorTimer i s)).ladder)
    (silenceSensor i (stopSensorTimer i s)).dust.sensors ?_ (hsource _ (hne i).1) (hsource _ (hne i).2)
  rw [← silencedSensor_eq]
  exact reformBands_formed _

/-! ## The scale falls silent (R17) -/

/-- The state in which the silence of the scale sets METER FAULT. -/
def silentScale (s : State) : State := { s with meter := { s.meter with silence := none } }

theorem silentScale_changes (s : State) : OnlyChanges [.silence] s (silentScale s) := by
  intro b hb; cases b <;> simp_all [Same, silentScale]

theorem silentScale_faultSet (s : State) : FaultSet s (setMeterFault (silentScale s)) := setMeterFault_set (silentScale s)

theorem silentScale_silence (s : State) : (setMeterFault (silentScale s)).meter.silence = none :=
  (setMeterFault_changes (silentScale s)).same .silence

/-! ## An order's window closes (R94) -/

/-- The FEEDER entry freed, with the alarm of a failed order. -/
def failedOrder (s : State) : State := raise srcStopFault (abandonOrder .feeder s)

theorem failedOrder_changes (s : State) : OnlyChanges [.entries, .injection, .sources] s (failedOrder s) :=
  (abandonOrder_changes .feeder s).mono.trans (raise_changes _ _).mono

theorem failedOrder_freed (s : State) :
    (failedOrder s).gate.injFeeder = none ∧ ∀ y ∈ (failedOrder s).line.injection, y.dest ≠ .feeder :=
  ⟨rfl, fun y hy => by simpa using (List.mem_filter.1 (show y ∈ s.line.injection.filter _ from hy)).2⟩

theorem failedOrder_source (s : State) :
    (failedOrder s).ladder.sources[srcStopFault] = (s.ladder.sources[srcStopFault]).raised := raise_same _ _

theorem failedOrder_other (s : State) : LeavesSources [srcStopFault] s (failedOrder s) :=
  .trans .ladder (raise_source srcStopFault (abandonOrder .feeder s))

/-- A CLOSING visit whose close-out STOP failed (R86, R104). -/
def hardStopped (v : Visit) : Visit := { v with state := .draining, flags := { v.flags with hardStopped := true } }

theorem closeOutOutcome_failed {s : State} {v : Visit} (hv : s.seq.visit = some v) (hs : v.state = .closing) :
    closeOutOutcome true s = completeIfEmpty (setVisit (some (hardStopped v)) s) := by
  have hstate : s.visitState = some .closing := by rw [State.visitState, hv, Option.map_some, hs]
  simp [closeOutOutcome, hstate, enterDraining, mapVisit, hv, hardStopped]

theorem closeOutOutcome_other {s : State} (failed : Bool) (h : s.visitState ≠ some .closing) :
    closeOutOutcome failed s = s := by
  unfold closeOutOutcome
  split
  next hc => exact absurd hc h
  · rfl

theorem completeIfEmpty_source (s : State) : LeavesSources [srcTrimBound, srcBillMark] s (completeIfEmpty s) := by
  unfold completeIfEmpty
  split
  · exact completeVisit_source s
  · exact .refl _ s

/-- The FEEDER entry's window has closed. -/
theorem exec_feederExpiry {s : State} {x : InjEntry} (hx : s.gate.injFeeder = some x) (hd : x.deadline ≤ s.now) :
    exec (.replyWindowExpiry .feeder) s = .next (endEvent (feederOutcome x.order true (abandonOrder .feeder s))) := by
  change execReplyWindowExpiry .feeder s = _
  simp [execReplyWindowExpiry, Gate.entry, hx, hd, expiredOrder]

/-! ## A sweep faults (R61) -/

theorem abandonOrder_freed (a : DriveAxis) (s : State) : (abandonOrder (.drive a) s).gate.entry (.drive a) = none
    ∧ ∀ y ∈ (abandonOrder (.drive a) s).line.injection, y.dest ≠ .drive a :=
  ⟨setEntry_entry _ _ _, fun y hy => by simpa using (List.mem_filter.1 (show y ∈ s.line.injection.filter _ from hy)).2⟩

theorem faultSweep_some {s : State} {w : Sweep} (h : s.place.sweep = some w) :
    (faultSweep s).place = { s.place with sweep := none } ∧ (faultSweep s).gate.entry (.drive w.axis) = none
      ∧ (∀ y ∈ (faultSweep s).line.injection, y.dest ≠ .drive w.axis)
      ∧ (faultSweep s).ladder.sources[srcSweepFault] = (s.ladder.sources[srcSweepFault]).raised := by
  obtain ⟨hentry, hqueue⟩ := abandonOrder_freed w.axis s
  have heq : faultSweep s = finishSweep .moveFault w (raise srcSweepFault (abandonOrder (.drive w.axis) s)) := by
    simp only [faultSweep, h]
  rw [heq]
  simp only [finishSweep, notice_fields, setSweep]
  exact ⟨rfl, hentry, hqueue, raise_same _ _⟩

end Sys2Proof.Machine

open Sys2Proof Sys2Proof.Machine

/-- Settles O59. -/
theorem timersExpire : Obligations.TimersExpire := by
  intro s
  refine ⟨fun x hx hd => ?_, fun i x hx hd => ?_, fun x v hx hd ho hv hs hf => ?_, fun x v hx hd ho hv hs hf => ?_,
    fun x hx hd ho => ?_, fun x hx hd ho hs => ?_, fun a x w hx hd hw ha => ?_, fun w hw hd => ?_, fun h => ?_,
    fun h => ?_, fun i h => ?_, fun d h => ?_, fun h => ?_⟩
  · refine runs_of (xs := .silence :: faultBlocks) (setMeterFault (silentScale s)) ?_
      ((silentScale_changes s).mono.trans (setMeterFault_changes _).mono) (by decide) ⟨?_, ?_⟩
    · change execScaleSilenceExpiry s = _
      simp [execScaleSilenceExpiry, hx, hd, silentScale]
    · rw [(endEvent_closes _).2.2.2.1]; exact silentScale_silence s
    · exact (silentScale_faultSet s).closes (endEvent_closes _)
  · obtain ⟨hsensors, hsource⟩ := silencedSensor_fields i s
    set u := silenceSensor i (stopSensorTimer i s) with hu
    have hend : (endEvent (reformBands u)).dust.sensors = upd s.dust.sensors i (silentSensor s.dust.sensors[i]) := by
      rw [(endEvent_closes _).2.2.2.2.1, reformBands_sensors, hsensors]
    refine runs_of (xs := dustBlocks) (reformBands u) ?_
      ((silencedSensor_changes i s).mono.trans (reformBands_changes _).mono) (by decide) ⟨?_, fun j hj => ?_, ?_, ?_⟩
    · change execSensorSilenceExpiry i s = _
      simp only [execSensorSilenceExpiry, hx, hd, if_true, hu]
    · rw [hend]; exact upd_get ..
    · rw [hend]; exact upd_get_ne _ _ _ _ (Ne.symm hj)
    · exact (silencedSensor_bands i s).closes (endEvent_closes _)
    · have hne : ∀ i : SensorNo, srcSensorSilent i ∉ [srcCloseoutNotIssued, srcTrimBound, srcBillMark] := by decide
      rw [endEvent_ladder]
      exact (reformBands_source u _ (hne i)).trans hsource
  · have heq : feederOutcome x.order true (abandonOrder .feeder s) = setVisit (some (hardStopped v)) (failedOrder s) := by
      rw [ho]
      refine (closeOutOutcome_failed (s := failedOrder s) hv hs).trans ?_
      exact if_neg (Nat.pos_iff_ne_zero.1 hf)
    obtain ⟨hfree, hqueue⟩ := failedOrder_freed s
    refine runs_of (xs := [.entries, .injection, .sources, .visit]) _ (heq ▸ exec_feederExpiry hx hd)
      ((failedOrder_changes s).mono.trans (setVisit_changes _ _).mono) (by decide) ?_
    rw [(endEvent_closes _).gate.1, (endEvent_closes _).2.2.2.2.2.2.2.1, endEvent_ladder, endEvent_seq]
    exact ⟨hfree, hqueue, failedOrder_source s, rfl⟩
  · have heq : feederOutcome x.order true (abandonOrder .feeder s)
        = completeIfEmpty (setVisit (some (hardStopped v)) (failedOrder s)) := by
      rw [ho]
      exact closeOutOutcome_failed (s := failedOrder s) hv hs
    set d := setVisit (some (hardStopped v)) (failedOrder s) with hd'
    have hcompletes : Completes (hardStopped v) s (completeIfEmpty d) :=
      (completeIfEmpty_completes (hardStopped v) d rfl hf).congr rfl rfl rfl rfl rfl
        (failedOrder_other s srcBillMark (by decide))
    refine runs_of (xs := pourBlocks) _ (heq ▸ exec_feederExpiry hx hd)
      (((failedOrder_changes s).mono.trans (setVisit_changes _ _).mono).trans (completeIfEmpty_changes _).mono)
      (by decide) ?_
    have hfree : (completeIfEmpty d).gate.injFeeder = d.gate.injFeeder := ((completeIfEmpty_changes d).same .entries).1
    have hclosed : Completes (hardStopped v) s (endEvent (completeIfEmpty d)) :=
      Completes.leaves hcompletes (endEvent_seq _) (endEvent_closes _).2.2.1 (endEvent_closes _).2.1 (by rw [endEvent_ladder])
    refine ⟨(endEvent_closes _).gate.1.trans hfree, ?_, hclosed⟩
    rw [endEvent_ladder]
    exact (completeIfEmpty_source d srcStopFault (by decide)).trans (failedOrder_source s)
  · have heq : feederOutcome x.order true (abandonOrder .feeder s) = derateCheck (failedOrder s) := by rw [ho]; rfl
    obtain ⟨hfree, hqueue⟩ := failedOrder_freed s
    set u := failedOrder s with hu
    have hunsent : ¬ ((∃ x, u.gate.injFeeder = some x ∧ x.order = .rate) ∧ ∃ y ∈ u.line.injection, y.dest = .feeder) := by
      rintro ⟨⟨y, hy, -⟩, -⟩
      exact absurd (hfree.symm.trans hy) (by simp)
    have hc := endEvent_closes (derateCheck u)
    obtain ⟨hnotDue, hinjects, -, hpending⟩ := derateCheck_checked u
    refine runs_of (xs := .sources :: derateBlocks) (changed := .sources :: derateBlocks) _ (heq ▸ exec_feederExpiry hx hd)
      ((failedOrder_changes s).mono.trans (derateCheck_changes u).mono) (by decide)
      ⟨?_, fun hdue => ?_, fun addr hdue hl ha => ?_, fun hdue hl => ?_⟩
    · rw [endEvent_ladder]
      exact ((derateCheck_changes u).sources srcStopFault).trans (failedOrder_source s)
    · obtain ⟨hmark, hrate, hvisit, hentries, hinjection⟩ := hnotDue hdue
      rw [hc.gate.1, hc.2.2.2.2.2.2.2.1, hc.gate.2.2.2.1, hc.gate.2.2.2.2.1, endEvent_seq, hentries.1, hinjection.1]
      exact ⟨hfree, hqueue, hrate, hmark, hvisit⟩
    · obtain ⟨hsent, hrate, hmark, -⟩ := hinjects addr hdue hfree hl ha
      rw [hc.gate.2.2.2.1, hc.gate.2.2.2.2.1]
      exact ⟨hsent.endEvent, hrate, hmark⟩
    · obtain ⟨hmark, hrate, hvisit, hentries, hinjection⟩ := hpending hdue hunsent (.inr hl)
      rw [hc.gate.1, hc.2.2.2.2.2.2.2.1, hc.gate.2.2.2.1, hc.gate.2.2.2.2.1, endEvent_seq, hentries.1, hinjection.1]
      exact ⟨hfree, hqueue, hrate, hmark, hvisit⟩
  · have heq : feederOutcome x.order true (abandonOrder .feeder s) = failedOrder s := by
      rw [ho]
      exact closeOutOutcome_other (s := failedOrder s) true hs
    obtain ⟨hfree, hqueue⟩ := failedOrder_freed s
    refine runs_of (xs := [.entries, .injection, .sources]) _ (heq ▸ exec_feederExpiry hx hd) (failedOrder_changes s)
      (by decide) ?_
    rw [(endEvent_closes _).gate.1, (endEvent_closes _).2.2.2.2.2.2.2.1, endEvent_ladder]
    exact ⟨hfree, hqueue, failedOrder_source s⟩
  · have hsweep : (abandonOrder (.drive a) s).place.sweep = some w := hw
    obtain ⟨hplace, hentry, -, -⟩ := faultSweep_some hsweep
    refine runs_of (xs := [.sweep, .send .U, .entries, .injection, .sources]) (faultSweep (abandonOrder (.drive a) s)) ?_
      ((abandonOrder_changes (.drive a) s).mono.trans (faultSweep_changes _)) (by decide) ⟨?_, ?_⟩
    · change execReplyWindowExpiry (.drive a) s = _
      simp [execReplyWindowExpiry, hx, hd, expiredOrder, hsweep, ha]
    · rw [endEvent_place, hplace]
    · rw [(endEvent_closes _).entry, ← ha]
      exact ha ▸ hentry
  · obtain ⟨hplace, hentry, hqueue, hsource⟩ := faultSweep_some hw
    refine runs_of (xs := [.sweep, .send .U, .entries, .injection, .sources]) (faultSweep s) ?_ (faultSweep_changes s)
      (by decide) ?_
    · change execStepTimeout s = _
      simp [execStepTimeout, hw, hd]
    · rw [endEvent_place, (endEvent_closes _).entry, (endEvent_closes _).2.2.2.2.2.2.2.1, endEvent_ladder, hplace]
      exact ⟨rfl, hentry, hqueue, hsource⟩
  · change execScaleSilenceExpiry s = _
    cases hx : s.meter.silence with
    | none => simp [execScaleSilenceExpiry, hx]
    | some x => simp [execScaleSilenceExpiry, hx, Nat.not_le.2 (h x hx)]
  · change execZeroTimeout s = _
    cases hx : s.meter.zero with
    | none => simp [execZeroTimeout, hx]
    | some x => simp [execZeroTimeout, hx, Nat.not_le.2 (h x hx)]
  · change execSensorSilenceExpiry i s = _
    cases hx : (s.dust.sensors[i]).timer with
    | none => simp only [execSensorSilenceExpiry, hx]
    | some x => simp only [execSensorSilenceExpiry, hx, if_neg (Nat.not_le.2 (h x hx))]
  · change execReplyWindowExpiry d s = _
    cases hx : s.gate.entry d with
    | none => simp [execReplyWindowExpiry, hx]
    | some x => simp [execReplyWindowExpiry, hx, Nat.not_le.2 (h x hx)]
  · change execStepTimeout s = _
    cases hx : s.place.sweep with
    | none => simp [execStepTimeout, hx]
    | some x => simp [execStepTimeout, hx, Nat.not_le.2 (h x hx)]

end

section
/-! SWEEP (R56, R57, R61). -/

set_option Elab.async false

namespace Sys2Proof.Machine

/-! ## The request is judged (R56) -/

theorem guardedHold_taken (e : RxEntry) (rest : List RxEntry) (row : Instr) (s : State) :
    guardedHold (takeHead .U e rest row s) = guardedHold s := by
  simp [guardedHold]

theorem judgeSweep_taken (e : RxEntry) (rest : List RxEntry) (row : Instr) (s : State) :
    judgeSweep (takeHead .U e rest row s) = judgeSweep s := by
  obtain ⟨hhandler, -, -, -, -, -, hplace, -⟩ := takeHead_U_fields e rest row s
  rw [judgeSweep, judgeSweep, pourPhase_taken, guardedHold_taken, State.ready, State.ready, hhandler, hplace]

/-- The pour phase, if there is one, guards hold `h` (R51). -/
def GuardsHold (h : Hold) (s : State) : Prop := pourPhase s = true → ∃ v, s.seq.visit = some v ∧ v.hold = h

/-- Neither a sweep nor a held move (R56). -/
def NoMotion (s : State) : Prop := s.place.sweep = none ∧ s.place.held = none

theorem guardedHold_eq {s : State} {h : Hold} (hg : GuardsHold h s) :
    (pourPhase s && guardedHold s != some h) = false := by
  cases hp : pourPhase s with
  | false => rfl
  | true =>
    obtain ⟨v, hv, hh⟩ := hg hp
    simp [guardedHold, hv, hh]

theorem guardedHold_ne {s : State} {h : Hold} (hp : pourPhase s = true) (hv : ∀ v, s.seq.visit = some v → v.hold ≠ h) :
    (pourPhase s && guardedHold s != some h) = true := by
  simp only [hp, Bool.true_and, bne_iff_ne, ne_eq, guardedHold, Option.map_eq_some_iff, not_exists, not_and]
  exact fun v k => hv v k

theorem judgeSweep_notReady {s : State} (hr : s.ready = false) : judgeSweep s = .error .notReady := by
  simp [judgeSweep, hr]

theorem judgeSweep_moves {s : State} (hr : s.ready = true) (hn : ¬ NoMotion s) : judgeSweep s = .error .busy := by
  have hbusy : (s.place.sweep.isSome || s.place.held.isSome) = true := by
    by_contra hb
    simp only [Bool.or_eq_true, not_or, Bool.not_eq_true, Option.isSome_eq_false_iff, Option.isNone_iff_eq_none] at hb
    exact hn hb
  simp [judgeSweep, hr, hbusy]

/-- A READY part without a sweep or a held move judges by the placement alone. -/
theorem judgeSweep_still {s : State} (hr : s.ready = true) (hn : NoMotion s) : judgeSweep s =
    match s.place.state.placedAt with
    | none => .error .notPlaced
    | some h => if pourPhase s && guardedHold s != some h then .error .busy else .ok h := by
  simp [judgeSweep, hr, hn.1, hn.2] <;> rfl

theorem judgeSweep_notPlaced {s : State} (hr : s.ready = true) (hn : NoMotion s) (hp : ∀ h, s.place.state ≠ .placed h) :
    judgeSweep s = .error .notPlaced := by
  have hplaced : s.place.state.placedAt = none :=
    Option.eq_none_iff_forall_ne_some.2 fun h hh => hp h ((placedAt_eq_some_iff _ _).1 hh)
  rw [judgeSweep_still hr hn, hplaced]

theorem judgeSweep_guarded {s : State} {h : Hold} (hr : s.ready = true) (hn : NoMotion s) (hp : s.place.state = .placed h)
    (hg : (pourPhase s && guardedHold s != some h) = true) : judgeSweep s = .error .busy := by
  rw [judgeSweep_still hr hn, hp, PlaceState.placedAt]
  exact if_pos hg

theorem judgeSweep_ok {s : State} {h : Hold} (hr : s.ready = true) (hn : NoMotion s) (hp : s.place.state = .placed h)
    (hg : GuardsHold h s) : judgeSweep s = .ok h := by
  rw [judgeSweep_still hr hn, hp, PlaceState.placedAt]
  exact if_neg (by rw [guardedHold_eq hg]; simp)

/-- The fields of the request lie in their ranges (R56). -/
def SweepInRange (x dir : Byte) (step : Nat) (count : Byte) : Prop :=
  x.toNat ≤ 1 ∧ dir.toNat ≤ 1 ∧ 10 ≤ step ∧ step ≤ 5000 ∧ 1 ≤ count.toNat

theorem sweepInRange_iff (x dir : Byte) (step : Nat) (count : Byte) :
    sweepInRange x dir step count = true ↔ SweepInRange x dir step count := by
  simp [sweepInRange, SweepInRange, between, and_assoc]

/-! ## A step begins (R57) -/

theorem newSweep_axis {x dir : Byte} {step : Nat} {count : Byte} {h : Hold} {a : DriveAxis} (hx : x = (axisOf a).code) :
    newSweep x dir step count h = { axis := a, plus := dir == 0, step := step, remaining := count.toNat, done := 0,
                                    hold := h, clipped := false, target := 0, phase := .awaitingReply, timer := 0 } := by
  subst hx
  cases a <;> rfl

/-- The state in which a step's order is injected (R57). -/
def drawn (s : State) : State := { s with draws := s.draws + 1 }

theorem drawn_changes (s : State) : OnlyChanges [.draws] s (drawn s) := by
  intro b hb; cases b <;> simp_all [Same, drawn]

/-- A sweep in its next step (R57). -/
def stepped (w : Sweep) (s : State) : Sweep :=
  { w with clipped := decide ((stepTarget s w : Int) ≠ stepValue s w), target := stepTarget s w, phase := .awaitingReply,
           timer := s.now + s.place.travel.stepTimeout * 1000 }

theorem beginStep_injected {w : Sweep} {s s' : State} (hg : GuardsHold w.hold s)
    (hi : injectOrder (.drive w.axis) .move (movePayload (axisOf w.axis).code (stepTarget s w)) (drawn s) = some s') :
    beginStep w s = setSweep (some (stepped w s)) s' := by
  rw [beginStep, sweepBarred, guardedHold_eq hg, if_neg (by simp)]
  simp only [show ({ s with draws := s.draws + 1 } : State) = drawn s from rfl, hi]
  rfl

theorem beginStep_faulted {w : Sweep} {s : State} (hg : GuardsHold w.hold s)
    (hi : injectOrder (.drive w.axis) .move (movePayload (axisOf w.axis).code (stepTarget s w)) (drawn s) = none) :
    beginStep w s = faultSweep (setSweep (some (stepped w s)) (drawn s)) := by
  rw [beginStep, sweepBarred, guardedHold_eq hg, if_neg (by simp)]
  simp only [show ({ s with draws := s.draws + 1 } : State) = drawn s from rfl, hi]
  rfl

theorem injectOrder_none {d : InjDest} {s : State} (o : InjOrder) (bs : List Byte)
    (h : s.line.d.lineFault = true ∨ s.station (destRole d) = none) : injectOrder d o bs s = none := by
  unfold injectOrder
  split
  next hl ha => rcases h with h | h <;> simp_all
  · rfl

theorem destRole_drive (a : DriveAxis) : destRole (.drive a) = (axisOf a).role := by cases a <;> rfl

/-- SWEEP_DONE with outcome MOVE_FAULT before any step is done (R62). -/
theorem faultSweep_onWire {s : State} {w : Sweep} (h : s.place.sweep = some w) (hroom : (s.line.port .U).room = true) :
    OnWire .U { dst := 0, src := s.handler.ownAddr, kind := 0x41, seq := 0,
                payload := [5, 4, (axisOf w.axis).code, byteOf w.done] } (faultSweep s) := by
  simp only [faultSweep, h]
  exact offer_onWire .U _ (setSweep none (raise srcSweepFault (abandonOrder (.drive w.axis) s))) hroom

/-- What a first step reads of the state is what the request found. -/
theorem stepTarget_eq {s : State} {w : Sweep} {en : Envelope} {pos : Nat} (he : s.place.envelopes[w.hold] = some en)
    (hpos : (s.place.axes.get (axisOf w.axis)).pos = some pos)
    (hle : max (en.innerLow w.axis) (s.place.travel.limits (axisOf w.axis)).low
      ≤ min (en.innerHigh w.axis) (s.place.travel.limits (axisOf w.axis)).high) :
    stepValue s w = (if w.plus then (pos : Int) + w.step else (pos : Int) - w.step)
      ∧ stepTarget s w = (max (max (en.innerLow w.axis) (s.place.travel.limits (axisOf w.axis)).low : Int)
          (min (min (en.innerHigh w.axis) (s.place.travel.limits (axisOf w.axis)).high : Int)
            (if w.plus then (pos : Int) + w.step else (pos : Int) - w.step))).toNat := by
  have hbounds : clipBounds s w = some (max (en.innerLow w.axis) (s.place.travel.limits (axisOf w.axis)).low,
      min (en.innerHigh w.axis) (s.place.travel.limits (axisOf w.axis)).high) := by
    simp only [clipBounds, he]
    exact if_pos hle
  have hvalue : stepValue s w = (if w.plus then (pos : Int) + w.step else (pos : Int) - w.step) := by
    rw [stepValue, sweepFrom, hpos]
    rfl
  refine ⟨hvalue, ?_⟩
  simp only [stepTarget, hbounds, hvalue]
  norm_cast

/-- An accepted SWEEP begins its first step. -/
theorem takes_swept {s : State} {e : RxEntry} {rest : List RxEntry} {x dir hi lo count : Byte} {h : Hold}
    {u : State} {xs changed : List Block} {post : State → Prop} (hh : Heads s .U .sweep e rest)
    (hf : e.frame.payload = [13, x, dir, hi, lo, count]) (hrange : SweepInRange x dir (beNat [hi, lo]) count)
    (hj : judgeSweep s = .ok h)
    (hu : beginStep (newSweep x dir (beNat [hi, lo]) count h) (answered e rest .sweep s) = u)
    (hc : OnlyChanges xs (answered e rest .sweep s) u) (hk : Keeps (answered e rest .sweep s) u)
    (hx : ∀ b ∈ xs, b ∈ closing ++ changed)
    (hp : Offered .U (answerFrame s e.frame [13, 0, 0]) s (endEvent u) → post (endEvent u)) :
    Takes s .U .sweep e rest changed post := by
  have hcode : payloadCode e.frame = 13 := hh.code rfl
  refine takes_requestDone hh .sweep ?_ hc hk (by rw [hcode]) hx hp
  simp only [treatSweep, hf, (sweepInRange_iff ..).2 hrange, if_true, judgeSweep_taken, hj, answerJudged]
  exact hu

/-- A refused SWEEP. -/
theorem takes_sweepRefused {s : State} {e : RxEntry} {rest : List RxEntry} {x dir hi lo count : Byte} {r : Reason}
    (hh : Heads s .U .sweep e rest) (hf : e.frame.payload = [13, x, dir, hi, lo, count])
    (hr : (r = .badValue ∧ ¬ SweepInRange x dir (beNat [hi, lo]) count)
      ∨ (SweepInRange x dir (beNat [hi, lo]) count ∧ judgeSweep s = .error r)) :
    Takes s .U .sweep e rest [] fun t => Offered .U (answerFrame s e.frame [13, 1, r.code]) s t := by
  have hcode : payloadCode e.frame = 13 := hh.code rfl
  refine takes_answerRefused hh .sweep ?_ (by rw [hcode])
  rcases hr with ⟨rfl, hrange⟩ | ⟨hrange, hj⟩
  · simp only [treatSweep, hf, if_neg (mt (sweepInRange_iff ..).1 hrange)]
  · simp only [treatSweep, hf, (sweepInRange_iff ..).2 hrange, if_true, judgeSweep_taken, hj, answerJudged]

end Sys2Proof.Machine

open Sys2Proof Sys2Proof.Machine

/-- Settles O55. -/
theorem sweepBegun : Obligations.SweepBegun := by
  intro s e rest x dir hi lo count hh hf step inRange
  have hstep : step = beNat [hi, lo] := by simp [step, beNat]
  have hrange : inRange ↔ SweepInRange x dir (beNat [hi, lo]) count := by rw [← hstep]; exact Iff.rfl
  obtain ⟨hhandler, hstations, -, hnow, -, hflight, hplace, hseq, hgate, -, -, -, hd, hinjection, hinjSeq⟩ :=
    answered_fields e rest .sweep s
  set b := answered e rest .sweep s with hb
  have hguards {h : Hold} (hg : GuardsHold h s) : GuardsHold h b := by
    rw [GuardsHold, pourPhase, State.visitPours, hseq, hflight]; exact hg
  have hstation (r : Role) : (drawn b).station r = s.station r := by
    rw [State.station, State.station]
    exact congrArg (fun v => v[r.index]) hstations
  refine ⟨?_, ?_, ?_⟩
  · intro a addr h en pos hx hin hr hsweep hheld hp hg hen hpos hfree hl haddr low high hle v target
    have hnew : newSweep x dir (beNat [hi, lo]) count h = _ := newSweep_axis (h := h) (a := a) hx
    set w := newSweep x dir (beNat [hi, lo]) count h with hw
    have haxis : w.axis = a := by rw [hnew]
    have hhold : w.hold = h := rfl
    obtain ⟨hvalue, htarget⟩ := stepTarget_eq (s := b) (w := w) (en := en) (pos := pos) (by rw [hplace]; exact hen)
      (by rw [hplace, haxis]; exact hpos) (by rw [hplace, haxis]; exact hle)
    have hv : stepValue b w = v := by
      rw [hvalue]
      simp only [v, hstep, hw, newSweep, beq_iff_eq]
    have ht : stepTarget b w = target := by
      rw [htarget, ← hvalue, hv, hplace, haxis]
      simp only [target, low, high]
      push_cast
      rfl
    obtain ⟨s', hinject, hinjects⟩ := injectOrder_injects (.drive a) .move (movePayload (axisOf a).code target) (drawn b) addr
      ((congrArg (Gate.entry · _) hgate).trans hfree) ((congrArg Port.lineFault hd).trans hl)
      ((hstation _).trans ((destRole_drive a).symm ▸ haddr))
    have hc := injectOrder_changes _ _ _ _ _ hinject
    have hbegun : beginStep w b = setSweep (some (stepped w b)) s' :=
      beginStep_injected (hguards (hhold ▸ hg)) (by rw [haxis, ht]; exact hinject)
    refine takes_swept (xs := [.draws, .entries, .injection, .send .D, .sweep]) hh hf (hrange.1 hin)
      (judgeSweep_ok hr ⟨hsweep, hheld⟩ hp hg) hbegun
      (((drawn_changes b).mono.trans hc.mono).trans (setSweep_changes _ _).mono)
      ((Keeps.line (s := b) (t := drawn b)).trans ((injectOrder_keeps _ _ _ _ _ hinject).trans .line)) (by decide)
      fun hoffered => ⟨?_, ?_, hoffered⟩
    · rw [endEvent_place]
      change some (stepped w b) = _
      simp only [stepped, hv, ht, hnow, hplace]
      simp only [hnew, hstep]
    · exact Injects.endEvent (hinjects.congr hhandler hinjSeq hnow (congrArg Gate.replyWindow hgate))
  · intro a h hx hin hr hsweep hheld hp hg hfault
    have hnew : newSweep x dir (beNat [hi, lo]) count h = _ := newSweep_axis (h := h) (a := a) hx
    set w := newSweep x dir (beNat [hi, lo]) count h with hw
    have haxis : w.axis = a := by rw [hnew]
    have hnone : injectOrder (.drive w.axis) .move (movePayload (axisOf w.axis).code (stepTarget b w)) (drawn b) = none := by
      refine injectOrder_none _ _ ?_
      rw [hstation, destRole_drive, haxis]
      exact hfault.imp_left (congrArg Port.lineFault hd).trans
    have hbegun := beginStep_faulted (w := w) (hguards hg) hnone
    set c := setSweep (some (stepped w b)) (drawn b) with hcdef
    have hsome : c.place.sweep = some (stepped w b) := rfl
    obtain ⟨hdone, hentry, hqueue, hsource⟩ := faultSweep_some hsome
    have hstepaxis : (stepped w b).axis = a := haxis
    rw [hstepaxis] at hentry hqueue
    refine takes_swept (xs := [.draws, .sweep, .send .U, .entries, .injection, .sources]) hh hf (hrange.1 hin)
      (judgeSweep_ok hr ⟨hsweep, hheld⟩ hp hg) hbegun
      (((drawn_changes b).mono.trans (setSweep_changes _ _).mono).trans (faultSweep_changes c).mono)
      ((Keeps.line (s := b) (t := c)).trans (faultSweep_keeps c)) (by decide)
      fun hoffered => ⟨?_, ?_, ?_, ?_, hoffered, fun hlen => ?_⟩
    · rw [endEvent_place, hdone]
    · rw [(endEvent_closes _).entry]; exact hentry
    · rw [(endEvent_closes _).2.2.2.2.2.2.2.1]; exact hqueue
    · rw [endEvent_ladder]
      exact hsource.trans (congrArg Source.raised (answered_source e rest .sweep s (by decide)))
    · have hwire := faultSweep_onWire hsome (answered_room e rest .sweep hlen)
      rw [hstepaxis] at hwire
      have hown : c.handler.ownAddr = s.handler.ownAddr := congrArg Handler.ownAddr hhandler
      rw [← hown]
      exact (endEvent_keeps _).2 .U _ hwire
  · intro r standing hr
    refine takes_sweepRefused hh hf ?_
    rw [← hrange]
    rcases hr with ⟨rfl, hin⟩ | ⟨hin, hr⟩
    · exact .inl ⟨rfl, hin⟩
    · refine .inr ⟨hin, ?_⟩
      rcases hr with ⟨rfl, hr⟩ | ⟨rfl, hr, hs⟩ | ⟨rfl, hr, hs, hp⟩ | ⟨rfl, hr, hs, h, hp, hpours, hv⟩
      · exact judgeSweep_notReady hr
      · exact judgeSweep_moves hr hs
      · exact judgeSweep_notPlaced hr hs hp
      · exact judgeSweep_guarded hr hs hp (guardedHold_ne hpours hv)

end

section
/-! ACK_ALARM and DONE_ALARM (R131 to R134), and the release test they report to (R117). -/

set_option Elab.async false

namespace Sys2Proof.Machine

/-! ## The release test (R117) -/

/-- The latch of sensor `k` is set and its average is low enough. -/
def LatchFalls (k : SensorNo) (s : State) : Prop :=
  (s.dust.sensors[k]).latch = true ∧ (s.dust.sensors[k]).belowRelease = true

theorem releaseTest_falls {k : SensorNo} {s : State} (hs : (s.ladder.state (srcDustTrip k)).holds = false)
    (hf : LatchFalls k s) :
    releaseTest k s = setCond (srcDustTrip k) false (setSensor k { s.dust.sensors[k] with latch := false } s) := by
  unfold releaseTest
  simp only [hs]
  exact if_pos (by simpa [LatchFalls] using hf)

theorem releaseTest_stays {k : SensorNo} {s : State}
    (h : (s.ladder.state (srcDustTrip k)).holds = true ∨ ¬ LatchFalls k s) : releaseTest k s = s := by
  refine if_neg ?_
  rcases h with h | h
  · simp [h]
  · intro hc
    simp only [Bool.and_eq_true] at hc
    exact h ⟨hc.1.1, hc.2⟩

theorem retestLatch_source {k : SensorNo} (s : State) (hk : srcDustTrip k ∉ [srcCloseoutNotIssued, srcTrimBound, srcBillMark]) :
    (retestLatch k s).ladder.sources[srcDustTrip k] = (releaseTest k s).ladder.sources[srcDustTrip k] :=
  reformBands_source _ _ hk

theorem retestLatch_sensors (k : SensorNo) (s : State) :
    (retestLatch k s).dust.sensors = (releaseTest k s).dust.sensors := reformBands_sensors _

theorem srcDustTrip_apart (k : SensorNo) : srcDustTrip k ∉ [srcCloseoutNotIssued, srcTrimBound, srcBillMark] := by
  revert k
  decide

theorem retestLatch_source_falls {k : SensorNo} {s : State} (hs : (s.ladder.state (srcDustTrip k)).holds = false)
    (hf : LatchFalls k s) : (retestLatch k s).ladder.sources[srcDustTrip k]
      = (s.ladder.sources[srcDustTrip k]).withCond false := by
  rw [retestLatch_source s (srcDustTrip_apart k), releaseTest_falls hs hf, (setCond_fields _ _ _).2.2.2.2.2.2.2.2.2.2.2.1,
    put_source, if_pos rfl]
  rfl

theorem retestLatch_source_stays {k : SensorNo} {s : State}
    (h : (s.ladder.state (srcDustTrip k)).holds = true ∨ ¬ LatchFalls k s) :
    (retestLatch k s).ladder.sources[srcDustTrip k] = s.ladder.sources[srcDustTrip k] := by
  rw [retestLatch_source s (srcDustTrip_apart k), releaseTest_stays h]

/-- A release test reads the state before it beside port U and the ladder. -/
theorem ReleaseTested.aside {k : SensorNo} {s d t : State} (h : ReleaseTested k d t)
    (hd : d = s.aside d.line.u d.ladder)
    (hc : d.ladder.sources[srcCloseoutNotIssued] = s.ladder.sources[srcCloseoutNotIssued])
    (hm : d.ladder.sources[srcBillMark] = s.ladder.sources[srcBillMark])
    (hk : (d.ladder.sources[srcDustTrip k]).cond = (s.ladder.sources[srcDustTrip k]).cond) : ReleaseTested k s t := by
  obtain ⟨hbands, hfalls, hstays⟩ := h
  have hdust : d.dust = s.dust := by rw [hd]; rfl
  rw [hdust] at hfalls hstays
  rw [hk] at hstays
  refine ⟨BandsFormed.aside (u := d.line.u) (l := d.ladder) s.dust.sensors ?_ hc hm, hfalls, hstays⟩
  rw [hd] at hbands
  exact hbands

theorem ReleaseTested.closes {k : SensorNo} {s t t' : State} (h : ReleaseTested k s t) (c : Closes t t') :
    ReleaseTested k s t' := by
  obtain ⟨hbands, hfalls, hstays⟩ := h
  have hdust : t'.dust = t.dust := c.2.2.2.2.1
  have hsources : t'.ladder.sources = t.ladder.sources := c.2.2.2.2.2.2.2.2.2.1
  refine ⟨hbands.closes c, fun hf => ?_, fun hf => ?_⟩
  · rw [hdust, hsources]; exact hfalls hf
  · rw [hdust, hsources]; exact hstays hf

/-! ## A reported change of a source (R134) -/

theorem reportSource_other {i : SourceNo} (h : i.val < 2 ∨ 9 < i.val) (s : State) : reportSource i s = s := by
  have hnone : dustTripSensor i = none := dif_neg (by omega)
  simp only [reportSource, hnone]

theorem dustTripSensor_srcDustTrip (k : SensorNo) : dustTripSensor (srcDustTrip k) = some k := by
  revert k
  decide

theorem reportSource_dustTrip (k : SensorNo) (s : State) : reportSource (srcDustTrip k) s = retestLatch k s := by
  simp only [reportSource, dustTripSensor_srcDustTrip]

theorem dustTrip_or (i : SourceNo) : (i.val < 2 ∨ 9 < i.val) ∨ ∃ k, i = srcDustTrip k := by
  revert i
  decide

/-- A source that holds nothing back keeps its state through the report. -/
theorem reportSource_source_holds {i : SourceNo} {s : State} (h : (s.ladder.state i).holds = true) :
    (reportSource i s).ladder.sources[i] = s.ladder.sources[i] := by
  rcases dustTrip_or i with hi | ⟨k, rfl⟩
  · rw [reportSource_other hi]
  · rw [reportSource_dustTrip, retestLatch_source_stays (.inl h)]

theorem reportSource_stack (i : SourceNo) (s : State) : (reportSource i s).ladder.stack = s.ladder.stack :=
  (reportSource_changes i s).same .stack

/-! ## The requests are judged (R131, R132) -/

theorem sourceOf_eq {n : Byte} {i : SourceNo} (h : n.toNat = i.val) : sourceOf n.toNat = some i := by
  simp [sourceOf, h]

theorem sourceOf_none {n : Nat} (h : 39 < n) : sourceOf n = none := by
  simp [sourceOf, Nat.not_lt.2 h]

theorem treatAckAlarm_out {f : Frame} {n : Byte} (s : State) (hf : f.payload = [14, n]) (h : 39 < n.toNat) :
    treatAckAlarm f s = answerRefused f .badValue s := by
  simp only [treatAckAlarm, hf, judgeAck, sourceOf_none h, answerJudged]

theorem treatAckAlarm_presented {f : Frame} {n : Byte} {i : SourceNo} {r : Nat} {s : State} (hf : f.payload = [14, n])
    (hn : n.toNat = i.val) (h : s.ladder.presented = some (i, r)) :
    treatAckAlarm f s = ackAlarm i (answerDone f [] s) := by
  simp only [treatAckAlarm, hf, judgeAck, sourceOf_eq hn, h, Option.map_some, if_true, answerJudged]

theorem treatAckAlarm_other {f : Frame} {n : Byte} {i : SourceNo} {s : State} (hf : f.payload = [14, n])
    (hn : n.toNat = i.val) (h : ∀ r, s.ladder.presented ≠ some (i, r)) :
    treatAckAlarm f s = answerRefused f .notPresented s := by
  have hne : s.ladder.presented.map (·.1) ≠ some i := by
    rw [ne_eq, Option.map_eq_some_iff]
    rintro ⟨⟨j, r⟩, hp, rfl⟩
    exact h r hp
  simp only [treatAckAlarm, hf, judgeAck, sourceOf_eq hn, if_neg hne, answerJudged]

theorem treatDoneAlarm_out {f : Frame} {n : Byte} (s : State) (hf : f.payload = [15, n]) (h : 39 < n.toNat) :
    treatDoneAlarm f s = answerRefused f .badValue s := by
  simp only [treatDoneAlarm, hf, judgeDone, sourceOf_none h, answerJudged]

theorem treatDoneAlarm_top {f : Frame} {n : Byte} {i : SourceNo} {s : State} (hf : f.payload = [15, n])
    (hn : n.toNat = i.val) (h : s.ladder.stack.head? = some i) :
    treatDoneAlarm f s = doneAlarm i (answerDone f [] s) := by
  simp only [treatDoneAlarm, hf, judgeDone, sourceOf_eq hn, h, if_true, answerJudged]

theorem treatDoneAlarm_other {f : Frame} {n : Byte} {i : SourceNo} {s : State} (hf : f.payload = [15, n])
    (hn : n.toNat = i.val) (h : s.ladder.stack.head? ≠ some i) : treatDoneAlarm f s = answerRefused f .notTop s := by
  simp only [treatDoneAlarm, hf, judgeDone, sourceOf_eq hn, if_neg h, answerJudged]

/-! ## A source enters and leaves service -/

/-- The source in service, at the top of the stack. -/
def ackState (i : SourceNo) (s : State) : State :=
  { s with ladder := { s.ladder.put i { s.ladder.sources[i] with state := .inService } with stack := i :: s.ladder.stack } }

theorem ackAlarm_eq (i : SourceNo) (s : State) : ackAlarm i s = reportSource i (ackState i s) := rfl

/-- The source completed, off the stack. -/
def doneState (i : SourceNo) (s : State) : State :=
  { s with ladder := { s.ladder.put i (s.ladder.sources[i]).completed with stack := s.ladder.stack.tail } }

theorem doneAlarm_eq (i : SourceNo) (s : State) : doneAlarm i s = reportSource i (doneState i s) := rfl

theorem ackState_source (i : SourceNo) (s : State) :
    (ackState i s).ladder.sources[i] = { s.ladder.sources[i] with state := .inService } := by
  change (s.ladder.put i _).sources[i] = _
  rw [put_source, if_pos rfl]

theorem doneState_source (i j : SourceNo) (s : State) : (doneState i s).ladder.sources[j]
    = if i = j then (s.ladder.sources[i]).completed else s.ladder.sources[j] := by
  change (s.ladder.put i _).sources[j] = _
  rw [put_source]

theorem completed_holds (x : Source) : x.completed.state.holds = false := by
  unfold Source.completed
  cases x.cond <;> rfl

theorem completed_released (x : Source) :
    (x.completed.withCond false).state = .idle ∧ (x.completed.withCond false).cond = false := by
  refine ⟨?_, (withCond_kept _ _).2.2.2⟩
  unfold Source.completed Source.withCond
  cases x.cond <;> rfl

theorem doneState_holds (i : SourceNo) (s : State) : ((doneState i s).ladder.state i).holds = false := by
  rw [Ladder.state, doneState_source, if_pos rfl]
  exact completed_holds _

/-- A frame offered to port U changes that port alone. -/
theorem offer_U_aside (f : Frame) (s : State) : offer .U f s = s.aside (offer .U f s).line.u s.ladder := by
  unfold offer Line.offer
  split
  · simp only [Line.begin]
    split <;> rfl
  · rfl

theorem doneState_aside (e : RxEntry) (rest : List RxEntry) (i : SourceNo) (s : State) :
    doneState i (answered e rest .doneAlarm s) = (takeHead .U e rest .doneAlarm s).aside
      (doneState i (answered e rest .doneAlarm s)).line.u (doneState i (answered e rest .doneAlarm s)).ladder := by
  have hoffer := offer_U_aside (answerFrame (takeHead .U e rest .doneAlarm s) e.frame [payloadCode e.frame, 0, 0])
    (takeHead .U e rest .doneAlarm s)
  exact congrArg (doneState i) hoffer

theorem takeHead_U_presented (e : RxEntry) (rest : List RxEntry) (row : Instr) (s : State) :
    (takeHead .U e rest row s).ladder.presented = s.ladder.presented
      ∧ (takeHead .U e rest row s).ladder.stack = s.ladder.stack := by simp

/-- The request answered, and the source at the top completed. -/
theorem takes_alarmDone {s : State} {e : RxEntry} {rest : List RxEntry} {post : State → Prop} {i : SourceNo} {n : Byte}
    {is : List SourceNo} (h : Heads s .U .doneAlarm e rest) (hf : e.frame.payload = [15, n]) (hn : n.toNat = i.val)
    (htop : s.ladder.stack = i :: is)
    (hp : Offered .U (answerFrame s e.frame [15, 0, 0]) s (endEvent (doneAlarm i (answered e rest .doneAlarm s))) →
      post (endEvent (doneAlarm i (answered e rest .doneAlarm s)))) :
    Takes s .U .doneAlarm e rest alarmBlocks post := by
  have hcode : payloadCode e.frame = 15 := h.code rfl
  have htreat : treatDoneAlarm e.frame (takeHead .U e rest .doneAlarm s) = doneAlarm i (answered e rest .doneAlarm s) :=
    treatDoneAlarm_top hf hn (by rw [(takeHead_U_presented ..).2, htop]; rfl)
  refine takes_of treatDoneAlarm h rfl (treatDoneAlarm_changes _ _) (by decide) ?_
  rw [htreat]
  refine hp (offered_done (rest := rest) (row := .doneAlarm) (bs := []) (by rw [hcode]) ?_)
  exact (Keeps.line (t := doneState i (answered e rest .doneAlarm s))).trans (reportSource_keeps i _)

end Sys2Proof.Machine

open Sys2Proof Sys2Proof.Machine

/-- Settles O57. -/
theorem alarmsServed : Obligations.AlarmsServed := by
  refine ⟨fun s e rest n hn => ⟨fun h hf => ?_, fun h hf => ?_⟩, fun s e rest n i hn => ?_⟩
  · exact takes_answerRefused h .ackAlarm (treatAckAlarm_out _ hf hn) (by rw [show payloadCode e.frame = 14 from h.code rfl]; rfl)
  · exact takes_answerRefused h .doneAlarm (treatDoneAlarm_out _ hf hn) (by rw [show payloadCode e.frame = 15 from h.code rfl]; rfl)
  intro s1
  refine ⟨fun h hf => ⟨fun r hr => ?_, fun hr => ?_⟩, fun h hf => ⟨fun is htop => ?_, fun htop => ?_⟩⟩
  · have hcode : payloadCode e.frame = 14 := h.code rfl
    obtain ⟨hpresented, hstack⟩ := takeHead_U_presented e rest .ackAlarm s
    have htreat : treatAckAlarm e.frame (takeHead .U e rest .ackAlarm s)
        = reportSource i (ackState i (answered e rest .ackAlarm s)) :=
      treatAckAlarm_presented hf hn (hpresented.trans hr)
    refine takes_of treatAckAlarm h rfl (treatAckAlarm_changes _ _) (by decide) ?_
    set d := ackState i (answered e rest .ackAlarm s) with hd
    have hsource : d.ladder.sources[i] = _ := ackState_source i _
    rw [htreat, endEvent_ladder]
    refine ⟨(reportSource_stack i d).trans ?_, ?_, offered_done (rest := rest) (row := .ackAlarm) (bs := []) (by rw [hcode]) ?_⟩
    · exact congrArg (i :: ·) hstack
    · have hkept : (reportSource i d).ladder.sources[i] = d.ladder.sources[i] :=
        reportSource_source_holds (by rw [Ladder.state, hsource]; rfl)
      rw [hkept, hsource]
    · exact (Keeps.line (t := d)).trans (reportSource_keeps i d)
  · refine takes_answerRefused h .ackAlarm (treatAckAlarm_other hf hn ?_) (by rw [show payloadCode e.frame = 14 from h.code rfl]; rfl)
    rw [(takeHead_U_presented ..).1]
    exact hr
  · refine takes_alarmDone h hf hn htop fun hoffered => ?_
    set b := answered e rest .doneAlarm s with hb
    have hcond : (s1 .doneAlarm).ladder = b.ladder := rfl
    have hdust : b.dust = s.dust := (answered_fields e rest .doneAlarm s).2.2.2.2.2.2.2.2.2.1
    have hsource : (doneState i b).ladder.sources[i] = (b.ladder.sources[i]).completed :=
      (doneState_source i i b).trans (if_pos rfl)
    have hclosed := endEvent_closes (doneAlarm i b)
    rw [hcond, doneAlarm_eq] at *
    refine ⟨?_, fun hi => ?_, ?_, ?_, ?_, hoffered⟩
    · rw [endEvent_ladder]
      refine (reportSource_stack i _).trans ?_
      change b.ladder.stack.tail = is
      rw [show b.ladder.stack = s.ladder.stack from (takeHead_U_presented ..).2, htop]
      rfl
    · rw [endEvent_ladder, reportSource_other hi, hsource]
      rfl
    · rintro k rfl
      have hne : ∀ k, srcDustTrip k ≠ srcCloseoutNotIssued ∧ srcDustTrip k ≠ srcBillMark := by decide
      rw [reportSource_dustTrip]
      refine ((retestLatch_tested k _ (doneState_holds _ b)).aside (doneState_aside e rest (srcDustTrip k) s) ?_ ?_ ?_).closes
        (endEvent_closes _)
      · rw [doneState_source, if_neg (hne k).1]; rfl
      · rw [doneState_source, if_neg (hne k).2]; rfl
      · rw [hsource]; rfl
    · rintro k rfl hlatch hbelow
      have hfalls : LatchFalls k (doneState (srcDustTrip k) b) := by
        change LatchFalls k b
        rw [LatchFalls, hdust]
        exact ⟨hlatch, hbelow⟩
      rw [hclosed.2.2.2.2.1, endEvent_ladder, reportSource_dustTrip, retestLatch_sensors,
        retestLatch_source_falls (doneState_holds _ b) hfalls, releaseTest_falls (doneState_holds _ b) hfalls, hsource]
      refine ⟨?_, completed_released _⟩
      change ((setSensor k _ (doneState (srcDustTrip k) b)).dust.sensors[k]).latch = false
      rw [setSensor_get, if_pos rfl]
    · rintro k rfl hfalls
      have hstays : ¬ LatchFalls k (doneState (srcDustTrip k) b) := by
        change ¬ LatchFalls k b
        rw [LatchFalls, hdust]
        exact hfalls
      rw [hclosed.2.2.2.2.1, endEvent_ladder, reportSource_dustTrip, retestLatch_sensors,
        retestLatch_source_stays (.inr hstays), releaseTest_stays (.inr hstays), hsource]
      exact ⟨congrArg (fun x : Dust => (x.sensors[k]).latch) hdust, rfl, rfl⟩
  · refine takes_answerRefused h .doneAlarm (treatDoneAlarm_other hf hn ?_) (by rw [show payloadCode e.frame = 15 from h.code rfl]; rfl)
    rw [(takeHead_U_presented ..).2]
    exact htop

end

section
/-! SET_ALARM (R135, R136, R191), and the changes of a source (R127, R128). -/

set_option Elab.async false

namespace Sys2Proof.Machine

/-! ## An amended source (R136) -/

theorem reportSource_idle {i : SourceNo} {s : State} (h : (s.ladder.sources[i]).state = .idle) :
    ((reportSource i s).ladder.sources[i]).state = .idle := by
  rcases dustTrip_or i with hi | ⟨k, rfl⟩
  · rw [reportSource_other hi, h]
  · rw [reportSource_dustTrip]
    by_cases hf : (s.ladder.state (srcDustTrip k)).holds = true ∨ ¬ LatchFalls k s
    · rw [retestLatch_source_stays hf, h]
    · simp only [not_or, Bool.not_eq_true, not_not] at hf
      rw [retestLatch_source_falls hf.1 hf.2]
      exact withCond_idle _ _ h

theorem reportSource_alarmTable (i j : SourceNo) (s : State) :
    ((reportSource i s).ladder.sources[j]).rank = (s.ladder.sources[j]).rank
      ∧ ((reportSource i s).ladder.sources[j]).record = (s.ladder.sources[j]).record
      ∧ ((reportSource i s).ladder.sources[j]).present = (s.ladder.sources[j]).present :=
  (reportSource_changes i s) .alarmTable (by decide) j

/-- The source amended, its change not yet reported. -/
def amendState (i : SourceNo) (x : AlarmFields) (s : State) : State :=
  { s with ladder := s.ladder.put i ((s.ladder.sources[i]).amended x) }

theorem amendState_source (i j : SourceNo) (x : AlarmFields) (s : State) : (amendState i x s).ladder.sources[j]
    = if i = j then (s.ladder.sources[i]).amended x else s.ladder.sources[j] := put_source _ _ _ _

theorem applyAlarm_eq (i : SourceNo) (x : AlarmFields) (s : State) : applyAlarm i.val x s
    = if ((s.ladder.sources[i]).amended x).state = (s.ladder.sources[i]).state then amendState i x s
      else reportSource i (amendState i x s) := dif_pos i.isLt

/-- An amended source's settable fields, and those of the others. -/
theorem applyAlarm_alarmTable (i j : SourceNo) (x : AlarmFields) (s : State) :
    ((applyAlarm i.val x s).ladder.sources[j]).rank = ((amendState i x s).ladder.sources[j]).rank
      ∧ ((applyAlarm i.val x s).ladder.sources[j]).record = ((amendState i x s).ladder.sources[j]).record
      ∧ ((applyAlarm i.val x s).ladder.sources[j]).present = ((amendState i x s).ladder.sources[j]).present := by
  rw [applyAlarm_eq]
  split
  · exact ⟨rfl, rfl, rfl⟩
  · exact reportSource_alarmTable i j _

theorem amended_idle_iff {y : Source} {x : AlarmFields} (hx : x.record = false) :
    (y.amended x).state = y.state ↔ y.state ≠ .pending ∧ y.state ≠ .standing := by
  unfold Source.amended
  rw [hx]
  cases y.state <;> simp

theorem applyAlarm_idle {i : SourceNo} {x : AlarmFields} {s : State} (hx : x.record = false)
    (hs : (s.ladder.sources[i]).state ≠ .inService) : ((applyAlarm i.val x s).ladder.sources[i]).state = .idle := by
  have hidle : ((amendState i x s).ladder.sources[i]).state = .idle := by
    rw [amendState_source, if_pos rfl]
    exact amended_idle _ _ hx hs
  rw [applyAlarm_eq]
  split
  · exact hidle
  · exact reportSource_idle hidle

theorem applyAlarm_reports {i : SourceNo} {x : AlarmFields} {s : State} (hx : x.record = false)
    (hs : (s.ladder.sources[i]).state = .pending ∨ (s.ladder.sources[i]).state = .standing) :
    applyAlarm i.val x s = reportSource i (amendState i x s) := by
  rw [applyAlarm_eq, if_neg]
  rw [amended_idle_iff hx, not_and_or, not_not, not_not]
  exact hs

/-! ## SET_ALARM is an AMEND of the source table (R135) -/

/-- An optional byte of a request. -/
def markedField (b : Bool) (v : Byte) : Option Nat := if b then some v.toNat else none

theorem setAlarmLoad_fields (n mask rank rec pres : Byte) :
    (setAlarmLoad n mask rank rec pres).fields
      = [markedField (mask.getLsbD 0) rank, markedField (mask.getLsbD 1) rec, markedField (mask.getLsbD 2) pres] := by
  simp only [← marked_eq, setAlarmLoad, unpack, markedField]
  have h0 : marked mask 0 = decide (mask.toNat % 2 = 1) := by simp [marked, beq_eq_decide]
  have h1 : marked mask 1 = decide (mask.toNat / 2 % 2 = 1) := by simp [marked, beq_eq_decide]
  have h2 : marked mask 2 = decide (mask.toNat / 2 / 2 % 2 = 1) := by simp [marked, beq_eq_decide, Nat.div_div_eq_div_mul]
  rw [h0, h1, h2]
  by_cases b0 : mask.toNat % 2 = 1 <;> by_cases b1 : mask.toNat / 2 % 2 = 1 <;> by_cases b2 : mask.toNat / 2 / 2 % 2 = 1 <;>
    simp [b0, b1, b2, beNat]

/-- The marked fields lie in their ranges. -/
def AlarmInRange (mask rank rec pres : Byte) : Prop :=
  (mask.getLsbD 0 = true → rank.toNat ≤ 15) ∧ (mask.getLsbD 1 = true → rec.toNat ≤ 1)
    ∧ (mask.getLsbD 2 = true → pres.toNat ≤ 1)

theorem markedField_all {b : Bool} {v : Byte} {r : Nat → Bool} :
    (markedField b v).all r = true ↔ (b = true → r v.toNat = true) := by
  cases b <;> simp [markedField]

theorem setAlarm_inRanges (n mask rank rec pres : Byte) :
    inRanges (fieldRanges .alarm n.toNat) (setAlarmLoad n mask rank rec pres).fields = true
      ↔ AlarmInRange mask rank rec pres := by
  rw [setAlarmLoad_fields]
  simp [inRanges, fieldRanges, markedField_all, between, AlarmInRange]

/-- The source's fields with the marked ones at their new values. -/
def amendedFields (mask rank rec pres : Byte) (x : Source) : AlarmFields :=
  { rank := if mask.getLsbD 0 then rank.toNat else x.rank
    record := if mask.getLsbD 1 then rec == 1 else x.record
    present := if mask.getLsbD 2 then pres == 1 else x.present }

theorem toNat_beq_one (v : Byte) : (v.toNat == 1) = (v == 1) := by
  rw [Bool.eq_iff_iff, beq_iff_eq, beq_iff_eq, ← BitVec.toNat_inj]
  rfl

theorem entryFields_alarm {s : State} {n : Byte} {i : SourceNo} (h : n.toNat = i.val) :
    entryFields s .alarm n.toNat = some (s.ladder.sources[i]).fields := by
  simp [entryFields, entryAt, h]

theorem bool_field (b : Bool) : ((if b then 1 else 0 : Nat) == 1) = b := by cases b <;> rfl

theorem setAlarm_merged {s : State} {n : Byte} {i : SourceNo} (mask rank rec pres : Byte) (h : n.toNat = i.val) :
    buildAlarm ((setAlarmLoad n mask rank rec pres).merged s)
      = some (amendedFields mask rank rec pres s.ladder.sources[i]) := by
  rw [Load.merged, setAlarmLoad_fields]
  simp only [setAlarmLoad, entryFields_alarm h, Source.fields, boolField, Option.getD_some, Bool.false_eq_true, if_false,
    List.zipWith_cons_cons, List.zipWith_nil_left, amendedFields, markedField]
  cases mask.getLsbD 0 <;> cases mask.getLsbD 1 <;> cases mask.getLsbD 2 <;>
    simp [buildAlarm, bool_field, toNat_beq_one]

theorem mask_eq_zero_iff {mask : Byte} (h : mask.toNat < 8) :
    mask = 0 ↔ mask.getLsbD 0 = false ∧ mask.getLsbD 1 = false ∧ mask.getLsbD 2 = false := by
  simp only [← marked_eq, marked]
  rw [← BitVec.toNat_inj]
  simp only [beq_eq_false_iff_ne]
  change mask.toNat = 0 ↔ _
  omega

theorem setAlarm_nothing {s : State} {n mask rank rec pres : Byte} {i : SourceNo} (h : n.toNat = i.val)
    (hm : mask.toNat < 8) : (setAlarmLoad n mask rank rec pres).amendsNothing s = decide (mask = 0) := by
  rw [Load.amendsNothing, setAlarmLoad_fields, Bool.eq_iff_iff, decide_eq_true_iff, mask_eq_zero_iff hm]
  change (!false && _ && (entryFields s .alarm n.toNat).isSome) = true ↔ _
  rw [entryFields_alarm h]
  cases mask.getLsbD 0 <;> cases mask.getLsbD 1 <;> cases mask.getLsbD 2 <;> simp [markedField]

/-- A field of the source would change. -/
def AlarmChanges (x : Source) (y : AlarmFields) : Prop :=
  y.rank ≠ x.rank ∨ y.record ≠ x.record ∨ y.present ≠ x.present

theorem alarmBusy_iff {s : State} {n : Byte} {i : SourceNo} (h : n.toNat = i.val) (y : AlarmFields) :
    alarmBusy s n.toNat y = true ↔ (s.ladder.sources[i]).state = .inService ∧ AlarmChanges s.ladder.sources[i] y := by
  have hentry : entryAt s.ladder.sources n.toNat = some s.ladder.sources[i] := by simp [entryAt, h]
  simp only [alarmBusy, hentry, AlarmChanges, Bool.and_eq_true, Bool.or_eq_true, beq_iff_eq, bne_iff_ne, or_assoc,
    ne_comm (a := y.rank), ne_comm (a := y.record), ne_comm (a := y.present)]

theorem applyAlarm_keeps_line (i : SourceNo) (x : AlarmFields) (s : State) : Keeps s (applyAlarm i.val x s) := by
  rw [applyAlarm_eq]
  split
  · exact .line
  · exact (Keeps.line (t := amendState i x s)).trans (reportSource_keeps i _)

theorem amendState_aside (e : RxEntry) (rest : List RxEntry) (i : SourceNo) (x : AlarmFields) (s : State) :
    amendState i x (answered e rest .setAlarm s) = (takeHead .U e rest .setAlarm s).aside
      (amendState i x (answered e rest .setAlarm s)).line.u (amendState i x (answered e rest .setAlarm s)).ladder := by
  have hoffer := offer_U_aside (answerFrame (takeHead .U e rest .setAlarm s) e.frame [payloadCode e.frame, 0, 0])
    (takeHead .U e rest .setAlarm s)
  exact congrArg (amendState i x) hoffer

theorem treatSetAlarm_run {f : Frame} {n mask rank rec pres : Byte} (s : State)
    (hf : f.payload = [16, n, mask, rank, rec, pres]) (hn : n.toNat < 40) (hm : mask.toNat < 8) :
    treatSetAlarm f s = runLoad f (setAlarmLoad n mask rank rec pres) s := by
  simp only [treatSetAlarm, hf, hn, hm, and_self, if_true]

theorem treatSetAlarm_out {f : Frame} {n mask rank rec pres : Byte} (s : State)
    (hf : f.payload = [16, n, mask, rank, rec, pres]) (h : 39 < n.toNat ∨ 7 < mask.toNat) :
    treatSetAlarm f s = answerRefused f .badValue s := by
  simp only [treatSetAlarm, hf]
  exact if_neg (by omega)

/-- A request that marks no field (R191). -/
theorem runSetAlarm_nothing {f : Frame} {s : State} {n mask rank rec pres : Byte} {i : SourceNo} (h : n.toNat = i.val)
    (hm : mask.toNat < 8) (hzero : mask = 0) :
    runLoad f (setAlarmLoad n mask rank rec pres) s = answerDone f [] s := by
  rw [runLoad, setAlarm_nothing h hm, if_pos (by simpa using hzero), applyNothing]
  exact dif_neg fun hdust => absurd hdust.1 (by simp [setAlarmLoad])

/-- A request that marks a field is judged (R135). -/
theorem runSetAlarm_judged {f : Frame} {s : State} {n mask rank rec pres : Byte} {i : SourceNo} (h : n.toNat = i.val)
    (hm : mask.toNat < 8) (hne : mask ≠ 0) : runLoad f (setAlarmLoad n mask rank rec pres) s
      = answerJudged f (judgeLoad s (setAlarmLoad n mask rank rec pres) buildAlarm noRelation (alarmBusy s n.toNat))
          (applyAlarm n.toNat) s := by
  rw [runLoad, setAlarm_nothing h hm, if_neg (by simpa using hne)]
  rfl

theorem judgeSetAlarm {s : State} {n mask rank rec pres : Byte} {i : SourceNo} (h : n.toNat = i.val)
    (hin : AlarmInRange mask rank rec pres) :
    judgeLoad s (setAlarmLoad n mask rank rec pres) buildAlarm noRelation (alarmBusy s n.toNat)
      = if alarmBusy s n.toNat (amendedFields mask rank rec pres s.ladder.sources[i]) then .error .busy
        else .ok (amendedFields mask rank rec pres s.ladder.sources[i]) :=
  judgeLoad_in s _ _ _ _ _ ((setAlarm_inRanges n mask rank rec pres).2 hin) (setAlarm_merged mask rank rec pres h)

end Sys2Proof.Machine

open Sys2Proof Sys2Proof.Machine

/-- Settles O58. -/
theorem alarmTableSet : Obligations.AlarmTableSet := by
  refine ⟨?_, fun s e rest n mask rank rec pres h hf hout => ?_, fun x => ⟨fun hx => ?_, fun hx hs => ?_, fun hx hs => ?_,
    fun hx hs => ?_, ?_, fun hs => ?_, fun hs => ?_⟩⟩
  · intro s e rest n mask rank rec pres i hn h hf hm x rank' rec' pres' inRange changes
    have hcode : payloadCode e.frame = 16 := h.code rfl
    have hrun := treatSetAlarm_run (takeHead .U e rest .setAlarm s) hf (hn ▸ i.isLt) hm
    set y := amendedFields mask rank rec pres x with hy
    have hchanges : changes ↔ AlarmChanges x y := Iff.rfl
    have hbusy : alarmBusy (takeHead .U e rest .setAlarm s) n.toNat y = true ↔ x.state = .inService ∧ changes :=
      alarmBusy_iff hn y
    refine ⟨fun hin hok => ?_, fun hin => ?_, fun hin hserved hc => ?_⟩
    · by_cases hzero : mask = 0
      · refine takes_requestDone (u := answered e rest .setAlarm s) (xs := []) h .setAlarm
          (hrun.trans (runSetAlarm_nothing hn hm hzero)) (OnlyChanges.refl _ _) (Keeps.refl _) (by rw [hcode]) (by simp)
          fun hoffered => ?_
        rw [endEvent_ladder]
        subst hzero
        refine ⟨rfl, rfl, rfl, fun hrec _ hsound => ?_, fun _ => rfl, fun _ _ _ _ hne => absurd rfl hne,
          fun j _ => takeHead_U_alarmTable e rest .setAlarm s j, hoffered⟩
        obtain ⟨-, -, -, hidle⟩ : StackSound (takeHead .U e rest .setAlarm s).ladder :=
          takeHead_shared stackSound_shared ((ladderSound_iff _).1 (hsound.resolve_left (fun hne => hne rfl))).1 h
        exact hidle i hrec
      · have htreat : treatSetAlarm e.frame (takeHead .U e rest .setAlarm s)
            = applyAlarm i.val y (answered e rest .setAlarm s) := by
          rw [hrun, runSetAlarm_judged hn hm hzero, judgeSetAlarm hn hin,
            if_neg (mt hbusy.1 fun hb => hok hb.1 hb.2)]
          exact congrArg (fun k => applyAlarm k y (answered e rest .setAlarm s)) hn
        set b := answered e rest .setAlarm s with hb
        obtain ⟨hrank, hrecord, hpresent⟩ := applyAlarm_alarmTable i i y b
        rw [amendState_source, if_pos rfl] at hrank hrecord hpresent
        refine takes_requestDone (u := applyAlarm i.val y b) (xs := .alarmTable :: dustBlocks) h .setAlarm htreat
          (applyAlarm_changes _ _ _) (applyAlarm_keeps_line i y b) (by rw [hcode]) (by decide) fun hoffered => ?_
        rw [endEvent_ladder]
        refine ⟨hrank, hrecord, hpresent, fun hrec hs _ => applyAlarm_idle hrec hs, fun k => absurd k hzero, ?_,
          fun j hj => ?_, hoffered⟩
        · rintro k rfl hrec hs -
          have hne : ∀ k, srcDustTrip k ≠ srcCloseoutNotIssued ∧ srcDustTrip k ≠ srcBillMark := by decide
          have hoff : y.record = false := hrec
          have hwas : (b.ladder.sources[srcDustTrip k]).state = .pending
            ∨ (b.ladder.sources[srcDustTrip k]).state = .standing := hs
          have hout : (b.ladder.sources[srcDustTrip k]).state ≠ .inService := by
            rcases hwas with hw | hw <;> rw [hw] <;> decide
          rw [applyAlarm_reports hoff hwas, reportSource_dustTrip]
          have hamended := amendState_source (srcDustTrip k) (srcDustTrip k) y b
          rw [if_pos rfl] at hamended
          have hidle : ((amendState (srcDustTrip k) y b).ladder.state (srcDustTrip k)).holds = false := by
            rw [Ladder.state, hamended, amended_idle _ _ hoff hout]
            rfl
          refine ((retestLatch_tested k _ hidle).aside (amendState_aside e rest (srcDustTrip k) y s) ?_ ?_ ?_).closes
            (endEvent_closes _)
          · rw [amendState_source, if_neg (hne k).1]; rfl
          · rw [amendState_source, if_neg (hne k).2]; rfl
          · rw [hamended]; rfl
        · obtain ⟨hjrank, hjrecord, hjpresent⟩ := applyAlarm_alarmTable i j y b
          rw [amendState_source, if_neg (Ne.symm hj)] at hjrank hjrecord hjpresent
          obtain ⟨htrank, htrecord, htpresent⟩ := takeHead_U_alarmTable e rest .setAlarm s j
          exact ⟨hjrank.trans htrank, hjrecord.trans htrecord, hjpresent.trans htpresent⟩
    · have hzero : mask ≠ 0 := by
        rintro rfl
        exact hin ⟨by simp, by simp, by simp⟩
      refine takes_answerRefused h .setAlarm (r := .badValue) ?_ (by rw [hcode]; rfl)
      rw [hrun, runSetAlarm_judged hn hm hzero, judgeLoad_out _ _ _ _ _ (mt (setAlarm_inRanges n mask rank rec pres).1 hin)]
      rfl
    · have hzero : mask ≠ 0 := by
        rintro rfl
        exact hc.elim (fun k => k rfl) (Or.elim · (fun k => k rfl) (fun k => k rfl))
      refine takes_answerRefused h .setAlarm (r := .busy) ?_ (by rw [hcode]; rfl)
      rw [hrun, runSetAlarm_judged hn hm hzero, judgeSetAlarm hn hin, if_pos (hbusy.2 ⟨hserved, hc⟩)]
      rfl
  · exact takes_answerRefused h .setAlarm (r := .badValue) (treatSetAlarm_out _ hf hout)
      (by rw [show payloadCode e.frame = 16 from h.code rfl]; rfl)
  · exact raised_idle x hx
  · simp [Source.raised, hx, hs]
  · simp [Source.raised, hx, hs]
  · rcases hs with hs | hs <;> simp [Source.raised, hx, hs]
  · rfl
  · simp [Source.withCond, hs]
  · simp [Source.withCond, hs]

end

section
/-! The feeder's reported states (R51, R54, R82, R90, R91), and FEEDER samples. -/

set_option Elab.async false

namespace Sys2Proof.Machine

/-! ## The feeder state takes a value (R51, R54, R90) -/

theorem testHeldMove_kept (s : State) : (testHeldMove s).gate = s.gate ∧ (testHeldMove s).seq = s.seq
    ∧ (testHeldMove s).meter = s.meter := by
  unfold testHeldMove
  split
  · exact ⟨rfl, rfl, rfl⟩
  next h hh =>
    split
    · have hc := forward_changes .U h.frame { s with place := { s.place with held := none } }
      refine ⟨?_, hc.seq_eq, hc.meter_eq⟩
      unfold forward
      split
      · rfl
      · split <;> simp
    · exact ⟨rfl, rfl, rfl⟩

/-- A held move is released once pour phase has ended and the feeder does not run (R54). -/
theorem testHeldMove_releases {s : State} {m : HeldMove} (hm : s.place.held = some m) (hp : pourPhase s = false)
    (hf : s.gate.feeder ≠ .running) :
    testHeldMove s = forward .U m.frame { s with place := { s.place with held := none } } := by
  simp only [testHeldMove, hm, hp]
  exact if_pos (by simpa using hf)

theorem testHeldMove_waits {s : State} (h : pourPhase s = true ∨ s.gate.feeder = .running) : testHeldMove s = s := by
  unfold testHeldMove
  split
  · rfl
  · refine if_neg ?_
    rcases h with h | h <;> simp [h]

/-- The released move is on its way. -/
theorem testHeldMove_released {s : State} {m : HeldMove} (hm : s.place.held = some m) (hp : pourPhase s = false)
    (hf : s.gate.feeder ≠ .running) : (testHeldMove s).place.held = none
      ∧ ((s.line.port .D).room = true → OnWire .D m.frame (testHeldMove s)) := by
  rw [testHeldMove_releases hm hp hf]
  refine ⟨(forward_changes .U m.frame { s with place := { s.place with held := none } }).same .held, fun hroom => ?_⟩
  rw [forward_room (p := .U) (s := { s with place := { s.place with held := none } }) hroom]
  exact offer_onWire .D _ { s with place := { s.place with held := none } } hroom

/-- The feeder state set, the held move not yet tested. -/
def feederState (st : FeederState) (s : State) : State := { s with gate := { s.gate with feeder := st } }

theorem setFeeder_same {st : FeederState} {s : State} (h : st = s.gate.feeder) : setFeeder st s = s := if_pos h

theorem setFeeder_changed {st : FeederState} {s : State} (h : st ≠ s.gate.feeder) :
    setFeeder st s = testHeldMove (feederState st s) := if_neg h

/-- What a new feeder state leaves. -/
theorem setFeeder_kept (st : FeederState) (s : State) : (setFeeder st s).gate = { s.gate with feeder := st }
    ∧ (setFeeder st s).seq = s.seq ∧ (setFeeder st s).meter = s.meter := by
  by_cases h : st = s.gate.feeder
  · rw [setFeeder_same h, h]
    exact ⟨rfl, rfl, rfl⟩
  · rw [setFeeder_changed h]
    exact testHeldMove_kept (feederState st s)

theorem setFeeder_running {s : State} (h : .running ≠ s.gate.feeder) : setFeeder .running s = feederState .running s := by
  rw [setFeeder_changed h]
  exact testHeldMove_waits (.inr rfl)

/-! ## A state that stops the pour (R82, R91) -/

/-- What a state that stops a POURING visit records as the reason. -/
def stopReason : FeederState → Option PauseReason
  | .stopped => some .feederStopped
  | .fault => some .feederFault
  | _ => none

theorem feederArrival_stops {st : FeederState} {r : PauseReason} (h : stopReason st = some r) (failedRun : Bool) (s : State) :
    feederArrival st failedRun s
      = if decide (st ≠ s.gate.feeder) || failedRun then pauseVisit r (setFeeder st s) else setFeeder st s := by
  cases st <;> cases h <;> rfl

theorem feederArrival_unknown (failedRun : Bool) (s : State) :
    feederArrival .unknown failedRun s = setFeeder .unknown s := rfl

theorem feederArrival_runs {s : State} (failedRun : Bool) (h : .running ≠ s.gate.feeder) :
    feederArrival .running failedRun s = reportRunning (feederState .running s) := by
  simp only [feederArrival, setFeeder_running h]
  exact if_pos (decide_eq_true h)

theorem feederArrival_still {st : FeederState} {failedRun : Bool} {s : State} (h : st = s.gate.feeder)
    (hf : failedRun = false ∨ stopReason st = none) : feederArrival st failedRun s = s := by
  have hsame : setFeeder st s = s := setFeeder_same h
  cases st with
  | unknown => exact hsame
  | running => simp only [feederArrival, hsame, decide_eq_false (not_not.2 h)]; rfl
  | stopped | fault =>
    rw [feederArrival_stops rfl, hsame, decide_eq_false (not_not.2 h), hf.resolve_right (by simp [stopReason])]
    rfl

theorem stopReason_of_ne {st : FeederState} (h : st ≠ .running) : st = .unknown ∨ ∃ r, stopReason st = some r := by
  cases st <;> simp_all [stopReason]

/-- An arrival that is no start leaves the visit of a new feeder state, but for a pause. -/
theorem feederArrival_other {st : FeederState} (h : st ≠ .running) (failedRun : Bool) (s : State) :
    feederArrival st failedRun s = setFeeder st s
      ∨ ∃ r, feederArrival st failedRun s = pauseVisit r (setFeeder st s) := by
  rcases stopReason_of_ne h with rfl | ⟨r, hr⟩
  · exact .inl rfl
  · rw [feederArrival_stops hr]
    split
    · exact .inr ⟨r, rfl⟩
    · exact .inl rfl

theorem pauseVisit_kept (r : PauseReason) (s : State) : (pauseVisit r s).gate = s.gate ∧ (pauseVisit r s).line = s.line
    ∧ (pauseVisit r s).ladder = s.ladder ∧ (pauseVisit r s).place = s.place := by
  unfold pauseVisit
  split <;> exact ⟨rfl, rfl, rfl, rfl⟩

theorem feederArrival_gate {st : FeederState} (h : st ≠ .running) (failedRun : Bool) (s : State) :
    (feederArrival st failedRun s).gate = { s.gate with feeder := st } := by
  obtain ⟨hgate, -, -⟩ := setFeeder_kept st s
  rcases feederArrival_other h failedRun s with he | ⟨r, he⟩ <;> rw [he]
  · exact hgate
  · exact (pauseVisit_kept r _).1.trans hgate

/-- The feeder state is the reported one. -/
theorem feederArrival_feeder (st : FeederState) (failedRun : Bool) (s : State) :
    (feederArrival st failedRun s).gate.feeder = st := by
  by_cases hr : st = .running
  · subst hr
    by_cases h : .running = s.gate.feeder
    · rw [feederArrival_still h (.inr rfl), h]
    · rw [feederArrival_runs failedRun h]
      exact (reportRunning_changes (feederState .running s)).same .feeder
  · rw [feederArrival_gate hr]

/-- A POURING visit is paused by a stop that is news (R82, R91). -/
theorem feederArrival_pauses {st : FeederState} {r : PauseReason} {failedRun : Bool} {s : State} {v : Visit}
    (hr : stopReason st = some r) (hnews : st ≠ s.gate.feeder ∨ failedRun = true) (hv : s.seq.visit = some v)
    (hs : v.state = .pouring) : (feederArrival st failedRun s).seq.visit = some (v.pausedFor r s.meter.belt) := by
  obtain ⟨-, hseq, hmeter⟩ := setFeeder_kept st s
  rw [feederArrival_stops hr, if_pos (by simpa using hnews), pauseVisit_visit, hseq, hmeter, hv, Option.map_some, if_pos hs]

theorem feederArrival_held_released {st : FeederState} {failedRun : Bool} {s : State} {m : HeldMove}
    (hne : st ≠ s.gate.feeder) (hr : st ≠ .running) (hp : pourPhase s = false) (hm : s.place.held = some m) :
    (feederArrival st failedRun s).place.held = none
      ∧ ((s.line.port .D).room = true → OnWire .D m.frame (feederArrival st failedRun s)) := by
  have hreleased : (setFeeder st s).place.held = none
      ∧ ((s.line.port .D).room = true → OnWire .D m.frame (setFeeder st s)) := by
    rw [setFeeder_changed hne]
    exact testHeldMove_released (s := feederState st s) hm hp hr
  rcases feederArrival_other hr failedRun s with he | ⟨r, he⟩ <;> rw [he]
  · exact hreleased
  · rw [(pauseVisit_kept r _).2.2.2]
    exact ⟨hreleased.1, fun hroom => (pauseVisit_keeps r _).2 .D _ (hreleased.2 hroom)⟩

theorem feederArrival_held_kept {st : FeederState} {failedRun : Bool} {s : State} (hr : st ≠ .running)
    (hp : pourPhase s = true) : (feederArrival st failedRun s).place.held = s.place.held := by
  have hkept : (setFeeder st s).place.held = s.place.held := by
    by_cases h : st = s.gate.feeder
    · rw [setFeeder_same h]
    · rw [setFeeder_changed h, testHeldMove_waits (s := feederState st s) (.inl hp)]
      rfl
  rcases feederArrival_other hr failedRun s with he | ⟨r, he⟩ <;> rw [he]
  · exact hkept
  · rw [(pauseVisit_kept r _).2.2.2, hkept]

/-! ## FEEDER_RUNNING (R91) -/

theorem feederRunning_other {s : State} (h : s.visitState ≠ some .paused) : feederRunning s = s := by
  unfold feederRunning
  split
  next hp => exact absurd hp h
  · rfl

theorem visitState_some {s : State} {v : Visit} (hv : s.seq.visit = some v) : s.visitState = some v.state := by
  rw [State.visitState, hv, Option.map_some]

/-- Outside PAUSED and ARMED the report makes the derate check alone. -/
theorem reportRunning_checks {s : State} (hp : s.visitState ≠ some .paused) (ha : s.visitState ≠ some .armed) :
    reportRunning s = derateCheck s := by
  unfold reportRunning
  simp only [feederRunning_other hp, if_neg ha]

/-- A stray start is stopped (R91). -/
theorem reportRunning_stray {s s' : State} (ha : s.visitState = some .armed)
    (hi : injectOrder .feeder .stop [InjOrder.code .stop] s = some s') : reportRunning s = derateCheck s' := by
  have hp : s.visitState ≠ some .paused := by rw [ha]; simp
  unfold reportRunning
  simp only [feederRunning_other hp, if_pos ha, strayStop, hi]

/-- A PAUSED visit that meets no projection pours again. -/
theorem reportRunning_resumes {s : State} {v : Visit} (hv : s.seq.visit = some v) (hs : v.state = .paused)
    (hnone : projection s v = none) : reportRunning s = derateCheck (pouringState v s) := by
  have hstate : s.visitState = some .paused := by rw [visitState_some hv, hs]
  have hrunning : feederRunning s = enterPouring s := by simp only [feederRunning, hstate]
  have ha : s.visitState ≠ some .armed := by rw [hstate]; simp
  unfold reportRunning
  simp only [hrunning, if_neg ha, enterPouring_none hv hnone]

/-- The visit of a PAUSED pour that a start resumes, no derate being due. -/
theorem feederArrival_resumes {failedRun : Bool} {s : State} {v : Visit} (h : .running ≠ s.gate.feeder)
    (hv : s.seq.visit = some v) (hs : v.state = .paused) (hnone : projection s v = none)
    (hdue : ¬ ∃ q, s.gate.lastRate = some q ∧ s.gate.rateLimit < q) :
    (feederArrival .running failedRun s).seq.visit
      = some { v with state := .pouring, start := some (v.start.getD s.meter.belt) } := by
  rw [feederArrival_runs failedRun h]
  set u := feederState .running s with hu
  rw [reportRunning_resumes (s := u) hv hs ((projection_congr rfl rfl rfl rfl ⟨rfl, rfl, rfl⟩).trans hnone)]
  have hc := pouringState_changes v u
  have hrate : (pouringState v u).gate.lastRate = s.gate.lastRate := (hc.same .rate).1
  have hlimit : (pouringState v u).gate.rateLimit = s.gate.rateLimit := hc.same .limit
  obtain ⟨hnotDue, -⟩ := derateCheck_checked (pouringState v u)
  obtain ⟨-, -, hvisit, -⟩ := hnotDue (by rw [hrate, hlimit]; exact fun hd => hdue hd.2)
  exact hvisit.trans (pouringState_visit v u)

/-- A stray start's STOP is injected, and the visit stays ARMED. -/
theorem feederArrival_stray {failedRun : Bool} {s : State} {v : Visit} {addr : Byte} (h : .running ≠ s.gate.feeder)
    (hv : s.seq.visit = some v) (hs : v.state = .armed) (hfree : s.gate.injFeeder = none)
    (hl : s.line.d.lineFault = false) (ha : s.station .feeder = some addr) :
    (feederArrival .running failedRun s).seq.visit = some v
      ∧ Injects .feeder .stop addr [3] s (feederArrival .running failedRun s) := by
  rw [feederArrival_runs failedRun h]
  set u := feederState .running s with hu
  obtain ⟨s', hinject, hinjects⟩ := injectOrder_injects .feeder .stop [InjOrder.code .stop] u addr hfree hl ha
  rw [reportRunning_stray (s := u) ((visitState_some (s := u) hv).trans (by rw [hs])) hinject]
  have hseq : s'.seq = s.seq := (injectOrder_changes _ _ _ _ _ hinject).seq_eq
  obtain ⟨hentry, hseq', hsent⟩ := hinjects
  have hentry' : s'.gate.injFeeder = some _ := hentry
  -- the entry being occupied, the derate check injects nothing
  have hunsent : ¬ ((∃ x, s'.gate.injFeeder = some x ∧ x.order = .rate) ∧ ∃ y ∈ s'.line.injection, y.dest = .feeder) := by
    rintro ⟨⟨x, hx, ho⟩, -⟩
    rw [hentry'] at hx
    cases hx
    cases ho
  obtain ⟨hnotDue, -, -, hpending⟩ := derateCheck_checked s'
  have hkept : (derateCheck s').seq.visit = s'.seq.visit ∧ Same .entries s' (derateCheck s')
      ∧ Same .injection s' (derateCheck s') := by
    by_cases hdue : s'.gate.feeder = .running ∧ ∃ q, s'.gate.lastRate = some q ∧ s'.gate.rateLimit < q
    · exact (hpending hdue hunsent (.inl (by rw [hentry']; simp))).2.2
    · exact (hnotDue hdue).2.2
  obtain ⟨hvisit, hentries, hinjection⟩ := hkept
  refine ⟨hvisit.trans ((congrArg Sequencer.visit hseq).trans hv), ?_, hinjection.2.trans hseq', ?_⟩
  · exact hentries.1.trans hentry
  · rcases hsent with hsent | hsent
    · exact .inl ((derateCheck_keeps s').1 .D _ hsent).1
    · exact .inr (by rw [hinjection.1]; exact hsent)

/-! ## A FEEDER sample (R90) -/

/-- What a step that starts from the feeder's arrival leaves to the end of the event. -/
theorem forward_D_end_closes (f : Frame) (s : State) (h : f.kind ≠ kindOrder) : Closes s (endEvent (forward .D f s)) :=
  (forward_D_closes f s h).trans (endEvent_closes _)

theorem forward_D_end_place (f : Frame) (s : State) (h : f.kind ≠ kindOrder) :
    (endEvent (forward .D f s)).place.held = s.place.held := by
  rw [endEvent_place]
  exact (forward_D_changes f s h).same .held

theorem Injects.closes {d : InjDest} {o : InjOrder} {addr : Byte} {bs : List Byte} {s t t' : State}
    (h : Injects d o addr bs s t) (c : Closes t t') : Injects d o addr bs s t' := by
  obtain ⟨hentry, hseq, hsent⟩ := h
  refine ⟨(c.entry d).trans hentry, c.2.2.2.2.2.2.2.2.1.trans hseq, ?_⟩
  rw [c.2.2.2.2.2.2.1, c.2.2.2.2.2.2.2.1]
  exact hsent

/-- What a start makes of the derate check, no visit being ARMED or PAUSED. -/
theorem feederArrival_checks {failedRun : Bool} {s : State} (h : .running ≠ s.gate.feeder)
    (hp : s.visitState ≠ some .paused) (ha : s.visitState ≠ some .armed) :
    DerateChecked (feederState .running s) (feederArrival .running failedRun s) := by
  rw [feederArrival_runs failedRun h, reportRunning_checks (s := feederState .running s) hp ha]
  exact derateCheck_checked _

end Sys2Proof.Machine

open Sys2Proof Sys2Proof.Machine

/-- Settles O34. -/
theorem feederSampleTaken : Obligations.FeederSampleTaken := by
  refine ⟨?_, ?_⟩
  · intro s e rest st h hparse hfrom s1 changed limit due free
    obtain ⟨-, hkind, -⟩ := inspect_D_sample h.2 (by simp) (by simp) (by simp)
    have hne : e.frame.kind ≠ kindOrder := kindSample_ne_order hkind
    have hc1 : OnlyChanges _ s s1 := takeHead_changes .D e rest .feederSample s
    have hfeeder : s1.gate.feeder = s.gate.feeder := hc1.same .feeder
    have hlimit : s1.gate.rateLimit = s.gate.rateLimit := hc1.same .limit
    have hbelt : s1.meter.belt = s.meter.belt := hc1.same .belt
    have hstation : s1.station .feeder = s.station .feeder := takeHead_D_station e rest .feederSample s .feeder
    have hrole : s1.fromRole .feeder e.frame = true := (fromRole_iff _ _ _).2 (hstation.trans hfrom)
    have htreat : treatFeeder e.frame s1 = forward .D e.frame (feederArrival st false s1) := by
      simp only [treatFeeder, hparse, hrole, if_true]
    have hnews : changed ↔ st ≠ s1.gate.feeder := by rw [hfeeder]
    refine takes_of (xs := feederBlocks) treatFeeder h rfl ?_ (by decide) ?_
    · rw [htreat]
      exact (feederArrival_changes st false s1).mono.then (forward_D_changes _ _ hne)
    rw [htreat]
    set a := feederArrival st false s1 with ha
    have hclosed : Closes a (endEvent (forward .D e.frame a)) := forward_D_end_closes e.frame a hne
    obtain ⟨hentry, -, -, hrate, hmark, -, hstate⟩ := hclosed.gate
    have hplace := forward_D_end_place e.frame a hne
    have hqueue := hclosed.2.2.2.2.2.2.2.1
    rw [hclosed.1, hstate, hrate, hmark, hentry, hqueue, hplace]
    refine ⟨feederArrival_feeder st false s1, forward_D_offered _ _, fun v hv hs hch => ⟨?_, ?_⟩, fun hch => ?_,
      fun hch hrun => ⟨fun v hv hs hnone hdue => ?_, fun v addr hv hs hfree haddr => ?_, fun harmed hpaused => ?_⟩,
      fun m hch hst hp hm => ?_, fun hst hp => ?_⟩
    · rintro rfl
      rw [← hbelt]
      exact feederArrival_pauses rfl (.inl (hnews.1 hch)) hv hs
    · rintro rfl
      rw [← hbelt]
      exact feederArrival_pauses rfl (.inl (hnews.1 hch)) hv hs
    · have hstill : a = s1 := feederArrival_still (not_not.1 (mt hnews.2 hch)) (.inl rfl)
      rw [hstill]
    · subst hrun
      rw [← hbelt]
      exact feederArrival_resumes (hnews.1 hch) hv hs hnone (by rw [hlimit]; exact hdue)
    · subst hrun
      obtain ⟨hvisit, hinjects⟩ := feederArrival_stray (failedRun := false) (hnews.1 hch) hv hs hfree.1 hfree.2
        (hstation.trans haddr)
      exact ⟨hvisit, hinjects.closes hclosed⟩
    · subst hrun
      obtain ⟨hnotDue, hinjects, hrewrites, hpending⟩ := feederArrival_checks (failedRun := false) (hnews.1 hch) hpaused harmed
      set d := feederState .running s1 with hd
      have hdue : due ↔ d.gate.feeder = .running ∧ ∃ q, d.gate.lastRate = some q ∧ d.gate.rateLimit < q := by
        change (∃ r, s1.gate.lastRate = some r ∧ s.gate.rateLimit < r)
          ↔ FeederState.running = .running ∧ ∃ q, s1.gate.lastRate = some q ∧ s1.gate.rateLimit < q
        rw [hlimit, eq_self_iff_true, true_and]
      have hdlimit : d.gate.rateLimit = limit := hlimit
      rw [hdlimit] at hinjects hrewrites hdue hnotDue hpending
      refine ⟨fun hd => ?_, fun addr hd hfree haddr => ?_, fun x hd hx => ⟨fun ho hy => ?_, fun hno => ?_⟩, fun hd hfree hl => ?_⟩
      · obtain ⟨hmark', hrate', -⟩ := hnotDue (mt hdue.2 hd)
        exact ⟨hmark', hrate'⟩
      · obtain ⟨hinjected, hrate', hmark', hvisit⟩ := hinjects addr (hdue.1 hd) hfree.1 hfree.2 (hstation.trans haddr)
        refine ⟨hinjected.closes hclosed, hrate', hmark', hvisit.trans ?_⟩
        change s1.seq.visit.map _ = s1.seq.visit.map _
        refine Option.map_congr fun v hv => ?_
        have hnot : v.state ≠ .paused := fun hs => hpaused ((visitState_some hv).trans (by rw [hs]))
        simp only [or_iff_left hnot]
      · obtain ⟨hrate', -, -, hentries, hinjection⟩ := hrewrites (hdue.1 hd) ⟨⟨x, hx, ho⟩, hy⟩
        refine ⟨hentries.1.trans hx, hrate', ?_⟩
        rw [hinjection]
        intro y hy hdest
        obtain ⟨z, -, rfl⟩ := List.mem_map.1 hy
        by_cases hz : z.dest = .feeder
        · rw [if_pos hz]
        · rw [if_neg hz] at hdest
          exact absurd hdest hz
      · have hsent : ¬ ((∃ x, d.gate.injFeeder = some x ∧ x.order = .rate) ∧ ∃ y ∈ d.line.injection, y.dest = .feeder) := by
          rintro ⟨⟨z, hz, ho⟩, y, hy, hdest⟩
          cases Option.some_inj.1 (hx.symm.trans hz)
          exact hno.elim (fun k => k ho) (fun k => k y hy hdest)
        obtain ⟨hmark', hrate', -, hentries, hinjection⟩ :=
          hpending (hdue.1 hd) hsent (.inl fun k => by cases hx.symm.trans k)
        exact ⟨hentries.1.trans hx, hrate', hmark', hinjection.1⟩
      · have hsent : ¬ ((∃ x, d.gate.injFeeder = some x ∧ x.order = .rate) ∧ ∃ y ∈ d.line.injection, y.dest = .feeder) := by
          rintro ⟨⟨z, hz, -⟩, -⟩
          cases hfree.symm.trans hz
        obtain ⟨hmark', hrate', -, hentries, -⟩ := hpending (hdue.1 hd) hsent (.inr hl)
        exact ⟨hentries.1.trans hfree, hrate', hmark'⟩
    · obtain ⟨hnone, hwire⟩ := feederArrival_held_released (failedRun := false) (hnews.1 hch) hst hp hm
      exact ⟨hnone, fun hroom => hclosed.2.2.2.2.2.2.2.2.2.2.2 .D _ (hwire hroom)⟩
    · exact feederArrival_held_kept hst hp
  · intro v r belt
    unfold Visit.pausedFor
    by_cases hlen : v.pauses.length < 4
    · simp [hlen, Nat.not_le.2 hlen]
    · simp [hlen, Nat.not_lt.1 hlen]

end

section
/-! REPLY (R54, R58, R63, R86 to R91, R94, R102, R104, R177). -/

set_option Elab.async false

namespace Sys2Proof.Machine

/-! ## A reply at the head of port D -/

theorem takeHead_D_ready (e : RxEntry) (rest : List RxEntry) (row : Instr) (s : State) :
    (takeHead .D e rest row s).ready = s.ready ∧ (takeHead .D e rest row s).handler = s.handler := by
  have hh : (takeHead .D e rest row s).handler = s.handler := (takeHead_changes .D e rest row s).handler
  exact ⟨by rw [State.ready, State.ready, hh], hh⟩

theorem takeHead_D_destAt (e : RxEntry) (rest : List RxEntry) (row : Instr) (s : State) (a : Byte) :
    (takeHead .D e rest row s).destAt a = s.destAt a := by
  simp only [State.destAt, takeHead_D_station]

theorem takeHead_D_axisAt (e : RxEntry) (rest : List RxEntry) (row : Instr) (s : State) (a : Byte) :
    (takeHead .D e rest row s).axisAt a = s.axisAt a := by
  simp only [State.axisAt, takeHead_D_station]

/-- A READY part takes a frame of kind REPLY as a reply (R177). -/
theorem inspect_D_reply {s : State} {f : Frame} (h : inspect s .D f = .reply) (hr : s.ready = true) :
    f.kind ≠ kindOrder := by
  by_cases ha : f.dst.toNat < 64 ∧ f.src.toNat < 64
  · rw [inspect_ready_D ha hr, readyRowD] at h
    intro hk
    rw [hk] at h
    simp [kindOrder, kindRequest, kindSample, kindReply] at h
  · rw [inspect_unaddressed ha] at h
    cases h

theorem treatReply_unready {f : Frame} {s : State} (hr : s.ready = false) : treatReply f s = s := by
  simp [treatReply, hr]

theorem treatReply_consumed {f : Frame} {s : State} {r : ReplyForm} (hr : s.ready = true)
    (hd : f.dst = s.handler.ownAddr) (hp : parseReply f.payload = some r) : treatReply f s = consumeReply f r s := by
  simp [treatReply, hr, hp, hd]

theorem treatReply_unparsed {f : Frame} {s : State} (hr : s.ready = true) (hd : f.dst = s.handler.ownAddr)
    (hp : parseReply f.payload = none) : treatReply f s = s := by
  simp [treatReply, hr, hp, hd]

theorem treatReply_observed {f : Frame} {s : State} {r : ReplyForm} (hr : s.ready = true)
    (hd : f.dst ≠ s.handler.ownAddr) (hp : parseReply f.payload = some r) :
    treatReply f s = forward .D f (observeReply f r s) := by
  simp [treatReply, hr, hp, beq_eq_false_iff_ne.2 hd]

theorem treatReply_passed {f : Frame} {s : State} (hr : s.ready = true) (hd : f.dst ≠ s.handler.ownAddr)
    (hp : parseReply f.payload = none) : treatReply f s = forward .D f s := by
  simp [treatReply, hr, hp, beq_eq_false_iff_ne.2 hd]

theorem matched_none_iff {g : Gate} {d : InjDest} {seq : Byte} :
    g.matched d seq = none ↔ ∀ x, g.entry d = some x → x.seq ≠ seq := by
  cases hx : g.entry d with
  | none => simp [Gate.matched, hx]
  | some x => simp [Gate.matched, hx]

theorem matched_some {g : Gate} {d : InjDest} {seq : Byte} {x : InjEntry} (hx : g.entry d = some x) (hs : x.seq = seq) :
    g.matched d seq = some x := by simp [Gate.matched, hx, hs]

theorem destAt_feeder {s : State} {a : Byte} (h : s.station .feeder = some a) : s.destAt a = some .feeder := if_pos h

/-- A reply that no block waits for is consumed without a trace. -/
theorem consumeReply_unmatched {f : Frame} {r : ReplyForm} {s : State}
    (h : ∀ d, s.destAt f.src = some d → d ≠ .feeder ∧ s.gate.matched d f.seq = none) : consumeReply f r s = s := by
  unfold consumeReply
  cases hd : s.destAt f.src with
  | none => rfl
  | some d =>
    obtain ⟨hne, hnone⟩ := h d hd
    cases d with
    | feeder => exact absurd rfl hne
    | drive a => simp only [replyDrive, hnone]

/-! ## A drive's reply (R58, R63) -/

theorem motion_ofByte_code (m : Motion) : Motion.ofByte m.code = some m := by cases m <;> rfl

theorem observeAxis_axes {a : Axis} {r : ReplyForm} {m : Motion} (s : State) (hm : r.device = m.code) :
    (observeAxis a r s).place.axes = s.place.axes.put a { s.place.axes.get a with motion := some m } := by
  simp only [observeAxis, hm, motion_ofByte_code, putAxis_fields]

theorem observeAxis_kept (a : Axis) (r : ReplyForm) (s : State) : (observeAxis a r s).gate = s.gate
    ∧ (observeAxis a r s).line = s.line ∧ (observeAxis a r s).ladder = s.ladder
    ∧ (observeAxis a r s).handler = s.handler ∧ (observeAxis a r s).place.sweep = s.place.sweep := by
  unfold observeAxis
  split
  · exact ⟨rfl, rfl, rfl, rfl, rfl⟩
  · exact ⟨rfl, rfl, rfl, rfl, rfl⟩

theorem driveOutcome_done {a : DriveAxis} {s : State} {w : Sweep} (hw : s.place.sweep = some w) (ha : w.axis = a)
    (hp : w.phase = .awaitingReply) :
    driveOutcome a true s = setSweep (some { w with phase := .awaitingPosition }) (releaseEntry (.drive a) s) := by
  simp [driveOutcome, hw, ha, hp]

theorem driveOutcome_failed {a : DriveAxis} {s : State} {w : Sweep} (hw : s.place.sweep = some w) (ha : w.axis = a)
    (hp : w.phase = .awaitingReply) : driveOutcome a false s = faultSweep s := by
  simp [driveOutcome, hw, ha, hp]

theorem consumeReply_drive {f : Frame} {r : ReplyForm} {a : DriveAxis} {x : InjEntry} {s : State}
    (hd : s.destAt f.src = some (.drive a)) (hx : s.gate.entry (.drive a) = some x) (hs : x.seq = f.seq) :
    consumeReply f r s = driveOutcome a r.done (observeAxis (axisOf a) r s) := by
  simp only [consumeReply, hd, replyDrive, matched_some hx hs]

/-- SWEEP_DONE with outcome MOVE_FAULT is offered (R61, R62). -/
theorem faultSweep_offered {s : State} {w : Sweep} (h : s.place.sweep = some w) :
    Offered .U { dst := 0, src := s.handler.ownAddr, kind := 0x41, seq := 0,
                 payload := [5, 4, (axisOf w.axis).code, byteOf w.done] } s (endEvent (faultSweep s)) :=
  fun hroom => (endEvent_keeps _).2 .U _ (faultSweep_onWire h hroom)

/-! ## The feeder's reply (R90, R91, R94) -/

theorem feeder_ofByte_code {st : FeederState} (h : st ≠ .unknown) : FeederState.ofByte st.code = some st := by
  cases st with
  | unknown => exact absurd rfl h
  | stopped | running | fault => rfl

theorem observeFeeder_eq {r : ReplyForm} {st : FeederState} (h : st ≠ .unknown) (hd : r.device = st.code) (s : State) :
    observeFeeder r s = feederArrival st r.failedRun s := by
  simp only [observeFeeder, hd, feeder_ofByte_code h]

theorem consumeReply_feeder {f : Frame} {r : ReplyForm} {s : State} (h : s.station .feeder = some f.src) :
    consumeReply f r s = replyFeeder r f.seq s := by
  simp only [consumeReply, destAt_feeder h]

theorem replyFeeder_unmatched {r : ReplyForm} {seq : Byte} {s : State}
    (h : ∀ x, s.gate.injFeeder = some x → x.seq ≠ seq) : replyFeeder r seq s = observeFeeder r s := by
  have hnone : s.gate.matched .feeder seq = none := matched_none_iff.2 h
  simp only [replyFeeder, hnone]

/-- The freed entry's outcome follows, the device state observed (R94). -/
theorem replyFeeder_matched {r : ReplyForm} {seq : Byte} {s : State} {x : InjEntry} (hx : s.gate.injFeeder = some x)
    (hs : x.seq = seq) (hkept : (observeFeeder r s).gate.injFeeder = some x) :
    replyFeeder r seq s = feederOutcome x.order (!r.done) (releaseEntry .feeder (observeFeeder r s)) := by
  have hmatched : s.gate.matched .feeder seq = some x := matched_some hx hs
  simp only [replyFeeder, hmatched, hkept, if_true]

/-- The FEEDER entry freed, and a failure's alarm raised. -/
def freedEntry (done : Bool) (s : State) : State :=
  if done then releaseEntry .feeder s else raise srcStopFault (releaseEntry .feeder s)

theorem freedEntry_cases (done : Bool) (s : State) : freedEntry done s = releaseEntry .feeder s
    ∨ freedEntry done s = raise srcStopFault (releaseEntry .feeder s) := by
  cases done
  · exact .inr rfl
  · exact .inl rfl

theorem feederOutcome_rate (done : Bool) (s : State) :
    feederOutcome .rate (!done) (releaseEntry .feeder s) = derateCheck (freedEntry done s) := by cases done <;> rfl

theorem feederOutcome_stop (done : Bool) (s : State) :
    feederOutcome .stop (!done) (releaseEntry .feeder s) = closeOutOutcome (!done) (freedEntry done s) := by
  cases done <;> rfl

theorem freedEntry_changes (done : Bool) (s : State) : OnlyChanges [.entries, .sources] s (freedEntry done s) := by
  rcases freedEntry_cases done s with h | h <;> rw [h]
  · exact (releaseEntry_changes _ _).mono
  · exact (releaseEntry_changes _ _).mono.then (raise_changes _ _)

theorem freedEntry_fields (done : Bool) (s : State) : (freedEntry done s).gate = { s.gate with injFeeder := none }
    ∧ (freedEntry done s).line = s.line ∧ (freedEntry done s).seq = s.seq
    ∧ (freedEntry done s).ladder.sources[srcStopFault]
      = if done then s.ladder.sources[srcStopFault] else (s.ladder.sources[srcStopFault]).raised := by
  cases done
  · exact ⟨rfl, rfl, rfl, raise_same _ _⟩
  · exact ⟨rfl, rfl, rfl, rfl⟩

theorem freedEntry_source (done : Bool) (s : State) : LeavesSources [srcStopFault] s (freedEntry done s) := by
  cases done
  · exact raise_source srcStopFault (releaseEntry .feeder s)
  · exact .ladder

/-- An arrival that is no start leaves the FEEDER entry and the queue that waits for port D's. -/
theorem feederArrival_unstarted {st : FeederState} {failedRun : Bool} {s : State} (h : st ≠ s.gate.feeder → st ≠ .running) :
    (feederArrival st failedRun s).gate = { s.gate with feeder := st } := by
  by_cases hr : st = .running
  · have hsame : st = s.gate.feeder := not_not.1 fun hne => h hne hr
    rw [feederArrival_still hsame (.inr (by rw [hr]; rfl)), hsame]
  · exact feederArrival_gate hr failedRun s

theorem feederArrival_unchanged {st : FeederState} (failedRun : Bool) {s : State} (h : st = s.gate.feeder) :
    feederArrival st failedRun s = s ∨ ∃ r, feederArrival st failedRun s = pauseVisit r s := by
  by_cases hr : st = .running
  · exact .inl (feederArrival_still h (.inr (by rw [hr]; rfl)))
  · have hsame : setFeeder st s = s := setFeeder_same h
    rcases feederArrival_other hr failedRun s with he | ⟨r, he⟩
    · exact .inl (he.trans hsame)
    · exact .inr ⟨r, he.trans (by rw [hsame])⟩

theorem setFeeder_ladder (st : FeederState) (s : State) : (setFeeder st s).ladder = s.ladder := by
  unfold setFeeder
  split
  · rfl
  · unfold testHeldMove
    split
    · rfl
    · split
      · exact forward_ladder _ _ _
      · rfl

theorem feederArrival_source {st : FeederState} {failedRun : Bool} {s : State} (h : st ≠ s.gate.feeder → st ≠ .running)
    (i : SourceNo) : (feederArrival st failedRun s).ladder.sources[i] = s.ladder.sources[i] := by
  by_cases hr : st = .running
  · have hsame : st = s.gate.feeder := not_not.1 fun hne => h hne hr
    rw [feederArrival_still hsame (.inr (by rw [hr]; rfl))]
  · rcases feederArrival_other hr failedRun s with he | ⟨r, he⟩ <;> rw [he]
    · rw [setFeeder_ladder]
    · rw [(pauseVisit_kept r _).2.2.1, setFeeder_ladder]

/-- A pause closes no visit. -/
theorem feederArrival_visitState {st : FeederState} {failedRun : Bool} {s : State} {c : VisitState}
    (h : st ≠ s.gate.feeder → st ≠ .running) (hc : c ≠ .paused) (hs : s.visitState ≠ some c) :
    (feederArrival st failedRun s).visitState ≠ some c := by
  have hpaused (r : PauseReason) (u : State) (hu : u.visitState ≠ some c) : (pauseVisit r u).visitState ≠ some c := by
    unfold pauseVisit
    split
    · rw [State.visitState, mapVisit, setVisit]
      cases hv : u.seq.visit with
      | none => simp
      | some v =>
        have hp : (v.pausedFor r u.meter.belt).state = .paused := by
          unfold Visit.pausedFor
          simp only
          split <;> rfl
        simpa [hp] using hc.symm
    · exact hu
  have hset : (setFeeder st s).visitState ≠ some c := by
    rw [State.visitState, (setFeeder_kept st s).2.1]
    exact hs
  by_cases hr : st = .running
  · have hsame : st = s.gate.feeder := not_not.1 fun hne => h hne hr
    rw [feederArrival_still hsame (.inr (by rw [hr]; rfl))]
    exact hs
  · rcases feederArrival_other hr failedRun s with he | ⟨r, he⟩ <;> rw [he]
    · exact hset
    · exact hpaused r _ hset

theorem failedRun_iff (r : ReplyForm) : r.failedRun = true ↔ r.done = false ∧ (r.order = 1 ∨ r.order = 2) := by
  simp [ReplyForm.failedRun]

/-- A reply that is treated by `u`. -/
theorem takes_reply {s u : State} {e : RxEntry} {rest : List RxEntry} {xs changed : List Block} {post : State → Prop}
    (h : Heads s .D .reply e rest) (ht : treatReply e.frame (takeHead .D e rest .reply s) = u)
    (hc : OnlyChanges xs (takeHead .D e rest .reply s) u) (hx : ∀ b ∈ xs, b ∈ closing ++ changed)
    (hp : post (endEvent u)) : Takes s .D .reply e rest changed post := by
  refine takes_of (xs := xs) treatReply h rfl ?_ hx ?_
  · rw [ht]; exact hc
  · rw [ht]; exact hp

/-- What a paused visit shows of the arrival. -/
def PausedBy (st : FeederState) (news : Prop) (s t : State) : Prop :=
  ∀ v, s.seq.visit = some v → v.state = .pouring → news →
    (st = .stopped → t.seq.visit = some (v.pausedFor .feederStopped s.meter.belt))
      ∧ (st = .fault → t.seq.visit = some (v.pausedFor .feederFault s.meter.belt))

theorem feederArrival_pausedBy (st : FeederState) (failedRun : Bool) (s : State) :
    PausedBy st (st ≠ s.gate.feeder ∨ failedRun = true) s (feederArrival st failedRun s) := by
  refine fun v hv hs hnews => ⟨?_, ?_⟩
  · rintro rfl
    exact feederArrival_pauses rfl hnews hv hs
  · rintro rfl
    exact feederArrival_pauses rfl hnews hv hs

theorem PausedBy.congr {st : FeederState} {news : Prop} {s t t' : State} (h : PausedBy st news s t)
    (hv : (st = .stopped ∨ st = .fault) → t'.seq.visit = t.seq.visit) : PausedBy st news s t' := by
  intro v hs hp hn
  obtain ⟨hstopped, hfault⟩ := h v hs hp hn
  exact ⟨fun k => (hv (.inl k)).trans (hstopped k), fun k => (hv (.inr k)).trans (hfault k)⟩

end Sys2Proof.Machine

open Sys2Proof Sys2Proof.Machine

/-- Settles O36. -/
theorem otherReplies : Obligations.OtherReplies := by
  intro s e rest h s1
  obtain ⟨hready, hhandler⟩ := takeHead_D_ready e rest .reply s
  have hstation (r : Role) : s1.station r = s.station r := takeHead_D_station e rest .reply s r
  have hc1 : OnlyChanges _ s s1 := takeHead_changes .D e rest .reply s
  have hplace : s1.place.axes = s.place.axes := hc1.same .axes
  have hsweep : s1.place.sweep = s.place.sweep := hc1.same .sweep
  have hbelt : s1.meter.belt = s.meter.belt := hc1.same .belt
  have hown {d : Byte} (hd : d = s.handler.ownAddr) : d = s1.handler.ownAddr := by rw [hhandler]; exact hd
  refine ⟨fun hr => ?_, fun hd hnone => ?_, fun hr hd hf => ?_, fun r a x w hr hd hp hdest hx hseq hw ha hphase => ?_,
    fun r st hr hp hf hst hdev => ?_⟩
  · exact takes_reply (xs := []) h (treatReply_unready (hready.trans hr)) (OnlyChanges.refl _ _) (by simp) trivial
  · refine takes_reply (xs := []) (u := s1) h ?_ (OnlyChanges.refl _ _) (by simp) trivial
    cases hr : s1.ready with
    | false => exact treatReply_unready hr
    | true =>
      cases hp : parseReply e.frame.payload with
      | none => exact treatReply_unparsed hr (hown hd) hp
      | some r =>
        rw [treatReply_consumed hr (hown hd) hp]
        refine consumeReply_unmatched fun d hdest => ?_
        obtain ⟨hne, hseq⟩ := hnone d ((takeHead_D_destAt e rest .reply s _).symm.trans hdest)
        exact ⟨hne, matched_none_iff.2 hseq⟩
  · have hkind := inspect_D_reply h.2 hr
    have hr1 := hready.trans hr
    have hd1 : e.frame.dst ≠ s1.handler.ownAddr := by rw [hhandler]; exact hd
    have hf1 : s1.station .feeder ≠ some e.frame.src := by rw [hstation]; exact hf
    cases hp : parseReply e.frame.payload with
    | none =>
      refine takes_reply (xs := [.send .U]) h (treatReply_passed hr1 hd1 hp) (forward_D_changes _ _ hkind) (by decide)
        ⟨forward_D_offered _ _, fun a r m _ hp' => by cases hp'⟩
    | some r =>
      have hobserved : observeReply e.frame r s1 = (match s1.axisAt e.frame.src with
        | some a => observeAxis a r s1
        | none => s1) := if_neg hf1
      have hchanges : OnlyChanges [.axes] s1 (observeReply e.frame r s1) := by
        rw [hobserved]
        split
        · exact observeAxis_changes _ _ _
        · exact OnlyChanges.refl _ _
      refine takes_reply (xs := [.axes, .send .U]) h (treatReply_observed hr1 hd1 hp)
        (hchanges.mono.then (forward_D_changes _ _ hkind)) (by decide) ⟨?_, fun a r' m ha hp' hm => ?_⟩
      · intro hroom
        refine forward_D_offered e.frame (observeReply e.frame r s1) ?_
        rw [Port.room, (hchanges.same (.send .U)).1]
        exact hroom
      · cases hp'
        rw [endEvent_place]
        have hforward : (forward .D e.frame (observeReply e.frame r s1)).place.axes = (observeReply e.frame r s1).place.axes :=
          (forward_D_changes _ _ hkind).same .axes
        have ha1 : s1.axisAt e.frame.src = some a := (takeHead_D_axisAt e rest .reply s _).trans ha
        rw [hforward, hobserved, ha1]
        exact (observeAxis_axes s1 hm).trans (by rw [hplace])
  · intro moved
    have htreat : treatReply e.frame s1 = driveOutcome a r.done (observeAxis (axisOf a) r s1) :=
      (treatReply_consumed (hready.trans hr) (hown hd) hp).trans
        (consumeReply_drive ((takeHead_D_destAt e rest .reply s _).trans hdest) hx hseq)
    obtain ⟨hogate, holine, holadder, hohandler, hosweep⟩ := observeAxis_kept (axisOf a) r s1
    set o := observeAxis (axisOf a) r s1 with ho
    have how : o.place.sweep = some w := hosweep.trans (hsweep.trans hw)
    have haxes {t : State} (ht : t.place.axes = o.place.axes) (m : Motion) (hm : r.device = m.code) :
        t.place.axes = s.place.axes.put (axisOf a) { s.place.axes.get (axisOf a) with motion := some m } :=
      ht.trans ((observeAxis_axes s1 hm).trans (by rw [hplace]))
    refine ⟨fun hdone => ?_, fun hdone => ?_⟩
    · rw [hdone, driveOutcome_done how ha hphase] at htreat
      refine takes_reply (xs := [.axes, .entries, .sweep]) h htreat
        (((observeAxis_changes _ r s1).mono.then (releaseEntry_changes _ _)).then (setSweep_changes _ _)) (by decide)
        ⟨⟨?_, haxes (by rw [endEvent_place]; rfl)⟩, by rw [endEvent_place]; rfl⟩
      rw [(endEvent_closes _).entry]
      exact setEntry_entry _ _ _
    · rw [hdone, driveOutcome_failed how ha hphase] at htreat
      obtain ⟨hfplace, hfentry, hfqueue, hfsource⟩ := faultSweep_some how
      have hoffered := faultSweep_offered how
      rw [ha, hohandler, hhandler] at hoffered
      rw [ha] at hfentry hfqueue
      refine takes_reply (xs := [.axes, .sweep, .send .U, .entries, .injection, .sources]) h htreat
        ((observeAxis_changes _ r s1).mono.then (faultSweep_changes _)) (by decide)
        ⟨⟨?_, haxes (by rw [endEvent_place, hfplace])⟩, ?_, ?_, ?_, ?_⟩
      · rw [(endEvent_closes _).entry]; exact hfentry
      · rw [endEvent_place, hfplace]
      · rw [(endEvent_closes _).2.2.2.2.2.2.2.1]; exact hfqueue
      · rw [endEvent_ladder]; exact hfsource.trans (by rw [holadder])
      · intro hroom
        exact hoffered (by rw [holine]; exact hroom)
  · intro mine answers changed failedRun limit due paused faulted
    have hr1 := hready.trans hr
    have hf1 : s1.station .feeder = some e.frame.src := (hstation .feeder).trans hf
    have hobserve (u : State) : observeFeeder r u = feederArrival st r.failedRun u := observeFeeder_eq hst hdev u
    have hnews : changed ∨ failedRun ↔ st ≠ s1.gate.feeder ∨ r.failedRun = true := or_congr Iff.rfl (failedRun_iff r).symm
    set a := feederArrival st r.failedRun s1 with ha
    have hpauses : PausedBy st (changed ∨ failedRun) s1 a := by rw [hnews]; exact feederArrival_pausedBy st r.failedRun s1
    have hpaused {t : State} (ht : (st = .stopped ∨ st = .fault) → t.seq.visit = a.seq.visit) : paused t := by
      intro v hv hs hn
      rw [← hbelt]
      exact hpauses.congr ht v hv hs hn
    refine ⟨fun hnot => ?_, fun x hm hx ho hunchanged => ?_, fun x hm hx ho hvisit hstart => ?_⟩
    · have hclaims {t : State} (hclosed : Closes a t) : t.gate.feeder = st ∧ paused t
          ∧ (¬ changed → ¬ failedRun → t.seq.visit = s1.seq.visit)
          ∧ ∀ v, changed → st = .running → s1.seq.visit = some v → v.state = .paused → projection s1 v = none → ¬ due →
              t.seq.visit = some { v with state := .pouring, start := some (v.start.getD s.meter.belt) } := by
        obtain ⟨-, -, -, -, -, -, hstate⟩ := hclosed.gate
        refine ⟨hstate.trans (feederArrival_feeder st _ s1), hpaused fun _ => by rw [hclosed.1], fun hch hfr => ?_,
          fun v hch hrun hv hs hproj hdue => ?_⟩
        · have hstill : a = s1 := feederArrival_still (not_not.1 hch)
            (.inl (Bool.eq_false_iff.2 (mt (failedRun_iff r).1 hfr)))
          rw [hclosed.1, hstill]
        · rw [hclosed.1, ← hbelt]
          subst hrun
          exact feederArrival_resumes hch hv hs hproj fun hd => hdue ⟨rfl, hd⟩
      by_cases hm : mine
      · have htreat : treatReply e.frame s1 = a := by
          rw [treatReply_consumed hr1 (hown hm) hp, consumeReply_feeder hf1, replyFeeder_unmatched, hobserve]
          exact fun x hx hs => (hnot.resolve_left (fun hn => hn hm)) x ⟨hx, hs⟩
        obtain ⟨hstate, hpause, hsame, hresumes⟩ := hclaims (endEvent_closes a)
        exact takes_reply (xs := feederBlocks) h htreat (feederArrival_changes _ _ _) (by decide)
          ⟨hstate, hpause, fun hn => absurd hm hn, hsame, hresumes⟩
      · have hkind := inspect_D_reply h.2 hr
        have htreat : treatReply e.frame s1 = forward .D e.frame a := by
          rw [treatReply_observed hr1 (by rw [hhandler]; exact hm) hp]
          exact congrArg (forward .D e.frame) ((if_pos hf1).trans (hobserve s1))
        obtain ⟨hstate, hpause, hsame, hresumes⟩ := hclaims (forward_D_end_closes e.frame a hkind)
        exact takes_reply (xs := feederBlocks) h htreat
          ((feederArrival_changes _ _ _).then (forward_D_changes _ _ hkind)) (by decide)
          ⟨hstate, hpause, fun _ => forward_D_offered _ _, hsame, hresumes⟩
    · have hsame : st = s1.gate.feeder := not_not.1 hunchanged
      have hkept : a.gate = s1.gate ∧ a.line = s1.line ∧ a.ladder = s1.ladder := by
        rcases feederArrival_unchanged r.failedRun hsame with he | ⟨q, he⟩ <;> rw [ha, he]
        · exact ⟨rfl, rfl, rfl⟩
        · obtain ⟨hgate, hline, hladder, -⟩ := pauseVisit_kept q s1
          exact ⟨hgate, hline, hladder⟩
      obtain ⟨hagate, haline, haladder⟩ := hkept
      have hac : OnlyChanges feederBlocks s1 a := feederArrival_changes _ _ _
      have htreat : treatReply e.frame s1 = derateCheck (freedEntry r.done a) := by
        rw [treatReply_consumed hr1 (hown hm) hp, consumeReply_feeder hf1,
          replyFeeder_matched hx.1 hx.2 (by rw [hobserve, ← ha, hagate]; exact hx.1), hobserve, ho]
        exact feederOutcome_rate r.done a
      obtain ⟨hugate, huline, huseq, husource⟩ := freedEntry_fields r.done a
      have huc := freedEntry_changes r.done a
      set u := freedEntry r.done a with hu
      have hclosed := endEvent_closes (derateCheck u)
      obtain ⟨hentry, -, -, hrate, hmark, -, hstate⟩ := hclosed.gate
      have hufree : u.gate.injFeeder = none := by rw [hugate]
      have hulimit : u.gate.rateLimit = limit := by rw [hugate, hagate]
      have hdue : due ↔ u.gate.feeder = .running ∧ ∃ q, u.gate.lastRate = some q ∧ limit < q := by
        rw [hugate, hagate, ← hsame]
      obtain ⟨hnotDue, hinjects, -, hpending⟩ := derateCheck_checked u
      rw [hulimit, ← hdue] at hnotDue hinjects hpending
      have hunsent : ¬ ((∃ x, u.gate.injFeeder = some x ∧ x.order = .rate) ∧ ∃ y ∈ u.line.injection, y.dest = .feeder) := by
        rintro ⟨⟨z, hz, -⟩, -⟩
        cases hufree.symm.trans hz
      refine takes_reply (xs := replyBlocks) h htreat
        ((hac.mono.trans huc.mono).trans (derateCheck_changes u).mono) (by decide)
        ⟨?_, hpaused fun hst => ?_, ?_, fun hd => ?_, fun hd hl => ?_, fun hd hl => ?_, fun hd hfr => ?_⟩
      · have hdstate : (derateCheck u).gate.feeder = u.gate.feeder := (derateCheck_changes u).same .feeder
        rw [hstate, hdstate, hugate, hagate, hsame]
      · obtain ⟨-, -, hvisit, -⟩ := hnotDue (fun hd => by rcases hst with rfl | rfl <;> cases hd.1)
        rw [hclosed.1, hvisit, huseq]
      · change (endEvent (derateCheck u)).ladder.sources[srcStopFault] = _
        rw [endEvent_ladder]
        refine ((derateCheck_changes u).sources srcStopFault).trans (husource.trans ?_)
        rw [haladder]
      · obtain ⟨hmark', hrate', -, hentries, -⟩ := hnotDue hd
        rw [hentry, hrate, hmark, hrate', hentries.1, hugate, hagate]
        exact ⟨rfl, rfl, hmark'⟩
      · have hstation' : u.station .feeder = some e.frame.src :=
          (congrArg (fun v => v[Role.feeder.index]) (huc.same .stations : _ = _)).trans
            ((congrArg (fun v => v[Role.feeder.index]) (hac.same .stations : _ = _)).trans hf1)
        obtain ⟨hinjected, hrate', hmark', -⟩ := hinjects e.frame.src hd hufree
          (by rw [huline, haline]; exact hl) hstation'
        rw [hrate, hmark]
        refine ⟨(hinjected.congr (huc.handler.trans hac.handler) (by rw [huline, haline])
          (Eq.trans (huc.same .clock) (hac.same .clock)) (by rw [hugate, hagate])).closes hclosed, hrate', hmark'⟩
      · obtain ⟨hmark', hrate', -, hentries, -⟩ := hpending hd hunsent (.inr (by rw [huline, haline]; exact hl))
        rw [hentry, hrate, hmark, hrate', hentries.1, hugate, hagate]
        exact ⟨rfl, rfl, hmark'⟩
      · obtain ⟨-, -, hvisit, -⟩ := hnotDue hd
        have hstill : a = s1 := feederArrival_still hsame (.inl (Bool.eq_false_iff.2 (mt (failedRun_iff r).1 hfr)))
        rw [hclosed.1, hvisit, huseq, hstill]
    · have hagate : a.gate = { s1.gate with feeder := st } := feederArrival_unstarted hstart
      have hac : OnlyChanges feederBlocks s1 a := feederArrival_changes _ _ _
      have hnotClosing : a.visitState ≠ some .closing := feederArrival_visitState hstart (by decide) hvisit
      obtain ⟨hugate, huline, huseq, husource⟩ := freedEntry_fields r.done a
      have huc := freedEntry_changes r.done a
      have htreat : treatReply e.frame s1 = freedEntry r.done a := by
        rw [treatReply_consumed hr1 (hown hm) hp, consumeReply_feeder hf1,
          replyFeeder_matched hx.1 hx.2 (by rw [hobserve, ← ha, hagate]; exact hx.1), hobserve, ho, feederOutcome_stop]
        refine closeOutOutcome_other _ ?_
        rw [State.visitState, huseq]
        exact hnotClosing
      have hclosed := endEvent_closes (freedEntry r.done a)
      obtain ⟨hentry, -, -, -, -, -, hstate⟩ := hclosed.gate
      refine takes_reply (xs := replyBlocks) h htreat (hac.mono.trans huc.mono) (by decide)
        ⟨by rw [hstate, hugate, hagate], by rw [hentry, hugate], hpaused fun _ => by rw [hclosed.1, huseq], ?_⟩
      change (endEvent (freedEntry r.done a)).ladder.sources[srcStopFault] = _
      rw [endEvent_ladder, husource]
      have hsource : a.ladder.sources[srcStopFault] = s1.ladder.sources[srcStopFault] :=
        feederArrival_source hstart srcStopFault
      rw [hsource]

end

section
/-! The REPLY to the close-out STOP (R54, R86 to R88, R94, R104). -/

set_option Elab.async false

namespace Sys2Proof.Machine

/-! ## The device state a CLOSING visit's feeder reports (R90, R91) -/

/-- Only the Gate's feeder state and rate have changed. -/
def GateStands (x : InjEntry) (after : FeederState) (s t : State) : Prop :=
  ∃ g, t = { s with gate := g } ∧ g.injFeeder = some x ∧ g.feeder = after

/-- A derate check that meets a STOP's entry injects nothing (R102). -/
theorem derateCheck_occupied {s : State} {x : InjEntry} (hx : s.gate.injFeeder = some x) (ho : x.order = .stop) :
    derateCheck s = setPendingDerate (derateDue s) s := by
  have hnone : injectOrder .feeder .rate (limitPayload s) s = none := by
    unfold injectOrder
    split
    next hfree _ _ => exact absurd (hx.symm.trans hfree) (by simp)
    · rfl
  have hsent : rateUnsent s = false := by simp [rateUnsent, hx, ho]
  unfold derateCheck
  cases derateDue s
  · rfl
  · simp only [hnone, hsent]
    rfl

theorem pauseVisit_closing (r : PauseReason) {s : State} (h : s.visitState = some .closing) : pauseVisit r s = s := by
  simp only [pauseVisit, h]

theorem pourPhase_closing {s : State} {v : Visit} (hv : s.seq.visit = some v) (hs : v.state = .closing) :
    pourPhase s = true := by
  simp [pourPhase, State.visitPours, hv, hs, VisitState.pours]

section
variable {s : State} {v : Visit} {x : InjEntry} (hv : s.seq.visit = some v) (hs : v.state = .closing)
  (hx : s.gate.injFeeder = some x) (ho : x.order = .stop)
include hv hs hx ho

/-- In a close-out the arrival of a feeder state reaches neither the visit nor a held move. -/
theorem feederArrival_closing (st : FeederState) (failedRun : Bool) :
    GateStands x st s (feederArrival st failedRun s) := by
  have hclosing {u : State} (hu : u.seq = s.seq) : u.visitState = some .closing := by
    rw [State.visitState, hu, hv, Option.map_some, hs]
  have hset : setFeeder st s = feederState st s := by
    by_cases h : st = s.gate.feeder
    · rw [setFeeder_same h, h]
      rfl
    · rw [setFeeder_changed h]
      exact testHeldMove_waits (s := feederState st s) (.inl (pourPhase_closing (s := feederState st s) hv hs))
  by_cases hr : st = .running
  · subst hr
    by_cases h : .running = s.gate.feeder
    · rw [feederArrival_still h (.inr rfl)]
      exact ⟨s.gate, rfl, hx, h.symm⟩
    · rw [feederArrival_runs failedRun h, reportRunning_checks (by rw [hclosing (u := feederState .running s) rfl]; simp)
          (by rw [hclosing (u := feederState .running s) rfl]; simp),
        derateCheck_occupied (s := feederState .running s) hx ho]
      exact ⟨_, rfl, hx, rfl⟩
  · rcases feederArrival_other hr failedRun s with he | ⟨r, he⟩
    · exact ⟨_, he.trans hset, hx, rfl⟩
    · refine ⟨(feederState st s).gate, he.trans ?_, hx, rfl⟩
      rw [hset]
      exact pauseVisit_closing r (hclosing rfl)

/-- The feeder state that a reply's device state leaves. -/
def deviceState (device : Byte) (before : FeederState) : FeederState :=
  if device = 0 then .stopped else if device = 1 then .running else if device = 2 then .fault else before

theorem observeFeeder_closing (r : ReplyForm) : GateStands x (deviceState r.device s.gate.feeder) s (observeFeeder r s) := by
  have harrives (st : FeederState) := feederArrival_closing hv hs hx ho st r.failedRun
  unfold observeFeeder FeederState.ofByte deviceState
  split_ifs
  · exact harrives .stopped
  · exact harrives .running
  · exact harrives .fault
  · exact ⟨s.gate, rfl, hx, rfl⟩

end

/-! ## The completion of the drained visit (R87) -/

theorem closeOutOutcome_closing {s : State} {v : Visit} (hv : s.seq.visit = some v) (hs : v.state = .closing) (failed : Bool) :
    closeOutOutcome failed s = completeIfEmpty (setVisit (some { v with
      state := .draining, flags := { v.flags with hardStopped := v.flags.hardStopped || failed } }) s) := by
  have hstate : s.visitState = some .closing := by rw [visitState_some hv, hs]
  simp [closeOutOutcome, hstate, enterDraining, mapVisit, hv]

theorem issue_place (r : Bool) (x : RecordBody) (s : State) : (issue r x s).place = s.place := by
  unfold issue markTest
  split <;> rfl

/-- What a completion leaves to the test of the held move and the next selection. -/
theorem completed_kept (v : Visit) (s : State) : (completed v s).place = s.place ∧ (completed v s).gate = s.gate
    ∧ (completed v s).line = s.line ∧ (completed v s).flight = s.flight
    ∧ (completed v s).ship.accounts = s.ship.accounts
    ∧ (completed v s).seq = { s.seq with visit := none, holdStates := (completed v s).seq.holdStates } := by
  obtain ⟨hseq, hship, hgate, -, -, -, hflight, -, hline⟩ :=
    issue_kept v.reserved (visitRecord s v) (setBases (visitLineAccounts s v) s)
  have hplace := issue_place v.reserved (visitRecord s v) (setBases (visitLineAccounts s v) s)
  unfold completed
  generalize issue v.reserved (visitRecord s v) (setBases (visitLineAccounts s v) s) = u at hseq hship hgate hflight hline hplace
  refine ⟨hplace, hgate, hline, hflight, (congrArg (fun x => x.accounts) hship : _), ?_⟩
  simp only [setVisit, evaluateFull, hseq]
  rfl

theorem pourPhase_emptied {s : State} (hv : s.seq.visit = none) (hf : s.flight.total = 0) : pourPhase s = false := by
  simp [pourPhase, State.visitPours, hv, hf]

theorem afterVisit_suspended {s : State} (h : s.seq.plan = .suspended) : afterVisit s = advanceCursor s := by
  simp only [afterVisit, h]

theorem afterVisit_active {s : State} (h : s.seq.plan = .active) : afterVisit s = selectVisit (advanceCursor s) := by
  simp only [afterVisit, h]

/-- The cursor's next position and the round it is in (R71). -/
def nextCursor (s : State) (p : PlanHeader) : Nat := if s.seq.cursor + 1 < p.slotCount then s.seq.cursor + 1 else 0
def nextRound (s : State) (p : PlanHeader) : Nat := if s.seq.cursor + 1 < p.slotCount then s.seq.round else s.seq.round + 1

theorem advanceCursor_eq {s : State} {p : PlanHeader} (hp : s.seq.header = some p) : advanceCursor s
    = { s with seq := { s.seq with cursor := nextCursor s p, round := nextRound s p } } := by
  by_cases hc : s.seq.cursor + 1 < p.slotCount
  · rw [advanceCursor_within hp hc, nextCursor, nextRound, if_pos hc, if_pos hc]
  · rw [advanceCursor_round hp (Nat.not_lt.1 hc), nextCursor, nextRound, if_neg hc, if_neg hc]

/-! ## What a selection reads of the ship: its accounts (R69, R72) -/

theorem newVisit_place {s t : State} (h : t.place.state = s.place.state) (i : Fin 16) (sl : Slot) (n : Nat) :
    { newVisit t i sl with round := n } = { newVisit s i sl with round := n } := by
  simp only [newVisit, h]

theorem reached_congr {s t : State} (hh : t.seq.holds = s.seq.holds) (ha : t.ship.accounts = s.ship.accounts) (h : Hold) :
    Reached t h ↔ Reached s h := by
  rw [Reached, Reached, hh, ha]

theorem slotIndex_congr {q q' : Sequencer} (ho : q'.order = q.order) (hs : q'.start = q.start) (n k : Nat) :
    slotIndex q' n k = slotIndex q n k := by
  unfold slotIndex
  rw [ho, hs]

/-- A selection after a visit, the slot at the next position being eligible (R73, R87). -/
theorem afterVisit_opens {s : State} {p : PlanHeader} {i : Fin 16} {sl : Slot} (hp : s.seq.header = some p)
    (hactive : s.seq.plan = .active) (hcount : 1 ≤ p.slotCount) (hround : nextRound s p ≤ p.roundLimit)
    (htarget : ∀ g, p.shipTarget = some g → pouredTotal s < g * 1000000)
    (hi : slotIndex s.seq p.slotCount (nextCursor s p) = i.val) (hsl : s.seq.slots[i] = some sl)
    (hfull : s.seq.holdStates[sl.hold] ≠ .full)
    (htrim : ¬ (0 < trimMoment s * armOf s sl.hold ∧ p.trimLimit * 1000000 ≤ (trimMoment s).natAbs)) :
    (afterVisit s).seq = { s.seq with
      cursor := nextCursor s p, round := nextRound s p
      visit := some { newVisit s i sl with round := nextRound s p } } := by
  rw [afterVisit_active hactive, advanceCursor_eq hp]
  set b : State := { s with seq := { s.seq with cursor := nextCursor s p, round := nextRound s p } } with hb
  exact selectVisit_opensHere (s := s) (b := b) (q := b.seq) rfl hp hcount rfl rfl rfl rfl htarget hround
    ((slotIndex_congr rfl rfl _ _).trans hi) hsl (ineligible_none hfull htrim)

end Sys2Proof.Machine

open Sys2Proof Sys2Proof.Machine

/-- Settles O35. -/
theorem closeOutReplied : Obligations.CloseOutReplied := by
  intro s e rest r x v h hr hd hp hf s1 hx hseq ho hv hs drained after replied
  obtain ⟨hready, hhandler⟩ := takeHead_D_ready e rest .reply s
  have hc1 : OnlyChanges _ s s1 := takeHead_changes .D e rest .reply s
  have hf1 : s1.station .feeder = some e.frame.src := (takeHead_D_station e rest .reply s .feeder).trans hf
  have hflight : s1.flight = s.flight := hc1.same .flight
  obtain ⟨g, hog, hgentry, hgfeeder⟩ := observeFeeder_closing hv hs hx ho r
  set o := observeFeeder r s1 with hodef
  obtain ⟨hugate, huline, huseq, husource⟩ := freedEntry_fields r.done o
  have huother := freedEntry_source r.done o
  have huc := freedEntry_changes r.done o
  set u := freedEntry r.done o with hu
  set d := setVisit (some drained) u with hddef
  have huv : u.seq.visit = some v := by rw [huseq, hog]; exact hv
  have htreat : treatReply e.frame s1 = completeIfEmpty d := by
    rw [treatReply_consumed (hready.trans hr) (by rw [hhandler]; exact hd) hp, consumeReply_feeder hf1,
      replyFeeder_matched hx hseq (by rw [← hodef, hog]; exact hgentry), ho, feederOutcome_stop]
    exact closeOutOutcome_closing huv hs (!r.done)
  have hoc : OnlyChanges feederBlocks s1 o := observeFeeder_changes r s1
  have hdc : OnlyChanges replyBlocks s1 d := (hoc.mono.trans huc.mono).trans (setVisit_changes _ _).mono
  have hdfeeder : d.gate.injFeeder = none ∧ d.gate.feeder = after := by
    change u.gate.injFeeder = none ∧ u.gate.feeder = after
    rw [hugate, hog]
    exact ⟨rfl, hgfeeder⟩
  have hdsource : r.done = false → d.ladder.sources[srcStopFault] = (s1.ladder.sources[srcStopFault]).raised := by
    intro hdone
    change u.ladder.sources[srcStopFault] = _
    rw [husource, if_neg (by simp [hdone]), hog]
  have hdflight : d.flight = s.flight := by
    rw [← hflight]
    have hou : u.flight = o.flight := huc.same .flight
    exact hou.trans (by rw [hog])
  have hreplied {t : State} (hentry : t.gate.injFeeder = d.gate.injFeeder) (hfeeder : t.gate.feeder = d.gate.feeder)
      (hsource : t.ladder.sources[srcStopFault] = d.ladder.sources[srcStopFault]) : replied t :=
    ⟨hentry.trans hdfeeder.1, hfeeder.trans hdfeeder.2, fun hdone => hsource.trans (hdsource hdone)⟩
  refine ⟨fun hpos => ?_, fun hzero => ?_⟩
  · have hfull : completeIfEmpty d = d := if_neg (by rw [hdflight]; omega)
    refine takes_reply (xs := replyBlocks) h (htreat.trans hfull) hdc (by decide) ⟨?_, by rw [endEvent_seq]; rfl⟩
    exact hreplied (endEvent_closes d).gate.1 (endEvent_closes d).gate.2.2.2.2.2.2 (by rw [endEvent_ladder])
  · have hdzero : d.flight.total = 0 := by rw [hdflight]; exact hzero
    have hcompletes : Completes drained s1 (completeIfEmpty d) := by
      refine (completeIfEmpty_completes drained d rfl hdzero).congr ?_ ?_ ?_ ?_ ?_ ?_
      · exact Eq.trans (congrArg Meter.belt (huc.meter_eq)) (by rw [hog])
      · exact huc.ship_eq.trans (by rw [hog])
      · exact huc.bills_eq.trans (by rw [hog])
      · change u.seq.holds = _
        rw [huseq, hog]
      · change u.seq.holdStates = _
        rw [huseq, hog]
      · exact (huother srcBillMark (by decide)).trans (by rw [hog])
    have hclosed := endEvent_closes (completeIfEmpty d)
    have hend : Completes drained s1 (endEvent (completeIfEmpty d)) :=
      Completes.leaves hcompletes hclosed.1 hclosed.2.2.1 hclosed.2.1 (by rw [endEvent_ladder])
    have hcc := completeIfEmpty_changes d
    have hfeederEnd : (completeIfEmpty d).gate.feeder = d.gate.feeder := hcc.same .feeder
    refine takes_reply (xs := replyBlocks) h htreat (hdc.then hcc) (by decide) ⟨hreplied ?_ ?_ ?_, hend, ?_⟩
    · exact hclosed.gate.1.trans (hcc.same .entries).1
    · exact hclosed.gate.2.2.2.2.2.2.trans hfeederEnd
    · rw [endEvent_ladder]
      exact completeIfEmpty_source d srcStopFault (by decide)
    have hcomplete : completeIfEmpty d = afterVisit (testHeldMove (completed drained d)) :=
      (if_pos hdzero).trans (completeVisit_eq drained d rfl)
    obtain ⟨hcplace, hcgate, hcline, hcflight, hcaccounts, hcseq⟩ := completed_kept drained d
    have hcstates := completed_holdStates drained d
    set c := completed drained d with hcdef
    obtain ⟨hwgate, hwseq, -⟩ := testHeldMove_kept c
    have hdplace : d.place = s1.place := by
      change u.place = s1.place
      rcases freedEntry_cases r.done o with he | he <;> rw [hu, he, hog] <;> rfl
    have hcfeeder : c.gate.feeder = after := by rw [hcgate]; exact hdfeeder.2
    have hcempty : pourPhase c = false := pourPhase_emptied (by rw [hcseq]) (by rw [hcflight]; exact hdzero)
    have hafterHeld : (afterVisit (testHeldMove c)).place.held = (testHeldMove c).place.held :=
      (afterVisit_changes _).same .held
    refine ⟨fun m hm hnot => ?_, fun hrun => ?_, fun p hheader => ?_⟩
    · obtain ⟨hnone, hwire⟩ := testHeldMove_released (s := c) (m := m) (by rw [hcplace, hdplace]; exact hm) hcempty
        (by rw [hcfeeder]; exact hnot)
      rw [endEvent_place, hcomplete, hafterHeld]
      refine ⟨hnone, fun hroom => (endEvent_keeps _).2 .D _ ((afterVisit_keeps _).2 .D _ (hwire ?_))⟩
      have hdline : d.line = s1.line := huline.trans (by rw [hog])
      rw [hcline, hdline]
      exact hroom
    · rw [endEvent_place, hcomplete, hafterHeld, testHeldMove_waits (.inr (hcfeeder.trans hrun)), hcplace, hdplace]
    · intro k round
      have hseq1 : (testHeldMove c).seq = { s1.seq with visit := none, holdStates := c.seq.holdStates } := by
        rw [hwseq, hcseq, hddef, (setVisit_fields _ _).2.2.2.2.2.2.2.2.1, huseq, hog]
      set w := testHeldMove c with hw
      have hfield {α} (f : Sequencer → α) : f w.seq = f { s1.seq with visit := none, holdStates := c.seq.holdStates } :=
        congrArg f hseq1
      have hwheader : w.seq.header = some p := (hfield Sequencer.header).trans hheader
      have hk : nextCursor w p = k := by rw [nextCursor, hfield Sequencer.cursor]
      have hround : nextRound w p = round := by rw [nextRound, hfield Sequencer.cursor, hfield Sequencer.round]
      rw [hclosed.1, hcomplete]
      refine ⟨fun hplan => ?_, fun i sl hplan hcount hlimit htarget hi hsl hreach hfull htrim => ?_⟩
      · have hwplan : w.seq.plan = .suspended := (hfield Sequencer.plan).trans hplan
        rw [afterVisit_suspended hwplan, advanceCursor_eq hwheader, hk, hround]
        exact ⟨hfield Sequencer.visit, hwplan, rfl, rfl⟩
      · have haccounts : w.ship.accounts = s.ship.accounts := by
          have hw' : w.ship.accounts = c.ship.accounts := (testHeldMove_changes c).same .accounts
          have hu' : d.ship.accounts = s1.ship.accounts := (hdc.same .accounts)
          exact hw'.trans (hcaccounts.trans (hu'.trans (hc1.same .accounts)))
        have hholds : w.seq.holds = s.seq.holds := (hfield Sequencer.holds).trans (hc1.same .planTables).1
        have hstate : w.place.state = s.place.state := by
          have hw' : w.place.state = c.place.state := ((testHeldMove_changes c).same .placement).1
          rw [hw', hcplace, hdplace]
          exact (hc1.same .placement).1
        have hnotFull : w.seq.holdStates[sl.hold] ≠ .full := by
          rw [show w.seq.holdStates = c.seq.holdStates from hfield Sequencer.holdStates, hcstates, if_neg]
          · have hds : d.seq.holdStates = s1.seq.holdStates := by
              change u.seq.holdStates = _
              rw [huseq, hog]
            rw [hds]
            exact hfull
          · rw [reachesTarget_iff, reached_congr (s := s)]
            · exact hreach
            · change u.seq.holds = _
              rw [huseq, hog]
              exact (hc1.same .planTables).1
            · exact Eq.trans (hdc.same .accounts) (hc1.same .accounts)
        have hopens := afterVisit_opens (s := w) (i := i) (sl := sl) hwheader ((hfield Sequencer.plan).trans hplan) hcount
          (by rw [hround]; exact hlimit) (by rw [pouredTotal_accounts haccounts]; exact htarget)
          (by rw [hk]; exact (slotIndex_congr (hfield Sequencer.order) (hfield Sequencer.start) _ _).trans hi)
          (by rw [hfield Sequencer.slots]; exact hsl) hnotFull
          (by rw [trimMoment_accounts hholds haccounts, armOf_holds hholds]; exact htrim)
        rw [hopens, hk, hround, newVisit_place hstate]
        exact ⟨(hfield Sequencer.plan).trans hplan, rfl, rfl, hfield Sequencer.skips, rfl⟩

end

section
/-! POSITION and HOLDSENSE samples (R42, R43, R45 to R48, R57, R58, R60, R79). -/

set_option Elab.async false

namespace Sys2Proof.Machine

/-! ## The reports of the placement state (R48, R79) -/

/-- A spout at a hold stays there or leaves it (R46). -/
theorem nextPlace_placed (t : TravelTable) (h : Hold) (c : Option Hold) :
    nextPlace t (.placed h) c = .placed h ∨ (nextPlace t (.placed h) c).placedAt = none := by
  by_cases hc : c = some h
  · exact .inl (if_pos hc)
  · refine .inr ?_
    rw [nextPlace_placed_other t hc]
    split <;> rfl

/-- The spout leaves the hold that it was placed at. -/
def LeavesPlaced (before after : PlaceState) : Prop := (∃ h, before = .placed h) ∧ ∀ h, after ≠ .placed h

theorem placedAt_none_iff (x : PlaceState) : x.placedAt = none ↔ ∀ h, x ≠ .placed h := by
  rw [Option.eq_none_iff_forall_ne_some]
  exact forall_congr' fun h => not_congr (placedAt_eq_some_iff x h)

theorem placedAt_isSome_iff (x : PlaceState) : x.placedAt.isSome = true ↔ ∃ h, x = .placed h := by
  rw [Option.isSome_iff_exists]
  exact exists_congr fun h => placedAt_eq_some_iff x h

theorem leavesPlaced_iff (before after : PlaceState) :
    (before.placedAt.isSome && after.placedAt.isNone) = true ↔ LeavesPlaced before after := by
  rw [Bool.and_eq_true, placedAt_isSome_iff, Option.isNone_iff_eq_none, placedAt_none_iff, LeavesPlaced]

theorem reportPlacement_same {before after : PlaceState} (h : after.placedAt = before.placedAt) (s : State) :
    reportPlacement before after s = s := if_pos h

theorem reportPlacement_placed {before after : PlaceState} {h : Hold} (ha : after = .placed h)
    (hb : before ≠ .placed h) (s : State) : reportPlacement before after s = reportPlaced h s := by
  subst ha
  have hne : (PlaceState.placed h).placedAt ≠ before.placedAt := fun k => hb ((placedAt_eq_some_iff before h).1 k.symm)
  unfold reportPlacement
  rw [if_neg hne]
  cases before <;> rfl

theorem reportPlacement_lost {before after : PlaceState} {h : Hold} (hb : before = .placed h)
    (ha : after.placedAt = none) (s : State) : reportPlacement before after s = reportLost h s := by
  subst hb
  have hne : after.placedAt ≠ (PlaceState.placed h).placedAt := by
    rw [ha]
    simp [PlaceState.placedAt]
  unfold reportPlacement
  rw [if_neg hne, ha]
  rfl

theorem reportPlaced_visit {s : State} {v : Visit} (h : Hold) (hv : s.seq.visit = some v) :
    (reportPlaced h s).seq.visit = some (if v.state = .waiting ∧ v.hold = h then { v with state := .armed } else v) := by
  simp only [reportPlaced, hv]
  split
  · rfl
  · exact hv

theorem reportLost_armed {s : State} {v : Visit} (hv : s.seq.visit = some v) (hs : v.state = .armed) :
    reportLost v.hold s = setVisit (some { v with state := .waiting }) s := by
  simp only [reportLost, hv, if_true, hs]

theorem reportLost_trigger {s : State} {v : Visit} (hv : s.seq.visit = some v) (hs : v.state ≠ .armed) :
    reportLost v.hold s = takeTrigger .unplaced s := by
  simp only [reportLost, hv, if_true, if_neg hs]

theorem reportLost_other {s : State} {v : Visit} {h : Hold} (hv : s.seq.visit = some v) (hh : v.hold ≠ h) :
    reportLost h s = s := by
  simp only [reportLost, hv, if_neg hh]

/-- A report that the spout has not left its hold arms a WAITING visit at most. -/
theorem reportPlacement_stays {before after : PlaceState} {s : State} (h : ¬ LeavesPlaced before after) :
    reportPlacement before after s = s
      ∨ ∃ v, s.seq.visit = some v ∧ v.state = .waiting ∧ reportPlacement before after s = setVisit (some { v with state := .armed }) s := by
  cases ha : after.placedAt with
  | none =>
    have hb : before.placedAt = none := by
      rw [placedAt_none_iff]
      intro k hk
      exact h ⟨⟨k, hk⟩, (placedAt_none_iff after).1 ha⟩
    exact .inl (reportPlacement_same (ha.trans hb.symm) s)
  | some k =>
    have hk : after = .placed k := (placedAt_eq_some_iff after k).1 ha
    by_cases hb : before = .placed k
    · exact .inl (reportPlacement_same (by rw [hk, hb]) s)
    · rw [reportPlacement_placed hk hb]
      unfold reportPlaced
      cases hv : s.seq.visit with
      | none => exact .inl rfl
      | some v =>
        simp only
        split
        next hc => exact .inr ⟨v, rfl, hc.1, rfl⟩
        · exact .inl rfl

/-! ## What becomes of the visit (R79, R84) -/

/-- The passage of the visit `v` as the placement state goes from `before` to `after`, with `n` in flight. -/
def Passage (before after : PlaceState) (s t : State) : Prop := ∀ v, s.seq.visit = some v →
  (after = .placed v.hold → t.seq.visit = some
      (if before ≠ .placed v.hold ∧ v.state = .waiting then { v with state := .armed } else v))
    ∧ (before ≠ .placed v.hold → after ≠ .placed v.hold → t.seq.visit = some v)
    ∧ (before = .placed v.hold → after ≠ .placed v.hold →
        (v.state = .armed → t.seq.visit = some { v with state := .waiting })
        ∧ (v.state = .paused → 0 < s.flight.total →
            t.seq.visit = some { v with state := .draining, endReason := some .unplaced })
        ∧ (v.state = .pouring → s.gate.injFeeder = none → s.line.d.lineFault = false → s.station .feeder ≠ none →
            t.seq.visit = some { v with state := .closing, endReason := some .unplaced })
        ∧ (v.state = .waiting ∨ v.state = .closing ∨ v.state = .draining → t.seq.visit = some v))

theorem reportPlacement_passage {before after : PlaceState} (s : State)
    (hstep : ∀ h, before = .placed h → after = .placed h ∨ after.placedAt = none) :
    Passage before after s (reportPlacement before after s) := by
  intro v hv
  refine ⟨fun ha => ?_, fun hb ha => ?_, fun hb ha => ?_⟩
  · by_cases hb : before = .placed v.hold
    · rw [reportPlacement_same (by rw [ha, hb]), if_neg (fun k => k.1 hb), hv]
    · rw [reportPlacement_placed ha hb, reportPlaced_visit _ hv]
      simp only [and_true, hb, ne_eq, not_false_eq_true, true_and]
  · cases hp : after.placedAt with
    | none =>
      cases hq : before.placedAt with
      | none => rw [reportPlacement_same (hp.trans hq.symm), hv]
      | some h =>
        have hbh : before = .placed h := (placedAt_eq_some_iff before h).1 hq
        rw [reportPlacement_lost hbh hp, reportLost_other hv (fun k => hb (k ▸ hbh)), hv]
    | some h =>
      have hah : after = .placed h := (placedAt_eq_some_iff after h).1 hp
      by_cases hbh : before = .placed h
      · rw [reportPlacement_same (by rw [hah, hbh]), hv]
      · rw [reportPlacement_placed hah hbh, reportPlaced_visit _ hv, if_neg (fun k : v.state = .waiting ∧ v.hold = h => ha (k.2 ▸ hah))]
  · have hlost : after.placedAt = none := (hstep _ hb).resolve_left ha
    rw [reportPlacement_lost hb hlost]
    refine ⟨fun hs => ?_, fun hs hz => ?_, fun hs hfree hl hst => ?_, fun hs => ?_⟩
    · rw [reportLost_armed hv hs]
      rfl
    · rw [reportLost_trigger hv (by rw [hs]; decide), takeTrigger_drains hv hs hz]
      rfl
    · obtain ⟨addr, haddr⟩ := Option.ne_none_iff_exists'.1 hst
      rw [reportLost_trigger hv (by rw [hs]; decide)]
      exact (takeTrigger_injects hv hs hfree hl haddr).2.1
    · have hignored : v.state ≠ .armed ∧ v.state ≠ .pouring ∧ v.state ≠ .paused := by
        rcases hs with hs | hs | hs <;> rw [hs] <;> decide
      rw [reportLost_trigger hv hignored.1, takeTrigger_ignored hv hignored.2.1 hignored.2.2, hv]

/-! ## Placement is evaluated (R45 to R47) -/

/-- The placement state and the pour point at their new values, no report made. -/
def placedState (s : State) : State :=
  { s with place := { s.place with
      state := nextPlace s.place.travel s.place.state (candidate s.place)
      pourPoint := pourPointOf (nextPlace s.place.travel s.place.state (candidate s.place)) s.handler.leave } }

theorem evaluatePlacement_eq (s : State) : evaluatePlacement s
    = reportPlacement s.place.state (nextPlace s.place.travel s.place.state (candidate s.place)) (placedState s) := rfl

theorem evaluatePlacement_place (s : State) : (evaluatePlacement s).place.axes = s.place.axes
    ∧ (evaluatePlacement s).place.sense = s.place.sense ∧ (evaluatePlacement s).place.travel = s.place.travel
    ∧ (evaluatePlacement s).place.envelopes = s.place.envelopes ∧ (evaluatePlacement s).place.sweep = s.place.sweep
    ∧ (evaluatePlacement s).place.state = nextPlace s.place.travel s.place.state (candidate s.place)
    ∧ (evaluatePlacement s).place.pourPoint = pourPointOf (evaluatePlacement s).place.state s.handler.leave := by
  have hc := evaluatePlacement_changes s
  obtain ⟨hstate, hpoint⟩ := (reportPlacement_changes s.place.state
    (nextPlace s.place.travel s.place.state (candidate s.place)) (placedState s)).same .placement
  refine ⟨hc.same .axes, hc.same .sense, hc.same .travel, hc.same .envelopes, hc.same .sweep, hstate, ?_⟩
  refine hpoint.trans ?_
  rw [show (evaluatePlacement s).place.state = _ from hstate]
  rfl

theorem evaluatePlacement_passage (s : State) : Passage s.place.state
    (nextPlace s.place.travel s.place.state (candidate s.place)) s (evaluatePlacement s) := by
  refine reportPlacement_passage (placedState s) fun h hh => ?_
  rw [hh]
  exact nextPlace_placed _ _ _

/-! ## The sweep test (R58, R60) -/

theorem sweepTest_none {before : PlaceState} {x : Option (Axis × Nat × Motion)} {s : State} (h : s.place.sweep = none) :
    sweepTest before x s = s := by simp only [sweepTest, h]

theorem sweepTest_leaves {before : PlaceState} {x : Option (Axis × Nat × Motion)} {s : State} {w : Sweep}
    (hw : s.place.sweep = some w) (hl : LeavesPlaced before s.place.state) : sweepTest before x s = cancelSweep s := by
  simp only [sweepTest, hw]
  exact if_pos ((leavesPlaced_iff _ _).2 hl)

theorem sweepTest_stays {before : PlaceState} {s : State} {w : Sweep} {a : Axis} {pos : Nat} {m : Motion}
    (hw : s.place.sweep = some w) (hl : ¬ LeavesPlaced before s.place.state) :
    sweepTest before (some (a, pos, m)) s = if stepCompletedBy w a pos m then completeStep w s else s := by
  simp only [sweepTest, hw]
  exact if_neg (mt (leavesPlaced_iff _ _).1 hl)

theorem sweepTest_sense {before : PlaceState} {s : State} {w : Sweep}
    (hw : s.place.sweep = some w) (hl : ¬ LeavesPlaced before s.place.state) : sweepTest before none s = s := by
  simp only [sweepTest, hw]
  exact if_neg (mt (leavesPlaced_iff _ _).1 hl)

/-- A POSITION sample shows the step's target reached (R58). -/
def Arrived (w : Sweep) (a : Axis) (pos : Nat) (m : Motion) : Prop :=
  w.phase = .awaitingPosition ∧ a = axisOf w.axis ∧ m = .still ∧ pos ≤ w.target + 50 ∧ w.target ≤ pos + 50

theorem stepCompletedBy_iff (w : Sweep) (a : Axis) (pos : Nat) (m : Motion) :
    stepCompletedBy w a pos m = true ↔ Arrived w a pos m := by
  simp [stepCompletedBy, Arrived, and_assoc]

/-- The sweep with one more step done. -/
def countStep (w : Sweep) : Sweep := { w with done := w.done + 1, remaining := w.remaining - 1 }

theorem completeStep_ends {w : Sweep} (s : State) (h : w.clipped = true ∨ w.remaining ≤ 1) :
    completeStep w s = finishSweep (if w.clipped then .clipped else .done) (countStep w) s := by
  unfold completeStep
  cases hc : w.clipped with
  | true => rfl
  | false =>
    have hr : w.remaining - 1 = 0 := by
      have := h.resolve_left (by simp [hc])
      omega
    simp only [hr, if_true, Bool.false_eq_true, if_false]
    simp only [countStep, hr, hc]

theorem completeStep_goes {w : Sweep} (s : State) (hc : w.clipped = false) (hr : 1 < w.remaining) :
    completeStep w s = beginStep (countStep w) s := by
  have hne : w.remaining - 1 ≠ 0 := by omega
  unfold completeStep
  simp only [hc, hne, if_false, Bool.false_eq_true]
  rfl

theorem finishSweep_place (o : SweepOutcome) (w : Sweep) (s : State) :
    (finishSweep o w s).place = { s.place with sweep := none } := by
  simp only [finishSweep, notice_fields, setSweep]

/-- The SWEEP_DONE notice (R62, R186). -/
def sweepDoneFrame (s : State) (o : SweepOutcome) (w : Sweep) : Frame :=
  { dst := 0, src := s.handler.ownAddr, kind := 0x41, seq := 0,
    payload := [5, o.code, (axisOf w.axis).code, byteOf w.done] }

theorem finishSweep_onWire (o : SweepOutcome) (w : Sweep) {s : State} (h : (s.line.port .U).room = true) :
    OnWire .U (sweepDoneFrame s o w) (finishSweep o w s) :=
  offer_onWire .U _ (setSweep none s) h

/-- A step whose order can be injected (R57). -/
theorem beginStep_steps {w : Sweep} {s : State} {en : Envelope} {pos : Nat} {addr : Byte} (hg : GuardsHold w.hold s)
    (he : s.place.envelopes[w.hold] = some en) (hpos : (s.place.axes.get (axisOf w.axis)).pos = some pos)
    (hle : max (en.innerLow w.axis) (s.place.travel.limits (axisOf w.axis)).low
      ≤ min (en.innerHigh w.axis) (s.place.travel.limits (axisOf w.axis)).high)
    (hfree : s.gate.entry (.drive w.axis) = none) (hl : s.line.d.lineFault = false)
    (haddr : s.station (axisOf w.axis).role = some addr) :
    (beginStep w s).place.sweep = some (stepped w s)
      ∧ Injects (.drive w.axis) .move addr (movePayload (axisOf w.axis).code (stepTarget s w)) s (beginStep w s)
      ∧ stepValue s w = (if w.plus then (pos : Int) + w.step else (pos : Int) - w.step)
      ∧ stepTarget s w = (max (max (en.innerLow w.axis) (s.place.travel.limits (axisOf w.axis)).low : Int)
          (min (min (en.innerHigh w.axis) (s.place.travel.limits (axisOf w.axis)).high : Int)
            (if w.plus then (pos : Int) + w.step else (pos : Int) - w.step))).toNat := by
  obtain ⟨s', hinject, hinjects⟩ := injectOrder_injects (.drive w.axis) .move
    (movePayload (axisOf w.axis).code (stepTarget s w)) (drawn s) addr hfree hl ((destRole_drive w.axis).symm ▸ haddr)
  rw [beginStep_injected hg hinject]
  exact ⟨rfl, hinjects, stepTarget_eq he hpos hle⟩

/-- An evaluation by which the spout does not leave its hold arms a WAITING visit at most. -/
theorem evaluatePlacement_stays {s : State}
    (h : ¬ LeavesPlaced s.place.state (nextPlace s.place.travel s.place.state (candidate s.place))) :
    (evaluatePlacement s).gate = s.gate ∧ (evaluatePlacement s).line = s.line
      ∧ (evaluatePlacement s).handler = s.handler ∧ (evaluatePlacement s).stations = s.stations
      ∧ (evaluatePlacement s).now = s.now ∧ pourPhase (evaluatePlacement s) = pourPhase s := by
  rw [evaluatePlacement_eq]
  rcases reportPlacement_stays (s := placedState s) h with he | ⟨v, hv, hs, he⟩ <;> rw [he]
  · exact ⟨rfl, rfl, rfl, rfl, rfl, rfl⟩
  · refine ⟨rfl, rfl, rfl, rfl, rfl, ?_⟩
    have hpours : s.visitPours = false := visitPours_false (s := s) hv (.inl hs)
    have hpours' : (setVisit (some { v with state := .armed }) (placedState s)).visitPours = false :=
      visitPours_false rfl (.inr rfl)
    rw [pourPhase, pourPhase, hpours, hpours']
    rfl

/-! ## A taken sample -/

/-- The sample recorded, placement not yet evaluated. -/
def sampledState (ax : Axes) (se : Option SenseResult) (s : State) : State :=
  { s with place := { s.place with axes := ax, sense := se } }

theorem candidate_congr {p p' : Placement} (ha : p'.axes = p.axes) (hs : p'.sense = p.sense)
    (he : p'.envelopes = p.envelopes) : candidate p' = candidate p := by
  have hinside : insideHold p' = insideHold p := by
    funext h
    rw [insideHold, insideHold, ha, he]
  rw [candidate, candidate, hs, hinside]

theorem axes_put_get (ax : Axes) (a : Axis) (x : AxisState) : (ax.put a x).get a = x := by cases a <;> rfl

theorem forward_D_place (f : Frame) (s : State) (h : f.kind ≠ kindOrder) : (forward .D f s).place = s.place := by
  unfold forward
  rw [if_neg h]
  split <;> rfl

section
variable {s s1 : State} {ax : Axes} {se : Option SenseResult} {x : Option (Axis × Nat × Motion)}

/-- The placement that a taken sample leaves. -/
def sampledTest (ax : Axes) (se : Option SenseResult) (x : Option (Axis × Nat × Motion)) (s : State) : State :=
  sweepTest s.place.state x (evaluatePlacement (sampledState ax se s))

/-- The placement state after the sample. -/
def sampledPlace (ax : Axes) (se : Option SenseResult) (p : Placement) : PlaceState :=
  nextPlace p.travel p.state (candidate { p with axes := ax, sense := se })

variable (hstate : s1.place.state = s.place.state) (htravel : s1.place.travel = s.place.travel)
  (henv : s1.place.envelopes = s.place.envelopes)
include hstate htravel henv

theorem sampledPlace_congr : sampledPlace ax se s1.place = sampledPlace ax se s.place := by
  rw [sampledPlace, sampledPlace, hstate, htravel]
  exact congrArg _ (candidate_congr rfl rfl henv)

/-- What a taken sample leaves of the placement (R45 to R47). -/
theorem sampledTest_place (hh : s1.handler = s.handler) : (sampledTest ax se x s1).place.axes = ax
    ∧ (sampledTest ax se x s1).place.sense = se
    ∧ (sampledTest ax se x s1).place.state = sampledPlace ax se s.place
    ∧ (sampledTest ax se x s1).place.pourPoint = pourPointOf (sampledTest ax se x s1).place.state s.handler.leave := by
  obtain ⟨haxes, hsense, -, -, -, hplace, hpoint⟩ := evaluatePlacement_place (sampledState ax se s1)
  have hc := sweepTest_changes s1.place.state x (evaluatePlacement (sampledState ax se s1))
  obtain ⟨hplace', hpoint'⟩ := hc.same .placement
  have hnew : (sampledTest ax se x s1).place.state = sampledPlace ax se s1.place := hplace'.trans hplace
  refine ⟨Eq.trans (hc.same .axes) haxes, Eq.trans (hc.same .sense) hsense,
    hnew.trans (sampledPlace_congr hstate htravel henv), ?_⟩
  have hleave : s.handler.leave = (sampledState ax se s1).handler.leave := (congrArg Handler.leave hh).symm
  refine hpoint'.trans (hpoint.trans ?_)
  rw [hleave]
  exact congrArg (pourPointOf · _) hplace'.symm

theorem sampledTest_passage {t : State} (ht : t.seq = (sampledTest ax se x s1).seq) :
    Passage s.place.state (sampledPlace ax se s.place) s1 t := by
  have hpassage : Passage s1.place.state (sampledPlace ax se s1.place) (sampledState ax se s1)
      (evaluatePlacement (sampledState ax se s1)) := evaluatePlacement_passage (sampledState ax se s1)
  have hsame : t.seq.visit = (evaluatePlacement (sampledState ax se s1)).seq.visit := by
    rw [ht]
    exact (sweepTest_changes s1.place.state x (evaluatePlacement (sampledState ax se s1))).same .visit
  rw [sampledPlace_congr hstate htravel henv, hstate] at hpassage
  intro v hv
  rw [hsame]
  exact hpassage v hv

/-- A sample by which the spout leaves its hold cancels the sweep (R60). -/
theorem sampledTest_cancels {w : Sweep} (hw : s1.place.sweep = some w)
    (hl : LeavesPlaced s.place.state (sampledPlace ax se s.place)) :
    (sampledTest ax se x s1).place.sweep = none ∧ (sampledTest ax se x s1).gate.entry (.drive w.axis) = none := by
  obtain ⟨-, -, -, -, hsweep, hplace, -⟩ := evaluatePlacement_place (sampledState ax se s1)
  have hnew : (evaluatePlacement (sampledState ax se s1)).place.state = sampledPlace ax se s.place :=
    hplace.trans (sampledPlace_congr hstate htravel henv)
  have hws : (evaluatePlacement (sampledState ax se s1)).place.sweep = some w := hsweep.trans hw
  obtain ⟨hnone, hentry, -⟩ := cancelSweep_some hws
  rw [sampledTest, sweepTest_leaves hws (by rw [hstate, hnew]; exact hl), hnone]
  exact ⟨rfl, hentry⟩

end

/-- The frames and the state around a taken sample, for both kinds (R42, R43). -/
theorem sampledTest_sampled {s : State} {e : RxEntry} {rest : List RxEntry} {row : Instr} {ax : Axes}
    {se : Option SenseResult} {x : Option (Axis × Nat × Motion)} {s1 t : State} (hs1 : takeHead .D e rest row s = s1)
    (ht : endEvent (forward .D e.frame (sampledTest ax se x s1)) = t) (hk : e.frame.kind ≠ kindOrder) :
    (t.place.axes = ax ∧ t.place.sense = se ∧ t.place.state = sampledPlace ax se s.place
        ∧ t.place.pourPoint = pourPointOf t.place.state s.handler.leave)
      ∧ Passage s.place.state t.place.state s1 t
      ∧ (∀ w, s.place.sweep = some w → LeavesPlaced s.place.state t.place.state →
          t.place.sweep = none ∧ t.gate.entry (.drive w.axis) = none) := by
  have hc1 : OnlyChanges _ s s1 := hs1 ▸ takeHead_changes .D e rest row s
  have hstate : s1.place.state = s.place.state := (hc1.same .placement).1
  have htravel : s1.place.travel = s.place.travel := hc1.same .travel
  have henv : s1.place.envelopes = s.place.envelopes := hc1.same .envelopes
  have hsweep : s1.place.sweep = s.place.sweep := hc1.same .sweep
  have hplace : t.place = (sampledTest ax se x s1).place := by
    rw [← ht, endEvent_place, forward_D_place _ _ hk]
  have hclosed : Closes (sampledTest ax se x s1) t := ht ▸ forward_D_end_closes _ _ hk
  have hall := sampledTest_place (x := x) hstate htravel henv (se := se) (ax := ax) hc1.handler
  have hnew : t.place.state = sampledPlace ax se s.place := by rw [hplace]; exact hall.2.2.1
  refine ⟨by rw [hplace]; exact hall, ?_, fun w hw hl => ?_⟩
  · rw [hnew]
    exact sampledTest_passage hstate htravel henv hclosed.1
  · rw [hnew] at hl
    obtain ⟨hnone, hentry⟩ := sampledTest_cancels (x := x) hstate htravel henv (hsweep.trans hw) hl
    rw [hplace, hclosed.entry]
    exact ⟨hnone, hentry⟩

theorem treatPosition_taken {f : Frame} {s : State} {a : Axis} {pos : Nat} {m : Motion}
    (hp : parseSample f.payload = some (.position a pos m)) (hf : s.fromRole a.role f = true) :
    treatPosition f s = forward .D f (takePosition a pos m s) := by
  simp only [treatPosition, hp, hf, if_true]

theorem treatSense_taken {f : Frame} {s : State} {r : SenseResult}
    (hp : parseSample f.payload = some (.holdsense r)) (hf : s.fromRole .holdsense f = true) :
    treatSense f s = forward .D f (takeSense r s) := by
  simp only [treatSense, hp, hf, if_true]

end Sys2Proof.Machine

open Sys2Proof Sys2Proof.Machine

/-- Settles O31. -/
theorem placementSamplesTaken : Obligations.PlacementSamplesTaken := by
  intro s e rest before passage leaves cancelled
  have hpassage {row : Instr} {s1 t : State} (hs1 : takeHead .D e rest row s = s1)
      (h : Passage s.place.state t.place.state s1 t) : passage s1 t := by
    have hflight : s1.flight = s.flight := hs1 ▸ (takeHead_changes .D e rest row s).same .flight
    have hst : s1.station .feeder = s.station .feeder := hs1 ▸ takeHead_D_station e rest row s .feeder
    rw [Passage, hflight, hst] at h
    exact h
  refine ⟨fun a pos m h hp hf => ?_, fun r h hp hf => ?_⟩
  · intro s1 after
    obtain ⟨-, hkind, -⟩ := inspect_D_sample h.2 (by simp) (by simp) (by simp)
    have hk := kindSample_ne_order hkind
    have hc1 : OnlyChanges _ s s1 := takeHead_changes .D e rest .positionSample s
    have haxes : s1.place.axes = s.place.axes := hc1.same .axes
    have hsense : s1.place.sense = s.place.sense := hc1.same .sense
    have hsweep : s1.place.sweep = s.place.sweep := hc1.same .sweep
    have hrole : s1.fromRole a.role e.frame = true :=
      (fromRole_iff _ _ _).2 ((takeHead_D_station e rest .positionSample s a.role).trans hf)
    have htaken : takePosition a pos m s1 = sampledTest after.axes s.place.sense (some (a, pos, m)) s1 := by
      rw [← hsense, show after.axes = s1.place.axes.put a { pos := some pos, motion := some m } by rw [haxes]]
      rfl
    refine takes_of (xs := placementBlocks) treatPosition h rfl (treatPosition_changes _ _) (by decide) ?_
    rw [treatPosition_taken hp hrole]
    set t := endEvent (forward .D e.frame (takePosition a pos m s1)) with ht
    obtain ⟨⟨htaxes, htsense, htstate, htpoint⟩, htpassage, htcancels⟩ := sampledTest_sampled
      (t := t) (s1 := s1) (row := .positionSample) rfl
      (by rw [ht, htaken]) hk
    refine ⟨htaxes, htsense, htstate, htpoint, forward_D_offered _ _, hpassage (row := .positionSample) rfl htpassage,
      htcancels, fun w hw hstays => ?_⟩
    obtain ⟨heaxes, -, hetravel, heenv, hesweep, hestate, -⟩ := evaluatePlacement_place (sampledState after.axes s.place.sense s1)
    have hkept := evaluatePlacement_stays (s := sampledState after.axes s.place.sense s1)
    set E := evaluatePlacement (sampledState after.axes s.place.sense s1) with hE
    have hclosed : Closes (takePosition a pos m s1) t := ht ▸ forward_D_end_closes _ _ hk
    have htplace : t.place = (takePosition a pos m s1).place := by rw [ht, endEvent_place, forward_D_place _ _ hk]
    have hnew : t.place.state = E.place.state := by
      rw [htplace, htaken]
      exact ((sweepTest_changes _ _ _).same .placement).1
    have hws : E.place.sweep = some w := hesweep.trans (hsweep.trans hw)
    have hstays' : ¬ LeavesPlaced s1.place.state E.place.state := by
      rw [(hc1.same .placement).1, ← hnew]
      exact hstays
    obtain ⟨hegate, heline, hehandler, hestations, henow, hepours⟩ := hkept (by rw [← hestate]; exact hstays')
    have htest : takePosition a pos m s1 = if stepCompletedBy w a pos m then completeStep w E else E := by
      rw [htaken, sampledTest, sweepTest_stays hws hstays']
    intro arrived
    refine ⟨fun hnot => ?_, fun harr hends => ?_, fun en addr harr hclip hmore hpours hen hfree hl haddr => ?_⟩
    · rw [htplace, htest, if_neg (mt (stepCompletedBy_iff w a pos m).1 hnot), hws]
    · have hdone : takePosition a pos m s1 = finishSweep (if w.clipped then .clipped else .done) (countStep w) E := by
        rw [htest, if_pos ((stepCompletedBy_iff w a pos m).2 harr), completeStep_ends E hends]
      refine ⟨by rw [htplace, hdone, finishSweep_place], fun hroom => ?_⟩
      have hwire := finishSweep_onWire (if w.clipped then .clipped else .done) (countStep w) (s := E)
        (by rw [heline]; exact hroom)
      rw [← hdone] at hwire
      have hframe : sweepDoneFrame E (if w.clipped then .clipped else .done) (countStep w) = sweepDoneFrame s
          (if w.clipped then .clipped else .done) (countStep w) := by
        rw [sweepDoneFrame, hehandler]
        exact congrArg (fun x : Handler => sweepDoneFrame { s with handler := x } _ (countStep w)) hc1.handler
      have hcode : (if w.clipped then SweepOutcome.clipped else .done).code = if w.clipped then 2 else 1 := by
        cases w.clipped <;> rfl
      rw [hframe, sweepDoneFrame, hcode, show (axisOf (countStep w).axis) = a from harr.2.1.symm] at hwire
      exact hclosed.2.2.2.2.2.2.2.2.2.2.2 .U _ hwire
    · intro low high v target hle
      have haxis : a = axisOf w.axis := harr.2.1
      have hgoes : takePosition a pos m s1 = beginStep (countStep w) E := by
        rw [htest, if_pos ((stepCompletedBy_iff w a pos m).2 harr), completeStep_goes E hclip hmore]
      have htr : E.place.travel = s.place.travel := hetravel.trans (hc1.same .travel)
      have hev : E.place.envelopes = s.place.envelopes := heenv.trans (hc1.same .envelopes)
      have hpos : (E.place.axes.get (axisOf (countStep w).axis)).pos = some pos := by
        rw [heaxes, show axisOf (countStep w).axis = a from haxis.symm]
        exact congrArg AxisState.pos (axes_put_get s.place.axes a _)
      have hstation : E.station (axisOf (countStep w).axis).role = some addr := by
        rw [State.station, hestations, show axisOf (countStep w).axis = a from haxis.symm]
        exact (takeHead_D_station e rest .positionSample s a.role).trans haddr
      obtain ⟨hsteps, hinjects, hvalue, htarget⟩ := beginStep_steps (w := countStep w) (s := E) (en := en) (pos := pos)
        (addr := addr) (fun hp => by cases (hepours.trans hpours).symm.trans hp) (by rw [hev]; exact hen) hpos
        (by rw [htr]; exact haxis ▸ hle) (by rw [hegate]; exact hfree) (by rw [heline]; exact hl) hstation
      have hv : stepValue E (countStep w) = v := hvalue
      have ht' : stepTarget E (countStep w) = target := by
        rw [htarget, ← hvalue, hv, htr]
        simp only [target, low, high, haxis]
        push_cast
        rfl
      rw [htplace, hgoes, hsteps]
      refine ⟨?_, ?_⟩
      · have hnow : E.now = s.now := henow.trans (hc1.same .clock)
        simp only [stepped, hv, ht', hnow, htr]
        rfl
      · rw [ht', hgoes.symm, show axisOf (countStep w).axis = a from haxis.symm] at hinjects
        exact (hinjects.congr hehandler (by rw [heline]) henow (by rw [hegate])).closes hclosed
  · intro s1
    obtain ⟨-, hkind, -⟩ := inspect_D_sample h.2 (by simp) (by simp) (by simp)
    have hk := kindSample_ne_order hkind
    have hc1 : OnlyChanges _ s s1 := takeHead_changes .D e rest .holdsenseSample s
    have haxes : s1.place.axes = s.place.axes := hc1.same .axes
    have hsweep : s1.place.sweep = s.place.sweep := hc1.same .sweep
    have hrole : s1.fromRole .holdsense e.frame = true :=
      (fromRole_iff _ _ _).2 ((takeHead_D_station e rest .holdsenseSample s .holdsense).trans hf)
    have htaken : takeSense r s1 = sampledTest s.place.axes (some r) none s1 := by
      rw [← haxes]
      rfl
    refine takes_of (xs := placementBlocks) treatSense h rfl (treatSense_changes _ _) (by decide) ?_
    rw [treatSense_taken hp hrole]
    set t := endEvent (forward .D e.frame (takeSense r s1)) with ht
    obtain ⟨⟨htaxes, htsense, htstate, htpoint⟩, htpassage, htcancels⟩ := sampledTest_sampled
      (t := t) (s1 := s1) (row := .holdsenseSample) rfl
      (by rw [ht, htaken]) hk
    refine ⟨htsense, htaxes, htstate, htpoint, forward_D_offered _ _, hpassage (row := .holdsenseSample) rfl htpassage,
      htcancels, fun w hw hstays => ?_⟩
    obtain ⟨-, -, -, -, hesweep, hestate, -⟩ := evaluatePlacement_place (sampledState s.place.axes (some r) s1)
    have hnew : t.place.state = (evaluatePlacement (sampledState s.place.axes (some r) s1)).place.state := by
      rw [ht, endEvent_place, forward_D_place _ _ hk, htaken]
      exact ((sweepTest_changes _ _ _).same .placement).1
    have hws := hesweep.trans (hsweep.trans hw)
    have hstays' : ¬ LeavesPlaced s1.place.state (evaluatePlacement (sampledState s.place.axes (some r) s1)).place.state := by
      rw [(hc1.same .placement).1, ← hnew]
      exact hstays
    rw [ht, endEvent_place, forward_D_place _ _ hk, htaken, sampledTest, sweepTest_sense hws hstays', hws]

end

section
/-! DUST samples (R112 to R123). -/

set_option Elab.async false

namespace Sys2Proof.Machine

/-! ## Steps that touch one sensor and a few sources -/

/-- From `s` to `u` sensor `i` has become `y`, the sources `js` may have changed, and nothing else has. -/
def SensorStep (i : SensorNo) (y : Sensor) (js : List SourceNo) (s u : State) : Prop :=
  u.dust.sensors = upd s.dust.sensors i y
    ∧ u = ({ s with dust := { s.dust with sensors := u.dust.sensors } } : State).aside s.line.u u.ladder
    ∧ LeavesSources js s u

section
variable {i : SensorNo} {y z : Sensor} {js ks : List SourceNo} {s u w : State}

theorem SensorStep.sensor (h : SensorStep i y js s u) : u.dust.sensors[i] = y := by
  rw [h.1]
  exact upd_get ..

theorem SensorStep.others (h : SensorStep i y js s u) {j : SensorNo} (hj : j ≠ i) :
    u.dust.sensors[j] = s.dust.sensors[j] := by
  rw [h.1]
  exact upd_get_ne _ _ _ _ (Ne.symm hj)

theorem SensorStep.trans (h : SensorStep i y js s u) (k : SensorStep i z ks u w) (hj : ∀ j ∈ js, j ∈ ks := by simp) :
    SensorStep i z ks s w := by
  obtain ⟨hsensors, haside, hsources⟩ := h
  obtain ⟨ksensors, kaside, ksources⟩ := k
  refine ⟨?_, ?_, (hsources.mono hj).trans ksources⟩
  · rw [ksensors, hsensors]
    exact Vector.set_set ..
  · rw [kaside, haside]
    rfl

theorem SensorStep.mono (h : SensorStep i y js s u) (hj : ∀ j ∈ js, j ∈ ks := by simp) : SensorStep i y ks s u :=
  ⟨h.1, h.2.1, h.2.2.mono hj⟩

theorem setSensor_step (i : SensorNo) (y : Sensor) (js : List SourceNo) (s : State) : SensorStep i y js s (setSensor i y s) :=
  ⟨rfl, rfl, .ladder⟩

theorem sensor_step_refl (i : SensorNo) (js : List SourceNo) (s : State) : SensorStep i s.dust.sensors[i] js s s :=
  ⟨(Vector.set_getElem_self i.isLt).symm, rfl, .refl _ _⟩

theorem SensorStep.cond (h : SensorStep i y js s u) (j : SourceNo) (b : Bool) (hj : j ∈ js := by simp) :
    SensorStep i y js s (setCond j b u) := by
  obtain ⟨hsensors, haside, hsources⟩ := h
  refine ⟨hsensors, ?_, hsources.trans ((setCond_source j b u).mono (by simpa using hj))⟩
  have hcond : setCond j b u = u.aside u.line.u (setCond j b u).ladder := rfl
  rw [hcond, haside]
  rfl

theorem SensorStep.raise (h : SensorStep i y js s u) (j : SourceNo) (hj : j ∈ js := by simp) :
    SensorStep i y js s (raise j u) := by
  obtain ⟨hsensors, haside, hsources⟩ := h
  refine ⟨hsensors, ?_, hsources.trans ((raise_source j u).mono (by simpa using hj))⟩
  have hraise : Machine.raise j u = u.aside u.line.u (Machine.raise j u).ladder := rfl
  rw [hraise, haside]
  rfl

/-- The bands, formed again after the step (R121). -/
theorem SensorStep.bands (h : SensorStep i y js s u) (hc : srcCloseoutNotIssued ∉ js) (hm : srcBillMark ∉ js) :
    BandsFormed s (reformBands u) := by
  obtain ⟨-, haside, hsources⟩ := h
  refine BandsFormed.aside (u := s.line.u) (l := u.ladder) u.dust.sensors ?_ (hsources _ hc) (hsources _ hm)
  rw [← haside]
  exact reformBands_formed u

end

theorem setCond_same (j : SourceNo) (b : Bool) (s : State) :
    (setCond j b s).ladder.sources[j] = (s.ladder.sources[j]).withCond b := by
  rw [(setCond_fields _ _ _).2.2.2.2.2.2.2.2.2.2.2.1, put_source, if_pos rfl]

/-! ## The sample's parts (R113 to R119) -/

section
variable (i : SensorNo) (en : SensorEntry) (c : Nat) (s : State)

theorem restartSensor_step (hen : (s.dust.sensors[i]).entry = some en) (hon : en.enabled = true) (hr : s.ready = true) :
    SensorStep i { s.dust.sensors[i] with timer := some (s.now + en.silenceTime) } [] s (restartSensor i s) := by
  have heq : restartSensor i s = setSensor i { s.dust.sensors[i] with timer := some (s.now + en.silenceTime) } s := by
    simp only [restartSensor, hen]
    exact if_pos (by simp [hr, hon])
  rw [heq]
  exact setSensor_step _ _ _ _

/-- The sensor with the sample's average and band (R113, R114). -/
def averaged (x : Sensor) : Sensor :=
  { x with a16 := nextA16 x.a16 c en.shift, avgBand := nextAvgBand en x.avgBand (nextA16 x.a16 c en.shift / 16) }

theorem averageSensor_eq : averageSensor i en c s = setCond (srcDustHigh i)
    ((averaged en c s.dust.sensors[i]).avgBand == .high) (setSensor i (averaged en c s.dust.sensors[i]) s) := rfl

theorem averageSensor_step : SensorStep i (averaged en c s.dust.sensors[i]) [srcDustHigh i] s (averageSensor i en c s) := by
  rw [averageSensor_eq]
  exact (setSensor_step i _ [srcDustHigh i] s).cond _ _

theorem averageSensor_source : (averageSensor i en c s).ladder.sources[srcDustHigh i]
    = (s.ladder.sources[srcDustHigh i]).withCond ((averaged en c s.dust.sensors[i]).avgBand == .high) := by
  rw [averageSensor_eq, setCond_same]
  rfl

/-- The sensor with the sample's run count and `b` for its latch (R116). -/
def counted (b : Bool) (x : Sensor) : Sensor := { x with run := nextRun en x.run c, latch := b }

/-- The latch that the sample sets. -/
theorem tripSensor_sets (h : trips en (s.dust.sensors[i]).run c = true) :
    SensorStep i (counted en c true s.dust.sensors[i]) [srcDustTrip i] s (tripSensor i en c s)
      ∧ (tripSensor i en c s).ladder.sources[srcDustTrip i] = (s.ladder.sources[srcDustTrip i]).withCond true := by
  have heq : tripSensor i en c s
      = setCond (srcDustTrip i) true (setSensor i (counted en c true s.dust.sensors[i]) s) := by
    simp only [tripSensor, h, if_true, Bool.or_true, counted]
  rw [heq]
  exact ⟨(setSensor_step i _ [srcDustTrip i] s).cond _ _, setCond_same _ _ _⟩

/-- A sample that does not set the latch makes the release test (R117). -/
theorem tripSensor_tests (h : trips en (s.dust.sensors[i]).run c = false) : tripSensor i en c s
    = releaseTest i (setSensor i (counted en c (s.dust.sensors[i]).latch s.dust.sensors[i]) s) := by
  simp only [tripSensor, h, Bool.or_false, counted]
  rfl

theorem tripSensor_releases (h : trips en (s.dust.sensors[i]).run c = false)
    (hs : (s.ladder.state (srcDustTrip i)).holds = false) (hf : LatchFalls i s) :
    SensorStep i (counted en c false s.dust.sensors[i]) [srcDustTrip i] s (tripSensor i en c s)
      ∧ (tripSensor i en c s).ladder.sources[srcDustTrip i] = (s.ladder.sources[srcDustTrip i]).withCond false := by
  set u := setSensor i (counted en c (s.dust.sensors[i]).latch s.dust.sensors[i]) s with hu
  have hsensor : u.dust.sensors[i] = counted en c (s.dust.sensors[i]).latch s.dust.sensors[i] := by
    rw [hu, setSensor_get, if_pos rfl]
  have hfalls : LatchFalls i u := by
    rw [LatchFalls, hsensor]
    exact hf
  have heq : tripSensor i en c s = setCond (srcDustTrip i) false (setSensor i (counted en c false s.dust.sensors[i]) u) := by
    rw [tripSensor_tests i en c s h, ← hu, releaseTest_falls (s := u) hs hfalls, hsensor]
    rfl
  rw [heq]
  exact ⟨((setSensor_step i _ [] s).trans (setSensor_step i _ [srcDustTrip i] u)).cond _ _, setCond_same _ _ _⟩

theorem tripSensor_stays (h : trips en (s.dust.sensors[i]).run c = false)
    (hs : (s.ladder.state (srcDustTrip i)).holds = true ∨ ¬ LatchFalls i s) :
    SensorStep i (counted en c (s.dust.sensors[i]).latch s.dust.sensors[i]) [srcDustTrip i] s (tripSensor i en c s)
      ∧ (tripSensor i en c s).ladder.sources[srcDustTrip i] = s.ladder.sources[srcDustTrip i] := by
  set u := setSensor i (counted en c (s.dust.sensors[i]).latch s.dust.sensors[i]) s with hu
  have hsensor : u.dust.sensors[i] = counted en c (s.dust.sensors[i]).latch s.dust.sensors[i] := by
    rw [hu, setSensor_get, if_pos rfl]
  have hstays : (u.ladder.state (srcDustTrip i)).holds = true ∨ ¬ LatchFalls i u := by
    refine hs.imp_right fun hn hf => hn ?_
    rw [LatchFalls, hsensor] at hf
    exact hf
  have heq : tripSensor i en c s = u := by rw [tripSensor_tests i en c s h, ← hu, releaseTest_stays hstays]
  rw [heq]
  exact ⟨setSensor_step i _ _ s, rfl⟩

theorem hearSensor_step : SensorStep i { s.dust.sensors[i] with silent := false } [srcSensorSilent i] s (hearSensor i s)
    ∧ (hearSensor i s).ladder.sources[srcSensorSilent i] = (s.ladder.sources[srcSensorSilent i]).withCond false :=
  ⟨(setSensor_step i _ [srcSensorSilent i] s).cond _ _, setCond_same _ _ _⟩

theorem silenceSensor_step : SensorStep i { s.dust.sensors[i] with silent := true } [srcSensorSilent i] s (silenceSensor i s)
    ∧ (silenceSensor i s).ladder.sources[srcSensorSilent i] = (if (s.dust.sensors[i]).silent
        then (s.ladder.sources[srcSensorSilent i]).withCond true
        else ((s.ladder.sources[srcSensorSilent i]).withCond true).raised) := by
  have hcond := (setSensor_step i { s.dust.sensors[i] with silent := true } [srcSensorSilent i] s).cond (srcSensorSilent i) true
  unfold silenceSensor
  simp only
  split
  · exact ⟨hcond, setCond_same _ _ _⟩
  · exact ⟨hcond.raise _, (raise_same _ _).trans (congrArg Source.raised (setCond_same _ _ _))⟩

/-- The alarms of a sample with head status OK (R115, R116). -/
theorem dustAlarms_step (before : Sensor) : SensorStep i s.dust.sensors[i] [srcDustHigh i, srcDustTrip i] s (dustAlarms i en before c s) := by
  have hrefl := sensor_step_refl i [srcDustHigh i, srcDustTrip i] s
  unfold dustAlarms
  simp only
  split
  · split
    · exact (hrefl.raise _).raise _
    · exact hrefl.raise _
  · split
    · exact hrefl.raise _
    · exact hrefl

end

theorem dustSources_apart (i : SensorNo) : srcDustHigh i ≠ srcDustTrip i ∧ srcDustHigh i ≠ srcSensorSilent i
    ∧ srcDustTrip i ≠ srcSensorSilent i := by
  revert i
  decide

theorem dustAlarms_sources (i : SensorNo) (en : SensorEntry) (before : Sensor) (c : Nat) (s : State) :
    (dustAlarms i en before c s).ladder.sources[srcDustHigh i]
        = (if before.avgBand ≠ .high ∧ (s.dust.sensors[i]).avgBand = .high
            then (s.ladder.sources[srcDustHigh i]).raised else s.ladder.sources[srcDustHigh i])
      ∧ (dustAlarms i en before c s).ladder.sources[srcDustTrip i]
        = (if trips en before.run c then (s.ladder.sources[srcDustTrip i]).raised else s.ladder.sources[srcDustTrip i]) := by
  obtain ⟨hne, -, -⟩ := dustSources_apart i
  set u := if before.avgBand != .high && (s.dust.sensors[i]).avgBand == .high then raise (srcDustHigh i) s else s with hu
  have heq : dustAlarms i en before c s = if trips en before.run c then raise (srcDustTrip i) u else u := rfl
  have hcond : (before.avgBand != .high && (s.dust.sensors[i]).avgBand == .high) = true
      ↔ before.avgBand ≠ .high ∧ (s.dust.sensors[i]).avgBand = .high := by simp
  have hhigh : u.ladder.sources[srcDustHigh i] = (if before.avgBand ≠ .high ∧ (s.dust.sensors[i]).avgBand = .high
      then (s.ladder.sources[srcDustHigh i]).raised else s.ladder.sources[srcDustHigh i]) := by
    by_cases hc : before.avgBand ≠ .high ∧ (s.dust.sensors[i]).avgBand = .high
    · rw [hu, if_pos (hcond.2 hc), if_pos hc, raise_same]
    · rw [hu, if_neg (mt hcond.1 hc), if_neg hc]
  have htrip : u.ladder.sources[srcDustTrip i] = s.ladder.sources[srcDustTrip i] := by
    rw [hu]
    split
    · exact raise_source _ _ _ (by simpa using hne.symm)
    · rfl
  rw [heq]
  split
  · exact ⟨(raise_source _ _ _ (by simpa using hne)).trans hhigh, by rw [raise_same, htrip]⟩
  · exact ⟨hhigh, htrip⟩

/-! ## A sample with head status OK (R113 to R119) -/

/-- The sensor after such a sample, `b` its latch. -/
def heard (en : SensorEntry) (c : Nat) (b : Bool) (x : Sensor) : Sensor :=
  { counted en c b (averaged en c x) with silent := false }

section
variable {i : SensorNo} {en : SensorEntry} {c : Nat} {s u : State} {b : Bool} {z : Source}

/-- From the trip test on: the sensor is heard, then the alarms are raised. -/
theorem heard_step (ht : SensorStep i (counted en c b (averageSensor i en c s).dust.sensors[i]) [srcDustTrip i]
      (averageSensor i en c s) u) :
    SensorStep i (heard en c b s.dust.sensors[i]) [srcDustHigh i, srcDustTrip i, srcSensorSilent i] s
      (dustAlarms i en s.dust.sensors[i] c (hearSensor i u)) := by
  have ha := averageSensor_step i en c s
  rw [ha.sensor] at ht
  obtain ⟨hh, -⟩ := hearSensor_step i u
  rw [ht.sensor] at hh
  have hd := dustAlarms_step i en c (hearSensor i u) s.dust.sensors[i]
  rw [hh.sensor] at hd
  have ha' := ha.mono (ks := [srcDustHigh i, srcDustTrip i, srcSensorSilent i])
  have ht' := ha'.trans (ht.mono (ks := [srcDustHigh i, srcDustTrip i, srcSensorSilent i]))
  have hh' := ht'.trans (hh.mono (ks := [srcDustHigh i, srcDustTrip i, srcSensorSilent i]))
  exact hh'.trans (hd.mono (ks := [srcDustHigh i, srcDustTrip i, srcSensorSilent i]))

theorem heard_sources (ht : SensorStep i (counted en c b (averageSensor i en c s).dust.sensors[i]) [srcDustTrip i]
      (averageSensor i en c s) u) (hz : u.ladder.sources[srcDustTrip i] = z) :
    let w := dustAlarms i en s.dust.sensors[i] c (hearSensor i u)
    let band := (averaged en c s.dust.sensors[i]).avgBand
    let high := (s.ladder.sources[srcDustHigh i]).withCond (band == .high)
    w.ladder.sources[srcDustHigh i]
        = (if (s.dust.sensors[i]).avgBand ≠ .high ∧ band = .high then high.raised else high)
      ∧ w.ladder.sources[srcSensorSilent i] = (s.ladder.sources[srcSensorSilent i]).withCond false
      ∧ w.ladder.sources[srcDustTrip i] = (if trips en (s.dust.sensors[i]).run c then z.raised else z) := by
  intro w band high
  obtain ⟨hht, hhs, hts⟩ := dustSources_apart i
  have ha := averageSensor_step i en c s
  obtain ⟨hh, hsilent⟩ := hearSensor_step i u
  obtain ⟨hhigh', htrip'⟩ := dustAlarms_sources i en s.dust.sensors[i] c (hearSensor i u)
  have hband : ((hearSensor i u).dust.sensors[i]).avgBand = band := by
    rw [hh.sensor]
    change (u.dust.sensors[i]).avgBand = band
    rw [ht.sensor, ha.sensor]
    rfl
  have hhigh : (hearSensor i u).ladder.sources[srcDustHigh i] = high :=
    (hh.2.2 _ (by simpa using hhs)).trans ((ht.2.2 _ (by simpa using hht)).trans (averageSensor_source i en c s))
  have htrip : (hearSensor i u).ladder.sources[srcDustTrip i] = z := (hh.2.2 _ (by simpa using hts)).trans hz
  rw [hband, hhigh] at hhigh'
  rw [htrip] at htrip'
  refine ⟨hhigh', ?_, htrip'⟩
  have hd := (dustAlarms_step i en c (hearSensor i u) s.dust.sensors[i]).2.2 (srcSensorSilent i)
    (by simp [hhs.symm, hts.symm])
  refine hd.trans (hsilent.trans (congrArg (Source.withCond · false) ?_))
  exact (ht.2.2 _ (by simpa using hts.symm)).trans (ha.2.2 _ (by simpa using hhs.symm))

end

/-! ## The bands (R120, R121, R123) -/

theorem worse_code (a b : Band) : (a.worse b).code.toNat = max a.code.toNat b.code.toNat := by
  cases a <;> cases b <;> rfl

theorem worse_or (a b : Band) : a.worse b = a ∨ a.worse b = b := by
  cases a <;> cases b <;> decide

/-- The worst effective band of a list of sensors, from `b` on. -/
def worst (d : Dust) (b : Band) (is : List SensorNo) : Band :=
  is.foldl (fun b (i : SensorNo) => if d.sensors[i].enabled then b.worse d.sensors[i].effective else b) b

theorem formOverall_eq (d : Dust) : d.formOverall = worst d .normal (List.finRange 8) := rfl

theorem worst_cons (d : Dust) (b : Band) (i : SensorNo) (is : List SensorNo) : worst d b (i :: is)
    = worst d (if d.sensors[i].enabled then b.worse d.sensors[i].effective else b) is := rfl

theorem le_worst (d : Dust) (b : Band) (is : List SensorNo) : b.code.toNat ≤ (worst d b is).code.toNat := by
  induction is generalizing b with
  | nil => exact le_rfl
  | cons i is ih =>
    rw [worst_cons]
    split
    · exact (worse_code b _ ▸ Nat.le_max_left _ _).trans (ih _)
    · exact ih b

theorem effective_le_worst (d : Dust) (b : Band) {i : SensorNo} {is : List SensorNo} (hi : i ∈ is)
    (he : d.sensors[i].enabled = true) : (d.sensors[i].effective).code.toNat ≤ (worst d b is).code.toNat := by
  induction is generalizing b with
  | nil => cases hi
  | cons j is ih =>
    rw [worst_cons]
    rcases List.mem_cons.1 hi with rfl | hi
    · rw [if_pos he]
      exact (worse_code b _ ▸ Nat.le_max_right _ _).trans (le_worst d _ is)
    · exact ih _ hi

theorem worst_attained (d : Dust) (b : Band) (is : List SensorNo) :
    worst d b is = b ∨ ∃ i : SensorNo, d.sensors[i].enabled = true ∧ d.sensors[i].effective = worst d b is := by
  induction is generalizing b with
  | nil => exact .inl rfl
  | cons j is ih =>
    rw [worst_cons]
    split
    next he =>
      rcases ih (b.worse d.sensors[j].effective) with hw | hw
      · rw [hw]
        exact (worse_or b d.sensors[j].effective).imp_right fun k => ⟨j, he, k.symm⟩
      · exact .inr hw
    · exact ih b

theorem enabled_iff (x : Sensor) : x.enabled = true ↔ ∃ en, x.entry = some en ∧ en.enabled = true := by
  cases hx : x.entry <;> simp [Sensor.enabled, hx]

theorem sprays_iff (x : Sensor) : x.sprays = true ↔ ∃ en, x.entry = some en ∧ en.enabled = true
    ∧ en.location ≠ .deck ∧ x.effective ≠ .normal := by
  cases hx : x.entry <;> simp [Sensor.sprays, hx, and_assoc]

theorem formSpray_iff (d : Dust) : d.formSpray = true ↔ ∃ i : SensorNo, d.sensors[i].sprays = true := by
  simp [Dust.formSpray]

theorem treatDust_taken {f : Frame} {s : State} {i : SensorNo} {c : Nat} {ok : Bool} {en : SensorEntry}
    (hp : parseSample f.payload = some (.dust c ok)) (hi : s.sensorAt f.src = some i)
    (hen : (s.dust.sensors[i]).entry = some en) (hon : en.enabled = true) :
    treatDust f s = forward .D f (takeDust i en c ok s) := by
  simp only [treatDust, hp, hi]
  simp only [hen, hon, if_true]

/-- The latch's release test of a sample (R117). -/
def SampleReleases (i : SensorNo) (en : SensorEntry) (a16 : Int) (s : State) : Prop :=
  (s.ladder.sources[srcDustTrip i]).state ≠ .pending ∧ (s.ladder.sources[srcDustTrip i]).state ≠ .inService
    ∧ a16 / 16 < (en.high : Int) - en.hysteresis

theorem holds_iff (x : AlarmState) : x.holds = true ↔ x = .pending ∨ x = .inService := by
  cases x <;> simp [AlarmState.holds]

/-- The trip test of a sample: the latch and its source afterwards (R116, R117). -/
theorem sampleTripped (i : SensorNo) (en : SensorEntry) (c : Nat) (s : State)
    (hen : (s.dust.sensors[i]).entry = some en) :
    ∃ (b : Bool) (z : Source),
      SensorStep i (counted en c b (averageSensor i en c s).dust.sensors[i]) [srcDustTrip i] (averageSensor i en c s)
        (tripSensor i en c (averageSensor i en c s))
      ∧ (tripSensor i en c (averageSensor i en c s)).ladder.sources[srcDustTrip i] = z
      ∧ (trips en (s.dust.sensors[i]).run c = true →
          b = true ∧ z = (s.ladder.sources[srcDustTrip i]).withCond true)
      ∧ (trips en (s.dust.sensors[i]).run c = false → (s.dust.sensors[i]).latch = false →
          b = false ∧ z = s.ladder.sources[srcDustTrip i])
      ∧ (trips en (s.dust.sensors[i]).run c = false → (s.dust.sensors[i]).latch = true →
          SampleReleases i en (nextA16 (s.dust.sensors[i]).a16 c en.shift) s →
          b = false ∧ z = (s.ladder.sources[srcDustTrip i]).withCond false)
      ∧ (trips en (s.dust.sensors[i]).run c = false → (s.dust.sensors[i]).latch = true →
          ¬ SampleReleases i en (nextA16 (s.dust.sensors[i]).a16 c en.shift) s →
          b = true ∧ z = s.ladder.sources[srcDustTrip i]) := by
  obtain ⟨hht, -, -⟩ := dustSources_apart i
  have ha := averageSensor_step i en c s
  set u := averageSensor i en c s with hu
  have hsensor := ha.sensor
  have hsource : u.ladder.sources[srcDustTrip i] = s.ladder.sources[srcDustTrip i] := ha.2.2 _ (by simpa using hht.symm)
  have hrun : (u.dust.sensors[i]).run = (s.dust.sensors[i]).run := by rw [hsensor]; rfl
  have hlatch : (u.dust.sensors[i]).latch = (s.dust.sensors[i]).latch := by rw [hsensor]; rfl
  have hbelow : (u.dust.sensors[i]).belowRelease = true
      ↔ nextA16 (s.dust.sensors[i]).a16 c en.shift / 16 < (en.high : Int) - en.hysteresis := by
    have hue : (u.dust.sensors[i]).entry = some en := by rw [hsensor]; exact hen
    have hua : (u.dust.sensors[i]).a16 = nextA16 (s.dust.sensors[i]).a16 c en.shift := by rw [hsensor]; rfl
    simp only [Sensor.belowRelease, hue, Sensor.average, hua, decide_eq_true_eq]
  have hstate : u.ladder.state (srcDustTrip i) = (s.ladder.sources[srcDustTrip i]).state := by rw [Ladder.state, hsource]
  have hfalls : ((u.ladder.state (srcDustTrip i)).holds = false ∧ LatchFalls i u)
      ↔ (s.dust.sensors[i]).latch = true ∧ SampleReleases i en (nextA16 (s.dust.sensors[i]).a16 c en.shift) s := by
    rw [LatchFalls, hlatch, hbelow, SampleReleases, ← Bool.not_eq_true, holds_iff, hstate]
    tauto
  cases ht : trips en (s.dust.sensors[i]).run c with
  | true =>
    obtain ⟨hstep, hz⟩ := tripSensor_sets i en c u (by rw [hrun]; exact ht)
    exact ⟨true, _, hstep, hz, fun _ => ⟨rfl, by rw [hsource]⟩, (absurd · (by simp)), (absurd · (by simp)), (absurd · (by simp))⟩
  | false =>
    by_cases hf : (u.ladder.state (srcDustTrip i)).holds = false ∧ LatchFalls i u
    · obtain ⟨hstep, hz⟩ := tripSensor_releases i en c u (by rw [hrun]; exact ht) hf.1 hf.2
      obtain ⟨hl, hr⟩ := hfalls.1 hf
      exact ⟨false, _, hstep, hz, (absurd · (by simp)), fun _ hn => absurd (hl.symm.trans hn) (by simp),
        fun _ _ _ => ⟨rfl, by rw [hsource]⟩, fun _ _ hn => absurd hr hn⟩
    · have hstays : (u.ladder.state (srcDustTrip i)).holds = true ∨ ¬ LatchFalls i u := by
        rw [not_and_or, Bool.not_eq_false] at hf
        exact hf
      obtain ⟨hstep, hz⟩ := tripSensor_stays i en c u (by rw [hrun]; exact ht) hstays
      exact ⟨_, _, hstep, hz, (absurd · (by simp)), fun _ hn => ⟨hlatch.trans hn, hsource⟩,
        fun _ hl hr => absurd (hfalls.2 ⟨hl, hr⟩) hf, fun _ hl _ => ⟨hlatch.trans hl, hsource⟩⟩

theorem trips_iff (en : SensorEntry) (run c : Nat) : trips en run c = true ↔ nextRun en run c = en.tripRun := by
  simp [trips]

theorem takeDust_ok (i : SensorNo) (en : SensorEntry) (c : Nat) (s : State) : takeDust i en c true s
    = reformBands (dustAlarms i en (restartSensor i s).dust.sensors[i] c (hearSensor i (tripSensor i en c
        (averageSensor i en c (restartSensor i s))))) := by
  have hbefore : ((restartSensor i s).dust.sensors[i]).avgBand = (s.dust.sensors[i]).avgBand
      ∧ ((restartSensor i s).dust.sensors[i]).run = (s.dust.sensors[i]).run := by
    unfold restartSensor
    simp only
    split
    · split
      · rw [setSensor_get, if_pos rfl]
        exact ⟨rfl, rfl⟩
      · exact ⟨rfl, rfl⟩
    · exact ⟨rfl, rfl⟩
  simp only [takeDust, if_true, dustAlarms, hbefore.1, hbefore.2]

end Sys2Proof.Machine

open Sys2Proof Sys2Proof.Machine

/-- Settles O33. -/
theorem dustSampleTaken : Obligations.DustSampleTaken := by
  refine ⟨?_, fun en a => ⟨rfl, rfl, rfl⟩, fun x => ⟨fun hl => ?_, fun hl hs => ?_, fun hl hs hb => ?_, fun hl hs hb => ?_,
    fun hl hs hb => ?_⟩, fun d => ?_⟩
  · intro s e rest i c ok en h hp hi hen hon x a16 run band s1 high trip silent released
    obtain ⟨hready, hkind, -⟩ := inspect_D_sample h.2 (by simp) (by simp) (by simp)
    have hk := kindSample_ne_order hkind
    have hc1 : OnlyChanges _ s s1 := takeHead_changes .D e rest .dustSample s
    have hsensors : s1.dust.sensors = s.dust.sensors := takeHead_D_sensors e rest .dustSample s
    have hnow : s1.now = s.now := hc1.same .clock
    have hen1 : (s1.dust.sensors[i]).entry = some en := by rw [hsensors]; exact hen
    have h1 := restartSensor_step i en s1 hen1 hon ((takeHead_D_ready e rest .dustSample s).1.trans hready)
    rw [hsensors, hnow] at h1
    set u := restartSensor i s1 with hu
    have husource (j : SourceNo) : u.ladder.sources[j] = s1.ladder.sources[j] := h1.2.2 j (by simp)
    have hux := h1.sensor
    refine takes_of (xs := dustBlocks) treatDust h rfl (treatDust_changes _ _) (by decide) ?_
    rw [treatDust_taken hp ((takeHead_D_sensorAt e rest .dustSample s _).trans hi) hen1 hon]
    -- what the sample leaves once its parts have left `w`, with sensor `i` as `y`
    have hend {w : State} {y : Sensor} (hw : SensorStep i y [srcDustHigh i, srcDustTrip i, srcSensorSilent i] s1 w) :
        let t := endEvent (forward .D e.frame (reformBands w))
        t.dust.sensors[i] = y ∧ (∀ j : SensorNo, j ≠ i → t.dust.sensors[j] = s.dust.sensors[j])
          ∧ (∀ j ∈ [srcDustHigh i, srcDustTrip i, srcSensorSilent i], t.ladder.sources[j] = w.ladder.sources[j])
          ∧ BandsFormed s1 t := by
      intro t
      have hclosed : Closes (reformBands w) t := forward_D_end_closes _ _ hk
      have hdust : t.dust.sensors = w.dust.sensors := by rw [hclosed.2.2.2.2.1, reformBands_sensors]
      have hapart : ∀ i : SensorNo, (∀ j ∈ [srcDustHigh i, srcDustTrip i, srcSensorSilent i],
          j ∉ [srcCloseoutNotIssued, srcTrimBound, srcBillMark]) := by decide
      refine ⟨by rw [hdust]; exact hw.sensor, fun j hj => ?_, fun j hj => ?_, ?_⟩
      · rw [hdust, hw.others hj, hsensors]
      · rw [hclosed.2.2.2.2.2.2.2.2.2.1]
        exact reformBands_source _ _ (hapart i j hj)
      · exact (hw.bands (fun hn => hapart i _ hn (by simp)) (fun hn => hapart i _ hn (by simp))).closes hclosed
    cases ok with
    | true =>
      obtain ⟨b, z, hstep, hz, hset, hclear, hrelease, hkeep⟩ := sampleTripped i en c u (by rw [hux]; exact hen)
      obtain ⟨hhigh, hsilent, htrip⟩ := heard_sources hstep hz
      have hw := h1.mono (ks := [srcDustHigh i, srcDustTrip i, srcSensorSilent i]) |>.trans (heard_step hstep)
      obtain ⟨hy, hothers, hsources, hbands⟩ := hend hw
      rw [hux] at htrip
      rw [hux, husource] at hset hclear hrelease hkeep hhigh hsilent
      have hrun : trips en x.run c = true ↔ run = en.tripRun := trips_iff en x.run c
      have hrun' : trips en x.run c = false ↔ run ≠ en.tripRun := by rw [← Bool.not_eq_true]; exact not_congr hrun
      have hrel : SampleReleases i en a16 u ↔ released := by rw [SampleReleases, husource]
      rw [takeDust_ok, ← hu]
      rw [hux] at hy hothers hsources hbands ⊢
      rw [hy, hsources _ (by simp), hsources _ (by simp), hsources _ (by simp), hhigh, hsilent, htrip]
      refine ⟨hothers, hen, rfl, fun _ => ⟨rfl, rfl, rfl, rfl, rfl, rfl, fun hr => ?_, fun hr hl => ?_, fun hr hl => ⟨fun hrl => ?_, fun hrl => ?_⟩⟩,
        fun hf => absurd hf (by simp), hbands, forward_D_offered _ _⟩
      · obtain ⟨rfl, rfl⟩ := hset (hrun.2 hr)
        exact ⟨rfl, if_pos (hrun.2 hr)⟩
      · obtain ⟨rfl, rfl⟩ := hclear (hrun'.2 hr) hl
        exact ⟨rfl, if_neg (by rw [Bool.not_eq_true]; exact hrun'.2 hr)⟩
      · obtain ⟨rfl, rfl⟩ := hrelease (hrun'.2 hr) hl (hrel.2 hrl)
        exact ⟨rfl, if_neg (by rw [Bool.not_eq_true]; exact hrun'.2 hr)⟩
      · obtain ⟨rfl, rfl⟩ := hkeep (hrun'.2 hr) hl (mt hrel.1 hrl)
        exact ⟨rfl, if_neg (by rw [Bool.not_eq_true]; exact hrun'.2 hr)⟩
    | false =>
      obtain ⟨hstep, hsilent⟩ := silenceSensor_step i u
      have hw := h1.mono (ks := [srcDustHigh i, srcDustTrip i, srcSensorSilent i]) |>.trans
        (hstep.mono (ks := [srcDustHigh i, srcDustTrip i, srcSensorSilent i]))
      obtain ⟨hy, hothers, hsources, hbands⟩ := hend hw
      obtain ⟨-, hhs, hts⟩ := dustSources_apart i
      have hhigh : (silenceSensor i u).ladder.sources[srcDustHigh i] = s1.ladder.sources[srcDustHigh i] :=
        (hstep.2.2 _ (by simpa using hhs)).trans (husource _)
      have htrip : (silenceSensor i u).ladder.sources[srcDustTrip i] = trip :=
        (hstep.2.2 _ (by simpa using hts)).trans (husource _)
      rw [hux, husource] at hsilent
      have htaken : takeDust i en c false s1 = reformBands (silenceSensor i u) := rfl
      rw [htaken]
      rw [hux] at hy
      rw [hy, hsources _ (by simp), hsources _ (by simp), hsources _ (by simp), hhigh, htrip, hsilent]
      exact ⟨hothers, hen, rfl, fun hf => absurd hf (by simp), fun _ => ⟨rfl, rfl, rfl, rfl, rfl, rfl, rfl, rfl⟩, hbands,
        forward_D_offered _ _⟩
  · simp [Sensor.effective, hl]
  · simp [Sensor.effective, hl, hs]
  · simp [Sensor.effective, hl, hs, hb, AvgBand.toBand]
  · simp [Sensor.effective, hl, hs, hb, AvgBand.toBand]
  · simp [Sensor.effective, hl, hs, hb, AvgBand.toBand]
  · intro counts
    have hcounts (i : SensorNo) : counts i ↔ (d.sensors[i]).enabled = true := (enabled_iff _).symm
    refine ⟨fun i hi => effective_le_worst d .normal (List.mem_finRange i) ((hcounts i).1 hi), ?_, ?_⟩
    · exact (worst_attained d .normal (List.finRange 8)).imp_right fun ⟨i, hi, he⟩ => ⟨i, (hcounts i).2 hi, he⟩
    · rw [formSpray_iff]
      exact exists_congr fun i => sprays_iff _

end

section
/-! ## READ, STATUS and READ_RECORDS (R153, R187, R192)

What each request answers, then the layouts of section 10.7 as the model builds them. -/

set_option Elab.async false

namespace Sys2Proof.Machine

/-! ### The answers -/

theorem treatStatus_some {f : Frame} {c k : Byte} {bs : List Byte} {s : State} (hp : f.payload = [c, k])
    (h : statusSection s k.toNat = some bs) : treatStatus f s = answerDone f (k :: bs) s := by
  simp only [treatStatus, hp, h]

theorem treatStatus_none {f : Frame} {c k : Byte} {s : State} (hp : f.payload = [c, k])
    (h : statusSection s k.toNat = none) : treatStatus f s = answerRefused f .badValue s := by
  simp only [treatStatus, hp, h]

theorem statusSection_none {s : State} {k : Nat} (h : 8 < k) : statusSection s k = none := by
  unfold statusSection
  split <;> first | omega | rfl

/-- A READ of an entry that exists. -/
theorem treatRead_entry {f : Frame} {c tb eb : Byte} {tab : TableId} {s : State} (hp : f.payload = [c, tb, eb])
    (ht : TableId.fromCode tb.toNat = some tab) (he : tab.hasEntry eb.toNat = true) :
    treatRead f s = answerDone f (readData s tab tb eb) s := by
  simp only [treatRead, hp, ht, he, if_true]

theorem treatRead_missing {f : Frame} {c tb eb : Byte} {s : State} (hp : f.payload = [c, tb, eb])
    (hn : ∀ tab, TableId.fromCode tb.toNat = some tab → tab.hasEntry eb.toNat = false) :
    treatRead f s = answerRefused f .badValue s := by
  simp only [treatRead, hp]
  cases ht : TableId.fromCode tb.toNat with
  | none => rfl
  | some tab => simp [hn tab ht]

theorem readData_loaded {s : State} {tab : TableId} {tb eb : Byte} {fs : List (Option Nat)}
    (h : entryFields s tab eb.toNat = some fs) : readData s tab tb eb
      = [tb, eb, 1] ++ beBytes 2 (readMask tab eb.toNat fs) ++ readFields (tab.widths eb.toNat) fs
        ++ readState s tab eb.toNat := by
  simp [readData, h]

theorem readData_unloaded {s : State} {tab : TableId} {tb eb : Byte} (h : entryFields s tab eb.toNat = none) :
    readData s tab tb eb = [tb, eb, 0, 0, 0] ++ List.replicate (tab.widths eb.toNat).sum 0
      ++ readState s tab eb.toNat := by
  simp [readData, h, beBytes]

theorem hasEntry_account (a : Account) : TableId.accounts.hasEntry (a.val + 1) = true := by
  revert a
  decide

theorem readState_account (s : State) (a : Account) : readState s .accounts (a.val + 1)
    = beBytes 8 s.ship.accounts[a] ++ kgField s.ship.bases[a] := by
  have ha := a.isLt
  rw [readState, accountBytes, if_neg (by omega), if_neg (by omega), dif_pos (by omega)]
  rfl

theorem readData_account (s : State) (a : Account) {eb : Byte} (h : eb.toNat = a.val + 1) :
    readData s .accounts 12 eb = [12, eb, 1, 0, 0] ++ beBytes 8 s.ship.accounts[a] ++ kgField s.ship.bases[a] := by
  rw [readData_loaded (fs := []) rfl, h, readState_account, List.append_assoc _ (beBytes 8 _)]
  simp [readFields, readMask, beBytes]

/-! ### The records an answer carries -/

theorem treatReadRecords_count {f : Frame} {s : State} (h : between 1 4 (fieldAt f.payload 5 1) = false) :
    treatReadRecords f s = answerRefused f .badValue s := by
  simp only [treatReadRecords, h, Bool.not_false, if_true]

theorem treatReadRecords_notHeld {f : Frame} {s : State} (h : between 1 4 (fieldAt f.payload 5 1) = true)
    (hf : s.bills.find (fieldAt f.payload 1 4) = none) : treatReadRecords f s = answerRefused f .notHeld s := by
  simp [treatReadRecords, h, hf]

theorem treatReadRecords_held {f : Frame} {s : State} {i : Nat} (h : between 1 4 (fieldAt f.payload 5 1) = true)
    (hf : s.bills.find (fieldAt f.payload 1 4) = some i) :
    let rs := carriedRecords s i (fieldAt f.payload 5 1)
    treatReadRecords f s = answerDone f (byteOf rs.length :: rs.flatten) s := by
  simp [treatReadRecords, h, hf]

theorem between_iff (lo hi n : Nat) : between lo hi n = true ↔ lo ≤ n ∧ n ≤ hi := decide_eq_true_iff

/-- `fitting` carries `xs` whole where they fit and what follows does not. -/
theorem fitting_append (room : Nat) (xs ys : List (List Byte)) (hx : xs.flatten.length ≤ room)
    (hy : ∀ y ∈ ys.head?, room < xs.flatten.length + y.length) : fitting room (xs ++ ys) = xs := by
  induction xs generalizing room with
  | nil =>
    cases ys with
    | nil => rfl
    | cons y ys =>
      have hroom := hy y rfl
      simp only [List.flatten_nil, List.length_nil, Nat.zero_add] at hroom
      simp only [List.nil_append, fitting, if_neg (Nat.not_le.2 hroom)]
  | cons x xs ih =>
    simp only [List.flatten_cons, List.length_append] at hx hy
    simp only [List.cons_append, fitting]
    rw [if_pos (by omega), ih (room - x.length) (by omega) fun y hm => by have := hy y hm; omega]

/-- From a record on, the answer carries the records `rs` when they are no more than asked for and fit, and either are as
many as asked for or the next does not fit (R153). -/
theorem carriedRecords_eq {s : State} {old rs more : List Record} {n : Nat}
    (hs : s.bills.records = old ++ rs ++ more) (hn : rs.length ≤ n)
    (hfit : ((rs.map recordBytes).flatten).length ≤ 196)
    (hnext : rs.length < n → ∀ r ∈ more.head?, 196 < ((rs.map recordBytes).flatten).length + (recordBytes r).length) :
    carriedRecords s old.length n = rs.map recordBytes := by
  rw [carriedRecords, hs, List.append_assoc, List.drop_left, List.take_append, List.take_of_length_le hn, List.map_append]
  refine fitting_append 196 _ _ hfit fun y hy => ?_
  cases more with
  | nil => simp at hy
  | cons r more =>
    rcases Nat.lt_or_ge rs.length n with hlt | hge
    · rw [show n - rs.length = (n - rs.length - 1) + 1 by omega, List.take_succ_cons, List.map_cons, List.head?_cons] at hy
      obtain rfl := Option.mem_some_iff.1 hy
      exact hnext hlt r rfl
    · simp [show n - rs.length = 0 by omega] at hy

/-! ### The length of a record -/

theorem linesBytes_length (ls : List BillLine) : (linesBytes ls).length = 1 + 6 * ls.length := by
  have hflat : (ls.flatMap lineBytes).length = 6 * ls.length := by
    induction ls with
    | nil => rfl
    | cons l ls ih =>
      rw [List.flatMap_cons, List.length_append, ih, List.length_cons]
      simp only [lineBytes, List.length_cons, kgField_length]
      omega
  rw [linesBytes, List.length_cons, hflat]
  omega

theorem pausesBytes_length (ps : List Pause) : (ps.flatMap pauseBytes).length = 7 * ps.length := by
  induction ps with
  | nil => rfl
  | cons p ps ih =>
    rw [List.flatMap_cons, List.length_append, ih, List.length_cons]
    simp only [pauseBytes, List.length_cons, beBytes_length]
    omega

/-- A record fits an answer (R153). -/
theorem recordBytes_length_le (r : Record)
    (hv : ∀ ship slot hold round quota lines excess why flags start belt trim count pauses,
      r.body = .visit ship slot hold round quota lines excess why flags start belt trim count pauses →
      lines.length ≤ 13 ∧ pauses.length ≤ 4)
    (hc : ∀ ship lines w u, r.body = .shipClose ship lines w u → lines.length ≤ 13) : (recordBytes r).length ≤ 196 := by
  cases hb : r.body with
  | visit ship slot hold round quota lines excess why flags start belt trim count pauses =>
    obtain ⟨hl, hp⟩ := hv _ _ _ _ _ _ _ _ _ _ _ _ _ _ hb
    simp only [recordBytes, hb, List.length_append, List.length_cons, List.length_nil, beBytes_length, beInt,
      kgField_length, linesBytes_length, pausesBytes_length]
    omega
  | zero oldOffset newOffset outcome travel =>
    simp only [recordBytes, hb, List.length_append, List.length_cons, List.length_nil, beBytes_length, beInt]
    omega
  | shipOpen ship =>
    simp only [recordBytes, hb, List.length_append, List.length_cons, beBytes_length]
    omega
  | shipClose ship lines w u =>
    have hl := hc _ _ _ _ hb
    simp only [recordBytes, hb, List.length_append, List.length_cons, beBytes_length, kgField_length, linesBytes_length]
    omega

/-! ### Layouts -/

theorem entryAt_val {α : Type} {n : Nat} (v : Vector α n) (i : Fin n) : entryAt v i.val = some v[i] := dif_pos i.isLt

theorem entryAt_pred {α : Type} {n : Nat} (v : Vector α n) (i : Fin n) : entryAt v (i.val + 1 - 1) = some v[i] :=
  entryAt_val v i

theorem entryFields_dust (s : State) (i : SensorNo) :
    entryFields s .dust (i.val + 1) = (s.dust.sensors[i]).entry.map SensorEntry.fields := by
  simp only [entryFields, Nat.succ_ne_zero, if_false, entryAt_pred]
  rfl

theorem readState_dust (s : State) (i : SensorNo) : readState s .dust (i.val + 1) = sensorBytes s.dust.sensors[i] := by
  simp only [readState, Nat.succ_ne_zero, if_false, entryAt_pred]
  rfl

theorem entryFields_bills (s : State) : entryFields s .bills 0
    = some [some s.bills.marks[0], some s.bills.marks[1], some s.bills.marks[2], some s.bills.marks[3]] := by
  rw [entryFields]
  generalize s.bills.marks = v
  obtain ⟨⟨xs⟩, hx⟩ := v
  match xs, hx with
  | [a, b, c, d], _ => rfl

theorem sum_filter_map (p : α → Bool) (f : α → Nat) (l : List α) :
    ((l.filter p).map f).sum = (l.map fun x => if p x then f x else 0).sum := by
  induction l with
  | nil => rfl
  | cons x l ih =>
    rw [List.filter_cons, List.map_cons, List.sum_cons, ← ih]
    cases p x <;> simp

/-- The mask marks the optional fields that are present, one bit each (R192). -/
theorem readMask_eq (tab : TableId) (k : Nat) (fs : List (Option Nat)) : readMask tab k fs
    = ((List.range fs.length).map fun j =>
        if fs[j]?.join.isSome && optionalField tab k j then 2 ^ j else 0).sum := by
  rw [readMask, sum_filter_map]
  congr 1
  refine List.ext_getElem (by simp) fun j h1 h2 => ?_
  have hj : j < fs.length := by simpa using h1
  simp [hj]

theorem optionalField_iff (tab : TableId) (k j : Nat) : optionalField tab k j = true ↔ j ∈ (match tab with
    | .stations => [0]
    | .envelopes => [5]
    | .holds => [1]
    | .plan => [5]
    | .dust => if k = 0 then [] else [4, 5, 6, 7, 8]
    | _ => []) := by
  cases tab with
  | dust =>
    rcases Nat.eq_zero_or_pos k with rfl | hk
    · simp [optionalField]
    · have hk := hk.ne'
      simp only [optionalField, bne_iff_ne, ne_eq, hk, not_false_eq_true, Bool.and_eq_true, decide_eq_true_eq, true_and,
        if_false, List.mem_cons, List.not_mem_nil, or_false]
      omega
  | _ => simp [optionalField]

/-- A map of flags as a byte, the first in bit 0 (R186). -/
theorem flags3 (a b c : Bool) : byteOf ((([a, b, c].zipIdx).map fun x => if x.1 then 2 ^ x.2 else 0).sum)
    = byteOf ((if a then 1 else 0) + (if b then 2 else 0) + (if c then 4 else 0)) := by
  simp [Nat.add_assoc]

theorem flags7 (a b c d e f g : Bool) :
    byteOf ((([a, b, c, d, e, f, g].zipIdx).map fun x => if x.1 then 2 ^ x.2 else 0).sum)
      = byteOf ((if a then 1 else 0) + (if b then 2 else 0) + (if c then 4 else 0) + (if d then 8 else 0)
          + (if e then 16 else 0) + (if f then 32 else 0) + (if g then 64 else 0)) := by
  simp [Nat.add_assoc]

theorem beBytes_succ (k n : Nat) : beBytes (k + 1) n = BitVec.ofNat 8 (n / 256 ^ k) :: beBytes k n := rfl

theorem kgField_small {n : Nat} (h : n < 2 ^ 32) : kgField n = beBytes 4 n := by rw [kgField, if_pos h]

theorem sweepBytes_eq (w : Sweep) :
    sweepBytes w = [(axisOf w.axis).code, if w.plus then 0 else 1, byteOf w.remaining, byteOf w.done] := by
  cases hw : w.plus <;> simp [sweepBytes, hw, boolByte]

end Sys2Proof.Machine

open Sys2Proof Sys2Proof.Machine

/-- Settles O46. -/
theorem readsChangeNothing : Obligations.ReadsChangeNothing := by
  refine ⟨fun s e rest => ⟨fun k h hp => ?_, fun tb eb h hp => ?_, fun q0 q1 q2 q3 n h hp => ?_⟩,
    recordBytes_length_le, fun s => ?_⟩
  · have hcode : payloadCode e.frame = 3 := by rw [payloadCode, hp]; rfl
    refine takes_of (xs := [.send .U]) treatStatus h rfl (treatStatus_changes _ _) (by decide) ⟨fun bs hs => ?_, fun hk => ?_⟩
    · rw [treatStatus_some hp hs]
      exact offered_done (by rw [hcode]) (.refl _)
    · rw [treatStatus_none hp (statusSection_none hk)]
      exact offered_refused (by rw [hcode]; rfl)
  · intro s1
    have hcode : payloadCode e.frame = 2 := by rw [payloadCode, hp]; rfl
    refine takes_of (xs := [.send .U]) treatRead h rfl (treatRead_changes _ _) (by decide)
      ⟨fun a ht ha => ?_, fun tab fs ht he hf => ?_, fun tab ht he hf => ?_, fun hn => ?_⟩
    · rw [treatRead_entry (tab := .accounts) hp (by rw [ht]; rfl) (by rw [ha]; exact hasEntry_account a), ht,
        readData_account _ a ha, show (takeHead .U e rest .read s).ship = s.ship by simp]
      exact offered_done (by rw [hcode]; simp) (.refl _)
    · rw [treatRead_entry hp ht he, readData_loaded hf]
      exact offered_done (by rw [hcode]; rfl) (.refl _)
    · rw [treatRead_entry hp ht he, readData_unloaded hf]
      exact offered_done (by rw [hcode]; rfl) (.refl _)
    · rw [treatRead_missing hp hn]
      exact offered_refused (by rw [hcode]; rfl)
  · intro q
    have hcode : payloadCode e.frame = 17 := by rw [payloadCode, hp]; rfl
    have hq : fieldAt e.frame.payload 1 4 = q := by rw [hp]; rfl
    have hcount : fieldAt e.frame.payload 5 1 = n.toNat := by rw [hp]; simp [fieldAt, beNat]
    have hbills : (takeHead .U e rest .readRecords s).bills = s.bills := by simp
    have hin (h0 : n ≠ 0) (h4 : n.toNat ≤ 4) : between 1 4 (fieldAt e.frame.payload 5 1) = true := by
      rw [hcount, between_iff]
      have : n.toNat ≠ 0 := fun hn => h0 (BitVec.eq_of_toNat_eq hn)
      omega
    refine takes_of (xs := [.send .U]) treatReadRecords h rfl (treatReadRecords_changes _ _) (by decide)
      ⟨fun hn => ?_, fun h0 h4 hnone => ?_, fun old rs more h0 h4 hs hold hfirst hne hlen hfit hnext => ?_⟩
    · rw [treatReadRecords_count]
      · exact offered_refused (by rw [hcode]; rfl)
      · rw [hcount, ← Bool.not_eq_true, between_iff]
        rcases hn with rfl | hn
        · decide
        · omega
    · rw [treatReadRecords_notHeld (hin h0 h4) (by rw [hq, hbills]; exact (BillStore.find_eq_none_iff _ _).2 hnone)]
      exact offered_refused (by rw [hcode]; rfl)
    · obtain ⟨r, xs, hr⟩ := List.exists_cons_of_ne_nil hne
      have hfind : s.bills.find q = some old.length :=
        BillStore.find_of_split (by rw [hs, List.append_assoc, hr]) (hfirst r (by simp [hr])) hold
      rw [treatReadRecords_held (hin h0 h4) (by rw [hq, hbills]; exact hfind), hcount,
        carriedRecords_eq (by rw [hbills]; exact hs) hlen hfit hnext]
      exact offered_done (by rw [hcode, List.length_map]; rfl) (.refl _)
  · refine ⟨fun tab k fs => ?_, fun r => ?_, rfl, rfl, rfl, rfl, rfl, fun h => ⟨?_, ?_, ?_⟩, fun i => ?_, rfl, rfl, rfl,
      fun i => ⟨entryFields_dust s i, readState_dust s i⟩, fun i => ⟨?_, ?_⟩, entryFields_bills s, readState_account s,
      rfl, rfl, fun k n x bs => ⟨rfl, rfl, rfl, rfl, rfl, rfl, rfl, rfl, kgField_small, rfl⟩,
      rfl, rfl, rfl, rfl, rfl, rfl, rfl, rfl, rfl, rfl, rfl, rfl, rfl, rfl, rfl, rfl, rfl, rfl, rfl, rfl,
      fun h a => ⟨rfl, rfl⟩, ?_⟩
    · intro optional
      rw [readMask_eq]
      refine congrArg List.sum (List.map_congr_left fun j _ => if_congr ?_ rfl rfl)
      rw [Bool.and_eq_true, optionalField_iff, Option.isSome_iff_ne_none]
      exact and_comm
    · rw [entryFields, entryAt_val, Option.join_some]
      rfl
    · rw [entryFields, entryAt_pred, Option.join_some]
      rfl
    · rw [entryFields, entryAt_pred, Option.join_some]
      rfl
    · rw [readState, entryAt_pred]
      rfl
    · rw [entryFields, entryAt_val, Option.join_some]
      rfl
    · rw [entryFields, entryAt_val]
      rfl
    · rw [readState, entryAt_val]
      rfl
    · have hhead (g : Segment) : headBytes s g = beBytes 2 g.number.toNat
          ++ beBytes 4 (min (g.arrival - s.meter.belt) 4294967295) ++ kgField (roundKg g.mass) ++ beBytes 2 g.samples
          ++ [byteOf ((([g.overload, g.gapBridged, g.coarse].zipIdx).map fun x => if x.1 then 2 ^ x.2 else 0).sum)] := by
        rw [flags3]
        rfl
      refine ⟨rfl, ?_, ?_, ?_, rfl, rfl, ?_, fun x => rfl, ?_, rfl, fun q => ⟨?_, fun _ _ _ _ => rfl, fun _ => rfl, ?_⟩⟩
      · rw [statusSection, statusMeter, collectedTravel]
        cases s.meter.zero <;> rfl
      · rw [statusSection, statusFlight, funext hhead]
        rfl
      · rw [statusSection, statusPlacement, funext sweepBytes_eq]
        rfl
      · rw [statusSection, statusDust, List.append_assoc]
        rfl
      · rw [statusSection, statusAlarms, stackBytes, ← List.append_assoc _ (List.map _ _)]
        rfl
      · intro ship slot hold round quota xs excess why fl start belt trim count pauses
        have hflags := flags7 fl.clamped fl.derated fl.coarse fl.gapBridged fl.overload fl.hardStopped fl.pausesTruncated
        simp only [recordBytes, List.append_assoc, hflags]
        rfl
      · intro ship xs weighed unassigned
        simp only [recordBytes, List.append_assoc]
        rfl

end

section
/-! ## The loads of SCALE and STATIONS (R1, R12, R17, R18, R176, R188)

The change to READY first, what it does to the silence timers; then each load's judging and its effect. -/

set_option Elab.async false

namespace Sys2Proof.Machine

/-! ### The change to READY -/

/-- A sensor whose silence timer starts, if it is enabled (R119). -/
def Sensor.started (now : Nat) (x : Sensor) : Sensor :=
  match x.entry with
  | some en => if en.enabled then { x with timer := some (now + en.silenceTime) } else x
  | none => x

theorem started_loaded {now : Nat} {x : Sensor} {en : SensorEntry} (h : x.entry = some en) :
    x.started now = { x with timer := if en.enabled then some (now + en.silenceTime) else x.timer } := by
  cases x
  obtain rfl : _ = some en := h
  cases hon : en.enabled <;> simp [Sensor.started, hon]

theorem started_started (now : Nat) (x : Sensor) : (x.started now).started now = x.started now := by
  cases h : x.entry with
  | none => simp [Sensor.started, h]
  | some en => cases hon : en.enabled <;> simp [Sensor.started, h, hon]

theorem restartSensor_ready (i : SensorNo) {s : State} (h : s.ready = true) :
    restartSensor i s = setSensor i ((s.dust.sensors[i]).started s.now) s := by
  have hself : setSensor i s.dust.sensors[i] s = s := by simp [setSensor, upd]
  unfold restartSensor Sensor.started
  generalize s.dust.sensors[i] = x at hself ⊢
  cases he : x.entry with
  | none => simp only [he, hself]
  | some en => cases hon : en.enabled <;> simp [h, he, hon, hself]

theorem restartSensor_waiting (i : SensorNo) {s : State} (h : s.ready = false) : restartSensor i s = s := by
  simp only [restartSensor, h, Bool.false_and, Bool.false_eq_true, if_false]
  split <;> rfl

theorem restartSensors_get (is : List SensorNo) (s : State) (h : s.ready = true) (j : SensorNo) :
    (is.foldl (fun s (i : SensorNo) => restartSensor i s) s).dust.sensors[j]
      = if j ∈ is then (s.dust.sensors[j]).started s.now else s.dust.sensors[j] := by
  induction is generalizing s with
  | nil => simp
  | cons i is ih =>
    have hready : (restartSensor i s).ready = true := by rw [restartSensor_ready i h]; exact h
    have hnow : (restartSensor i s).now = s.now := by rw [restartSensor_ready i h]; rfl
    have hget : (restartSensor i s).dust.sensors[j]
        = if i = j then (s.dust.sensors[j]).started s.now else s.dust.sensors[j] := by
      rw [restartSensor_ready i h, setSensor_get]
      split <;> simp [*]
    rw [List.foldl_cons, ih _ hready, hnow, hget]
    by_cases hi : i = j
    · simp only [hi, if_true, started_started, List.mem_cons, true_or, ite_self]
    · simp only [if_neg hi, List.mem_cons, Ne.symm hi, false_or]

theorem restartSensor_kept (i : SensorNo) (s : State) :
    (restartSensor i s).meter = s.meter ∧ (restartSensor i s).handler = s.handler := by
  cases h : s.ready with
  | true =>
    rw [restartSensor_ready i h]
    exact ⟨rfl, rfl⟩
  | false =>
    rw [restartSensor_waiting i h]
    exact ⟨rfl, rfl⟩

theorem restartSensors_kept (is : List SensorNo) (s : State) :
    (is.foldl (fun s (i : SensorNo) => restartSensor i s) s).meter = s.meter
      ∧ (is.foldl (fun s (i : SensorNo) => restartSensor i s) s).handler = s.handler := by
  induction is generalizing s with
  | nil => exact ⟨rfl, rfl⟩
  | cons i is ih =>
    rw [List.foldl_cons, (ih _).1, (ih _).2]
    exact restartSensor_kept i s

theorem restartSilence_silence {s : State} {sc : ScaleTable} (h : s.meter.table = some sc) :
    (restartSilence s).meter.silence = if s.ready then some (s.now + sc.scaleSilence) else s.meter.silence := by
  simp only [restartSilence, h]
  split <;> rfl

theorem restartSilence_ready (s : State) : (restartSilence s).ready = s.ready := by
  unfold restartSilence
  repeat' split
  all_goals rfl

theorem restartSilence_kept (s : State) : (restartSilence s).dust = s.dust ∧ (restartSilence s).now = s.now
    ∧ (restartSilence s).handler = s.handler := by
  unfold restartSilence
  repeat' split
  all_goals exact ⟨rfl, rfl, rfl⟩

theorem startTimers_handler (s : State) : (startTimers s).handler = s.handler :=
  (restartSensors_kept _ _).2.trans (restartSilence_kept s).2.2

theorem ready_false_iff (s : State) : s.handler.part = .unconfigured ↔ s.ready = false := by
  rw [State.ready]
  cases s.handler.part <;> simp

theorem becomeReady_stays {s : State} (h : s.ready = true ∨ s.handler.stationsMark = false ∨ s.handler.scaleMark = false) :
    becomeReady s = s := by
  refine if_neg ?_
  rintro ⟨hpart, hst, hsc⟩
  rw [ready_false_iff] at hpart
  simp [hpart, hst, hsc] at h

theorem becomeReady_starts {s : State} (h : s.ready = false) (hst : s.handler.stationsMark = true)
    (hsc : s.handler.scaleMark = true) :
    becomeReady s = startTimers { s with handler := { s.handler with part := .ready } } :=
  if_pos ⟨(ready_false_iff s).2 h, hst, hsc⟩

theorem becomeReady_ready (s : State) :
    (becomeReady s).ready = (s.ready || (s.handler.stationsMark && s.handler.scaleMark)) := by
  by_cases h : s.ready = true ∨ s.handler.stationsMark = false ∨ s.handler.scaleMark = false
  · rw [becomeReady_stays h]
    rcases h with h | h | h <;> simp [h]
  · simp only [not_or, Bool.not_eq_true, Bool.not_eq_false] at h
    obtain ⟨hr, hst, hsc⟩ := h
    rw [becomeReady_starts hr hst hsc, hr, hst, hsc]
    rw [State.ready, startTimers_handler]
    rfl

/-- The silence timer of the scale after the change to READY, if it comes (R188). -/
theorem becomeReady_silence {s : State} {sc : ScaleTable} (h : s.meter.table = some sc) :
    (becomeReady s).meter.silence
      = if s.ready = false ∧ (becomeReady s).ready = true then some (s.now + sc.scaleSilence) else s.meter.silence := by
  by_cases hs : s.ready = true ∨ s.handler.stationsMark = false ∨ s.handler.scaleMark = false
  · rw [becomeReady_stays hs]
    simp
  · simp only [not_or, Bool.not_eq_true, Bool.not_eq_false] at hs
    obtain ⟨hr, hst, hsc⟩ := hs
    rw [if_pos ⟨hr, by rw [becomeReady_ready, hst, hsc]; simp⟩, becomeReady_starts hr hst hsc]
    rw [startTimers, (restartSensors_kept _ _).1]
    exact restartSilence_silence (s := { s with handler := { s.handler with part := .ready } }) h

/-- The sensors after the change to READY, if it comes (R119, R188). -/
theorem becomeReady_sensors (s : State) (i : SensorNo) : (becomeReady s).dust.sensors[i]
    = if s.ready = false ∧ (becomeReady s).ready = true then (s.dust.sensors[i]).started s.now else s.dust.sensors[i] := by
  by_cases hs : s.ready = true ∨ s.handler.stationsMark = false ∨ s.handler.scaleMark = false
  · rw [becomeReady_stays hs]
    simp
  · simp only [not_or, Bool.not_eq_true, Bool.not_eq_false] at hs
    obtain ⟨hr, hst, hsc⟩ := hs
    rw [if_pos ⟨hr, by rw [becomeReady_ready, hst, hsc]; simp⟩, becomeReady_starts hr hst hsc, startTimers,
      restartSensors_get _ _ (by rw [restartSilence_ready]; rfl), if_pos (List.mem_finRange i)]
    obtain ⟨hdust, hnow, -⟩ := restartSilence_kept { s with handler := { s.handler with part := .ready } }
    rw [hdust, hnow]

theorem becomeReady_marks (s : State) : (becomeReady s).handler.stationsMark = s.handler.stationsMark
    ∧ (becomeReady s).handler.scaleMark = s.handler.scaleMark := by
  by_cases hs : s.ready = true ∨ s.handler.stationsMark = false ∨ s.handler.scaleMark = false
  · rw [becomeReady_stays hs]
    exact ⟨rfl, rfl⟩
  · simp only [not_or, Bool.not_eq_true, Bool.not_eq_false] at hs
    obtain ⟨hr, hst, hsc⟩ := hs
    rw [becomeReady_starts hr hst hsc]
    rw [startTimers_handler]
    exact ⟨rfl, rfl⟩

/-! ### ZERO_DRIFT (R12) -/

theorem withCond_cond (x : Source) (b : Bool) : (x.withCond b).cond = b := by
  unfold Source.withCond
  split <;> rfl

/-- ZERO_DRIFT's condition made `b`, with its raise where it was false (R12). -/
def driftSet (b : Bool) (s : State) : State :=
  if b && !(s.ladder.sources[srcZeroDrift]).cond then raise srcZeroDrift (setCond srcZeroDrift b s)
  else setCond srcZeroDrift b s

theorem evalDrift_eq {s : State} {sc : ScaleTable} (h : s.meter.table = some sc) :
    evalDrift s = driftSet (decide (sc.driftLimit * 1000000 < s.meter.drift)) s := by
  simp only [evalDrift, h, driftSet]

theorem driftSet_source (b : Bool) (s : State) : (driftSet b s).ladder.sources[srcZeroDrift]
    = if b && !(s.ladder.sources[srcZeroDrift]).cond then ((s.ladder.sources[srcZeroDrift]).withCond true).raised
      else (s.ladder.sources[srcZeroDrift]).withCond b := by
  unfold driftSet
  split
  next ho =>
    rw [raise_same, setCond_same, (Bool.and_eq_true_iff.1 ho).1]
  · rw [setCond_same]

theorem raised_cond (x : Source) : x.raised.cond = x.cond := by
  unfold Source.raised
  repeat' split
  all_goals rfl

theorem driftSet_cond (b : Bool) (s : State) : ((driftSet b s).ladder.sources[srcZeroDrift]).cond = b := by
  rw [driftSet_source]
  split
  next ho => rw [raised_cond, withCond_cond, (Bool.and_eq_true_iff.1 ho).1]
  · rw [withCond_cond]

theorem becomeReady_meter (s : State) :
    (becomeReady s).meter = { s.meter with silence := (becomeReady s).meter.silence } := by
  by_cases hs : s.ready = true ∨ s.handler.stationsMark = false ∨ s.handler.scaleMark = false
  · rw [becomeReady_stays hs]
  · simp only [not_or, Bool.not_eq_true, Bool.not_eq_false] at hs
    obtain ⟨hr, hst, hsc⟩ := hs
    rw [becomeReady_starts hr hst hsc, startTimers, (restartSensors_kept _ _).1, restartSilence]
    repeat' split
    all_goals rfl

/-! ### The answer of a load (R191) -/

theorem amendsNothing_iff (s : State) (l : Load) : l.amendsNothing s = true
    ↔ l.set = false ∧ (∀ x ∈ l.fields, x = none) ∧ entryFields s l.table l.entry ≠ none := by
  simp only [Load.amendsNothing, Bool.and_eq_true, Bool.not_eq_true', List.all_eq_true, Option.isNone_iff_eq_none,
    Option.isSome_iff_ne_none, and_assoc]

theorem entryFields_taken (e : RxEntry) (rest : List RxEntry) (row : Instr) (s : State) {t : TableId} (k : Nat)
    (ht : t ≠ .alarm) : entryFields (takeHead .U e rest row s) t k = entryFields s t k := by
  unfold entryFields
  cases t <;> simp_all

theorem entryFields_taken_none (e : RxEntry) (rest : List RxEntry) (row : Instr) (s : State) (t : TableId) (k : Nat) :
    entryFields (takeHead .U e rest row s) t k = none ↔ entryFields s t k = none := by
  by_cases ht : t = .alarm
  · subst ht
    simp only [entryFields, entryAt, Option.map_eq_none_iff]
    split <;> simp
  · rw [entryFields_taken e rest row s k ht]

theorem amendsNothing_taken (e : RxEntry) (rest : List RxEntry) (row : Instr) (s : State) (l : Load) :
    l.amendsNothing (takeHead .U e rest row s) = l.amendsNothing s := by
  rw [Bool.eq_iff_iff, amendsNothing_iff, amendsNothing_iff, Ne, entryFields_taken_none]

section
variable {s : State} {e : RxEntry} {rest : List RxEntry} {l : Load} (h : Heads s .U .load e rest)
  (hf : loadHeaderFails (e.frame.payload.drop 1) = false) (hl : parseLoad e.frame.payload = some l)
include h hf hl

/-- An AMEND with an empty mask on a loaded entry is accepted and changes nothing, but for a sensor's entry. -/
theorem takes_loadNothing (hn : l.amendsNothing s = true) (ht : l.table ≠ .dust ∨ l.entry = 0) :
    Takes s .U .load e rest [] fun t => Offered .U (answerFrame s e.frame [1, 0, 0]) s t := by
  have hrun : treatLoad e.frame (takeHead .U e rest .load s) = answerDone e.frame [] (takeHead .U e rest .load s) := by
    rw [treatLoad_run _ _ l hf hl, runLoad, if_pos (by rw [amendsNothing_taken, hn]), applyNothing, dif_neg]
    rintro ⟨htable, hentry, -⟩
    exact ht.elim (absurd htable) hentry
  refine takes_of (xs := [.send .U]) treatLoad h rfl ?_ (by decide) ?_
  · rw [hrun]
    exact answerDone_changes _ _ _
  · rw [hrun]
    exact offered_done (by rw [load_code h]) (.refl _)

variable {α : Type} {j : Except Reason α} {effect : α → State → State} (hn : l.amendsNothing s = false)
  (ht : loadTable e.frame l (takeHead .U e rest .load s)
    = answerJudged e.frame j effect (takeHead .U e rest .load s))
include hn ht

theorem takes_judgedRefused {r : Reason} (hj : j = .error r) :
    Takes s .U .load e rest [] fun t => Offered .U (answerFrame s e.frame [1, 1, r.code]) s t := by
  refine takes_loadRefused r h hf hl ?_
  rw [runLoad, if_neg (by rw [amendsNothing_taken, hn]; simp), ht, hj]
  rfl

theorem takes_judgedDone {x : α} (hj : j = .ok x) {xs changed : List Block} {post : State → Prop}
    (hc : ∀ u, OnlyChanges xs u (effect x u)) (hk : ∀ u, Keeps u (effect x u))
    (hp : post (endEvent (effect x (answered e rest .load s))))
    (hx : ∀ b ∈ xs, b ∈ closing ++ changed := by decide) :
    Takes s .U .load e rest changed fun t => post t ∧ Offered .U (answerFrame s e.frame [1, 0, 0]) s t := by
  refine takes_loadDone effect x h hf hl ?_ hc hk hp hx
  rw [runLoad, if_neg (by rw [amendsNothing_taken, hn]; simp), ht, hj]
  rfl

end

/-! ### SCALE -/

theorem driftSet_kept (b : Bool) (s : State) : (driftSet b s).handler = s.handler ∧ (driftSet b s).meter = s.meter
    ∧ (driftSet b s).dust = s.dust ∧ (driftSet b s).now = s.now := by
  unfold driftSet
  split <;> simp

theorem evalDrift_kept (s : State) : (evalDrift s).handler = s.handler ∧ (evalDrift s).meter = s.meter
    ∧ (evalDrift s).dust = s.dust ∧ (evalDrift s).now = s.now := by
  cases h : s.meter.table with
  | none =>
    rw [evalDrift, h]
    exact ⟨rfl, rfl, rfl, rfl⟩
  | some sc =>
    rw [evalDrift_eq h]
    exact driftSet_kept _ s

theorem restartSilence_meter (s : State) :
    (restartSilence s).meter = { s.meter with silence := (restartSilence s).meter.silence } := by
  unfold restartSilence
  repeat' split
  all_goals rfl

/-- What an accepted SCALE load leaves (R12, R17, R18, R188). -/
theorem applyScale_loaded (x : ScaleTable) (s : State) :
    let t := applyScale x s
    t.meter.table = some x ∧ t.meter.prev = none ∧ t.handler.scaleMark = true
      ∧ t.ready = (s.ready || s.handler.stationsMark)
      ∧ t.meter.silence = (if t.ready then some (s.now + x.scaleSilence) else s.meter.silence)
      ∧ (∀ i : SensorNo, s.ready = false → t.ready = true → t.dust.sensors[i] = (s.dust.sensors[i]).started s.now)
      ∧ (t.ladder.sources[srcZeroDrift]).cond = decide (x.driftLimit * 1000000 < s.meter.drift) := by
  intro t
  set s1 : State := { s with meter := { s.meter with table := some x, prev := none } } with hs1
  obtain ⟨hdust1, hnow1, hhandler1⟩ := restartSilence_kept s1
  have hmeter1 := restartSilence_meter s1
  have hsilence1 := restartSilence_silence (s := s1) (sc := x) rfl
  obtain ⟨hhandler, hmeter, hdust, hnow⟩ := evalDrift_kept (restartSilence s1)
  have hcond : ((evalDrift (restartSilence s1)).ladder.sources[srcZeroDrift]).cond
      = decide (x.driftLimit * 1000000 < s.meter.drift) := by
    rw [evalDrift_eq (sc := x) (by rw [hmeter1]), driftSet_cond, hmeter1]
  set u := evalDrift (restartSilence s1) with hu
  set v : State := { u with handler := { u.handler with scaleMark := true } } with hv
  have htv : t = becomeReady v := rfl
  have hvhandler : v.handler = { s.handler with scaleMark := true } := by rw [hv, hhandler, hhandler1]
  have hvready : v.ready = s.ready := by rw [State.ready, hvhandler]; rfl
  have hvmeter : v.meter = { s1.meter with silence := (restartSilence s1).meter.silence } := hmeter.trans hmeter1
  have hvtable : v.meter.table = some x := by rw [hvmeter]
  have hvnow : v.now = s.now := hnow.trans hnow1
  have hready : t.ready = (s.ready || s.handler.stationsMark) := by
    rw [htv, becomeReady_ready, hvready, hvhandler]
    simp
  have htmeter := becomeReady_meter v
  rw [← htv] at htmeter
  refine ⟨by rw [htmeter, hvmeter], by rw [htmeter, hvmeter], ?_, hready, ?_, fun i hr hr' => ?_, ?_⟩
  · rw [htv, (becomeReady_marks v).2, hvhandler]
  · rw [htv, becomeReady_silence hvtable, hvnow, hvready, hvmeter, ← htv, hready]
    cases hr : s.ready with
    | true =>
      rw [if_neg (by simp)]
      exact hsilence1.trans (if_pos hr)
    | false =>
      rw [hsilence1, show s1.ready = false from hr]
      simp [hs1]
  · rw [htv, becomeReady_sensors, if_pos ⟨hvready.trans hr, htv ▸ hr'⟩, hvnow]
    exact congrArg (fun d : Dust => (d.sensors[i]).started s.now) (hdust.trans hdust1)
  · rw [htv, (becomeReady_changes v).sources srcZeroDrift]
    exact hcond

/-! ### STATIONS -/

/-- The role of an entry of the station table (R176). -/
def roleOf (k : Fin 14) : Role :=
  if k.val = 0 then .scale else if k.val = 1 then .feeder else if k.val = 2 then .gantry else if k.val = 3 then .shuttle
  else if k.val = 4 then .chute else if k.val = 5 then .holdsense else .dust ⟨k.val - 6, by omega⟩

theorem roleOf_index (r : Role) : roleOf r.index = r := by
  cases r with
  | dust i =>
    revert i
    decide
  | _ => rfl

theorem role_index_injective {r r' : Role} (h : r.index = r'.index) : r = r' := by
  rw [← roleOf_index r, h, roleOf_index]

/-- The blocks that a changed address empties (R18, R42, R43, R90, R119). -/
def roleBlocks : List Block := [.sensors, .prev, .axes, .sense, .feeder, .held, .send .U, .send .D, .injection]

theorem roleChanged_blocks (k : Nat) (s : State) : OnlyChanges roleBlocks s (roleChanged k s) := by
  unfold roleChanged
  split
  · intro b hb
    cases b <;> simp_all [Same, roleBlocks]
  · exact (setFeeder_changes _ s).mono
  · exact (putAxis_changes _ _ s).mono
  · exact (putAxis_changes _ _ s).mono
  · exact (putAxis_changes _ _ s).mono
  · exact (setSense_changes _ s).mono
  · split
    · exact (restartSensor_changes _ s).mono
    · exact OnlyChanges.refl _ s

theorem roleChanged_dust (i : SensorNo) (s : State) : roleChanged (Role.dust i).index.val s = restartSensor i s := by
  have hi : (Role.dust i).index.val = i.val + 6 := Nat.add_comm 6 i.val
  rw [hi]
  simp [roleChanged]

/-- The sensors of a part that is not READY stay. -/
theorem roleChanged_sensors (r : Role) {s : State} (h : s.ready = false) :
    (roleChanged r.index.val s).dust.sensors = s.dust.sensors := by
  cases r with
  | scale => rfl
  | feeder => exact (setFeeder_changes .unknown s).same .sensors
  | gantry => rfl
  | shuttle => rfl
  | chute => rfl
  | holdsense => rfl
  | dust i => rw [roleChanged_dust, restartSensor_waiting i h]

/-- What a changed address empties or restarts (R18, R42, R43, R90, R119). -/
def Emptied (r : Role) (s t : State) : Prop :=
  (r = .scale → t.meter.prev = none) ∧ (r = .feeder → t.gate.feeder = .unknown)
    ∧ (∀ a : Axis, r = a.role → t.place.axes.get a = { pos := none, motion := none })
    ∧ (r = .holdsense → t.place.sense = none)
    ∧ (∀ (i : SensorNo) (en : SensorEntry), r = .dust i → s.ready = true →
        (s.dust.sensors[i]).entry = some en → en.enabled = true →
        (t.dust.sensors[i]).timer = some (s.now + en.silenceTime))

theorem roleChanged_emptied (r : Role) (s : State) : Emptied r s (roleChanged r.index.val s) := by
  refine ⟨?_, ?_, fun a => ?_, ?_, fun i en => ?_⟩
  · rintro rfl
    rfl
  · rintro rfl
    exact congrArg Gate.feeder (setFeeder_kept .unknown s).1
  · rintro rfl
    cases a <;> rfl
  · rintro rfl
    rfl
  · rintro rfl hr hen hon
    rw [roleChanged_dust, restartSensor_ready i hr, setSensor_get, if_pos rfl, started_loaded hen, hon]
    rfl

/-- The part after a STATIONS load, before the change to READY. -/
def stationed (r : Role) (addr : Option Byte) (s : State) : State :=
  let u := restartSilence { s with stations := upd s.stations r.index addr }
  if s.station r ≠ addr then roleChanged r.index.val u else u

theorem applyStation_eq (r : Role) (addr : Option Byte) (s : State) : applyStation r.index.val addr s
    = becomeReady { stationed r addr s with
        handler := { (stationed r addr s).handler with stationsMark := true } } := by
  rw [applyStation, dif_pos r.index.isLt]
  by_cases h : s.station r = addr
  · have hsame : (s.stations[r.index.val] != addr) = false := by simpa [State.station] using h
    simp only [hsame, stationed, h, ne_eq, not_true, if_false]
    rfl
  · have hchanged : (s.stations[r.index.val] != addr) = true := by simpa [State.station] using h
    simp only [hchanged, stationed, h, ne_eq, not_false_eq_true, if_true]

/-- What a STATIONS load leaves before the change to READY. -/
theorem stationed_spec (r : Role) (addr : Option Byte) (s : State) :
    let u := stationed r addr s
    u.stations = upd s.stations r.index addr ∧ u.handler.part = s.handler.part ∧ u.handler.scaleMark = s.handler.scaleMark
      ∧ u.now = s.now ∧ u.meter.table = s.meter.table
      ∧ (∀ sc, s.meter.table = some sc → u.meter.silence = if s.ready then some (s.now + sc.scaleSilence) else s.meter.silence)
      ∧ (s.ready = false → u.dust.sensors = s.dust.sensors) ∧ (s.station r ≠ addr → Emptied r s u) := by
  intro u
  set s1 : State := { s with stations := upd s.stations r.index addr } with hs1
  obtain ⟨hdust1, hnow1, hhandler1⟩ := restartSilence_kept s1
  have hmeter1 := restartSilence_meter s1
  have hc1 := restartSilence_changes s1
  have hstations1 : (restartSilence s1).stations = upd s.stations r.index addr := hc1.same .stations
  have hready1 : (restartSilence s1).ready = s.ready := restartSilence_ready s1
  have htable1 : (restartSilence s1).meter.table = s.meter.table := by rw [hmeter1]
  have hsilence1 (sc : ScaleTable) (hsc : s.meter.table = some sc) := restartSilence_silence (s := s1) hsc
  by_cases h : s.station r = addr
  · have hu : u = restartSilence s1 := if_neg (not_not.2 h)
    rw [hu]
    exact ⟨hstations1, by rw [hhandler1], by rw [hhandler1], hnow1, htable1, hsilence1, fun _ => by rw [hdust1],
      fun hn => absurd h hn⟩
  · have hu : u = roleChanged r.index.val (restartSilence s1) := if_pos h
    have hc := roleChanged_blocks r.index.val (restartSilence s1)
    obtain ⟨hpart, -, hscale⟩ := hc.same .part
    have hempty := roleChanged_emptied r (restartSilence s1)
    rw [hu]
    refine ⟨Eq.trans (hc.same .stations) hstations1, by rw [hpart, hhandler1], by rw [hscale, hhandler1],
      Eq.trans (hc.same .clock) hnow1, Eq.trans (hc.same .scale) htable1, fun sc hsc => ?_, fun hr => ?_, fun _ => ?_⟩
    · exact Eq.trans (hc.same .silence) (hsilence1 sc hsc)
    · rw [roleChanged_sensors r (hready1.trans hr), hdust1]
    · obtain ⟨hprev, hfeeder, haxis, hsense, htimer⟩ := hempty
      refine ⟨hprev, hfeeder, haxis, hsense, fun i en hi hr hen hon => ?_⟩
      rw [htimer i en hi (hready1.trans hr) (by rw [hdust1]; exact hen) hon, hnow1]

/-- What an accepted STATIONS load leaves (R17, R18, R176, R188). -/
theorem applyStation_loaded (r : Role) (addr : Option Byte) (s : State) :
    let t := applyStation r.index.val addr s
    t.stations = upd s.stations r.index addr ∧ t.handler.stationsMark = true
      ∧ t.ready = (s.ready || s.handler.scaleMark)
      ∧ (∀ sc, s.meter.table = some sc →
          t.meter.silence = if t.ready then some (s.now + sc.scaleSilence) else s.meter.silence)
      ∧ (∀ i : SensorNo, s.ready = false → t.ready = true → t.dust.sensors[i] = (s.dust.sensors[i]).started s.now)
      ∧ (s.station r ≠ addr → Emptied r s t) := by
  intro t
  obtain ⟨hstations, hpart, hscale, hnow, htable, hsilence, hsensors, hempty⟩ := stationed_spec r addr s
  have ht := applyStation_eq r addr s
  set u := stationed r addr s with hu
  set v : State := { u with handler := { u.handler with stationsMark := true } } with hv
  have htv : t = becomeReady v := ht
  have hvready : v.ready = s.ready := by rw [State.ready, State.ready, ← hpart]
  have hvmeter : v.meter = u.meter := rfl
  have hready : t.ready = (s.ready || s.handler.scaleMark) := by
    rw [htv, becomeReady_ready, hvready, ← hscale]
    simp [hv]
  have hc := becomeReady_changes v
  refine ⟨?_, ?_, hready, fun sc hsc => ?_, fun i hr hr' => ?_, fun hne => ?_⟩
  · rw [htv]
    exact Eq.trans (hc.same .stations) hstations
  · rw [htv, (becomeReady_marks v).1]
  · rw [htv, becomeReady_silence (s := v) (htable.trans hsc), hvready, hvmeter, hsilence sc hsc, ← htv, hready]
    cases hr : s.ready with
    | true => simp
    | false =>
      rw [show v.now = s.now from hnow]
      simp
  · rw [htv, becomeReady_sensors, if_pos ⟨hvready.trans hr, htv ▸ hr'⟩]
    exact congr (congrArg Sensor.started hnow) (congrArg (fun x : Vector Sensor 8 => x[i]) (hsensors hr))
  · obtain ⟨hprev, hfeeder, haxis, hsense, htimer⟩ := hempty hne
    refine ⟨fun hr => ?_, fun hr => ?_, fun a hr => ?_, fun hr => ?_, fun i en hi hr hen hon => ?_⟩
    · rw [htv]
      exact Eq.trans (hc.same .prev) (hprev hr)
    · rw [htv]
      exact Eq.trans (hc.same .feeder) (hfeeder hr)
    · rw [htv]
      exact (congrArg (fun x : Axes => x.get a) (hc.same .axes : _ = _)).trans (haxis a hr)
    · rw [htv]
      exact Eq.trans (hc.same .sense) (hsense hr)
    · rw [htv, becomeReady_stays (.inl (hvready.trans hr))]
      exact htimer i en hi hr hen hon

/-! ### Judging the two loads -/

theorem buildStation_merged {s : State} {l : Load} {r : Role} {addr : Option Byte} (ht : l.table = .stations)
    (he : l.entry = r.index.val) (hsome : ∀ a, addr = some a → l.fields = [some a.toNat] ∧ 1 ≤ a.toNat ∧ a.toNat ≤ 62)
    (hnone : addr = none → l.fields = [none] ∧ (l.set = true ∨ s.station r = none)) :
    inRanges (fieldRanges l.table l.entry) l.fields = true ∧ buildStation (l.merged s) = some addr
      ∧ l.amendsNothing s = false := by
  have hentry : entryFields s .stations r.index.val = (s.station r).map fun a => [some a.toNat] := by
    rw [entryFields, entryAt_val, Option.join_some]
    rfl
  cases addr with
  | some a =>
    obtain ⟨hfields, hlo, hhi⟩ := hsome a rfl
    have hm : l.merged s = [some a.toNat] := by
      rw [Load.merged, ht, he, hentry, hfields]
      split
      · rfl
      · cases s.station r <;> rfl
    refine ⟨by simp [ht, hfields, inRanges, fieldRanges, between, hlo, hhi], ?_, ?_⟩
    · rw [hm]
      simp [buildStation, byteOf]
    · rw [← Bool.not_eq_true, amendsNothing_iff]
      rintro ⟨-, hall, -⟩
      simp [hfields] at hall
  | none =>
    obtain ⟨hfields, hset⟩ := hnone rfl
    have hm : l.merged s = [none] := by
      rw [Load.merged, ht, he, hentry, hfields]
      rcases hset with hset | hset
      · simp [hset, defaultFields]
      · simp [hset, defaultFields]
    refine ⟨by simp [ht, hfields, inRanges, fieldRanges], ?_, ?_⟩
    · rw [hm]
      rfl
    · rw [← Bool.not_eq_true, amendsNothing_iff, ht, he, hentry]
      rintro ⟨hnot, -, hloaded⟩
      rcases hset with hset | hset
      · simp [hset] at hnot
      · simp [hset] at hloaded

theorem duplicateAddress_iff (s : State) (r : Role) (a : Byte) : duplicateAddress s r.index.val a = true
    ↔ a = s.handler.ownAddr ∨ ∃ r' : Role, r' ≠ r ∧ s.station r' = some a := by
  simp only [duplicateAddress, Bool.or_eq_true, beq_iff_eq, List.any_eq_true, List.mem_finRange, true_and,
    Bool.and_eq_true, bne_iff_ne]
  refine or_congr_right ⟨?_, ?_⟩
  · rintro ⟨k, hk, ha⟩
    obtain ⟨r', rfl⟩ := index_surjective k
    exact ⟨r', fun h => hk (by rw [h]), ha⟩
  · rintro ⟨r', hr, ha⟩
    exact ⟨r'.index, fun h => hr (role_index_injective (Fin.ext h)), ha⟩

theorem anyEntry_false_iff (g : Gate) : g.anyEntry = false ↔ ∀ d, g.entry d = none := by
  simp only [Gate.anyEntry, Bool.or_eq_false_iff, Option.isSome_eq_false_iff, Option.isNone_iff_eq_none]
  refine ⟨?_, fun h => ⟨⟨h .feeder, h (.drive .gantry)⟩, h (.drive .shuttle)⟩⟩
  rintro ⟨⟨hf, hg⟩, hs⟩ (_ | (_ | _))
  exacts [hf, hg, hs]

theorem stationBusy_false_iff (s : State) : stationBusy s = false
    ↔ (pourPhase s = false ∧ s.meter.zero = none) ∧ s.place.sweep = none ∧ ∀ d, s.gate.entry d = none := by
  simp only [stationBusy, Bool.or_eq_false_iff, anyEntry_false_iff, Option.isSome_eq_false_iff, Option.isNone_iff_eq_none,
    and_assoc]

theorem stationBusy_taken (e : RxEntry) (rest : List RxEntry) (row : Instr) (s : State) :
    stationBusy (takeHead .U e rest row s) = stationBusy s := by
  simp [stationBusy, pourPhase_taken]

theorem duplicateAddress_taken (e : RxEntry) (rest : List RxEntry) (row : Instr) (s : State) (k : Nat) (a : Byte) :
    duplicateAddress (takeHead .U e rest row s) k a = duplicateAddress s k a := by
  simp [duplicateAddress]

end Sys2Proof.Machine

open Sys2Proof Sys2Proof.Machine

/-- Settles O45. -/
theorem tablesLoadedMakeReady : Obligations.TablesLoadedMakeReady := by
  intro s e rest l h hf hl calm refused sensorsStart
  set s1 := takeHead .U e rest .load s with hs1
  have hready1 : s1.ready = s.ready := by simp [hs1, State.ready]
  -- the start of the sensors' timers, from what the effect does to the answered state
  have hstart {t : State} (ht : ∀ i : SensorNo, s.ready = false → t.ready = true →
      t.dust.sensors[i] = (s.dust.sensors[i]).started s.now) : sensorsStart t :=
    fun i en hr hr' hen => (ht i hr hr').trans (started_loaded hen)
  obtain ⟨hhandler, hstations, -, hnow, hmeter, -, -, -, hgate, hdust, -⟩ := answered_fields e rest .load s
  refine ⟨fun ht hset hfields htable => ?_, ?_, ?_⟩
  · refine takes_loadNothing h hf hl ?_ (.inl (by rw [ht]; decide))
    rw [amendsNothing_iff, ht]
    exact ⟨hset, hfields, by simpa [entryFields] using htable⟩
  · intro x ht hin hb hmarked ready
    have hn : l.amendsNothing s = false := by
      rw [← Bool.not_eq_true, amendsNothing_iff, ht]
      rintro ⟨hset, hfields, hentry⟩
      rcases hmarked with hm | ⟨v, hv, hm⟩ | hm
      · simp [hset] at hm
      · exact hm (hfields v hv)
      · simp [entryFields, hm] at hentry
    have hload : loadTable e.frame l s1 = answerJudged e.frame (judgeLoad s1 l buildScale noRelation
        fun _ => pourPhase s1 || s1.meter.zero.isSome) applyScale s1 := by rw [loadTable, ht]
    have hj : judgeLoad s1 l buildScale noRelation (fun _ => pourPhase s1 || s1.meter.zero.isSome)
        = if pourPhase s || s.meter.zero.isSome then .error .busy else .ok x := by
      rw [judgeLoad_in s1 l _ _ _ x (by rw [ht]; exact hin) (by rw [merged_taken _ _ _ _ _ (by rw [ht]; decide)]; exact hb),
        hs1, pourPhase_taken]
      simp [noRelation]
    have hcalm_iff : (pourPhase s || s.meter.zero.isSome) = false ↔ calm := by
      simp only [calm, Bool.or_eq_false_iff, Option.isSome_eq_false_iff, Option.isNone_iff_eq_none]
    refine ⟨fun hcalm => ?_, fun hbusy => ?_⟩
    · obtain ⟨htable, hprev, hmark, hready, hsilence, hsensors, hdrift⟩ :=
        applyScale_loaded x (answered e rest .load s)
      have hclosed := endEvent_closes (applyScale x (answered e rest .load s))
      obtain ⟨-, -, -, hmeter', hdust', -, -, -, -, hsources', -⟩ := hclosed
      obtain ⟨hhandler', -⟩ := endEvent_fields (applyScale x (answered e rest .load s))
      have hreadyA : (answered e rest .load s).ready = s.ready := by rw [State.ready, hhandler, State.ready]
      have hready' : (endEvent (applyScale x (answered e rest .load s))).ready = ready := by
        rw [State.ready, hhandler']
        exact hready.trans (by rw [hreadyA, hhandler])
      refine (takes_judgedDone (post := fun t => t.meter.table = some x ∧ t.meter.prev = none ∧ t.handler.scaleMark = true
        ∧ t.ready = ready ∧ t.meter.silence = (if ready then some (s.now + x.scaleSilence) else s.meter.silence)
        ∧ sensorsStart t ∧ (t.ladder.sources[srcZeroDrift]).cond = decide (x.driftLimit * 1000000 < s.meter.drift))
        h hf hl hn hload (hj.trans (if_neg (by rw [hcalm_iff.2 hcalm]; simp))) (applyScale_changes x)
        (fun u => .frame (applyScale_changes x u)) ?_).imp fun t ⟨⟨h1, h2, h3, h4, h5, h6, h7⟩, h8⟩ => ⟨h1, h2, h3, h4, h5, h6, h7, h8⟩
      refine ⟨by rw [hmeter']; exact htable, by rw [hmeter']; exact hprev, by rw [hhandler']; exact hmark, hready', ?_,
        hstart fun i hr hr' => ?_, ?_⟩
      · rw [hmeter']
        rw [hready, hreadyA, hnow, hmeter, hhandler] at hsilence
        exact hsilence
      · rw [hdust']
        have hi := hsensors i (hreadyA.trans hr) (by rw [State.ready, ← hhandler']; exact hr')
        rw [hdust, hnow] at hi
        exact hi
      · rw [hsources', ← hmeter]
        exact hdrift
    · refine takes_judgedRefused h hf hl hn hload (hj.trans (if_pos ?_))
      rw [← Bool.not_eq_false, hcalm_iff]
      exact hbusy
  · intro r addr ht he hsome hnone free single
    obtain ⟨hin, hb, hn⟩ := buildStation_merged ht he hsome hnone
    have hload : loadTable e.frame l s1 = answerJudged e.frame (judgeLoad s1 l buildStation (stationRelation s1 l.entry)
        fun _ => stationBusy s1) (applyStation l.entry) s1 := by rw [loadTable, ht]
    have hj := judgeLoad_in s1 l buildStation (stationRelation s1 l.entry) (fun _ => stationBusy s1) addr hin
      (by rw [merged_taken _ _ _ _ _ (by rw [ht]; decide)]; exact hb)
    have hrelation : stationRelation s1 l.entry addr = none ↔ single := by
      cases ha : addr with
      | none => simp [stationRelation, single, ha]
      | some a =>
        have hdup : duplicateAddress s1 l.entry a = duplicateAddress s r.index.val a := by
          rw [he, hs1, duplicateAddress_taken]
        simp only [stationRelation, hdup, ite_eq_right_iff, reduceCtorEq, imp_false, duplicateAddress_iff, single, ha,
          Option.some.injEq, forall_eq', not_or, not_exists, not_and]
    have hbusy_iff : stationBusy s1 = false ↔ free := by rw [hs1, stationBusy_taken, stationBusy_false_iff]
    refine ⟨fun hsingle hfree => ?_, fun hsingle hbusy => ?_, fun a ha hdup => ?_⟩
    · have hA : (answered e rest .load s).ready = s.ready ∧ ∀ r', (answered e rest .load s).station r' = s.station r' :=
        ⟨by rw [State.ready, hhandler, State.ready], fun r' => by rw [State.station, hstations, State.station]⟩
      obtain ⟨hreadyA, hstationA⟩ := hA
      obtain ⟨hstations', hmark, hready, hsilence, hsensors, hempty⟩ :=
        applyStation_loaded r addr (answered e rest .load s)
      set u := applyStation r.index.val addr (answered e rest .load s) with hu
      obtain ⟨-, -, -, hmeterE, hdustE, hgateE, -⟩ := endEvent_closes u
      obtain ⟨hhandlerE, hstationsE, -, -, -, -, hplaceE, -⟩ := endEvent_fields u
      have hreadyE : (endEvent u).ready = u.ready := by rw [State.ready, hhandlerE, State.ready]
      have hget (r' : Role) : (endEvent u).station r' = if r.index = r'.index then addr else s.station r' := by
        rw [State.station, hstationsE, hstations', upd_get_ite, hstations, State.station]
      refine (takes_judgedDone (post := fun t => t.station r = addr ∧ (∀ r' : Role, r' ≠ r → t.station r' = s.station r')
        ∧ t.handler.stationsMark = true ∧ t.ready = (s.ready || s.handler.scaleMark)
        ∧ (∀ sc, s.meter.table = some sc →
            t.meter.silence = if t.ready then some (s.now + sc.scaleSilence) else s.meter.silence)
        ∧ sensorsStart t ∧ (s.station r ≠ addr → Emptied r s t))
        h hf hl hn hload (hj.trans ?_) (fun u => applyStation_changes l.entry addr u) (applyStation_keeps l.entry addr)
        ?_).imp fun t ⟨⟨h1, h2, h3, h4, h5, h6, h7⟩, h8⟩ => ⟨h1, h2, h3, h4, h5, h6, h7, h8⟩
      · rw [hrelation.2 hsingle, if_neg]
        rw [hbusy_iff.2 hfree]
        simp
      · rw [he, ← hu]
        refine ⟨by rw [hget, if_pos rfl], fun r' hr' => ?_, by rw [hhandlerE, hmark], ?_, fun sc hsc => ?_,
          hstart fun i hr hr' => ?_, fun hne => ?_⟩
        · rw [hget, if_neg fun hi => hr' (role_index_injective hi).symm]
        · rw [hreadyE, hready, hreadyA, hhandler]
        · rw [hreadyE, hmeterE, hsilence sc (by rw [hmeter]; exact hsc), hnow, hmeter]
        · rw [hdustE, hsensors i (hreadyA.trans hr) (hreadyE.symm.trans hr'), hdust, hnow]
        · obtain ⟨hprev, hfeeder, haxis, hsense, htimer⟩ := hempty (by rw [hstationA]; exact hne)
          refine ⟨fun hr => ?_, fun hr => ?_, fun a hr => ?_, fun hr => ?_, fun i en hr hs hen hon => ?_⟩
          · rw [hmeterE, hprev hr]
          · rw [hgateE, hfeeder hr]
          · rw [hplaceE, haxis a hr]
          · rw [hplaceE, hsense hr]
          · rw [hdustE, htimer i en hr (hreadyA.trans hs) (by rw [hdust]; exact hen) hon, hnow]
    · refine takes_judgedRefused h hf hl hn hload (hj.trans ?_)
      rw [hrelation.2 hsingle, if_pos]
      rw [← Bool.not_eq_false, hbusy_iff]
      exact hbusy
    · refine takes_judgedRefused h hf hl hn hload (hj.trans ?_)
      rw [he, ha, stationRelation, if_pos]
      rw [hs1, duplicateAddress_taken, duplicateAddress_iff]
      exact hdup

end

section
/-! ## The loads of the other tables (R41, R44, R65 to R68, R92, R95, R109 to R111, R117, R135, R136, R151, R191)

The header and the fields of a load, what each table's judging answers, and what each accepted load leaves. -/

set_option Elab.async false

namespace Sys2Proof.Machine

/-! ### The header -/

theorem beNat_pair (a b : Byte) : beNat [a, b] = a.toNat * 256 + b.toNat := by simp [beNat]

theorem loadHeaderFails_false_iff (c en md a b : Byte) (vals : List Byte) :
    loadHeaderFails (c :: en :: md :: a :: b :: vals) = false ↔
      ∃ tab, TableId.fromCode c.toNat = some tab ∧ tab ≠ .accounts ∧ tab.hasEntry en.toNat = true ∧ (md = 1 ∨ md = 2)
        ∧ a.toNat * 256 + b.toNat < 2 ^ (tab.widths en.toNat).length := by
  rw [← beNat_pair]
  simp only [loadHeaderFails]
  split
  next h => simp [h]
  next h => simp [h]
  next tab hacc h =>
    simp only [h, Bool.or_eq_false_iff, Bool.not_eq_false', decide_eq_false_iff_not, Nat.not_le, Option.some.injEq,
      exists_eq_left', Bool.and_eq_false_iff, bne_eq_false_iff_eq]
    exact ⟨fun ⟨he, hm, hl⟩ => ⟨hacc, he, hm, hl⟩, fun ⟨_, he, hm, hl⟩ => ⟨he, hm, hl⟩⟩

/-- A load whose header fails is refused (R191). -/
theorem treatLoad_header {f : Frame} {s : State} (h : loadHeaderFails (f.payload.drop 1) = true) :
    treatLoad f s = answerRefused f .badValue s := by rw [treatLoad, if_pos h]

/-- The GATE load that carries the window `w`. -/
def gateLoad (m : Byte) (w : Option Nat) : Load := { table := .gate, entry := 0, set := m == 1, fields := [w] }

theorem gate_carries {f : Frame} {m a b : Byte} (h : f.payload = [1, 8, 0, m, 0, 1, a, b]) (hm : m = 1 ∨ m = 2) :
    loadHeaderFails (f.payload.drop 1) = false
      ∧ parseLoad f.payload = some (gateLoad m (some (a.toNat * 256 + b.toNat))) := by
  rw [h]
  refine ⟨(loadHeaderFails_false_iff _ _ _ _ _ _).2 ⟨.gate, rfl, by decide, rfl, hm, by decide⟩, ?_⟩
  simp [parseLoad, TableId.fromCode, TableId.widths, unpack, beNat, gateLoad]

theorem gate_carriesNothing {f : Frame} (h : f.payload = [1, 8, 0, 1, 0, 0]) :
    loadHeaderFails (f.payload.drop 1) = false ∧ parseLoad f.payload = some (gateLoad 1 none) := by
  rw [h]
  exact ⟨by decide, by decide⟩

/-! ### Judging -/

section
variable {α : Type} {s : State} {l : Load} {build : List (Option Nat) → Option α} {relation : α → Option Reason}
  {busy : α → Bool} {x : α}

theorem judge_ok (hin : inRanges (fieldRanges l.table l.entry) l.fields = true) (hb : build (l.merged s) = some x)
    (hr : relation x = none) (hy : busy x = false) : judgeLoad s l build relation busy = .ok x := by
  rw [judgeLoad_in s l _ _ _ x hin hb, hr, hy]
  rfl

theorem judge_busy (hin : inRanges (fieldRanges l.table l.entry) l.fields = true) (hb : build (l.merged s) = some x)
    (hr : relation x = none) (hy : busy x = true) : judgeLoad s l build relation busy = .error .busy := by
  rw [judgeLoad_in s l _ _ _ x hin hb, hr, hy]
  rfl

theorem judge_relation {r : Reason} (hin : inRanges (fieldRanges l.table l.entry) l.fields = true)
    (hb : build (l.merged s) = some x) (hr : relation x = some r) : judgeLoad s l build relation busy = .error r := by
  rw [judgeLoad_in s l _ _ _ x hin hb, hr]

/-- A relation that fails with BAD_VALUE is refused so, whether or not the fields lie in range. -/
theorem judge_badValue (hb : build (l.merged s) = some x) (hr : relation x = some .badValue) :
    judgeLoad s l build relation busy = .error .badValue := by
  by_cases hin : inRanges (fieldRanges l.table l.entry) l.fields = true
  · exact judge_relation hin hb hr
  · exact judgeLoad_out _ _ _ _ _ hin

/-- The entry as it stands after the load, over fields `base`. -/
theorem merged_eq (s : State) (l : Load) : l.merged s = List.zipWith (fun new x => new <|> x) l.fields
    (if l.set then defaultFields l.table l.entry
      else (entryFields s l.table l.entry).getD (defaultFields l.table l.entry)) := rfl

end

/-- Taking the frame leaves the entry that a load is merged into. -/
theorem merged_takeHead (s : State) (e : RxEntry) (rest : List RxEntry) (row : Instr) (l : Load) :
    l.merged (takeHead .U e rest row s) = l.merged s := by
  by_cases ht : l.table = .alarm
  · have hentry : entryFields (takeHead .U e rest row s) .alarm l.entry = entryFields s .alarm l.entry := by
      simp only [entryFields, entryAt]
      split
      next hk =>
        obtain ⟨hrank, hrecord, hpresent⟩ := takeHead_U_alarmTable e rest row s ⟨l.entry, hk⟩
        rw [Option.map_some, Option.map_some, Source.fields, Source.fields]
        exact congrArg some (congr (congrArg List.cons (congrArg some hrank))
          (congr (congrArg List.cons (congrArg boolField hrecord)) (congrArg (fun p => [boolField p]) hpresent)))
      · rfl
    rw [merged_eq, merged_eq, ht, hentry]
  · exact merged_taken s e rest row l ht

theorem between_true {lo hi n : Nat} (h : lo ≤ n) (k : n ≤ hi) : between lo hi n = true := (between_iff lo hi n).2 ⟨h, k⟩

/-! ### TRAVEL and GATE -/

theorem travelRelation_iff (t : TravelTable) : travelRelation t = none
    ↔ t.gantry.low ≤ t.gantry.high ∧ t.shuttle.low ≤ t.shuttle.high ∧ t.chute.low ≤ t.chute.high := by
  rw [travelRelation]
  split <;> simp [*]

theorem travelRelation_bad {t : TravelTable} (h : travelRelation t ≠ none) : travelRelation t = some .badValue := by
  unfold travelRelation at *
  split at h
  · exact absurd rfl h
  next hn => exact if_neg hn

/-! ### ENVELOPES (R44) -/

theorem inside_ranges (x : Envelope) (g sh : Nat) : x.inside g sh = true ↔ (x.innerLow .gantry ≤ g ∧ g ≤ x.innerHigh .gantry)
    ∧ x.innerLow .shuttle ≤ sh ∧ sh ≤ x.innerHigh .shuttle := by
  rw [Envelope.inside, decide_eq_true_iff, and_assoc]

/-- Two inner rectangles overlap when they share a position. -/
theorem overlaps_iff (x y : Envelope) : x.overlaps y = true ↔ ∃ g sh, x.inside g sh = true ∧ y.inside g sh = true := by
  simp only [Envelope.overlaps, decide_eq_true_iff, inside_ranges]
  constructor
  · rintro ⟨hg, hs⟩
    exact ⟨_, _, ⟨⟨le_max_left .., hg.trans (min_le_left ..)⟩, le_max_left .., hs.trans (min_le_left ..)⟩,
      ⟨le_max_right .., hg.trans (min_le_right ..)⟩, le_max_right .., hs.trans (min_le_right ..)⟩
  · rintro ⟨g, sh, ⟨⟨hxg, hxg'⟩, hxs, hxs'⟩, ⟨hyg, hyg'⟩, hys, hys'⟩
    exact ⟨(max_le hxg hyg).trans (le_min hxg' hyg'), (max_le hxs hys).trans (le_min hxs' hys')⟩

/-- The test that an entry of ENVELOPES passes (R44). -/
def EnvelopeSound (s : State) (h : Hold) (x : Envelope) : Prop :=
  x.gantryMin + 2 * x.margin ≤ x.gantryMax ∧ x.shuttleMin + 2 * x.margin ≤ x.shuttleMax
    ∧ ∀ (h' : Hold) (y : Envelope), h' ≠ h → s.place.envelopes[h'] = some y →
      ∀ g sh, ¬ (x.inside g sh = true ∧ y.inside g sh = true)

theorem envelopeRelation_eq (s : State) (h : Hold) (x : Envelope) [Decidable (EnvelopeSound s h x)] :
    envelopeRelation s (h.val + 1) x = if EnvelopeSound s h x then none else some .badEnvelope := by
  rw [envelopeRelation]
  refine if_congr ?_ rfl rfl
  rw [Bool.and_eq_true, Bool.not_eq_true', ← Bool.not_eq_true, List.any_eq_true, Envelope.nonempty, decide_eq_true_iff,
    EnvelopeSound, and_assoc]
  refine and_congr_right fun _ => and_congr_right fun _ => ?_
  simp only [List.mem_finRange, true_and, not_exists, Bool.and_eq_true, bne_iff_ne, ne_eq, Nat.add_right_cancel_iff, not_and,
    Bool.not_eq_true]
  refine forall_congr' fun h' => ?_
  rw [Fin.val_inj]
  constructor
  · intro hno y hne hy g sh hg
    have hover := hno hne
    simp only [hy] at hover
    rw [← Bool.not_eq_true]
    intro hg'
    exact absurd ((overlaps_iff x y).2 ⟨g, sh, hg, hg'⟩) (by simp [hover])
  · intro hno hne
    cases hy : s.place.envelopes[h'] with
    | none => rfl
    | some y =>
      simp only
      rw [← Bool.not_eq_true, overlaps_iff]
      rintro ⟨g, sh, hg, hg'⟩
      simp [hno y hne hy g sh hg] at hg'

theorem isVisitHold_iff (s : State) (h : Hold) : isVisitHold s (h.val + 1) = true ↔ ∃ v, s.seq.visit = some v ∧ v.hold = h := by
  unfold isVisitHold
  cases s.seq.visit <;> simp [Fin.ext_iff]

theorem holdOf_val (h : Hold) : holdOf (h.val + 1) = some h := by
  have hh := h.isLt
  rw [holdOf, dif_pos (by omega)]
  rfl

theorem buildEnvelope_missing {m : List (Option Nat)} (h : none ∈ m.take 5) : buildEnvelope m = none := by
  unfold buildEnvelope
  split
  · simp at h
  · rfl

theorem applyEnvelope_get (h h' : Hold) (x : Envelope) (s : State) :
    (applyEnvelope (h.val + 1) x s).place.envelopes[h'] = if h = h' then some x else s.place.envelopes[h'] := by
  simp only [applyEnvelope, holdOf_val]
  exact upd_get_ite ..

/-! ### HOLDS (R65, R66) -/

theorem buildHold_missing {m : List (Option Nat)} (h : none ∈ m.take 1) : buildHold m = none := by
  unfold buildHold
  split
  · simp at h
  · rfl

theorem applyHold_eq (h : Hold) (x : HoldEntry) (s : State) :
    let u : State := { s with seq := { s.seq with holds := upd s.seq.holds h (some x) } }
    (applyHold (h.val + 1) x s).seq
      = { u.seq with holdStates := upd s.seq.holdStates h (holdAfterLoad u h) } := by
  simp only [applyHold, holdOf_val]

/-- The FULL test that a load of HOLDS makes (R66). -/
theorem holdAfterLoad_eq {s : State} {h : Hold} {x : HoldEntry} (hx : s.seq.holds[h] = some x)
    [Decidable (∃ g, x.target = some g ∧ g * 1000000 ≤ s.ship.accounts[holdAccount h])] :
    holdAfterLoad s h = if ∃ g, x.target = some g ∧ g * 1000000 ≤ s.ship.accounts[holdAccount h] then .full
      else if s.seq.holdStates[h] = .full then .filling else s.seq.holdStates[h] := by
  rw [holdAfterLoad]
  refine if_congr ?_ rfl rfl
  rw [reachesTarget, targetOf, hx]
  cases ht : x.target <;> simp [ht]

/-! ### SEQUENCE (R67) and PLAN (R68, R95) -/

theorem buildSlot_missing {m : List (Option Nat)} (h : none ∈ m) : buildSlot m = none := by
  unfold buildSlot
  split
  · simp at h
  · rfl

theorem buildSlot_hold (h : Hold) (q : Nat) : buildSlot [some (h.val + 1), some q] = some ⟨h, q⟩ := by
  rw [buildSlot, holdOf_val]
  rfl

theorem isVisitSlot_iff (s : State) (i : Fin 16) :
    isVisitSlot s i.val = true ↔ ∃ v, s.seq.visit = some v ∧ v.slot = i := by
  unfold isVisitSlot
  cases s.seq.visit <;> simp [Fin.ext_iff]

theorem slotBusy_iff {s : State} {l : Load} {i : Fin 16} (he : l.entry = i.val) (x : Slot) : slotBusy s l x = true
    ↔ (s.seq.plan = .active ∨ s.seq.plan = .suspended) ∧ (l.set = true ∨ ∀ o, s.seq.slots[i] = some o →
        o.hold ≠ x.hold ∨ (o.quota ≠ x.quota ∧ ∃ v, s.seq.visit = some v ∧ v.slot = i)) := by
  rw [slotBusy, Bool.and_eq_true, planRuns_iff, Bool.or_eq_true, he, entryAt_val, Option.join_some]
  refine and_congr_right fun _ => or_congr_right ?_
  cases s.seq.slots[i] with
  | none => simp
  | some o =>
    simp only [Option.some.injEq, forall_eq', Bool.or_eq_true, Bool.and_eq_true, bne_iff_ne, isVisitSlot_iff]
    exact or_congr_right and_comm

theorem applySlot_get (i j : Fin 16) (x : Slot) (s : State) :
    (applySlot i.val x s).seq.slots[j] = if i = j then some x else s.seq.slots[j] := by
  rw [applySlot, dif_pos i.isLt]
  exact upd_get_ite ..

theorem buildPlan_missing {m : List (Option Nat)} (h : none ∈ m.take 5 ∨ none ∈ m.drop 6) : buildPlan m = none := by
  unfold buildPlan
  split
  · simp at h
  · rfl

theorem order_fromCode (o : Order) : Order.fromCode o.code.toNat = some o := by cases o <;> rfl

theorem planBusy_iff (s : State) (l : Load) (x : PlanHeader) : planBusy s l x = true
    ↔ (s.seq.plan = .active ∨ s.seq.plan = .suspended) ∧ (l.set = true ∨ ∀ o, s.seq.header = some o →
        o.slotCount ≠ x.slotCount ∨ o.order ≠ x.order ∨ o.startSlot ≠ x.startSlot ∨ o.roundLimit ≠ x.roundLimit) := by
  rw [planBusy, Bool.and_eq_true, planRuns_iff, Bool.or_eq_true]
  refine and_congr_right fun _ => or_congr_right ?_
  cases s.seq.header with
  | none => simp
  | some o => simp only [Option.some.injEq, forall_eq', Bool.or_eq_true, bne_iff_ne, or_assoc]

/-- The max rate of the header that a load of PLAN replaces (R95). -/
theorem applyPlan_same {x o : PlanHeader} {s : State} (h : s.seq.header = some o) (hr : o.maxRate = x.maxRate) :
    applyPlan x s = { s with seq := { s.seq with header := some x } } := by
  simp [applyPlan, h, hr]

theorem applyPlan_recomputes {x : PlanHeader} {s : State} (h : ∀ o, s.seq.header = some o → o.maxRate ≠ x.maxRate) :
    applyPlan x s = recomputeLimit { s with seq := { s.seq with header := some x } } := by
  simp only [applyPlan]
  rw [if_neg]
  cases hs : s.seq.header with
  | none => simp
  | some o => simpa using h o hs

/-! ### DUST's derates (R110), ALARM and BILLS -/

theorem applyDerate_same {x : Nat × Nat} {s : State}
    (h : ({ s.dust with elevDerate := x.1, highDerate := x.2 } : Dust).percent s.dust.overall
      = s.dust.percent s.dust.overall) :
    applyDerate x s = { s with dust := { s.dust with elevDerate := x.1, highDerate := x.2 } } := if_pos h

theorem applyDerate_recomputes {x : Nat × Nat} {s : State}
    (h : ({ s.dust with elevDerate := x.1, highDerate := x.2 } : Dust).percent s.dust.overall
      ≠ s.dust.percent s.dust.overall) :
    applyDerate x s = recomputeLimit { s with dust := { s.dust with elevDerate := x.1, highDerate := x.2 } } := if_neg h

end Sys2Proof.Machine
end

section
/-! ## The load of a sensor's entry (R109, R111, R115, R117, R121)

The sensor the load leaves, by the branches of R111, then the release test and the bands. -/

set_option Elab.async false

namespace Sys2Proof.Machine

/-! ### The sensor -/

/-- The sources of sensor `i`. -/
def sensorSources (i : SensorNo) : List SourceNo := [srcDustHigh i, srcDustTrip i, srcSensorSilent i]

theorem sensorSources_apart (i : SensorNo) : ∀ j ∈ sensorSources i, j ∉ [srcCloseoutNotIssued, srcTrimBound, srcBillMark] := by
  revert i
  decide

/-- The timer of a sensor that starts, if the part is READY and the sensor enabled (R119). -/
def startedTimer (s : State) (x : SensorEntry) : Option Nat :=
  if s.ready && x.enabled then some (s.now + x.silenceTime) else none

section
variable {i : SensorNo} {y : Sensor} {js : List SourceNo} {s u : State}

theorem SensorStep.ready (h : SensorStep i y js s u) : u.ready = s.ready ∧ u.now = s.now := by
  obtain ⟨-, haside, -⟩ := h
  rw [haside]
  exact ⟨rfl, rfl⟩

/-- A restart of the silence timer after the step (R119). -/
theorem SensorStep.restart (h : SensorStep i y js s u) {x : SensorEntry} (hx : y.entry = some x) :
    SensorStep i { y with timer := if s.ready && x.enabled then some (s.now + x.silenceTime) else y.timer } js s
        (restartSensor i u)
      ∧ (restartSensor i u).ladder = u.ladder := by
  obtain ⟨hready, hnow⟩ := h.ready
  cases hr : s.ready with
  | true =>
    rw [restartSensor_ready i (hready.trans hr), h.sensor, started_loaded hx, hnow]
    exact ⟨h.trans (setSensor_step _ _ js u) fun j hj => hj, rfl⟩
  | false =>
    rw [restartSensor_waiting i (hready.trans hr)]
    exact ⟨h, rfl⟩

end

theorem setCond_other {j k : SourceNo} (b : Bool) (s : State) (h : j ≠ k) :
    (setCond k b s).ladder.sources[j] = s.ladder.sources[j] := setCond_source k b s j (by simpa using h)

/-- A sensor fresh at its entry: its state reset and its conditions false (R111, R115). -/
theorem freshSensor_step (i : SensorNo) (x : SensorEntry) (s : State) :
    SensorStep i { Sensor.fresh (some x) with timer := startedTimer s x } (sensorSources i) s (freshSensor i x s)
      ∧ ∀ j ∈ sensorSources i, ((freshSensor i x s).ladder.sources[j]).cond = false := by
  obtain ⟨hht, hhs, hts⟩ := dustSources_apart i
  have h := (((setSensor_step i (Sensor.fresh (some x)) (sensorSources i) s).cond (srcDustHigh i) false
    (by simp [sensorSources])).cond (srcDustTrip i) false (by simp [sensorSources])).cond (srcSensorSilent i) false
    (by simp [sensorSources])
  obtain ⟨hstep, hladder⟩ := h.restart (x := x) rfl
  refine ⟨hstep, fun j hj => ?_⟩
  have hfresh : freshSensor i x s = restartSensor i (setCond (srcSensorSilent i) false (setCond (srcDustTrip i) false
    (setCond (srcDustHigh i) false (setSensor i (Sensor.fresh (some x)) s)))) := rfl
  rw [hfresh, hladder]
  simp only [sensorSources, List.mem_cons, List.not_mem_nil, or_false] at hj
  rcases hj with rfl | rfl | rfl
  · rw [setCond_other _ _ hhs, setCond_other _ _ hht, setCond_same, withCond_cond]
  · rw [setCond_other _ _ hts, setCond_same, withCond_cond]
  · rw [setCond_same, withCond_cond]

/-- A sensor disabled by an AMEND (R111). -/
theorem disableSensor_step (i : SensorNo) (x : SensorEntry) (s : State) :
    SensorStep i { s.dust.sensors[i] with entry := some x, timer := none, silent := false } (sensorSources i) s
        (disableSensor i x s)
      ∧ ((disableSensor i x s).ladder.sources[srcDustHigh i]).cond = false
      ∧ ((disableSensor i x s).ladder.sources[srcSensorSilent i]).cond = false := by
  obtain ⟨-, hhs, -⟩ := dustSources_apart i
  refine ⟨((setSensor_step i _ (sensorSources i) s).cond (srcDustHigh i) false (by simp [sensorSources])).cond
    (srcSensorSilent i) false (by simp [sensorSources]), ?_, ?_⟩
  · rw [disableSensor, setCond_other _ _ hhs, setCond_same, withCond_cond]
  · rw [disableSensor, setCond_same, withCond_cond]

/-- Any other amendment (R111). -/
theorem amendSensor_step (i : SensorNo) (old x : SensorEntry) (s : State) :
    SensorStep i { s.dust.sensors[i] with
        entry := some x
        timer := if s.ready && x.enabled && x.silenceTime != old.silenceTime then some (s.now + x.silenceTime)
          else (s.dust.sensors[i]).timer } (sensorSources i) s (amendSensor i old x s)
      ∧ (amendSensor i old x s).ladder = s.ladder := by
  have h := setSensor_step i { s.dust.sensors[i] with entry := some x } (sensorSources i) s
  by_cases hc : (x.enabled && x.silenceTime != old.silenceTime) = true
  · have heq : amendSensor i old x s = restartSensor i (setSensor i { s.dust.sensors[i] with entry := some x } s) :=
      if_pos hc
    obtain ⟨hstep, hladder⟩ := h.restart (x := x) rfl
    rw [heq, Bool.and_assoc, hc, Bool.and_true]
    rw [(Bool.and_eq_true_iff.1 hc).1, Bool.and_true] at hstep
    exact ⟨hstep, hladder⟩
  · have heq : amendSensor i old x s = setSensor i { s.dust.sensors[i] with entry := some x } s := if_neg hc
    rw [Bool.not_eq_true] at hc
    rw [heq, Bool.and_assoc, hc, Bool.and_false]
    exact ⟨h, rfl⟩

/-! ### The release test and the bands (R117, R121) -/

section
variable {i : SensorNo} {y : Sensor} {s u : State}

/-- The sensor and its sources once the release test has been made after a step. -/
theorem SensorStep.release (h : SensorStep i y (sensorSources i) s u) :
    ((u.ladder.state (srcDustTrip i)).holds = false → LatchFalls i u →
        SensorStep i { y with latch := false } (sensorSources i) s (releaseTest i u)
          ∧ ((releaseTest i u).ladder.sources[srcDustTrip i]).cond = false)
      ∧ (((u.ladder.state (srcDustTrip i)).holds = true ∨ ¬ LatchFalls i u) → releaseTest i u = u) := by
  refine ⟨fun hs hf => ?_, releaseTest_stays⟩
  rw [releaseTest_falls hs hf, h.sensor]
  refine ⟨(h.trans (setSensor_step _ _ (sensorSources i) u) fun j hj => hj).cond _ _ (by simp [sensorSources]), ?_⟩
  rw [setCond_same, withCond_cond]

/-- What the end of the event leaves of the step, with the bands formed again. -/
theorem SensorStep.ends (h : SensorStep i y (sensorSources i) s u) :
    let t := endEvent (reformBands u)
    t.dust.sensors[i] = y ∧ (∀ j : SensorNo, j ≠ i → t.dust.sensors[j] = s.dust.sensors[j])
      ∧ (∀ j ∈ sensorSources i, t.ladder.sources[j] = u.ladder.sources[j]) ∧ BandsFormed s t := by
  intro t
  have hclosed : Closes (reformBands u) t := endEvent_closes _
  have hsensors : t.dust.sensors = u.dust.sensors := by rw [hclosed.2.2.2.2.1, reformBands_sensors]
  refine ⟨by rw [hsensors]; exact h.sensor, fun j hj => by rw [hsensors]; exact h.others hj, fun j hj => ?_, ?_⟩
  · rw [hclosed.2.2.2.2.2.2.2.2.2.1]
    exact reformBands_source _ _ (sensorSources_apart i j hj)
  · exact (h.bands (fun hn => sensorSources_apart i _ hn (by simp)) (fun hn => sensorSources_apart i _ hn (by simp))).closes hclosed

end

theorem answered_aside (e : RxEntry) (rest : List RxEntry) (row : Instr) (s : State) : answered e rest row s
    = (takeHead .U e rest row s).aside (answered e rest row s).line.u (answered e rest row s).ladder :=
  offer_U_aside _ _

/-- The answer before it leaves the bands' reading of the state. -/
theorem bandsFormed_answered {e : RxEntry} {rest : List RxEntry} {row : Instr} {s t : State}
    (h : BandsFormed (answered e rest row s) t) : BandsFormed (takeHead .U e rest row s) t := by
  rw [answered_aside] at h
  exact BandsFormed.aside (takeHead .U e rest row s).dust.sensors h rfl rfl

/-! ### What the accepted load leaves (R109, R111) -/

section
variable {e : RxEntry} {rest : List RxEntry} {l : Load} {s : State} {i : SensorNo}

theorem applySensor_eq (he : l.entry = i.val + 1) (x : SensorEntry) (s : State) :
    applySensor l x s = reformBands (releaseTest i (loadSensor i l.set x s)) := by
  have hi : l.entry - 1 < 8 := by omega
  rw [applySensor, dif_pos hi]
  have hk : (⟨l.entry - 1, hi⟩ : SensorNo) = i := Fin.ext (by simp [he])
  rw [hk]
  rfl

/-- The branches of R111. -/
theorem loadSensor_fresh {set : Bool} {x : SensorEntry}
    (h : (s.dust.sensors[i]).entry = none ∨ set = true
      ∨ ((¬ ∃ old, (s.dust.sensors[i]).entry = some old ∧ old.enabled = true) ∧ x.enabled = true)) :
    loadSensor i set x s = freshSensor i x s := by
  unfold loadSensor
  split
  · rfl
  next old hold =>
    refine if_pos ?_
    rw [hold] at h
    rcases h with h | h | ⟨hoff, hon⟩
    · cases h
    · simp [h]
    · have : old.enabled = false := by simpa using hoff
      simp [this, hon]

theorem loadSensor_disabled {x old : SensorEntry} (hold : (s.dust.sensors[i]).entry = some old) (h : old.enabled = true)
    (hx : x.enabled = false) : loadSensor i false x s = disableSensor i x s := by
  unfold loadSensor
  rw [hold]
  simp [h, hx]

theorem loadSensor_amended {x old : SensorEntry} (hold : (s.dust.sensors[i]).entry = some old)
    (h : old.enabled = x.enabled) : loadSensor i false x s = amendSensor i old x s := by
  unfold loadSensor
  rw [hold]
  cases hx : x.enabled <;> simp [h, hx]

/-- The sensor, not in TRIP, that an accepted load leaves, by the branches of R111. -/
theorem loadSensor_left (i : SensorNo) (set : Bool) (x : SensorEntry) (s : State)
    (hlatch : (s.dust.sensors[i]).latch = false) :
    let z := s.dust.sensors[i]
    let wasOn : Prop := ∃ old, z.entry = some old ∧ old.enabled = true
    let u := loadSensor i set x s
    ∃ y, SensorStep i y (sensorSources i) s u ∧ y.entry = some x ∧ y.latch = false
      ∧ (z.entry = none ∨ set = true ∨ (¬ wasOn ∧ x.enabled = true) →
          y = { Sensor.fresh (some x) with timer := startedTimer s x }
            ∧ ∀ j ∈ sensorSources i, (u.ladder.sources[j]).cond = false)
      ∧ (set = false → wasOn → x.enabled = false →
          y = { z with entry := some x, timer := none, silent := false }
            ∧ (u.ladder.sources[srcDustHigh i]).cond = false ∧ (u.ladder.sources[srcSensorSilent i]).cond = false)
      ∧ (∀ old, set = false → z.entry = some old → old.enabled = x.enabled →
          y = { z with entry := some x
                       timer := if s.ready && x.enabled && x.silenceTime != old.silenceTime
                         then some (s.now + x.silenceTime) else z.timer }) := by
  intro z wasOn u
  by_cases hfresh : z.entry = none ∨ set = true ∨ (¬ wasOn ∧ x.enabled = true)
  · have hu : u = freshSensor i x s := loadSensor_fresh hfresh
    rw [hu]
    obtain ⟨hstep, hconds⟩ := freshSensor_step i x s
    refine ⟨_, hstep, rfl, rfl, fun _ => ⟨rfl, hconds⟩, fun hset hon hx => ?_, fun old hset hold hen => ?_⟩
    · obtain ⟨old, hold, -⟩ := hon
      simp [hset, hold, hx] at hfresh
    · simp only [hset, hold, reduceCtorEq, Bool.false_eq_true, false_or] at hfresh
      exact absurd ⟨old, hold, hen.trans hfresh.2⟩ hfresh.1
  · simp only [not_or, not_and, Bool.not_eq_true] at hfresh
    obtain ⟨hloaded, hset, hoff⟩ := hfresh
    obtain ⟨old, hold⟩ := Option.ne_none_iff_exists'.1 hloaded
    have hnotFresh : ¬ (z.entry = none ∨ set = true ∨ (¬ wasOn ∧ x.enabled = true)) := by
      simp only [not_or, not_and, Bool.not_eq_true]
      exact ⟨hloaded, hset, hoff⟩
    by_cases hen : old.enabled = x.enabled
    · have hu : u = amendSensor i old x s := by
        change loadSensor i set x s = _
        rw [hset]
        exact loadSensor_amended hold hen
      rw [hu]
      refine ⟨_, (amendSensor_step i old x s).1, rfl, hlatch, fun hf => absurd hf hnotFresh, fun _ hon hx => ?_, fun old' _ hold' _ => ?_⟩
      · obtain ⟨old', hold', hon'⟩ := hon
        obtain rfl := Option.some.inj (hold.symm.trans hold')
        rw [hen, hx] at hon'
        cases hon'
      · obtain rfl := Option.some.inj (hold.symm.trans hold')
        rfl
    · have hx : x.enabled = false := by
        cases hx : x.enabled with
        | false => rfl
        | true =>
          have hnot : ¬ wasOn := by
            rintro ⟨old', hold', hon'⟩
            obtain rfl := Option.some.inj (hold.symm.trans hold')
            exact hen (hon'.trans hx.symm)
          exact absurd (hoff hnot) (by simp [hx])
      have hon : old.enabled = true := by
        rw [hx] at hen
        simpa using hen
      have hu : u = disableSensor i x s := by
        change loadSensor i set x s = _
        rw [hset]
        exact loadSensor_disabled hold hon hx
      rw [hu]
      obtain ⟨hstep, hsources⟩ := disableSensor_step i x s
      refine ⟨_, hstep, rfl, hlatch, fun hf => absurd hf hnotFresh, fun _ _ _ => ⟨rfl, hsources⟩,
        fun old' _ hold' hen' => ?_⟩
      obtain rfl := Option.some.inj (hold.symm.trans hold')
      exact absurd hen' hen

end

end Sys2Proof.Machine
end

section
/-! ## The loads (R191): the statement -/

set_option Elab.async false

namespace Sys2Proof.Machine

theorem applyPlan_keeps (x : PlanHeader) (s : State) : Keeps s (applyPlan x s) := by
  have hheader : Keeps s { s with seq := { s.seq with header := some x } } := .line
  unfold applyPlan
  simp only
  split
  · split
    · exact hheader
    · exact hheader.trans (recomputeLimit_keeps _)
  · exact hheader.trans (recomputeLimit_keeps _)

theorem applyDerate_keeps (x : Nat × Nat) (s : State) : Keeps s (applyDerate x s) := by
  have hderates : Keeps s { s with dust := { s.dust with elevDerate := x.1, highDerate := x.2 } } := .line
  unfold applyDerate
  simp only
  split
  · exact hderates
  · exact hderates.trans (recomputeLimit_keeps _)

theorem aside_same (s : State) (u : Port) (l : Ladder) : ∀ b ∈ .limit :: derateBlocks, Same b (s.aside u l) s := by
  intro b hb
  fin_cases hb <;> simp [Same, State.aside, Line.port]

/-- The limit recomputed beside port U and the ladder, and kept to the end of the event (R95, R102). -/
theorem recomputed_ends (s : State) (u : Port) (l : Ladder) :
    let t := endEvent (recomputeLimit (s.aside u l))
    t.gate.rateLimit = rateLimitOf s ∧ ∃ m, LimitRecomputed s m ∧ ∀ b ∈ .limit :: derateBlocks, Same b m t := by
  intro t
  set w := recomputeLimit (s.aside u l) with hw
  have hends : ∀ b ∈ .limit :: derateBlocks, b ∉ closing := by decide
  refine ⟨?_, _, LimitRecomputed.aside (recomputeLimit_recomputed (s.aside u l)), fun b hb => ?_⟩
  · have hlimit := (endEvent_changes w).same .limit (hends _ (by simp))
    exact Eq.trans hlimit (recomputeLimit_fields (s.aside u l)).1
  · refine Same.trans ?_ ((endEvent_changes w).same b (hends b hb))
    exact aside_same w _ _ b hb

/-- The tables of the plan after a load of the header (R68). -/
theorem applyPlan_tables (x : PlanHeader) (s : State) : (applyPlan x s).seq.header = some x
    ∧ (applyPlan x s).seq.holds = s.seq.holds ∧ (applyPlan x s).seq.slots = s.seq.slots := by
  obtain ⟨-, hheader, hholds, hslots, -⟩ := recomputeLimit_fields { s with seq := { s.seq with header := some x } }
  by_cases h : ∃ o, s.seq.header = some o ∧ o.maxRate = x.maxRate
  · obtain ⟨o, ho, hr⟩ := h
    rw [applyPlan_same ho hr]
    exact ⟨rfl, rfl, rfl⟩
  · rw [applyPlan_recomputes fun o ho hr => h ⟨o, ho, hr⟩]
    exact ⟨hheader, hholds, hslots⟩

theorem applyDerate_dust (x : Nat × Nat) (s : State) :
    (applyDerate x s).dust = { s.dust with elevDerate := x.1, highDerate := x.2 } := by
  obtain ⟨-, -, -, -, hdust⟩ :=
    recomputeLimit_fields { s with dust := { s.dust with elevDerate := x.1, highDerate := x.2 } }
  by_cases h : ({ s.dust with elevDerate := x.1, highDerate := x.2 } : Dust).percent s.dust.overall
      = s.dust.percent s.dust.overall
  · rw [applyDerate_same h]
  · rw [applyDerate_recomputes h, hdust]

theorem applySensor_keeps {l : Load} {i : SensorNo} (he : l.entry = i.val + 1) (x : SensorEntry) (s : State) :
    Keeps s (applySensor l x s) := by
  rw [applySensor_eq he]
  exact (Keeps.frame (loadSensor_changes _ _ _ s)).trans (retestLatch_keeps i _)

/-- A source of a sensor stands as it did before the request was taken and answered. -/
theorem answered_sensorSource (e : RxEntry) (rest : List RxEntry) (row : Instr) (s : State) {i : SensorNo} {j : SourceNo}
    (hj : j ∈ sensorSources i) : (answered e rest row s).ladder.sources[j] = s.ladder.sources[j] := by
  refine answered_source e rest row s ?_
  revert i j
  decide

theorem location_fromCode (lo : Location) : Location.fromCode lo.code.toNat = some lo := by cases lo <;> rfl

theorem sensorRelation_iff (x : SensorEntry) : sensorRelation x = none ↔ x.elevated < x.high ∧ x.high < x.trip := by
  rw [sensorRelation]
  split <;> simp [*]

theorem sensorBusy_eq {s : State} {l : Load} {i : SensorNo} (he : l.entry = i.val + 1) (x : SensorEntry) :
    sensorBusy s l x = ((s.dust.sensors[i]).latch && (l.set || !x.enabled)) := by
  rw [sensorBusy, he, entryAt_pred]

theorem alarmBusy_val (s : State) (i : SourceNo) (x : AlarmFields) :
    alarmBusy s i.val x = true ↔ (s.ladder.sources[i]).state = .inService ∧ AlarmChanges s.ladder.sources[i] x := by
  have hi : (BitVec.ofNat 8 i.val).toNat = i.val := by
    have hlt := i.isLt
    simp
    omega
  have h := alarmBusy_iff (s := s) hi x
  rwa [hi] at h

theorem amendState_answered (e : RxEntry) (rest : List RxEntry) (row : Instr) (i : SourceNo) (x : AlarmFields) (s : State) :
    amendState i x (answered e rest row s) = (takeHead .U e rest row s).aside
      (amendState i x (answered e rest row s)).line.u (amendState i x (answered e rest row s)).ladder :=
  congrArg (amendState i x) (answered_aside e rest row s)

theorem amended_recorded {y : Source} {x : AlarmFields} (h : x.record = true) : (y.amended x).state = y.state := by
  simp [Source.amended, h]

theorem buildDerate_missing {m : List (Option Nat)} (h : none ∈ m) : buildDerate m = none := by
  unfold buildDerate
  split
  · simp at h
  · rfl

theorem buildSensor_missing {m : List (Option Nat)} (h : none ∈ m) : buildSensor m = none := by
  unfold buildSensor
  split
  · simp at h
  · rfl

/-! ### A load that is judged, table by table -/

/-- A LOAD at the head of port U that names a table, an entry and fields (R189). -/
structure LoadAt (s : State) (e : RxEntry) (rest : List RxEntry) (l : Load) : Prop where
  heads : Heads s .U .load e rest
  header : loadHeaderFails (e.frame.payload.drop 1) = false
  parsed : parseLoad e.frame.payload = some l

/-- An AMEND with an empty mask on a loaded entry (R191). -/
def Load.NothingNew (l : Load) (s : State) : Prop :=
  l.set = false ∧ (∀ x ∈ l.fields, x = none) ∧ entryFields s l.table l.entry ≠ none

/-- Each field that a load gives lies in the range of its place (R191). -/
def Load.InRange (l : Load) : Prop := inRanges (fieldRanges l.table l.entry) l.fields = true

/-- A load that could change its entry is refused with a reason. -/
def LoadRefused (s : State) (e : RxEntry) (rest : List RxEntry) (l : Load) (r : Reason) : Prop :=
  ¬ l.NothingNew s → Takes s .U .load e rest [] fun t => Offered .U (answerFrame s e.frame [1, 1, r.code]) s t

/-- A load is accepted with its effects. -/
def LoadAccepted (s : State) (e : RxEntry) (rest : List RxEntry) (changed : List Block) (post : State → Prop) : Prop :=
  Takes s .U .load e rest changed fun t => post t ∧ Offered .U (answerFrame s e.frame [1, 0, 0]) s t

/-- A load that could change its entry is accepted with its effects. -/
def LoadDone (s : State) (e : RxEntry) (rest : List RxEntry) (l : Load) (changed : List Block) (post : State → Prop) :
    Prop := ¬ l.NothingNew s → LoadAccepted s e rest changed post

/-- A plan is ACTIVE or SUSPENDED. -/
def PlanRuns (s : State) : Prop := s.seq.plan = .active ∨ s.seq.plan = .suspended

/-- A field of whole kilograms that is absent or in range. -/
def KgField (x : Option Nat) : Prop := ∀ g, x = some g → 1 ≤ g ∧ g ≤ 99999999

section
variable {s : State} {e : RxEntry} {rest : List RxEntry} {l : Load} (hat : LoadAt s e rest l)
include hat

theorem LoadAt.refused {α : Type} {j : Except Reason α} {effect : α → State → State} {r : Reason}
    (ht : loadTable e.frame l (takeHead .U e rest .load s) = answerJudged e.frame j effect (takeHead .U e rest .load s))
    (hj : j = .error r) : LoadRefused s e rest l r := fun hn =>
  takes_judgedRefused hat.heads hat.header hat.parsed (Bool.eq_false_iff.2 (mt (amendsNothing_iff s l).1 hn)) ht hj

theorem LoadAt.done {α : Type} {j : Except Reason α} {effect : α → State → State} {x : α} {changed : List Block}
    {post : State → Prop}
    (ht : loadTable e.frame l (takeHead .U e rest .load s) = answerJudged e.frame j effect (takeHead .U e rest .load s))
    (hj : j = .ok x) (hc : ∀ u, OnlyChanges changed u (effect x u)) (hk : ∀ u, Keeps u (effect x u))
    (hp : post (endEvent (effect x (answered e rest .load s)))) : LoadDone s e rest l changed post := fun hn =>
  takes_judgedDone hat.heads hat.header hat.parsed (Bool.eq_false_iff.2 (mt (amendsNothing_iff s l).1 hn)) ht hj hc hk hp
    fun _ hb => List.mem_append_right _ hb

/-- An AMEND with an empty mask on a sensor's loaded entry makes the release test alone (R117, R191). -/
theorem LoadAt.sensor_untouched :
    let s1 := takeHead .U e rest .load s
    ∀ i : SensorNo, l.NothingNew s → l.table = .dust → l.entry = i.val + 1 →
      let x := s.dust.sensors[i]
      let released : Prop := (s.ladder.sources[srcDustTrip i]).state ≠ .pending
        ∧ (s.ladder.sources[srcDustTrip i]).state ≠ .inService ∧ x.latch = true ∧ x.belowRelease = true
      LoadAccepted s e rest dustBlocks fun t =>
        (∀ j : SensorNo, j ≠ i → t.dust.sensors[j] = s.dust.sensors[j]) ∧ BandsFormed s1 t
          ∧ (released → t.dust.sensors[i] = { x with latch := false }
              ∧ (t.ladder.sources[srcDustTrip i]).cond = false)
          ∧ (¬ released → t.dust.sensors[i] = x ∧ ∀ b ∈ [Block.sensors, .conds], Same b s1 t) := by
  intro s1
  obtain ⟨-, -, -, -, -, -, -, -, -, hdust, -⟩ :=
    answered_fields e rest .load s
  obtain ⟨h, hf, hl⟩ := hat
  intro i hn ht he x released
  set A := answered e rest .load s with hA
  have hrun : treatLoad e.frame s1 = reformBands (releaseTest i A) := by
    have hi : l.entry - 1 < 8 := by omega
    have hk : (⟨l.entry - 1, hi⟩ : SensorNo) = i := Fin.ext (by simp [he])
    rw [treatLoad_run _ _ l hf hl, runLoad, if_pos (by rw [amendsNothing_taken]; exact (amendsNothing_iff s l).2 hn),
      applyNothing, dif_pos ⟨ht, by omega, hi⟩, hk]
    rfl
  have hsource : A.ladder.sources[srcDustTrip i] = s.ladder.sources[srcDustTrip i] :=
    answered_sensorSource e rest .load s (i := i) (by simp [sensorSources])
  have hstep := sensor_step_refl i (sensorSources i) A
  have hreleased : released ↔ (A.ladder.state (srcDustTrip i)).holds = false ∧ LatchFalls i A := by
    rw [← Bool.not_eq_true, holds_iff, Ladder.state, hsource, LatchFalls, hdust, not_or, and_assoc]
  obtain ⟨hfalls, hstays⟩ := hstep.release
  refine takes_of (xs := .send .U :: dustBlocks) treatLoad h rfl ?_ (by decide) ?_
  · rw [hrun]
    exact ((answerDone_changes e.frame [] s1).mono (by simp)).trans
      ((retestLatch_changes i A).mono fun b hb => List.mem_cons_of_mem _ hb)
  · rw [hrun]
    have hoffered : Offered .U (answerFrame s e.frame [1, 0, 0]) s (endEvent (reformBands (releaseTest i A))) :=
      offered_done (bs := []) (by rw [load_code h]) (retestLatch_keeps i A)
    by_cases hr : released
    · obtain ⟨hs, hf⟩ := hreleased.1 hr
      obtain ⟨hstep', hcond⟩ := hfalls hs hf
      obtain ⟨hsensor, hothers, hsources, hbands⟩ := hstep'.ends
      refine ⟨⟨fun j hj => (hothers j hj).trans (by rw [hdust]), bandsFormed_answered hbands, fun _ => ⟨?_, ?_⟩,
        fun hn => absurd hr hn⟩, hoffered⟩
      · rw [hsensor, hdust]
      · rw [hsources _ (by simp [sensorSources]), hcond]
    · have hkept : releaseTest i A = A := hstays (by
        rw [hreleased, not_and_or, Bool.not_eq_false] at hr
        exact hr)
      obtain ⟨hsensor, hothers, hsources, hbands⟩ := hstep.ends
      rw [hkept] at hoffered ⊢
      have hsame : OnlyChanges (.send .U :: bandBlocks ++ closing) s1 (endEvent (reformBands A)) :=
        ((answerDone_changes e.frame [] s1).mono (by simp)).trans
          (((reformBands_changes A).mono (by decide)).trans ((endEvent_changes _).mono (by decide)))
      refine ⟨⟨fun j hj => (hothers j hj).trans (by rw [hdust]), bandsFormed_answered hbands, fun hn => absurd hn hr,
        fun _ => ⟨hsensor.trans (by rw [hdust]), fun b hb => hsame.same b ?_⟩⟩, hoffered⟩
      fin_cases hb <;> decide

/-! A field that stays missing is refused before the entry is judged (R191). -/

theorem LoadAt.envelope_missing (ht : l.table = .envelopes) (hnone : none ∈ (l.merged s).take 5) :
    LoadRefused s e rest l .badValue :=
  hat.refused (effect := applyEnvelope l.entry) (by rw [loadTable, ht])
    (judgeLoad_unbuilt _ _ _ _ _ (by rw [merged_takeHead]; exact buildEnvelope_missing hnone))

theorem LoadAt.hold_missing (ht : l.table = .holds) (hnone : none ∈ (l.merged s).take 1) :
    LoadRefused s e rest l .badValue :=
  hat.refused (effect := applyHold l.entry) (by rw [loadTable, ht])
    (judgeLoad_unbuilt _ _ _ _ _ (by rw [merged_takeHead]; exact buildHold_missing hnone))

theorem LoadAt.slot_missing (ht : l.table = .sequence) (hnone : none ∈ l.merged s) : LoadRefused s e rest l .badValue :=
  hat.refused (effect := applySlot l.entry) (by rw [loadTable, ht])
    (judgeLoad_unbuilt _ _ _ _ _ (by rw [merged_takeHead]; exact buildSlot_missing hnone))

theorem LoadAt.plan_missing (ht : l.table = .plan) (hnone : none ∈ (l.merged s).take 5 ∨ none ∈ (l.merged s).drop 6) :
    LoadRefused s e rest l .badValue :=
  hat.refused (effect := applyPlan) (by rw [loadTable, ht])
    (judgeLoad_unbuilt _ _ _ _ _ (by rw [merged_takeHead]; exact buildPlan_missing hnone))

theorem LoadAt.dust_missing (ht : l.table = .dust) (hnone : none ∈ l.merged s) : LoadRefused s e rest l .badValue := by
  by_cases he : l.entry = 0
  · exact hat.refused (effect := applyDerate) (by rw [loadTable, ht]; exact if_pos he)
      (judgeLoad_unbuilt _ _ _ _ _ (by rw [merged_takeHead]; exact buildDerate_missing hnone))
  · exact hat.refused (effect := applySensor l) (by rw [loadTable, ht]; exact if_neg he)
      (judgeLoad_unbuilt _ _ _ _ _ (by rw [merged_takeHead]; exact buildSensor_missing hnone))

/-- The travel limits of an axis (R41). -/
theorem LoadAt.travel_limits_loaded :
    ∀ lo hi, l.table = .travel → l.entry < 3 → l.merged s = [some lo, some hi] →
      let old := s.place.travel
      let new : TravelTable := if l.entry = 0 then { old with gantry := ⟨lo, hi⟩ }
        else if l.entry = 1 then { old with shuttle := ⟨lo, hi⟩ } else { old with chute := ⟨lo, hi⟩ }
      (lo ≤ hi → hi ≤ (if l.entry = 0 then 600000 else if l.entry = 1 then 40000 else 20000) →
        old.gantry.low ≤ old.gantry.high → old.shuttle.low ≤ old.shuttle.high → old.chute.low ≤ old.chute.high →
        LoadDone s e rest l [.travel] fun t => t.place.travel = new)
      ∧ (hi < lo → LoadRefused s e rest l .badValue) := by
  set s1 := takeHead .U e rest .load s with hs1
  have hm1 : l.merged s1 = l.merged s := merged_takeHead s e rest .load l
  intro lo hi ht he hm old new
  have hload : loadTable e.frame l s1 = answerJudged e.frame
      (judgeLoad s1 l (buildTravel s1.place.travel l.entry) travelRelation neverBusy) applyTravel s1 := by
    rw [loadTable, ht]
  have h3 : l.entry = 0 ∨ l.entry = 1 ∨ l.entry = 2 := by omega
  have hb : buildTravel s1.place.travel l.entry (l.merged s1) = some new := by
    rw [hm1, hm, show s1.place = s.place by simp [hs1]]
    rcases h3 with h0 | h0 | h0 <;> simp [new, h0, buildTravel, old]
  refine ⟨fun hle hmax hg hs hc => ?_, fun hlt => ?_⟩
  · refine hat.done hload (judge_ok ?_ hb ?_ rfl) (applyTravel_changes new) (fun u => .frame (applyTravel_changes new u)) ?_
    · refine inRanges_of_entry s l _ hm ?_ ?_ <;> rw [ht] <;> rcases h3 with h0 | h0 | h0
      all_goals
        simp only [h0] at hmax
        simp [fieldRanges, h0, inRanges, between] <;> simp at hmax <;> omega
    · rw [travelRelation_iff]
      rcases h3 with h0 | h0 | h0
      · simpa [new, h0] using ⟨hle, hs, hc⟩
      · simpa [new, h0] using ⟨hg, hle, hc⟩
      · simpa [new, h0] using ⟨hg, hs, hle⟩
    · simp [applyTravel]
  · refine hat.refused hload (judge_badValue hb (travelRelation_bad ?_))
    rw [Ne, travelRelation_iff]
    rintro ⟨hg, hs, hc⟩
    rcases h3 with h0 | h0 | h0
    · simp [new, h0] at hg
      omega
    · simp [new, h0] at hs
      omega
    · simp [new, h0] at hc
      omega

/-- The settle count, the leave count and the step timeout (R41). -/
theorem LoadAt.travel_counts_loaded :
    ∀ a b c, l.table = .travel → l.entry = 3 → l.merged s = [some a, some b, some c] →
      let old := s.place.travel
      1 ≤ a → a ≤ 64 → 1 ≤ b → b ≤ 64 → 1 ≤ c → c ≤ 120 →
      old.gantry.low ≤ old.gantry.high → old.shuttle.low ≤ old.shuttle.high → old.chute.low ≤ old.chute.high →
      LoadDone s e rest l [.travel] fun t =>
        t.place.travel = { old with settleCount := a, leaveCount := b, stepTimeout := c } := by
  set s1 := takeHead .U e rest .load s with hs1
  have hm1 : l.merged s1 = l.merged s := merged_takeHead s e rest .load l
  intro a b c ht he hm old ha ha' hb hb' hc hc' hg hs hch
  refine hat.done (j := judgeLoad s1 l (buildTravel s1.place.travel l.entry) travelRelation neverBusy)
    (x := { old with settleCount := a, leaveCount := b, stepTimeout := c }) (effect := applyTravel)
    (by rw [loadTable, ht]) (judge_ok ?_ ?_ ?_ rfl) (applyTravel_changes _)
    (fun u => .frame (applyTravel_changes _ u)) ?_
  · refine inRanges_of_entry s l _ hm ?_ ?_ <;> rw [ht, he]
    · simp [fieldRanges, inRanges, between, ha, ha', hb, hb', hc, hc']
    · simp [fieldRanges]
  · rw [hm1, hm, he, show s1.place = s.place by simp [hs1]]
    rfl
  · exact (travelRelation_iff _).2 ⟨hg, hs, hch⟩
  · simp [applyTravel]

/-- An entry of ENVELOPES (R44). -/
theorem LoadAt.envelope_loaded :
    ∀ (h : Hold) (g0 g1 s0 sMax k : Nat) (x : Option Nat), l.table = .envelopes → l.entry = h.val + 1 →
      l.merged s = [some g0, some g1, some s0, some sMax, some k, x] →
      let new : Envelope :=
        { gantryMin := g0, gantryMax := g1, shuttleMin := s0, shuttleMax := sMax, margin := k, chuteMax := x }
      let sound : Prop := g0 + 2 * k ≤ g1 ∧ s0 + 2 * k ≤ sMax ∧ ∀ (h' : Hold) (y : Envelope), h' ≠ h →
        s.place.envelopes[h'] = some y → ∀ g sh, ¬ (new.inside g sh = true ∧ y.inside g sh = true)
      let visited : Prop := ∃ v, s.seq.visit = some v ∧ v.hold = h
      (l.InRange → ¬ sound → LoadRefused s e rest l .badEnvelope)
      ∧ (l.InRange → sound → visited → LoadRefused s e rest l .busy)
      ∧ (g1 ≤ 600000 → sMax ≤ 40000 → k ≤ 5000 → (∀ c, x = some c → c ≤ 20000) → sound → ¬ visited →
        LoadDone s e rest l [.envelopes] fun t => t.place.envelopes[h] = some new
          ∧ ∀ h' : Hold, h' ≠ h → t.place.envelopes[h'] = s.place.envelopes[h']) := by
  set s1 := takeHead .U e rest .load s with hs1
  have hm1 : l.merged s1 = l.merged s := merged_takeHead s e rest .load l
  obtain ⟨-, -, -, -, -, -, hplace, -⟩ :=
    answered_fields e rest .load s
  intro hd g0 g1 s0 s1' k x ht he hm new sound visited
  have hload : loadTable e.frame l s1 = answerJudged e.frame (judgeLoad s1 l buildEnvelope
      (envelopeRelation s1 l.entry) fun _ => isVisitHold s1 l.entry) (applyEnvelope l.entry) s1 := by
    rw [loadTable, ht]
  have hb : buildEnvelope (l.merged s1) = some new := by rw [hm1, hm]; rfl
  have hsound : EnvelopeSound s1 hd new ↔ sound := by
    rw [EnvelopeSound, show s1.place = s.place by simp [hs1]]
  have hvisited : isVisitHold s1 l.entry = true ↔ visited := by
    rw [he, isVisitHold_iff, show s1.seq = s.seq by simp [hs1]]
  have hrel (hs : sound) : envelopeRelation s1 l.entry new = none := by
    classical rw [he, envelopeRelation_eq, if_pos (hsound.2 hs)]
  refine ⟨fun hin hs => ?_, fun hin hs hv => ?_, fun hg hs' hk hx hs hv => ?_⟩
  · refine hat.refused hload (judge_relation hin hb ?_)
    classical rw [he, envelopeRelation_eq, if_neg (mt hsound.1 hs)]
  · exact hat.refused hload (judge_busy hin hb (hrel hs) (hvisited.2 hv))
  · refine hat.done hload (judge_ok ?_ hb (hrel hs) ?_) (applyEnvelope_changes _ _)
      (fun u => .frame (applyEnvelope_changes _ _ u)) ?_
    · obtain ⟨hg0, hs0, -⟩ := hs
      change g0 + 2 * k ≤ g1 at hg0
      change s0 + 2 * k ≤ s1' at hs0
      refine inRanges_of_entry s l _ hm ?_ ?_ <;> rw [ht]
      · cases x with
        | none => simp [fieldRanges, inRanges, between]; omega
        | some c =>
          have hc := hx c rfl
          simp [fieldRanges, inRanges, between]
          omega
      · simp [fieldRanges]
    · rw [← Bool.not_eq_true, hvisited]
      exact hv
    · rw [he, (endEvent_fields _).2.2.2.2.2.2.1]
      refine ⟨by rw [applyEnvelope_get, if_pos rfl], fun h' hne => ?_⟩
      rw [applyEnvelope_get, if_neg (Ne.symm hne), hplace]

/-- An entry of HOLDS, with its FULL test (R65, R66). -/
theorem LoadAt.hold_loaded :
    ∀ (h : Hold) (n : Nat) (g : Option Nat), l.table = .holds → l.entry = h.val + 1 → l.merged s = [some n, g] →
      let arm : Int := if n < 32768 then (n : Int) else (n : Int) - 65536
      let visited : Prop := ∃ v, s.seq.visit = some v ∧ v.hold = h
      let reached : Prop := ∃ x, g = some x ∧ x * 1000000 ≤ s.ship.accounts[holdAccount h]
      (l.InRange → visited → LoadRefused s e rest l .busy)
      ∧ (-2000 ≤ arm → arm ≤ 2000 → KgField g → ¬ visited →
        LoadDone s e rest l [.planTables, .holdStates] fun t => t.seq.holds[h] = some ⟨arm, g⟩
          ∧ t.seq.slots = s.seq.slots ∧ t.seq.header = s.seq.header
          ∧ (∀ h' : Hold, h' ≠ h → t.seq.holds[h'] = s.seq.holds[h'] ∧ t.seq.holdStates[h'] = s.seq.holdStates[h'])
          ∧ (reached → t.seq.holdStates[h] = .full)
          ∧ (¬ reached → t.seq.holdStates[h]
              = if s.seq.holdStates[h] = .full then .filling else s.seq.holdStates[h])) := by
  set s1 := takeHead .U e rest .load s with hs1
  have hm1 : l.merged s1 = l.merged s := merged_takeHead s e rest .load l
  obtain ⟨-, -, -, -, -, -, -, hseq, -, -, -, hship, -⟩ :=
    answered_fields e rest .load s
  intro hd n g ht he hm arm visited reached
  have hload : loadTable e.frame l s1 = answerJudged e.frame (judgeLoad s1 l buildHold noRelation
      fun _ => isVisitHold s1 l.entry) (applyHold l.entry) s1 := by rw [loadTable, ht]
  have hb : buildHold (l.merged s1) = some ⟨arm, g⟩ := by rw [hm1, hm]; rfl
  have hvisited : isVisitHold s1 l.entry = true ↔ visited := by
    rw [he, isVisitHold_iff, show s1.seq = s.seq by simp [hs1]]
  refine ⟨fun hin hv => hat.refused hload (judge_busy hin hb rfl (hvisited.2 hv)), fun hlo hhi hkg hv => ?_⟩
  refine hat.done hload (judge_ok ?_ hb rfl ?_) (applyHold_changes _ _) (fun u => .frame (applyHold_changes _ _ u)) ?_
  · refine inRanges_of_entry s l _ hm ?_ ?_ <;> rw [ht]
    · have harm : armInRange n = true := decide_eq_true ⟨hlo, hhi⟩
      cases g with
      | none => simp [fieldRanges, inRanges, harm]
      | some c => simp [fieldRanges, inRanges, harm, between, hkg c rfl]
    · simp [fieldRanges]
  · rw [← Bool.not_eq_true, hvisited]
    exact hv
  · rw [he, (endEvent_fields _).2.2.2.2.2.2.2.1, applyHold_eq]
    classical
    have hstate : holdAfterLoad { answered e rest .load s with
        seq := { (answered e rest .load s).seq with
          holds := upd (answered e rest .load s).seq.holds hd (some ⟨arm, g⟩) } } hd
        = if reached then .full else if s.seq.holdStates[hd] = .full then .filling else s.seq.holdStates[hd] := by
      rw [holdAfterLoad_eq (x := ⟨arm, g⟩) (upd_get ..)]
      simp only [hship, hseq]
      rfl
    refine ⟨upd_get .., by rw [hseq], by rw [hseq], fun h' hne => ⟨?_, ?_⟩, fun hr => ?_, fun hr => ?_⟩
    · rw [hseq]
      exact upd_get_ne _ _ _ _ (Ne.symm hne)
    · rw [hseq]
      exact upd_get_ne _ _ _ _ (Ne.symm hne)
    · refine (upd_get ..).trans (hstate.trans (if_pos hr))
    · refine (upd_get ..).trans (hstate.trans (if_neg hr))

/-- An entry of SEQUENCE (R67). -/
theorem LoadAt.slot_loaded :
    ∀ (i : Fin 16) (h : Hold) (q : Nat), l.table = .sequence → l.entry = i.val →
      l.merged s = [some (h.val + 1), some q] →
      let busy : Prop := PlanRuns s ∧ (l.set = true ∨ ∀ o, s.seq.slots[i] = some o →
        o.hold ≠ h ∨ (o.quota ≠ q ∧ ∃ v, s.seq.visit = some v ∧ v.slot = i))
      (l.InRange → busy → LoadRefused s e rest l .busy)
      ∧ (1 ≤ q → q ≤ 99999999 → ¬ busy → LoadDone s e rest l [.planTables] fun t => t.seq.slots[i] = some ⟨h, q⟩
          ∧ t.seq.holds = s.seq.holds ∧ t.seq.header = s.seq.header
          ∧ ∀ j : Fin 16, j ≠ i → t.seq.slots[j] = s.seq.slots[j]) := by
  set s1 := takeHead .U e rest .load s with hs1
  have hm1 : l.merged s1 = l.merged s := merged_takeHead s e rest .load l
  obtain ⟨-, -, -, -, -, -, -, hseq, -⟩ :=
    answered_fields e rest .load s
  intro i hd q ht he hm busy
  have hload : loadTable e.frame l s1 = answerJudged e.frame (judgeLoad s1 l buildSlot noRelation (slotBusy s1 l))
      (applySlot l.entry) s1 := by rw [loadTable, ht]
  have hb : buildSlot (l.merged s1) = some ⟨hd, q⟩ := by rw [hm1, hm, buildSlot_hold]
  have hbusy : slotBusy s1 l ⟨hd, q⟩ = true ↔ busy := by
    rw [slotBusy_iff he, show s1.seq = s.seq by simp [hs1]]
    exact Iff.rfl
  refine ⟨fun hin hy => hat.refused hload (judge_busy hin hb rfl (hbusy.2 hy)), fun hlo hhi hy => ?_⟩
  refine hat.done hload (judge_ok ?_ hb rfl ?_) (applySlot_changes _ _) (fun u => .frame (applySlot_changes _ _ u)) ?_
  · have hh := hd.isLt
    refine inRanges_of_entry s l _ hm ?_ ?_ <;> rw [ht]
    · simp [fieldRanges, inRanges, between]
      omega
    · simp [fieldRanges]
  · rw [← Bool.not_eq_true, hbusy]
    exact hy
  · rw [he, (endEvent_fields _).2.2.2.2.2.2.2.1]
    have hrest : (applySlot i.val ⟨hd, q⟩ (answered e rest .load s)).seq.holds = s.seq.holds
        ∧ (applySlot i.val ⟨hd, q⟩ (answered e rest .load s)).seq.header = s.seq.header := by
      rw [applySlot, dif_pos i.isLt, ← hseq]
      exact ⟨rfl, rfl⟩
    refine ⟨by rw [applySlot_get, if_pos rfl], hrest.1, hrest.2, fun j hj => ?_⟩
    rw [applySlot_get, if_neg (Ne.symm hj), hseq]

/-- The plan header, with its max rate (R68, R95). -/
theorem LoadAt.plan_loaded :
    let s1 := takeHead .U e rest .load s
    ∀ (n st r tl mx : Nat) (o : Order) (sh : Option Nat), l.table = .plan →
      l.merged s = [some n, some o.code.toNat, some st, some r, some tl, sh, some mx] →
      let new : PlanHeader :=
        { slotCount := n, order := o, startSlot := st, roundLimit := r, trimLimit := tl, shipTarget := sh, maxRate := mx }
      let busy : Prop := PlanRuns s ∧ (l.set = true ∨ ∀ x, s.seq.header = some x →
        x.slotCount ≠ n ∨ x.order ≠ o ∨ x.startSlot ≠ st ∨ x.roundLimit ≠ r)
      (l.InRange → busy → LoadRefused s e rest l .busy)
      ∧ (1 ≤ n → n ≤ 16 → st ≤ 15 → 1 ≤ r → r ≤ 255 → 1 ≤ tl → tl ≤ 1000000000000 → KgField sh → 1 ≤ mx → mx ≤ 65535 →
        ¬ busy → LoadDone s e rest l (.planTables :: .limit :: derateBlocks) fun t => t.seq.header = some new
          ∧ t.seq.holds = s.seq.holds ∧ t.seq.slots = s.seq.slots
          ∧ ((∃ x, s.seq.header = some x ∧ x.maxRate = mx) → t.gate.rateLimit = s.gate.rateLimit)
          ∧ ((∀ x, s.seq.header = some x → x.maxRate ≠ mx) →
              t.gate.rateLimit = mx * s.dust.percent s.dust.overall / 100
                ∧ ∃ m, LimitRecomputed { s1 with seq := { s1.seq with header := some new } } m
                  ∧ ∀ b ∈ .limit :: derateBlocks, Same b m t)) := by
  intro s1
  have hm1 : l.merged s1 = l.merged s := merged_takeHead s e rest .load l
  obtain ⟨-, -, -, -, -, -, -, hseq, hgate, -⟩ :=
    answered_fields e rest .load s
  intro n st r tl mx o sh ht hm new busy
  have hload : loadTable e.frame l s1 = answerJudged e.frame (judgeLoad s1 l buildPlan noRelation (planBusy s1 l))
      applyPlan s1 := by rw [loadTable, ht]
  have hb : buildPlan (l.merged s1) = some new := by
    rw [hm1, hm, buildPlan, order_fromCode]
    rfl
  have hbusy : planBusy s1 l new = true ↔ busy := by
    rw [planBusy_iff, show s1.seq = s.seq by simp [s1]]
    exact Iff.rfl
  refine ⟨fun hin hy => hat.refused hload (judge_busy hin hb rfl (hbusy.2 hy)),
    fun hn1 hn2 hst hr1 hr2 htl1 htl2 hsh hmx1 hmx2 hy => ?_⟩
  refine hat.done hload (judge_ok ?_ hb rfl ?_) (applyPlan_changes _) (applyPlan_keeps _) ?_
  · have ho : o.code.toNat ≤ 1 := by cases o <;> decide
    refine inRanges_of_entry s l _ hm ?_ ?_ <;> rw [ht]
    · cases sh with
      | none => simp [fieldRanges, inRanges, between, *]
      | some c => simp [fieldRanges, inRanges, between, hsh c rfl, *]
    · simp [fieldRanges]
  · rw [← Bool.not_eq_true, hbusy]
    exact hy
  · set A := answered e rest .load s with hA
    have hheader : A.seq.header = s.seq.header := by rw [hseq]
    obtain ⟨htables, hholds, hslots⟩ := applyPlan_tables new A
    refine ⟨?_, ?_, ?_, fun hsame => ?_, fun hother => ?_⟩
    · rw [(endEvent_closes _).1, htables]
    · rw [(endEvent_closes _).1, hholds, hseq]
    · rw [(endEvent_closes _).1, hslots, hseq]
    · obtain ⟨x, hx, hmx⟩ := hsame
      rw [applyPlan_same (hheader.trans hx) hmx, ← hgate]
      exact (endEvent_closes _).gate.2.2.2.2.2.1
    · rw [applyPlan_recomputes (fun x hx => hother x (hheader ▸ hx))]
      have haside : ({ A with seq := { A.seq with header := some new } } : State)
          = ({ s1 with seq := { s1.seq with header := some new } } : State).aside A.line.u A.ladder := by
        rw [hA, answered_aside]
        rfl
      rw [haside]
      obtain ⟨hlimit, hm⟩ :=
        recomputed_ends ({ s1 with seq := { s1.seq with header := some new } } : State) A.line.u A.ladder
      refine ⟨hlimit.trans ?_, hm⟩
      rw [rateLimitOf, show s1.dust = s.dust by simp [s1]]

/-- The derate percentages (R109, R95). -/
theorem LoadAt.derates_loaded :
    let s1 := takeHead .U e rest .load s
    ∀ a b, l.table = .dust → l.entry = 0 → l.merged s = [some a, some b] →
      (a < b → LoadRefused s e rest l .badValue)
      ∧ (b ≤ a → a ≤ 100 → LoadDone s e rest l (.derates :: .limit :: derateBlocks) fun t =>
          t.dust.elevDerate = a ∧ t.dust.highDerate = b
            ∧ (t.dust.percent s.dust.overall = s.dust.percent s.dust.overall → t.gate.rateLimit = s.gate.rateLimit)
            ∧ ∀ p, t.dust.percent s.dust.overall ≠ s.dust.percent s.dust.overall → s.seq.header = some p →
                t.gate.rateLimit = p.maxRate * t.dust.percent s.dust.overall / 100
                  ∧ ∃ m, LimitRecomputed { s1 with dust := t.dust } m ∧ ∀ b ∈ .limit :: derateBlocks, Same b m t) := by
  intro s1
  have hm1 : l.merged s1 = l.merged s := merged_takeHead s e rest .load l
  obtain ⟨-, -, -, -, -, -, -, -, hgate, hdust, -⟩ :=
    answered_fields e rest .load s
  intro a b ht he hm
  have hload : loadTable e.frame l s1 = answerJudged e.frame (judgeLoad s1 l buildDerate derateRelation neverBusy)
      applyDerate s1 := by
    rw [loadTable, ht]
    exact if_pos he
  have hb : buildDerate (l.merged s1) = some (a, b) := by
    rw [hm1, hm]
    rfl
  refine ⟨fun hlt => hat.refused hload (judge_badValue hb (if_neg (Nat.not_le.2 hlt))), fun hle hmax => ?_⟩
  refine hat.done hload (judge_ok ?_ hb (if_pos hle) rfl) (applyDerate_changes _) (applyDerate_keeps _) ?_
  · refine inRanges_of_entry s l _ hm ?_ ?_ <;> rw [ht, he]
    · simp [fieldRanges, inRanges, between]
      omega
    · simp [fieldRanges]
  · set A := answered e rest .load s with hA
    have hd : (endEvent (applyDerate (a, b) A)).dust = { s.dust with elevDerate := a, highDerate := b } := by
      rw [(endEvent_closes _).2.2.2.2.1, applyDerate_dust, hdust]
    have hpercent : (endEvent (applyDerate (a, b) A)).dust.percent s.dust.overall
        = ({ A.dust with elevDerate := a, highDerate := b } : Dust).percent A.dust.overall := by rw [hd, hdust]
    refine ⟨by rw [hd], by rw [hd], fun hsame => ?_, fun p hother hp => ?_⟩
    · rw [hpercent, ← hdust] at hsame
      rw [applyDerate_same hsame, ← hgate]
      exact (endEvent_closes _).gate.2.2.2.2.2.1
    · rw [hpercent] at hother ⊢
      rw [← hdust] at hother
      have hd1 : s1.dust = A.dust := by rw [hdust]; simp [s1]
      have haside : ({ A with dust := { A.dust with elevDerate := a, highDerate := b } } : State)
          = ({ s1 with dust := { A.dust with elevDerate := a, highDerate := b } } : State).aside A.line.u A.ladder := by
        rw [hA, answered_aside]
        rfl
      obtain ⟨hlimit, hm⟩ := recomputed_ends
        ({ s1 with dust := { A.dust with elevDerate := a, highDerate := b } } : State) A.line.u A.ladder
      rw [hd, ← hdust, applyDerate_recomputes hother, haside]
      refine ⟨hlimit.trans ?_, hm⟩
      rw [rateLimitOf, show s1.seq = s.seq by simp [s1], hp]

/-- The entry of a dust sensor (R109 to R111, R117). -/
theorem LoadAt.sensor_loaded :
    let s1 := takeHead .U e rest .load s
    ∀ (i : SensorNo) (lo : Location) (el hg tr hy sf rn si on : Nat), l.table = .dust → l.entry = i.val + 1 →
      l.merged s = [some lo.code.toNat, some el, some hg, some tr, some hy, some sf, some rn, some si, some on] →
      let new : SensorEntry :=
        { location := lo, elevated := el, high := hg, trip := tr, hysteresis := hy, shift := sf, tripRun := rn,
          silenceTime := si, enabled := on == 1 }
      let x := s.dust.sensors[i]
      let timer : Option Nat := if s.ready ∧ on = 1 then some (s.now + si) else none
      let wasOn : Prop := ∃ old, x.entry = some old ∧ old.enabled = true
      let rising : Prop := el < hg ∧ hg < tr
      (l.InRange → ¬ rising → LoadRefused s e rest l .badThresholds)
      ∧ (l.InRange → rising → x.latch = true → l.set = true ∨ on ≠ 1 → LoadRefused s e rest l .busy)
      ∧ (∀ old, l.InRange → rising → x.latch = true → l.set = false → on = 1 → x.entry = some old → old.enabled = true →
          let amended : Sensor := { x with entry := some new, timer :=
            if s.ready ∧ si ≠ old.silenceTime then some (s.now + si) else x.timer }
          let released : Prop := (s.ladder.sources[srcDustTrip i]).state ≠ .pending
            ∧ (s.ladder.sources[srcDustTrip i]).state ≠ .inService ∧ x.a16 / 16 < (hg : Int) - hy
          LoadDone s e rest l dustBlocks fun t =>
            (∀ j : SensorNo, j ≠ i → t.dust.sensors[j] = s.dust.sensors[j])
              ∧ BandsFormed s1 t
              ∧ (released → t.dust.sensors[i] = { amended with latch := false }
                  ∧ (t.ladder.sources[srcDustTrip i]).cond = false)
              ∧ (¬ released → t.dust.sensors[i] = amended))
      ∧ (l.InRange → rising → x.latch = false → LoadDone s e rest l dustBlocks fun t =>
          let y := t.dust.sensors[i]
          y.entry = some new ∧ (∀ j : SensorNo, j ≠ i → t.dust.sensors[j] = s.dust.sensors[j])
            ∧ BandsFormed s1 t
            ∧ (x.entry = none ∨ l.set = true ∨ (¬ wasOn ∧ on = 1) →
                y = { entry := some new, a16 := 0, avgBand := .normal, latch := false, run := 0, silent := false,
                      timer := timer } ∧ (t.ladder.sources[srcDustHigh i]).cond = false
                  ∧ (t.ladder.sources[srcDustTrip i]).cond = false
                  ∧ (t.ladder.sources[srcSensorSilent i]).cond = false)
            ∧ (l.set = false → wasOn → on ≠ 1 → y = { x with entry := some new, timer := none, silent := false }
                ∧ (t.ladder.sources[srcDustHigh i]).cond = false
                ∧ (t.ladder.sources[srcSensorSilent i]).cond = false)
            ∧ (∀ old, l.set = false → x.entry = some old → (old.enabled = true ↔ on = 1) →
                y = { x with entry := some new,
                             timer := if s.ready ∧ on = 1 ∧ si ≠ old.silenceTime then some (s.now + si) else x.timer })) := by
  intro s1
  have hm1 : l.merged s1 = l.merged s := merged_takeHead s e rest .load l
  obtain ⟨hhandler, -, -, hnow, -, -, -, -, -, hdust, -⟩ :=
    answered_fields e rest .load s
  intro i lo el hg tr hy sf rn si on ht he hm new x timer wasOn rising
  set A := answered e rest .load s with hA
  have hload : loadTable e.frame l s1 = answerJudged e.frame (judgeLoad s1 l buildSensor sensorRelation (sensorBusy s1 l))
      (applySensor l) s1 := by
    rw [loadTable, ht]
    exact if_neg (by omega)
  have hb : buildSensor (l.merged s1) = some new := by
    rw [hm1, hm, buildSensor, location_fromCode]
    rfl
  have hrising : sensorRelation new = none ↔ rising := sensorRelation_iff new
  have hbusy : sensorBusy s1 l new = (x.latch && (l.set || !new.enabled)) := by
    rw [sensorBusy_eq he, show s1.dust = s.dust by simp [s1]]
  have hon : new.enabled = true ↔ on = 1 := beq_iff_eq
  have hAx : A.dust.sensors[i] = x := by rw [hdust]
  have hAready : A.ready = s.ready := by rw [State.ready, hhandler, State.ready]
  refine ⟨fun hin hr => ?_, fun hin hr hl hs => ?_, fun old hin hr hl hs ho hold hoon => ?_, fun hin hr hl => ?_⟩
  · refine hat.refused hload (judge_relation hin hb ?_)
    rw [sensorRelation, if_neg]
    exact hr
  · refine hat.refused hload (judge_busy hin hb (hrising.2 hr) ?_)
    rw [hbusy, hl, Bool.true_and, Bool.or_eq_true, Bool.not_eq_true', ← Bool.not_eq_true, hon]
    exact hs
  · intro amended released
    have hAold : (A.dust.sensors[i]).entry = some old := by rw [hAx, hold]
    have hload' : loadSensor i l.set new A = amendSensor i old new A := by
      rw [hs]
      exact loadSensor_amended hAold (hoon.trans (hon.2 ho).symm)
    obtain ⟨hstep, hladder⟩ := amendSensor_step i old new A
    have hamended : ({ A.dust.sensors[i] with
        entry := some new
        timer := if A.ready && new.enabled && new.silenceTime != old.silenceTime then some (A.now + new.silenceTime)
          else (A.dust.sensors[i]).timer } : Sensor) = amended := by
      rw [hAx, hAready, hnow, hon.2 ho, Bool.and_true]
      simp only [amended, new, Bool.and_eq_true, bne_iff_ne]
    rw [hamended] at hstep
    refine hat.done hload (judge_ok hin hb (hrising.2 hr) ?_) (applySensor_changes l new) (applySensor_keeps he new) ?_
    · rw [hbusy, hs, hon.2 ho]
      simp
    · rw [applySensor_eq he, hload']
      set u := amendSensor i old new A with hu
      have hreleased : released ↔ (u.ladder.state (srcDustTrip i)).holds = false ∧ LatchFalls i u := by
        have hlatch : amended.latch = true := hl
        rw [← Bool.not_eq_true, holds_iff, Ladder.state, hladder,
          answered_sensorSource e rest .load s (i := i) (by simp [sensorSources]), LatchFalls, hstep.sensor, hlatch,
          Sensor.belowRelease]
        simp only [amended, Sensor.average, not_or, true_and, and_assoc]
        exact and_congr_right fun _ => and_congr_right fun _ => decide_eq_true_iff.symm
      obtain ⟨hfalls, hstays⟩ := hstep.release
      by_cases hrel : released
      · obtain ⟨hs', hf'⟩ := hreleased.1 hrel
        obtain ⟨hstep', hcond⟩ := hfalls hs' hf'
        obtain ⟨hsensor, hothers, hsources, hbands⟩ := hstep'.ends
        refine ⟨fun j hj => (hothers j hj).trans (by rw [hdust]), bandsFormed_answered hbands, fun _ => ⟨hsensor, ?_⟩,
          fun hn => absurd hrel hn⟩
        rw [hsources _ (by simp [sensorSources]), hcond]
      · have hkept : releaseTest i u = u := hstays (by
          rw [hreleased, not_and_or, Bool.not_eq_false] at hrel
          exact hrel)
        obtain ⟨hsensor, hothers, -, hbands⟩ := hstep.ends
        rw [hkept]
        exact ⟨fun j hj => (hothers j hj).trans (by rw [hdust]), bandsFormed_answered hbands, fun hn => absurd hn hrel,
          fun _ => hsensor⟩
  · refine hat.done hload (judge_ok hin hb (hrising.2 hr) ?_) (applySensor_changes l new) (applySensor_keeps he new) ?_
    · rw [hbusy, hl]
      rfl
    · rw [applySensor_eq he]
      obtain ⟨y, hstep, hentry, hlatch, hfresh, hoff, hamend⟩ := loadSensor_left i l.set new A (by rw [hAx]; exact hl)
      set u := loadSensor i l.set new A with hu
      have hkept : releaseTest i u = u := hstep.release.2 (.inr fun hf => by
        rw [LatchFalls, hstep.sensor, hlatch] at hf
        cases hf.1)
      obtain ⟨hsensor, hothers, hsources, hbands⟩ := hstep.ends
      rw [hkept]
      rw [hAx] at hfresh hoff hamend
      refine ⟨by rw [hsensor, hentry], fun j hj => (hothers j hj).trans (by rw [hdust]), bandsFormed_answered hbands,
        fun hcase => ?_, fun hset hwas hoon => ?_, fun old hset hold hsame => ?_⟩
      · obtain ⟨hy', hconds⟩ := hfresh (hcase.imp_right (Or.imp_right (And.imp_right hon.2)))
        refine ⟨?_, ?_, ?_, ?_⟩
        · have htimer : (s.ready && new.enabled) = true ↔ s.ready = true ∧ on = 1 := by rw [Bool.and_eq_true, hon]
          rw [hsensor, hy', startedTimer, hAready, hnow, if_congr htimer rfl rfl]
          rfl
        · rw [hsources _ (by simp [sensorSources]), hconds _ (by simp [sensorSources])]
        · rw [hsources _ (by simp [sensorSources]), hconds _ (by simp [sensorSources])]
        · rw [hsources _ (by simp [sensorSources]), hconds _ (by simp [sensorSources])]
      · obtain ⟨hy', hhigh, hsilent⟩ := hoff hset hwas (by rw [← Bool.not_eq_true, hon]; exact hoon)
        refine ⟨hsensor.trans hy', ?_, ?_⟩
        · rw [hsources _ (by simp [sensorSources]), hhigh]
        · rw [hsources _ (by simp [sensorSources]), hsilent]
      · have hy' := hamend old hset hold (by rw [Bool.eq_iff_iff, hon]; exact hsame)
        have htimer : (s.ready && new.enabled && new.silenceTime != old.silenceTime) = true
            ↔ s.ready = true ∧ on = 1 ∧ si ≠ old.silenceTime := by
          rw [Bool.and_eq_true, Bool.and_eq_true, hon, bne_iff_ne, and_assoc]
        rw [hsensor, hy', hAready, hnow, if_congr htimer rfl rfl]

/-- An entry of ALARM (R135, R136). -/
theorem LoadAt.alarm_loaded :
    let s1 := takeHead .U e rest .load s
    ∀ (i : SourceNo) (rank rec pres : Nat), l.table = .alarm → l.entry = i.val →
      l.merged s = [some rank, some rec, some pres] →
      let x := (takeHead .U e rest .load s).ladder.sources[i]
      let changes : Prop := rank ≠ x.rank ∨ (rec == 1) ≠ x.record ∨ (pres == 1) ≠ x.present
      (l.InRange → x.state = .inService → changes → LoadRefused s e rest l .busy)
      ∧ (rank ≤ 15 → rec ≤ 1 → pres ≤ 1 → (x.state = .inService → ¬ changes) →
          LoadDone s e rest l (.alarmTable :: dustBlocks) fun t =>
            let y := t.ladder.sources[i]
            y.rank = rank ∧ y.record = (rec == 1) ∧ y.present = (pres == 1)
              ∧ (rec = 0 → x.state ≠ .inService → y.state = .idle) ∧ (rec = 1 → y.state = x.state)
              ∧ (∀ k : SensorNo, i = srcDustTrip k → rec = 0 → x.state = .pending ∨ x.state = .standing →
                  ReleaseTested k s1 t)
              ∧ ∀ j : SourceNo, j ≠ i → (t.ladder.sources[j]).rank = (s.ladder.sources[j]).rank
                  ∧ (t.ladder.sources[j]).record = (s.ladder.sources[j]).record
                  ∧ (t.ladder.sources[j]).present = (s.ladder.sources[j]).present) := by
  intro s1
  have hm1 : l.merged s1 = l.merged s := merged_takeHead s e rest .load l
  intro i rank rec pres ht he hm x changes
  set A := answered e rest .load s with hA
  set y : AlarmFields := { rank := rank, record := rec == 1, present := pres == 1 } with hy
  have hload : loadTable e.frame l s1 = answerJudged e.frame (judgeLoad s1 l buildAlarm noRelation
      (alarmBusy s1 l.entry)) (applyAlarm l.entry) s1 := by rw [loadTable, ht]
  have hb : buildAlarm (l.merged s1) = some y := by rw [hm1, hm, buildAlarm]
  have hchanges : changes ↔ AlarmChanges x y := Iff.rfl
  have hbusy : alarmBusy s1 l.entry y = true ↔ x.state = .inService ∧ changes := by
    rw [he, alarmBusy_val, hchanges]
  refine ⟨fun hin hs hc => hat.refused hload (judge_busy hin hb rfl (hbusy.2 ⟨hs, hc⟩)), fun hrank hrec hpres hfree => ?_⟩
  refine hat.done hload (judge_ok ?_ hb rfl ?_) (applyAlarm_changes _ _)
    (fun u => by rw [he]; exact applyAlarm_keeps_line i y u) ?_
  · refine inRanges_of_entry s l _ hm ?_ ?_ <;> rw [ht]
    · simp [fieldRanges, inRanges, between, hrank, hrec, hpres]
    · simp [fieldRanges]
  · rw [← Bool.not_eq_true, hbusy]
    exact fun k => hfree k.1 k.2
  · obtain ⟨hyrank, hyrecord, hypresent⟩ := applyAlarm_alarmTable i i y A
    rw [amendState_source, if_pos rfl] at hyrank hyrecord hypresent
    have hrecord (k : Nat) (hk : rec = k) : y.record = (k == 1) := by rw [hy, hk]
    rw [he, endEvent_ladder]
    refine ⟨hyrank, hyrecord, hypresent, fun hoff hs => applyAlarm_idle (hrecord 0 hoff) hs, fun hon => ?_, ?_,
      fun j hj => ?_⟩
    · have hstate : ((A.ladder.sources[i]).amended y).state = (A.ladder.sources[i]).state :=
        amended_recorded (hrecord 1 hon)
      rw [applyAlarm_eq, if_pos hstate, amendState_source, if_pos rfl]
      exact hstate
    · rintro k rfl hoff hs
      have hne : ∀ k, srcDustTrip k ≠ srcCloseoutNotIssued ∧ srcDustTrip k ≠ srcBillMark := by decide
      have hwas : (A.ladder.sources[srcDustTrip k]).state = .pending
        ∨ (A.ladder.sources[srcDustTrip k]).state = .standing := hs
      have hout : (A.ladder.sources[srcDustTrip k]).state ≠ .inService := by
        rcases hwas with hw | hw <;> rw [hw] <;> decide
      rw [applyAlarm_reports (hrecord 0 hoff) hwas, reportSource_dustTrip]
      have hamended := amendState_source (srcDustTrip k) (srcDustTrip k) y A
      rw [if_pos rfl] at hamended
      have hidle : ((amendState (srcDustTrip k) y A).ladder.state (srcDustTrip k)).holds = false := by
        rw [Ladder.state, hamended, amended_idle _ _ (hrecord 0 hoff) hout]
        rfl
      refine ((retestLatch_tested k _ hidle).aside (amendState_answered e rest .load (srcDustTrip k) y s) ?_ ?_ ?_).closes
        (endEvent_closes _)
      · rw [amendState_source, if_neg (hne k).1]
        rfl
      · rw [amendState_source, if_neg (hne k).2]
        rfl
      · rw [hamended]
        rfl
    · obtain ⟨hjrank, hjrecord, hjpresent⟩ := applyAlarm_alarmTable i j y A
      rw [amendState_source, if_neg (Ne.symm hj)] at hjrank hjrecord hjpresent
      obtain ⟨htrank, htrecord, htpresent⟩ := takeHead_U_alarmTable e rest .load s j
      exact ⟨hjrank.trans htrank, hjrecord.trans htrecord, hjpresent.trans htpresent⟩

/-- The bill marks (R151). -/
theorem LoadAt.marks_loaded :
    ∀ a b c d, l.table = .bills → l.merged s = [some a, some b, some c, some d] →
      (l.InRange → ¬ (a < b ∧ b < c ∧ c < d) → LoadRefused s e rest l .badValue)
      ∧ (1 ≤ a → a < b → b < c → c < d → d ≤ 256 →
        LoadDone s e rest l [.marks] fun t => t.bills.marks = #v[a, b, c, d]) := by
  set s1 := takeHead .U e rest .load s with hs1
  have hm1 : l.merged s1 = l.merged s := merged_takeHead s e rest .load l
  intro a b c d ht hm
  have hload : loadTable e.frame l s1 = answerJudged e.frame (judgeLoad s1 l buildMarks marksRelation neverBusy)
      applyMarks s1 := by rw [loadTable, ht]
  have hb : buildMarks (l.merged s1) = some #v[a, b, c, d] := by
    rw [hm1, hm]
    rfl
  refine ⟨fun hin hbad => hat.refused hload (judge_badValue hb (if_neg hbad)), fun ha hab hbc hcd hd => ?_⟩
  refine hat.done hload (judge_ok ?_ hb (if_pos ⟨hab, hbc, hcd⟩) rfl) (applyMarks_changes _)
    (fun u => .frame (applyMarks_changes _ u)) ?_
  · refine inRanges_of_entry s l _ hm ?_ ?_ <;> rw [ht]
    · simp [fieldRanges, inRanges, between]
      omega
    · simp [fieldRanges]
  · simp [applyMarks]

/-- A field out of its range is refused before the entry is judged (R191). -/
theorem LoadAt.outOfRange (hin : ¬ l.InRange) : LoadRefused s e rest l .badValue := by
  set s1 := takeHead .U e rest .load s with hs1
  have hbad {α : Type} (build : List (Option Nat) → Option α) (relation : α → Option Reason) (busy : α → Bool) :
      judgeLoad s1 l build relation busy = .error .badValue := judgeLoad_out _ _ _ _ _ hin
  cases ht : l.table with
  | stations => exact hat.refused (by rw [loadTable, ht]) (hbad _ _ _)
  | scale => exact hat.refused (by rw [loadTable, ht]) (hbad _ _ _)
  | travel => exact hat.refused (by rw [loadTable, ht]) (hbad _ _ _)
  | envelopes => exact hat.refused (by rw [loadTable, ht]) (hbad _ _ _)
  | holds => exact hat.refused (by rw [loadTable, ht]) (hbad _ _ _)
  | sequence => exact hat.refused (by rw [loadTable, ht]) (hbad _ _ _)
  | plan => exact hat.refused (by rw [loadTable, ht]) (hbad _ _ _)
  | gate => exact hat.refused (by rw [loadTable, ht]) (hbad _ _ _)
  | dust =>
    by_cases he : l.entry = 0
    · exact hat.refused (by rw [loadTable, ht]; exact if_pos he) (hbad _ _ _)
    · exact hat.refused (by rw [loadTable, ht]; exact if_neg he) (hbad _ _ _)
  | alarm => exact hat.refused (by rw [loadTable, ht]) (hbad _ _ _)
  | bills => exact hat.refused (by rw [loadTable, ht]) (hbad _ _ _)
  | accounts =>
    intro hn
    refine takes_loadRefused .badValue hat.heads hat.header hat.parsed ?_
    rw [runLoad, if_neg (by rw [amendsNothing_taken, amendsNothing_iff]; exact hn), loadTable, ht]

end

end Sys2Proof.Machine

open Sys2Proof Sys2Proof.Machine

/-- Settles O44. -/
theorem gateLoaded : Obligations.GateLoaded := by
  refine ⟨?_, ?_, loadHeaderFails_false_iff, ?_⟩
  · intro s e rest m a b h hm w
    have hload (w : Option Nat) : loadTable e.frame (gateLoad m w) (takeHead .U e rest .load s) = answerJudged e.frame
        (judgeLoad (takeHead .U e rest .load s) (gateLoad m w) buildGate noRelation neverBusy) applyGate
        (takeHead .U e rest .load s) := rfl
    have hn (w : Nat) : (gateLoad m (some w)).amendsNothing s = false := by
      simp [Load.amendsNothing, gateLoad]
    have hb (w : Nat) : buildGate ((gateLoad m (some w)).merged (takeHead .U e rest .load s)) = some w := by
      rcases hm with rfl | rfl <;> rfl
    refine ⟨fun hp hlo hhi => ?_, fun hp hout => ?_, fun hp => ?_⟩
    · obtain ⟨hf, hl⟩ := gate_carries hp hm
      refine takes_judgedDone h hf hl (hn w) (hload _) (judge_ok ?_ (hb w) rfl rfl) (applyGate_changes w)
        (fun u => .frame (applyGate_changes w u)) ?_
      · have hw : between 10 2000 w = true := between_true hlo hhi
        simp only [gateLoad, fieldRanges, inRanges, List.zipWith_cons_cons, List.zipWith_nil_left, Option.all_some, List.all_cons,
          id_eq, List.all_nil, Bool.and_true]
        exact hw
      · simp [applyGate]
    · obtain ⟨hf, hl⟩ := gate_carries hp hm
      refine takes_judgedRefused h hf hl (hn w) (hload _) (r := .badValue) (judgeLoad_out _ _ _ _ _ ?_)
      simp only [gateLoad, fieldRanges, inRanges, between, List.zipWith_cons_cons, List.zipWith_nil_left, Option.all_some,
        List.all_cons, id_eq, List.all_nil, Bool.and_true, decide_eq_true_eq]
      omega
    · obtain ⟨hf, hl⟩ := gate_carriesNothing hp
      exact (takes_judgedDone (post := fun t => t.gate.replyWindow = 200) (effect := applyGate) (x := 200)
        (xs := [.window]) h hf hl rfl rfl rfl (applyGate_changes 200) (fun u => .frame (applyGate_changes 200 u))
        (by simp [applyGate])).imp fun t ht => ht.1
  · intro s e rest h hf
    refine takes_of (xs := [.send .U]) treatLoad h rfl ?_ (by decide) ?_
    · rw [treatLoad_header hf]
      exact answerRefused_changes _ _ _
    · rw [treatLoad_header hf]
      exact offered_refused (by rw [load_code h]; rfl)
  · intro s e rest l h hf hl m s1 amendsNothing onto accepted refused done inRange kg runs
    have hat : LoadAt s e rest l := ⟨h, hf, hl⟩
    refine ⟨fun hset => ?_, fun old hset hold => ?_, fun hset hnone => ?_, fun hn ht => ?_,
      hat.sensor_untouched, hat.outOfRange, hat.travel_limits_loaded, hat.travel_counts_loaded, hat.envelope_missing,
      hat.envelope_loaded, hat.hold_missing, hat.hold_loaded, hat.slot_missing, hat.slot_loaded, hat.plan_missing,
      hat.plan_loaded, hat.derates_loaded, hat.dust_missing, hat.sensor_loaded, hat.alarm_loaded, hat.marks_loaded⟩
    · change l.merged s = _
      rw [merged_eq, hset]
      rfl
    · change l.merged s = _
      rw [merged_eq, hset, hold]
      rfl
    · change l.merged s = _
      rw [merged_eq, hset, hnone]
      rfl
    · exact (takes_loadNothing h hf hl ((amendsNothing_iff s l).2 hn) ht).imp fun t ho => ⟨trivial, ho⟩

end

section
/-! ## The stages of a BELT sample (R3 to R23)

What each stage leaves of the source table and of the port U queue. The port U queue is bounded through one number: its
length, with one for a held move and one for a visit in pour phase, since each of those two can put at most one frame more
there within an event. -/

set_option Elab.async false

namespace Sys2Proof.Machine

/-! ### Sources -/

theorem driftSet_leaves (b : Bool) (s : State) : LeavesSources [srcZeroDrift] s (driftSet b s) := by
  unfold driftSet
  split
  · exact (setCond_source _ _ s).trans (raise_source _ _)
  · exact setCond_source _ _ s

theorem evalDrift_leaves (s : State) : LeavesSources [srcZeroDrift] s (evalDrift s) := by
  cases h : s.meter.table with
  | none =>
    rw [evalDrift, h]
    exact .refl _ s
  | some sc =>
    rw [evalDrift_eq h]
    exact driftSet_leaves _ s

theorem addDrift_leaves (m : Nat) (s : State) : LeavesSources [srcZeroDrift] s (addDrift m s) := by
  unfold addDrift
  split
  · exact .trans .ladder (evalDrift_leaves _)
  · exact .refl _ s

theorem takeIncrement_leaves (sc : ScaleTable) (m : Nat) (o g : Bool) (s : State) :
    LeavesSources [srcSegmentCoarse] s (takeIncrement sc m o g s) := by
  unfold takeIncrement
  split
  · exact .ladder
  · split
    · exact .ladder
    · split
      · exact .ladder
      · exact .trans .ladder ((setCond_source _ _ _).trans (raise_source _ _))

theorem deliveryAlarm_leaves (a : Account) (s : State) :
    LeavesSources [srcUnplacedPour, srcOffPlan] s (deliveryAlarm a s) := by
  unfold deliveryAlarm
  split
  · exact (raise_source _ s).mono
  · split
    · split
      · exact .refl _ s
      · exact (raise_source _ s).mono
    · exact .refl _ s

theorem reportDelivery_leaves (g : Segment) (a : Account) (xs : List SourceNo) (s : State) :
    LeavesSources xs s (reportDelivery g a s) := by
  unfold reportDelivery
  split <;> exact .ladder

/-- The sources that a delivery may raise or end. -/
def deliverySources : List SourceNo :=
  [srcStrayMass, srcUnplacedPour, srcOffPlan, srcSegmentCoarse, srcTrimBound, srcBillMark]

theorem creditDelivery_leaves (g : Segment) (s : State) :
    LeavesSources [srcStrayMass, srcUnplacedPour, srcOffPlan] s (creditDelivery g s) := by
  unfold creditDelivery
  split
  · exact (raise_source _ s).mono
  · exact .trans .ladder ((deliveryAlarm_leaves _ _).mono.trans (reportDelivery_leaves _ _ _ _))

theorem coarseLeft_leaves (g : Segment) (rest : List Segment) (s : State) :
    LeavesSources [srcSegmentCoarse] s (coarseLeft g rest s) := by
  unfold coarseLeft
  split
  · exact setCond_source _ _ s
  · exact .refl _ s

theorem queueEmptied_leaves (s : State) : LeavesSources [srcTrimBound, srcBillMark] s (queueEmptied s) := by
  unfold queueEmptied
  refine .trans ?_ (.frame (testHeldMove_changes _))
  split
  · exact completeVisit_source s
  · exact .refl _ s

theorem deliver_leaves (g : Segment) (rest : List Segment) (s : State) :
    LeavesSources deliverySources s (deliver g rest s) := by
  unfold deliver
  have hcredit : LeavesSources deliverySources s
      (creditDelivery g (coarseLeft g rest { s with flight := { s.flight with segments := rest } })) :=
    .trans .ladder ((coarseLeft_leaves _ _ _).mono.trans (creditDelivery_leaves _ _).mono)
  simp only
  split
  · exact hcredit.trans (queueEmptied_leaves _).mono
  · exact hcredit

theorem deliverDue_leaves (gs : List Segment) (s : State) : LeavesSources deliverySources s (deliverDue gs s) := by
  induction gs generalizing s with
  | nil => exact .refl _ s
  | cons g rest ih =>
    unfold deliverDue
    split
    · exact (deliver_leaves g rest s).trans (ih _)
    · exact .refl _ s

theorem checkProjections_leaves (s : State) :
    LeavesSources [srcCloseoutNotIssued, srcTrimBound, srcBillMark] s (checkProjections s) := by
  unfold checkProjections
  split
  · exact .refl _ s
  · split
    · split
      · exact takeTrigger_source _ s
      · exact .refl _ s
    · exact .refl _ s

theorem deliverAndCheck_leaves (b : Bool) (s : State) :
    LeavesSources (srcCloseoutNotIssued :: deliverySources) s (deliverAndCheck b s) := by
  unfold deliverAndCheck
  have hdue := (deliverDue_leaves s.flight.segments s).mono (ys := srcCloseoutNotIssued :: deliverySources)
  simp only
  split
  · exact hdue.trans (checkProjections_leaves _).mono
  · exact hdue

theorem countClearing_leaves (s : State) : LeavesSources [srcMeterFault] s (countClearing s) := by
  unfold countClearing
  split
  · split
    · exact .trans .ladder (setCond_source _ _ _)
    · exact .ladder
  · exact .refl _ s

theorem endZero_leaves (o : ZeroOutcome) (n : Int) (s : State) : LeavesSources [srcBillMark] s (endZero o n s) := by
  unfold endZero
  split
  · exact .refl _ s
  · exact (issue_source _ _ s).trans (.trans .ladder (notice_source _ _).mono)

theorem completeZero_leaves (sc : ScaleTable) (z : ZeroOp) (s : State) :
    LeavesSources [srcZeroDrift, srcBillMark] s (completeZero sc z s) := by
  unfold completeZero
  simp only
  split
  · exact .trans .ladder (.trans .ladder ((evalDrift_leaves _).mono.trans (endZero_leaves _ _ _).mono))
  · exact .trans .ladder (endZero_leaves _ _ _).mono

theorem collectZero_leaves (sc : ScaleTable) (load : Int) (t : Nat) (s : State) :
    LeavesSources [srcZeroDrift, srcBillMark] s (collectZero sc load t s) := by
  unfold collectZero
  split
  · exact .refl _ s
  · split
    · exact (endZero_leaves _ _ s).mono
    · simp only
      split
      · exact completeZero_leaves _ _ s
      · exact .ladder

/-- The sources that METER FAULT may raise (R15). -/
def faultSources : List SourceNo := [srcMeterFault, srcCloseoutNotIssued, srcTrimBound, srcBillMark]

theorem setMeterFault_leaves (s : State) : LeavesSources faultSources s (setMeterFault s) := by
  have hraised : LeavesSources faultSources s (raise srcMeterFault (setCond srcMeterFault true
      { s with meter := { s.meter with fault := true, clearing := 0 } })) :=
    .trans .ladder ((setCond_source _ _ _).mono.trans (raise_source _ _).mono)
  unfold setMeterFault
  simp only
  split
  · exact hraised.trans (endZero_leaves _ _ _).mono
  · exact (hraised.trans (endZero_leaves _ _ _).mono).trans (takeTrigger_source _ _).mono

theorem restartSilence_leaves (xs : List SourceNo) (s : State) : LeavesSources xs s (restartSilence s) := by
  unfold restartSilence
  repeat' split
  all_goals exact .ladder

/-! ### The port U queue -/

/-- The frames of the port U queue, with those that a held move and a visit in pour phase may still put there. -/
def loadU (s : State) : Nat :=
  s.line.u.txQueue.length + s.place.held.isSome.toNat + s.visitPours.toNat

theorem loadU_eq {s t : State} (hu : t.line.u = s.line.u) (hh : t.place.held = s.place.held)
    (hv : t.seq.visit = s.seq.visit) : loadU t = loadU s := by
  rw [loadU, loadU, State.visitPours, State.visitPours, hu, hh, hv]

theorem OnlyChanges.loadU {xs : List Block} {s t : State} (h : OnlyChanges xs s t)
    (hu : Block.send .U ∉ xs := by decide) (hh : Block.held ∉ xs := by decide) (hv : Block.visit ∉ xs := by decide) :
    loadU t = loadU s := by
  obtain ⟨hsend, -⟩ := h.same (.send .U) hu
  have hheld : t.place.held = s.place.held := h.same .held hh
  have hvisit : t.seq.visit = s.seq.visit := h.same .visit hv
  have hqueue : t.line.u.txQueue = s.line.u.txQueue := hsend
  rw [Machine.loadU, Machine.loadU, State.visitPours, State.visitPours, hqueue, hheld, hvisit]

theorem begin_U_length (l : Line) : (l.begin .U).u.txQueue.length ≤ l.u.txQueue.length := by
  simp only [Line.begin]
  split
  next f rest _ hq =>
    rw [hq]
    exact Nat.le_succ _
  · exact le_rfl

theorem offer_U_length (f : Frame) (s : State) :
    (offer .U f s).line.u.txQueue.length ≤ s.line.u.txQueue.length + 1 := by
  simp only [offer, Line.offer]
  split
  · refine (begin_U_length _).trans ?_
    simp [Line.setPort, Line.port]
  · exact Nat.le_succ _

theorem offer_U_loadU (f : Frame) (s : State) : loadU (offer .U f s) ≤ loadU s + 1 := by
  have hlength := offer_U_length f s
  have hheld : (offer .U f s).place.held = s.place.held := rfl
  have hpours : (offer .U f s).visitPours = s.visitPours := rfl
  rw [loadU, loadU, hheld, hpours]
  omega

theorem offer_D_loadU (f : Frame) (s : State) : loadU (offer .D f s) = loadU s :=
  (offer_D f s).loadU

theorem forward_U_loadU (f : Frame) (s : State) : loadU (forward .U f s) ≤ loadU s + 1 := by
  unfold forward
  split
  · exact (offer_D_loadU f s).le.trans (Nat.le_succ _)
  · split
    · exact offer_U_loadU _ s
    · exact Nat.le_succ _

theorem testHeldMove_loadU (s : State) : loadU (testHeldMove s) ≤ loadU s := by
  unfold testHeldMove
  split
  · exact le_rfl
  next h hh =>
    split
    · refine (forward_U_loadU _ _).trans ?_
      rw [loadU, loadU, hh]
      change s.line.u.txQueue.length + 0 + s.visitPours.toNat + 1 ≤ s.line.u.txQueue.length + 1 + s.visitPours.toNat
      omega
    · exact le_rfl

theorem notice_loadU (bs : List Byte) (s : State) : loadU (notice bs s) ≤ loadU s + 1 := offer_U_loadU _ s

theorem finishPlan_loadU (r : FinishReason) (m : Bool) (s : State) : loadU (finishPlan r m s) ≤ loadU s + 1 := by
  unfold finishPlan
  refine (notice_loadU _ _).trans (Nat.succ_le_succ (le_of_eq ?_))
  simp only
  split
  · exact (raise_changes _ _).loadU
  · rfl

theorem openVisit_loadU (i : Fin 16) (sl : Slot) {s : State} (h : s.seq.visit = none) :
    loadU (openVisit i sl s) ≤ loadU s + 1 := by
  unfold openVisit
  refine (notice_loadU _ _).trans (Nat.succ_le_succ ?_)
  have hpours : (newVisit s i sl).state.pours = false := by
    unfold newVisit
    simp only
    split <;> rfl
  have hnone : s.visitPours = false := by rw [State.visitPours, h]
  have hnew : (setVisit (some (newVisit s i sl)) s).visitPours = false := hpours
  rw [loadU, loadU, hnew, hnone]
  exact le_rfl

theorem advanceCursor_loadU (s : State) : loadU (advanceCursor s) = loadU s
    ∧ (advanceCursor s).seq.visit = s.seq.visit := by
  unfold advanceCursor
  split
  · exact ⟨rfl, rfl⟩
  · split <;> exact ⟨rfl, rfl⟩

theorem selectLoop_loadU (p : PlanHeader) (fuel run : Nat) (m : Bool) {s : State} (h : s.seq.visit = none) :
    loadU (selectLoop p fuel run m s) ≤ loadU s + 1 := by
  induction fuel generalizing run m s with
  | zero => exact Nat.le_succ _
  | succ n ih =>
    unfold selectLoop
    split
    · exact finishPlan_loadU _ _ s
    · split
      · exact finishPlan_loadU _ _ s
      · split
        · exact Nat.le_succ _
        · split
          · exact openVisit_loadU _ _ h
          · simp only
            split
            · exact finishPlan_loadU _ _ _
            · obtain ⟨hload, hvisit⟩ := advanceCursor_loadU
                { s with seq := { s.seq with skips := min (s.seq.skips + 1) 65535 } }
              exact (ih _ _ (hvisit.trans h)).trans (Nat.succ_le_succ hload.le)

theorem afterVisit_loadU {s : State} (h : s.seq.visit = none) : loadU (afterVisit s) ≤ loadU s + 1 := by
  obtain ⟨hload, hvisit⟩ := advanceCursor_loadU s
  unfold afterVisit
  split
  · unfold selectVisit
    split
    · exact hload.le.trans (Nat.le_succ _)
    · exact (selectLoop_loadU _ _ _ _ (hvisit.trans h)).trans (Nat.succ_le_succ hload.le)
  · exact hload.le.trans (Nat.le_succ _)
  · exact Nat.le_succ _

/-- The completion of a visit in pour phase. -/
theorem completeVisit_loadU {s : State} (h : s.visitPours = true) : loadU (completeVisit s) ≤ loadU s := by
  cases hv : s.seq.visit with
  | none => rw [State.visitPours, hv] at h; cases h
  | some v =>
    rw [completeVisit_eq v s hv]
    obtain ⟨hplace, -, hline, -⟩ := completed_kept v s
    have hcompleted : loadU (completed v s) + 1 = loadU s := by
      have hpours : (completed v s).visitPours = false := rfl
      rw [loadU, loadU, hline, hplace, hpours, h]
      rfl
    have htested : (testHeldMove (completed v s)).seq.visit = none := congrArg Sequencer.visit (testHeldMove_kept (completed v s)).2.1
    calc loadU (afterVisit (testHeldMove (completed v s)))
        ≤ loadU (testHeldMove (completed v s)) + 1 := afterVisit_loadU htested
      _ ≤ loadU (completed v s) + 1 := Nat.succ_le_succ (testHeldMove_loadU _)
      _ = loadU s := hcompleted

theorem completeIfEmpty_loadU {s : State} (h : s.visitPours = true) : loadU (completeIfEmpty s) ≤ loadU s := by
  unfold completeIfEmpty
  split
  · exact completeVisit_loadU h
  · exact le_rfl

/-- A change of the open visit that leaves it in pour phase. -/
theorem mapVisit_loadU {s : State} {f : Visit → Visit} (h : s.visitPours = true) (hf : ∀ v, (f v).state.pours = true) :
    loadU (mapVisit f s) = loadU s ∧ (mapVisit f s).visitPours = true := by
  have hpours : (mapVisit f s).visitPours = true := by
    cases hv : s.seq.visit with
    | none => rw [State.visitPours, hv] at h; cases h
    | some v =>
      simp only [mapVisit, hv, Option.map_some, State.visitPours, setVisit]
      exact hf v
  exact ⟨by rw [loadU, loadU, hpours, h]; rfl, hpours⟩

theorem closeOutNotIssued_loadU {s : State} (h : s.visitPours = true) : loadU (closeOutNotIssued s) ≤ loadU s := by
  set u := raise srcCloseoutNotIssued (abandonOrder .feeder s) with hu
  have hc : OnlyChanges [.entries, .injection, .sources] s u :=
    (abandonOrder_changes .feeder s).mono.trans (raise_changes _ _).mono
  have hvisit : u.seq.visit = s.seq.visit := hc.same .visit
  have hpours : u.visitPours = true := by rw [State.visitPours, hvisit]; exact h
  obtain ⟨hload, hdraining⟩ := mapVisit_loadU (f := fun v => { v with state := .draining, flags := { v.flags with
    hardStopped := v.flags.hardStopped || true } }) hpours fun _ => rfl
  exact (completeIfEmpty_loadU hdraining).trans (hload.le.trans hc.loadU.le)

theorem closeOut_loadU {s : State} (h : s.visitPours = true) : loadU (closeOut s) ≤ loadU s := by
  unfold closeOut
  split
  · split
    · exact le_of_eq rfl
    · exact closeOutNotIssued_loadU h
  · split
    next s' hs' => exact (injectOrder_changes _ _ _ _ _ hs').loadU.le
    · exact closeOutNotIssued_loadU h

theorem takeTrigger_loadU (r : EndReason) (s : State) : loadU (takeTrigger r s) ≤ loadU s := by
  cases h : s.visitPours with
  | false => rw [takeTrigger_idle r s h]
  | true =>
    unfold takeTrigger
    split
    · obtain ⟨hload, hpours⟩ := mapVisit_loadU (f := fun v => { v with state := .closing, endReason := some r }) h
        fun _ => rfl
      exact (closeOut_loadU hpours).trans hload.le
    · obtain ⟨hload, hpours⟩ := mapVisit_loadU (f := fun v => { v with state := .draining, endReason := some r }) h
        fun _ => rfl
      exact (completeIfEmpty_loadU hpours).trans hload.le
    · exact le_rfl

theorem checkProjections_loadU (s : State) : loadU (checkProjections s) ≤ loadU s := by
  unfold checkProjections
  split
  · exact le_rfl
  · split
    · split
      · exact takeTrigger_loadU _ s
      · exact le_rfl
    · exact le_rfl

theorem reportDelivery_loadU (g : Segment) (a : Account) (s : State) : loadU (reportDelivery g a s) = loadU s := by
  unfold reportDelivery
  split
  next v hv =>
    have hpours : (setVisit (some (v.delivered g a)) s).visitPours = s.visitPours := by
      rw [State.visitPours, State.visitPours, hv]
      rfl
    rw [loadU, loadU, hpours]
    rfl
  · rfl

theorem creditDelivery_loadU (g : Segment) (s : State) : loadU (creditDelivery g s) = loadU s := by
  unfold creditDelivery
  split
  · exact (raise_changes _ s).loadU
  · simp only
    exact (reportDelivery_loadU _ _ _).trans (deliveryAlarm_changes _ _).loadU

theorem queueEmptied_loadU (s : State) : loadU (queueEmptied s) ≤ loadU s := by
  unfold queueEmptied
  refine (testHeldMove_loadU _).trans ?_
  split
  next h =>
    refine completeVisit_loadU ?_
    cases hv : s.seq.visit with
    | none => rw [State.visitState, hv] at h; cases h
    | some v =>
      rw [State.visitState, hv, Option.map_some, Option.some.injEq] at h
      simp only [State.visitPours, hv, h]
      rfl
  · exact le_rfl

theorem deliver_loadU (g : Segment) (rest : List Segment) (s : State) : loadU (deliver g rest s) ≤ loadU s := by
  have hcredit : loadU (creditDelivery g (coarseLeft g rest { s with flight := { s.flight with segments := rest } }))
      = loadU s := by
    refine (creditDelivery_loadU _ _).trans ?_
    unfold coarseLeft
    split
    · exact (setCond_changes _ _ _).loadU
    · rfl
  unfold deliver
  simp only
  split
  · exact (queueEmptied_loadU _).trans hcredit.le
  · exact hcredit.le

theorem deliverDue_loadU (gs : List Segment) (s : State) : loadU (deliverDue gs s) ≤ loadU s := by
  induction gs generalizing s with
  | nil => exact le_rfl
  | cons g rest ih =>
    unfold deliverDue
    split
    · exact (ih _).trans (deliver_loadU g rest s)
    · exact le_rfl

theorem deliverAndCheck_loadU (b : Bool) (s : State) : loadU (deliverAndCheck b s) ≤ loadU s := by
  unfold deliverAndCheck
  simp only
  split
  · exact (checkProjections_loadU _).trans (deliverDue_loadU _ s)
  · exact deliverDue_loadU _ s

/-- With less than six frames in the port U queue, a notice finds room beside all that the event has put there. -/
theorem room_of_loadU {s t : State} (h : loadU t ≤ loadU s) (hs : s.line.u.txQueue.length < 6) :
    (t.line.port .U).room = true := by
  have hheld := Bool.toNat_le s.place.held.isSome
  have hpours := Bool.toNat_le s.visitPours
  rw [loadU, loadU] at h
  refine decide_eq_true ?_
  change t.line.u.txQueue.length < 8
  omega

end Sys2Proof.Machine
end

section
/-! ## BELT samples that are not integrated (R4 to R8, R15, R16, R22) -/

set_option Elab.async false

namespace Sys2Proof.Machine

/-! ### The sample becomes the previous one (R4, R17) -/

/-- The state once the sample has become the previous one and the silence timer has been restarted. -/
def settled (pos : BitVec 16) (q : Byte) (s : State) : State :=
  restartSilence { s with meter := { s.meter with prev := some (pos, q) } }

theorem takeBelt_first {s : State} {sc : ScaleTable} (hsc : s.meter.table = some sc) (hprev : s.meter.prev = none)
    (q : Byte) (load : Int) (pos : BitVec 16) (ok : Bool) :
    takeBelt q load pos ok s = settled pos q (firstSample ok s) := by
  simp only [takeBelt, hsc, hprev]
  rfl

theorem takeBelt_next {s : State} {sc : ScaleTable} {p : BitVec 16} {q' : Byte} (hsc : s.meter.table = some sc)
    (hprev : s.meter.prev = some (p, q')) (q : Byte) (load : Int) (pos : BitVec 16) (ok : Bool) :
    takeBelt q load pos ok s = settled pos q (beltTravel sc load (pos - p).toNat (q != q' + 1) ok s) := by
  simp only [takeBelt, hsc, hprev]
  rfl

theorem treatBelt_taken {f : Frame} {s : State} {load : Int} {pos : BitVec 16} {ok : Bool}
    (hp : parseSample f.payload = some (.belt load pos ok)) (hs : s.station .scale = some f.src) :
    treatBelt f s = forward .D f (takeBelt f.seq load pos ok s) := by
  simp only [treatBelt, hp, (fromRole_iff s .scale f).2 hs, if_true]

/-- What the settling of a sample leaves: all but the previous sample and the silence timer. -/
theorem settled_spec {s : State} {sc : ScaleTable} (hr : s.ready = true) (hsc : s.meter.table = some sc)
    (pos : BitVec 16) (q : Byte) :
    settled pos q s
      = { s with meter := { s.meter with prev := some (pos, q), silence := some (s.now + sc.scaleSilence) } } := by
  unfold settled restartSilence
  split
  next h => cases h.symm.trans hsc
  next sc' h =>
    obtain rfl : sc' = sc := Option.some.inj (h.symm.trans hsc)
    exact if_pos hr

theorem settled_changes (pos : BitVec 16) (q : Byte) (s : State) :
    OnlyChanges [.prev, .silence] s (settled pos q s) := by
  refine OnlyChanges.trans (t := { s with meter := { s.meter with prev := some (pos, q) } }) ?_
    (restartSilence_changes _).mono
  intro b hb
  cases b <;> simp_all [Same]

/-! ### METER FAULT (R15) -/

/-- The end of a ZERO operation reads the state before it through a few fields alone. -/
theorem ZeroEnds.congr {z : ZeroOp} {o : ZeroOutcome} {s s' t : State} (h : ZeroEnds z o s' t)
    (ho : s'.meter.offset = s.meter.offset) (hd : s'.meter.drift = s.meter.drift) (hb : s'.bills = s.bills)
    (hq : s'.seq = s.seq) (hh : s'.handler = s.handler) (hl : s'.line = s.line)
    (hk : s'.ladder.sources[srcBillMark] = s.ladder.sources[srcBillMark]) : ZeroEnds z o s t := by
  unfold ZeroEnds MarkTested Offered zeroDone State.visitPours at *
  rw [ho, hd, hb, hq, hh, hl, hk] at h
  exact h

/-- METER FAULT set in a state that differs from `s` in a few fields it does not read. -/
theorem FaultSet.congr {s s' t : State} (h : FaultSet s' t) (hz : s'.meter.zero = s.meter.zero)
    (ho : s'.meter.offset = s.meter.offset) (hd : s'.meter.drift = s.meter.drift) (hf : s'.meter.fault = s.meter.fault)
    (he : s'.meter.belt = s.meter.belt) (hb : s'.bills = s.bills) (hq : s'.seq = s.seq) (hh : s'.handler = s.handler)
    (hl : s'.line = s.line) (hg : s'.gate = s.gate) (hn : s'.now = s.now) (hst : s'.stations = s.stations)
    (hfl : s'.flight = s.flight) (hs : s'.ship = s.ship)
    (hsources : ∀ j ∈ faultSources, s'.ladder.sources[j] = s.ladder.sources[j]) : FaultSet s t := by
  obtain ⟨hset, hrun, hzero, hsource, hends, htrigger, hkept⟩ := h
  have hmark := hsources srcBillMark (by decide)
  refine ⟨hset, hrun, hzero, ?_, fun z hz' => ?_, fun hclear => ?_, fun hstood => ?_⟩
  · rw [hsource, hsources srcMeterFault (by decide)]
  · exact (hends z (hz.trans hz')).congr ho hd hb hq hh hl hmark
  · exact (htrigger (hf.trans hclear)).congr hq hg (by rw [hl]) (by rw [hl]) hn (by rw [hh]) hst hfl hs he
      (hsources _ (by decide)) fun hnone => ⟨hz.trans hnone, hb, hmark⟩
  · rw [hkept (hf.trans hstood), hq]

/-- METER FAULT stands when the sample settles. -/
theorem FaultSet.settled {s t : State} {sc : ScaleTable} (h : FaultSet s t) (hr : t.ready = true)
    (hsc : t.meter.table = some sc) (pos : BitVec 16) (q : Byte) : FaultSet s (settled pos q t) := by
  rw [settled_spec hr hsc]
  obtain ⟨hset, hrun, hzero, hsource, hends, htrigger, hkept⟩ := h
  exact ⟨hset, hrun, hzero, hsource, hends, fun hclear => (htrigger hclear).leaves (xs := []) .ladder rfl rfl rfl rfl rfl,
    hkept⟩

/-! ### First and reverse samples (R4, R5) -/

/-- The state in which a first or reverse sample is judged by its head status. -/
def judgedState (s : State) : State := if s.meter.prev.isSome then reverseSample s else setCond srcBeltReverse false s

theorem takeBelt_still {s : State} {sc : ScaleTable} (hsc : s.meter.table = some sc) {pos : BitVec 16}
    (h : s.meter.prev = none ∨ ∃ p q, s.meter.prev = some (p, q) ∧ 32768 ≤ (pos - p).toNat) (q : Byte) (load : Int)
    (ok : Bool) :
    takeBelt q load pos ok s = settled pos q (if ok then judgedState s else setMeterFault (judgedState s)) := by
  rcases h with h | ⟨p, q', h, hrev⟩
  · have hj : judgedState s = setCond srcBeltReverse false s := by simp [judgedState, h]
    rw [takeBelt_first hsc h, firstSample, hj]
  · have hj : judgedState s = reverseSample s := by simp [judgedState, h]
    rw [takeBelt_next hsc h, beltTravel, if_pos hrev, hj]

theorem judgedState_changes (s : State) : OnlyChanges [.fault, .sources, .conds] s (judgedState s) := by
  unfold judgedState reverseSample
  split
  · refine OnlyChanges.trans (t := { s with meter := { s.meter with clearing := 0 } }) ?_
      ((setCond_changes _ _ _).mono.trans (raise_changes _ _).mono)
    intro b hb
    cases b <;> simp_all [Same]
  · exact (setCond_changes _ _ _).mono

theorem judgedState_leaves (s : State) : LeavesSources [srcBeltReverse] s (judgedState s) := by
  unfold judgedState reverseSample
  split
  · exact .trans .ladder ((setCond_source _ _ _).trans (raise_source _ _))
  · exact setCond_source _ _ s

theorem judgedState_meter (s : State) : (judgedState s).meter
    = { s.meter with clearing := if s.meter.prev.isSome then 0 else s.meter.clearing } := by
  unfold judgedState reverseSample
  split
  · simp
  · simp

theorem judgedState_kept (s : State) : (judgedState s).handler = s.handler ∧ (judgedState s).stations = s.stations
    ∧ (judgedState s).now = s.now ∧ (judgedState s).line = s.line ∧ (judgedState s).flight = s.flight
    ∧ (judgedState s).seq = s.seq ∧ (judgedState s).gate = s.gate ∧ (judgedState s).bills = s.bills
    ∧ (judgedState s).ship = s.ship := by
  unfold judgedState reverseSample
  split <;> simp

theorem judgedState_source (s : State) : (judgedState s).ladder.sources[srcBeltReverse]
    = if s.meter.prev.isSome then ((s.ladder.sources[srcBeltReverse]).withCond true).raised
      else (s.ladder.sources[srcBeltReverse]).withCond false := by
  unfold judgedState reverseSample
  split
  · rw [raise_same, setCond_same]
  · rw [setCond_same]

theorem judgedState_faultSet (s : State) : FaultSet s (setMeterFault (judgedState s)) := by
  obtain ⟨hh, hst, hn, hl, hfl, hq, hg, hb, hs⟩ := judgedState_kept s
  have hm := judgedState_meter s
  exact (setMeterFault_set (judgedState s)).congr (by rw [hm]) (by rw [hm]) (by rw [hm]) (by rw [hm]) (by rw [hm]) hb hq hh hl
    hg hn hst hfl hs fun j hj => judgedState_leaves s j (by revert hj; revert j; decide)

/-! ### The rest of the event -/

theorem leaveLineFault_D_leaves (s : State) : LeavesSources [srcLineFault .D] s (leaveLineFault .D s) :=
  .trans .ladder ((setCond_source _ _ _).trans (.frame (derateCheck_changes _)))

theorem enterLineFault_D_leaves (s : State) :
    LeavesSources [srcLineFault .D, srcCloseoutNotIssued, srcTrimBound, srcBillMark] s (enterLineFault .D s) :=
  .trans .ladder ((setCond_source _ _ _).mono.trans ((raise_source _ _).mono.trans (takeTrigger_source _ _).mono))

/-- The sources that the taking of a frame from port D may raise or end (R175). -/
theorem takeHead_D_leaves (e : RxEntry) (rest : List RxEntry) (row : Instr) (s : State) :
    LeavesSources [srcLineFault .D, srcCloseoutNotIssued, srcTrimBound, srcBillMark] s (takeHead .D e rest row s) := by
  have hup (u : State) :
      LeavesSources [srcLineFault .D, srcCloseoutNotIssued, srcTrimBound, srcBillMark] u (tallyUp .D u) := by
    unfold tallyUp lineFaultTest
    split
    · exact .trans .ladder (enterLineFault_D_leaves _)
    · exact .ladder
  have hdown (u : State) :
      LeavesSources [srcLineFault .D, srcCloseoutNotIssued, srcTrimBound, srcBillMark] u (tallyDown .D u) := by
    unfold tallyDown
    simp only
    split
    · exact .trans .ladder (leaveLineFault_D_leaves _).mono
    · exact .ladder
  unfold takeHead takingStep
  split
  · exact .trans .ladder (hup _)
  · exact .trans .ladder (hup _)
  · exact .trans .ladder (hdown _)

/-- What a BELT sample is taken from, and where it ends: forwarded, and the event closed (R3). -/
theorem takes_belt {s : State} {e : RxEntry} {rest : List RxEntry} {load : Int} {pos : BitVec 16} {ok : Bool}
    {xs : List Block} {post : State → Prop} (h : Heads s .D .beltSample e rest)
    (hp : parseSample e.frame.payload = some (.belt load pos ok)) (hs : s.station .scale = some e.frame.src)
    (hc : OnlyChanges xs (takeHead .D e rest .beltSample s)
      (takeBelt e.frame.seq load pos ok (takeHead .D e rest .beltSample s)))
    (hpost : ∀ t, Closes (takeBelt e.frame.seq load pos ok (takeHead .D e rest .beltSample s)) t →
      t.place.held = (takeBelt e.frame.seq load pos ok (takeHead .D e rest .beltSample s)).place.held →
      t.flight = (takeBelt e.frame.seq load pos ok (takeHead .D e rest .beltSample s)).flight →
      Offered .U e.frame (takeBelt e.frame.seq load pos ok (takeHead .D e rest .beltSample s)) t → post t)
    (hx : Block.send .U :: xs ⊆ closing ++ xs := by decide) :
    Takes s .D .beltSample e rest xs post := by
  obtain ⟨-, hkind, -⟩ := inspect_D_sample h.2 (by simp) (by simp) (by simp)
  have hk := kindSample_ne_order hkind
  have htaken := treatBelt_taken (s := takeHead .D e rest .beltSample s) hp ((takeHead_D_station e rest .beltSample s .scale).trans hs)
  set w := takeBelt e.frame.seq load pos ok (takeHead .D e rest .beltSample s) with hw
  refine takes_of (xs := .send .U :: xs) treatBelt h rfl ?_ (fun b hb => hx hb) ?_
  · rw [htaken]
    exact (hc.mono fun b hb => List.mem_cons_of_mem _ hb).trans ((forward_D_changes _ _ hk).mono (by simp))
  · rw [htaken]
    exact hpost _ (forward_D_end_closes _ _ hk) (forward_D_end_place _ _ hk)
      ((endEvent_fields _).2.2.2.2.2.1.trans ((forward_D_changes _ w hk).same .flight)) (forward_D_offered _ _)

end Sys2Proof.Machine

open Sys2Proof Sys2Proof.Machine

/-- Settles O26. -/
theorem beltFirstAndReverseSamples : Obligations.BeltFirstAndReverseSamples := by
  intro s e rest load pos ok sc h hp hs hsc hprev
  obtain ⟨hready, -, -⟩ := inspect_D_sample h.2 (by simp) (by simp) (by simp)
  have hc1 : OnlyChanges _ s (takeHead .D e rest .beltSample s) := takeHead_changes .D e rest .beltSample s
  set s1 := takeHead .D e rest .beltSample s with hs1
  have hready1 : s1.ready = true := (takeHead_D_ready e rest .beltSample s).1.trans hready
  have hmeter1 : s1.meter = s.meter := OnlyChanges.meter_eq hc1
  have hnow1 : s1.now = s.now := hc1.same .clock
  have hsc1 : s1.meter.table = some sc := by rw [hmeter1, hsc]
  set u := if ok then judgedState s1 else setMeterFault (judgedState s1) with hu
  have htaken : takeBelt e.frame.seq load pos ok s1 = settled pos e.frame.seq u :=
    takeBelt_still hsc1 (by rw [hmeter1]; exact hprev) _ _ _
  have hcu : OnlyChanges faultBlocks s1 u := by
    have hj := (judgedState_changes s1).mono (ys := faultBlocks)
    cases ok with
    | true => exact hj
    | false => exact hj.trans (setMeterFault_changes _)
  have hscu : u.meter.table = some sc := Eq.trans (hcu.same .scale) hsc1
  have hreadyu : u.ready = true := by
    rw [State.ready, (hcu.same .part).1]
    exact hready1
  have hnowu : u.now = s.now := Eq.trans (hcu.same .clock) hnow1
  have hsettled := settled_spec hreadyu hscu pos e.frame.seq
  refine takes_belt h hp hs ?_ fun t hclosed _ _ hoffered => ?_
  · rw [← hs1, htaken]
    exact (hcu.mono fun b hb => List.mem_cons_of_mem _ (List.mem_cons_of_mem _ hb)).trans
      (settled_changes pos e.frame.seq u).mono
  · rw [← hs1, htaken, hsettled] at hclosed
    obtain ⟨hseq, -, -, hmeter, -, -, -, -, -, hsources, -⟩ := id hclosed
    have hjmeter := judgedState_meter s1
    have hsettledMeter : t.meter = { u.meter with prev := some (pos, e.frame.seq), silence := some (u.now + sc.scaleSilence) } :=
      hmeter
    rw [hmeter1] at hjmeter
    have hreverse : u.ladder.sources[srcBeltReverse] = (judgedState s1).ladder.sources[srcBeltReverse] := by
      rw [hu]
      cases ok with
      | true => rfl
      | false => exact setMeterFault_leaves _ srcBeltReverse (by decide)
    have hsourceT (j : SourceNo) : t.ladder.sources[j] = u.ladder.sources[j] := by rw [hsources]
    have hsourceS : s1.ladder.sources[srcBeltReverse] = s.ladder.sources[srcBeltReverse] :=
      takeHead_D_leaves e rest .beltSample s _ (by decide)
    have hsourceF : s1.ladder.sources[srcMeterFault] = s.ladder.sources[srcMeterFault] :=
      takeHead_D_leaves e rest .beltSample s _ (by decide)
    refine ⟨by rw [hsettledMeter], by rw [hsettledMeter, hnowu], ?_, ?_, ?_, fun hok => ?_, fun hok => ?_, hoffered⟩
    · rw [hsettledMeter, hu]
      cases ok with
      | true => rw [if_pos rfl, hjmeter, Bool.not_true, Bool.or_false]
      | false =>
        rw [if_neg (by simp), Bool.not_false, Bool.or_true]
        exact (judgedState_faultSet s1).1
    · rw [hsettledMeter, hu]
      cases ok with
      | true =>
        rw [if_pos rfl, hjmeter]
        cases s.meter.prev <;> simp
      | false =>
        rw [if_neg (by simp), if_neg (by simp)]
        exact (judgedState_faultSet s1).2.1
    · simp only
      rw [hsourceT, hreverse, judgedState_source, hmeter1, hsourceS]
    · have hset : FaultSet s1 u := by
        rw [hu, hok]
        exact judgedState_faultSet s1
      exact (hset.settled hreadyu hscu pos e.frame.seq).closes (hsettled ▸ hclosed)
    · subst hok
      obtain ⟨-, -, -, -, -, hq, -⟩ := judgedState_kept s1
      refine ⟨by rw [hsettledMeter, hu, if_pos rfl, hjmeter], hseq ▸ congrArg Sequencer.visit hq, ?_⟩
      rw [hsourceT, ← hsourceF]
      exact judgedState_leaves s1 srcMeterFault (by decide)

end

section
/-! ## Position-lost and faulted BELT samples (R6, R8, R13, R15, R22, R23) -/

set_option Elab.async false

namespace Sys2Proof.Machine

theorem deliverDue_none {gs : List Segment} {s : State} (h : ∀ g ∈ gs, s.meter.belt < g.arrival) :
    deliverDue gs s = s := by
  cases gs with
  | nil => rfl
  | cons g rest =>
    rw [deliverDue, if_neg]
    exact Nat.not_le.2 (h g (by simp))

theorem headDue_none {s : State} (h : ∀ g ∈ s.flight.segments, s.meter.belt < g.arrival) : headDue s = false := by
  unfold headDue
  split
  · rfl
  next g rest hs => exact decide_eq_false (Nat.not_le.2 (h g (by simp [hs])))

/-- With no segment due there is no delivery, and no check unless an increment was handed over (R13, R31). -/
theorem deliverAndCheck_none {s : State} (handed : Bool) (h : ∀ g ∈ s.flight.segments, s.meter.belt < g.arrival) :
    deliverAndCheck handed s = if handed then checkProjections s else s := by
  rw [deliverAndCheck, deliverDue_none h, headDue_none h, Bool.or_false]

/-- The belt advanced by a sample that goes forward, before anything is delivered (R4, R14). -/
def advanced (t : Nat) (s : State) : State := advanceBelt t (setCond srcBeltReverse false s)

theorem advanced_kept (t : Nat) (s : State) : (advanced t s).handler = s.handler ∧ (advanced t s).stations = s.stations
    ∧ (advanced t s).now = s.now ∧ (advanced t s).line = s.line ∧ (advanced t s).flight = s.flight
    ∧ (advanced t s).place = s.place ∧ (advanced t s).seq = s.seq ∧ (advanced t s).gate = s.gate
    ∧ (advanced t s).bills = s.bills ∧ (advanced t s).ship = s.ship
    ∧ (advanced t s).meter = { s.meter with belt := addBelt s.meter.belt t } := by
  simp [advanced, advanceBelt]

theorem advanced_leaves (t : Nat) (s : State) : LeavesSources [srcBeltReverse] s (advanced t s) :=
  (setCond_source _ _ s).trans .ladder

theorem advanced_changes (t : Nat) (s : State) : OnlyChanges [.belt, .sources, .conds] s (advanced t s) :=
  (setCond_changes _ _ s).mono.trans (advanceBelt_changes t _).mono

theorem beltTravel_lost {sc : ScaleTable} {t : Nat} {ok : Bool} (ht : t < 32768) (h : sc.gapLimit < t ∨ ok = false)
    (load : Int) (gap : Bool) (s : State) :
    beltTravel sc load t gap ok s = setMeterFault (deliverAndCheck false (advanced t s)) := by
  rw [beltTravel, if_neg (Nat.not_le.2 ht)]
  refine if_neg ?_
  rintro ⟨hle, hok⟩
  rcases h with h | h
  · exact Nat.not_le.2 h hle
  · simp [h] at hok

end Sys2Proof.Machine

open Sys2Proof Sys2Proof.Machine

/-- Settles O27. -/
theorem beltLostOrFaultSample : Obligations.BeltLostOrFaultSample := by
  intro s e rest load pos p q ok sc h hp hs hsc hprev hforward hlost
  obtain ⟨hready, -, -⟩ := inspect_D_sample h.2 (by simp) (by simp) (by simp)
  have hc1 : OnlyChanges _ s (takeHead .D e rest .beltSample s) := takeHead_changes .D e rest .beltSample s
  have hsource1 : (takeHead .D e rest .beltSample s).ladder.sources[srcMeterFault] = s.ladder.sources[srcMeterFault] :=
    takeHead_D_leaves e rest .beltSample s _ (by decide)
  obtain ⟨hready1, hhandler1⟩ := takeHead_D_ready e rest .beltSample s
  set s1 := takeHead .D e rest .beltSample s with hs1
  have hmeter1 : s1.meter = s.meter := OnlyChanges.meter_eq hc1
  have hflight1 : s1.flight = s.flight := hc1.same .flight
  set a := advanced (pos - p).toNat s1 with ha
  obtain ⟨hah, hast, han, hal, hafl, hap, haq, hag, hab, has, ham⟩ := advanced_kept (pos - p).toNat s1
  set x := deliverAndCheck false a with hx
  set u := setMeterFault x with hu
  have htaken : takeBelt e.frame.seq load pos ok s1 = settled pos e.frame.seq u := by
    rw [takeBelt_next (by rw [hmeter1, hsc]) (by rw [hmeter1, hprev]), beltTravel_lost hforward hlost]
  have hcx : OnlyChanges arrivalBlocks a x := deliverAndCheck_changes false a
  have hcu : OnlyChanges faultBlocks x u := setMeterFault_changes x
  have hc : OnlyChanges (.belt :: .fault :: .zero :: arrivalBlocks) s1 u :=
    ((advanced_changes _ s1).mono).trans ((hcx.mono).trans hcu.mono)
  have hscu : u.meter.table = some sc := Eq.trans (hc.same .scale) (by rw [hmeter1, hsc])
  have hreadyu : u.ready = true := by
    rw [State.ready, (hc.same .part).1]
    exact hready1.trans hready
  have hnowu : u.now = s.now := Eq.trans (hc.same .clock) (hc1.same .clock)
  have hsettled := settled_spec hreadyu hscu pos e.frame.seq
  have hset : FaultSet x u := setMeterFault_set x
  refine takes_belt h hp hs ?_ fun t hclosed _ _ hoffered => ?_
  · rw [← hs1, htaken]
    exact (hc.mono fun b hb => List.mem_cons_of_mem _ (List.mem_cons_of_mem _ hb)).trans
      (settled_changes pos e.frame.seq u).mono
  · rw [← hs1, htaken] at hclosed
    have hends := (hset.settled hreadyu hscu pos e.frame.seq).closes hclosed
    rw [hsettled] at hclosed
    obtain ⟨hfault, hclearing, hzero, hsource, hzeroEnds, -, -⟩ := id hends
    have hmeter : t.meter = { u.meter with prev := some (pos, e.frame.seq), silence := some (u.now + sc.scaleSilence) } :=
      hclosed.2.2.2.1
    have hmeterx : x.meter = { s.meter with belt := addBelt s.meter.belt (pos - p).toNat } := by
      rw [OnlyChanges.meter_eq hcx, ham, hmeter1]
    refine ⟨?_, hfault, hclearing, hzero, by rw [hmeter], by rw [hmeter, hnowu], ?_, ⟨fun hnone => ?_, fun z hz => ?_⟩,
      hoffered⟩
    · rw [hmeter]
      exact Eq.trans (hcu.same .belt) (by rw [hmeterx])
    · rw [hsource, deliverAndCheck_leaves false a _ (by decide), advanced_leaves _ s1 _ (by decide), hsource1]
    · have hdue : ∀ g ∈ a.flight.segments, a.meter.belt < g.arrival := by
        rw [hafl, hflight1, ham, hmeter1]
        exact hnone
      have hxa : x = a := by rw [hx, deliverAndCheck_none false hdue, if_neg (by simp)]
      rw [hxa] at hends
      exact hends.congr (by rw [ham]) (by rw [ham]) (by rw [ham]) (by rw [ham]) (by rw [ham, hmeter1]) hab haq hah hal hag
        han hast hafl has fun j hj => advanced_leaves _ s1 j (by revert hj; revert j; decide)
    · obtain ⟨-, hoffset, hdrift, hrecords, -, hdone⟩ := hzeroEnds z (by rw [hmeterx]; exact hz)
      rw [hmeterx] at hoffset hdrift hrecords
      refine ⟨hoffset, hdrift, x.bills.nextSeq, hrecords.subset (by simp), fun hroom => ?_⟩
      have hloadx : loadU x ≤ loadU s1 :=
        (deliverAndCheck_loadU false a).trans (loadU_eq (by rw [hal]) (by rw [hap]) (by rw [haq])).le
      have hhandlerx : x.handler = s.handler := by rw [(hcx.handler), hah, hhandler1]
      have hnotice : zeroDone x .faulted x.bills.nextSeq = zeroDone s .faulted x.bills.nextSeq := by
        rw [zeroDone, zeroDone, hhandlerx]
      rw [← hnotice]
      exact hdone (room_of_loadU hloadx hroom)

end

section
/-! ## The integrated sample: what reaches the Flight Queue (R9 to R13, R27 to R30), and what a sample leaves after its
deliveries (R13, R16, R17, R20 to R23) -/

set_option Elab.async false

namespace Sys2Proof.Machine

/-! ### A trigger, read through the fields that it names -/

/-- `Triggered` reads the state before it through a few fields; the completion of a visit is carried over by itself. -/
theorem Triggered.before {v : Visit} {r : EndReason} {s s' t : State} (h : Triggered v r s' t)
    (hg : s'.gate = s.gate) (hd : s'.line.d.lineFault = s.line.d.lineFault) (hi : s'.line.injSeq = s.line.injSeq)
    (hn : s'.now = s.now) (ho : s'.handler = s.handler) (hst : s'.stations = s.stations)
    (hf : s'.flight.total = s.flight.total)
    (hc : s'.ladder.sources[srcCloseoutNotIssued] = s.ladder.sources[srcCloseoutNotIssued])
    (hdone : s.flight.total = 0 → s.meter.zero = none →
      s'.meter.zero = none ∧ ∀ w, Completes w s' t → Completes w s t) : Triggered v r s t := by
  obtain ⟨hissued, hadopted, hrefused, hdrains, hcompletes⟩ := h
  rw [hg] at hissued hadopted hrefused
  rw [hd] at hissued hrefused
  rw [hf] at hrefused hdrains hcompletes
  rw [hc] at hrefused
  refine ⟨fun addr hs he hl ha => ?_, hadopted, fun hs hn' => ?_, hdrains, fun hs he hz => ?_⟩
  · obtain ⟨hv, hp, hinj⟩ := hissued addr hs he hl (by rw [State.station, hst]; exact ha)
    refine ⟨hv, hp, ?_⟩
    rw [Injects, ho, hi, hn, hg] at hinj
    exact hinj
  · obtain ⟨he, hl, hsource, hstopped, hcomplete⟩ := hrefused hs hn'
    exact ⟨he, hl, hsource, hstopped, fun hz hnone => (hdone hz hnone).2 _ (hcomplete hz (hdone hz hnone).1)⟩
  · exact (hdone he hz).2 _ (hcompletes hs he (hdone he hz).1)

/-- `Triggered` reads the state after it through a few fields; the completion of a visit is carried over by itself. -/
theorem Triggered.after {v : Visit} {r : EndReason} {s t t' : State} (h : Triggered v r s t)
    (hv : t'.seq.visit = t.seq.visit) (hinj : t'.gate.injFeeder = t.gate.injFeeder)
    (hp : t'.gate.pendingDerate = t.gate.pendingDerate) (hd : t'.line.d = t.line.d)
    (hl : t'.line.injection = t.line.injection) (hi : t'.line.injSeq = t.line.injSeq)
    (hc : t'.ladder.sources[srcCloseoutNotIssued] = t.ladder.sources[srcCloseoutNotIssued])
    (hdone : s.flight.total = 0 → s.meter.zero = none → ∀ w, Completes w s t → Completes w s t') :
    Triggered v r s t' := by
  have he : t'.gate.entry .feeder = t.gate.entry .feeder := hinj
  obtain ⟨hissued, hadopted, hrefused, hdrains, hcompletes⟩ := h
  refine ⟨?_, ?_, fun hs hn => ?_, ?_, fun hs hz hnone => hdone hz hnone _ (hcompletes hs hz hnone)⟩
  · simp only [Injects, hv, hp, he, hi, hd, hl]
    exact hissued
  · rw [hv, hp, hinj]
    exact hadopted
  · obtain ⟨hfree, hqueue, hsource, hstopped, hcomplete⟩ := hrefused hs hn
    rw [hinj, hl, hc, hv]
    exact ⟨hfree, hqueue, hsource, hstopped, fun hz hnone => hdone hz hnone _ (hcomplete hz hnone)⟩
  · rw [hv]
    exact hdrains

/-! ### After the deliveries -/

/-- What the steps of a sample after its deliveries leave, as the visit, the queue, the gate and the record box see it:
the sample that becomes the previous one, METER FAULT where no visit takes it as its trigger, the clearing run, the
ZERO operation, the forwarding and the end of the event. -/
structure Finishes (d t : State) : Prop where
  seq : t.seq = d.seq
  ship : t.ship = d.ship
  flight : t.flight = d.flight
  held : t.place.held = d.place.held
  injFeeder : t.gate.injFeeder = d.gate.injFeeder
  pendingDerate : t.gate.pendingDerate = d.gate.pendingDerate
  portD : t.line.d = d.line.d
  injection : t.line.injection = d.line.injection
  injSeq : t.line.injSeq = d.line.injSeq
  sources : LeavesSources [srcMeterFault, srcZeroDrift, srcBillMark] d t
  unbilled : t.bills.unbilled = d.bills.unbilled
  zero : d.meter.zero = none → t.meter.zero = none ∧ t.bills = d.bills
    ∧ t.ladder.sources[srcBillMark] = d.ladder.sources[srcBillMark]

theorem Finishes.trans {s t u : State} (h : Finishes s t) (k : Finishes t u) : Finishes s u where
  seq := k.seq.trans h.seq
  ship := k.ship.trans h.ship
  flight := k.flight.trans h.flight
  held := k.held.trans h.held
  injFeeder := k.injFeeder.trans h.injFeeder
  pendingDerate := k.pendingDerate.trans h.pendingDerate
  portD := k.portD.trans h.portD
  injection := k.injection.trans h.injection
  injSeq := k.injSeq.trans h.injSeq
  sources := h.sources.trans k.sources
  unbilled := k.unbilled.trans h.unbilled
  zero := fun hz => by
    obtain ⟨hz1, hb1, hk1⟩ := h.zero hz
    obtain ⟨hz2, hb2, hk2⟩ := k.zero hz1
    exact ⟨hz2, hb2.trans hb1, hk2.trans hk1⟩

/-- The blocks that the steps after the deliveries may change. -/
def finishBlocks : List Block :=
  [.prev, .silence, .offset, .drift, .fault, .zero, .sources, .conds, .records, .reserved, .lastMark, .send .U]

theorem OnlyChanges.portD_eq {xs : List Block} {s t : State} (h : OnlyChanges xs s t)
    (hr : Block.recv .D ∉ xs := by decide) (hs : Block.send .D ∉ xs := by decide) : t.line.d = s.line.d := by
  obtain ⟨hrx, hqueue, htally, hfault⟩ := h.same _ hr
  obtain ⟨htx, hsending⟩ := h.same _ hs
  change t.line.port .D = s.line.port .D
  cases hp : t.line.port .D
  simp_all

theorem OnlyChanges.finishes {d t : State} (h : OnlyChanges finishBlocks d t)
    (hsources : LeavesSources [srcMeterFault, srcZeroDrift, srcBillMark] d t)
    (hzero : d.meter.zero = none → t.meter.zero = none ∧ t.bills = d.bills
      ∧ t.ladder.sources[srcBillMark] = d.ladder.sources[srcBillMark]) : Finishes d t where
  seq := OnlyChanges.seq_eq h
  ship := OnlyChanges.ship_eq h
  flight := h.same .flight
  held := h.same .held
  injFeeder := (h.same .entries).1
  pendingDerate := (h.same .rate).2
  portD := h.portD_eq
  injection := (h.same .injection).1
  injSeq := (h.same .injection).2
  sources := hsources
  unbilled := h.same .unbilled
  zero := hzero

theorem settled_leaves (pos : BitVec 16) (q : Byte) (xs : List SourceNo) (s : State) :
    LeavesSources xs s (settled pos q s) :=
  .trans .ladder (restartSilence_leaves xs _)

theorem settled_finishes (pos : BitVec 16) (q : Byte) (s : State) : Finishes s (settled pos q s) :=
  have hc := settled_changes pos q s
  hc.mono.finishes (settled_leaves pos q _ s)
    fun hz => ⟨Eq.trans (hc.same .zero) hz, OnlyChanges.bills_eq hc, settled_leaves pos q [] s _ (by decide)⟩

theorem collectZero_none {s : State} (h : s.meter.zero = none) (sc : ScaleTable) (load : Int) (t : Nat) :
    collectZero sc load t s = s := by rw [collectZero, h]

theorem countClearing_finishes (s : State) : Finishes s (countClearing s) :=
  have hc := countClearing_changes s
  hc.mono.finishes (countClearing_leaves s).mono
    fun hz => ⟨Eq.trans (hc.same .zero) hz, OnlyChanges.bills_eq hc, countClearing_leaves s _ (by decide)⟩

theorem collectZero_finishes (sc : ScaleTable) (load : Int) (t : Nat) (s : State) :
    Finishes s (collectZero sc load t s) :=
  (collectZero_changes sc load t s).mono.finishes (collectZero_leaves sc load t s).mono
    fun hz => by rw [collectZero_none hz]; exact ⟨hz, rfl, rfl⟩

theorem Closes.finishes {d t : State} (h : Closes d t) (hheld : t.place.held = d.place.held)
    (hflight : t.flight = d.flight) : Finishes d t := by
  obtain ⟨hseq, hbills, hship, hmeter, -, hgate, hd, hinjection, hinjSeq, hsources, -⟩ := h
  have hgate' : t.gate.injFeeder = d.gate.injFeeder ∧ t.gate.pendingDerate = d.gate.pendingDerate := by
    rw [hgate]
    exact ⟨rfl, rfl⟩
  exact ⟨hseq, hship, hflight, hheld, hgate'.1, hgate'.2, hd, hinjection, hinjSeq, fun i _ => by rw [hsources],
    by rw [hbills], fun hz => ⟨by rw [hmeter, hz], hbills, by rw [hsources]⟩⟩

theorem Triggered.finishes {v : Visit} {r : EndReason} {s d t : State} (h : Triggered v r s d) (k : Finishes d t)
    (hzero : s.meter.zero = none → d.meter.zero = none) : Triggered v r s t :=
  h.after (by rw [k.seq]) k.injFeeder k.pendingDerate k.portD k.injection k.injSeq (k.sources _ (by decide))
    fun _ hz _ hw => hw.leaves k.seq k.ship (k.zero (hzero hz)).2.1 (k.zero (hzero hz)).2.2

/-! ### The increment and the sample that goes forward -/

/-- The increment of a normal sample (R9 to R11). -/
def increment (sc : ScaleTable) (load : Int) (t : Nat) (s : State) : Nat :=
  acceptedLoad (clampLoad (netLoad (load - s.meter.offset) sc.span) sc.capacity) sc.deadBand * t

/-- A normal sample, weighed and the belt advanced, before the Flight Queue takes its increment (R13, steps 1 and 2). -/
def weighedSample (sc : ScaleTable) (load : Int) (t : Nat) (s : State) : State :=
  advanceBelt t (weigh (increment sc load t s)
    (addDrift (driftMass (clampLoad (netLoad (load - s.meter.offset) sc.span) sc.capacity) sc.deadBand t)
      (setCond srcBeltReverse false s)))

/-- A normal sample when its increment has reached the Flight Queue, before anything is delivered (R13, step 3). -/
def incoming (sc : ScaleTable) (load : Int) (t : Nat) (gap : Bool) (s : State) : State :=
  if 0 < increment sc load t s then
    takeIncrement sc (increment sc load t s) (overloaded (netLoad (load - s.meter.offset) sc.span) sc.capacity) gap
      (weighedSample sc load t s)
  else weighedSample sc load t s

theorem beltTravel_normal {sc : ScaleTable} {t : Nat} (ht : t < 32768) (hgap : t ≤ sc.gapLimit) (load : Int) (gap : Bool)
    (s : State) : beltTravel sc load t gap true s
      = collectZero sc load t (countClearing
          (deliverAndCheck (decide (0 < increment sc load t s)) (incoming sc load t gap s))) := by
  rw [beltTravel, if_neg (Nat.not_le.2 ht)]
  exact if_pos ⟨hgap, rfl⟩

/-- The blocks that a sample may change before it delivers. -/
def incomingBlocks : List Block := [.belt, .drift, .weighed, .unassigned, .flight, .sources, .conds]

theorem weighedSample_changes (sc : ScaleTable) (load : Int) (t : Nat) (s : State) :
    OnlyChanges [.belt, .drift, .weighed, .unassigned, .sources, .conds] s (weighedSample sc load t s) :=
  ((setCond_changes _ _ s).mono.trans (addDrift_changes _ _).mono).trans
    ((weigh_changes _ _).mono.trans (advanceBelt_changes t _).mono)

theorem incoming_changes (sc : ScaleTable) (load : Int) (t : Nat) (gap : Bool) (s : State) :
    OnlyChanges incomingBlocks s (incoming sc load t gap s) := by
  unfold incoming
  split
  · exact (weighedSample_changes sc load t s).mono.trans (takeIncrement_changes _ _ _ _ _).mono
  · exact (weighedSample_changes sc load t s).mono

theorem weighedSample_leaves (sc : ScaleTable) (load : Int) (t : Nat) (s : State) :
    LeavesSources [srcBeltReverse, srcZeroDrift] s (weighedSample sc load t s) :=
  ((setCond_source _ _ s).mono.trans (addDrift_leaves _ _).mono).trans
    (.trans (.frame (weigh_changes _ _)) (.frame (advanceBelt_changes t _)))

theorem incoming_leaves (sc : ScaleTable) (load : Int) (t : Nat) (gap : Bool) (s : State) :
    LeavesSources [srcBeltReverse, srcZeroDrift, srcSegmentCoarse] s (incoming sc load t gap s) := by
  unfold incoming
  split
  · exact (weighedSample_leaves sc load t s).mono.trans (takeIncrement_leaves _ _ _ _ _).mono
  · exact (weighedSample_leaves sc load t s).mono

theorem addDrift_belt (m : Nat) (s : State) : (addDrift m s).meter.belt = s.meter.belt :=
  (addDrift_changes m s).same .belt

theorem weighedSample_belt (sc : ScaleTable) (load : Int) (t : Nat) (s : State) :
    (weighedSample sc load t s).meter.belt = addBelt s.meter.belt t := by
  have hb : Same .belt (setCond srcBeltReverse false s) (weigh (increment sc load t s) (addDrift
      (driftMass (clampLoad (netLoad (load - s.meter.offset) sc.span) sc.capacity) sc.deadBand t)
        (setCond srcBeltReverse false s))) :=
    ((addDrift_changes _ _).mono.trans ((weigh_changes _ _).mono (ys := [.drift, .sources, .conds, .weighed, .unassigned]))).same
      .belt
  rw [weighedSample, advanceBelt]
  exact congrArg (addBelt · t) hb

theorem incoming_belt (sc : ScaleTable) (load : Int) (t : Nat) (gap : Bool) (s : State) :
    (incoming sc load t gap s).meter.belt = addBelt s.meter.belt t := by
  unfold incoming
  split
  · exact Eq.trans ((takeIncrement_changes _ _ _ _ _).same .belt) (weighedSample_belt sc load t s)
  · exact weighedSample_belt sc load t s

/-- What the Flight Queue reads of a weighed sample: the queue, the chute and the ship as they were. -/
theorem weighedSample_kept (sc : ScaleTable) (load : Int) (t : Nat) (s : State) :
    (weighedSample sc load t s).flight = s.flight ∧ transitNow (weighedSample sc load t s) sc = transitNow s sc
      ∧ (weighedSample sc load t s).ship.tag = s.ship.tag := by
  have hc := weighedSample_changes sc load t s
  have haxes : (weighedSample sc load t s).place.axes = s.place.axes := hc.same .axes
  obtain ⟨hstate, hnumber⟩ := hc.same .ship
  exact ⟨hc.same .flight, by rw [transitNow, transitNow, haxes], by rw [ShipAccount.tag, ShipAccount.tag, hstate, hnumber]⟩

end Sys2Proof.Machine

end

section
/-! ## An increment that meets no due segment (R27 to R30, R83, R85) -/

set_option Elab.async false

namespace Sys2Proof.Machine

/-! ### The three paths -/

theorem takeIncrement_empty {sc : ScaleTable} {m : Nat} {o b : Bool} {s : State} (h : s.flight.segments = []) :
    takeIncrement sc m o b s = openSegment sc m o b s := by
  rw [takeIncrement, h]
  rfl

theorem takeIncrement_tail {sc : ScaleTable} {m : Nat} {o b : Bool} {s : State} {gs : List Segment} {g : Segment}
    (h : s.flight.segments = gs ++ [g]) :
    takeIncrement sc m o b s
      = if joinsTail s sc g o b then { s with flight := s.flight.setTail (g.joined m) }
        else if gs.length + 1 < 64 then openSegment sc m o b s else mergeTail g m o b s := by
  rw [takeIncrement, h, List.getLast?_concat, List.length_append, List.length_singleton]

theorem setTail_append {f : Flight} {gs : List Segment} {g : Segment} (h : f.segments = gs ++ [g]) (x : Segment) :
    f.setTail x = { f with segments := gs ++ [x] } := by
  rw [Flight.setTail, h, List.dropLast_concat]

theorem joinsTail_iff (s : State) (sc : ScaleTable) (g : Segment) (o b : Bool) :
    joinsTail s sc g o b = true ↔ s.meter.belt - g.opened < sc.segmentLength ∧ s.meter.belt < g.arrival ∧ g.coarse = false
      ∧ g.overload = o ∧ g.gapBridged = b ∧ transitNow s sc = g.transit ∧ g.shipTag = s.ship.tag := by
  simp [joinsTail, and_assoc]

theorem arrivalNow_empty {s : State} (h : s.flight.segments = []) (sc : ScaleTable) :
    arrivalNow s sc = s.meter.belt + transitNow s sc := by rw [arrivalNow, h]; rfl

theorem arrivalNow_tail {s : State} {gs : List Segment} {g : Segment} (h : s.flight.segments = gs ++ [g])
    (sc : ScaleTable) : arrivalNow s sc = max g.arrival (s.meter.belt + transitNow s sc) := by
  rw [arrivalNow, h, List.getLast?_concat]

theorem mergeTail_flight (g : Segment) (m : Nat) (o b : Bool) (s : State) :
    (mergeTail g m o b s).flight = s.flight.setTail (g.merged m o b) := by simp [mergeTail]

theorem mergeTail_cond (g : Segment) (m : Nat) (o b : Bool) (s : State) :
    (mergeTail g m o b s).ladder.sources[srcSegmentCoarse]
      = ((s.ladder.sources[srcSegmentCoarse]).withCond true).raised := by
  rw [mergeTail, raise_same, setCond_same]

/-- An increment taken while nothing is due leaves nothing due: a segment opens at least one transit ahead. -/
theorem takeIncrement_ahead {sc : ScaleTable} {m : Nat} {o b : Bool} {s : State} (htransit : 1 ≤ transitNow s sc)
    (h : ∀ g ∈ s.flight.segments, s.meter.belt < g.arrival) :
    ∀ g ∈ (takeIncrement sc m o b s).flight.segments, s.meter.belt < g.arrival := by
  rcases List.eq_nil_or_concat s.flight.segments with hnil | ⟨gs, g, htail⟩
  · rw [takeIncrement_empty hnil, openSegment, hnil]
    simp only [List.nil_append, List.mem_singleton, forall_eq, arrivalNow_empty hnil]
    omega
  · rw [List.concat_eq_append] at htail
    have hg : s.meter.belt < g.arrival := h g (by simp [htail])
    have hgs : ∀ x ∈ gs, s.meter.belt < x.arrival := fun x hx => h x (by simp [htail, hx])
    have hopen : ∀ x ∈ (openSegment sc m o b s).flight.segments, s.meter.belt < x.arrival := by
      intro x hx
      rcases List.mem_append.1 hx with hx | hx
      · exact h x hx
      · rw [List.mem_singleton.1 hx]
        simp only [arrivalNow_tail htail]
        omega
    rw [takeIncrement_tail htail]
    split
    · rw [setTail_append htail]
      simpa [or_imp, forall_and] using ⟨hgs, hg⟩
    · split
      · exact hopen
      · rw [mergeTail_flight, setTail_append htail]
        simpa [or_imp, forall_and] using ⟨hgs, hg⟩

theorem takeIncrement_total {sc : ScaleTable} {m : Nat} {o b : Bool} {s : State} :
    (takeIncrement sc m o b s).flight.total = s.flight.total + m := by
  have hopen : (openSegment sc m o b s).flight.total = s.flight.total + m := total_append _ _ _
  rcases List.eq_nil_or_concat s.flight.segments with hnil | ⟨gs, g, htail⟩
  · rw [takeIncrement_empty hnil, hopen]
  · rw [List.concat_eq_append] at htail
    have hset (x : Segment) (hx : x.mass = g.mass + m) : (s.flight.setTail x).total = s.flight.total + m := by
      rw [setTail_append htail, total_append, hx, Flight.total, Flight.total, htail]
      simp [Nat.add_assoc]
    rw [takeIncrement_tail htail]
    split
    · exact hset _ rfl
    · split
      · exact hopen
      · rw [mergeTail_flight]
        exact hset _ rfl

/-! ### The check of the projections -/

theorem triggers_iff (x : VisitState) : x.triggers = true ↔ x = .pouring ∨ x = .paused := by
  cases x <;> simp [VisitState.triggers]

theorem checkProjections_idle {s : State} (h : ∀ v, s.seq.visit = some v → ¬ (v.state = .pouring ∨ v.state = .paused)) :
    checkProjections s = s := by
  unfold checkProjections
  split
  · rfl
  next v hv =>
    rw [if_neg]
    exact fun ht => h v hv ((triggers_iff _).1 ht)

theorem checkProjections_none {s : State} {v : Visit} (hv : s.seq.visit = some v) (h : projection s v = none) :
    checkProjections s = s := by
  simp only [checkProjections, hv, h, ite_self]

theorem checkProjections_met {s : State} {v : Visit} {r : EndReason} (hv : s.seq.visit = some v)
    (hs : v.state = .pouring ∨ v.state = .paused) (h : projection s v = some r) : checkProjections s = takeTrigger r s := by
  simp only [checkProjections, hv, h, if_pos ((triggers_iff _).2 hs)]

/-! ### The gate that a trigger reads -/

theorem OnlyChanges.gate_eq {xs : List Block} {s t : State} (h : OnlyChanges xs s t)
    (hb : ∀ b ∈ [Block.feeder, .limit, .window, .entries, .rate, .permit], b ∉ xs := by decide) : t.gate = s.gate := by
  have hfeeder := h .feeder (hb _ (by decide))
  have hlimit := h .limit (hb _ (by decide))
  have hwindow := h .window (hb _ (by decide))
  have hentries := h .entries (hb _ (by decide))
  have hrate := h .rate (hb _ (by decide))
  have hpermit := h .permit (hb _ (by decide))
  cases hg : t.gate
  cases hg' : s.gate
  simp_all [Same]

end Sys2Proof.Machine

open Sys2Proof Sys2Proof.Machine

/-- Settles O28. -/
theorem incrementTakesOnePath : Obligations.IncrementTakesOnePath := by
  intro s e rest load pos p q sc h hp hs hsc hprev hgap hforward n m E transit overNow gapNow hm hE htransit hdue joins
    opened s1
  have hc1 : OnlyChanges _ s s1 := takeHead_changes .D e rest .beltSample s
  have hmeter1 : s1.meter = s.meter := OnlyChanges.meter_eq hc1
  have hflight1 : s1.flight = s.flight := hc1.same .flight
  have htag1 : s1.ship.tag = s.ship.tag := by
    obtain ⟨hstate, hnumber⟩ := hc1.same .ship
    rw [ShipAccount.tag, ShipAccount.tag, hstate, hnumber]
  have haxes1 : s1.place.axes = s.place.axes := hc1.same .axes
  -- the sample, weighed, and then with its increment in the queue
  set w := weighedSample sc load (pos - p).toNat s1 with hw
  obtain ⟨hwflight, hwtransit, hwtag⟩ := weighedSample_kept sc load (pos - p).toNat s1
  have hwbelt : w.meter.belt = E := by rw [hw, weighedSample_belt, hmeter1, addBelt, if_pos hE]
  have hwsegments : w.flight.segments = s.flight.segments := by rw [hwflight, hflight1]
  have hwnow : transitNow w sc = transit := by rw [hwtransit, transitNow, haxes1]
  have hwtag' : w.ship.tag = s.ship.tag := by rw [hwtag, htag1]
  have hinc : increment sc load (pos - p).toNat s1 = m := by rw [increment, hmeter1]
  set c := takeIncrement sc m overNow gapNow w with hcdef
  have hc : incoming sc load (pos - p).toNat gapNow s1 = c := by
    rw [incoming, hinc, if_pos hm, hmeter1]
    rfl
  have hchanges : OnlyChanges incomingBlocks s1 c := hc ▸ incoming_changes _ _ _ _ _
  have hleaves : LeavesSources _ s1 c := hc ▸ incoming_leaves _ _ _ _ _
  have hcbelt : c.meter.belt = w.meter.belt := (takeIncrement_changes _ _ _ _ _).same .belt
  have hahead : ∀ g ∈ c.flight.segments, c.meter.belt < g.arrival := by
    rw [hcbelt]
    refine takeIncrement_ahead (by rw [hwnow]; omega) ?_
    rw [hwsegments, hwbelt]
    exact hdue
  have htaken : takeBelt e.frame.seq load pos true s1 = settled pos e.frame.seq
      (collectZero sc load (pos - p).toNat (countClearing (checkProjections c))) := by
    rw [takeBelt_next (by rw [hmeter1, hsc]) (by rw [hmeter1, hprev]), beltTravel_normal hforward hgap, hinc, hc,
      deliverAndCheck_none _ hahead, if_pos (decide_eq_true hm)]
  refine takes_belt h hp hs (takeBelt_changes _ _ _ _ _) fun t hclosed hheld hflight _ => ?_
  have hfin : Finishes (checkProjections c) t := by
    rw [← show s1 = takeHead .D e rest .beltSample s from rfl, htaken] at hclosed hheld hflight
    exact (((countClearing_finishes _).trans (collectZero_finishes sc load _ _)).trans
      (settled_finishes pos e.frame.seq _)).trans (hclosed.finishes hheld hflight)
  have hflightT : t.flight = c.flight := hfin.flight.trans ((checkProjections_changes c).same .flight)
  have hcvisit : c.seq = s1.seq := OnlyChanges.seq_eq hchanges
  have hfly : 0 < t.flight.total := by
    rw [hflightT, takeIncrement_total]
    omega
  have hnumber : w.flight.nextNumber = s.flight.nextNumber := by rw [hwflight, hflight1]
  have hjoins (gs : List Segment) (g : Segment) (htail : s.flight.segments = gs ++ [g]) :
      joinsTail w sc g overNow gapNow = true ↔ joins g := by
    rw [joinsTail_iff, hwbelt, hwnow, hwtag']
    have hg : E < g.arrival := hdue g (by simp [htail])
    exact ⟨fun ⟨hlength, _, hrest⟩ => ⟨hlength, hrest⟩, fun ⟨hlength, hrest⟩ => ⟨hlength, hg, hrest⟩⟩
  refine ⟨?_, fun hnil => ?_, fun gs g htail => ⟨fun hj => ?_, fun hj hroom => ?_, fun hj hfull => ?_⟩⟩
  · intro v hv u checked
    have hcv : c.seq.visit = some v := by rw [hcvisit, hv]
    have hproj : projection u v = projection c v :=
      (projection_accounts (s := u) (t := c) (by rw [hcvisit]) (by rw [hcvisit]) (hchanges.same .accounts)
        (by rw [← hflightT]) v).symm
    rw [hproj]
    refine ⟨fun hnone => ?_, fun r hchecked hr => ?_⟩
    · have hidle : checkProjections c = c := by
        rcases hnone with hnone | hnone
        · exact checkProjections_idle fun v' hv' => by
            obtain rfl : v' = v := Option.some.inj (hv'.symm.trans hcv)
            exact hnone
        · exact checkProjections_none hcv hnone
      rw [hfin.seq, hidle, hcv]
    · have hmet : checkProjections c = takeTrigger r c := checkProjections_met hcv hchecked hr
      have htrig : Triggered v r c (checkProjections c) := hmet ▸ ((takeTrigger_reaches r c).2 v hcv).1
      have hbefore : Triggered v r u (checkProjections c) :=
        htrig.before hchanges.gate_eq (congrArg Port.lineFault hchanges.portD_eq) (hchanges.same .injection).2
          (hchanges.same .clock) hchanges.handler (hchanges.same .stations) (by rw [← hflightT])
          (hleaves _ (by decide)) fun hz => absurd hz hfly.ne'
      refine hbefore.after (by rw [hfin.seq]) hfin.injFeeder hfin.pendingDerate hfin.portD hfin.injection hfin.injSeq
        (hfin.sources _ (by decide)) fun hz => absurd hz hfly.ne'
  · have hw0 := hwsegments.trans hnil
    rw [hflightT, hcdef, takeIncrement_empty hw0, Machine.openSegment, hw0, arrivalNow_empty hw0, hwbelt, hwnow, hwtag', hnumber]
    rfl
  · have hw0 := hwsegments.trans htail
    rw [hflightT, hcdef, takeIncrement_tail hw0, if_pos ((hjoins gs g htail).2 hj), setTail_append hw0, hwflight, hflight1]
    rfl
  · have hw0 := hwsegments.trans htail
    rw [hflightT, hcdef, takeIncrement_tail hw0, if_neg (fun hj' => hj ((hjoins gs g htail).1 hj')), if_pos hroom,
      Machine.openSegment, hw0, arrivalNow_tail hw0, hwbelt, hwnow, hwtag', hnumber, List.append_assoc]
    rfl
  · have hw0 := hwsegments.trans htail
    have hmerged : c = mergeTail g m overNow gapNow w := by
      rw [hcdef, takeIncrement_tail hw0, if_neg (fun hj' => hj ((hjoins gs g htail).1 hj')), if_neg (by omega)]
    have hcoarse : t.ladder.sources[srcSegmentCoarse] = c.ladder.sources[srcSegmentCoarse] :=
      (hfin.sources _ (by decide)).trans (checkProjections_leaves c _ (by decide))
    refine ⟨?_, ?_⟩
    · rw [hflightT, hmerged, mergeTail_flight, setTail_append hw0, hwflight, hflight1]
      rfl
    · rw [hcoarse, hmerged, mergeTail_cond, raised_cond, withCond_cond]

end

section
/-! ## Deliveries, one after the other (R30 to R35, R80, R150) -/

set_option Elab.async false

namespace Sys2Proof.Machine

/-! ### One delivery -/

/-- A delivery before the queue is found empty: the segment is off the queue, its mass credited and reported. -/
def credited (g : Segment) (rest : List Segment) (s : State) : State :=
  creditDelivery g (coarseLeft g rest { s with flight := { s.flight with segments := rest } })

theorem credited_flight (g : Segment) (rest : List Segment) (s : State) :
    (credited g rest s).flight = { s.flight with segments := rest } :=
  ((coarseLeft_changes g rest _).same .flight).trans ((creditDelivery_changes g _).same .flight)

theorem deliver_eq (g : Segment) (rest : List Segment) (s : State) :
    deliver g rest s
      = if (rest.map (·.mass)).sum = 0 then queueEmptied (credited g rest s) else credited g rest s := by
  have htotal : (credited g rest s).flight.total = (rest.map (·.mass)).sum := by rw [credited_flight, Flight.total]
  rw [← htotal]
  rfl

theorem credited_changes (g : Segment) (rest : List Segment) (s : State) :
    OnlyChanges [.flight, .accounts, .sources, .conds, .visit, .unbilled] s (credited g rest s) :=
  ((setFlight_changes _ s).mono.trans (coarseLeft_changes _ _ _).mono).trans (creditDelivery_changes _ _).mono

/-- A block that a delivery does not change before the queue is found empty, nor the queue found empty, a delivery keeps. -/
theorem deliver_of_credited {α : Type} {Q : State → α} {x : α} (g : Segment) (rest : List Segment) (s : State)
    (hempty : ∀ u, Q (queueEmptied u) = Q u) (h : Q (credited g rest s) = x) : Q (deliver g rest s) = x := by
  rw [deliver_eq]
  split
  · rw [hempty, h]
  · exact h

/-! ### What one delivery does -/

/-- The accounts with a segment's mass credited to `pour`, or to none (R32, R33). -/
def credit (pour : Account) (v : Vector Nat 13) (g : Segment) : Vector Nat 13 :=
  if g.shipTag = 0 then v else v.set pour.val (addMass v[pour] g.mass)

/-- A visit with a segment's delivery added to it, or not (R80). -/
def added (pour : Account) (v : Visit) (g : Segment) : Visit :=
  if g.shipTag = 0 then v
  else { v with poured := v.poured + g.mass, changed := v.changed.set pour.val true,
                flags := { v.flags with coarse := v.flags.coarse || g.coarse
                                        gapBridged := v.flags.gapBridged || g.gapBridged
                                        overload := v.flags.overload || g.overload } }

/-- The open visit pours elsewhere than at the pour point (R33). -/
def astray (pour : Account) (o : Option Visit) : Bool := o.any fun v => holdAccount v.hold != pour

theorem added_kept (pour : Account) (v : Visit) (g : Segment) :
    (added pour v g).hold = v.hold ∧ (added pour v g).state = v.state := by
  unfold added
  split <;> exact ⟨rfl, rfl⟩

/-- The state with the segment off the queue, about to be credited. -/
theorem coarseLeft_kept (g : Segment) (rest : List Segment) (s : State) :
    (coarseLeft g rest { s with flight := { s.flight with segments := rest } }).place = s.place
      ∧ (coarseLeft g rest { s with flight := { s.flight with segments := rest } }).ship = s.ship
      ∧ (coarseLeft g rest { s with flight := { s.flight with segments := rest } }).seq = s.seq
      ∧ (coarseLeft g rest { s with flight := { s.flight with segments := rest } }).bills = s.bills := by
  unfold coarseLeft
  split <;> simp

theorem creditDelivery_stray {g : Segment} (h : g.shipTag = 0) (s : State) :
    creditDelivery g s = raise srcStrayMass s := if_pos h

/-- The state with the mass of a ship's segment in the account of the pour point. -/
def accounted (g : Segment) (s : State) : State :=
  { s with ship := { s.ship with
      accounts := upd s.ship.accounts s.place.pourPoint (addMass s.ship.accounts[s.place.pourPoint] g.mass) } }

theorem creditDelivery_ship {g : Segment} (h : g.shipTag ≠ 0) (s : State) : creditDelivery g s
    = reportDelivery g s.place.pourPoint (deliveryAlarm s.place.pourPoint (accounted g s)) := if_neg h

/-- The alarms of a delivery reach the source table alone. -/
theorem deliveryAlarm_kept (a : Account) (s : State) : (deliveryAlarm a s).ship = s.ship
    ∧ (deliveryAlarm a s).seq = s.seq ∧ (deliveryAlarm a s).bills = s.bills := by
  unfold deliveryAlarm
  split
  · simp
  · split
    · split <;> simp
    · simp

theorem reportDelivery_visit (g : Segment) (a : Account) {s : State} {v : Visit} (hv : s.seq.visit = some v) :
    reportDelivery g a s = setVisit (some (v.delivered g a)) s := by simp only [reportDelivery, hv]

theorem reportDelivery_noVisit (g : Segment) (a : Account) {s : State} (hv : s.seq.visit = none) :
    reportDelivery g a s = { s with bills := { s.bills with unbilled := true } } := by simp only [reportDelivery, hv]

theorem reportDelivery_kept (g : Segment) (a : Account) (s : State) : (reportDelivery g a s).ship = s.ship
    ∧ (reportDelivery g a s).ladder = s.ladder := by
  unfold reportDelivery
  split <;> exact ⟨rfl, rfl⟩

theorem creditDelivery_accounts (g : Segment) (s : State) :
    (creditDelivery g s).ship.accounts = credit s.place.pourPoint s.ship.accounts g := by
  by_cases h : g.shipTag = 0
  · rw [creditDelivery_stray h, credit, if_pos h]
    simp
  · rw [creditDelivery_ship h, credit, if_neg h, (reportDelivery_kept _ _ _).1, (deliveryAlarm_kept _ _).1]
    rfl

theorem creditDelivery_visit (g : Segment) {s : State} {v : Visit} (hv : s.seq.visit = some v) :
    (creditDelivery g s).seq = { s.seq with visit := some (added s.place.pourPoint v g) }
      ∧ (creditDelivery g s).bills = s.bills := by
  by_cases h : g.shipTag = 0
  · rw [creditDelivery_stray h, added, if_pos h, ← hv]
    simp
  · obtain ⟨-, hseq, hbills⟩ := deliveryAlarm_kept s.place.pourPoint (accounted g s)
    have hv' : (deliveryAlarm s.place.pourPoint (accounted g s)).seq.visit = some v := by rw [hseq]; exact hv
    rw [creditDelivery_ship h, added, if_neg h, reportDelivery_visit _ _ hv']
    refine ⟨?_, hbills⟩
    simp only [setVisit, hseq]
    rfl

theorem creditDelivery_noVisit (g : Segment) {s : State} (hv : s.seq.visit = none) :
    (creditDelivery g s).seq = s.seq
      ∧ (creditDelivery g s).bills.unbilled = (s.bills.unbilled || g.shipTag != 0) := by
  by_cases h : g.shipTag = 0
  · rw [creditDelivery_stray h]
    simp [h]
  · obtain ⟨-, hseq, hbills⟩ := deliveryAlarm_kept s.place.pourPoint (accounted g s)
    have hv' : (deliveryAlarm s.place.pourPoint (accounted g s)).seq.visit = none := by rw [hseq]; exact hv
    rw [creditDelivery_ship h, reportDelivery_noVisit _ _ hv']
    refine ⟨hseq, ?_⟩
    simp [h]

/-- A source raised when a test holds. -/
def Source.raisedIf (b : Bool) (x : Source) : Source := if b then x.raised else x

theorem deliveryAlarm_sources (a : Account) (s : State) :
    (deliveryAlarm a s).ladder.sources[srcUnplacedPour]
        = (s.ladder.sources[srcUnplacedPour]).raisedIf (a == unplaced)
      ∧ (deliveryAlarm a s).ladder.sources[srcOffPlan]
        = (s.ladder.sources[srcOffPlan]).raisedIf (a != unplaced && astray a s.seq.visit) := by
  have hother {i j : SourceNo} (h : j ∉ [i]) (u : State) : (raise i u).ladder.sources[j] = u.ladder.sources[j] :=
    raise_source i u j h
  unfold deliveryAlarm
  by_cases ha : a = unplaced
  · rw [if_pos ha, raise_same, hother (by decide)]
    simp [Source.raisedIf, ha]
  · rw [if_neg ha]
    cases hv : s.seq.visit with
    | none => simp [Source.raisedIf, ha, astray]
    | some v =>
      simp only
      split
      next hh => simp [Source.raisedIf, ha, astray, hh]
      next hh =>
        rw [raise_same, hother (by decide)]
        simp [Source.raisedIf, ha, astray, hh]

theorem creditDelivery_sources (g : Segment) (s : State) :
    (creditDelivery g s).ladder.sources[srcStrayMass]
        = (s.ladder.sources[srcStrayMass]).raisedIf (g.shipTag == 0)
      ∧ (creditDelivery g s).ladder.sources[srcUnplacedPour]
        = (s.ladder.sources[srcUnplacedPour]).raisedIf (g.shipTag != 0 && s.place.pourPoint == unplaced)
      ∧ (creditDelivery g s).ladder.sources[srcOffPlan]
        = (s.ladder.sources[srcOffPlan]).raisedIf
            (g.shipTag != 0 && s.place.pourPoint != unplaced && astray s.place.pourPoint s.seq.visit) := by
  by_cases h : g.shipTag = 0
  · have hother {j : SourceNo} (hj : j ∉ [srcStrayMass]) :
        (raise srcStrayMass s).ladder.sources[j] = s.ladder.sources[j] := raise_source _ s j hj
    rw [creditDelivery_stray h, raise_same, hother (by decide), hother (by decide)]
    simp [Source.raisedIf, h]
  · have hship : (g.shipTag != 0) = true := bne_iff_ne.2 h
    obtain ⟨hunplaced, hoff⟩ := deliveryAlarm_sources s.place.pourPoint (accounted g s)
    rw [creditDelivery_ship h, (reportDelivery_kept _ _ _).2]
    refine ⟨?_, ?_, ?_⟩
    · rw [deliveryAlarm_leaves _ _ _ (by decide)]
      simp [Source.raisedIf, h, accounted]
    · rw [hunplaced, hship]
      rfl
    · rw [hoff, hship]
      rfl

theorem coarseLeft_source (g : Segment) (rest : List Segment) (s : State) :
    (coarseLeft g rest s).ladder.sources[srcSegmentCoarse]
      = if g.coarse && !(rest.any (·.coarse)) then (s.ladder.sources[srcSegmentCoarse]).withCond false
        else s.ladder.sources[srcSegmentCoarse] := by
  unfold coarseLeft
  split
  · rw [setCond_same]
  · rfl

/-- What one delivery does to the accounts, the alarms and the visit, before the queue is found empty. -/
theorem credited_spec (g : Segment) (rest : List Segment) (s : State) :
    (credited g rest s).ship.accounts = credit s.place.pourPoint s.ship.accounts g
      ∧ (credited g rest s).ladder.sources[srcStrayMass]
        = (s.ladder.sources[srcStrayMass]).raisedIf (g.shipTag == 0)
      ∧ (credited g rest s).ladder.sources[srcUnplacedPour]
        = (s.ladder.sources[srcUnplacedPour]).raisedIf (g.shipTag != 0 && s.place.pourPoint == unplaced)
      ∧ (credited g rest s).ladder.sources[srcOffPlan]
        = (s.ladder.sources[srcOffPlan]).raisedIf
            (g.shipTag != 0 && s.place.pourPoint != unplaced && astray s.place.pourPoint s.seq.visit)
      ∧ (credited g rest s).ladder.sources[srcSegmentCoarse]
        = if g.coarse && !(rest.any (·.coarse)) then (s.ladder.sources[srcSegmentCoarse]).withCond false
          else s.ladder.sources[srcSegmentCoarse] := by
  set u := coarseLeft g rest { s with flight := { s.flight with segments := rest } } with hu
  obtain ⟨hplace, hship, hseq, -⟩ := coarseLeft_kept g rest s
  rw [← hu] at hplace hship hseq
  have hleaves : LeavesSources [srcSegmentCoarse] s u := .trans .ladder (coarseLeft_leaves _ _ _)
  obtain ⟨hstray, hunplaced, hoff⟩ := creditDelivery_sources g u
  have hcredited : credited g rest s = creditDelivery g u := rfl
  have haccounts := creditDelivery_accounts g u
  rw [hplace] at hunplaced hoff haccounts
  rw [hcredited]
  refine ⟨by rw [haccounts, hship], ?_, ?_, ?_, ?_⟩
  · rw [hstray, hleaves _ (by decide)]
  · rw [hunplaced, hleaves _ (by decide)]
  · rw [hoff, hseq, hleaves _ (by decide)]
  · rw [creditDelivery_leaves _ _ _ (by decide), hu, coarseLeft_source]

theorem credited_pourPoint (g : Segment) (rest : List Segment) (s : State) :
    (credited g rest s).place.pourPoint = s.place.pourPoint := ((credited_changes g rest s).same .placement).2

theorem credited_visit (g : Segment) (rest : List Segment) {s : State} {v : Visit} (hv : s.seq.visit = some v) :
    (credited g rest s).seq = { s.seq with visit := some (added s.place.pourPoint v g) }
      ∧ (credited g rest s).bills = s.bills := by
  obtain ⟨hplace, -, hseq, hbills⟩ := coarseLeft_kept g rest s
  obtain ⟨hseq', hbills'⟩ := creditDelivery_visit g (s := coarseLeft g rest _) (by rw [hseq]; exact hv)
  rw [hplace, hseq] at hseq'
  exact ⟨hseq', hbills'.trans hbills⟩

theorem credited_noVisit (g : Segment) (rest : List Segment) {s : State} (hv : s.seq.visit = none) :
    (credited g rest s).seq = s.seq
      ∧ (credited g rest s).bills.unbilled = (s.bills.unbilled || g.shipTag != 0) := by
  obtain ⟨-, -, hseq, hbills⟩ := coarseLeft_kept g rest s
  obtain ⟨hseq', hbills'⟩ := creditDelivery_noVisit g (s := coarseLeft g rest _) (by rw [hseq]; exact hv)
  exact ⟨hseq'.trans hseq, by rw [← hbills]; exact hbills'⟩

/-! ### All that are due -/

/-- The segments that are delivered, and those that stay. -/
def gone (s : State) : List Segment := s.flight.segments.takeWhile (Segment.due s.meter.belt)
def left (s : State) : List Segment := s.flight.segments.dropWhile (Segment.due s.meter.belt)

/-- The due segments handed over one after the other, no queue found empty. -/
def handOver : List Segment → State → State
  | [], s => s
  | g :: rest, s => if g.arrival ≤ s.meter.belt then handOver rest (credited g rest s) else s

/-- Each delivery treats a quantity in its own way, and so do they all, head first: `f` is the treatment of one segment,
under a condition `P` that each delivery keeps. -/
theorem deliverDue_fold {α : Type} {Q : State → α} {f : α → Segment → α} {P : State → Prop}
    (hstep : ∀ g rest u, P u → P (deliver g rest u) ∧ Q (deliver g rest u) = f (Q u) g) (gs : List Segment) {s : State}
    (h : P s) : P (deliverDue gs s)
      ∧ Q (deliverDue gs s) = (gs.takeWhile (Segment.due s.meter.belt)).foldl f (Q s) := by
  induction gs generalizing s with
  | nil => exact ⟨h, rfl⟩
  | cons g rest ih =>
    unfold deliverDue
    by_cases hdue : g.arrival ≤ s.meter.belt
    · obtain ⟨hP, hQ⟩ := hstep g rest s h
      obtain ⟨hPs, hQs⟩ := ih hP
      rw [if_pos hdue, List.takeWhile_cons_of_pos (by simpa [Segment.due] using hdue), List.foldl_cons, ← hQ]
      rw [deliver_belt] at hQs
      exact ⟨hPs, hQs⟩
    · rw [if_neg hdue, List.takeWhile_cons_of_neg (by simpa [Segment.due] using hdue)]
      exact ⟨h, rfl⟩

theorem handOver_fold {α : Type} {Q : State → α} {f : α → Segment → α} {P : State → Prop}
    (hstep : ∀ g rest u, P u → P (credited g rest u) ∧ Q (credited g rest u) = f (Q u) g) (gs : List Segment) {s : State}
    (h : P s) : P (handOver gs s)
      ∧ Q (handOver gs s) = (gs.takeWhile (Segment.due s.meter.belt)).foldl f (Q s) := by
  induction gs generalizing s with
  | nil => exact ⟨h, rfl⟩
  | cons g rest ih =>
    unfold handOver
    by_cases hdue : g.arrival ≤ s.meter.belt
    · obtain ⟨hP, hQ⟩ := hstep g rest s h
      obtain ⟨hPs, hQs⟩ := ih hP
      have hbelt : (credited g rest s).meter.belt = s.meter.belt := (credited_changes g rest s).same .belt
      rw [if_pos hdue, List.takeWhile_cons_of_pos (by simpa [Segment.due] using hdue), List.foldl_cons, ← hQ]
      rw [hbelt] at hQs
      exact ⟨hPs, hQs⟩
    · rw [if_neg hdue, List.takeWhile_cons_of_neg (by simpa [Segment.due] using hdue)]
      exact ⟨h, rfl⟩

/-- Segments that carry mass empty the queue with the last of them alone. -/
theorem deliverDue_handOver {gs : List Segment} (s : State) (hpos : ∀ g ∈ gs, 0 < g.mass) :
    deliverDue gs s
      = if gs ≠ [] ∧ gs.dropWhile (Segment.due s.meter.belt) = [] then queueEmptied (handOver gs s)
        else handOver gs s := by
  induction gs generalizing s with
  | nil => rfl
  | cons g rest ih =>
    unfold deliverDue handOver
    by_cases hdue : g.arrival ≤ s.meter.belt
    · have hbelt : (credited g rest s).meter.belt = s.meter.belt := (credited_changes g rest s).same .belt
      rw [if_pos hdue, if_pos hdue, List.dropWhile_cons_of_pos (by simpa [Segment.due] using hdue), deliver_eq]
      cases rest with
      | nil => rfl
      | cons g' rest' =>
        have htotal : ((g' :: rest').map (·.mass)).sum ≠ 0 := by
          have := hpos g' (by simp)
          simp
          omega
        rw [if_neg htotal, ih _ fun x hx => hpos x (List.mem_cons_of_mem _ hx), hbelt]
        simp
    · rw [if_neg hdue, if_neg hdue, List.dropWhile_cons_of_neg (by simpa [Segment.due] using hdue), if_neg (by simp)]

/-! ### What the deliveries do to the accounts, the alarms and a closed book -/

theorem queueEmptied_kept (s : State) : (queueEmptied s).ship.accounts = s.ship.accounts
    ∧ (queueEmptied s).place.pourPoint = s.place.pourPoint := by
  have hc := queueEmptied_changes s
  exact ⟨hc.same .accounts, (hc.same .placement).2⟩

theorem queueEmptied_source {j : SourceNo} (hj : j ∉ [srcTrimBound, srcBillMark]) (s : State) :
    (queueEmptied s).ladder.sources[j] = s.ladder.sources[j] := queueEmptied_leaves s j hj

theorem deliver_pourPoint (g : Segment) (rest : List Segment) (s : State) :
    (deliver g rest s).place.pourPoint = s.place.pourPoint := ((deliver_changes g rest s).same .placement).2

theorem deliverDue_accounts (gs : List Segment) (s : State) : (deliverDue gs s).ship.accounts
    = (gs.takeWhile (Segment.due s.meter.belt)).foldl (credit s.place.pourPoint) s.ship.accounts :=
  (deliverDue_fold (Q := (·.ship.accounts)) (P := fun u => u.place.pourPoint = s.place.pourPoint)
    (fun g rest u hu => ⟨(deliver_pourPoint g rest u).trans hu,
      deliver_of_credited (Q := (·.ship.accounts)) g rest u (fun w => (queueEmptied_kept w).1)
        (by rw [← hu]; exact (credited_spec g rest u).1)⟩) gs rfl).2

theorem deliverDue_stray (gs : List Segment) (s : State) : (deliverDue gs s).ladder.sources[srcStrayMass]
    = (gs.takeWhile (Segment.due s.meter.belt)).foldl (fun x g => x.raisedIf (g.shipTag == 0))
        s.ladder.sources[srcStrayMass] :=
  (deliverDue_fold (Q := (·.ladder.sources[srcStrayMass])) (P := fun _ => True)
    (fun g rest u _ => ⟨trivial,
      deliver_of_credited (Q := (·.ladder.sources[srcStrayMass])) g rest u (queueEmptied_source (by decide))
        (credited_spec g rest u).2.1⟩) gs trivial).2

theorem deliverDue_unplaced (gs : List Segment) (s : State) : (deliverDue gs s).ladder.sources[srcUnplacedPour]
    = (gs.takeWhile (Segment.due s.meter.belt)).foldl
        (fun x g => x.raisedIf (g.shipTag != 0 && s.place.pourPoint == unplaced)) s.ladder.sources[srcUnplacedPour] :=
  (deliverDue_fold (Q := (·.ladder.sources[srcUnplacedPour])) (P := fun u => u.place.pourPoint = s.place.pourPoint)
    (fun g rest u hu => ⟨(deliver_pourPoint g rest u).trans hu,
      deliver_of_credited (Q := (·.ladder.sources[srcUnplacedPour])) g rest u (queueEmptied_source (by decide))
        (by rw [← hu]; exact (credited_spec g rest u).2.2.1)⟩) gs rfl).2

/-- With no visit open a delivery that empties the queue tests the held move alone. -/
theorem queueEmptied_noVisit {s : State} (hv : s.seq.visit = none) : queueEmptied s = testHeldMove s := by
  rw [queueEmptied, if_neg]
  simp [State.visitState, hv]

theorem deliver_noVisit (g : Segment) (rest : List Segment) {s : State} (hv : s.seq.visit = none) :
    (deliver g rest s).seq.visit = none
      ∧ (deliver g rest s).bills.unbilled = (s.bills.unbilled || g.shipTag != 0) := by
  obtain ⟨hseq, hunbilled⟩ := credited_noVisit g rest hv
  have hv' : (credited g rest s).seq.visit = none := by rw [hseq, hv]
  rw [deliver_eq]
  split
  · rw [queueEmptied_noVisit hv']
    have hc := testHeldMove_changes (credited g rest s)
    exact ⟨Eq.trans (hc.same .visit) hv', Eq.trans (hc.same .unbilled) hunbilled⟩
  · exact ⟨hv', hunbilled⟩

theorem foldl_or_any (p : Segment → Bool) (gs : List Segment) (b : Bool) :
    gs.foldl (fun x g => x || p g) b = (b || gs.any p) := by
  induction gs generalizing b with
  | nil => simp
  | cons g rest ih => rw [List.foldl_cons, ih, List.any_cons, Bool.or_assoc]

theorem deliverDue_noVisit (gs : List Segment) {s : State} (hv : s.seq.visit = none) :
    (deliverDue gs s).seq.visit = none ∧ (deliverDue gs s).bills.unbilled
      = (s.bills.unbilled || (gs.takeWhile (Segment.due s.meter.belt)).any (·.shipTag != 0)) := by
  rw [← foldl_or_any]
  exact deliverDue_fold (Q := (·.bills.unbilled)) (P := (·.seq.visit = none))
    (fun g rest _ hu => deliver_noVisit g rest hu) gs hv

/-- SEGMENT_COARSE ends with the last COARSE segment of the queue (R30). -/
theorem deliverDue_coarse (gs : List Segment) (s : State) : (deliverDue gs s).ladder.sources[srcSegmentCoarse]
    = if (gs.takeWhile (Segment.due s.meter.belt)).any (·.coarse)
          && !(gs.dropWhile (Segment.due s.meter.belt)).any (·.coarse)
      then (s.ladder.sources[srcSegmentCoarse]).withCond false else s.ladder.sources[srcSegmentCoarse] := by
  induction gs generalizing s with
  | nil => rfl
  | cons g rest ih =>
    by_cases hdue : g.arrival ≤ s.meter.belt
    · have hdue' : Segment.due s.meter.belt g = true := by simpa [Segment.due] using hdue
      have hone : (deliver g rest s).ladder.sources[srcSegmentCoarse] = _ :=
        deliver_of_credited (Q := (·.ladder.sources[srcSegmentCoarse])) g rest s (queueEmptied_source (by decide))
          (credited_spec g rest s).2.2.2.2
      have hsplit : rest.any (·.coarse) = ((rest.takeWhile (Segment.due s.meter.belt)).any (·.coarse)
          || (rest.dropWhile (Segment.due s.meter.belt)).any (·.coarse)) := by
        rw [← List.any_append, List.takeWhile_append_dropWhile]
      have heq : deliverDue (g :: rest) s = deliverDue rest (deliver g rest s) := if_pos hdue
      rw [heq, ih, deliver_belt, hone, List.takeWhile_cons_of_pos hdue', List.dropWhile_cons_of_pos hdue',
        List.any_cons, hsplit]
      cases g.coarse <;> cases (rest.takeWhile (Segment.due s.meter.belt)).any (·.coarse)
        <;> cases (rest.dropWhile (Segment.due s.meter.belt)).any (·.coarse) <;> simp
    · have hdue' : ¬ Segment.due s.meter.belt g = true := by simpa [Segment.due] using hdue
      have heq : deliverDue (g :: rest) s = s := if_neg hdue
      rw [heq, List.takeWhile_cons_of_neg hdue']
      simp

/-! ### What they do to an open visit -/

theorem handOver_changes (gs : List Segment) (s : State) :
    OnlyChanges [.flight, .accounts, .sources, .conds, .visit, .unbilled] s (handOver gs s) := by
  induction gs generalizing s with
  | nil => exact .refl _ s
  | cons g rest ih =>
    unfold handOver
    split
    · exact (credited_changes g rest s).trans (ih _)
    · exact .refl _ s

theorem handOver_visit (gs : List Segment) {s : State} {v : Visit} (hv : s.seq.visit = some v) :
    (handOver gs s).seq = { s.seq with
        visit := some ((gs.takeWhile (Segment.due s.meter.belt)).foldl (added s.place.pourPoint) v) }
      ∧ (handOver gs s).bills = s.bills := by
  induction gs generalizing s v with
  | nil => exact ⟨by simp [handOver, ← hv], rfl⟩
  | cons g rest ih =>
    unfold handOver
    by_cases hdue : g.arrival ≤ s.meter.belt
    · obtain ⟨hseq, hbills⟩ := credited_visit g rest hv
      obtain ⟨hseq', hbills'⟩ := ih (s := credited g rest s) (by rw [hseq])
      have hbelt : (credited g rest s).meter.belt = s.meter.belt := (credited_changes g rest s).same .belt
      rw [hbelt, credited_pourPoint, hseq] at hseq'
      rw [if_pos hdue, List.takeWhile_cons_of_pos (by simpa [Segment.due] using hdue), List.foldl_cons]
      exact ⟨hseq', hbills'.trans hbills⟩
    · rw [if_neg hdue, List.takeWhile_cons_of_neg (by simpa [Segment.due] using hdue)]
      exact ⟨by simp [← hv], rfl⟩

theorem foldl_added_kept (pour : Account) (gs : List Segment) (v : Visit) :
    (gs.foldl (added pour) v).hold = v.hold ∧ (gs.foldl (added pour) v).state = v.state := by
  induction gs generalizing v with
  | nil => exact ⟨rfl, rfl⟩
  | cons g rest ih =>
    obtain ⟨hhold, hstate⟩ := ih (added pour v g)
    obtain ⟨hhold', hstate'⟩ := added_kept pour v g
    exact ⟨hhold.trans hhold', hstate.trans hstate'⟩

theorem credited_astray (g : Segment) (rest : List Segment) (s : State) (pour : Account) :
    astray pour (credited g rest s).seq.visit = astray pour s.seq.visit := by
  cases hv : s.seq.visit with
  | none => rw [(credited_noVisit g rest hv).1, hv]
  | some v =>
    rw [(credited_visit g rest hv).1, astray, astray, Option.any_some, Option.any_some, (added_kept _ v g).1]

theorem handOver_offPlan (gs : List Segment) (s : State) : (handOver gs s).ladder.sources[srcOffPlan]
    = (gs.takeWhile (Segment.due s.meter.belt)).foldl (fun x g => x.raisedIf
        (g.shipTag != 0 && s.place.pourPoint != unplaced && astray s.place.pourPoint s.seq.visit))
        s.ladder.sources[srcOffPlan] :=
  (handOver_fold (Q := (·.ladder.sources[srcOffPlan]))
    (P := fun u => u.place.pourPoint = s.place.pourPoint
      ∧ astray s.place.pourPoint u.seq.visit = astray s.place.pourPoint s.seq.visit)
    (fun g rest u ⟨hpour, hastray⟩ => ⟨⟨(credited_pourPoint g rest u).trans hpour, (credited_astray g rest u _).trans hastray⟩,
      by rw [← hastray, ← hpour]; exact (credited_spec g rest u).2.2.2.1⟩) gs ⟨rfl, rfl⟩).2

end Sys2Proof.Machine

end

section
/-! ## What the deliveries bring about in the visit (R54, R83 to R87) -/

set_option Elab.async false

namespace Sys2Proof.Machine

/-! ### No visit that a trigger would reach (R83, R84) -/

/-- No visit is POURING or PAUSED: no trigger is taken. -/
def Calm (s : State) : Prop := ∀ v, s.seq.visit = some v → ¬ (v.state = .pouring ∨ v.state = .paused)

theorem Calm.congr {s t : State} (h : Calm s) (hv : t.seq.visit = s.seq.visit) : Calm t := fun v hv' => h v (hv ▸ hv')

theorem calm_none {s : State} (h : s.seq.visit = none) : Calm s := fun _ hv => nomatch h.symm.trans hv

theorem calm_some {s : State} {v : Visit} (h : s.seq.visit = some v) (hs : ¬ (v.state = .pouring ∨ v.state = .paused)) :
    Calm s := fun v' hv => by
  obtain rfl : v' = v := Option.some.inj (hv.symm.trans h)
  exact hs

theorem takeTrigger_calm_ignored {s : State} (h : Calm s) (r : EndReason) : takeTrigger r s = s := by
  cases hv : s.seq.visit with
  | none => exact takeTrigger_idle r s (by simp [State.visitPours, hv])
  | some v => exact takeTrigger_ignored hv (fun hp => h v hv (.inl hp)) fun hp => h v hv (.inr hp)

theorem openVisit_calm (i : Fin 16) (sl : Slot) (s : State) : Calm (openVisit i sl s) := by
  refine calm_some (by rw [openVisit_seq]) ?_
  unfold newVisit
  simp only
  split <;> simp

theorem finishPlan_calm {s : State} (h : Calm s) (r : FinishReason) (m : Bool) : Calm (finishPlan r m s) :=
  h.congr ((finishPlan_changes r m s).same .visit)

theorem selectLoop_calm (p : PlanHeader) (fuel run : Nat) (m : Bool) {s : State} (h : Calm s) :
    Calm (selectLoop p fuel run m s) := by
  induction fuel generalizing run m s with
  | zero => exact h
  | succ fuel ih =>
    unfold selectLoop
    split
    · exact finishPlan_calm h _ _
    · split
      · exact finishPlan_calm h _ _
      · split
        · exact h
        · split
          · exact openVisit_calm _ _ s
          · simp only
            have hskipped : Calm { s with seq := { s.seq with skips := min (s.seq.skips + 1) 65535 } } := h.congr rfl
            split
            · exact finishPlan_calm hskipped _ _
            · exact ih _ _ (hskipped.congr ((advanceCursor_changes _).same .visit))

theorem afterVisit_calm {s : State} (h : Calm s) : Calm (afterVisit s) := by
  have hcursor : Calm (advanceCursor s) := h.congr ((advanceCursor_changes s).same .visit)
  unfold afterVisit
  split
  · unfold selectVisit
    split
    · exact hcursor
    · exact selectLoop_calm _ _ _ _ hcursor
  · exact hcursor
  · exact h

theorem completeVisit_calm (s : State) : Calm (completeVisit s) := by
  cases hv : s.seq.visit with
  | none =>
    refine calm_none ?_
    simp only [completeVisit, hv]
  | some v =>
    rw [completeVisit_eq v s hv]
    refine afterVisit_calm (calm_none (Eq.trans ((testHeldMove_changes _).same .visit) ?_))
    rw [(completed_kept v s).2.2.2.2.2]

theorem completeIfEmpty_calm {s : State} (h : Calm s) : Calm (completeIfEmpty s) := by
  unfold completeIfEmpty
  split
  · exact completeVisit_calm s
  · exact h

theorem mapVisit_calm {f : Visit → Visit} {x : VisitState} (hf : ∀ v, (f v).state = x)
    (hx : ¬ (x = .pouring ∨ x = .paused)) (s : State) : Calm (mapVisit f s) := by
  intro v hv
  obtain ⟨v', -, rfl⟩ := Option.map_eq_some_iff.1 (show s.seq.visit.map f = some v from hv)
  rw [hf]
  exact hx

theorem closeOut_calm {s : State} (h : Calm s) : Calm (closeOut s) := by
  have hnot : Calm (closeOutNotIssued s) := by
    unfold closeOutNotIssued enterDraining
    exact completeIfEmpty_calm (mapVisit_calm (x := .draining) (fun _ => rfl) (by simp) _)
  unfold closeOut
  split
  · split
    · exact h
    · exact hnot
  · split
    next s' hs' => exact h.congr ((injectOrder_changes _ _ _ _ _ hs').same .visit)
    · exact hnot

theorem takeTrigger_calm (r : EndReason) (s : State) : Calm (takeTrigger r s) := by
  by_cases h : Calm s
  · rwa [takeTrigger_calm_ignored h]
  · unfold takeTrigger
    split
    · exact closeOut_calm (mapVisit_calm (x := .closing) (fun _ => rfl) (by simp) s)
    · exact completeIfEmpty_calm (mapVisit_calm (x := .draining) (fun _ => rfl) (by simp) s)
    next h1 h2 =>
      intro v hv hs
      rcases hs with hs | hs
      · exact h1 (by simp [State.visitState, hv, hs])
      · exact h2 (by simp [State.visitState, hv, hs])

/-! ### METER FAULT where no visit takes it (R15) -/

/-- METER FAULT set and its alarm raised, before a running ZERO ends. -/
def faultRaised (s : State) : State :=
  raise srcMeterFault (setCond srcMeterFault true { s with meter := { s.meter with fault := true, clearing := 0 } })

theorem setMeterFault_eq (s : State) : setMeterFault s
    = if s.meter.fault then endZero .faulted s.meter.offset (faultRaised s)
      else takeTrigger .meterFault (endZero .faulted s.meter.offset (faultRaised s)) := rfl

theorem faultRaised_finishes (s : State) : Finishes s (faultRaised s) := by
  have hc : OnlyChanges finishBlocks s (faultRaised s) := by
    refine OnlyChanges.trans (t := { s with meter := { s.meter with fault := true, clearing := 0 } }) ?_
      ((setCond_changes _ _ _).mono.trans (raise_changes _ _).mono)
    intro b hb
    cases b <;> simp_all [Same, finishBlocks]
  have hl : LeavesSources [srcMeterFault] s (faultRaised s) :=
    .trans .ladder ((setCond_source _ _ _).trans (raise_source _ _))
  refine hc.finishes hl.mono fun hz => ⟨?_, ?_, hl _ (by decide)⟩ <;> simp [faultRaised, hz]

theorem endZero_finishes (o : ZeroOutcome) (n : Int) (s : State) : Finishes s (endZero o n s) :=
  (endZero_changes o n s).mono.finishes (endZero_leaves o n s).mono fun hz => by
    have hkept : endZero o n s = s := by simp only [endZero, hz]
    rw [hkept]
    exact ⟨hz, rfl, rfl⟩

theorem setMeterFault_finishes {s : State} (h : s.meter.fault = true ∨ Calm s) : Finishes s (setMeterFault s) := by
  have hended : Finishes s (endZero .faulted s.meter.offset (faultRaised s)) :=
    (faultRaised_finishes s).trans (endZero_finishes _ _ _)
  rw [setMeterFault_eq]
  rcases h with h | h
  · rwa [if_pos h]
  · rwa [takeTrigger_calm_ignored (h.congr (congrArg Sequencer.visit hended.seq)), ite_self]

/-! ### The held move (R54) -/

theorem forward_injSeq (p : PortId) (f : Frame) (s : State) : (forward p f s).line.injSeq = s.line.injSeq := by
  unfold forward
  split
  · exact offer_line_injSeq _ _ s
  · split
    · exact offer_line_injSeq _ _ s
    · rfl

theorem testHeldMove_injSeq (s : State) : (testHeldMove s).line.injSeq = s.line.injSeq := by
  unfold testHeldMove
  split
  · rfl
  · split
    · exact forward_injSeq _ _ _
    · rfl

/-- `Completes` reads of the ship before it the number, the accounts and the bases alone. -/
theorem Completes.before {v : Visit} {s s' t : State} (h : Completes v s' t) (hm : s'.meter.belt = s.meter.belt)
    (hn : s'.ship.number = s.ship.number) (ha : s'.ship.accounts = s.ship.accounts) (hb : s'.ship.bases = s.ship.bases)
    (hbills : s'.bills = s.bills) (hh : s'.seq.holds = s.seq.holds) (hf : s'.seq.holdStates = s.seq.holdStates)
    (hl : s'.ladder.sources[srcBillMark] = s.ladder.sources[srcBillMark]) : Completes v s t := by
  have ht : trimKg s' = trimKg s := by rw [trimKg, trimKg, trimMoment_accounts hh ha]
  have hr : ∀ h, Reached s' h ↔ Reached s h := fun h => reached_congr hh ha h
  unfold Completes MarkTested at *
  simp only [hm, hn, ha, hb, hbills, hf, hl, ht, hr] at h
  exact h

end Sys2Proof.Machine

end

section
/-! ## The visit after the deliveries of a sample (R31 to R35, R54, R83 to R87) -/

set_option Elab.async false

namespace Sys2Proof.Machine

/-! ### The state in which the projections are checked -/

/-- The state when every due segment has been delivered, nothing checked yet. -/
def delivered (c : State) : State := deliverDue c.flight.segments c

theorem headDue_iff (c : State) : headDue c = true ↔ gone c ≠ [] := by
  unfold headDue gone
  cases h : c.flight.segments with
  | nil => simp
  | cons g rest => by_cases hdue : g.arrival ≤ c.meter.belt <;> simp [Segment.due, hdue]

theorem gone_ne_nil {c : State} (h : left c = []) (hne : c.flight.segments ≠ []) : gone c ≠ [] := by
  intro hgone
  apply hne
  have hsplit : gone c ++ left c = c.flight.segments := List.takeWhile_append_dropWhile
  rw [← hsplit, hgone, h, List.append_nil]

theorem segments_ne_nil {c : State} (h : gone c ≠ []) : c.flight.segments ≠ [] := by
  intro hnil
  exact h (by rw [gone, hnil, List.takeWhile_nil])

theorem delivered_emptied {c : State} (hpos : ∀ g ∈ c.flight.segments, 0 < g.mass) (hg : gone c ≠ []) (hl : left c = []) :
    delivered c = queueEmptied (handOver c.flight.segments c) := by
  rw [delivered, deliverDue_handOver c hpos, if_pos ⟨segments_ne_nil hg, hl⟩]

theorem delivered_kept {c : State} (hpos : ∀ g ∈ c.flight.segments, 0 < g.mass) (h : left c ≠ [] ∨ gone c = []) :
    delivered c = handOver c.flight.segments c := by
  rw [delivered, deliverDue_handOver c hpos, if_neg]
  rintro ⟨hne, hl⟩
  rcases h with h | h
  · exact h hl
  · exact gone_ne_nil hl hne h

theorem deliverAndCheck_eq (b : Bool) (c : State) :
    deliverAndCheck b c = if b || headDue c then checkProjections (delivered c) else delivered c := rfl

theorem deliverAndCheck_calm {c : State} (h : Calm (delivered c)) (b : Bool) : deliverAndCheck b c = delivered c := by
  rw [deliverAndCheck_eq, checkProjections_idle h, ite_self]

/-- The sources that the deliveries and what stands before them may raise or end, no visit completing. -/
def arrivalSources : List SourceNo :=
  [srcBeltReverse, srcZeroDrift, srcSegmentCoarse, srcStrayMass, srcUnplacedPour, srcOffPlan]

/-- The blocks that a sample and its deliveries may change, no visit completing. -/
def deliveredBlocks : List Block :=
  [.belt, .drift, .weighed, .unassigned, .flight, .accounts, .sources, .conds, .visit, .unbilled, .held, .send .U, .send .D,
   .injection]

theorem handOver_leaves (gs : List Segment) (s : State) : LeavesSources arrivalSources s (handOver gs s) := by
  induction gs generalizing s with
  | nil => exact .refl _ s
  | cons g rest ih =>
    unfold handOver
    split
    · exact (LeavesSources.trans .ladder
        ((coarseLeft_leaves _ _ _).mono.trans (creditDelivery_leaves _ _).mono)).trans (ih _)
    · exact .refl _ s

/-- A state `d` after deliveries, as a trigger or a completion reads it: beside the flight, the belt and the accounts it
is the state `s` in which the sample is taken. -/
structure Delivered (s d : State) : Prop where
  changes : OnlyChanges deliveredBlocks s d
  sources : LeavesSources arrivalSources s d
  injSeq : d.line.injSeq = s.line.injSeq
  bills : d.bills = s.bills

/-- The state in which the sample is taken, with a flight, a belt position and accounts of a later moment. -/
def atDelivery (s : State) (segments : List Segment) (belt : Nat) (accounts : Vector Nat 13) : State :=
  { s with flight := { s.flight with segments := segments }, meter := { s.meter with belt := belt }
           ship := { s.ship with accounts := accounts } }

section
variable {s d : State} (hd : Delivered s d) {segments : List Segment} (hsegments : d.flight.segments = segments)
include hd

theorem Completes.ofDelivered {v : Visit} {t : State} (h : Completes v d t) :
    Completes v (atDelivery s segments d.meter.belt d.ship.accounts) t := by
  obtain ⟨hholds, -, -⟩ := hd.changes.same .planTables
  exact h.before rfl (hd.changes.same .ship).2 rfl (hd.changes.same .bases) hd.bills hholds
    (hd.changes.same .holdStates) (hd.sources _ (by decide))

include hsegments

theorem Triggered.ofDelivered {v : Visit} {r : EndReason} {t : State} (h : Triggered v r d t) :
    Triggered v r (atDelivery s segments d.meter.belt d.ship.accounts) t :=
  h.before hd.changes.gate_eq (hd.changes.same (.recv .D)).2.2.2 hd.injSeq (hd.changes.same .clock) hd.changes.handler
    (hd.changes.same .stations) (by rw [Flight.total, hsegments]; rfl) (hd.sources _ (by decide))
    fun _ hz => ⟨Eq.trans (hd.changes.same .zero) hz, fun _ hw => hw.ofDelivered hd⟩

theorem projection_atDelivery (v : Visit) :
    projection (atDelivery s segments d.meter.belt d.ship.accounts) v = projection d v := by
  obtain ⟨hholds, -, hheader⟩ := hd.changes.same .planTables
  exact (projection_accounts (s := atDelivery s segments d.meter.belt d.ship.accounts) (t := d) hholds hheader rfl
    (by rw [Flight.total, hsegments]; rfl) v).symm

end

section
variable {s c : State} (hc : OnlyChanges incomingBlocks s c)
  (hl : LeavesSources [srcBeltReverse, srcZeroDrift, srcSegmentCoarse] s c) {v : Visit} (hv : s.seq.visit = some v)
include hc hl hv

theorem handOver_delivered : Delivered s (handOver c.flight.segments c) where
  changes := hc.mono.trans (handOver_changes _ c).mono
  sources := hl.mono.trans (handOver_leaves _ c)
  injSeq := ((handOver_changes _ c).same .injection).2.trans (hc.same .injection).2
  bills := by
    have hvc : c.seq.visit = some v := by rw [OnlyChanges.seq_eq hc, hv]
    rw [(handOver_visit _ hvc).2, OnlyChanges.bills_eq hc]

omit hl in
theorem handOver_seq : (handOver c.flight.segments c).seq
    = { s.seq with visit := some ((gone c).foldl (added s.place.pourPoint) v) } := by
  have hvc : c.seq.visit = some v := by rw [OnlyChanges.seq_eq hc, hv]
  have hpour : c.place.pourPoint = s.place.pourPoint := (hc.same .placement).2
  rw [(handOver_visit _ hvc).1, OnlyChanges.seq_eq hc, hpour]
  rfl

omit hc hl hv in
theorem Delivered.testHeldMove {d : State} (h : Delivered s d) : Delivered s (testHeldMove d) where
  changes := h.changes.trans (testHeldMove_changes d).mono
  sources := h.sources.trans (.frame (testHeldMove_changes d))
  injSeq := (testHeldMove_injSeq d).trans h.injSeq
  bills := (OnlyChanges.bills_eq (testHeldMove_changes d)).trans h.bills

/-- A visit that is not completed by the deliveries stays open with their masses added to it (R34, R80). -/
theorem delivered_open (hpos : ∀ g ∈ c.flight.segments, 0 < g.mass)
    (h : v.state ≠ .draining ∨ left c ≠ [] ∨ gone c = []) : Delivered s (delivered c)
      ∧ (delivered c).seq.visit = some ((gone c).foldl (added s.place.pourPoint) v) := by
  have hd := handOver_delivered hc hl hv
  have hseq := handOver_seq hc hv
  by_cases hopen : left c ≠ [] ∨ gone c = []
  · rw [delivered_kept hpos hopen]
    exact ⟨hd, by rw [hseq]⟩
  · have hstate : v.state ≠ .draining := h.resolve_right hopen
    obtain ⟨hleft, hgone⟩ := not_or.1 hopen
    rw [delivered_emptied hpos hgone (not_not.1 hleft), queueEmptied, if_neg]
    · exact ⟨hd.testHeldMove, by rw [(testHeldMove_kept _).2.1, hseq]⟩
    · rw [State.visitState, hseq]
      simpa [(foldl_added_kept _ _ v).2] using hstate

omit hl in
/-- The delivery that empties the queue completes a DRAINING visit (R35, R86). -/
theorem delivered_completes (hpos : ∀ g ∈ c.flight.segments, 0 < g.mass) (hstate : v.state = .draining)
    (hgone : gone c ≠ []) (hleft : left c = []) :
    delivered c = testHeldMove (completeVisit (handOver c.flight.segments c)) := by
  rw [delivered_emptied hpos hgone hleft, queueEmptied, if_pos]
  rw [State.visitState, handOver_seq hc hv]
  simpa [(foldl_added_kept _ _ v).2] using hstate

end

end Sys2Proof.Machine

end

section
/-! ## What a sample that moves the belt brings about in the open visit (R31 to R35, R54, R83 to R87) -/

set_option Elab.async false

namespace Sys2Proof.Machine

theorem deliverAndCheck_fault (b : Bool) (c : State) : (deliverAndCheck b c).meter.fault = c.meter.fault :=
  ((deliverAndCheck_changes b c).same .fault).1

theorem delivered_flight (c : State) : (delivered c).flight = { c.flight with segments := left c } :=
  deliverDue_flight _ c rfl

theorem delivered_belt (c : State) : (delivered c).meter.belt = c.meter.belt := deliverDue_belt _ c

/-- The deliveries raise OFF_PLAN for a visit that pours elsewhere (R33). -/
theorem delivered_offPlan {c : State} (hpos : ∀ g ∈ c.flight.segments, 0 < g.mass) :
    (delivered c).ladder.sources[srcOffPlan] = (gone c).foldl (fun x g => x.raisedIf
        (g.shipTag != 0 && c.place.pourPoint != unplaced && astray c.place.pourPoint c.seq.visit))
        c.ladder.sources[srcOffPlan] := by
  have hover := handOver_offPlan c.flight.segments c
  by_cases h : left c ≠ [] ∨ gone c = []
  · rw [delivered_kept hpos h, hover]
    rfl
  · obtain ⟨hleft, hgone⟩ := not_or.1 h
    rw [delivered_emptied hpos hgone (not_not.1 hleft), queueEmptied_source (by decide), hover]
    rfl

theorem triggers_not_draining {x : VisitState} (h : x = .pouring ∨ x = .paused) : x ≠ .draining := by
  rcases h with rfl | rfl <;> simp

theorem deliverAndCheck_unmet {c : State} {b : Bool} {v : Visit} (hv : (delivered c).seq.visit = some v)
    (h : (gone c = [] ∧ b = false) ∨ projection (delivered c) v = none) : deliverAndCheck b c = delivered c := by
  rw [deliverAndCheck_eq]
  rcases h with ⟨hgone, hb⟩ | h
  · have hdue : headDue c = false := Bool.eq_false_iff.2 fun hdue => (headDue_iff c).1 hdue hgone
    rw [hb, hdue]
    rfl
  · rw [checkProjections_none hv h, ite_self]

theorem handOver_noVisit (gs : List Segment) {s : State} (hv : s.seq.visit = none) : (handOver gs s).seq.visit = none :=
  (handOver_fold (Q := fun _ => ()) (f := fun _ _ => ()) (P := (·.seq.visit = none))
    (fun g rest u hu => ⟨by rw [(credited_noVisit g rest hu).1, hu], rfl⟩) gs hv).1

/-- A queue that runs empty while no visit pours releases the held move: before the next selection where a DRAINING
visit completes, and at once elsewhere (R35, R54, R87). -/
theorem queueEmptied_released {s : State} {m : HeldMove}
    (hs : ∀ v, s.seq.visit = some v → v.state = .waiting ∨ v.state = .armed ∨ v.state = .draining)
    (hflight : s.flight.total = 0) (hm : s.place.held = some m) (hfeeder : s.gate.feeder ≠ .running) :
    Calm (queueEmptied s) ∧ (queueEmptied s).place.held = none
      ∧ ((s.line.port .D).room = true → OnWire .D m.frame (queueEmptied s)) := by
  by_cases hd : s.visitState = some .draining
  · obtain ⟨v, hv, hstate⟩ := Option.map_eq_some_iff.1 hd
    obtain ⟨hplace, hgate, hline, hcflight, -, hseq⟩ := completed_kept v s
    obtain ⟨hheld, hwire⟩ := testHeldMove_released (s := completed v s) (m := m) (by rw [hplace, hm])
      (pourPhase_emptied (by rw [hseq]) (by rw [hcflight, hflight])) (by rw [hgate]; exact hfeeder)
    have hcompleted := completeVisit_eq v s hv
    have hdone : (completeVisit s).place.held = none := by
      rw [hcompleted]
      exact Eq.trans ((afterVisit_changes _).same .held) hheld
    have hemptied : queueEmptied s = completeVisit s := by rw [queueEmptied, if_pos hd, testHeldMove_none hdone]
    rw [hemptied]
    refine ⟨completeVisit_calm s, hdone, fun hroom => ?_⟩
    rw [hcompleted]
    exact (afterVisit_keeps _).2 _ _ (hwire (by rw [hline]; exact hroom))
  · have hcalm : Calm s := by
      intro v hv hpours
      rcases hs v hv with h | h | h <;> rcases hpours with h' | h' <;> exact nomatch h.symm.trans h'
    have hpours : s.visitPours = false := by
      unfold State.visitPours
      cases hv : s.seq.visit with
      | none => rfl
      | some v =>
        rcases hs v hv with h | h | h
        · simp [h, VisitState.pours]
        · simp [h, VisitState.pours]
        · exact absurd (by rw [State.visitState, hv, Option.map_some, h]) hd
    have hemptied : queueEmptied s = testHeldMove s := by rw [queueEmptied, if_neg hd]
    rw [hemptied]
    exact ⟨hcalm.congr (by rw [(testHeldMove_kept s).2.1]),
      testHeldMove_released hm (by simp [pourPhase, hpours, hflight]) hfeeder⟩

section
/- The sample is taken in `s`, and delivers from `c`, its increment handed over where `b` says so; `t` is the state at the
end of the event, and `lost` says that the sample sets METER FAULT. -/
variable {s c t : State} {b : Bool} {lost : Prop} (hc : OnlyChanges incomingBlocks s c)
  (hl : LeavesSources [srcBeltReverse, srcZeroDrift, srcSegmentCoarse] s c)
  (hfin : (lost → s.meter.fault = true ∨ Calm (deliverAndCheck b c)) → Finishes (deliverAndCheck b c) t)
  (hpos : ∀ g ∈ c.flight.segments, 0 < g.mass) {v : Visit} (hv : s.seq.visit = some v)
include hc hl hfin hpos hv

/-- A visit that no trigger reaches, and that the deliveries do not complete. -/
theorem visit_uncalled (hs : ¬ (v.state = .pouring ∨ v.state = .paused))
    (h : v.state ≠ .draining ∨ left c ≠ [] ∨ gone c = []) :
    t.seq.visit = some ((gone c).foldl (added s.place.pourPoint) v) := by
  obtain ⟨-, hopen⟩ := delivered_open hc hl hv hpos h
  have hcalm : Calm (delivered c) := calm_some hopen (by rw [(foldl_added_kept _ _ v).2]; exact hs)
  rw [deliverAndCheck_calm hcalm] at hfin
  rw [(hfin fun _ => .inr hcalm).seq, hopen]

/-- A POURING or PAUSED visit that meets no projection, or none is checked. -/
theorem visit_unmet (hs : v.state = .pouring ∨ v.state = .paused)
    (h : (gone c = [] ∧ b = false)
      ∨ projection (delivered c) ((gone c).foldl (added s.place.pourPoint) v) = none) (hfault : lost → s.meter.fault = true) :
    t.seq.visit = some ((gone c).foldl (added s.place.pourPoint) v) := by
  obtain ⟨-, hopen⟩ := delivered_open hc hl hv hpos (.inl (triggers_not_draining hs))
  rw [deliverAndCheck_unmet hopen h] at hfin
  rw [(hfin fun hlost => .inl (hfault hlost)).seq, hopen]

/-- A POURING or PAUSED visit takes the first projection that is met (R83, R85). -/
theorem visit_triggered (hs : v.state = .pouring ∨ v.state = .paused) (hcheck : gone c ≠ [] ∨ b = true) {r : EndReason}
    (hr : projection (delivered c) ((gone c).foldl (added s.place.pourPoint) v) = some r) :
    Triggered ((gone c).foldl (added s.place.pourPoint) v) r
      (atDelivery s (left c) c.meter.belt (delivered c).ship.accounts) t := by
  obtain ⟨hd, hopen⟩ := delivered_open hc hl hv hpos (.inl (triggers_not_draining hs))
  have hs' := hs
  rw [← (foldl_added_kept s.place.pourPoint (gone c) v).2] at hs'
  have hdue : (b || headDue c) = true := by
    rw [Bool.or_eq_true, headDue_iff]
    exact hcheck.symm
  have hmet : deliverAndCheck b c = takeTrigger r (delivered c) := by
    rw [deliverAndCheck_eq, if_pos hdue, checkProjections_met hopen hs' hr]
  rw [hmet] at hfin
  have htrig := ((takeTrigger_reaches r (delivered c)).2 _ hopen).1.finishes (hfin fun _ => .inr (takeTrigger_calm r _))
    fun hz => Eq.trans ((takeTrigger_changes r _).same .zero) hz
  rw [← delivered_belt c]
  exact htrig.ofDelivered hd (by rw [delivered_flight])

omit hfin in
/-- METER FAULT, set where no projection is met, is the trigger (R15, R84). -/
theorem visit_faulted (hs : v.state = .pouring ∨ v.state = .paused)
    (h : (gone c = [] ∧ b = false)
      ∨ projection (delivered c) ((gone c).foldl (added s.place.pourPoint) v) = none)
    (hlost : Finishes (setMeterFault (deliverAndCheck b c)) t) (hfault : s.meter.fault = false) :
    Triggered ((gone c).foldl (added s.place.pourPoint) v) .meterFault
      (atDelivery s (left c) c.meter.belt (delivered c).ship.accounts) t := by
  obtain ⟨hd, hopen⟩ := delivered_open hc hl hv hpos (.inl (triggers_not_draining hs))
  rw [deliverAndCheck_unmet hopen h] at hlost
  obtain ⟨-, -, hzero, -, -, hreaches, -⟩ := setMeterFault_set (delivered c)
  have hclear : (delivered c).meter.fault = false := Eq.trans (hd.changes.same .fault).1 hfault
  have htrig := ((hreaches hclear).2 _ hopen).1.finishes hlost fun _ => hzero
  rw [← delivered_belt c]
  exact htrig.ofDelivered hd (by rw [delivered_flight])

/-- The delivery that empties the queue completes a DRAINING visit (R35, R86, R87). -/
theorem visit_completes (hs : v.state = .draining) (hleft : left c = []) (hgone : gone c ≠ [])
    (hzero : s.meter.zero = none) : Completes ((gone c).foldl (added s.place.pourPoint) v)
      (atDelivery s (left c) c.meter.belt (delivered c).ship.accounts) t := by
  have hd := handOver_delivered hc hl hv
  have hseq := handOver_seq hc hv
  have hdelivered := delivered_completes hc hv hpos hs hgone hleft
  set u := handOver c.flight.segments c with hu
  have hcalm : Calm (delivered c) := by
    rw [hdelivered]
    exact (completeVisit_calm u).congr (by rw [(testHeldMove_kept _).2.1])
  rw [deliverAndCheck_calm hcalm, hdelivered] at hfin
  have hend := hfin fun _ => .inr (hdelivered ▸ hcalm)
  have hmove := testHeldMove_changes (completeVisit u)
  have hdone : Completes _ u (testHeldMove (completeVisit u)) :=
    (completeVisit_completes _ u (by rw [hseq])).leaves (OnlyChanges.seq_eq hmove) (OnlyChanges.ship_eq hmove)
      (OnlyChanges.bills_eq hmove) (hmove.sources srcBillMark)
  have hz : (testHeldMove (completeVisit u)).meter.zero = none := by
    rw [hmove.same .zero, (completeVisit_changes u).same .zero, hd.changes.same .zero, hzero]
  obtain ⟨-, hbills, hmark⟩ := hend.zero hz
  have hbelt : u.meter.belt = c.meter.belt := (handOver_changes _ c).same .belt
  have haccounts : u.ship.accounts = (delivered c).ship.accounts := by
    rw [hdelivered]
    exact (Eq.trans (hmove.same .accounts) ((completeVisit_changes u).same .accounts)).symm
  rw [← hbelt, ← haccounts]
  exact (hdone.leaves hend.seq hend.ship hbills hmark).ofDelivered hd

omit hl hv in
/-- A held move is released when the deliveries empty the queue outside a pour (R54). -/
theorem heldMove_released {m : HeldMove}
    (hs : ∀ v, s.seq.visit = some v → v.state = .waiting ∨ v.state = .armed ∨ v.state = .draining)
    (hm : s.place.held = some m) (hleft : left c = []) (hgone : gone c ≠ []) (hfeeder : s.gate.feeder ≠ .running) :
    t.place.held = none ∧ ((s.line.port .D).room = true → OnWire .D m.frame t) := by
  have hchanges := handOver_changes c.flight.segments c
  have hemptied := delivered_emptied hpos hgone hleft
  set u := handOver c.flight.segments c with hu
  have hvisit : ∀ v, u.seq.visit = some v → v.state = .waiting ∨ v.state = .armed ∨ v.state = .draining := by
    intro v hv
    cases hvs : s.seq.visit with
    | none =>
      rw [hu, (handOver_noVisit _ (by rw [OnlyChanges.seq_eq hc, hvs]))] at hv
      cases hv
    | some v' =>
      rw [hu, handOver_seq hc hvs] at hv
      obtain rfl := Option.some.inj hv
      rw [(foldl_added_kept _ _ v').2]
      exact hs v' hvs
  have htotal : u.flight.total = 0 := by
    have hflight : u.flight = (delivered c).flight := by
      rw [hemptied]
      exact ((queueEmptied_changes u).same .flight).symm
    rw [hflight, delivered_flight, hleft]
    rfl
  have hheld : u.place.held = some m := Eq.trans (hchanges.same .held) (Eq.trans (hc.same .held) hm)
  have hgate : u.gate.feeder ≠ .running := by
    rw [hchanges.gate_eq, hc.gate_eq]
    exact hfeeder
  have hline : u.line = s.line := hchanges.line_eq.trans hc.line_eq
  obtain ⟨hcalm, hreleased, hwire⟩ := queueEmptied_released hvisit htotal hheld hgate
  rw [← hemptied] at hcalm hreleased hwire
  rw [deliverAndCheck_calm hcalm] at hfin
  have hend := hfin fun _ => .inr hcalm
  refine ⟨hend.held.trans hreleased, fun hroom => ?_⟩
  rw [hline] at hwire
  have hwired := hwire hroom
  rw [OnWire] at hwired ⊢
  rw [show t.line.port .D = (delivered c).line.port .D from hend.portD]
  exact hwired

end

end Sys2Proof.Machine

end

section
/-! ## A sample that moves the belt, from the increment to the end of the event (R13, R27 to R35) -/

set_option Elab.async false

namespace Sys2Proof.Machine

/-! ### The increment in the queue (R28 to R30) -/

/-- Whether an increment joins the tail, opens a segment or is merged into the tail. -/
def joinsNow (sc : ScaleTable) (o b : Bool) (s : State) : Bool :=
  s.flight.segments.getLast?.any fun g => joinsTail s sc g o b
def opensNow (sc : ScaleTable) (o b : Bool) (s : State) : Bool :=
  !joinsNow sc o b s && decide (s.flight.segments.length < 64)
def mergesNow (sc : ScaleTable) (o b : Bool) (s : State) : Bool := !joinsNow sc o b s && !opensNow sc o b s

/-- The segment that an increment opens (R27, R29). -/
def newSegment (sc : ScaleTable) (m : Nat) (o b : Bool) (s : State) : Segment :=
  { number := s.flight.nextNumber, shipTag := s.ship.tag, opened := s.meter.belt, transit := transitNow s sc,
    arrival := arrivalNow s sc, mass := m, samples := 1, overload := o, gapBridged := b, coarse := false }

/-- The tail with an increment that joins it, or that is merged into it (R28, R30). -/
def Segment.grown (merges : Bool) (m : Nat) (o b : Bool) (g : Segment) : Segment :=
  { g with mass := g.mass + m, samples := min (g.samples + 1) 65535, overload := g.overload || merges && o
           gapBridged := g.gapBridged || merges && b, coarse := g.coarse || merges }

theorem takeIncrement_flight (sc : ScaleTable) (m : Nat) (o b : Bool) (s : State) : (takeIncrement sc m o b s).flight
    = { segments := if opensNow sc o b s then s.flight.segments ++ [newSegment sc m o b s]
          else s.flight.segments.dropLast
            ++ (s.flight.segments.getLast?.map (Segment.grown (mergesNow sc o b s) m o b)).toList
        nextNumber := s.flight.nextNumber + if opensNow sc o b s then 1 else 0 } := by
  rcases List.eq_nil_or_concat s.flight.segments with hnil | ⟨gs, g, htail⟩
  · have hopens : opensNow sc o b s = true := by simp [opensNow, joinsNow, hnil]
    rw [takeIncrement_empty hnil, hopens]
    rfl
  · rw [List.concat_eq_append] at htail
    have hjoins : joinsNow sc o b s = joinsTail s sc g o b := by
      rw [joinsNow, htail, List.getLast?_concat, Option.any_some]
    have hopens : opensNow sc o b s = (!joinsTail s sc g o b && decide (gs.length + 1 < 64)) := by
      rw [opensNow, hjoins, htail, List.length_append, List.length_singleton]
    rw [takeIncrement_tail htail]
    by_cases hj : joinsTail s sc g o b = true
    · simp [hj, hopens, mergesNow, hjoins, setTail_append htail, htail, Segment.joined, Segment.grown]
    · by_cases hroom : gs.length + 1 < 64
      · have hopens' : opensNow sc o b s = true := by rw [hopens]; simp [hj, hroom]
        rw [if_neg hj, if_pos hroom, hopens']
        rfl
      · rw [if_neg hj, if_neg hroom, mergeTail_flight, setTail_append htail]
        simp [hj, hroom, hopens, mergesNow, hjoins, htail, Segment.merged, Segment.joined, Segment.grown]

theorem takeIncrement_positive {sc : ScaleTable} {m : Nat} (hm : 0 < m) (o b : Bool) {s : State}
    (h : ∀ g ∈ s.flight.segments, 0 < g.mass) : ∀ g ∈ (takeIncrement sc m o b s).flight.segments, 0 < g.mass := by
  intro g hg
  rw [takeIncrement_flight] at hg
  change g ∈ (if _ then _ else _) at hg
  split at hg
  · rcases List.mem_append.1 hg with hg | hg
    · exact h g hg
    · rw [List.mem_singleton.1 hg]
      exact hm
  · rcases List.mem_append.1 hg with hg | hg
    · exact h g (List.mem_of_mem_dropLast hg)
    · obtain ⟨g', -, rfl⟩ := Option.map_eq_some_iff.1 (Option.mem_toList.1 hg)
      exact Nat.add_pos_right _ hm

theorem takeIncrement_coarse (sc : ScaleTable) (m : Nat) (o b : Bool) (s : State) :
    (takeIncrement sc m o b s).ladder.sources[srcSegmentCoarse]
      = if mergesNow sc o b s then ((s.ladder.sources[srcSegmentCoarse]).withCond true).raised
        else s.ladder.sources[srcSegmentCoarse] := by
  rcases List.eq_nil_or_concat s.flight.segments with hnil | ⟨gs, g, htail⟩
  · have hmerges : mergesNow sc o b s = false := by simp [mergesNow, opensNow, joinsNow, hnil]
    rw [takeIncrement_empty hnil, hmerges]
    rfl
  · rw [List.concat_eq_append] at htail
    have hmerges : mergesNow sc o b s = (!joinsTail s sc g o b && !decide (gs.length + 1 < 64)) := by
      simp only [mergesNow, opensNow, joinsNow, htail, List.getLast?_concat, Option.any_some, List.length_append,
        List.length_singleton]
      cases joinsTail s sc g o b <;> simp
    rw [takeIncrement_tail htail, hmerges]
    split
    next hj => simp [hj]
    next hj =>
      split
      next hroom =>
        simp [hroom]
        rfl
      next hfull =>
        rw [mergeTail_cond]
        simp [hj, hfull]

/-- The tail, where there is one, bounds the arrival of a segment that opens (R27). -/
theorem arrivalNow_eq (s : State) (sc : ScaleTable) : arrivalNow s sc
    = max (s.flight.segments.getLast?.elim 0 (·.arrival)) (s.meter.belt + transitNow s sc) := by
  unfold arrivalNow
  cases s.flight.segments.getLast? with
  | none => simp
  | some g => rfl

/-! ### The stages of the sample -/

/-- The mass that a sample hands over: none when it is position lost or faulted (R6, R8). -/
def handed (sc : ScaleTable) (load : Int) (t : Nat) (ok : Bool) (s : State) : Nat :=
  if t ≤ sc.gapLimit ∧ ok = true then increment sc load t s else 0

/-- The state from which a sample that moves the belt delivers. -/
def arriving (sc : ScaleTable) (load : Int) (t : Nat) (gap ok : Bool) (s : State) : State :=
  if t ≤ sc.gapLimit ∧ ok = true then incoming sc load t gap s else advanced t s

/-- What follows the deliveries of a sample that moves the belt. -/
def afterDeliveries (sc : ScaleTable) (load : Int) (t : Nat) (ok : Bool) (s : State) : State :=
  if t ≤ sc.gapLimit ∧ ok = true then collectZero sc load t (countClearing s) else setMeterFault s

theorem beltTravel_forward {sc : ScaleTable} {t : Nat} (ht : t < 32768) (load : Int) (gap ok : Bool) (s : State) :
    beltTravel sc load t gap ok s = afterDeliveries sc load t ok
      (deliverAndCheck (decide (0 < handed sc load t ok s)) (arriving sc load t gap ok s)) := by
  unfold afterDeliveries handed arriving
  by_cases h : t ≤ sc.gapLimit ∧ ok = true
  · obtain ⟨hgap, rfl⟩ := h
    rw [beltTravel_normal ht hgap, if_pos ⟨hgap, rfl⟩, if_pos ⟨hgap, rfl⟩, if_pos ⟨hgap, rfl⟩]
  · rw [if_neg h, if_neg h, if_neg h, beltTravel_lost ht]
    · rfl
    · by_contra hcon
      rw [not_or, Nat.not_lt, Bool.not_eq_false] at hcon
      exact h hcon

theorem lost_iff {sc : ScaleTable} {t : Nat} {ok : Bool} :
    ¬ (t ≤ sc.gapLimit ∧ ok = true) ↔ sc.gapLimit < t ∨ ok = false := by
  rw [not_and_or, Nat.not_le, Bool.not_eq_true]

theorem arriving_changes (sc : ScaleTable) (load : Int) (t : Nat) (gap ok : Bool) (s : State) :
    OnlyChanges incomingBlocks s (arriving sc load t gap ok s) := by
  unfold arriving
  split
  · exact incoming_changes _ _ _ _ _
  · exact (advanced_changes _ _).mono

theorem arriving_leaves (sc : ScaleTable) (load : Int) (t : Nat) (gap ok : Bool) (s : State) :
    LeavesSources [srcBeltReverse, srcZeroDrift, srcSegmentCoarse] s (arriving sc load t gap ok s) := by
  unfold arriving
  split
  · exact incoming_leaves _ _ _ _ _
  · exact (advanced_leaves _ _).mono

theorem arriving_belt (sc : ScaleTable) (load : Int) (t : Nat) (gap ok : Bool) (s : State) :
    (arriving sc load t gap ok s).meter.belt = addBelt s.meter.belt t := by
  unfold arriving
  split
  · exact incoming_belt _ _ _ _ _
  · obtain ⟨-, -, -, -, -, -, -, -, -, -, hmeter⟩ := advanced_kept t s
    rw [hmeter]

/-- A sample that hands nothing over leaves the queue as it stands, and its alarm. -/
theorem arriving_none {sc : ScaleTable} {load : Int} {t : Nat} {ok : Bool} {s : State} (h : handed sc load t ok s = 0)
    (gap : Bool) : (arriving sc load t gap ok s).flight = s.flight
      ∧ (arriving sc load t gap ok s).ladder.sources[srcSegmentCoarse] = s.ladder.sources[srcSegmentCoarse] := by
  unfold handed at h
  unfold arriving
  split
  next hok =>
    rw [if_pos hok] at h
    rw [incoming, if_neg (by omega)]
    exact ⟨(weighedSample_kept sc load t s).1, weighedSample_leaves sc load t s _ (by decide)⟩
  · obtain ⟨-, -, -, -, hflight, -⟩ := advanced_kept t s
    exact ⟨hflight, advanced_leaves t s _ (by decide)⟩

/-- A sample that hands an increment over has it taken by the Flight Queue. -/
theorem arriving_some {sc : ScaleTable} {load : Int} {t : Nat} {ok : Bool} {s : State} (h : 0 < handed sc load t ok s)
    (gap : Bool) : arriving sc load t gap ok s
      = takeIncrement sc (handed sc load t ok s) (overloaded (netLoad (load - s.meter.offset) sc.span) sc.capacity) gap
          (weighedSample sc load t s) := by
  unfold handed at h ⊢
  unfold arriving
  split
  next hok =>
    rw [if_pos hok] at h
    rw [incoming, if_pos h]
  next hok =>
    rw [if_neg hok] at h
    cases h

theorem arriving_positive (sc : ScaleTable) (load : Int) (t : Nat) (gap ok : Bool) {s : State}
    (h : ∀ g ∈ s.flight.segments, 0 < g.mass) : ∀ g ∈ (arriving sc load t gap ok s).flight.segments, 0 < g.mass := by
  rcases Nat.eq_zero_or_pos (handed sc load t ok s) with hz | hm
  · rw [(arriving_none hz gap).1]
    exact h
  · rw [arriving_some hm]
    refine takeIncrement_positive hm _ _ ?_
    rw [(weighedSample_kept sc load t s).1]
    exact h

theorem afterDeliveries_lost {sc : ScaleTable} {t : Nat} {ok : Bool} (h : sc.gapLimit < t ∨ ok = false) (load : Int)
    (s : State) : afterDeliveries sc load t ok s = setMeterFault s := if_neg (lost_iff.2 h)

theorem afterDeliveries_finishes {sc : ScaleTable} {t : Nat} {ok : Bool} {s : State}
    (h : sc.gapLimit < t ∨ ok = false → s.meter.fault = true ∨ Calm s) (load : Int) :
    Finishes s (afterDeliveries sc load t ok s) := by
  unfold afterDeliveries
  split
  · exact (countClearing_finishes s).trans (collectZero_finishes _ _ _ _)
  next hlost => exact setMeterFault_finishes (h (lost_iff.1 hlost))

theorem afterDeliveries_changes (sc : ScaleTable) (load : Int) (t : Nat) (ok : Bool) (s : State) :
    OnlyChanges (.offset :: .drift :: faultBlocks) s (afterDeliveries sc load t ok s) := by
  unfold afterDeliveries
  split
  · exact (countClearing_changes s).mono.trans (collectZero_changes _ _ _ _).mono
  · exact (setMeterFault_changes s).mono

theorem afterDeliveries_leaves (sc : ScaleTable) (load : Int) (t : Nat) (ok : Bool) (s : State) :
    LeavesSources (srcZeroDrift :: faultSources) s (afterDeliveries sc load t ok s) := by
  unfold afterDeliveries
  split
  · exact (countClearing_leaves s).mono.trans (collectZero_leaves _ _ _ _).mono
  · exact (setMeterFault_leaves s).mono

/-- What the check of the projections and the steps after it leave of a sample's deliveries. -/
theorem delivered_end {sc : ScaleTable} {load : Int} {t : Nat} {ok b : Bool} {pos : BitVec 16} {q : Byte} {c t' : State}
    (hclosed : Closes (settled pos q (afterDeliveries sc load t ok (deliverAndCheck b c))) t')
    (hflight : t'.flight = (settled pos q (afterDeliveries sc load t ok (deliverAndCheck b c))).flight) :
    t'.flight = (delivered c).flight ∧ t'.ship.accounts = (delivered c).ship.accounts
      ∧ LeavesSources [srcMeterFault, srcZeroDrift, srcCloseoutNotIssued, srcTrimBound, srcBillMark] (delivered c) t' := by
  have hc : OnlyChanges (.prev :: .silence :: .offset :: .drift :: faultBlocks) (delivered c)
      (settled pos q (afterDeliveries sc load t ok (deliverAndCheck b c))) := by
    refine OnlyChanges.trans ?_ ((afterDeliveries_changes _ _ _ _ _).mono.trans (settled_changes _ _ _).mono)
    rw [deliverAndCheck_eq]
    split
    · exact (checkProjections_changes _).mono
    · exact .refl _ _
  have hl : LeavesSources [srcMeterFault, srcZeroDrift, srcCloseoutNotIssued, srcTrimBound, srcBillMark] (delivered c)
      (settled pos q (afterDeliveries sc load t ok (deliverAndCheck b c))) := by
    refine LeavesSources.trans ?_ ((afterDeliveries_leaves _ _ _ _ _).mono.trans (settled_leaves _ _ _ _))
    rw [deliverAndCheck_eq]
    split
    · exact (checkProjections_leaves _).mono
    · exact .refl _ _
  obtain ⟨-, -, hship, -, -, -, -, -, -, hsources, -⟩ := hclosed
  refine ⟨hflight.trans (hc.same .flight), ?_, fun j hj => ?_⟩
  · rw [hship]
    exact hc.same .accounts
  · rw [hsources]
    exact hl j hj

end Sys2Proof.Machine

end

section
/-! ## Delivery from the head: the statement (R31 to R35) -/

set_option Elab.async false

open Sys2Proof Sys2Proof.Machine

/-- Settles O29. -/
theorem deliveryFromTheHead : Obligations.DeliveryFromTheHead := by
  intro s e rest load pos p q ok sc h hp hs hsc hprev hforward travel n m E transit overNow gapNow segs tail joins opens
    merges opened grown fed due credit' s1 gone' left' pour added' astray' raises coarse coarse' u
  have hc1 : OnlyChanges _ s s1 := takeHead_changes .D e rest .beltSample s
  have hmeter1 : s1.meter = s.meter := OnlyChanges.meter_eq hc1
  have hflight1 : s1.flight = s.flight := hc1.same .flight
  have haxes1 : s1.place.axes = s.place.axes := hc1.same .axes
  have hpour1 : s1.place.pourPoint = s.place.pourPoint := (hc1.same .placement).2
  have haccounts1 : s1.ship.accounts = s.ship.accounts := hc1.same .accounts
  have htag1 : s1.ship.tag = s.ship.tag := by
    obtain ⟨hstate, hnumber⟩ := hc1.same .ship
    rw [ShipAccount.tag, ShipAccount.tag, hstate, hnumber]
  -- the state from which the sample delivers
  set c := arriving sc load travel gapNow ok s1 with hcdef
  have hm : handed sc load travel ok s1 = m := by rw [handed, increment, hmeter1]
  have hc : OnlyChanges incomingBlocks s1 c := arriving_changes _ _ _ _ _ _
  have hl : LeavesSources _ s1 c := arriving_leaves _ _ _ _ _ _
  have hbelt : c.meter.belt = E := by rw [hcdef, arriving_belt, hmeter1]
  have hflight : c.flight.segments = fed
      ∧ c.flight.nextNumber = s.flight.nextNumber + (if 0 < m ∧ opens = true then 1 else 0)
      ∧ c.ladder.sources[srcSegmentCoarse] = coarse' := by
    rcases Nat.eq_zero_or_pos m with hzero | hmpos
    · obtain ⟨hkept, hkeptCoarse⟩ := arriving_none (hm.trans hzero) gapNow
      have hfed : fed = segs := if_pos hzero
      have hcoarse : coarse' = coarse := if_neg fun hx => absurd hzero hx.1.ne'
      rw [hfed, hcoarse, if_neg fun hx => absurd hzero hx.1.ne', hcdef, hkept, hflight1]
      exact ⟨rfl, (BitVec.add_zero _).symm, hkeptCoarse⟩
    · have htaken : c = takeIncrement sc m overNow gapNow (weighedSample sc load travel s1) := by
        rw [hcdef, arriving_some (by rw [hm]; exact hmpos), hm, hmeter1]
        rfl
      set w := weighedSample sc load travel s1 with hw
      obtain ⟨hwflight, hwtransit, hwtag⟩ := weighedSample_kept sc load travel s1
      rw [← hw, hflight1] at hwflight
      have hwbelt : w.meter.belt = E := by rw [hw, weighedSample_belt, hmeter1]
      have hwnow : transitNow w sc = transit := by rw [hw, hwtransit, transitNow, haxes1]
      have hjoins : joinsNow sc overNow gapNow w = joins := by
        rw [joinsNow, hwflight]
        refine congrArg (Option.any · tail) (funext fun g => ?_)
        rw [Bool.eq_iff_iff, joinsTail_iff, decide_eq_true_iff, hwbelt, hwnow, hw, hwtag, htag1]
      have hopens : opensNow sc overNow gapNow w = opens := by rw [opensNow, hjoins, hwflight]
      have hmerges : mergesNow sc overNow gapNow w = merges := by rw [mergesNow, hjoins, hopens]
      have hopened : newSegment sc m overNow gapNow w = opened := by
        rw [newSegment, arrivalNow_eq, hwflight, hwbelt, hwnow, hw, hwtag, htag1]
      have hwcoarse : w.ladder.sources[srcSegmentCoarse] = coarse := weighedSample_leaves sc load travel s1 _ (by decide)
      rw [htaken, takeIncrement_flight, takeIncrement_coarse, hopens, hmerges, hopened, hwflight, hwcoarse]
      refine ⟨?_, ?_, ?_⟩
      · exact (if_neg hmpos.ne').symm
      · simp only [hmpos, true_and]
      · simp only [coarse', hmpos, true_and]
  obtain ⟨hfed, hnumber, hcoarse⟩ := hflight
  have hgone : gone c = gone' := by rw [gone, hfed, hbelt]; rfl
  have hleft : left c = left' := by rw [left, hfed, hbelt]; rfl
  have hpour : c.place.pourPoint = pour := Eq.trans (hc.same .placement).2 hpour1
  have htaken : takeBelt e.frame.seq load pos ok s1
      = settled pos e.frame.seq (afterDeliveries sc load travel ok (deliverAndCheck (decide (0 < m)) c)) := by
    rw [takeBelt_next (by rw [hmeter1, hsc]) (by rw [hmeter1, hprev]), beltTravel_forward hforward, hm]
  refine takes_belt h hp hs (takeBelt_changes _ _ _ _ _) fun t hclosed hheld hflight _ => ?_
  rw [← show s1 = takeHead .D e rest .beltSample s from rfl, htaken] at hclosed hheld hflight
  obtain ⟨hflightT, haccountsT, hleavesT⟩ := delivered_end hclosed hflight
  have hend : Finishes (afterDeliveries sc load travel ok (deliverAndCheck (decide (0 < m)) c)) t :=
    (settled_finishes pos e.frame.seq _).trans (hclosed.finishes hheld hflight)
  have hfin : (sc.gapLimit < travel ∨ ok = false → s1.meter.fault = true ∨ Calm (deliverAndCheck (decide (0 < m)) c)) →
      Finishes (deliverAndCheck (decide (0 < m)) c) t := by
    intro hlost
    refine (afterDeliveries_finishes (fun hx => ?_) load).trans hend
    rw [deliverAndCheck_fault, (hc.same .fault).1]
    exact hlost hx
  have haccounts : (delivered c).ship.accounts = gone'.foldl credit' s.ship.accounts := by
    rw [delivered, deliverDue_accounts, hpour, hc.same .accounts, haccounts1]
    exact congrArg (List.foldl _ _) hgone
  have hu : atDelivery s1 (left c) c.meter.belt (delivered c).ship.accounts = u := by
    rw [hleft, hbelt, haccounts, ← haccounts1]
    rfl
  refine ⟨?_, ?_, ?_, ?_, ?_, ?_, fun hnone => ?_, fun hpos => ?_⟩
  · rw [hflightT, delivered_flight, hleft]
  · rw [hflightT, delivered_flight, hnumber]
  · rw [haccountsT, haccounts]
  · rw [hleavesT _ (by decide), delivered, deliverDue_stray, hl _ (by decide)]
    exact congrArg (List.foldl _ _) hgone
  · rw [hleavesT _ (by decide), delivered, deliverDue_unplaced, hl _ (by decide), hpour]
    exact congrArg (List.foldl _ _) hgone
  · rw [hleavesT _ (by decide), delivered, deliverDue_coarse, hcoarse, ← hgone, ← hleft]
    rfl
  · have hcnone : c.seq.visit = none := by rw [OnlyChanges.seq_eq hc, hnone]
    obtain ⟨hvisit, hunbilled⟩ := deliverDue_noVisit c.flight.segments hcnone
    have hcalm : Calm (delivered c) := calm_none hvisit
    rw [deliverAndCheck_calm hcalm] at hfin
    have hend := hfin fun _ => .inr hcalm
    refine ⟨by rw [hend.seq]; exact hvisit, ?_⟩
    rw [hend.unbilled, delivered, hunbilled, OnlyChanges.bills_eq hc, ← hgone]
    rfl
  · have hposc : ∀ g ∈ c.flight.segments, 0 < g.mass :=
      arriving_positive sc load travel gapNow ok (by rw [hflight1]; exact hpos)
    refine ⟨?_, ?_, ?_⟩
    · rw [hleavesT _ (by decide), delivered_offPlan hposc, hl _ (by decide), hpour, OnlyChanges.seq_eq hc, hgone]
      rfl
    · intro v hv w checked
      have hw : (gone c).foldl (added s1.place.pourPoint) v = w := by rw [hgone, hpour1]; rfl
      have hproj (hs : checked) : projection (delivered c) ((gone c).foldl (added s1.place.pourPoint) v)
          = projection u w := by
        obtain ⟨hd, -⟩ := delivered_open hc hl hv hposc (.inl (triggers_not_draining hs))
        rw [← projection_atDelivery hd (by rw [delivered_flight]), delivered_belt, hu, hw]
      have hnothing (hs : checked) (hnone : (gone' = [] ∧ m = 0) ∨ projection u w = none) :
          (gone c = [] ∧ decide (0 < m) = false)
            ∨ projection (delivered c) ((gone c).foldl (added s1.place.pourPoint) v) = none :=
        hnone.imp (fun ⟨hx, hy⟩ => ⟨hgone.trans hx, by simp [hy]⟩) (hproj hs).trans
      refine ⟨fun hs hopen => ?_, fun hs hnone hfault => ?_, fun r hs hcheck hr => ?_, fun hs hnone hlost hfault => ?_,
        fun hs hempty hne hzero => ?_⟩
      · rw [← hw]
        exact visit_uncalled hc hl hfin hposc hv hs (by rw [hleft, hgone]; exact hopen)
      · rw [← hw]
        exact visit_unmet hc hl hfin hposc hv hs (hnothing hs hnone) hfault
      · rw [← hw, ← hu]
        exact visit_triggered hc hl hfin hposc hv hs (by rw [hgone]; exact hcheck.imp_right fun hx => decide_eq_true hx)
          ((hproj hs).trans hr)
      · rw [← hw, ← hu]
        exact visit_faulted hc hl hposc hv hs (hnothing hs hnone) (afterDeliveries_lost hlost load _ ▸ hend) hfault
      · rw [← hw, ← hu]
        exact visit_completes hc hl hfin hposc hv hs (hleft.trans hempty) (by rw [hgone]; exact hne)
          (by rw [hmeter1]; exact hzero)
    · intro m' hm' hne hempty hfeeder hs
      exact heldMove_released hc hfin hposc hs hm' (hleft.trans hempty) (by rw [hgone]; exact hne) hfeeder

end

section
/-! ## A normal sample's totals, drift, clearing run and ZERO operation (R9 to R16, R20 to R23) -/

set_option Elab.async false

namespace Sys2Proof.Machine

/-! ### The totals (R13) -/

theorem weigh_weighed (m : Nat) (s : State) : (weigh m s).ship.weighed
    = if s.ship.state = .open then addMass s.ship.weighed m else s.ship.weighed := by
  unfold weigh
  cases s.ship.state <;> simp

theorem weigh_unassigned (m : Nat) (s : State) : (weigh m s).ship.unassigned
    = if s.ship.state = .open then s.ship.unassigned else addMass s.ship.unassigned m := by
  unfold weigh
  cases s.ship.state <;> simp

/-! ### The drift total (R11, R12) -/

theorem addDrift_drift (d : Nat) (s : State) :
    (addDrift d s).meter.drift = if 0 < d then addMass s.meter.drift d else s.meter.drift := by
  unfold addDrift
  split
  · obtain ⟨-, hmeter, -⟩ := evalDrift_kept { s with meter := { s.meter with drift := addMass s.meter.drift d } }
    rw [hmeter]
  · rfl

theorem addDrift_source_zero (s : State) : addDrift 0 s = s := if_neg (by omega)

theorem addDrift_source {d : Nat} (hd : 0 < d) {s : State} {sc : ScaleTable} (hsc : s.meter.table = some sc) :
    (addDrift d s).ladder.sources[srcZeroDrift]
      = let x := s.ladder.sources[srcZeroDrift]
        if addMass s.meter.drift d ≤ sc.driftLimit * 1000000 then x.withCond false
        else if x.cond then x.withCond true else (x.withCond true).raised := by
  have heq : addDrift d s
      = driftSet (decide (sc.driftLimit * 1000000 < addMass s.meter.drift d))
          { s with meter := { s.meter with drift := addMass s.meter.drift d } } := by
    rw [addDrift, if_pos hd]
    exact evalDrift_eq (s := { s with meter := { s.meter with drift := addMass s.meter.drift d } }) hsc
  rw [heq, driftSet_source]
  by_cases hle : addMass s.meter.drift d ≤ sc.driftLimit * 1000000
  · simp [hle, Nat.not_lt.2 hle]
  · simp only [hle, Nat.not_le.1 hle, decide_true, Bool.true_and]
    cases (s.ladder.sources[srcZeroDrift]).cond <;> simp

/-! ### The clearing run (R16) -/

theorem countClearing_meter (s : State) : (countClearing s).meter
    = { s.meter with
        fault := s.meter.fault && decide (s.meter.clearing + 1 < 3)
        clearing := if s.meter.fault then (if s.meter.clearing + 1 < 3 then s.meter.clearing + 1 else 0)
          else s.meter.clearing } := by
  unfold countClearing
  by_cases hf : s.meter.fault = true
  · by_cases hn : 3 ≤ s.meter.clearing + 1
    · rw [if_pos hf, if_pos hn]
      simp [hf, Nat.not_lt.2 hn]
    · rw [if_pos hf, if_neg hn]
      simp [hf, Nat.not_le.1 hn]
  · rw [if_neg hf]
    cases hm : s.meter
    simp_all

theorem countClearing_source (s : State) : (countClearing s).ladder.sources[srcMeterFault]
    = if s.meter.fault = true ∧ 2 ≤ s.meter.clearing then (s.ladder.sources[srcMeterFault]).withCond false
      else s.ladder.sources[srcMeterFault] := by
  unfold countClearing
  by_cases hf : s.meter.fault = true
  · by_cases hn : 3 ≤ s.meter.clearing + 1
    · rw [if_pos hf, if_pos hn, setCond_same, if_pos ⟨hf, by omega⟩]
    · rw [if_pos hf, if_neg hn, if_neg fun hx => hn (by omega)]
  · rw [if_neg hf, if_neg fun hx => hf hx.1]

/-! ### The ZERO operation (R20 to R23) -/

/-- The ZERO operation `z` has ended in `t` with the record of its outcome the last, and its notice offered in `y`. -/
def ZeroEnded (z : ZeroOp) (o : ZeroOutcome) (n : Int) (y t : State) : Prop :=
  t.meter.zero = none
    ∧ t.bills.records.getLast? = some ⟨t.bills.nextSeq - 1, .zero z.oldOffset n o z.travel⟩
    ∧ Offered .U (zeroDone y o (t.bills.nextSeq - 1)) y t

theorem ZeroEnded.from {z : ZeroOp} {o : ZeroOutcome} {n : Int} {y y' t : State} (h : ZeroEnded z o n y' t)
    (hh : y'.handler = y.handler) (hl : y'.line = y.line) : ZeroEnded z o n y t := by
  obtain ⟨hzero, hrecord, hoffered⟩ := h
  refine ⟨hzero, hrecord, ?_⟩
  rw [zeroDone, hh, Offered, hl] at hoffered
  exact hoffered

theorem endZero_ended {z : ZeroOp} (o : ZeroOutcome) (n : Int) {s : State} (h : s.meter.zero = some z) :
    ZeroEnded z o n s (endZero o n s) ∧ (endZero o n s).meter = { s.meter with zero := none } := by
  obtain ⟨hrecords, hnext, -, -⟩ := issue_spec true (.zero z.oldOffset n o z.travel) s
  obtain ⟨-, -, -, -, hhandler, -, -, hmeter, hline⟩ := issue_kept true (.zero z.oldOffset n o z.travel) s
  set u := issue true (.zero z.oldOffset n o z.travel) s with hu
  set u' : State := { u with meter := { u.meter with zero := none } } with hu'
  have heq : endZero o n s = notice (4 :: o.code :: beBytes 4 s.bills.nextSeq.toNat) u' := by
    simp only [endZero, h]
    rfl
  have hprev : u.bills.nextSeq - 1 = s.bills.nextSeq := by rw [hnext, BitVec.add_sub_cancel]
  have hbills : (notice (4 :: o.code :: beBytes 4 s.bills.nextSeq.toNat) u').bills = u.bills := by simp [hu']
  rw [heq]
  refine ⟨⟨by simp [hu'], ?_, fun hroom => ?_⟩, by simp [hu', hmeter]⟩
  · rw [hbills, hprev, hrecords, List.getLast?_concat]
  · rw [hbills, hprev]
    have hframe : zeroDone s o s.bills.nextSeq = zeroDone u' o s.bills.nextSeq := by
      rw [zeroDone, zeroDone, ← hhandler]
    rw [hframe]
    exact offer_onWire .U _ u' (by rw [show u'.line = s.line from hline]; exact hroom)

/-- A ZERO operation with a normal sample's travel and load collected (R20). -/
def ZeroOp.collected (z : ZeroOp) (load : Int) (t : Nat) : ZeroOp :=
  { z with travel := z.travel + t, loadTravel := z.loadTravel + load * t }

section
variable {sc : ScaleTable} {load : Int} {t : Nat} {z : ZeroOp} {y : State} (hz : y.meter.zero = some z)
include hz

theorem collectZero_loaded (hload : ¬ (load - y.meter.offset).natAbs * sc.span < 1024 * sc.deadBand) :
    ZeroEnded z .loaded y.meter.offset y (collectZero sc load t y)
      ∧ (collectZero sc load t y).meter = { y.meter with zero := none } := by
  have heq : collectZero sc load t y = endZero .loaded y.meter.offset y := by
    simp only [collectZero, hz]
    exact if_pos (Nat.not_lt.1 hload)
  rw [heq]
  exact endZero_ended _ _ hz

theorem collectZero_bare (hbare : (load - y.meter.offset).natAbs * sc.span < 1024 * sc.deadBand) :
    collectZero sc load t y
      = if sc.beltLength ≤ z.travel + t then completeZero sc (z.collected load t) y
        else { y with meter := { y.meter with zero := some (z.collected load t) } } := by
  simp only [collectZero, hz]
  exact if_neg (Nat.not_le.2 hbare)

omit hz in
theorem completeZero_zeroed (z : ZeroOp) (hsc : y.meter.table = some sc)
    (hshift : (collectedOffset z - y.meter.offset).natAbs ≤ sc.zeroShiftLimit) :
    ZeroEnded z .zeroed (collectedOffset z) y (completeZero sc z y)
      ∧ (completeZero sc z y).meter = { y.meter with zero := none, offset := collectedOffset z, drift := 0 }
      ∧ ((completeZero sc z y).ladder.sources[srcZeroDrift]).cond = false := by
  set x : State := { y with meter := { y.meter with zero := some z, offset := collectedOffset z, drift := 0 } } with hx
  have heq : completeZero sc z y = endZero .zeroed (collectedOffset z) (evalDrift x) := if_pos hshift
  obtain ⟨hhandler, hmeter, -⟩ := evalDrift_kept x
  obtain ⟨hended, hmeter'⟩ := endZero_ended .zeroed (collectedOffset z) (s := evalDrift x) (z := z) (by rw [hmeter])
  rw [heq]
  refine ⟨hended.from hhandler (evalDrift_changes x).line_eq, by rw [hmeter', hmeter], ?_⟩
  rw [endZero_leaves _ _ _ _ (by decide), evalDrift_eq (sc := sc) (by rw [hx]; exact hsc), driftSet_cond]
  simp [hx]

omit hz in
theorem completeZero_rejected (z : ZeroOp)
    (hshift : sc.zeroShiftLimit < (collectedOffset z - y.meter.offset).natAbs) :
    ZeroEnded z .rejected (collectedOffset z) y (completeZero sc z y)
      ∧ (completeZero sc z y).meter = { y.meter with zero := none } := by
  set x : State := { y with meter := { y.meter with zero := some z } } with hx
  have heq : completeZero sc z y = endZero .rejected (collectedOffset z) x := if_neg (Nat.not_le.2 hshift)
  obtain ⟨hended, hmeter⟩ := endZero_ended .rejected (collectedOffset z) (s := x) (z := z) rfl
  rw [heq]
  exact ⟨hended.from rfl rfl, hmeter⟩

end

/-! ### The sample before its deliveries -/

/-- What a normal sample adds to the drift total (R11). -/
def driftOf (sc : ScaleTable) (load : Int) (t : Nat) (s : State) : Nat :=
  driftMass (clampLoad (netLoad (load - s.meter.offset) sc.span) sc.capacity) sc.deadBand t

/-- The state with the sample's drift added (R11, R12). -/
def drifted (sc : ScaleTable) (load : Int) (t : Nat) (s : State) : State :=
  addDrift (driftOf sc load t s) (setCond srcBeltReverse false s)

theorem weighedSample_eq (sc : ScaleTable) (load : Int) (t : Nat) (s : State) :
    weighedSample sc load t s = advanceBelt t (weigh (increment sc load t s) (drifted sc load t s)) := rfl

theorem drifted_changes (sc : ScaleTable) (load : Int) (t : Nat) (s : State) :
    OnlyChanges [.drift, .sources, .conds] s (drifted sc load t s) :=
  (setCond_changes _ _ s).mono.trans (addDrift_changes _ _)

/-- The increment's way into the queue, after the sample has been weighed. -/
theorem incoming_from_weighed (sc : ScaleTable) (load : Int) (t : Nat) (gap : Bool) (s : State) :
    OnlyChanges [.belt, .flight, .sources, .conds] (weigh (increment sc load t s) (drifted sc load t s))
        (incoming sc load t gap s)
      ∧ LeavesSources [srcSegmentCoarse] (weigh (increment sc load t s) (drifted sc load t s)) (incoming sc load t gap s) := by
  unfold incoming
  split
  · exact ⟨(advanceBelt_changes t _).mono.trans (takeIncrement_changes _ _ _ _ _).mono,
      .trans .ladder (takeIncrement_leaves _ _ _ _ _)⟩
  · exact ⟨(advanceBelt_changes t _).mono, .ladder⟩

theorem incoming_totals (sc : ScaleTable) (load : Int) (t : Nat) (gap : Bool) (s : State) :
    (incoming sc load t gap s).ship.weighed
        = (if s.ship.state = .open then addMass s.ship.weighed (increment sc load t s) else s.ship.weighed)
      ∧ (incoming sc load t gap s).ship.unassigned
        = (if s.ship.state = .open then s.ship.unassigned else addMass s.ship.unassigned (increment sc load t s)) := by
  obtain ⟨hc, -⟩ := incoming_from_weighed sc load t gap s
  have hship : (drifted sc load t s).ship = s.ship := OnlyChanges.ship_eq (drifted_changes sc load t s)
  refine ⟨Eq.trans (hc.same .weighed) ?_, Eq.trans (hc.same .unassigned) ?_⟩
  · rw [weigh_weighed, hship]
  · rw [weigh_unassigned, hship]

theorem incoming_drift (sc : ScaleTable) (load : Int) (t : Nat) (gap : Bool) (s : State) :
    (incoming sc load t gap s).meter.drift
      = if 0 < driftOf sc load t s then addMass s.meter.drift (driftOf sc load t s) else s.meter.drift := by
  obtain ⟨hc, -⟩ := incoming_from_weighed sc load t gap s
  have hmeter : (setCond srcBeltReverse false s).meter = s.meter := by simp
  refine Eq.trans (hc.same .drift) (Eq.trans ((weigh_changes _ _).same .drift) ?_)
  rw [drifted, addDrift_drift, hmeter]

/-- ZERO_DRIFT is evaluated where the drift total has grown (R12). -/
theorem incoming_zeroDrift {sc : ScaleTable} {s : State} (hsc : s.meter.table = some sc) (load : Int) (t : Nat) (gap : Bool) :
    (incoming sc load t gap s).ladder.sources[srcZeroDrift]
      = let x := s.ladder.sources[srcZeroDrift]
        if driftOf sc load t s = 0 then x
        else if addMass s.meter.drift (driftOf sc load t s) ≤ sc.driftLimit * 1000000 then x.withCond false
        else if x.cond then x.withCond true else (x.withCond true).raised := by
  obtain ⟨-, hl⟩ := incoming_from_weighed sc load t gap s
  have hweigh : (weigh (increment sc load t s) (drifted sc load t s)).ladder = (drifted sc load t s).ladder := by
    unfold weigh
    split <;> rfl
  have hreverse : (setCond srcBeltReverse false s).ladder.sources[srcZeroDrift] = s.ladder.sources[srcZeroDrift] :=
    setCond_source _ _ s _ (by decide)
  have hmeter : (setCond srcBeltReverse false s).meter = s.meter := by simp
  rw [hl _ (by decide), hweigh, drifted]
  rcases Nat.eq_zero_or_pos (driftOf sc load t s) with hd | hd
  · rw [hd, addDrift_source_zero, hreverse]
    simp
  · rw [addDrift_source hd (sc := sc) (by rw [hmeter, hsc]), hreverse, hmeter]
    simp only [hd.ne', if_false]

end Sys2Proof.Machine

open Sys2Proof Sys2Proof.Machine

/-- Settles O25. -/
theorem beltNormalSample : Obligations.BeltNormalSample := by
  intro s e rest load pos p q sc h hp hs hsc hprev hgap hforward travel n m d drift x
  obtain ⟨hready, -, -⟩ := inspect_D_sample h.2 (by simp) (by simp) (by simp)
  set s1 := takeHead .D e rest .beltSample s with hs1
  have hc1 : OnlyChanges _ s s1 := takeHead_changes .D e rest .beltSample s
  have hl1 : LeavesSources _ s s1 := takeHead_D_leaves e rest .beltSample s
  obtain ⟨hready1, hhandler1⟩ := takeHead_D_ready e rest .beltSample s
  have hmeter1 : s1.meter = s.meter := OnlyChanges.meter_eq hc1
  have hm : increment sc load travel s1 = m := by rw [increment, hmeter1]
  have hd : driftOf sc load travel s1 = d := by rw [driftOf, hmeter1]; rfl
  -- before the deliveries, after them, with the clearing run counted, and with the sample offered to the ZERO operation
  set c := incoming sc load travel (e.frame.seq != q + 1) s1 with hc
  set y := countClearing (deliverAndCheck (decide (0 < m)) c) with hy
  set u := collectZero sc load travel y with hu
  have htaken : takeBelt e.frame.seq load pos true s1 = settled pos e.frame.seq u := by
    rw [takeBelt_next (by rw [hmeter1, hsc]) (by rw [hmeter1, hprev]), beltTravel_normal hforward hgap, hm]
  have hcc : OnlyChanges incomingBlocks s1 c := incoming_changes _ _ _ _ _
  have hcy : OnlyChanges (.fault :: arrivalBlocks) c y :=
    (deliverAndCheck_changes _ c).mono.trans (countClearing_changes _).mono
  have hcu : OnlyChanges collectionBlocks y u := collectZero_changes _ _ _ _
  have hly : LeavesSources (srcMeterFault :: srcCloseoutNotIssued :: deliverySources) c y :=
    (deliverAndCheck_leaves _ c).mono.trans (countClearing_leaves _).mono
  have hoffset : y.meter.offset = s.meter.offset := by
    rw [hcy.same .offset, hcc.same .offset, hmeter1]
  have hzero : y.meter.zero = s.meter.zero := by
    rw [hcy.same .zero, hcc.same .zero, hmeter1]
  have htable : y.meter.table = some sc := by
    rw [hcy.same .scale, hcc.same .scale, hmeter1, hsc]
  have hdrift : y.meter.drift = drift := by
    rw [hcy.same .drift, incoming_drift, hd, hmeter1]
  have hhandler : y.handler = s.handler := by rw [hcy.handler, hcc.handler, hhandler1]
  refine takes_belt h hp hs (takeBelt_changes _ _ _ _ _) fun t hclosed _ _ hoffered => ?_
  rw [← hs1, htaken] at hclosed
  have htableU : u.meter.table = some sc := Eq.trans (hcu.same .scale) htable
  have hreadyU : u.ready = true := by
    rw [State.ready, (hcu.same .part).1, (hcy.same .part).1, (hcc.same .part).1]
    exact hready1.trans hready
  have hnowU : u.now = s.now := by rw [hcu.same .clock, hcy.same .clock, hcc.same .clock, hc1.same .clock]
  rw [settled_spec hreadyU htableU] at hclosed
  obtain ⟨-, hbills, hship, hmeter, -, -, -, -, -, hsources, hkeeps⟩ := hclosed
  have hmeterT : t.meter
      = { u.meter with prev := some (pos, e.frame.seq), silence := some (s.now + sc.scaleSilence) } := by
    rw [hmeter, hnowU]
  have hsourceT (j : SourceNo) : t.ladder.sources[j] = u.ladder.sources[j] := by rw [hsources]
  have hbillsT : t.bills = u.bills := hbills
  have hshipT : t.ship = u.ship := hship
  obtain ⟨hweighed, hunassigned⟩ := incoming_totals sc load travel (e.frame.seq != q + 1) s1
  have hstate1 : s1.ship.state = s.ship.state := (hc1.same .ship).1
  have hfaultX : (deliverAndCheck (decide (0 < m)) c).meter.fault = s.meter.fault := by
    rw [deliverAndCheck_fault, (hcc.same .fault).1, hmeter1]
  have hclearingX : (deliverAndCheck (decide (0 < m)) c).meter.clearing = s.meter.clearing := by
    rw [((deliverAndCheck_changes _ c).same .fault).2, (hcc.same .fault).2, hmeter1]
  have hdriftSource : y.ladder.sources[srcZeroDrift] = c.ladder.sources[srcZeroDrift] := hly _ (by decide)
  refine ⟨?_, ?_, ?_, by rw [hmeterT], by rw [hmeterT], ?_, ?_, ?_, hoffered, fun hnone => ?_, fun z hz => ?_⟩
  · rw [hshipT, hcu.same .weighed, hcy.same .weighed, hweighed, hstate1, hc1.same .weighed, hm]
  · rw [hshipT, hcu.same .unassigned, hcy.same .unassigned, hunassigned, hstate1, hc1.same .unassigned, hm]
  · rw [hmeterT]
    change u.meter.belt = _
    rw [hcu.same .belt, hcy.same .belt, hc, incoming_belt, hmeter1]
  · rw [hmeterT]
    change u.meter.fault = _
    rw [(hcu.same .fault).1, hy, countClearing_meter, hfaultX, hclearingX]
  · rw [hmeterT]
    change u.meter.clearing = _
    rw [(hcu.same .fault).2, hy, countClearing_meter, hfaultX, hclearingX]
  · rw [hsourceT, hu, collectZero_leaves _ _ _ _ _ (by decide), hy, countClearing_source, hfaultX, hclearingX,
      deliverAndCheck_leaves _ _ _ (by decide), hc, incoming_leaves _ _ _ _ _ _ (by decide), hl1 _ (by decide)]
  · have hkept : u = y := collectZero_none (hzero.trans hnone) sc load travel
    have hsource := incoming_zeroDrift (sc := sc) (s := s1) (by rw [hmeter1, hsc]) load travel (e.frame.seq != q + 1)
    rw [hd, hmeter1, hl1 _ (by decide)] at hsource
    rw [hsourceT, hmeterT, hkept, hdriftSource]
    refine ⟨hzero.trans hnone, hoffset, hdrift, fun hd0 => ?_, fun hdpos hle => ?_, fun hdpos hlt => ?_⟩
    · exact hsource.trans (if_pos hd0)
    · have hgrown : drift = addMass s.meter.drift d := if_pos hdpos
      rw [hgrown] at hle
      exact hsource.trans ((if_neg hdpos.ne').trans (if_pos hle))
    · have hgrown : drift = addMass s.meter.drift d := if_pos hdpos
      rw [hgrown] at hlt
      exact hsource.trans ((if_neg hdpos.ne').trans (if_neg (Nat.not_le.2 hlt)))
  · intro w l new bare ended kept
    have hyz : y.meter.zero = some z := hzero.trans hz
    have hended {z' : ZeroOp} {o : ZeroOutcome} {n' : Int} (hold : z'.oldOffset = z.oldOffset)
        (hzero' : ZeroEnded z' o n' y u) : ended o n' z'.travel := by
      obtain ⟨hnone, hrecord, hnotice⟩ := hzero'
      refine ⟨by rw [hmeterT]; exact hnone, by rw [hbillsT, hrecord, hold], fun hroom => ?_⟩
      have hload : loadU y ≤ loadU s1 :=
        (countClearing_changes _).loadU.le.trans ((deliverAndCheck_loadU _ c).trans hcc.loadU.le)
      have hwire := hnotice (room_of_loadU hload hroom)
      rw [zeroDone, hhandler, ← hbillsT] at hwire
      exact hkeeps.2 _ _ hwire
    have hkept (hmeter' : u.meter.offset = y.meter.offset ∧ u.meter.drift = y.meter.drift) : kept := by
      refine ⟨?_, ?_⟩
      · rw [hmeterT]
        exact hmeter'.1.trans hoffset
      · rw [hmeterT]
        exact hmeter'.2.trans hdrift
    refine ⟨fun hload => ?_, fun hbare hshort => ?_, fun hbare hlong hshift => ?_, fun hbare hlong hshift => ?_⟩
    · obtain ⟨hz', hm'⟩ := collectZero_loaded (t := travel) hyz (by rw [hoffset]; exact hload)
      rw [hoffset] at hz'
      exact ⟨hended rfl hz', hkept (by rw [hu, hm']; exact ⟨rfl, rfl⟩)⟩
    · have heq : u = { y with meter := { y.meter with zero := some (z.collected load travel) } } := by
        rw [hu, collectZero_bare hyz (by rw [hoffset]; exact hbare), if_neg (Nat.not_le.2 hshort)]
      exact ⟨by rw [hmeterT, heq]; rfl, hkept (by rw [heq]; exact ⟨rfl, rfl⟩)⟩
    · have heq : u = completeZero sc (z.collected load travel) y := by
        rw [hu, collectZero_bare hyz (by rw [hoffset]; exact hbare), if_pos hlong]
      obtain ⟨hz', hm', hcond⟩ := completeZero_zeroed (z.collected load travel) htable (by rw [hoffset]; exact hshift)
      rw [← heq] at hz' hm' hcond
      refine ⟨hended (z' := z.collected load travel) rfl hz', ?_, ?_, by rw [hsourceT]; exact hcond⟩
      · rw [hmeterT, hm']
        rfl
      · rw [hmeterT, hm']
    · have heq : u = completeZero sc (z.collected load travel) y := by
        rw [hu, collectZero_bare hyz (by rw [hoffset]; exact hbare), if_pos hlong]
      obtain ⟨hz', hm'⟩ := completeZero_rejected (z.collected load travel) (by rw [hoffset]; exact hshift)
      rw [← heq] at hz' hm'
      exact ⟨hended (z' := z.collected load travel) rfl hz', hkept (by rw [hm']; exact ⟨rfl, rfl⟩)⟩

end
